-- ==== Sys2Proof/Word.lean ====
section
/-!
DEFINITION. Sys2Proof/Word.lean: the widths the manual names (R4).
-/
namespace Sys2Proof

/-- A 64-bit general register, address or PC (R90). -/
abbrev Word := BitVec 64
/-- One byte of memory. -/
abbrev Byte := BitVec 8
/-- A 96-bit core instruction word (R77). -/
abbrev IWord := BitVec 96
/-- A vector register (R90). -/
abbrev VecBits := BitVec 2048
/-- An accumulator: 64 × 64 elements of 32 bits (R90). -/
abbrev AccBits := BitVec 131072

end Sys2Proof
end

