-- ==== Sys2Proof/Names.lean ====
section
/-!
DEFINITION. Sys2Proof/Names.lean: how the model names the units of R13, R27 and R293. `pkg` is the package number on the
Corram network; package 0 is the one State.reset describes, and the others are named so that named tiles homed in a joined
package (R188) have a place.
-/
namespace Sys2Proof

/-- A Dricen die, 0 to 3 (R13). -/
structure DieId where
  pkg : Nat
  die : Nat
deriving DecidableEq, Repr, Inhabited

/-- A quadrant, 0 to 3 within its die (R13). -/
structure QuadId where
  pkg : Nat
  die : Nat
  quad : Nat
deriving DecidableEq, Repr, Inhabited

/-- A physical core, 0 to 203 within its die; 192 to 203 are the spares of R14 and R51. -/
structure CoreId where
  pkg : Nat
  die : Nat
  core : Nat
deriving DecidableEq, Repr, Inhabited

/-- A cluster, 0 to 23 within its die (R13). -/
structure ClusterId where
  pkg : Nat
  die : Nat
  cl : Nat
deriving DecidableEq, Repr, Inhabited

/-- An L2 slice, 0 to 23 within its quadrant (R13). -/
structure HomeId where
  pkg : Nat
  die : Nat
  quad : Nat
  slice : Nat
deriving DecidableEq, Repr, Inhabited

/-- A partition, 0 to 47 (R293). -/
structure PartId where
  pkg : Nat
  num : Nat
deriving DecidableEq, Repr, Inhabited

/-- A job slice: its partition and sequence number (R55). -/
structure SliceId where
  part : PartId
  seq : Nat
deriving DecidableEq, Repr, Inhabited

/-- A reserved slot of a slice on a core, by its reserved index (R35, R65). A thread keeps this name when it returns to
another physical slot. -/
structure ThreadId where
  core : CoreId
  slice : SliceId
  ridx : Nat
deriving DecidableEq, Repr, Inhabited

end Sys2Proof
end

