-- ==== Sys2Proof/Operand.lean ====
section
/-!
DEFINITION. Sys2Proof/Operand.lean: the operand namespace of R90, the common fields of R83, and the typed arguments that
instructions and device events carry.
-/
namespace Sys2Proof

/-- A general register w0–w63. -/
abbrev Reg := Fin 64
/-- A vector register v0–v31. -/
abbrev VReg := Fin 32

/-- The operand namespace of R90. -/
inductive Opnd where
  | w (n : Fin 64) | v (n : Fin 32) | acc (n : Fin 4) | m (n : Fin 8)
  | pn | pe | ps | pw | pf | pq
  | cb (n : Fin 16)
  | zero | tid | lane | ones | dtime
deriving DecidableEq, Repr, Inhabited

/-- A source that is an operand code in form R, or the immediate of form I16 or I32 (R87). -/
inductive Src where
  | op (o : Opnd) | imm16 (i : BitVec 16) | imm32 (i : BitVec 32)
deriving DecidableEq, Repr

/-- The wait of R84 when WEN = 1. -/
structure Wait where
  cls : BitVec 2
  cnt : BitVec 3
deriving DecidableEq, Repr

/-- The fields every instruction has (R83): guards, scheduling control, HINT and CBF. -/
structure Hdr where
  ga : BitVec 4
  gb : BitVec 4
  gc : Bool
  ya : Bool
  eog : Bool
  wait : Option Wait
  hint : BitVec 4
  cbf : BitVec 3
deriving DecidableEq, Repr

/-- The common fields all zero: no guard, no wait, no hint. -/
def Hdr.plain : Hdr := ⟨0, 0, false, false, false, none, 0, 0⟩

/-- The mask fields MK and ME of R401. -/
structure VMask where
  reg : Fin 8
  on : Bool
deriving DecidableEq, Repr

/-- The target of CALL (R317). -/
inductive CallTgt where
  | disp (d : BitVec 40) | reg (r : Reg)
deriving DecidableEq, Repr

/-- The source of GSET (R343). -/
inductive GsetSrc where
  | reg (o : Opnd) | f | t
deriving DecidableEq, Repr

/-- The direction and register of GMOV (R343). -/
inductive GmovArg where
  | r (d : Reg) | w (s : Opnd)
deriving DecidableEq, Repr

/-- The destination of NLD (R376). -/
inductive NldDst where
  | loc (r : Reg) | cb (n : Fin 16) | v (n : VReg)
deriving DecidableEq, Repr

/-- The operands of MMA (R367). -/
inductive MmaSrc where
  | shape (a b : Reg) | cbs (a b : Fin 16) (fa fb : BitVec 4)
deriving DecidableEq, Repr

/-- The two forms of MRD (R369). -/
inductive MrdArg where
  | reg (d : VReg) (acc : Fin 4) (r : Reg) | mem (a : Reg) (acc : Fin 4)
deriving DecidableEq, Repr

/-- What the bobbin does with a line (R74, R266). -/
inductive LineMove where
  | create | load | evict
deriving DecidableEq, Repr

/-- The unit that holds a shared structure (R269): a core its deque and continuation table, a cluster its watch directory, a home slice its
version table. -/
inductive SharedUnit where
  | core (c : CoreId) | cluster (c : ClusterId) | home (h : HomeId)
deriving DecidableEq, Repr

/-- Where an error strikes (R166, R268, R269). -/
inductive ErrorSite where
  | corrected (d : DieId)                   -- an error that its code corrects: it is counted
  | l1 (c : CoreId) (line : Nat)            -- a clean L1 line
  | granule (addr : Nat)                    -- a granule of memory, scratchpad, pool or Carder-visible storage
  | threadState (t : ThreadId) (lost : Bool)-- control block, trap record, chain header, bookkeeping
  | handleState (t : ThreadId) (lost : Bool)
  | version (h : HomeId) (p : PartId) (name ver g : Nat)  -- a granule of a version's tile
  | shared (p : PartId) (u : SharedUnit)    -- deque, version table, continuation table, watch directory
deriving DecidableEq, Repr

/-- The registers that REGISTER_WRITE reaches: those with no behaviour of their own (R5, R51, R157, R294, R300, R328). -/
inductive RegName where
  | vfbind (pkg vf : Nat) | qctl (pkg vf q : Nat) | ptroot (p : PartId)
  | dmctl (c : ClusterId) | dmdbg (c : ClusterId) | sqsel (q : QuadId) | object (d : DieId) (n : Nat) | logEnable (c : CoreId)
  | overloadCount (d : DieId) (p : PartId) | budgetCount (d : DieId) (p : PartId) | dmstat (c : ClusterId)
  | traceHead (d : DieId) (n : Nat) | regionEntry (p : Option PartId) (pkg : Nat) (n : Nat)
  | satp (q : QuadId) | cpCsr (q : QuadId) (n : Nat)
  | cpRun (q : QuadId) (mode : Fin 4)   -- the command processor's own instructions have taken it to a pc, in a mode (R300)
  | mcBase (d : DieId) | rmapBase (pkg : Nat)   -- the management core places the log and the plain region map (R156, R429)
  | carderSram (d : DieId) (off : Nat) | cpSram (q : QuadId) (off : Nat)  -- firmware's stores into those SRAMs (R280, R300)
deriving DecidableEq, Repr

/-- The modifiers of a CPYR beside its space bits: the format it merges in and its cluster mask (R323). -/
structure CpyrMods where
  fmt : BitVec 4
  cmask : BitVec 8
deriving DecidableEq, Repr

/-- What a host DMA request does (R216). -/
inductive DmaOp where
  | write (pa : Nat) (bytes : List Byte) | read (pa : Nat) (len : Nat) (dst : Nat)
deriving DecidableEq, Repr

end Sys2Proof
end

