-- ==== Sys2Proof/Syntax.lean ====
section
/-!
DEFINITION. Sys2Proof/Syntax.lean: the one inductive of instructions and device steps, one constructor per row of
spec/opcode_table.json. The core constructors carry the fields of R83 and R306 to R416, the Carder's those of R278, and the
device steps name the unit, request or operand they act on.
-/
namespace Sys2Proof

/-- Every row of the opcode table. -/
inductive Instr where
  | add (h : Hdr) (d a : Opnd) (b : Src) (wid : BitVec 2) (sgn sat : Bool)  -- ADD, R310
  | sub (h : Hdr) (d a : Opnd) (b : Src) (wid : BitVec 2) (sgn sat : Bool)  -- SUB, R381
  | mul (h : Hdr) (d a : Opnd) (b : Src) (wid : BitVec 2) (sgn sat hi : Bool)  -- MUL, R362
  | div (h : Hdr) (gd : BitVec 3) (d : Reg) (a : Opnd) (b : Src) (wid : BitVec 2) (sgn : Bool)  -- DIV, R329
  | rem (h : Hdr) (gd : BitVec 3) (d : Reg) (a : Opnd) (b : Src) (wid : BitVec 2) (sgn : Bool)  -- REM, R389
  | and (h : Hdr) (d a : Opnd) (b : Src) (wid : BitVec 2) (sgn : Bool)  -- AND, R310
  | andn (h : Hdr) (d a : Opnd) (b : Src) (wid : BitVec 2) (sgn : Bool)  -- ANDN, R310
  | or (h : Hdr) (d a : Opnd) (b : Src) (wid : BitVec 2) (sgn : Bool)  -- OR, R381
  | xor (h : Hdr) (d a : Opnd) (b : Src) (wid : BitVec 2) (sgn : Bool)  -- XOR, R381
  | shl (h : Hdr) (d a : Opnd) (b : Src) (wid : BitVec 2) (sgn : Bool)  -- SHL, R395
  | shr (h : Hdr) (d a : Opnd) (b : Src) (wid : BitVec 2) (sgn : Bool)  -- SHR, R395
  | rot (h : Hdr) (d a : Opnd) (b : Src) (wid : BitVec 2)  -- ROT, R395
  | clz (h : Hdr) (d a : Opnd) (wid : BitVec 2)  -- CLZ, R319
  | ctz (h : Hdr) (d a : Opnd) (wid : BitVec 2)  -- CTZ, R319
  | popc (h : Hdr) (d a : Opnd) (wid : BitVec 2)  -- POPC, R386
  | cmp (h : Hdr) (gd : BitVec 3) (a : Opnd) (b : Src) (wid : BitVec 2) (sgn : Bool) (cond : BitVec 4)  -- CMP, R320
  | min (h : Hdr) (d a : Opnd) (b : Src) (wid : BitVec 2) (sgn : Bool)  -- MIN, R362
  | max (h : Hdr) (d a : Opnd) (b : Src) (wid : BitVec 2) (sgn : Bool)  -- MAX, R362
  | sel (h : Hdr) (d a : Opnd) (b : Src) (sg : BitVec 3) (inv : Bool)  -- SEL, R396
  | ext (h : Hdr) (d : Reg) (a : Opnd) (b : Src) (sgn : Bool)  -- EXT, R332
  | ins (h : Hdr) (d : Reg) (a : Opnd) (b : Src)  -- INS, R332
  | lea (h : Hdr) (d a : Opnd) (b : Src) (sh : BitVec 2) (loc : Bool)  -- LEA, R361
  | mov (h : Hdr) (d s : Opnd)  -- MOV, R363
  | movi (h : Hdr) (d : Reg) (imm : BitVec 48) (hi : Bool)  -- MOVI, R364
  | br (h : Hdr) (disp : BitVec 40)  -- BR, R316
  | bri (h : Hdr) (t : Reg)  -- BRI, R316
  | call (h : Hdr) (t : CallTgt) (frame : BitVec 8)  -- CALL, R317
  | ret (h : Hdr) (link : Reg) (f : Bool)  -- RET, R392
  | reti (h : Hdr)  -- RETI, R261
  | rep (h : Hdr) (wc wi : Reg) (vbase vspanM1 vstep : BitVec 5) (astep : BitVec 2)  -- REP, R391
  | trap (h : Hdr) (info : Opnd) (code : BitVec 8)  -- TRAP, R400
  | exit (h : Hdr)  -- EXIT, R331
  | yield (h : Hdr) (s : Bool) (dl : Reg)  -- YIELD, R416
  | nop (h : Hdr)  -- NOP, R365
  | gset (h : Hdr) (gd : BitVec 3) (s : GsetSrc)  -- GSET, R343
  | gmov (h : Hdr) (x : GmovArg)  -- GMOV, R343
  | glog (h : Hdr) (gd a b : BitVec 3) (ia ib : Bool) (op : BitVec 2)  -- GLOG, R343
  | csrr (h : Hdr) (d : Reg) (n : BitVec 12)  -- CSRR, R324
  | csrw (h : Hdr) (s : Opnd) (n : BitVec 12)  -- CSRW, R324
  | wspsw (h : Hdr) (d s : Reg)  -- WSPSW, R414
  | dbg (h : Hdr) (code : BitVec 16)  -- DBG, R327
  | waitev (h : Hdr) (gd : BitVec 3) (d a : Reg) (e t : Opnd)  -- WAITEV, R413
  | ovft (h : Hdr) (t : Src)  -- OVFT, R382
  | placew (h : Hdr) (i e : Opnd)  -- PLACEW, R384
  | abort (h : Hdr) (clr : Bool)  -- ABORT, R308
  | abchk (h : Hdr) (gd : BitVec 3)  -- ABCHK, R308
  | fence (h : Hdr) (scope : BitVec 3)  -- FENCE, R340
  | xfence (h : Hdr) (scope : BitVec 3) (fr dest : BitVec 6)  -- XFENCE, R415
  | fadd (h : Hdr) (d : Reg) (a b : Opnd) (fmt : BitVec 2)  -- FADD, R334
  | fsub (h : Hdr) (d : Reg) (a b : Opnd) (fmt : BitVec 2)  -- FSUB, R334
  | fmul (h : Hdr) (d : Reg) (a b : Opnd) (fmt : BitVec 2)  -- FMUL, R334
  | fdiv (h : Hdr) (d : Reg) (a b : Opnd) (fmt : BitVec 2)  -- FDIV, R334
  | fma (h : Hdr) (d : Reg) (a b c : Opnd) (fmt : BitVec 2)  -- FMA, R334
  | fsqrt (h : Hdr) (d : Reg) (a : Opnd) (fmt : BitVec 2)  -- FSQRT, R334
  | fmin (h : Hdr) (d : Reg) (a b : Opnd) (fmt : BitVec 2)  -- FMIN, R334
  | fmax (h : Hdr) (d : Reg) (a b : Opnd) (fmt : BitVec 2)  -- FMAX, R334
  | fcmp (h : Hdr) (gd : BitVec 3) (a b : Opnd) (fmt : BitVec 2) (cond : BitVec 4)  -- FCMP, R335
  | fclass (h : Hdr) (d : Reg) (a : Opnd) (fmt : BitVec 2)  -- FCLASS, R336
  | fcvt (h : Hdr) (d : Reg) (a : Opnd) (src dst : BitVec 4)  -- FCVT, R338
  | fsgn (h : Hdr) (d : Reg) (a b : Opnd) (op fmt : BitVec 2)  -- FSGN, R337
  | qmake (h : Hdr) (d : Reg) (n m : Opnd) (sgn : Bool)  -- QMAKE, R140
  | qnum (h : Hdr) (d : Reg) (a : Opnd)  -- QNUM, R140
  | qden (h : Hdr) (d : Reg) (a : Opnd)  -- QDEN, R140
  | qcf (h : Hdr) (gd : BitVec 3) (d1 d2 : Reg) (a : Opnd)  -- QCF, R140
  | ld (h : Hdr) (d : Reg) (b : Opnd) (x : Src) (ord : BitVec 2) (scope : BitVec 3) (sz : BitVec 2) (sgn : Bool)  -- LD, R357
  | st (h : Hdr) (s b : Opnd) (x : Src) (ord : BitVec 2) (scope : BitVec 3) (sz : BitVec 2)  -- ST, R398
  | pf (h : Hdr) (b : Opnd) (x : Src)  -- PF, R383
  | lds (h : Hdr) (d : Reg) (b : Opnd) (x : Src) (ord : BitVec 2) (scope : BitVec 3) (sz : BitVec 2) (sgn : Bool) (fe : BitVec 2)  -- LDS, R359
  | sts (h : Hdr) (s b : Opnd) (x : Src) (ord : BitVec 2) (scope : BitVec 3) (sz : BitVec 2) (fe : Bool)  -- STS, R399
  | feqry (h : Hdr) (d a : Reg) (n : BitVec 16)  -- FEQRY, R341
  | feset (h : Hdr) (a mask : Reg) (val : Bool)  -- FESET, R341
  | atom (h : Hdr) (d a : Reg) (v : Opnd) (ord : BitVec 2) (scope : BitVec 3) (op : BitVec 4) (w32 sgn : Bool)  -- ATOM, R312
  | cas (h : Hdr) (gd : BitVec 3) (d a : Reg) (e n : Opnd) (ord : BitVec 2) (scope : BitVec 3) (w32 : Bool)  -- CAS, R312
  | nalloc (h : Hdr) (gd : BitVec 3) (d : Reg) (j : Src)  -- NALLOC, R374
  | nst (h : Hdr) (p : Bool) (d r : Reg) (a : Opnd) (c : Src) (size : BitVec 3) (fmt : BitVec 4)  -- NST, R375
  | nld (h : Hdr) (d r : Reg) (t : NldDst) (maxsz : BitVec 3) (p cons ge : Bool)  -- NLD, R376
  | nrel (h : Hdr) (gd : BitVec 3) (r : Reg)  -- NREL, R181
  | ndrop (h : Hdr) (gd : BitVec 3) (r : Reg)  -- NDROP, R182
  | nqry (h : Hdr) (d r : Reg)  -- NQRY, R174
  | nred (h : Hdr) (d r : Reg) (a : Opnd) (c : Reg) (size : BitVec 3) (fmt : BitVec 4)  -- NRED, R378
  | nsub (h : Hdr) (d r : Reg) (cb : Fin 16) (c : Reg) (wb cons : Bool) (size : BitVec 3) (fmt : BitVec 4)  -- NSUB, R379
  | naband (h : Hdr) (gd : BitVec 3) (r : Reg)  -- NABAND, R192
  | nconf (h : Hdr) (gd : BitVec 3) (r : Reg)  -- NCONF, R380
  | nrevoke (h : Hdr) (gd : BitVec 3) (r : Reg)  -- NREVOKE, R380
  | fork (h : Hdr) (gd : BitVec 3) (pc arg j : Opnd)  -- FORK, R342
  | join (h : Hdr) (gd : BitVec 3) (d a : Reg)  -- JOIN, R351
  | launch (h : Hdr) (gd : BitVec 3) (d a : Reg) (vp : Bool)  -- LAUNCH, R355
  | hinit (h : Hdr) (d : Reg)  -- HINIT, R345
  | htest (h : Hdr) (gd : BitVec 3) (d a : Reg)  -- HTEST, R346
  | hwait (h : Hdr) (gd : BitVec 3) (a : Reg)  -- HWAIT, R347
  | hcancel (h : Hdr) (gd : BitVec 3) (a : Reg)  -- HCANCEL, R348
  | hresolve (h : Hdr) (gd : BitVec 3) (a : Reg) (v : Opnd) (flt : Bool)  -- HRESOLVE, R349
  | hjoin (h : Hdr) (gd : BitVec 3) (pc arg j : Opnd) (h1 : Reg) (h2 : Opnd)  -- HJOIN, R350
  | cpy (h : Hdr) (d dst src c : Reg) (cmask : BitVec 8) (sk dk : Bool)  -- CPY, R322
  | cpyr (h : Hdr) (d dst src c : Reg) (sk dk : Bool) (m : CpyrMods)  -- CPYR, R323
  | bar (h : Hdr) (n : BitVec 2)  -- BAR, R314
  | barset (h : Hdr) (n : BitVec 2) (s : Option Reg)  -- BARSET, R313
  | boinit (h : Hdr) (a : Reg) (e : Option Opnd)  -- BOINIT, R315
  | boarr (h : Hdr) (a : Reg) (c : Src)  -- BOARR, R315
  | bowait (h : Hdr) (gd : BitVec 3) (a : Reg)  -- BOWAIT, R232
  | cbset (h : Hdr) (cb : Fin 16) (cfg : Option (Reg × BitVec 16))  -- CBSET, R318
  | adv (h : Hdr) (cb : Fin 16) (n : Src) (prod : Bool)  -- ADV, R311
  | vabs (h : Hdr) (d : VReg) (a : Opnd) (m : VMask) (sgn sat : Bool)  -- VABS, R403
  | vadd (h : Hdr) (d : VReg) (a : Opnd) (b : Src) (m : VMask) (sgn sat : Bool)  -- VADD, R403
  | vand (h : Hdr) (d : VReg) (a : Opnd) (b : Src) (m : VMask)  -- VAND, R403
  | vbcast (h : Hdr) (d : VReg) (s : Src) (m : VMask) (fmt : BitVec 4)  -- VBCAST, R405
  | vcmp (h : Hdr) (d : Fin 8) (a : Opnd) (b : Src) (m : VMask) (sgn : Bool) (cond : BitVec 4)  -- VCMP, R404
  | vexp (h : Hdr) (d : VReg) (a : Opnd) (m : VMask)  -- VEXP, R220
  | vfma (h : Hdr) (d : VReg) (a b c : Opnd) (m : VMask) (sgn sat : Bool)  -- VFMA, R403
  | vlog (h : Hdr) (d : VReg) (a : Opnd) (m : VMask)  -- VLOG, R220
  | vmax (h : Hdr) (d : VReg) (a : Opnd) (b : Src) (m : VMask) (sgn : Bool)  -- VMAX, R403
  | vmaxr (h : Hdr) (d : Reg) (a : VReg) (m : VMask) (sgn : Bool)  -- VMAXR, R406
  | vmin (h : Hdr) (d : VReg) (a : Opnd) (b : Src) (m : VMask) (sgn : Bool)  -- VMIN, R403
  | vmul (h : Hdr) (d : VReg) (a : Opnd) (b : Src) (m : VMask) (sgn sat : Bool)  -- VMUL, R403
  | vneg (h : Hdr) (d : VReg) (a : Opnd) (m : VMask) (sgn sat : Bool)  -- VNEG, R403
  | vor (h : Hdr) (d : VReg) (a : Opnd) (b : Src) (m : VMask)  -- VOR, R403
  | vperm (h : Hdr) (d : VReg) (a i : Opnd) (m : VMask)  -- VPERM, R405
  | vrcp (h : Hdr) (d : VReg) (a : Opnd) (m : VMask)  -- VRCP, R220
  | vrsq (h : Hdr) (d : VReg) (a : Opnd) (m : VMask)  -- VRSQ, R220
  | vsel (h : Hdr) (d : VReg) (a b : Opnd) (sm : Fin 8)  -- VSEL, R405
  | vshl (h : Hdr) (d : VReg) (a : Opnd) (b : Src) (m : VMask) (sgn : Bool)  -- VSHL, R407
  | vshr (h : Hdr) (d : VReg) (a : Opnd) (b : Src) (m : VMask) (sgn : Bool)  -- VSHR, R407
  | vsub (h : Hdr) (d : VReg) (a : Opnd) (b : Src) (m : VMask) (sgn sat : Bool)  -- VSUB, R403
  | vsum (h : Hdr) (d : Reg) (a : VReg) (m : VMask) (sgn : Bool)  -- VSUM, R406
  | vxor (h : Hdr) (d : VReg) (a : Opnd) (b : Src) (m : VMask)  -- VXOR, R403
  | vld (h : Hdr) (d : VReg) (rec pos : Reg) (m : VMask) (nregM1 : BitVec 5)  -- VLD, R408
  | vst (h : Hdr) (d : VReg) (rec pos : Reg) (m : VMask) (nregM1 : BitVec 5)  -- VST, R408
  | vldContiguous (h : Hdr) (d : VReg) (b : Opnd) (x : Src) (m : VMask) (fmt : BitVec 4) (pl : Bool)  -- VLD_CONTIGUOUS, R409
  | vstContiguous (h : Hdr) (d : VReg) (b : Opnd) (x : Src) (m : VMask) (pl : Bool)  -- VST_CONTIGUOUS, R409
  | vgath (h : Hdr) (d i : VReg) (rec : Reg) (m : VMask)  -- VGATH, R410
  | vscat (h : Hdr) (d i : VReg) (rec : Reg) (m : VMask)  -- VSCAT, R410
  | vcvt (h : Hdr) (d a : VReg) (s : Opnd) (m : VMask) (sgn : Bool) (fmt : BitVec 4) (seg : BitVec 2)  -- VCVT, R411
  | vcb (h : Hdr) (a : Reg)  -- VCB, R412
  | mma (h : Hdr) (acc : Fin 4) (s : MmaSrc) (k : BitVec 9) (au bu : Bool)  -- MMA, R367
  | mzero (h : Hdr) (acc : Fin 4) (int : Bool)  -- MZERO, R368
  | mrd (h : Hdr) (x : MrdArg) (peek : Bool)  -- MRD, R369
  | mst (h : Hdr) (a : Reg) (acc : Fin 4)  -- MST, R370
  | mld (h : Hdr) (acc : Fin 4) (a : Reg) (int : Bool)  -- MLD, R370
  | mcvt (h : Hdr) (a : Reg) (acc : Fin 4) (s : Reg) (fmt : BitVec 4) (sgn : Bool)  -- MCVT, R371
  | mcb (h : Hdr) (a : Reg) (side : Bool)  -- MCB, R372
  | kvmap (h : Hdr) (gd : BitVec 3) (d : Reg) (a p : Opnd)  -- KVMAP, R243
  | kvext (h : Hdr) (gd : BitVec 3) (d : Reg) (a n : Opnd)  -- KVEXT, R245
  | kvtrunc (h : Hdr) (gd : BitVec 3) (d : Reg) (a n : Opnd)  -- KVTRUNC, R246
  | kvmatch (h : Hdr) (gd : BitVec 3) (d : Reg) (a b n : Opnd)  -- KVMATCH, R248
  | pxlook (h : Hdr) (gd : BitVec 3) (d : Reg) (hash p t n : Opnd)  -- PXLOOK, R250
  | pxins (h : Hdr) (gd : BitVec 3) (d : Reg) (r : Opnd)  -- PXINS, R250
  | plan (h : Hdr) (d b o c : Reg)  -- PLAN, R385
  | smxm (h : Hdr) (d a b : VReg)  -- SMXM, R254
  | smxf (h : Hdr) (gd : BitVec 3) (d s : VReg)  -- SMXF, R255
  | rng (h : Hdr) (d : VReg) (c k : Reg) (u : Bool)  -- RNG, R256
  -- the Carder's words (R278, R279)
  | cdend  -- CDEND
  | cdmov (d a : BitVec 4)  -- CDMOV
  | cdli (d : BitVec 4) (i : BitVec 22)  -- CDLI
  | cdlde (d : BitVec 4) (n : Fin 8)  -- CDLDE
  | cdlds (d : BitVec 4) (obj : BitVec 8) (a : BitVec 4)  -- CDLDS
  | cdsts (obj : BitVec 8) (a b : BitVec 4)  -- CDSTS
  | cdadd (d a b : BitVec 4)  -- CDADD
  | cdaddImm (d a : BitVec 4) (i : BitVec 13)  -- CDADD_IMM
  | cdsub (d a b : BitVec 4)  -- CDSUB
  | cdsubImm (d a : BitVec 4) (i : BitVec 13)  -- CDSUB_IMM
  | cdand (d a b : BitVec 4)  -- CDAND
  | cdandImm (d a : BitVec 4) (i : BitVec 13)  -- CDAND_IMM
  | cdor (d a b : BitVec 4)  -- CDOR
  | cdorImm (d a : BitVec 4) (i : BitVec 13)  -- CDOR_IMM
  | cdxor (d a b : BitVec 4)  -- CDXOR
  | cdxorImm (d a : BitVec 4) (i : BitVec 13)  -- CDXOR_IMM
  | cdshl (d a b : BitVec 4)  -- CDSHL
  | cdshlImm (d a : BitVec 4) (i : BitVec 13)  -- CDSHL_IMM
  | cdshr (d a b : BitVec 4)  -- CDSHR
  | cdshrImm (d a : BitVec 4) (i : BitVec 13)  -- CDSHR_IMM
  | cdmin (d a b : BitVec 4)  -- CDMIN
  | cdminImm (d a : BitVec 4) (i : BitVec 13)  -- CDMIN_IMM
  | cdmax (d a b : BitVec 4)  -- CDMAX
  | cdmaxImm (d a : BitVec 4) (i : BitVec 13)  -- CDMAX_IMM
  | cdhash (d a b : BitVec 4)  -- CDHASH
  | cdhashImm (d a : BitVec 4) (i : BitVec 13)  -- CDHASH_IMM
  | cdbf (cond : BitVec 4) (a b : BitVec 4) (off : BitVec 6)  -- CDBF
  | cdhist (obj : BitVec 8) (a : BitVec 4)  -- CDHIST
  | cdcms (d : BitVec 4) (obj : BitVec 8) (a : BitVec 4)  -- CDCMS
  | cdhll (obj : BitVec 8) (a : BitVec 4)  -- CDHLL
  | cdemit (obj : BitVec 8) (a b : BitVec 4)  -- CDEMIT
  | cdtrig (obj : BitVec 8) (a : BitVec 4)  -- CDTRIG
  | cddrop  -- CDDROP
  -- steps of the device's other agents, which no instruction word encodes
  | doorbell (pkg vf q : Nat) (tail : BitVec 32)  -- DOORBELL, R294
  | launchRecord (q : QuadId) (vf n : Nat)  -- LAUNCH_RECORD, R55
  | admissionEvaluation (p : PartId)  -- ADMISSION_EVALUATION, R60
  | accumulatorSave (s : SliceId) (c : CoreId) (a : Nat)  -- ACCUMULATOR_SAVE, R64
  | accumulatorLoad (s : SliceId) (c : CoreId) (a : Nat)  -- ACCUMULATOR_LOAD, R65
  | sliceCompletion (s : SliceId)  -- SLICE_COMPLETION, R33
  | kill (s : SliceId)  -- KILL, R60
  | budgetExtension (s : SliceId) (n : Word)  -- BUDGET_EXTENSION, R68
  | requeue (s : SliceId) (deadline n : Word)  -- REQUEUE, R68
  | allotmentDraw (s : SliceId) (c : CoreId)  -- ALLOTMENT_DRAW, R67
  | allotmentRecall (s : SliceId)  -- ALLOTMENT_RECALL, R67
  | budgetExhausted (s : SliceId)  -- BUDGET_EXHAUSTED, R68
  | deadlineMissed (s : SliceId)  -- DEADLINE_MISSED, R57
  | sliceYieldMessage (k : Nat)  -- SLICE_YIELD_MESSAGE, R416
  | idleSlotPop (t : ThreadId)  -- IDLE_SLOT_POP, R35
  | stealRequest (t : ThreadId)  -- STEAL_REQUEST, R37
  | stealReply (t : ThreadId)  -- STEAL_REPLY, R75
  | stealRetry (t : ThreadId)  -- STEAL_RETRY, R37
  | futureWake (k : Nat)  -- FUTURE_WAKE, R45
  | registrationPoll (k : Nat)  -- REGISTRATION_POLL, R45
  | waitingContinuationPush (c : CoreId)  -- WAITING_CONTINUATION_PUSH, R39
  | taskEndByFault (t : ThreadId)  -- TASK_END_BY_FAULT, R267
  | fetchRefetch (t : ThreadId)  -- FETCH_REFETCH, R81
  | gcdOpComplete (c : CoreId) (k : Nat)  -- GCD_OP_COMPLETE, R141
  | dividerOpComplete (c : CoreId) (k : Nat)  -- DIVIDER_OP_COMPLETE, R330
  | matrixOpExecute (c : CoreId)  -- MATRIX_OP_EXECUTE, R225
  | bobbinLineMove (t : ThreadId) (line : Nat) (mv : LineMove)  -- BOBBIN_LINE_MOVE, R74
  | flyerChunk (c : ClusterId) (k : Nat)  -- FLYER_CHUNK, R322
  | cpyrMerge (k : Nat)  -- CPYR_MERGE, R230
  | boarrArrival (k : Nat)  -- BOARR_ARRIVAL, R315
  | powerGateEntry (c : CoreId)  -- POWER_GATE_ENTRY, R76
  | powerGateWake (c : CoreId)  -- POWER_GATE_WAKE, R76
  | boostClockDown (p : PartId)  -- BOOST_CLOCK_DOWN, R25
  | boostClockRestore (p : PartId)  -- BOOST_CLOCK_RESTORE, R25
  | nstArrival (k : Nat)  -- NST_ARRIVAL, R176
  | nstAcknowledge (k : Nat)  -- NST_ACKNOWLEDGE, R177
  | refusedStoreRetry (k : Nat)  -- REFUSED_STORE_RETRY, R179
  | nldRequest (k : Nat)  -- NLD_REQUEST, R180
  | retryResend (k : Nat)  -- RETRY_RESEND, R184
  | arrivalNotice (k : Nat)  -- ARRIVAL_NOTICE, R185
  | nredContributionArrival (k : Nat)  -- NRED_CONTRIBUTION_ARRIVAL, R189
  | rootDecisionArrival (k : Nat)  -- ROOT_DECISION_ARRIVAL, R198
  | withdrawal (t : ThreadId)  -- WITHDRAWAL, R360
  | reelSlotFill (k : Nat)  -- REEL_SLOT_FILL, R162
  | reelWritebackDrain (k : Nat)  -- REEL_WRITEBACK_DRAIN, R162
  | nldSlotArrival (k : Nat)  -- NLD_SLOT_ARRIVAL, R161
  | scopeMiss (k : Nat)  -- SCOPE_MISS, R213
  | promotedReply (k : Nat)  -- PROMOTED_REPLY, R213
  | remoteBankAccess (k : Nat)  -- REMOTE_BANK_ACCESS, R150
  | neighbourWordArrival (k : Nat)  -- NEIGHBOUR_WORD_ARRIVAL, R235
  | farMessageDelivery (k : Nat)  -- FAR_MESSAGE_DELIVERY, R238
  | portReplyArrival (k : Nat)  -- PORT_REPLY_ARRIVAL, R236
  | barrierArrivalForward (s : SliceId) (c : CoreId) (n : BitVec 2)  -- BARRIER_ARRIVAL_FORWARD, R240
  | barrierRelease (s : SliceId) (c : CoreId) (n : BitVec 2)  -- BARRIER_RELEASE, R240
  | planExecute (k : Nat)  -- PLAN_EXECUTE, R252
  | waitevWake (t : ThreadId)  -- WAITEV_WAKE, R413
  | waitevTimeout (t : ThreadId)  -- WAITEV_TIMEOUT, R413
  | pageWalk (q : QuadId) (k : Nat)  -- PAGE_WALK, R159
  | missTableRetry (t : ThreadId)  -- MISS_TABLE_RETRY, R159
  | regionCacheFill (q : QuadId) (k : Nat)  -- REGION_CACHE_FILL, R155
  | uncorrectableError (e : ErrorSite)  -- UNCORRECTABLE_ERROR, R166
  | carderEvent (d : DieId) (k : Nat)  -- CARDER_EVENT, R274
  | carderWindowStart (d : DieId)  -- CARDER_WINDOW_START, R275
  | stateChangeRecord (c : CoreId)  -- STATE_CHANGE_RECORD, R284
  | stateLogEscape (c : CoreId)  -- STATE_LOG_ESCAPE, R284
  | filterSlotLoad (d : DieId) (slot : Nat) (desc : Word) (words : List (BitVec 32))  -- FILTER_SLOT_LOAD, R277
  | filterSlotDetach (d : DieId) (slot : Nat) (desc : Word)  -- FILTER_SLOT_DETACH, R277
  | objectClear (d : DieId) (obj : Nat)  -- OBJECT_CLEAR, R280
  | debugStop (c : ClusterId)  -- DEBUG_STOP, R286
  | debugResume (c : ClusterId)  -- DEBUG_RESUME, R285
  | debugStep (c : ClusterId) (core slot : Nat)  -- DEBUG_STEP, R290
  | watchdogSoftRestart (q : QuadId)  -- WATCHDOG_SOFT_RESTART, R303
  | watchdogFirmwareReload (q : QuadId)  -- WATCHDOG_FIRMWARE_RELOAD, R303
  | watchdogPartitionReset (q : QuadId)  -- WATCHDOG_PARTITION_RESET, R303
  | watchdogDieReset (q : QuadId)  -- WATCHDOG_DIE_RESET, R303
  | watchdogPackageReset (q : QuadId) (mcoreFailed : Bool)  -- WATCHDOG_PACKAGE_RESET, R303
  | stalled (s : SliceId)  -- STALLED, R303
  | wdkick (q : QuadId)  -- WDKICK, R300
  | fwsubmit (q : QuadId) (p : PartId) (addr : Word)  -- FWSUBMIT, R300
  | cpevthead (q : QuadId) (v : Word)  -- CPEVTHEAD, R300
  | heldEventAppend (q : QuadId)  -- HELD_EVENT_APPEND, R296
  | swapreq (q : QuadId) (addr : Word)  -- SWAPREQ, R302
  | swapVerifyDone (q : QuadId) (pass : Bool)  -- SWAP_VERIFY_DONE, R302
  | mode (p : PartId) (v : Word)  -- MODE, R22
  | dctl (p : PartId) (v : Word)  -- DCTL, R61
  | ovdef (p : PartId) (v : Word)  -- OVDEF, R119
  | vquota (p : PartId) (v : Word)  -- VQUOTA, R172
  | nregion (p : PartId) (v : Word)  -- NREGION, R153
  | tlbInvalidate (p : PartId) (v : Word)  -- TLB_INVALIDATE, R159
  | tlbInvalidateComplete (p : PartId)  -- TLB_INVALIDATE_COMPLETE, R159
  | arena (p : PartId) (d : Fin 4) (v : Word)  -- ARENA, R171
  | wpool (p : PartId) (n : Fin 8) (v : Word)  -- WPOOL, R244
  | pxctl (p : PartId) (v : Word)  -- PXCTL, R249
  | nrmbase (p : PartId) (v : Word)  -- NRMBASE, R156
  | regrel (p : PartId) (v : Word)  -- REGREL, R156
  | reset (p : PartId) (v : Word)  -- RESET, R270
  | partitionResetComplete (p : PartId)  -- PARTITION_RESET_COMPLETE, R270
  | gown (pkg g : Nat) (v : Word)  -- GOWN, R429
  | mctail (d : DieId) (v : Word)  -- MCTAIL, R304
  | registerWrite (r : RegName) (v : Word)  -- REGISTER_WRITE, R5
  | dieReset (d : DieId)  -- DIE_RESET, R7
  | packageReset (pkg : Nat)  -- PACKAGE_RESET, R7
  | throttleStart (pkg : Nat)  -- THROTTLE_START, R305
  | throttleEnd (pkg : Nat)  -- THROTTLE_END, R305
  | overtempShutdown (pkg : Nat)  -- OVERTEMP_SHUTDOWN, R305
  | flitCrcRetry (d : DieId) (boundary : Nat)  -- FLIT_CRC_RETRY, R297
  | corramFlitRetry (d : DieId) (link : Nat)  -- CORRAM_FLIT_RETRY, R298
  | linkRetrain (d : DieId) (link : Nat) (ok : Bool)  -- LINK_RETRAIN, R298
  | storeQueueWrite (c : CoreId) (k : Nat)  -- STORE_QUEUE_WRITE, R204
  | homeRequest (k : Nat)  -- HOME_REQUEST, R377
  | homeAnswer (k : Nat)  -- HOME_ANSWER, R377
  | hostDma (q : QuadId) (op : DmaOp)  -- HOST_DMA, R216
  | regionReleaseComplete (p : PartId)  -- REGION_RELEASE_COMPLETE, R156
  | roothome (p : PartId) (v : Word)  -- ROOTHOME, R295
  | partitionCreateDestroy (p : PartId) (units : List Nat)  -- PARTITION_CREATE_DESTROY, R293
  | ucieRetrain (d : DieId) (boundary : Nat)  -- UCIE_RETRAIN, R297
deriving DecidableEq, Repr

end Sys2Proof
end

