-- ==== Sys2Proof/Machine/Legal.lean ====
section
/-!
DEFINITION. Sys2Proof/Machine/Legal.lean: what R102 and the reference entries make illegal of an instruction word on the word
alone. State-dependent illegal forms (SPEC, rational mode, REP bodies, tags) are checked where the instruction executes.
-/
namespace Sys2Proof

/-- The fields every core instruction carries; none for the Carder's words and for device steps. -/
def Instr.hdr? : Instr → Option Hdr
  | .add h _ _ _ _ _ _ => some h
  | .sub h _ _ _ _ _ _ => some h
  | .mul h _ _ _ _ _ _ _ => some h
  | .div h _ _ _ _ _ _ => some h
  | .rem h _ _ _ _ _ _ => some h
  | .and h _ _ _ _ _ => some h
  | .andn h _ _ _ _ _ => some h
  | .or h _ _ _ _ _ => some h
  | .xor h _ _ _ _ _ => some h
  | .shl h _ _ _ _ _ => some h
  | .shr h _ _ _ _ _ => some h
  | .rot h _ _ _ _ => some h
  | .clz h _ _ _ => some h
  | .ctz h _ _ _ => some h
  | .popc h _ _ _ => some h
  | .cmp h _ _ _ _ _ _ => some h
  | .min h _ _ _ _ _ => some h
  | .max h _ _ _ _ _ => some h
  | .sel h _ _ _ _ _ => some h
  | .ext h _ _ _ _ => some h
  | .ins h _ _ _ => some h
  | .lea h _ _ _ _ _ => some h
  | .mov h _ _ => some h
  | .movi h _ _ _ => some h
  | .br h _ => some h
  | .bri h _ => some h
  | .call h _ _ => some h
  | .ret h _ _ => some h
  | .reti h => some h
  | .rep h _ _ _ _ _ _ => some h
  | .trap h _ _ => some h
  | .exit h => some h
  | .yield h _ _ => some h
  | .nop h => some h
  | .gset h _ _ => some h
  | .gmov h _ => some h
  | .glog h _ _ _ _ _ _ => some h
  | .csrr h _ _ => some h
  | .csrw h _ _ => some h
  | .wspsw h _ _ => some h
  | .dbg h _ => some h
  | .waitev h _ _ _ _ _ => some h
  | .ovft h _ => some h
  | .placew h _ _ => some h
  | .abort h _ => some h
  | .abchk h _ => some h
  | .fence h _ => some h
  | .xfence h _ _ _ => some h
  | .fadd h _ _ _ _ => some h
  | .fsub h _ _ _ _ => some h
  | .fmul h _ _ _ _ => some h
  | .fdiv h _ _ _ _ => some h
  | .fma h _ _ _ _ _ => some h
  | .fsqrt h _ _ _ => some h
  | .fmin h _ _ _ _ => some h
  | .fmax h _ _ _ _ => some h
  | .fcmp h _ _ _ _ _ => some h
  | .fclass h _ _ _ => some h
  | .fcvt h _ _ _ _ => some h
  | .fsgn h _ _ _ _ _ => some h
  | .qmake h _ _ _ _ => some h
  | .qnum h _ _ => some h
  | .qden h _ _ => some h
  | .qcf h _ _ _ _ => some h
  | .ld h _ _ _ _ _ _ _ => some h
  | .st h _ _ _ _ _ _ => some h
  | .pf h _ _ => some h
  | .lds h _ _ _ _ _ _ _ _ => some h
  | .sts h _ _ _ _ _ _ _ => some h
  | .feqry h _ _ _ => some h
  | .feset h _ _ _ => some h
  | .atom h _ _ _ _ _ _ _ _ => some h
  | .cas h _ _ _ _ _ _ _ _ => some h
  | .nalloc h _ _ _ => some h
  | .nst h _ _ _ _ _ _ _ => some h
  | .nld h _ _ _ _ _ _ _ => some h
  | .nrel h _ _ => some h
  | .ndrop h _ _ => some h
  | .nqry h _ _ => some h
  | .nred h _ _ _ _ _ _ => some h
  | .nsub h _ _ _ _ _ _ _ _ => some h
  | .naband h _ _ => some h
  | .nconf h _ _ => some h
  | .nrevoke h _ _ => some h
  | .fork h _ _ _ _ => some h
  | .join h _ _ _ => some h
  | .launch h _ _ _ _ => some h
  | .hinit h _ => some h
  | .htest h _ _ _ => some h
  | .hwait h _ _ => some h
  | .hcancel h _ _ => some h
  | .hresolve h _ _ _ _ => some h
  | .hjoin h _ _ _ _ _ _ => some h
  | .cpy h _ _ _ _ _ _ _ => some h
  | .cpyr h _ _ _ _ _ _ _ => some h
  | .bar h _ => some h
  | .barset h _ _ => some h
  | .boinit h _ _ => some h
  | .boarr h _ _ => some h
  | .bowait h _ _ => some h
  | .cbset h _ _ => some h
  | .adv h _ _ _ => some h
  | .vabs h _ _ _ _ _ => some h
  | .vadd h _ _ _ _ _ _ => some h
  | .vand h _ _ _ _ => some h
  | .vbcast h _ _ _ _ => some h
  | .vcmp h _ _ _ _ _ _ => some h
  | .vexp h _ _ _ => some h
  | .vfma h _ _ _ _ _ _ _ => some h
  | .vlog h _ _ _ => some h
  | .vmax h _ _ _ _ _ => some h
  | .vmaxr h _ _ _ _ => some h
  | .vmin h _ _ _ _ _ => some h
  | .vmul h _ _ _ _ _ _ => some h
  | .vneg h _ _ _ _ _ => some h
  | .vor h _ _ _ _ => some h
  | .vperm h _ _ _ _ => some h
  | .vrcp h _ _ _ => some h
  | .vrsq h _ _ _ => some h
  | .vsel h _ _ _ _ => some h
  | .vshl h _ _ _ _ _ => some h
  | .vshr h _ _ _ _ _ => some h
  | .vsub h _ _ _ _ _ _ => some h
  | .vsum h _ _ _ _ => some h
  | .vxor h _ _ _ _ => some h
  | .vld h _ _ _ _ _ => some h
  | .vst h _ _ _ _ _ => some h
  | .vldContiguous h _ _ _ _ _ _ => some h
  | .vstContiguous h _ _ _ _ _ => some h
  | .vgath h _ _ _ _ => some h
  | .vscat h _ _ _ _ => some h
  | .vcvt h _ _ _ _ _ _ _ => some h
  | .vcb h _ => some h
  | .mma h _ _ _ _ _ => some h
  | .mzero h _ _ => some h
  | .mrd h _ _ => some h
  | .mst h _ _ => some h
  | .mld h _ _ _ => some h
  | .mcvt h _ _ _ _ _ => some h
  | .mcb h _ _ => some h
  | .kvmap h _ _ _ _ => some h
  | .kvext h _ _ _ _ => some h
  | .kvtrunc h _ _ _ _ => some h
  | .kvmatch h _ _ _ _ _ => some h
  | .pxlook h _ _ _ _ _ _ => some h
  | .pxins h _ _ _ => some h
  | .plan h _ _ _ _ => some h
  | .smxm h _ _ _ => some h
  | .smxf h _ _ _ => some h
  | .rng h _ _ _ _ => some h
  | .cdend => none
  | .cdmov _ _ => none
  | .cdli _ _ => none
  | .cdlde _ _ => none
  | .cdlds _ _ _ => none
  | .cdsts _ _ _ => none
  | .cdadd _ _ _ => none
  | .cdaddImm _ _ _ => none
  | .cdsub _ _ _ => none
  | .cdsubImm _ _ _ => none
  | .cdand _ _ _ => none
  | .cdandImm _ _ _ => none
  | .cdor _ _ _ => none
  | .cdorImm _ _ _ => none
  | .cdxor _ _ _ => none
  | .cdxorImm _ _ _ => none
  | .cdshl _ _ _ => none
  | .cdshlImm _ _ _ => none
  | .cdshr _ _ _ => none
  | .cdshrImm _ _ _ => none
  | .cdmin _ _ _ => none
  | .cdminImm _ _ _ => none
  | .cdmax _ _ _ => none
  | .cdmaxImm _ _ _ => none
  | .cdhash _ _ _ => none
  | .cdhashImm _ _ _ => none
  | .cdbf _ _ _ _ => none
  | .cdhist _ _ => none
  | .cdcms _ _ _ => none
  | .cdhll _ _ => none
  | .cdemit _ _ _ => none
  | .cdtrig _ _ => none
  | .cddrop => none
  | .doorbell _ _ _ _ => none
  | .launchRecord _ _ _ => none
  | .admissionEvaluation _ => none
  | .accumulatorSave _ _ _ => none
  | .accumulatorLoad _ _ _ => none
  | .sliceCompletion _ => none
  | .kill _ => none
  | .budgetExtension _ _ => none
  | .requeue _ _ _ => none
  | .allotmentDraw _ _ => none
  | .allotmentRecall _ => none
  | .budgetExhausted _ => none
  | .deadlineMissed _ => none
  | .sliceYieldMessage _ => none
  | .idleSlotPop _ => none
  | .stealRequest _ => none
  | .stealReply _ => none
  | .stealRetry _ => none
  | .futureWake _ => none
  | .registrationPoll _ => none
  | .waitingContinuationPush _ => none
  | .taskEndByFault _ => none
  | .fetchRefetch _ => none
  | .gcdOpComplete _ _ => none
  | .dividerOpComplete _ _ => none
  | .matrixOpExecute _ => none
  | .bobbinLineMove _ _ _ => none
  | .flyerChunk _ _ => none
  | .cpyrMerge _ => none
  | .boarrArrival _ => none
  | .powerGateEntry _ => none
  | .powerGateWake _ => none
  | .boostClockDown _ => none
  | .boostClockRestore _ => none
  | .nstArrival _ => none
  | .nstAcknowledge _ => none
  | .refusedStoreRetry _ => none
  | .nldRequest _ => none
  | .retryResend _ => none
  | .arrivalNotice _ => none
  | .nredContributionArrival _ => none
  | .rootDecisionArrival _ => none
  | .withdrawal _ => none
  | .reelSlotFill _ => none
  | .reelWritebackDrain _ => none
  | .nldSlotArrival _ => none
  | .scopeMiss _ => none
  | .promotedReply _ => none
  | .remoteBankAccess _ => none
  | .neighbourWordArrival _ => none
  | .farMessageDelivery _ => none
  | .portReplyArrival _ => none
  | .barrierArrivalForward _ _ _ => none
  | .barrierRelease _ _ _ => none
  | .planExecute _ => none
  | .waitevWake _ => none
  | .waitevTimeout _ => none
  | .pageWalk _ _ => none
  | .missTableRetry _ => none
  | .regionCacheFill _ _ => none
  | .uncorrectableError _ => none
  | .carderEvent _ _ => none
  | .carderWindowStart _ => none
  | .stateChangeRecord _ => none
  | .stateLogEscape _ => none
  | .filterSlotLoad _ _ _ _ => none
  | .filterSlotDetach _ _ _ => none
  | .objectClear _ _ => none
  | .debugStop _ => none
  | .debugResume _ => none
  | .debugStep _ _ _ => none
  | .watchdogSoftRestart _ => none
  | .watchdogFirmwareReload _ => none
  | .watchdogPartitionReset _ => none
  | .watchdogDieReset _ => none
  | .watchdogPackageReset _ _ => none
  | .stalled _ => none
  | .wdkick _ => none
  | .fwsubmit _ _ _ => none
  | .cpevthead _ _ => none
  | .heldEventAppend _ => none
  | .swapreq _ _ => none
  | .swapVerifyDone _ _ => none
  | .mode _ _ => none
  | .dctl _ _ => none
  | .ovdef _ _ => none
  | .vquota _ _ => none
  | .nregion _ _ => none
  | .tlbInvalidate _ _ => none
  | .tlbInvalidateComplete _ => none
  | .arena _ _ _ => none
  | .wpool _ _ _ => none
  | .pxctl _ _ => none
  | .nrmbase _ _ => none
  | .regrel _ _ => none
  | .reset _ _ => none
  | .partitionResetComplete _ => none
  | .gown _ _ _ => none
  | .mctail _ _ => none
  | .registerWrite _ _ => none
  | .dieReset _ => none
  | .packageReset _ => none
  | .throttleStart _ => none
  | .throttleEnd _ => none
  | .overtempShutdown _ => none
  | .flitCrcRetry _ _ => none
  | .corramFlitRetry _ _ => none
  | .linkRetrain _ _ _ => none
  | .storeQueueWrite _ _ => none
  | .homeRequest _ => none
  | .homeAnswer _ => none
  | .hostDma _ _ => none
  | .regionReleaseComplete _ => none
  | .roothome _ _ => none
  | .partitionCreateDestroy _ _ => none
  | .ucieRetrain _ _ => none

/-- Class × 64 + function (R101), for the core instructions. -/
def Instr.opcode? : Instr → Option Nat
  | .add _ _ _ _ _ _ _ => some 0x001
  | .sub _ _ _ _ _ _ _ => some 0x002
  | .mul _ _ _ _ _ _ _ _ => some 0x003
  | .div _ _ _ _ _ _ _ => some 0x004
  | .rem _ _ _ _ _ _ _ => some 0x005
  | .and _ _ _ _ _ _ => some 0x006
  | .andn _ _ _ _ _ _ => some 0x007
  | .or _ _ _ _ _ _ => some 0x008
  | .xor _ _ _ _ _ _ => some 0x009
  | .shl _ _ _ _ _ _ => some 0x00A
  | .shr _ _ _ _ _ _ => some 0x00B
  | .rot _ _ _ _ _ => some 0x00C
  | .clz _ _ _ _ => some 0x00D
  | .ctz _ _ _ _ => some 0x00E
  | .popc _ _ _ _ => some 0x00F
  | .cmp _ _ _ _ _ _ _ => some 0x010
  | .min _ _ _ _ _ _ => some 0x011
  | .max _ _ _ _ _ _ => some 0x012
  | .sel _ _ _ _ _ _ => some 0x013
  | .ext _ _ _ _ _ => some 0x014
  | .ins _ _ _ _ => some 0x015
  | .lea _ _ _ _ _ _ => some 0x016
  | .mov _ _ _ => some 0x017
  | .movi _ _ _ _ => some 0x018
  | .br _ _ => some 0x040
  | .bri _ _ => some 0x041
  | .call _ _ _ => some 0x042
  | .ret _ _ _ => some 0x043
  | .reti _ => some 0x044
  | .rep _ _ _ _ _ _ _ => some 0x045
  | .trap _ _ _ => some 0x046
  | .exit _ => some 0x047
  | .yield _ _ _ => some 0x048
  | .nop _ => some 0x080
  | .gset _ _ _ => some 0x081
  | .gmov _ _ => some 0x082
  | .glog _ _ _ _ _ _ _ => some 0x083
  | .csrr _ _ _ => some 0x084
  | .csrw _ _ _ => some 0x085
  | .wspsw _ _ _ => some 0x086
  | .dbg _ _ => some 0x087
  | .waitev _ _ _ _ _ _ => some 0x088
  | .ovft _ _ => some 0x089
  | .placew _ _ _ => some 0x08A
  | .abort _ _ => some 0x08B
  | .abchk _ _ => some 0x08C
  | .fence _ _ => some 0x08D
  | .xfence _ _ _ _ => some 0x08E
  | .fadd _ _ _ _ _ => some 0x0C0
  | .fsub _ _ _ _ _ => some 0x0C1
  | .fmul _ _ _ _ _ => some 0x0C2
  | .fdiv _ _ _ _ _ => some 0x0C3
  | .fma _ _ _ _ _ _ => some 0x0C4
  | .fsqrt _ _ _ _ => some 0x0C5
  | .fmin _ _ _ _ _ => some 0x0C6
  | .fmax _ _ _ _ _ => some 0x0C7
  | .fcmp _ _ _ _ _ _ => some 0x0C8
  | .fclass _ _ _ _ => some 0x0C9
  | .fcvt _ _ _ _ _ => some 0x0CA
  | .fsgn _ _ _ _ _ _ => some 0x0CB
  | .qmake _ _ _ _ _ => some 0x0CC
  | .qnum _ _ _ => some 0x0CD
  | .qden _ _ _ => some 0x0CE
  | .qcf _ _ _ _ _ => some 0x0CF
  | .ld _ _ _ _ _ _ _ _ => some 0x100
  | .st _ _ _ _ _ _ _ => some 0x101
  | .pf _ _ _ => some 0x102
  | .lds _ _ _ _ _ _ _ _ _ => some 0x140
  | .sts _ _ _ _ _ _ _ _ => some 0x141
  | .feqry _ _ _ _ => some 0x142
  | .feset _ _ _ _ => some 0x143
  | .atom _ _ _ _ _ _ _ _ _ => some 0x180
  | .cas _ _ _ _ _ _ _ _ _ => some 0x181
  | .nalloc _ _ _ _ => some 0x1C0
  | .nst _ _ _ _ _ _ _ _ => some 0x1C1
  | .nld _ _ _ _ _ _ _ _ => some 0x1C2
  | .nrel _ _ _ => some 0x1C3
  | .ndrop _ _ _ => some 0x1C4
  | .nqry _ _ _ => some 0x1C5
  | .nred _ _ _ _ _ _ _ => some 0x1C6
  | .nsub _ _ _ _ _ _ _ _ _ => some 0x1C7
  | .naband _ _ _ => some 0x1C8
  | .nconf _ _ _ => some 0x1C9
  | .nrevoke _ _ _ => some 0x1CA
  | .fork _ _ _ _ _ => some 0x200
  | .join _ _ _ _ => some 0x201
  | .launch _ _ _ _ _ => some 0x202
  | .hinit _ _ => some 0x203
  | .htest _ _ _ _ => some 0x204
  | .hwait _ _ _ => some 0x205
  | .hcancel _ _ _ => some 0x206
  | .hresolve _ _ _ _ _ => some 0x207
  | .hjoin _ _ _ _ _ _ _ => some 0x208
  | .cpy _ _ _ _ _ _ _ _ => some 0x240
  | .cpyr _ _ _ _ _ _ _ _ => some 0x241
  | .bar _ _ => some 0x242
  | .barset _ _ _ => some 0x243
  | .boinit _ _ _ => some 0x244
  | .boarr _ _ _ => some 0x245
  | .bowait _ _ _ => some 0x246
  | .cbset _ _ _ => some 0x247
  | .adv _ _ _ _ => some 0x248
  | .vabs _ _ _ _ _ _ => some 0x280
  | .vadd _ _ _ _ _ _ _ => some 0x281
  | .vand _ _ _ _ _ => some 0x282
  | .vbcast _ _ _ _ _ => some 0x283
  | .vcmp _ _ _ _ _ _ _ => some 0x284
  | .vexp _ _ _ _ => some 0x285
  | .vfma _ _ _ _ _ _ _ _ => some 0x286
  | .vlog _ _ _ _ => some 0x287
  | .vmax _ _ _ _ _ _ => some 0x288
  | .vmaxr _ _ _ _ _ => some 0x289
  | .vmin _ _ _ _ _ _ => some 0x28A
  | .vmul _ _ _ _ _ _ _ => some 0x28B
  | .vneg _ _ _ _ _ _ => some 0x28C
  | .vor _ _ _ _ _ => some 0x28D
  | .vperm _ _ _ _ _ => some 0x28E
  | .vrcp _ _ _ _ => some 0x28F
  | .vrsq _ _ _ _ => some 0x290
  | .vsel _ _ _ _ _ => some 0x291
  | .vshl _ _ _ _ _ _ => some 0x292
  | .vshr _ _ _ _ _ _ => some 0x293
  | .vsub _ _ _ _ _ _ _ => some 0x294
  | .vsum _ _ _ _ _ => some 0x295
  | .vxor _ _ _ _ _ => some 0x296
  | .vld _ _ _ _ _ _ => some 0x2C0
  | .vst _ _ _ _ _ _ => some 0x2C1
  | .vldContiguous _ _ _ _ _ _ _ => some 0x2C0
  | .vstContiguous _ _ _ _ _ _ => some 0x2C1
  | .vgath _ _ _ _ _ => some 0x2C2
  | .vscat _ _ _ _ _ => some 0x2C3
  | .vcvt _ _ _ _ _ _ _ _ => some 0x2C4
  | .vcb _ _ => some 0x2C5
  | .mma _ _ _ _ _ _ => some 0x300
  | .mzero _ _ _ => some 0x301
  | .mrd _ _ _ => some 0x302
  | .mst _ _ _ => some 0x303
  | .mld _ _ _ _ => some 0x304
  | .mcvt _ _ _ _ _ _ => some 0x305
  | .mcb _ _ _ => some 0x306
  | .kvmap _ _ _ _ _ => some 0x340
  | .kvext _ _ _ _ _ => some 0x341
  | .kvtrunc _ _ _ _ _ => some 0x342
  | .kvmatch _ _ _ _ _ _ => some 0x343
  | .pxlook _ _ _ _ _ _ _ => some 0x344
  | .pxins _ _ _ _ => some 0x345
  | .plan _ _ _ _ _ => some 0x346
  | .smxm _ _ _ _ => some 0x347
  | .smxf _ _ _ _ => some 0x348
  | .rng _ _ _ _ _ => some 0x349
  | .cdend => none
  | .cdmov _ _ => none
  | .cdli _ _ => none
  | .cdlde _ _ => none
  | .cdlds _ _ _ => none
  | .cdsts _ _ _ => none
  | .cdadd _ _ _ => none
  | .cdaddImm _ _ _ => none
  | .cdsub _ _ _ => none
  | .cdsubImm _ _ _ => none
  | .cdand _ _ _ => none
  | .cdandImm _ _ _ => none
  | .cdor _ _ _ => none
  | .cdorImm _ _ _ => none
  | .cdxor _ _ _ => none
  | .cdxorImm _ _ _ => none
  | .cdshl _ _ _ => none
  | .cdshlImm _ _ _ => none
  | .cdshr _ _ _ => none
  | .cdshrImm _ _ _ => none
  | .cdmin _ _ _ => none
  | .cdminImm _ _ _ => none
  | .cdmax _ _ _ => none
  | .cdmaxImm _ _ _ => none
  | .cdhash _ _ _ => none
  | .cdhashImm _ _ _ => none
  | .cdbf _ _ _ _ => none
  | .cdhist _ _ => none
  | .cdcms _ _ _ => none
  | .cdhll _ _ => none
  | .cdemit _ _ _ => none
  | .cdtrig _ _ => none
  | .cddrop => none
  | .doorbell _ _ _ _ => none
  | .launchRecord _ _ _ => none
  | .admissionEvaluation _ => none
  | .accumulatorSave _ _ _ => none
  | .accumulatorLoad _ _ _ => none
  | .sliceCompletion _ => none
  | .kill _ => none
  | .budgetExtension _ _ => none
  | .requeue _ _ _ => none
  | .allotmentDraw _ _ => none
  | .allotmentRecall _ => none
  | .budgetExhausted _ => none
  | .deadlineMissed _ => none
  | .sliceYieldMessage _ => none
  | .idleSlotPop _ => none
  | .stealRequest _ => none
  | .stealReply _ => none
  | .stealRetry _ => none
  | .futureWake _ => none
  | .registrationPoll _ => none
  | .waitingContinuationPush _ => none
  | .taskEndByFault _ => none
  | .fetchRefetch _ => none
  | .gcdOpComplete _ _ => none
  | .dividerOpComplete _ _ => none
  | .matrixOpExecute _ => none
  | .bobbinLineMove _ _ _ => none
  | .flyerChunk _ _ => none
  | .cpyrMerge _ => none
  | .boarrArrival _ => none
  | .powerGateEntry _ => none
  | .powerGateWake _ => none
  | .boostClockDown _ => none
  | .boostClockRestore _ => none
  | .nstArrival _ => none
  | .nstAcknowledge _ => none
  | .refusedStoreRetry _ => none
  | .nldRequest _ => none
  | .retryResend _ => none
  | .arrivalNotice _ => none
  | .nredContributionArrival _ => none
  | .rootDecisionArrival _ => none
  | .withdrawal _ => none
  | .reelSlotFill _ => none
  | .reelWritebackDrain _ => none
  | .nldSlotArrival _ => none
  | .scopeMiss _ => none
  | .promotedReply _ => none
  | .remoteBankAccess _ => none
  | .neighbourWordArrival _ => none
  | .farMessageDelivery _ => none
  | .portReplyArrival _ => none
  | .barrierArrivalForward _ _ _ => none
  | .barrierRelease _ _ _ => none
  | .planExecute _ => none
  | .waitevWake _ => none
  | .waitevTimeout _ => none
  | .pageWalk _ _ => none
  | .missTableRetry _ => none
  | .regionCacheFill _ _ => none
  | .uncorrectableError _ => none
  | .carderEvent _ _ => none
  | .carderWindowStart _ => none
  | .stateChangeRecord _ => none
  | .stateLogEscape _ => none
  | .filterSlotLoad _ _ _ _ => none
  | .filterSlotDetach _ _ _ => none
  | .objectClear _ _ => none
  | .debugStop _ => none
  | .debugResume _ => none
  | .debugStep _ _ _ => none
  | .watchdogSoftRestart _ => none
  | .watchdogFirmwareReload _ => none
  | .watchdogPartitionReset _ => none
  | .watchdogDieReset _ => none
  | .watchdogPackageReset _ _ => none
  | .stalled _ => none
  | .wdkick _ => none
  | .fwsubmit _ _ _ => none
  | .cpevthead _ _ => none
  | .heldEventAppend _ => none
  | .swapreq _ _ => none
  | .swapVerifyDone _ _ => none
  | .mode _ _ => none
  | .dctl _ _ => none
  | .ovdef _ _ => none
  | .vquota _ _ => none
  | .nregion _ _ => none
  | .tlbInvalidate _ _ => none
  | .tlbInvalidateComplete _ => none
  | .arena _ _ _ => none
  | .wpool _ _ _ => none
  | .pxctl _ _ => none
  | .nrmbase _ _ => none
  | .regrel _ _ => none
  | .reset _ _ => none
  | .partitionResetComplete _ => none
  | .gown _ _ _ => none
  | .mctail _ _ => none
  | .registerWrite _ _ => none
  | .dieReset _ => none
  | .packageReset _ => none
  | .throttleStart _ => none
  | .throttleEnd _ => none
  | .overtempShutdown _ => none
  | .flitCrcRetry _ _ => none
  | .corramFlitRetry _ _ => none
  | .linkRetrain _ _ _ => none
  | .storeQueueWrite _ _ => none
  | .homeRequest _ => none
  | .homeAnswer _ => none
  | .hostDma _ _ => none
  | .regionReleaseComplete _ => none
  | .roothome _ _ => none
  | .partitionCreateDestroy _ _ => none
  | .ucieRetrain _ _ => none

namespace Opnd

/-- A class-0 source (R309), and a scalar source of R326. -/
def isScalarSrc : Opnd → Bool
  | .w _ | .pn | .pe | .ps | .pw | .pf | .pq | .cb _ | .zero | .tid | .ones | .dtime => true
  | _ => false

/-- A class-0 destination (R309). -/
def isScalarDst : Opnd → Bool
  | .w _ | .pn | .pe | .ps | .pw | .pf | .pq | .cb _ => true
  | _ => false

/-- A vector source (R401). -/
def isVecSrc : Opnd → Bool
  | .v _ | .zero | .ones | .lane => true
  | _ => false

def isV : Opnd → Bool
  | .v _ => true
  | _ => false

def isCb : Opnd → Bool
  | .cb _ => true
  | _ => false

/-- A w register or the constant zero. -/
def isWZero : Opnd → Bool
  | .w _ | .zero => true
  | _ => false

/-- A w register, zero or ones (R398, R399, R413). -/
def isWZeroOnes : Opnd → Bool
  | .w _ | .zero | .ones => true
  | _ => false

/-- A w register or a scalar constant (R324). -/
def isWConst : Opnd → Bool
  | .w _ | .zero | .ones | .tid | .dtime => true
  | _ => false

end Opnd

namespace Src

/-- The operand satisfies p; an immediate of form I16 or I32 is legal. -/
def anyForm (p : Opnd → Bool) : Src → Bool
  | .op o => p o
  | .imm16 _ | .imm32 _ => true

/-- As anyForm, in forms R and I16 only. -/
def noI32 (p : Opnd → Bool) : Src → Bool
  | .op o => p o
  | .imm16 _ => true
  | .imm32 _ => false

/-- In forms R and I16 only, with the immediate below a bound. -/
def immBelow (p : Opnd → Bool) (bound : Nat) : Src → Bool
  | .op o => p o
  | .imm16 i => i.toNat < bound
  | .imm32 _ => false

def isCb : Src → Bool
  | .op o => o.isCb
  | _ => false

end Src

/-- A format tag that names a format: not RAW, not 12 to 15 (R114). -/
def tagNamed (t : BitVec 4) : Bool := t != 0 && t.toNat < 12

/-- An index register in a memory operand is a w register (R106). -/
def Opnd.isW : Opnd → Bool
  | .w _ => true
  | _ => false

/-- The circular-buffer handles that the instruction reads as sources, to which CBF applies (R89). -/
def Instr.hasCbSrc : Instr → Bool
  | .add _ _ a b _ _ _ => a.isCb || b.isCb
  | .sub _ _ a b _ _ _ => a.isCb || b.isCb
  | .mul _ _ a b _ _ _ _ => a.isCb || b.isCb
  | .div _ _ _ a b _ _ => a.isCb || b.isCb
  | .rem _ _ _ a b _ _ => a.isCb || b.isCb
  | .and _ _ a b _ _ => a.isCb || b.isCb
  | .andn _ _ a b _ _ => a.isCb || b.isCb
  | .or _ _ a b _ _ => a.isCb || b.isCb
  | .xor _ _ a b _ _ => a.isCb || b.isCb
  | .shl _ _ a b _ _ => a.isCb || b.isCb
  | .shr _ _ a b _ _ => a.isCb || b.isCb
  | .rot _ _ a b _ => a.isCb || b.isCb
  | .clz _ _ a _ => a.isCb
  | .ctz _ _ a _ => a.isCb
  | .popc _ _ a _ => a.isCb
  | .cmp _ _ a b _ _ _ => a.isCb || b.isCb
  | .min _ _ a b _ _ => a.isCb || b.isCb
  | .max _ _ a b _ _ => a.isCb || b.isCb
  | .sel _ _ a b _ _ => a.isCb || b.isCb
  | .ext _ _ a b _ => a.isCb || b.isCb
  | .ins _ _ a b => a.isCb || b.isCb
  | .lea _ _ a b _ _ => a.isCb || b.isCb
  | .mov _ _ s => s.isCb
  | .trap _ info _ => info.isCb
  | .gset _ _ s => (match s with | .reg o => o.isCb | _ => false)
  | .gmov _ x => (match x with | .w o => o.isCb | _ => false)
  | .csrw _ s _ => s.isCb
  | .waitev _ _ _ _ e t => e.isCb || t.isCb
  | .ovft _ t => t.isCb
  | .placew _ i e => i.isCb || e.isCb
  | .fadd _ _ a b _ => a.isCb || b.isCb
  | .fsub _ _ a b _ => a.isCb || b.isCb
  | .fmul _ _ a b _ => a.isCb || b.isCb
  | .fdiv _ _ a b _ => a.isCb || b.isCb
  | .fma _ _ a b c _ => a.isCb || b.isCb || c.isCb
  | .fsqrt _ _ a _ => a.isCb
  | .fmin _ _ a b _ => a.isCb || b.isCb
  | .fmax _ _ a b _ => a.isCb || b.isCb
  | .fcmp _ _ a b _ _ => a.isCb || b.isCb
  | .fclass _ _ a _ => a.isCb
  | .fcvt _ _ a _ _ => a.isCb
  | .fsgn _ _ a b _ _ => a.isCb || b.isCb
  | .qmake _ _ n m _ => n.isCb || m.isCb
  | .qnum _ _ a => a.isCb
  | .qden _ _ a => a.isCb
  | .qcf _ _ _ _ a => a.isCb
  | .ld _ _ b x _ _ _ _ => b.isCb || x.isCb
  | .st _ s b x _ _ _ => s.isCb || b.isCb || x.isCb
  | .pf _ b x => b.isCb || x.isCb
  | .lds _ _ b x _ _ _ _ _ => b.isCb || x.isCb
  | .sts _ s b x _ _ _ _ => s.isCb || b.isCb || x.isCb
  | .atom _ _ _ v _ _ _ _ _ => v.isCb
  | .cas _ _ _ _ e n _ _ _ => e.isCb || n.isCb
  | .nalloc _ _ _ j => j.isCb
  | .nst _ _ _ _ a c _ _ => a.isCb || c.isCb
  | .fork _ _ pc arg j => pc.isCb || arg.isCb || j.isCb
  | .hresolve _ _ _ v _ => v.isCb
  | .hjoin _ _ pc arg j _ h2 => pc.isCb || arg.isCb || j.isCb || h2.isCb
  | .barset _ _ _ => false
  | .boinit _ _ e => (e.map Opnd.isCb).getD false
  | .boarr _ _ c => c.isCb
  | .adv _ _ _ _ => false
  | .vabs _ _ a _ _ _ => a.isCb
  | .vadd _ _ a b _ _ _ => a.isCb || b.isCb
  | .vand _ _ a b _ => a.isCb || b.isCb
  | .vbcast _ _ s _ _ => s.isCb
  | .vcmp _ _ a b _ _ _ => a.isCb || b.isCb
  | .vexp _ _ a _ => a.isCb
  | .vfma _ _ a b c _ _ _ => a.isCb || b.isCb || c.isCb
  | .vlog _ _ a _ => a.isCb
  | .vmax _ _ a b _ _ => a.isCb || b.isCb
  | .vmin _ _ a b _ _ => a.isCb || b.isCb
  | .vmul _ _ a b _ _ _ => a.isCb || b.isCb
  | .vneg _ _ a _ _ _ => a.isCb
  | .vor _ _ a b _ => a.isCb || b.isCb
  | .vperm _ _ a i _ => a.isCb || i.isCb
  | .vrcp _ _ a _ => a.isCb
  | .vrsq _ _ a _ => a.isCb
  | .vsel _ _ a b _ => a.isCb || b.isCb
  | .vshl _ _ a b _ _ => a.isCb || b.isCb
  | .vshr _ _ a b _ _ => a.isCb || b.isCb
  | .vsub _ _ a b _ _ _ => a.isCb || b.isCb
  | .vxor _ _ a b _ => a.isCb || b.isCb
  | .vldContiguous _ _ b x _ _ _ => b.isCb || x.isCb
  | .vstContiguous _ _ b x _ _ => b.isCb || x.isCb
  | .vcvt _ _ _ s _ _ _ _ => s.isCb
  | .mma _ _ s _ _ _ => (match s with | .cbs .. => true | _ => false)
  | .kvmap _ _ _ a p => a.isCb || p.isCb
  | .kvext _ _ _ a n => a.isCb || n.isCb
  | .kvtrunc _ _ _ a n => a.isCb || n.isCb
  | .kvmatch _ _ _ a b n => a.isCb || b.isCb || n.isCb
  | .pxlook _ _ _ hash p t n => hash.isCb || p.isCb || t.isCb || n.isCb
  | .pxins _ _ _ r => r.isCb
  | .movi _ _ _ _ => false
  | .br _ _ => false
  | .bri _ _ => false
  | .call _ _ _ => false
  | .ret _ _ _ => false
  | .reti _ => false
  | .rep _ _ _ _ _ _ _ => false
  | .exit _ => false
  | .yield _ _ _ => false
  | .nop _ => false
  | .glog _ _ _ _ _ _ _ => false
  | .csrr _ _ _ => false
  | .wspsw _ _ _ => false
  | .dbg _ _ => false
  | .abort _ _ => false
  | .abchk _ _ => false
  | .fence _ _ => false
  | .xfence _ _ _ _ => false
  | .feqry _ _ _ _ => false
  | .feset _ _ _ _ => false
  | .nld _ _ _ _ _ _ _ _ => false
  | .nrel _ _ _ => false
  | .ndrop _ _ _ => false
  | .nqry _ _ _ => false
  | .nred _ _ _ a _ _ _ => a.isCb
  | .nsub _ _ _ _ _ _ _ _ _ => false
  | .naband _ _ _ => false
  | .nconf _ _ _ => false
  | .nrevoke _ _ _ => false
  | .join _ _ _ _ => false
  | .launch _ _ _ _ _ => false
  | .hinit _ _ => false
  | .htest _ _ _ _ => false
  | .hwait _ _ _ => false
  | .hcancel _ _ _ => false
  | .cpy _ _ _ _ _ _ _ _ => false
  | .cpyr _ _ _ _ _ _ _ _ => false
  | .bar _ _ => false
  | .bowait _ _ _ => false
  | .cbset _ _ _ => false
  | .vmaxr _ _ _ _ _ => false
  | .vsum _ _ _ _ _ => false
  | .vld _ _ _ _ _ _ => false
  | .vst _ _ _ _ _ _ => false
  | .vgath _ _ _ _ _ => false
  | .vscat _ _ _ _ _ => false
  | .vcb _ _ => false
  | .mzero _ _ _ => false
  | .mrd _ _ _ => false
  | .mst _ _ _ => false
  | .mld _ _ _ _ => false
  | .mcvt _ _ _ _ _ _ => false
  | .mcb _ _ _ => false
  | .plan _ _ _ _ _ => false
  | .smxm _ _ _ _ => false
  | .smxf _ _ _ _ => false
  | .rng _ _ _ _ _ => false
  | .cdend => false
  | .cdmov _ _ => false
  | .cdli _ _ => false
  | .cdlde _ _ => false
  | .cdlds _ _ _ => false
  | .cdsts _ _ _ => false
  | .cdadd _ _ _ => false
  | .cdaddImm _ _ _ => false
  | .cdsub _ _ _ => false
  | .cdsubImm _ _ _ => false
  | .cdand _ _ _ => false
  | .cdandImm _ _ _ => false
  | .cdor _ _ _ => false
  | .cdorImm _ _ _ => false
  | .cdxor _ _ _ => false
  | .cdxorImm _ _ _ => false
  | .cdshl _ _ _ => false
  | .cdshlImm _ _ _ => false
  | .cdshr _ _ _ => false
  | .cdshrImm _ _ _ => false
  | .cdmin _ _ _ => false
  | .cdminImm _ _ _ => false
  | .cdmax _ _ _ => false
  | .cdmaxImm _ _ _ => false
  | .cdhash _ _ _ => false
  | .cdhashImm _ _ _ => false
  | .cdbf _ _ _ _ => false
  | .cdhist _ _ => false
  | .cdcms _ _ _ => false
  | .cdhll _ _ => false
  | .cdemit _ _ _ => false
  | .cdtrig _ _ => false
  | .cddrop => false
  | .doorbell _ _ _ _ => false
  | .launchRecord _ _ _ => false
  | .admissionEvaluation _ => false
  | .accumulatorSave _ _ _ => false
  | .accumulatorLoad _ _ _ => false
  | .sliceCompletion _ => false
  | .kill _ => false
  | .budgetExtension _ _ => false
  | .requeue _ _ _ => false
  | .allotmentDraw _ _ => false
  | .allotmentRecall _ => false
  | .budgetExhausted _ => false
  | .deadlineMissed _ => false
  | .sliceYieldMessage _ => false
  | .idleSlotPop _ => false
  | .stealRequest _ => false
  | .stealReply _ => false
  | .stealRetry _ => false
  | .futureWake _ => false
  | .registrationPoll _ => false
  | .waitingContinuationPush _ => false
  | .taskEndByFault _ => false
  | .fetchRefetch _ => false
  | .gcdOpComplete _ _ => false
  | .dividerOpComplete _ _ => false
  | .matrixOpExecute _ => false
  | .bobbinLineMove _ _ _ => false
  | .flyerChunk _ _ => false
  | .cpyrMerge _ => false
  | .boarrArrival _ => false
  | .powerGateEntry _ => false
  | .powerGateWake _ => false
  | .boostClockDown _ => false
  | .boostClockRestore _ => false
  | .nstArrival _ => false
  | .nstAcknowledge _ => false
  | .refusedStoreRetry _ => false
  | .nldRequest _ => false
  | .retryResend _ => false
  | .arrivalNotice _ => false
  | .nredContributionArrival _ => false
  | .rootDecisionArrival _ => false
  | .withdrawal _ => false
  | .reelSlotFill _ => false
  | .reelWritebackDrain _ => false
  | .nldSlotArrival _ => false
  | .scopeMiss _ => false
  | .promotedReply _ => false
  | .remoteBankAccess _ => false
  | .neighbourWordArrival _ => false
  | .farMessageDelivery _ => false
  | .portReplyArrival _ => false
  | .barrierArrivalForward _ _ _ => false
  | .barrierRelease _ _ _ => false
  | .planExecute _ => false
  | .waitevWake _ => false
  | .waitevTimeout _ => false
  | .pageWalk _ _ => false
  | .missTableRetry _ => false
  | .regionCacheFill _ _ => false
  | .uncorrectableError _ => false
  | .carderEvent _ _ => false
  | .carderWindowStart _ => false
  | .stateChangeRecord _ => false
  | .stateLogEscape _ => false
  | .filterSlotLoad _ _ _ _ => false
  | .filterSlotDetach _ _ _ => false
  | .objectClear _ _ => false
  | .debugStop _ => false
  | .debugResume _ => false
  | .debugStep _ _ _ => false
  | .watchdogSoftRestart _ => false
  | .watchdogFirmwareReload _ => false
  | .watchdogPartitionReset _ => false
  | .watchdogDieReset _ => false
  | .watchdogPackageReset _ _ => false
  | .stalled _ => false
  | .wdkick _ => false
  | .fwsubmit _ _ _ => false
  | .cpevthead _ _ => false
  | .heldEventAppend _ => false
  | .swapreq _ _ => false
  | .swapVerifyDone _ _ => false
  | .mode _ _ => false
  | .dctl _ _ => false
  | .ovdef _ _ => false
  | .vquota _ _ => false
  | .nregion _ _ => false
  | .tlbInvalidate _ _ => false
  | .tlbInvalidateComplete _ => false
  | .arena _ _ _ => false
  | .wpool _ _ _ => false
  | .pxctl _ _ => false
  | .nrmbase _ _ => false
  | .regrel _ _ => false
  | .reset _ _ => false
  | .partitionResetComplete _ => false
  | .gown _ _ _ => false
  | .mctail _ _ => false
  | .registerWrite _ _ => false
  | .dieReset _ => false
  | .packageReset _ => false
  | .throttleStart _ => false
  | .throttleEnd _ => false
  | .overtempShutdown _ => false
  | .flitCrcRetry _ _ => false
  | .corramFlitRetry _ _ => false
  | .linkRetrain _ _ _ => false
  | .storeQueueWrite _ _ => false
  | .homeRequest _ => false
  | .homeAnswer _ => false
  | .hostDma _ _ => false
  | .regionReleaseComplete _ => false
  | .roothome _ _ => false
  | .partitionCreateDestroy _ _ => false
  | .ucieRetrain _ _ => false

/-- A control register number that R97 assigns. -/
def csrAssigned (n : BitVec 12) : Bool :=
  let k := n.toNat
  k == 0 || k == 1 || k == 0x010 || k == 0x011 || (0x020 ≤ k && k ≤ 0x023) || (0x030 ≤ k && k ≤ 0x032) ||
  (0x040 ≤ k && k ≤ 0x042) || k == 0x050 || k == 0x051 || (0x060 ≤ k && k ≤ 0x067) || (0x070 ≤ k && k ≤ 0x073) ||
  k == 0x080 || k == 0x081

/-- ORD 0 carries no scope, and scopes 6 and 7 are unassigned (R202). -/
def ordScopeOk (ord : BitVec 2) (scope : BitVec 3) : Bool :=
  scope.toNat ≤ 5 && (ord != 0 || scope == 0)

/-- Operand classes, immediates and qualifier combinations that the entry of each instruction assigns (R90, R102). -/
def Instr.fieldsLegal : Instr → Bool
  | .add _ d a b _ _ _ => d.isScalarDst && a.isScalarSrc && b.anyForm Opnd.isScalarSrc
  | .sub _ d a b _ _ _ => d.isScalarDst && a.isScalarSrc && b.anyForm Opnd.isScalarSrc
  | .mul _ d a b _ _ sat hi => d.isScalarDst && a.isScalarSrc && b.anyForm Opnd.isScalarSrc && !(sat && hi)
  | .div _ _ _ a b _ _ => a.isScalarSrc && b.anyForm Opnd.isScalarSrc
  | .rem _ _ _ a b _ _ => a.isScalarSrc && b.anyForm Opnd.isScalarSrc
  | .and _ d a b _ _ => d.isScalarDst && a.isScalarSrc && b.anyForm Opnd.isScalarSrc
  | .andn _ d a b _ _ => d.isScalarDst && a.isScalarSrc && b.anyForm Opnd.isScalarSrc
  | .or _ d a b _ _ => d.isScalarDst && a.isScalarSrc && b.anyForm Opnd.isScalarSrc
  | .xor _ d a b _ _ => d.isScalarDst && a.isScalarSrc && b.anyForm Opnd.isScalarSrc
  | .shl _ d a b _ _ => d.isScalarDst && a.isScalarSrc && b.immBelow Opnd.isScalarSrc 256
  | .shr _ d a b _ _ => d.isScalarDst && a.isScalarSrc && b.immBelow Opnd.isScalarSrc 256
  | .rot _ d a b _ => d.isScalarDst && a.isScalarSrc && b.immBelow Opnd.isScalarSrc 256
  | .clz _ d a _ => d.isScalarDst && a.isScalarSrc
  | .ctz _ d a _ => d.isScalarDst && a.isScalarSrc
  | .popc _ d a _ => d.isScalarDst && a.isScalarSrc
  | .cmp _ _ a b _ sgn cond => a.isScalarSrc && b.anyForm Opnd.isScalarSrc && cond.toNat < 8 && (!sgn || (2 ≤ cond.toNat && cond.toNat ≤ 5))
  | .min _ d a b _ _ => d.isScalarDst && a.isScalarSrc && b.anyForm Opnd.isScalarSrc
  | .max _ d a b _ _ => d.isScalarDst && a.isScalarSrc && b.anyForm Opnd.isScalarSrc
  | .sel _ d a b _ _ => d.isScalarDst && a.isScalarSrc && b.noI32 Opnd.isScalarSrc
  | .ext _ _ a b _ => a.isScalarSrc && (match b with | .op o => o.isW | .imm16 i => i.toNat < 4096 && i.toNat % 64 + (i.toNat / 64 % 64 + 1) ≤ 64 | .imm32 _ => false)
  | .ins _ _ a b => a.isScalarSrc && (match b with | .op o => o.isW | .imm16 i => i.toNat < 4096 && i.toNat % 64 + (i.toNat / 64 % 64 + 1) ≤ 64 | .imm32 _ => false)
  | .lea _ d a b _ _ => d.isScalarDst && a.isScalarSrc && b.anyForm Opnd.isScalarSrc
  | .mov _ d s => (match d, s with | .v _, .v _ | .v _, .zero | .v _, .ones | .m _, .m _ | .m _, .zero | .m _, .ones | .acc _, .acc _ => true | d, s => d.isScalarDst && s.isScalarSrc)
  | .movi _ _ imm hi => !hi || imm.toNat < 65536
  | .call _ _ frame => frame == 0 || (12 ≤ frame.toNat && frame.toNat ≤ 144)
  | .rep _ wc wi vbase vspanM1 _ _ => wc != wi && vbase.toNat + (vspanM1.toNat + 1) ≤ 32
  | .trap _ info code => info.isWZero && ((1 ≤ code.toNat && code.toNat ≤ 12) || code == 14 || (17 ≤ code.toNat && code.toNat ≤ 20))
  | .yield _ s dl => s || dl == 0
  | .gset _ _ s => (match s with | .reg o => o.isScalarSrc | _ => true)
  | .gmov _ x => (match x with | .r _ => true | .w s => s.isScalarSrc)
  | .glog _ _ _ _ _ _ op => op != 3
  | .csrr _ _ n => csrAssigned n
  | .csrw _ s n => csrAssigned n && s.isWConst
  | .waitev _ _ _ _ e t => e.isScalarSrc && t.isWZeroOnes
  | .ovft _ t => t.immBelow Opnd.isScalarSrc 16384
  | .placew _ i e => i.isScalarSrc && e.isScalarSrc
  | .fence _ scope => scope.toNat ≤ 5
  | .xfence _ scope fr dest => scope.toNat ≤ 5 && fr != 0 && dest != 0
  | .fadd _ _ a b _ => a.isScalarSrc && b.isScalarSrc
  | .fsub _ _ a b _ => a.isScalarSrc && b.isScalarSrc
  | .fmul _ _ a b _ => a.isScalarSrc && b.isScalarSrc
  | .fdiv _ _ a b _ => a.isScalarSrc && b.isScalarSrc
  | .fma _ _ a b c _ => a.isScalarSrc && b.isScalarSrc && c.isScalarSrc
  | .fsqrt _ _ a _ => a.isScalarSrc
  | .fmin _ _ a b _ => a.isScalarSrc && b.isScalarSrc
  | .fmax _ _ a b _ => a.isScalarSrc && b.isScalarSrc
  | .fcmp _ _ a b _ cond => a.isScalarSrc && b.isScalarSrc && cond.toNat < 8
  | .fclass _ _ a _ => a.isScalarSrc
  | .fcvt _ _ a src dst => a.isScalarSrc && src.toNat < 7 && dst.toNat < 7 && src != dst && !((src == 4 || src == 5) && (dst == 4 || dst == 5))
  | .fsgn _ _ a b op _ => a.isScalarSrc && (if op == 0 || op == 3 then b.isScalarSrc else b == .w 0)
  | .qmake _ _ n m _ => n.isScalarSrc && m.isScalarSrc
  | .qnum _ _ a => a.isScalarSrc
  | .qden _ _ a => a.isScalarSrc
  | .qcf _ _ d1 d2 a => a.isScalarSrc && d1 != d2
  | .ld _ _ b x ord scope _ _ => b.isScalarSrc && x.anyForm Opnd.isScalarSrc && ordScopeOk ord scope && ord.toNat ≤ 1
  | .st _ s b x ord scope _ => s.isWZeroOnes && b.isScalarSrc && x.anyForm Opnd.isScalarSrc && ordScopeOk ord scope && (ord == 0 || ord == 2)
  | .pf _ b x => b.isScalarSrc && x.anyForm Opnd.isScalarSrc
  | .lds _ _ b x ord scope _ _ fe => b.isScalarSrc && x.anyForm Opnd.isScalarSrc && ordScopeOk ord scope && ord.toNat ≤ 1 && fe != 3
  | .sts _ s b x ord scope _ _ => s.isWZeroOnes && b.isScalarSrc && x.anyForm Opnd.isScalarSrc && ordScopeOk ord scope && (ord == 0 || ord == 2)
  | .feqry _ _ _ n => 1 ≤ n.toNat && n.toNat ≤ 64
  | .atom _ _ _ v ord scope op _ sgn => v.isScalarSrc && ordScopeOk ord scope && op.toNat < 10 && (!sgn || op == 4 || op == 5)
  | .cas _ _ _ _ e n ord scope _ => e.isScalarSrc && n.isScalarSrc && ordScopeOk ord scope
  | .nalloc _ _ _ j => j.immBelow Opnd.isScalarSrc 13
  | .nst _ p d _ a c size fmt => (p || d == 0) && a.isScalarSrc && (match c with | .op o => o.isScalarSrc | .imm16 i => i != 0 | .imm32 _ => false) && size.toNat < 5 && tagNamed fmt
  | .nld _ _ _ t maxsz _ _ _ => maxsz.toNat < 5 && (match t with | .v _ => maxsz == 0 | _ => true)
  | .nred _ _ _ a _ size fmt => a.isScalarSrc && size.toNat < 5 && tagNamed fmt
  | .nsub _ _ _ _ _ wb cons size fmt => if wb then !cons && size.toNat < 5 && tagNamed fmt else size == 0 && fmt == 0
  | .fork _ _ pc arg j => pc.isScalarSrc && arg.isScalarSrc && j.isScalarSrc
  | .hresolve _ _ _ v _ => v.isScalarSrc
  | .hjoin _ _ pc arg j _ h2 => pc.isScalarSrc && arg.isScalarSrc && j.isScalarSrc && h2.isWZero
  | .barset _ _ _ => true
  | .boinit _ _ e => (match e with | some o => o.isScalarSrc | none => true)
  | .boarr _ _ c => c.noI32 Opnd.isScalarSrc
  | .adv _ _ n _ => n.noI32 Opnd.isScalarSrc
  | .vabs _ _ a _ sgn sat => a.isV && (!sat || sgn)
  | .vadd _ _ a b _ _ _ => a.isVecSrc && b.noI32 Opnd.isVecSrc && (a.isV || (match b with | .op o => o.isV | _ => false))
  | .vand _ _ a b _ => a.isVecSrc && b.noI32 Opnd.isVecSrc && (a.isV || (match b with | .op o => o.isV | _ => false))
  | .vbcast _ _ s _ fmt => s.noI32 Opnd.isWConst && tagNamed fmt
  | .vcmp _ _ a b _ _ cond => a.isVecSrc && b.noI32 Opnd.isVecSrc && (a.isV || (match b with | .op o => o.isV | _ => false)) && cond.toNat < 8
  | .vexp _ _ a _ => a.isV
  | .vfma _ _ a b c _ _ _ => a.isVecSrc && b.isVecSrc && c.isVecSrc && (a.isV || b.isV || c.isV)
  | .vlog _ _ a _ => a.isV
  | .vmax _ _ a b _ _ => a.isVecSrc && b.noI32 Opnd.isVecSrc && (a.isV || (match b with | .op o => o.isV | _ => false))
  | .vmin _ _ a b _ _ => a.isVecSrc && b.noI32 Opnd.isVecSrc && (a.isV || (match b with | .op o => o.isV | _ => false))
  | .vmul _ _ a b _ _ _ => a.isVecSrc && b.noI32 Opnd.isVecSrc && (a.isV || (match b with | .op o => o.isV | _ => false))
  | .vneg _ _ a _ sgn sat => a.isV && (!sat || sgn)
  | .vor _ _ a b _ => a.isVecSrc && b.noI32 Opnd.isVecSrc && (a.isV || (match b with | .op o => o.isV | _ => false))
  | .vperm _ _ a i _ => a.isVecSrc && i.isVecSrc && (a.isV || i.isV)
  | .vrcp _ _ a _ => a.isV
  | .vrsq _ _ a _ => a.isV
  | .vsel _ _ a b _ => a.isVecSrc && b.isVecSrc && (a.isV || b.isV)
  | .vshl _ _ a b _ _ => a.isVecSrc && b.noI32 Opnd.isVecSrc && (a.isV || (match b with | .op o => o.isV | _ => false)) && (match b with | .imm16 i => i.toNat < 256 | _ => true)
  | .vshr _ _ a b _ _ => a.isVecSrc && b.noI32 Opnd.isVecSrc && (a.isV || (match b with | .op o => o.isV | _ => false)) && (match b with | .imm16 i => i.toNat < 256 | _ => true)
  | .vsub _ _ a b _ _ _ => a.isVecSrc && b.noI32 Opnd.isVecSrc && (a.isV || (match b with | .op o => o.isV | _ => false))
  | .vxor _ _ a b _ => a.isVecSrc && b.noI32 Opnd.isVecSrc && (a.isV || (match b with | .op o => o.isV | _ => false))
  | .vldContiguous _ _ b x _ fmt _ => b.isScalarSrc && x.noI32 Opnd.isScalarSrc && fmt.toNat < 12
  | .vstContiguous _ _ b x _ _ => b.isScalarSrc && x.noI32 Opnd.isScalarSrc
  | .vcvt _ _ _ s _ _ fmt _ => s.isWZero && tagNamed fmt && fmt != 6
  | .mma _ _ s _ au bu => (match s with | .shape .. => true | .cbs _ _ fa fb => (!au || fa == 7 || fa == 8) && (!bu || fb == 7 || fb == 8))
  | .mcvt _ _ _ _ fmt sgn => (fmt == 1 || fmt == 2 || fmt == 3 || fmt == 4 || fmt == 5 || ((fmt == 7 || fmt == 8 || fmt == 9 || fmt == 11))) && (!sgn || fmt == 7 || fmt == 8 || fmt == 9 || fmt == 11)
  | .kvmap _ _ _ a p => a.isScalarSrc && p.isScalarSrc
  | .kvext _ _ _ a n => a.isScalarSrc && n.isScalarSrc
  | .kvtrunc _ _ _ a n => a.isScalarSrc && n.isScalarSrc
  | .kvmatch _ _ _ a b n => a.isScalarSrc && b.isScalarSrc && n.isScalarSrc
  | .pxlook _ _ d hash p t n => d.val % 2 == 0 && d.val < 62 && hash.isScalarSrc && p.isScalarSrc && t.isScalarSrc && n.isScalarSrc
  | .pxins _ _ d r => d.val % 2 == 0 && d.val < 62 && r.isScalarSrc
  | .br _ _ => true
  | .bri _ _ => true
  | .ret _ _ _ => true
  | .reti _ => true
  | .exit _ => true
  | .nop _ => true
  | .wspsw _ _ _ => true
  | .dbg _ _ => true
  | .abort _ _ => true
  | .abchk _ _ => true
  | .feset _ _ _ _ => true
  | .nrel _ _ _ => true
  | .ndrop _ _ _ => true
  | .nqry _ _ _ => true
  | .naband _ _ _ => true
  | .nconf _ _ _ => true
  | .nrevoke _ _ _ => true
  | .join _ _ _ _ => true
  | .launch _ _ _ _ _ => true
  | .hinit _ _ => true
  | .htest _ _ _ _ => true
  | .hwait _ _ _ => true
  | .hcancel _ _ _ => true
  | .cpy _ _ _ _ _ _ _ _ => true
  | .cpyr _ _ _ _ _ _ _ _ => true
  | .bar _ _ => true
  | .bowait _ _ _ => true
  | .cbset _ _ _ => true
  | .vmaxr _ _ _ _ _ => true
  | .vsum _ _ _ _ _ => true
  | .vld _ _ _ _ _ _ => true
  | .vst _ _ _ _ _ _ => true
  | .vgath _ _ _ _ _ => true
  | .vscat _ _ _ _ _ => true
  | .vcb _ _ => true
  | .mzero _ _ _ => true
  | .mrd _ _ _ => true
  | .mst _ _ _ => true
  | .mld _ _ _ _ => true
  | .mcb _ _ _ => true
  | .plan _ _ _ _ _ => true
  | .smxm _ _ _ _ => true
  | .smxf _ _ _ _ => true
  | .rng _ _ _ _ _ => true
  | .cdend => true
  | .cdmov _ _ => true
  | .cdli _ _ => true
  | .cdlde _ _ => true
  | .cdlds _ _ _ => true
  | .cdsts _ _ _ => true
  | .cdadd _ _ _ => true
  | .cdaddImm _ _ _ => true
  | .cdsub _ _ _ => true
  | .cdsubImm _ _ _ => true
  | .cdand _ _ _ => true
  | .cdandImm _ _ _ => true
  | .cdor _ _ _ => true
  | .cdorImm _ _ _ => true
  | .cdxor _ _ _ => true
  | .cdxorImm _ _ _ => true
  | .cdshl _ _ _ => true
  | .cdshlImm _ _ _ => true
  | .cdshr _ _ _ => true
  | .cdshrImm _ _ _ => true
  | .cdmin _ _ _ => true
  | .cdminImm _ _ _ => true
  | .cdmax _ _ _ => true
  | .cdmaxImm _ _ _ => true
  | .cdhash _ _ _ => true
  | .cdhashImm _ _ _ => true
  | .cdbf cond a b off => cond.toNat < 7 && off != 0 && (cond != 0 || (a == 0 && b == 0))
  | .cdhist _ _ => true
  | .cdcms _ _ _ => true
  | .cdhll _ _ => true
  | .cdemit _ _ _ => true
  | .cdtrig _ _ => true
  | .cddrop => true
  | .doorbell _ _ _ _ => true
  | .launchRecord _ _ _ => true
  | .admissionEvaluation _ => true
  | .accumulatorSave _ _ _ => true
  | .accumulatorLoad _ _ _ => true
  | .sliceCompletion _ => true
  | .kill _ => true
  | .budgetExtension _ _ => true
  | .requeue _ _ _ => true
  | .allotmentDraw _ _ => true
  | .allotmentRecall _ => true
  | .budgetExhausted _ => true
  | .deadlineMissed _ => true
  | .sliceYieldMessage _ => true
  | .idleSlotPop _ => true
  | .stealRequest _ => true
  | .stealReply _ => true
  | .stealRetry _ => true
  | .futureWake _ => true
  | .registrationPoll _ => true
  | .waitingContinuationPush _ => true
  | .taskEndByFault _ => true
  | .fetchRefetch _ => true
  | .gcdOpComplete _ _ => true
  | .dividerOpComplete _ _ => true
  | .matrixOpExecute _ => true
  | .bobbinLineMove _ _ _ => true
  | .flyerChunk _ _ => true
  | .cpyrMerge _ => true
  | .boarrArrival _ => true
  | .powerGateEntry _ => true
  | .powerGateWake _ => true
  | .boostClockDown _ => true
  | .boostClockRestore _ => true
  | .nstArrival _ => true
  | .nstAcknowledge _ => true
  | .refusedStoreRetry _ => true
  | .nldRequest _ => true
  | .retryResend _ => true
  | .arrivalNotice _ => true
  | .nredContributionArrival _ => true
  | .rootDecisionArrival _ => true
  | .withdrawal _ => true
  | .reelSlotFill _ => true
  | .reelWritebackDrain _ => true
  | .nldSlotArrival _ => true
  | .scopeMiss _ => true
  | .promotedReply _ => true
  | .remoteBankAccess _ => true
  | .neighbourWordArrival _ => true
  | .farMessageDelivery _ => true
  | .portReplyArrival _ => true
  | .barrierArrivalForward _ _ _ => true
  | .barrierRelease _ _ _ => true
  | .planExecute _ => true
  | .waitevWake _ => true
  | .waitevTimeout _ => true
  | .pageWalk _ _ => true
  | .missTableRetry _ => true
  | .regionCacheFill _ _ => true
  | .uncorrectableError _ => true
  | .carderEvent _ _ => true
  | .carderWindowStart _ => true
  | .stateChangeRecord _ => true
  | .stateLogEscape _ => true
  | .filterSlotLoad _ _ _ _ => true
  | .filterSlotDetach _ _ _ => true
  | .objectClear _ _ => true
  | .debugStop _ => true
  | .debugResume _ => true
  | .debugStep _ _ _ => true
  | .watchdogSoftRestart _ => true
  | .watchdogFirmwareReload _ => true
  | .watchdogPartitionReset _ => true
  | .watchdogDieReset _ => true
  | .watchdogPackageReset _ _ => true
  | .stalled _ => true
  | .wdkick _ => true
  | .fwsubmit _ _ _ => true
  | .cpevthead _ _ => true
  | .heldEventAppend _ => true
  | .swapreq _ _ => true
  | .swapVerifyDone _ _ => true
  | .mode _ _ => true
  | .dctl _ _ => true
  | .ovdef _ _ => true
  | .vquota _ _ => true
  | .nregion _ _ => true
  | .tlbInvalidate _ _ => true
  | .tlbInvalidateComplete _ => true
  | .arena _ _ _ => true
  | .wpool _ _ _ => true
  | .pxctl _ _ => true
  | .nrmbase _ _ => true
  | .regrel _ _ => true
  | .reset _ _ => true
  | .partitionResetComplete _ => true
  | .gown _ _ _ => true
  | .mctail _ _ => true
  | .registerWrite _ _ => true
  | .dieReset _ => true
  | .packageReset _ => true
  | .throttleStart _ => true
  | .throttleEnd _ => true
  | .overtempShutdown _ => true
  | .flitCrcRetry _ _ => true
  | .corramFlitRetry _ _ => true
  | .linkRetrain _ _ _ => true
  | .storeQueueWrite _ _ => true
  | .homeRequest _ => true
  | .homeAnswer _ => true
  | .hostDma _ _ => true
  | .regionReleaseComplete _ => true
  | .roothome _ _ => true
  | .partitionCreateDestroy _ _ => true
  | .ucieRetrain _ _ => true

/-- HINT is legal in classes 4, 6, 7 and 11 only, and 5 to 15 are illegal (R85). -/
def Instr.hintLegal (i : Instr) : Bool :=
  match i.hdr?, i.opcode? with
  | some h, some op => h.hint == 0 || (h.hint.toNat ≤ 4 && (op / 64 == 4 || op / 64 == 6 || op / 64 == 7 || op / 64 == 11))
  | _, _ => true

/-- CBF is zero unless a source is a circular-buffer handle (R89). -/
def Instr.cbfLegal (i : Instr) : Bool :=
  match i.hdr? with
  | some h => h.cbf == 0 || i.hasCbSrc
  | none => true

/-- Every check that R102 makes on the word alone. -/
def Instr.legal (i : Instr) : Bool := i.fieldsLegal && i.hintLegal && i.cbfLegal

/-- The step of a device agent: no word encodes it. -/
def Instr.isDeviceStep : Instr → Bool
  | .add _ _ _ _ _ _ _ => false
  | .sub _ _ _ _ _ _ _ => false
  | .mul _ _ _ _ _ _ _ _ => false
  | .div _ _ _ _ _ _ _ => false
  | .rem _ _ _ _ _ _ _ => false
  | .and _ _ _ _ _ _ => false
  | .andn _ _ _ _ _ _ => false
  | .or _ _ _ _ _ _ => false
  | .xor _ _ _ _ _ _ => false
  | .shl _ _ _ _ _ _ => false
  | .shr _ _ _ _ _ _ => false
  | .rot _ _ _ _ _ => false
  | .clz _ _ _ _ => false
  | .ctz _ _ _ _ => false
  | .popc _ _ _ _ => false
  | .cmp _ _ _ _ _ _ _ => false
  | .min _ _ _ _ _ _ => false
  | .max _ _ _ _ _ _ => false
  | .sel _ _ _ _ _ _ => false
  | .ext _ _ _ _ _ => false
  | .ins _ _ _ _ => false
  | .lea _ _ _ _ _ _ => false
  | .mov _ _ _ => false
  | .movi _ _ _ _ => false
  | .br _ _ => false
  | .bri _ _ => false
  | .call _ _ _ => false
  | .ret _ _ _ => false
  | .reti _ => false
  | .rep _ _ _ _ _ _ _ => false
  | .trap _ _ _ => false
  | .exit _ => false
  | .yield _ _ _ => false
  | .nop _ => false
  | .gset _ _ _ => false
  | .gmov _ _ => false
  | .glog _ _ _ _ _ _ _ => false
  | .csrr _ _ _ => false
  | .csrw _ _ _ => false
  | .wspsw _ _ _ => false
  | .dbg _ _ => false
  | .waitev _ _ _ _ _ _ => false
  | .ovft _ _ => false
  | .placew _ _ _ => false
  | .abort _ _ => false
  | .abchk _ _ => false
  | .fence _ _ => false
  | .xfence _ _ _ _ => false
  | .fadd _ _ _ _ _ => false
  | .fsub _ _ _ _ _ => false
  | .fmul _ _ _ _ _ => false
  | .fdiv _ _ _ _ _ => false
  | .fma _ _ _ _ _ _ => false
  | .fsqrt _ _ _ _ => false
  | .fmin _ _ _ _ _ => false
  | .fmax _ _ _ _ _ => false
  | .fcmp _ _ _ _ _ _ => false
  | .fclass _ _ _ _ => false
  | .fcvt _ _ _ _ _ => false
  | .fsgn _ _ _ _ _ _ => false
  | .qmake _ _ _ _ _ => false
  | .qnum _ _ _ => false
  | .qden _ _ _ => false
  | .qcf _ _ _ _ _ => false
  | .ld _ _ _ _ _ _ _ _ => false
  | .st _ _ _ _ _ _ _ => false
  | .pf _ _ _ => false
  | .lds _ _ _ _ _ _ _ _ _ => false
  | .sts _ _ _ _ _ _ _ _ => false
  | .feqry _ _ _ _ => false
  | .feset _ _ _ _ => false
  | .atom _ _ _ _ _ _ _ _ _ => false
  | .cas _ _ _ _ _ _ _ _ _ => false
  | .nalloc _ _ _ _ => false
  | .nst _ _ _ _ _ _ _ _ => false
  | .nld _ _ _ _ _ _ _ _ => false
  | .nrel _ _ _ => false
  | .ndrop _ _ _ => false
  | .nqry _ _ _ => false
  | .nred _ _ _ _ _ _ _ => false
  | .nsub _ _ _ _ _ _ _ _ _ => false
  | .naband _ _ _ => false
  | .nconf _ _ _ => false
  | .nrevoke _ _ _ => false
  | .fork _ _ _ _ _ => false
  | .join _ _ _ _ => false
  | .launch _ _ _ _ _ => false
  | .hinit _ _ => false
  | .htest _ _ _ _ => false
  | .hwait _ _ _ => false
  | .hcancel _ _ _ => false
  | .hresolve _ _ _ _ _ => false
  | .hjoin _ _ _ _ _ _ _ => false
  | .cpy _ _ _ _ _ _ _ _ => false
  | .cpyr _ _ _ _ _ _ _ _ => false
  | .bar _ _ => false
  | .barset _ _ _ => false
  | .boinit _ _ _ => false
  | .boarr _ _ _ => false
  | .bowait _ _ _ => false
  | .cbset _ _ _ => false
  | .adv _ _ _ _ => false
  | .vabs _ _ _ _ _ _ => false
  | .vadd _ _ _ _ _ _ _ => false
  | .vand _ _ _ _ _ => false
  | .vbcast _ _ _ _ _ => false
  | .vcmp _ _ _ _ _ _ _ => false
  | .vexp _ _ _ _ => false
  | .vfma _ _ _ _ _ _ _ _ => false
  | .vlog _ _ _ _ => false
  | .vmax _ _ _ _ _ _ => false
  | .vmaxr _ _ _ _ _ => false
  | .vmin _ _ _ _ _ _ => false
  | .vmul _ _ _ _ _ _ _ => false
  | .vneg _ _ _ _ _ _ => false
  | .vor _ _ _ _ _ => false
  | .vperm _ _ _ _ _ => false
  | .vrcp _ _ _ _ => false
  | .vrsq _ _ _ _ => false
  | .vsel _ _ _ _ _ => false
  | .vshl _ _ _ _ _ _ => false
  | .vshr _ _ _ _ _ _ => false
  | .vsub _ _ _ _ _ _ _ => false
  | .vsum _ _ _ _ _ => false
  | .vxor _ _ _ _ _ => false
  | .vld _ _ _ _ _ _ => false
  | .vst _ _ _ _ _ _ => false
  | .vldContiguous _ _ _ _ _ _ _ => false
  | .vstContiguous _ _ _ _ _ _ => false
  | .vgath _ _ _ _ _ => false
  | .vscat _ _ _ _ _ => false
  | .vcvt _ _ _ _ _ _ _ _ => false
  | .vcb _ _ => false
  | .mma _ _ _ _ _ _ => false
  | .mzero _ _ _ => false
  | .mrd _ _ _ => false
  | .mst _ _ _ => false
  | .mld _ _ _ _ => false
  | .mcvt _ _ _ _ _ _ => false
  | .mcb _ _ _ => false
  | .kvmap _ _ _ _ _ => false
  | .kvext _ _ _ _ _ => false
  | .kvtrunc _ _ _ _ _ => false
  | .kvmatch _ _ _ _ _ _ => false
  | .pxlook _ _ _ _ _ _ _ => false
  | .pxins _ _ _ _ => false
  | .plan _ _ _ _ _ => false
  | .smxm _ _ _ _ => false
  | .smxf _ _ _ _ => false
  | .rng _ _ _ _ _ => false
  | .cdend => false
  | .cdmov _ _ => false
  | .cdli _ _ => false
  | .cdlde _ _ => false
  | .cdlds _ _ _ => false
  | .cdsts _ _ _ => false
  | .cdadd _ _ _ => false
  | .cdaddImm _ _ _ => false
  | .cdsub _ _ _ => false
  | .cdsubImm _ _ _ => false
  | .cdand _ _ _ => false
  | .cdandImm _ _ _ => false
  | .cdor _ _ _ => false
  | .cdorImm _ _ _ => false
  | .cdxor _ _ _ => false
  | .cdxorImm _ _ _ => false
  | .cdshl _ _ _ => false
  | .cdshlImm _ _ _ => false
  | .cdshr _ _ _ => false
  | .cdshrImm _ _ _ => false
  | .cdmin _ _ _ => false
  | .cdminImm _ _ _ => false
  | .cdmax _ _ _ => false
  | .cdmaxImm _ _ _ => false
  | .cdhash _ _ _ => false
  | .cdhashImm _ _ _ => false
  | .cdbf _ _ _ _ => false
  | .cdhist _ _ => false
  | .cdcms _ _ _ => false
  | .cdhll _ _ => false
  | .cdemit _ _ _ => false
  | .cdtrig _ _ => false
  | .cddrop => false
  | .doorbell _ _ _ _ => true
  | .launchRecord _ _ _ => true
  | .admissionEvaluation _ => true
  | .accumulatorSave _ _ _ => true
  | .accumulatorLoad _ _ _ => true
  | .sliceCompletion _ => true
  | .kill _ => true
  | .budgetExtension _ _ => true
  | .requeue _ _ _ => true
  | .allotmentDraw _ _ => true
  | .allotmentRecall _ => true
  | .budgetExhausted _ => true
  | .deadlineMissed _ => true
  | .sliceYieldMessage _ => true
  | .idleSlotPop _ => true
  | .stealRequest _ => true
  | .stealReply _ => true
  | .stealRetry _ => true
  | .futureWake _ => true
  | .registrationPoll _ => true
  | .waitingContinuationPush _ => true
  | .taskEndByFault _ => true
  | .fetchRefetch _ => true
  | .gcdOpComplete _ _ => true
  | .dividerOpComplete _ _ => true
  | .matrixOpExecute _ => true
  | .bobbinLineMove _ _ _ => true
  | .flyerChunk _ _ => true
  | .cpyrMerge _ => true
  | .boarrArrival _ => true
  | .powerGateEntry _ => true
  | .powerGateWake _ => true
  | .boostClockDown _ => true
  | .boostClockRestore _ => true
  | .nstArrival _ => true
  | .nstAcknowledge _ => true
  | .refusedStoreRetry _ => true
  | .nldRequest _ => true
  | .retryResend _ => true
  | .arrivalNotice _ => true
  | .nredContributionArrival _ => true
  | .rootDecisionArrival _ => true
  | .withdrawal _ => true
  | .reelSlotFill _ => true
  | .reelWritebackDrain _ => true
  | .nldSlotArrival _ => true
  | .scopeMiss _ => true
  | .promotedReply _ => true
  | .remoteBankAccess _ => true
  | .neighbourWordArrival _ => true
  | .farMessageDelivery _ => true
  | .portReplyArrival _ => true
  | .barrierArrivalForward _ _ _ => true
  | .barrierRelease _ _ _ => true
  | .planExecute _ => true
  | .waitevWake _ => true
  | .waitevTimeout _ => true
  | .pageWalk _ _ => true
  | .missTableRetry _ => true
  | .regionCacheFill _ _ => true
  | .uncorrectableError _ => true
  | .carderEvent _ _ => true
  | .carderWindowStart _ => true
  | .stateChangeRecord _ => true
  | .stateLogEscape _ => true
  | .filterSlotLoad _ _ _ _ => true
  | .filterSlotDetach _ _ _ => true
  | .objectClear _ _ => true
  | .debugStop _ => true
  | .debugResume _ => true
  | .debugStep _ _ _ => true
  | .watchdogSoftRestart _ => true
  | .watchdogFirmwareReload _ => true
  | .watchdogPartitionReset _ => true
  | .watchdogDieReset _ => true
  | .watchdogPackageReset _ _ => true
  | .stalled _ => true
  | .wdkick _ => true
  | .fwsubmit _ _ _ => true
  | .cpevthead _ _ => true
  | .heldEventAppend _ => true
  | .swapreq _ _ => true
  | .swapVerifyDone _ _ => true
  | .mode _ _ => true
  | .dctl _ _ => true
  | .ovdef _ _ => true
  | .vquota _ _ => true
  | .nregion _ _ => true
  | .tlbInvalidate _ _ => true
  | .tlbInvalidateComplete _ => true
  | .arena _ _ _ => true
  | .wpool _ _ _ => true
  | .pxctl _ _ => true
  | .nrmbase _ _ => true
  | .regrel _ _ => true
  | .reset _ _ => true
  | .partitionResetComplete _ => true
  | .gown _ _ _ => true
  | .mctail _ _ => true
  | .registerWrite _ _ => true
  | .dieReset _ => true
  | .packageReset _ => true
  | .throttleStart _ => true
  | .throttleEnd _ => true
  | .overtempShutdown _ => true
  | .flitCrcRetry _ _ => true
  | .corramFlitRetry _ _ => true
  | .linkRetrain _ _ _ => true
  | .storeQueueWrite _ _ => true
  | .homeRequest _ => true
  | .homeAnswer _ => true
  | .hostDma _ _ => true
  | .regionReleaseComplete _ => true
  | .roothome _ _ => true
  | .partitionCreateDestroy _ _ => true
  | .ucieRetrain _ _ => true

end Sys2Proof
end

