-- ==== Sys2Proof/WellFormed.lean ====
section
/-!
DEFINITION. Sys2Proof/WellFormed.lean: an instruction is well formed when its word is one that R102 lets issue.
-/
namespace Sys2Proof

/-- The word of `i` passes every check of R102 that depends on the word alone. -/
def Instr.wellFormed (i : Instr) : Bool := i.legal

end Sys2Proof
end

