-- ==== Sys2Proof/Decode.lean ====
section
/-!
DEFINITION. Sys2Proof/Decode.lean: the instruction word of R83 and R87, the fetch line of R77 and R78, the Carder's word of R278,
the decoder and the encoder. The decoder reads the fields and accepts the word exactly when the instruction it names is legal
under R102 and encodes to the same word, so every unused field and reserved bit must be zero.
-/
namespace Sys2Proof

/-- Little-endian packing of fields given as (width, value), the lowest first (R4). -/
def pack : List (Nat × Nat) → Nat
  | [] => 0
  | (w, v) :: r => v + 2 ^ w * pack r

/-- The fields of the given widths, the lowest first. -/
def unpack : List Nat → Nat → List Nat
  | [], _ => []
  | w :: r, n => n % 2 ^ w :: unpack r (n / 2 ^ w)

/-- `n` bits of `x` from bit `lo` up: x<lo+n-1:lo> (R4). -/
def field (x lo n : Nat) : Nat := x / 2 ^ lo % 2 ^ n

def bit (b : Bool) : Nat := if b then 1 else 0

/-- Operand codes (R90). -/
def Opnd.code : Opnd → Nat
  | .w n => n.val
  | .v n => 0x40 + n.val
  | .acc n => 0x60 + n.val
  | .m n => 0x64 + n.val
  | .pn => 0x70 | .pe => 0x71 | .ps => 0x72 | .pw => 0x73 | .pf => 0x74 | .pq => 0x75
  | .cb n => 0x80 + n.val
  | .zero => 0xF0 | .tid => 0xF1 | .lane => 0xF2 | .ones => 0xF3 | .dtime => 0xF4

def fin? (k n : Nat) : Option (Fin k) := if h : n < k then some ⟨n, h⟩ else none

/-- The operand of a code; none where R90 makes the code illegal. -/
def Opnd.ofCode (n : Nat) : Option Opnd :=
  if n < 0x40 then (fin? 64 n).map .w
  else if n < 0x60 then (fin? 32 (n - 0x40)).map .v
  else if n < 0x64 then (fin? 4 (n - 0x60)).map .acc
  else if n < 0x6C then (fin? 8 (n - 0x64)).map .m
  else if n < 0x70 then none
  else if n == 0x70 then some .pn
  else if n == 0x71 then some .pe
  else if n == 0x72 then some .ps
  else if n == 0x73 then some .pw
  else if n == 0x74 then some .pf
  else if n == 0x75 then some .pq
  else if n < 0x80 then none
  else if n < 0x90 then (fin? 16 (n - 0x80)).map .cb
  else if n < 0xF0 then none
  else if n == 0xF0 then some .zero
  else if n == 0xF1 then some .tid
  else if n == 0xF2 then some .lane
  else if n == 0xF3 then some .ones
  else if n == 0xF4 then some .dtime
  else none

/-- The widths of the operand area of each form, the lowest field first (R87). -/
def formWidths : Nat → Option (List Nat)
  | 0 => some [8, 8, 8, 8, 8, 19]
  | 1 => some [8, 8, 8, 16, 19]
  | 2 => some [8, 8, 32, 11]
  | 3 => some [8, 48, 3]
  | 4 => some [8, 40, 11]
  | 5 => some [8, 8, 8, 8, 8, 8, 11]
  | 6 => some [8, 8, 8, 8, 8, 19]
  | _ => none

/-- An instruction word by fields. -/
structure Raw where
  h : Hdr
  op : Nat
  form : Nat
  f : List Nat
deriving DecidableEq, Repr

/-- The common fields below the operand area (R83), as values of widths 4, 4, 1, 1, 1, 1, 2, 3 and 4. -/
def Hdr.fields (h : Hdr) : List (Nat × Nat) :=
  [(4, h.ga.toNat), (4, h.gb.toNat), (1, bit h.gc), (1, bit h.ya), (1, bit h.eog),
   (1, bit h.wait.isSome), (2, (h.wait.map (·.cls.toNat)).getD 0), (3, (h.wait.map (·.cnt.toNat)).getD 0), (4, h.hint.toNat)]

/-- The 96-bit word of the fields; words of form 7 do not exist. -/
def Raw.toNat (r : Raw) : Nat :=
  pack ([(10, r.op), (3, r.form)] ++ r.h.fields ++ ((formWidths r.form).getD []).zip r.f ++ [(3, r.h.cbf.toNat)])

/-- The Q field, or the GD bits of R306 within it, above the other qualifiers. -/
def qGd (form : Nat) (gd : BitVec 3) : Nat :=
  if form == 3 then gd.toNat else if form == 2 || form == 4 || form == 5 then 2 ^ 8 * gd.toNat else 2 ^ 16 * gd.toNat

def gdOf (form q : Nat) : BitVec 3 :=
  if form == 3 then BitVec.ofNat 3 q
  else if form == 2 || form == 4 || form == 5 then BitVec.ofNat 3 (q / 2 ^ 8) else BitVec.ofNat 3 (q / 2 ^ 16)

/-- Three-operand shape: O1, O2 and either O3, IMM16 or IMM32. -/
def raw3 (h : Hdr) (op o1 o2 : Nat) (b : Src) (q : Nat) (gd : BitVec 3 := 0) : Raw :=
  match b with
  | .op o => ⟨h, op, 0, [o1, o2, o.code, 0, 0, q + qGd 0 gd]⟩
  | .imm16 i => ⟨h, op, 1, [o1, o2, 0, i.toNat, q + qGd 1 gd]⟩
  | .imm32 i => ⟨h, op, 2, [o1, o2, i.toNat, q + qGd 2 gd]⟩

/-- The count operand in O2 (form R) or IMM16 (R311, R382), the first operand in O1. -/
def raw2 (h : Hdr) (op o1 : Nat) (b : Src) (q : Nat) (gd : BitVec 3 := 0) : Raw :=
  match b with
  | .op o => ⟨h, op, 0, [o1, o.code, 0, 0, 0, q + qGd 0 gd]⟩
  | .imm16 i => ⟨h, op, 1, [o1, 0, 0, i.toNat, q + qGd 1 gd]⟩
  | .imm32 i => ⟨h, op, 2, [o1, 0, i.toNat, q + qGd 2 gd]⟩

def rawR (h : Hdr) (op o1 o2 o3 o4 o5 q : Nat) (gd : BitVec 3 := 0) : Raw :=
  ⟨h, op, 0, [o1, o2, o3, o4, o5, q + qGd 0 gd]⟩

def rawE (h : Hdr) (op o1 o2 o3 o4 cm q : Nat) (gd : BitVec 3 := 0) : Raw :=
  ⟨h, op, 5, [o1, o2, o3, o4, cm, 0, q + qGd 5 gd]⟩

/-- MK in Q<3:1> and ME in Q<4>, with SGN in Q<0> (R401). -/
def qVec (sgn : Bool) (m : VMask) (op fmt : Nat) : Nat :=
  pack [(1, bit sgn), (3, m.reg.val), (1, bit m.on), (4, op), (4, fmt)]

/-- WID, SGN, SAT and COND of R309. -/
def qAlu (wid : BitVec 2) (sgn sat : Bool) (cond : Nat := 0) (hi : Bool := false) : Nat :=
  pack [(2, wid.toNat), (1, bit sgn), (1, bit sat), (4, cond), (1, bit hi)]

/-- ORD, SCOPE, SZ and SGN of R356, FE of R358. -/
def qMem (ord : BitVec 2) (scope : BitVec 3) (sz : BitVec 2) (sgn : Bool) (fe : Nat := 0) : Nat :=
  pack [(2, ord.toNat), (3, scope.toNat), (2, sz.toNat), (1, bit sgn), (2, fe)]

/-- SIZE, FMT, P, CONS, GE and DIR of R373. -/
def qTile (size : BitVec 3) (fmt : BitVec 4) (p cons ge wb : Bool) : Nat :=
  pack [(3, size.toNat), (4, fmt.toNat), (1, bit p), (1, bit cons), (1, bit ge), (1, bit wb)]

def srcCode : Src → Nat
  | .op o => o.code
  | _ => 0

/-- The fields of a core instruction, from its entry's table; none for Carder words and device steps. -/
def Instr.toRaw? : Instr → Option Raw
  | .add h d a b wid sgn sat => some (raw3 h 0x1 d.code a.code b (qAlu wid sgn sat))
  | .sub h d a b wid sgn sat => some (raw3 h 0x2 d.code a.code b (qAlu wid sgn sat))
  | .mul h d a b wid sgn sat hi => some (raw3 h 0x3 d.code a.code b (qAlu wid sgn sat 0 hi))
  | .div h gd d a b wid sgn => some (raw3 h 0x4 d.val a.code b (qAlu wid sgn false) gd)
  | .rem h gd d a b wid sgn => some (raw3 h 0x5 d.val a.code b (qAlu wid sgn false) gd)
  | .and h d a b wid sgn => some (raw3 h 0x6 d.code a.code b (qAlu wid sgn false))
  | .andn h d a b wid sgn => some (raw3 h 0x7 d.code a.code b (qAlu wid sgn false))
  | .or h d a b wid sgn => some (raw3 h 0x8 d.code a.code b (qAlu wid sgn false))
  | .xor h d a b wid sgn => some (raw3 h 0x9 d.code a.code b (qAlu wid sgn false))
  | .shl h d a b wid sgn => some (raw3 h 0xa d.code a.code b (qAlu wid sgn false))
  | .shr h d a b wid sgn => some (raw3 h 0xb d.code a.code b (qAlu wid sgn false))
  | .rot h d a b wid => some (raw3 h 0xc d.code a.code b (qAlu wid false false))
  | .clz h d a wid => some (rawR h 0xd d.code a.code 0 0 0 (qAlu wid false false))
  | .ctz h d a wid => some (rawR h 0xe d.code a.code 0 0 0 (qAlu wid false false))
  | .popc h d a wid => some (rawR h 0xf d.code a.code 0 0 0 (qAlu wid false false))
  | .cmp h gd a b wid sgn cond => some (raw3 h 0x10 0 a.code b (qAlu wid sgn false cond.toNat) gd)
  | .min h d a b wid sgn => some (raw3 h 0x11 d.code a.code b (qAlu wid sgn false))
  | .max h d a b wid sgn => some (raw3 h 0x12 d.code a.code b (qAlu wid sgn false))
  | .sel h d a b sg inv => some (raw3 h 0x13 d.code a.code b (pack [(8, 0), (3, sg.toNat), (1, bit inv)]))
  | .ext h d a b sgn => some (raw3 h 0x14 d.val a.code b (qAlu 0 sgn false))
  | .ins h d a b => some (raw3 h 0x15 d.val a.code b 0)
  | .lea h d a b sh loc => some (raw3 h 0x16 d.code a.code b (pack [(8, 0), (2, sh.toNat), (1, bit loc)]))
  | .mov h d s => some (rawR h 0x17 d.code s.code 0 0 0 0)
  | .movi h d imm hi => some (⟨h, 0x18, 3, [d.val, imm.toNat, bit hi]⟩)
  | .br h disp => some (⟨h, 0x40, 4, [0, disp.toNat, 0]⟩)
  | .bri h t => some (rawR h 0x41 0 t.val 0 0 0 0)
  | .call h t frame => some ((match t with | .disp x => ⟨h, 0x42, 4, [0, x.toNat, frame.toNat]⟩ | .reg r => rawR h 0x42 0 r.val 0 0 0 frame.toNat))
  | .ret h link f => some (rawR h 0x43 0 link.val 0 0 0 (bit f))
  | .reti h => some (rawR h 0x44 0 0 0 0 0 0)
  | .rep h wc wi vbase vspanM1 vstep astep => some (rawR h 0x45 0 wc.val wi.val 0 0 (pack [(5, vbase.toNat), (5, vspanM1.toNat), (5, vstep.toNat), (2, astep.toNat)]))
  | .trap h info code => some (⟨h, 0x46, 1, [0, info.code, 0, code.toNat, 0]⟩)
  | .exit h => some (rawR h 0x47 0 0 0 0 0 0)
  | .yield h s dl => some (rawR h 0x48 0 dl.val 0 0 0 (bit s))
  | .nop h => some (rawR h 0x80 0 0 0 0 0 0)
  | .gset h gd s => some ((match s with | .reg o => rawR h 0x81 0 o.code 0 0 0 0 gd | .f => rawR h 0x81 0 0 0 0 0 1 gd | .t => rawR h 0x81 0 0 0 0 0 2 gd))
  | .gmov h x => some ((match x with | .r d => rawR h 0x82 d.val 0 0 0 0 0 | .w s => rawR h 0x82 0 s.code 0 0 0 1))
  | .glog h gd a b ia ib op => some (rawR h 0x83 0 0 0 0 0 (pack [(3, a.toNat), (1, bit ia), (3, b.toNat), (1, bit ib), (2, op.toNat)]) gd)
  | .csrr h d n => some (⟨h, 0x84, 1, [d.val, 0, 0, n.toNat, 0]⟩)
  | .csrw h s n => some (⟨h, 0x85, 1, [0, s.code, 0, n.toNat, 0]⟩)
  | .wspsw h d s => some (rawR h 0x86 d.val s.val 0 0 0 0)
  | .dbg h code => some (⟨h, 0x87, 1, [0, 0, 0, code.toNat, 0]⟩)
  | .waitev h gd d a e t => some (rawR h 0x88 d.val a.val e.code t.code 0 0 gd)
  | .ovft h t => some (raw2 h 0x89 0 t 0)
  | .placew h i e => some (rawR h 0x8A 0 i.code e.code 0 0 0)
  | .abort h clr => some (rawR h 0x8B 0 0 0 0 0 (bit clr))
  | .abchk h gd => some (rawR h 0x8C 0 0 0 0 0 0 gd)
  | .fence h scope => some (rawR h 0x8D 0 0 0 0 0 (4 * scope.toNat))
  | .xfence h scope fr dest => some (rawR h 0x8E 0 0 0 0 0 (pack [(2, 0), (3, scope.toNat), (6, fr.toNat), (6, dest.toNat)]))
  | .fadd h d a b fmt => some (rawR h 0xc0 d.val a.code b.code 0 0 fmt.toNat)
  | .fsub h d a b fmt => some (rawR h 0xc1 d.val a.code b.code 0 0 fmt.toNat)
  | .fmul h d a b fmt => some (rawR h 0xc2 d.val a.code b.code 0 0 fmt.toNat)
  | .fdiv h d a b fmt => some (rawR h 0xc3 d.val a.code b.code 0 0 fmt.toNat)
  | .fma h d a b c fmt => some (rawR h 0xC4 d.val a.code b.code c.code 0 fmt.toNat)
  | .fsqrt h d a fmt => some (rawR h 0xc5 d.val a.code 0 0 0 fmt.toNat)
  | .fmin h d a b fmt => some (rawR h 0xc6 d.val a.code b.code 0 0 fmt.toNat)
  | .fmax h d a b fmt => some (rawR h 0xc7 d.val a.code b.code 0 0 fmt.toNat)
  | .fcmp h gd a b fmt cond => some (rawR h 0xC8 0 a.code b.code 0 0 (pack [(2, fmt.toNat), (4, cond.toNat)]) gd)
  | .fclass h d a fmt => some (rawR h 0xc9 d.val a.code 0 0 0 fmt.toNat)
  | .fcvt h d a src dst => some (rawR h 0xCA d.val a.code 0 0 0 (pack [(4, src.toNat), (4, dst.toNat)]))
  | .fsgn h d a b op fmt => some (rawR h 0xCB d.val a.code b.code 0 0 (pack [(2, fmt.toNat), (2, op.toNat)]))
  | .qmake h d n m sgn => some (rawR h 0xCC d.val n.code m.code 0 0 (4 * bit sgn))
  | .qnum h d a => some (rawR h 0xCD d.val a.code 0 0 0 0)
  | .qden h d a => some (rawR h 0xCE d.val a.code 0 0 0 0)
  | .qcf h gd d1 d2 a => some (rawR h 0xCF d1.val d2.val a.code 0 0 0 gd)
  | .ld h d b x ord scope sz sgn => some (raw3 h 0x100 d.val b.code x (qMem ord scope sz sgn))
  | .st h s b x ord scope sz => some (raw3 h 0x101 s.code b.code x (qMem ord scope sz false))
  | .pf h b x => some (raw3 h 0x102 0 b.code x 0)
  | .lds h d b x ord scope sz sgn fe => some (raw3 h 0x140 d.val b.code x (qMem ord scope sz sgn fe.toNat))
  | .sts h s b x ord scope sz fe => some (raw3 h 0x141 s.code b.code x (qMem ord scope sz false (bit fe)))
  | .feqry h d a n => some (⟨h, 0x142, 1, [d.val, a.val, 0, n.toNat, 0]⟩)
  | .feset h a mask val => some (rawR h 0x143 0 a.val mask.val 0 0 (bit val))
  | .atom h d a v ord scope op w32 sgn => some (rawR h 0x180 d.val a.val v.code 0 0 (pack [(2, ord.toNat), (3, scope.toNat), (4, op.toNat), (1, bit w32), (1, bit sgn)]))
  | .cas h gd d a e n ord scope w32 => some (rawR h 0x181 d.val a.val e.code n.code 0 (pack [(2, ord.toNat), (3, scope.toNat), (4, 0), (1, bit w32)]) gd)
  | .nalloc h gd d j => some (raw2 h 0x1C0 d.val j 0 gd)
  | .nst h p d r a c size fmt => some ((match c with | .op o => rawR h 0x1C1 d.val r.val a.code o.code 0 (qTile size fmt p false false false) | .imm16 i => ⟨h, 0x1C1, 1, [d.val, r.val, a.code, i.toNat, qTile size fmt p false false false]⟩ | .imm32 i => ⟨h, 0x1C1, 2, [d.val, r.val, i.toNat, 0]⟩))
  | .nld h d r t maxsz p cons ge => some (rawR h 0x1C2 d.val r.val (match t with | .loc x => x.val | .cb n => 0x80 + n.val | .v n => 0x40 + n.val) 0 0 (qTile maxsz 0 p cons ge false))
  | .nrel h gd r => some (rawR h 0x1c3 0 r.val 0 0 0 0 gd)
  | .ndrop h gd r => some (rawR h 0x1c4 0 r.val 0 0 0 0 gd)
  | .nqry h d r => some (rawR h 0x1C5 d.val r.val 0 0 0 0)
  | .nred h d r a c size fmt => some (rawE h 0x1C6 d.val r.val a.code c.val 0 (qTile size fmt false false false false))
  | .nsub h d r cb c wb cons size fmt => some (rawE h 0x1C7 d.val r.val (0x80 + cb.val) c.val 0 (qTile size fmt false cons false wb))
  | .naband h gd r => some (rawR h 0x1c8 0 r.val 0 0 0 0 gd)
  | .nconf h gd r => some (rawR h 0x1c9 0 r.val 0 0 0 0 gd)
  | .nrevoke h gd r => some (rawR h 0x1ca 0 r.val 0 0 0 0 gd)
  | .fork h gd pc arg j => some (rawR h 0x200 0 pc.code arg.code j.code 0 0 gd)
  | .join h gd d a => some (rawR h 0x201 d.val a.val 0 0 0 0 gd)
  | .launch h gd d a vp => some (rawR h 0x202 d.val a.val 0 0 0 (bit vp) gd)
  | .hinit h d => some (rawE h 0x203 d.val 0 0 0 0 0)
  | .htest h gd d a => some (rawR h 0x204 d.val a.val 0 0 0 0 gd)
  | .hwait h gd a => some (rawR h 0x205 0 a.val 0 0 0 0 gd)
  | .hcancel h gd a => some (rawR h 0x206 0 a.val 0 0 0 0 gd)
  | .hresolve h gd a v flt => some (rawR h 0x207 0 a.val v.code 0 0 (bit flt) gd)
  | .hjoin h gd pc arg j h1 h2 => some (rawR h 0x208 pc.code arg.code j.code h1.val h2.code 0 gd)
  | .cpy h d dst src c cmask sk dk => some (rawE h 0x240 d.val dst.val src.val c.val cmask.toNat (pack [(1, bit sk), (1, bit dk)]))
  | .cpyr h d dst src c sk dk m => some (rawE h 0x241 d.val dst.val src.val c.val m.cmask.toNat (pack [(1, bit sk), (1, bit dk), (4, m.fmt.toNat)]))
  | .bar h n => some (rawR h 0x242 0 0 0 0 0 n.toNat)
  | .barset h n s => some ((match s with | some r => rawR h 0x243 0 r.val 0 0 0 n.toNat | none => rawR h 0x243 0 0 0 0 0 (n.toNat + 4)))
  | .boinit h a e => some ((match e with | some o => rawR h 0x244 0 a.val o.code 0 0 0 | none => rawR h 0x244 0 a.val 0 0 0 1))
  | .boarr h a c => some (raw3 h 0x245 0 a.val c 0)
  | .bowait h gd a => some (rawR h 0x246 0 a.val 0 0 0 0 gd)
  | .cbset h cb cfg => some ((match cfg with | some (r, i) => ⟨h, 0x247, 1, [0x80 + cb.val, r.val, 0, i.toNat, 0]⟩ | none => ⟨h, 0x247, 1, [0x80 + cb.val, 0, 0, 0, 1]⟩))
  | .adv h cb n prod => some (raw2 h 0x248 (0x80 + cb.val) n (bit prod))
  | .vabs h d a m sgn sat => some (rawR h 0x280 (0x40 + d.val) a.code 0 0 0 (qVec sgn m (bit sat) 0))
  | .vadd h d a b m sgn sat => some (raw3 h 0x281 (0x40 + d.val) a.code b (qVec sgn m (bit sat) 0))
  | .vand h d a b m => some (raw3 h 0x282 (0x40 + d.val) a.code b (qVec false m 0 0))
  | .vbcast h d s m fmt => some (raw2 h 0x283 (0x40 + d.val) s (qVec false m 0 fmt.toNat))
  | .vcmp h d a b m sgn cond => some (raw3 h 0x284 (0x64 + d.val) a.code b (qVec sgn m cond.toNat 0))
  | .vexp h d a m => some (rawR h 0x285 (0x40 + d.val) a.code 0 0 0 (qVec false m 0 0))
  | .vfma h d a b c m sgn sat => some (rawR h 0x286 (0x40 + d.val) a.code b.code c.code 0 (qVec sgn m (bit sat) 0))
  | .vlog h d a m => some (rawR h 0x287 (0x40 + d.val) a.code 0 0 0 (qVec false m 0 0))
  | .vmax h d a b m sgn => some (raw3 h 0x288 (0x40 + d.val) a.code b (qVec sgn m 0 0))
  | .vmaxr h d a m sgn => some (rawR h 0x289 d.val (0x40 + a.val) 0 0 0 (qVec sgn m 0 0))
  | .vmin h d a b m sgn => some (raw3 h 0x28a (0x40 + d.val) a.code b (qVec sgn m 0 0))
  | .vmul h d a b m sgn sat => some (raw3 h 0x28b (0x40 + d.val) a.code b (qVec sgn m (bit sat) 0))
  | .vneg h d a m sgn sat => some (rawR h 0x28c (0x40 + d.val) a.code 0 0 0 (qVec sgn m (bit sat) 0))
  | .vor h d a b m => some (raw3 h 0x28d (0x40 + d.val) a.code b (qVec false m 0 0))
  | .vperm h d a i m => some (rawR h 0x28E (0x40 + d.val) a.code i.code 0 0 (qVec false m 0 0))
  | .vrcp h d a m => some (rawR h 0x28f (0x40 + d.val) a.code 0 0 0 (qVec false m 0 0))
  | .vrsq h d a m => some (rawR h 0x290 (0x40 + d.val) a.code 0 0 0 (qVec false m 0 0))
  | .vsel h d a b sm => some (rawR h 0x291 (0x40 + d.val) a.code b.code (0x64 + sm.val) 0 0)
  | .vshl h d a b m sgn => some (raw3 h 0x292 (0x40 + d.val) a.code b (qVec sgn m 0 0))
  | .vshr h d a b m sgn => some (raw3 h 0x293 (0x40 + d.val) a.code b (qVec sgn m 0 0))
  | .vsub h d a b m sgn sat => some (raw3 h 0x294 (0x40 + d.val) a.code b (qVec sgn m (bit sat) 0))
  | .vsum h d a m sgn => some (rawR h 0x295 d.val (0x40 + a.val) 0 0 0 (qVec sgn m 0 0))
  | .vxor h d a b m => some (raw3 h 0x296 (0x40 + d.val) a.code b (qVec false m 0 0))
  | .vld h d rec pos m nregM1 => some (⟨h, 0x2c0, 6, [0x40 + d.val, 0, rec.val, 0, pos.val, qVec false m 0 0 + 2 ^ 14 * nregM1.toNat]⟩)
  | .vst h d rec pos m nregM1 => some (⟨h, 0x2c1, 6, [0x40 + d.val, 0, rec.val, 0, pos.val, qVec false m 0 0 + 2 ^ 14 * nregM1.toNat]⟩)
  | .vldContiguous h d b x m fmt pl => some (raw3 h 0x2C0 (0x40 + d.val) b.code x (qVec false m 0 fmt.toNat + 2 ^ 13 * bit pl))
  | .vstContiguous h d b x m pl => some (raw3 h 0x2C1 (0x40 + d.val) b.code x (qVec false m 0 0 + 2 ^ 13 * bit pl))
  | .vgath h d i rec m => some (⟨h, 0x2c2, 6, [0x40 + d.val, 0x40 + i.val, rec.val, 0, 0xF0, qVec false m 0 0]⟩)
  | .vscat h d i rec m => some (⟨h, 0x2c3, 6, [0x40 + d.val, 0x40 + i.val, rec.val, 0, 0xF0, qVec false m 0 0]⟩)
  | .vcvt h d a s m sgn fmt seg => some (rawR h 0x2C4 (0x40 + d.val) (0x40 + a.val) s.code 0 0 (qVec sgn m seg.toNat fmt.toNat))
  | .vcb h a => some (rawR h 0x2C5 0 a.val 0 0 0 0)
  | .mma h acc s k au bu => some ((match s with | .shape x y => ⟨h, 0x300, 6, [0x60 + acc.val, 0, x.val, y.val, 0xF0, k.toNat + 2 ^ 17 * bit au + 2 ^ 18 * bit bu]⟩ | .cbs x y fa fb => rawR h 0x300 (0x60 + acc.val) (0x80 + x.val) (0x80 + y.val) 0 0 (pack [(9, k.toNat), (4, fa.toNat), (4, fb.toNat), (1, bit au), (1, bit bu)])))
  | .mzero h acc int => some (rawR h 0x301 (0x60 + acc.val) 0 0 0 0 (bit int))
  | .mrd h x peek => some ((match x with | .reg d acc r => rawR h 0x302 (0x40 + d.val) (0x60 + acc.val) r.val 0 0 (bit peek) | .mem a acc => rawR h 0x302 0 a.val (0x60 + acc.val) 0 0 (bit peek + 2)))
  | .mst h a acc => some (rawR h 0x303 0 a.val (0x60 + acc.val) 0 0 0)
  | .mld h acc a int => some (rawR h 0x304 (0x60 + acc.val) a.val 0 0 0 (bit int))
  | .mcvt h a acc s fmt sgn => some (rawR h 0x305 0 a.val (0x60 + acc.val) s.val 0 (pack [(4, fmt.toNat), (1, bit sgn)]))
  | .mcb h a side => some (rawR h 0x306 0 a.val 0 0 0 (bit side))
  | .kvmap h gd d a p => some (rawR h 0x340 d.val a.code p.code 0 0 0 gd)
  | .kvext h gd d a n => some (rawR h 0x341 d.val a.code n.code 0 0 0 gd)
  | .kvtrunc h gd d a n => some (rawR h 0x342 d.val a.code n.code 0 0 0 gd)
  | .kvmatch h gd d a b n => some (rawR h 0x343 d.val a.code b.code n.code 0 0 gd)
  | .pxlook h gd d hash p t n => some (rawR h 0x344 d.val hash.code p.code t.code n.code 0 gd)
  | .pxins h gd d r => some (rawR h 0x345 d.val r.code 0 0 0 0 gd)
  | .plan h d b o c => some (rawE h 0x346 d.val b.val o.val c.val 0 0)
  | .smxm h d a b => some (rawR h 0x347 (0x40 + d.val) (0x40 + a.val) (0x40 + b.val) 0 0 0)
  | .smxf h gd d s => some (rawR h 0x348 (0x40 + d.val) (0x40 + s.val) 0 0 0 0 gd)
  | .rng h d c k u => some (rawR h 0x349 (0x40 + d.val) c.val k.val 0 0 (bit u))
  | .cdend => none
  | .cdmov _ _ => none
  | .cdli _ _ => none
  | .cdlde _ _ => none
  | .cdlds _ _ _ => none
  | .cdsts _ _ _ => none
  | .cdadd _ _ _ => none
  | .cdaddImm _ _ _ => none
  | .cdsub _ _ _ => none
  | .cdsubImm _ _ _ => none
  | .cdand _ _ _ => none
  | .cdandImm _ _ _ => none
  | .cdor _ _ _ => none
  | .cdorImm _ _ _ => none
  | .cdxor _ _ _ => none
  | .cdxorImm _ _ _ => none
  | .cdshl _ _ _ => none
  | .cdshlImm _ _ _ => none
  | .cdshr _ _ _ => none
  | .cdshrImm _ _ _ => none
  | .cdmin _ _ _ => none
  | .cdminImm _ _ _ => none
  | .cdmax _ _ _ => none
  | .cdmaxImm _ _ _ => none
  | .cdhash _ _ _ => none
  | .cdhashImm _ _ _ => none
  | .cdbf _ _ _ _ => none
  | .cdhist _ _ => none
  | .cdcms _ _ _ => none
  | .cdhll _ _ => none
  | .cdemit _ _ _ => none
  | .cdtrig _ _ => none
  | .cddrop => none
  | .doorbell _ _ _ _ => none
  | .launchRecord _ _ _ => none
  | .admissionEvaluation _ => none
  | .accumulatorSave _ _ _ => none
  | .accumulatorLoad _ _ _ => none
  | .sliceCompletion _ => none
  | .kill _ => none
  | .budgetExtension _ _ => none
  | .requeue _ _ _ => none
  | .allotmentDraw _ _ => none
  | .allotmentRecall _ => none
  | .budgetExhausted _ => none
  | .deadlineMissed _ => none
  | .sliceYieldMessage _ => none
  | .idleSlotPop _ => none
  | .stealRequest _ => none
  | .stealReply _ => none
  | .stealRetry _ => none
  | .futureWake _ => none
  | .registrationPoll _ => none
  | .waitingContinuationPush _ => none
  | .taskEndByFault _ => none
  | .fetchRefetch _ => none
  | .gcdOpComplete _ _ => none
  | .dividerOpComplete _ _ => none
  | .matrixOpExecute _ => none
  | .bobbinLineMove _ _ _ => none
  | .flyerChunk _ _ => none
  | .cpyrMerge _ => none
  | .boarrArrival _ => none
  | .powerGateEntry _ => none
  | .powerGateWake _ => none
  | .boostClockDown _ => none
  | .boostClockRestore _ => none
  | .nstArrival _ => none
  | .nstAcknowledge _ => none
  | .refusedStoreRetry _ => none
  | .nldRequest _ => none
  | .retryResend _ => none
  | .arrivalNotice _ => none
  | .nredContributionArrival _ => none
  | .rootDecisionArrival _ => none
  | .withdrawal _ => none
  | .reelSlotFill _ => none
  | .reelWritebackDrain _ => none
  | .nldSlotArrival _ => none
  | .scopeMiss _ => none
  | .promotedReply _ => none
  | .remoteBankAccess _ => none
  | .neighbourWordArrival _ => none
  | .farMessageDelivery _ => none
  | .portReplyArrival _ => none
  | .barrierArrivalForward _ _ _ => none
  | .barrierRelease _ _ _ => none
  | .planExecute _ => none
  | .waitevWake _ => none
  | .waitevTimeout _ => none
  | .pageWalk _ _ => none
  | .missTableRetry _ => none
  | .regionCacheFill _ _ => none
  | .uncorrectableError _ => none
  | .carderEvent _ _ => none
  | .carderWindowStart _ => none
  | .stateChangeRecord _ => none
  | .stateLogEscape _ => none
  | .filterSlotLoad _ _ _ _ => none
  | .filterSlotDetach _ _ _ => none
  | .objectClear _ _ => none
  | .debugStop _ => none
  | .debugResume _ => none
  | .debugStep _ _ _ => none
  | .watchdogSoftRestart _ => none
  | .watchdogFirmwareReload _ => none
  | .watchdogPartitionReset _ => none
  | .watchdogDieReset _ => none
  | .watchdogPackageReset _ _ => none
  | .stalled _ => none
  | .wdkick _ => none
  | .fwsubmit _ _ _ => none
  | .cpevthead _ _ => none
  | .heldEventAppend _ => none
  | .swapreq _ _ => none
  | .swapVerifyDone _ _ => none
  | .mode _ _ => none
  | .dctl _ _ => none
  | .ovdef _ _ => none
  | .vquota _ _ => none
  | .nregion _ _ => none
  | .tlbInvalidate _ _ => none
  | .tlbInvalidateComplete _ => none
  | .arena _ _ _ => none
  | .wpool _ _ _ => none
  | .pxctl _ _ => none
  | .nrmbase _ _ => none
  | .regrel _ _ => none
  | .reset _ _ => none
  | .partitionResetComplete _ => none
  | .gown _ _ _ => none
  | .mctail _ _ => none
  | .registerWrite _ _ => none
  | .dieReset _ => none
  | .packageReset _ => none
  | .throttleStart _ => none
  | .throttleEnd _ => none
  | .overtempShutdown _ => none
  | .flitCrcRetry _ _ => none
  | .corramFlitRetry _ _ => none
  | .linkRetrain _ _ _ => none
  | .storeQueueWrite _ _ => none
  | .homeRequest _ => none
  | .homeAnswer _ => none
  | .hostDma _ _ => none
  | .regionReleaseComplete _ => none
  | .roothome _ _ => none
  | .partitionCreateDestroy _ _ => none
  | .ucieRetrain _ _ => none

/-- The Carder's word as (width, value) fields, the lowest first (R278). -/
def cdA (op d a b : Nat) (i : Option (BitVec 13)) : List (Nat × Nat) :=
  match i with
  | some i => [(13, i.toNat), (1, 1), (4, 0), (4, a), (4, d), (6, op)]
  | none => [(13, 0), (1, 0), (4, b), (4, a), (4, d), (6, op)]

def cdO (op d a b obj : Nat) : List (Nat × Nat) :=
  [(6, 0), (8, obj), (4, b), (4, a), (4, d), (6, op)]

/-- The fields of a Carder word, from R278 and R279; none for the others. -/
def Instr.carderFields? : Instr → Option (List (Nat × Nat))
  | .cdend => some (cdA 0 0 0 0 none)
  | .cdmov d a => some (cdA 1 d.toNat a.toNat 0 none)
  | .cdli d i => some ([(22, i.toNat), (4, d.toNat), (6, 2)])
  | .cdlde d n => some (cdA 3 d.toNat 0 0 (some (BitVec.ofNat 13 n.val)))
  | .cdlds d obj a => some (cdO 4 d.toNat a.toNat 0 obj.toNat)
  | .cdsts obj a b => some (cdO 5 0 a.toNat b.toNat obj.toNat)
  | .cdadd d a b => some (cdA 0x6 d.toNat a.toNat b.toNat none)
  | .cdaddImm d a i => some (cdA 0x6 d.toNat a.toNat 0 (some i))
  | .cdsub d a b => some (cdA 0x7 d.toNat a.toNat b.toNat none)
  | .cdsubImm d a i => some (cdA 0x7 d.toNat a.toNat 0 (some i))
  | .cdand d a b => some (cdA 0x8 d.toNat a.toNat b.toNat none)
  | .cdandImm d a i => some (cdA 0x8 d.toNat a.toNat 0 (some i))
  | .cdor d a b => some (cdA 0x9 d.toNat a.toNat b.toNat none)
  | .cdorImm d a i => some (cdA 0x9 d.toNat a.toNat 0 (some i))
  | .cdxor d a b => some (cdA 0xa d.toNat a.toNat b.toNat none)
  | .cdxorImm d a i => some (cdA 0xa d.toNat a.toNat 0 (some i))
  | .cdshl d a b => some (cdA 0xb d.toNat a.toNat b.toNat none)
  | .cdshlImm d a i => some (cdA 0xb d.toNat a.toNat 0 (some i))
  | .cdshr d a b => some (cdA 0xc d.toNat a.toNat b.toNat none)
  | .cdshrImm d a i => some (cdA 0xc d.toNat a.toNat 0 (some i))
  | .cdmin d a b => some (cdA 0xd d.toNat a.toNat b.toNat none)
  | .cdminImm d a i => some (cdA 0xd d.toNat a.toNat 0 (some i))
  | .cdmax d a b => some (cdA 0xe d.toNat a.toNat b.toNat none)
  | .cdmaxImm d a i => some (cdA 0xe d.toNat a.toNat 0 (some i))
  | .cdhash d a b => some (cdA 0xf d.toNat a.toNat b.toNat none)
  | .cdhashImm d a i => some (cdA 0xf d.toNat a.toNat 0 (some i))
  | .cdbf cond a b off => some ([(6, off.toNat), (8, 0), (4, b.toNat), (4, a.toNat), (4, cond.toNat), (6, 0x10)])
  | .cdhist obj a => some (cdO 0x11 0 a.toNat 0 obj.toNat)
  | .cdcms d obj a => some (cdO 0x12 d.toNat a.toNat 0 obj.toNat)
  | .cdhll obj a => some (cdO 0x13 0 a.toNat 0 obj.toNat)
  | .cdemit obj a b => some (cdO 0x14 0 a.toNat b.toNat obj.toNat)
  | .cdtrig obj a => some (cdO 0x15 0 a.toNat 0 obj.toNat)
  | .cddrop => some (cdA 0x16 0 0 0 none)
  | .add _ _ _ _ _ _ _ => none
  | .sub _ _ _ _ _ _ _ => none
  | .mul _ _ _ _ _ _ _ _ => none
  | .div _ _ _ _ _ _ _ => none
  | .rem _ _ _ _ _ _ _ => none
  | .and _ _ _ _ _ _ => none
  | .andn _ _ _ _ _ _ => none
  | .or _ _ _ _ _ _ => none
  | .xor _ _ _ _ _ _ => none
  | .shl _ _ _ _ _ _ => none
  | .shr _ _ _ _ _ _ => none
  | .rot _ _ _ _ _ => none
  | .clz _ _ _ _ => none
  | .ctz _ _ _ _ => none
  | .popc _ _ _ _ => none
  | .cmp _ _ _ _ _ _ _ => none
  | .min _ _ _ _ _ _ => none
  | .max _ _ _ _ _ _ => none
  | .sel _ _ _ _ _ _ => none
  | .ext _ _ _ _ _ => none
  | .ins _ _ _ _ => none
  | .lea _ _ _ _ _ _ => none
  | .mov _ _ _ => none
  | .movi _ _ _ _ => none
  | .br _ _ => none
  | .bri _ _ => none
  | .call _ _ _ => none
  | .ret _ _ _ => none
  | .reti _ => none
  | .rep _ _ _ _ _ _ _ => none
  | .trap _ _ _ => none
  | .exit _ => none
  | .yield _ _ _ => none
  | .nop _ => none
  | .gset _ _ _ => none
  | .gmov _ _ => none
  | .glog _ _ _ _ _ _ _ => none
  | .csrr _ _ _ => none
  | .csrw _ _ _ => none
  | .wspsw _ _ _ => none
  | .dbg _ _ => none
  | .waitev _ _ _ _ _ _ => none
  | .ovft _ _ => none
  | .placew _ _ _ => none
  | .abort _ _ => none
  | .abchk _ _ => none
  | .fence _ _ => none
  | .xfence _ _ _ _ => none
  | .fadd _ _ _ _ _ => none
  | .fsub _ _ _ _ _ => none
  | .fmul _ _ _ _ _ => none
  | .fdiv _ _ _ _ _ => none
  | .fma _ _ _ _ _ _ => none
  | .fsqrt _ _ _ _ => none
  | .fmin _ _ _ _ _ => none
  | .fmax _ _ _ _ _ => none
  | .fcmp _ _ _ _ _ _ => none
  | .fclass _ _ _ _ => none
  | .fcvt _ _ _ _ _ => none
  | .fsgn _ _ _ _ _ _ => none
  | .qmake _ _ _ _ _ => none
  | .qnum _ _ _ => none
  | .qden _ _ _ => none
  | .qcf _ _ _ _ _ => none
  | .ld _ _ _ _ _ _ _ _ => none
  | .st _ _ _ _ _ _ _ => none
  | .pf _ _ _ => none
  | .lds _ _ _ _ _ _ _ _ _ => none
  | .sts _ _ _ _ _ _ _ _ => none
  | .feqry _ _ _ _ => none
  | .feset _ _ _ _ => none
  | .atom _ _ _ _ _ _ _ _ _ => none
  | .cas _ _ _ _ _ _ _ _ _ => none
  | .nalloc _ _ _ _ => none
  | .nst _ _ _ _ _ _ _ _ => none
  | .nld _ _ _ _ _ _ _ _ => none
  | .nrel _ _ _ => none
  | .ndrop _ _ _ => none
  | .nqry _ _ _ => none
  | .nred _ _ _ _ _ _ _ => none
  | .nsub _ _ _ _ _ _ _ _ _ => none
  | .naband _ _ _ => none
  | .nconf _ _ _ => none
  | .nrevoke _ _ _ => none
  | .fork _ _ _ _ _ => none
  | .join _ _ _ _ => none
  | .launch _ _ _ _ _ => none
  | .hinit _ _ => none
  | .htest _ _ _ _ => none
  | .hwait _ _ _ => none
  | .hcancel _ _ _ => none
  | .hresolve _ _ _ _ _ => none
  | .hjoin _ _ _ _ _ _ _ => none
  | .cpy _ _ _ _ _ _ _ _ => none
  | .cpyr _ _ _ _ _ _ _ _ => none
  | .bar _ _ => none
  | .barset _ _ _ => none
  | .boinit _ _ _ => none
  | .boarr _ _ _ => none
  | .bowait _ _ _ => none
  | .cbset _ _ _ => none
  | .adv _ _ _ _ => none
  | .vabs _ _ _ _ _ _ => none
  | .vadd _ _ _ _ _ _ _ => none
  | .vand _ _ _ _ _ => none
  | .vbcast _ _ _ _ _ => none
  | .vcmp _ _ _ _ _ _ _ => none
  | .vexp _ _ _ _ => none
  | .vfma _ _ _ _ _ _ _ _ => none
  | .vlog _ _ _ _ => none
  | .vmax _ _ _ _ _ _ => none
  | .vmaxr _ _ _ _ _ => none
  | .vmin _ _ _ _ _ _ => none
  | .vmul _ _ _ _ _ _ _ => none
  | .vneg _ _ _ _ _ _ => none
  | .vor _ _ _ _ _ => none
  | .vperm _ _ _ _ _ => none
  | .vrcp _ _ _ _ => none
  | .vrsq _ _ _ _ => none
  | .vsel _ _ _ _ _ => none
  | .vshl _ _ _ _ _ _ => none
  | .vshr _ _ _ _ _ _ => none
  | .vsub _ _ _ _ _ _ _ => none
  | .vsum _ _ _ _ _ => none
  | .vxor _ _ _ _ _ => none
  | .vld _ _ _ _ _ _ => none
  | .vst _ _ _ _ _ _ => none
  | .vldContiguous _ _ _ _ _ _ _ => none
  | .vstContiguous _ _ _ _ _ _ => none
  | .vgath _ _ _ _ _ => none
  | .vscat _ _ _ _ _ => none
  | .vcvt _ _ _ _ _ _ _ _ => none
  | .vcb _ _ => none
  | .mma _ _ _ _ _ _ => none
  | .mzero _ _ _ => none
  | .mrd _ _ _ => none
  | .mst _ _ _ => none
  | .mld _ _ _ _ => none
  | .mcvt _ _ _ _ _ _ => none
  | .mcb _ _ _ => none
  | .kvmap _ _ _ _ _ => none
  | .kvext _ _ _ _ _ => none
  | .kvtrunc _ _ _ _ _ => none
  | .kvmatch _ _ _ _ _ _ => none
  | .pxlook _ _ _ _ _ _ _ => none
  | .pxins _ _ _ _ => none
  | .plan _ _ _ _ _ => none
  | .smxm _ _ _ _ => none
  | .smxf _ _ _ _ => none
  | .rng _ _ _ _ _ => none
  | .doorbell _ _ _ _ => none
  | .launchRecord _ _ _ => none
  | .admissionEvaluation _ => none
  | .accumulatorSave _ _ _ => none
  | .accumulatorLoad _ _ _ => none
  | .sliceCompletion _ => none
  | .kill _ => none
  | .budgetExtension _ _ => none
  | .requeue _ _ _ => none
  | .allotmentDraw _ _ => none
  | .allotmentRecall _ => none
  | .budgetExhausted _ => none
  | .deadlineMissed _ => none
  | .sliceYieldMessage _ => none
  | .idleSlotPop _ => none
  | .stealRequest _ => none
  | .stealReply _ => none
  | .stealRetry _ => none
  | .futureWake _ => none
  | .registrationPoll _ => none
  | .waitingContinuationPush _ => none
  | .taskEndByFault _ => none
  | .fetchRefetch _ => none
  | .gcdOpComplete _ _ => none
  | .dividerOpComplete _ _ => none
  | .matrixOpExecute _ => none
  | .bobbinLineMove _ _ _ => none
  | .flyerChunk _ _ => none
  | .cpyrMerge _ => none
  | .boarrArrival _ => none
  | .powerGateEntry _ => none
  | .powerGateWake _ => none
  | .boostClockDown _ => none
  | .boostClockRestore _ => none
  | .nstArrival _ => none
  | .nstAcknowledge _ => none
  | .refusedStoreRetry _ => none
  | .nldRequest _ => none
  | .retryResend _ => none
  | .arrivalNotice _ => none
  | .nredContributionArrival _ => none
  | .rootDecisionArrival _ => none
  | .withdrawal _ => none
  | .reelSlotFill _ => none
  | .reelWritebackDrain _ => none
  | .nldSlotArrival _ => none
  | .scopeMiss _ => none
  | .promotedReply _ => none
  | .remoteBankAccess _ => none
  | .neighbourWordArrival _ => none
  | .farMessageDelivery _ => none
  | .portReplyArrival _ => none
  | .barrierArrivalForward _ _ _ => none
  | .barrierRelease _ _ _ => none
  | .planExecute _ => none
  | .waitevWake _ => none
  | .waitevTimeout _ => none
  | .pageWalk _ _ => none
  | .missTableRetry _ => none
  | .regionCacheFill _ _ => none
  | .uncorrectableError _ => none
  | .carderEvent _ _ => none
  | .carderWindowStart _ => none
  | .stateChangeRecord _ => none
  | .stateLogEscape _ => none
  | .filterSlotLoad _ _ _ _ => none
  | .filterSlotDetach _ _ _ => none
  | .objectClear _ _ => none
  | .debugStop _ => none
  | .debugResume _ => none
  | .debugStep _ _ _ => none
  | .watchdogSoftRestart _ => none
  | .watchdogFirmwareReload _ => none
  | .watchdogPartitionReset _ => none
  | .watchdogDieReset _ => none
  | .watchdogPackageReset _ _ => none
  | .stalled _ => none
  | .wdkick _ => none
  | .fwsubmit _ _ _ => none
  | .cpevthead _ _ => none
  | .heldEventAppend _ => none
  | .swapreq _ _ => none
  | .swapVerifyDone _ _ => none
  | .mode _ _ => none
  | .dctl _ _ => none
  | .ovdef _ _ => none
  | .vquota _ _ => none
  | .nregion _ _ => none
  | .tlbInvalidate _ _ => none
  | .tlbInvalidateComplete _ => none
  | .arena _ _ _ => none
  | .wpool _ _ _ => none
  | .pxctl _ _ => none
  | .nrmbase _ _ => none
  | .regrel _ _ => none
  | .reset _ _ => none
  | .partitionResetComplete _ => none
  | .gown _ _ _ => none
  | .mctail _ _ => none
  | .registerWrite _ _ => none
  | .dieReset _ => none
  | .packageReset _ => none
  | .throttleStart _ => none
  | .throttleEnd _ => none
  | .overtempShutdown _ => none
  | .flitCrcRetry _ _ => none
  | .corramFlitRetry _ _ => none
  | .linkRetrain _ _ _ => none
  | .storeQueueWrite _ _ => none
  | .homeRequest _ => none
  | .homeAnswer _ => none
  | .hostDma _ _ => none
  | .regionReleaseComplete _ => none
  | .roothome _ _ => none
  | .partitionCreateDestroy _ _ => none
  | .ucieRetrain _ _ => none

/-- The words of an instruction as one number, bit 0 the lowest bit of its first byte: 96 bits for a core instruction, 32 for
a Carder instruction, 0 for a device step, which has no words. -/
def encode (i : Instr) : Nat :=
  match i.toRaw? with
  | some r => r.toNat
  | none => pack (i.carderFields?.getD [])

/-- Why a word is no instruction (R102). -/
inductive DecodeError where
  | opcode (op : Nat)      -- a function R101 leaves unassigned, or class 14 or 15
  | form (op form : Nat)   -- form 7, or a form the entry does not list
  | fields (op form : Nat) -- an illegal operand, qualifier, hint, wait, CBF, immediate or nonzero unused field
deriving DecidableEq, Repr

/-- What the decoder makes of a word. -/
inductive Decoded where
  | ok (i : Instr)
  | bad (e : DecodeError)
deriving DecidableEq, Repr

/-- Operands that a word must name for the arms below. -/
def reg? (n : Nat) : Option Reg := fin? 64 n
def vreg? (n : Nat) : Option VReg := if n < 0x40 then none else fin? 32 (n - 0x40)
def accreg? (n : Nat) : Option (Fin 4) := if n < 0x60 then none else fin? 4 (n - 0x60)
def mreg? (n : Nat) : Option (Fin 8) := if n < 0x64 then none else fin? 8 (n - 0x64)
def cbreg? (n : Nat) : Option (Fin 16) := if n < 0x80 then none else fin? 16 (n - 0x80)

/-- O1, O2, the second source and Q of the forms R, I16 and I32, as raw3 lays them out. -/
def src3 (form : Nat) (f : List Nat) : Option (Nat × Nat × Src × Nat) :=
  match form, f with
  | 0, [o1, o2, o3, _, _, q] => (Opnd.ofCode o3).map fun o => (o1, o2, .op o, q)
  | 1, [o1, o2, _, i, q] => some (o1, o2, .imm16 (BitVec.ofNat 16 i), q)
  | 2, [o1, o2, i, q] => some (o1, o2, .imm32 (BitVec.ofNat 32 i), q)
  | _, _ => none

/-- O1, the operand in O2 or IMM16, and Q, as raw2 lays them out. -/
def src2 (form : Nat) (f : List Nat) : Option (Nat × Src × Nat) :=
  match form, f with
  | 0, [o1, o2, _, _, _, q] => (Opnd.ofCode o2).map fun o => (o1, .op o, q)
  | 1, [o1, _, _, i, q] => some (o1, .imm16 (BitVec.ofNat 16 i), q)
  | 2, [o1, _, i, q] => some (o1, .imm32 (BitVec.ofNat 32 i), q)
  | _, _ => none

def maskOf (q : Nat) : VMask := ⟨⟨q / 2 % 8, Nat.mod_lt _ (by decide)⟩, q.testBit 4⟩
def widOf (q : Nat) : BitVec 2 := BitVec.ofNat 2 q
def ordOf (q : Nat) : BitVec 2 := BitVec.ofNat 2 q
def scopeOf (q : Nat) : BitVec 3 := BitVec.ofNat 3 (q / 4)
def szOf (q : Nat) : BitVec 2 := BitVec.ofNat 2 (q / 32)
def tsize (q : Nat) : BitVec 3 := BitVec.ofNat 3 q
def tfmt (q : Nat) : BitVec 4 := BitVec.ofNat 4 (q / 8)

/-- Class 0 (R309 and the entries of the integer instructions). -/
def parseC0 (h : Hdr) (op form : Nat) (f : List Nat) : Option Instr :=
  if op == 0x18 then
    match f with
    | [o1, i, q] => (reg? o1).map fun d => .movi h d (BitVec.ofNat 48 i) (q.testBit 0)
    | _ => none
  else if op == 0x17 then
    match f with
    | [o1, o2, _, _, _, _] => do some (.mov h (← Opnd.ofCode o1) (← Opnd.ofCode o2))
    | _ => none
  else do
    let (o1, o2, b, q) ← src3 form f
    let gd := gdOf form q
    if op == 0x10 then some (.cmp h gd (← Opnd.ofCode o2) b (widOf q) (q.testBit 2) (BitVec.ofNat 4 (q / 16)))
    else
      let a ← Opnd.ofCode o2
      let d ← Opnd.ofCode o1
      let wid := widOf q
      let sgn := q.testBit 2
      let sat := q.testBit 3
      match op with
      | 0x01 => some (.add h d a b wid sgn sat)
      | 0x02 => some (.sub h d a b wid sgn sat)
      | 0x03 => some (.mul h d a b wid sgn sat (q.testBit 8))
      | 0x04 => (reg? o1).map fun d => .div h gd d a b wid sgn
      | 0x05 => (reg? o1).map fun d => .rem h gd d a b wid sgn
      | 0x06 => some (.and h d a b wid sgn)
      | 0x07 => some (.andn h d a b wid sgn)
      | 0x08 => some (.or h d a b wid sgn)
      | 0x09 => some (.xor h d a b wid sgn)
      | 0x0A => some (.shl h d a b wid sgn)
      | 0x0B => some (.shr h d a b wid sgn)
      | 0x0C => some (.rot h d a b wid)
      | 0x0D => some (.clz h d a wid)
      | 0x0E => some (.ctz h d a wid)
      | 0x0F => some (.popc h d a wid)
      | 0x11 => some (.min h d a b wid sgn)
      | 0x12 => some (.max h d a b wid sgn)
      | 0x13 => some (.sel h d a b (BitVec.ofNat 3 (q / 2 ^ 8)) (q.testBit 11))
      | 0x14 => (reg? o1).map fun d => .ext h d a b sgn
      | 0x15 => (reg? o1).map fun d => .ins h d a b
      | 0x16 => some (.lea h d a b (BitVec.ofNat 2 (q / 2 ^ 8)) (q.testBit 10))
      | _ => none

/-- Class 1. -/
def parseC1 (h : Hdr) (op form : Nat) (f : List Nat) : Option Instr :=
  match op, form, f with
  | 0x40, 4, [_, d, _] => some (.br h (BitVec.ofNat 40 d))
  | 0x41, 0, [_, o2, _, _, _, _] => (reg? o2).map (.bri h)
  | 0x42, 4, [_, d, q] => some (.call h (.disp (BitVec.ofNat 40 d)) (BitVec.ofNat 8 q))
  | 0x42, 0, [_, o2, _, _, _, q] => (reg? o2).map fun r => .call h (.reg r) (BitVec.ofNat 8 q)
  | 0x43, 0, [_, o2, _, _, _, q] => (reg? o2).map fun r => .ret h r (q.testBit 0)
  | 0x44, 0, _ => some (.reti h)
  | 0x45, 0, [_, o2, o3, _, _, q] => do
    some (.rep h (← reg? o2) (← reg? o3) (BitVec.ofNat 5 q) (BitVec.ofNat 5 (q / 2 ^ 5)) (BitVec.ofNat 5 (q / 2 ^ 10))
      (BitVec.ofNat 2 (q / 2 ^ 15)))
  | 0x46, 1, [_, o2, _, i, _] => (Opnd.ofCode o2).map fun o => .trap h o (BitVec.ofNat 8 i)
  | 0x47, 0, _ => some (.exit h)
  | 0x48, 0, [_, o2, _, _, _, q] => (reg? o2).map fun r => .yield h (q.testBit 0) r
  | _, _, _ => none

/-- Class 2. -/
def parseC2 (h : Hdr) (op form : Nat) (f : List Nat) : Option Instr :=
  match op, form, f with
  | 0x80, 0, _ => some (.nop h)
  | 0x81, 0, [_, o2, _, _, _, q] =>
    if q % 4 == 0 then (Opnd.ofCode o2).map fun o => .gset h (gdOf 0 q) (.reg o)
    else if q % 4 == 1 then some (.gset h (gdOf 0 q) .f)
    else some (.gset h (gdOf 0 q) .t)
  | 0x82, 0, [o1, o2, _, _, _, q] =>
    if q % 2 == 0 then (reg? o1).map fun d => .gmov h (.r d) else (Opnd.ofCode o2).map fun o => .gmov h (.w o)
  | 0x83, 0, [_, _, _, _, _, q] =>
    some (.glog h (gdOf 0 q) (BitVec.ofNat 3 q) (BitVec.ofNat 3 (q / 16)) (q.testBit 3) (q.testBit 7) (BitVec.ofNat 2 (q / 2 ^ 8)))
  | 0x84, 1, [o1, _, _, i, _] => (reg? o1).map fun d => .csrr h d (BitVec.ofNat 12 i)
  | 0x85, 1, [_, o2, _, i, _] => (Opnd.ofCode o2).map fun o => .csrw h o (BitVec.ofNat 12 i)
  | 0x86, 0, [o1, o2, _, _, _, _] => do some (.wspsw h (← reg? o1) (← reg? o2))
  | 0x87, 1, [_, _, _, i, _] => some (.dbg h (BitVec.ofNat 16 i))
  | 0x88, 0, [o1, o2, o3, o4, _, q] => do
    some (.waitev h (gdOf 0 q) (← reg? o1) (← reg? o2) (← Opnd.ofCode o3) (← Opnd.ofCode o4))
  | 0x89, _, _ => (src2 form f).map fun x => .ovft h x.2.1
  | 0x8A, 0, [_, o2, o3, _, _, _] => do some (.placew h (← Opnd.ofCode o2) (← Opnd.ofCode o3))
  | 0x8B, 0, [_, _, _, _, _, q] => some (.abort h (q.testBit 0))
  | 0x8C, 0, [_, _, _, _, _, q] => some (.abchk h (gdOf 0 q))
  | 0x8D, 0, [_, _, _, _, _, q] => some (.fence h (scopeOf q))
  | 0x8E, 0, [_, _, _, _, _, q] => some (.xfence h (scopeOf q) (BitVec.ofNat 6 (q / 2 ^ 5)) (BitVec.ofNat 6 (q / 2 ^ 11)))
  | _, _, _ => none

/-- Class 3 (R333 to R338, R388). -/
def parseC3 (h : Hdr) (op form : Nat) (f : List Nat) : Option Instr :=
  match form, f with
  | 0, [o1, o2, o3, o4, _, q] => do
    let fmt := BitVec.ofNat 2 q
    let a ← Opnd.ofCode o2
    let b ← Opnd.ofCode o3
    let d ← reg? o1
    match op with
    | 0xC0 => some (.fadd h d a b fmt)
    | 0xC1 => some (.fsub h d a b fmt)
    | 0xC2 => some (.fmul h d a b fmt)
    | 0xC3 => some (.fdiv h d a b fmt)
    | 0xC4 => (Opnd.ofCode o4).map fun c => .fma h d a b c fmt
    | 0xC5 => some (.fsqrt h d a fmt)
    | 0xC6 => some (.fmin h d a b fmt)
    | 0xC7 => some (.fmax h d a b fmt)
    | 0xC8 => some (.fcmp h (gdOf 0 q) a b fmt (BitVec.ofNat 4 (q / 4)))
    | 0xC9 => some (.fclass h d a fmt)
    | 0xCA => some (.fcvt h d a (BitVec.ofNat 4 q) (BitVec.ofNat 4 (q / 16)))
    | 0xCB => some (.fsgn h d a b (BitVec.ofNat 2 (q / 4)) fmt)
    | 0xCC => some (.qmake h d a b (q.testBit 2))
    | 0xCD => some (.qnum h d a)
    | 0xCE => some (.qden h d a)
    | 0xCF => (reg? o2).map fun d2 => .qcf h (gdOf 0 q) d d2 b
    | _ => none
  | _, _ => none

/-- Classes 4 to 6. -/
def parseC456 (h : Hdr) (op form : Nat) (f : List Nat) : Option Instr :=
  match op, form, f with
  | 0x142, 1, [o1, o2, _, i, _] => do some (.feqry h (← reg? o1) (← reg? o2) (BitVec.ofNat 16 i))
  | 0x143, 0, [_, o2, o3, _, _, q] => do some (.feset h (← reg? o2) (← reg? o3) (q.testBit 0))
  | 0x180, 0, [o1, o2, o3, _, _, q] => do
    some (.atom h (← reg? o1) (← reg? o2) (← Opnd.ofCode o3) (ordOf q) (scopeOf q) (BitVec.ofNat 4 (q / 32)) (q.testBit 9)
      (q.testBit 10))
  | 0x181, 0, [o1, o2, o3, o4, _, q] => do
    some (.cas h (gdOf 0 q) (← reg? o1) (← reg? o2) (← Opnd.ofCode o3) (← Opnd.ofCode o4) (ordOf q) (scopeOf q) (q.testBit 9))
  | _, _, _ => do
    let (o1, o2, x, q) ← src3 form f
    let b ← Opnd.ofCode o2
    match op with
    | 0x100 => (reg? o1).map fun d => .ld h d b x (ordOf q) (scopeOf q) (szOf q) (q.testBit 7)
    | 0x101 => (Opnd.ofCode o1).map fun s => .st h s b x (ordOf q) (scopeOf q) (szOf q)
    | 0x102 => some (.pf h b x)
    | 0x140 => (reg? o1).map fun d => .lds h d b x (ordOf q) (scopeOf q) (szOf q) (q.testBit 7) (BitVec.ofNat 2 (q / 2 ^ 8))
    | 0x141 => (Opnd.ofCode o1).map fun s => .sts h s b x (ordOf q) (scopeOf q) (szOf q) (q.testBit 8)
    | _ => none

/-- Class 7 (R373 to R380). -/
def parseC7 (h : Hdr) (op form : Nat) (f : List Nat) : Option Instr :=
  match op, form, f with
  | 0x1C0, _, _ => do
    let (o1, j, q) ← src2 form f
    (reg? o1).map fun d => .nalloc h (gdOf form q) d j
  | 0x1C1, 0, [o1, o2, o3, o4, _, q] => do
    some (.nst h (q.testBit 7) (← reg? o1) (← reg? o2) (← Opnd.ofCode o3) (.op (← Opnd.ofCode o4)) (tsize q) (tfmt q))
  | 0x1C1, 1, [o1, o2, o3, i, q] => do
    some (.nst h (q.testBit 7) (← reg? o1) (← reg? o2) (← Opnd.ofCode o3) (.imm16 (BitVec.ofNat 16 i)) (tsize q) (tfmt q))
  | 0x1C2, 0, [o1, o2, o3, _, _, q] => do
    let t ← (if o3 < 0x40 then (reg? o3).map .loc else if o3 < 0x60 then (vreg? o3).map .v else (cbreg? o3).map .cb)
    some (.nld h (← reg? o1) (← reg? o2) t (tsize q) (q.testBit 7) (q.testBit 8) (q.testBit 9))
  | 0x1C6, 5, [o1, o2, o3, o4, _, _, q] => do
    some (.nred h (← reg? o1) (← reg? o2) (← Opnd.ofCode o3) (← reg? o4) (tsize q) (tfmt q))
  | 0x1C7, 5, [o1, o2, o3, o4, _, _, q] => do
    some (.nsub h (← reg? o1) (← reg? o2) (← cbreg? o3) (← reg? o4) (q.testBit 10) (q.testBit 8) (tsize q) (tfmt q))
  | _, 0, [o1, o2, _, _, _, q] => do
    let r ← reg? o2
    match op with
    | 0x1C3 => some (.nrel h (gdOf 0 q) r)
    | 0x1C4 => some (.ndrop h (gdOf 0 q) r)
    | 0x1C5 => (reg? o1).map fun d => .nqry h d r
    | 0x1C8 => some (.naband h (gdOf 0 q) r)
    | 0x1C9 => some (.nconf h (gdOf 0 q) r)
    | 0x1CA => some (.nrevoke h (gdOf 0 q) r)
    | _ => none
  | _, _, _ => none

/-- Class 8. -/
def parseC8 (h : Hdr) (op form : Nat) (f : List Nat) : Option Instr :=
  match op, form, f with
  | 0x203, 5, o1 :: _ => (reg? o1).map (.hinit h)
  | 0x200, 0, [_, o2, o3, o4, _, q] => do some (.fork h (gdOf 0 q) (← Opnd.ofCode o2) (← Opnd.ofCode o3) (← Opnd.ofCode o4))
  | 0x201, 0, [o1, o2, _, _, _, q] => do some (.join h (gdOf 0 q) (← reg? o1) (← reg? o2))
  | 0x202, 0, [o1, o2, _, _, _, q] => do some (.launch h (gdOf 0 q) (← reg? o1) (← reg? o2) (q.testBit 0))
  | 0x204, 0, [o1, o2, _, _, _, q] => do some (.htest h (gdOf 0 q) (← reg? o1) (← reg? o2))
  | 0x205, 0, [_, o2, _, _, _, q] => do some (.hwait h (gdOf 0 q) (← reg? o2))
  | 0x206, 0, [_, o2, _, _, _, q] => do some (.hcancel h (gdOf 0 q) (← reg? o2))
  | 0x207, 0, [_, o2, o3, _, _, q] => do some (.hresolve h (gdOf 0 q) (← reg? o2) (← Opnd.ofCode o3) (q.testBit 0))
  | 0x208, 0, [o1, o2, o3, o4, o5, q] => do
    some (.hjoin h (gdOf 0 q) (← Opnd.ofCode o1) (← Opnd.ofCode o2) (← Opnd.ofCode o3) (← reg? o4) (← Opnd.ofCode o5))
  | _, _, _ => none

/-- Class 9. -/
def parseC9 (h : Hdr) (op form : Nat) (f : List Nat) : Option Instr :=
  match op, form, f with
  | 0x240, 5, [o1, o2, o3, o4, cm, _, q] => do
    some (.cpy h (← reg? o1) (← reg? o2) (← reg? o3) (← reg? o4) (BitVec.ofNat 8 cm) (q.testBit 0) (q.testBit 1))
  | 0x241, 5, [o1, o2, o3, o4, cm, _, q] => do
    some (.cpyr h (← reg? o1) (← reg? o2) (← reg? o3) (← reg? o4) (q.testBit 0) (q.testBit 1) ⟨BitVec.ofNat 4 (q / 4), BitVec.ofNat 8 cm⟩)
  | 0x242, 0, [_, _, _, _, _, q] => some (.bar h (BitVec.ofNat 2 q))
  | 0x243, 0, [_, o2, _, _, _, q] =>
    if q.testBit 2 then some (.barset h (BitVec.ofNat 2 q) none)
    else (reg? o2).map fun r => .barset h (BitVec.ofNat 2 q) (some r)
  | 0x244, 0, [_, o2, o3, _, _, q] => do
    let a ← reg? o2
    if q.testBit 0 then some (.boinit h a none) else (Opnd.ofCode o3).map fun o => .boinit h a (some o)
  | 0x245, _, _ => do
    let (_, o2, c, _) ← src3 form f
    (reg? o2).map fun a => .boarr h a c
  | 0x246, 0, [_, o2, _, _, _, q] => (reg? o2).map fun a => .bowait h (gdOf 0 q) a
  | 0x247, 1, [o1, o2, _, i, q] => do
    let cb ← cbreg? o1
    if q.testBit 0 then some (.cbset h cb none) else (reg? o2).map fun r => .cbset h cb (some (r, BitVec.ofNat 16 i))
  | 0x248, _, _ => do
    let (o1, n, q) ← src2 form f
    (cbreg? o1).map fun cb => .adv h cb n (q.testBit 0)
  | _, _, _ => none

/-- Class 10 (R401 to R407). -/
def parseC10 (h : Hdr) (op form : Nat) (f : List Nat) : Option Instr :=
  if op == 0x283 then do
    let (o1, s, q) ← src2 form f
    (vreg? o1).map fun d => .vbcast h d s (maskOf q) (BitVec.ofNat 4 (q / 2 ^ 9))
  else if op == 0x286 then
    match form, f with
    | 0, [o1, o2, o3, o4, _, q] => do
      some (.vfma h (← vreg? o1) (← Opnd.ofCode o2) (← Opnd.ofCode o3) (← Opnd.ofCode o4) (maskOf q) (q.testBit 0) (q.testBit 5))
    | _, _ => none
  else if op == 0x291 then
    match form, f with
    | 0, [o1, o2, o3, o4, _, _] => do
      some (.vsel h (← vreg? o1) (← Opnd.ofCode o2) (← Opnd.ofCode o3) (← mreg? o4))
    | _, _ => none
  else do
    let (o1, o2, b, q) ← src3 form f
    let m := maskOf q
    let sgn := q.testBit 0
    let sat := q.testBit 5
    let a ← Opnd.ofCode o2
    match op with
    | 0x280 => (vreg? o1).map fun d => .vabs h d a m sgn sat
    | 0x281 => (vreg? o1).map fun d => .vadd h d a b m sgn sat
    | 0x282 => (vreg? o1).map fun d => .vand h d a b m
    | 0x284 => (mreg? o1).map fun d => .vcmp h d a b m sgn (BitVec.ofNat 4 (q / 2 ^ 5))
    | 0x285 => (vreg? o1).map fun d => .vexp h d a m
    | 0x287 => (vreg? o1).map fun d => .vlog h d a m
    | 0x288 => (vreg? o1).map fun d => .vmax h d a b m sgn
    | 0x289 => do some (.vmaxr h (← reg? o1) (← vreg? o2) m sgn)
    | 0x28A => (vreg? o1).map fun d => .vmin h d a b m sgn
    | 0x28B => (vreg? o1).map fun d => .vmul h d a b m sgn sat
    | 0x28C => (vreg? o1).map fun d => .vneg h d a m sgn sat
    | 0x28D => (vreg? o1).map fun d => .vor h d a b m
    | 0x28E => (match b with | .op i => (vreg? o1).map fun d => .vperm h d a i m | _ => none)
    | 0x28F => (vreg? o1).map fun d => .vrcp h d a m
    | 0x290 => (vreg? o1).map fun d => .vrsq h d a m
    | 0x292 => (vreg? o1).map fun d => .vshl h d a b m sgn
    | 0x293 => (vreg? o1).map fun d => .vshr h d a b m sgn
    | 0x294 => (vreg? o1).map fun d => .vsub h d a b m sgn sat
    | 0x295 => do some (.vsum h (← reg? o1) (← vreg? o2) m sgn)
    | 0x296 => (vreg? o1).map fun d => .vxor h d a b m
    | _ => none

/-- Class 11 (R408 to R412). -/
def parseC11 (h : Hdr) (op form : Nat) (f : List Nat) : Option Instr :=
  match op, form, f with
  | 0x2C0, 6, [o1, _, o3, _, p, q] => do
    some (.vld h (← vreg? o1) (← reg? o3) (← reg? p) (maskOf q) (BitVec.ofNat 5 (q / 2 ^ 14)))
  | 0x2C1, 6, [o1, _, o3, _, p, q] => do
    some (.vst h (← vreg? o1) (← reg? o3) (← reg? p) (maskOf q) (BitVec.ofNat 5 (q / 2 ^ 14)))
  | 0x2C2, 6, [o1, o2, o3, _, _, q] => do some (.vgath h (← vreg? o1) (← vreg? o2) (← reg? o3) (maskOf q))
  | 0x2C3, 6, [o1, o2, o3, _, _, q] => do some (.vscat h (← vreg? o1) (← vreg? o2) (← reg? o3) (maskOf q))
  | 0x2C4, 0, [o1, o2, o3, _, _, q] => do
    some (.vcvt h (← vreg? o1) (← vreg? o2) (← Opnd.ofCode o3) (maskOf q) (q.testBit 0) (BitVec.ofNat 4 (q / 2 ^ 9))
      (BitVec.ofNat 2 (q / 2 ^ 5)))
  | 0x2C5, 0, [_, o2, _, _, _, _] => (reg? o2).map (.vcb h)
  | _, _, _ => do
    let (o1, o2, x, q) ← src3 form f
    let d ← vreg? o1
    let b ← Opnd.ofCode o2
    match op with
    | 0x2C0 => some (.vldContiguous h d b x (maskOf q) (BitVec.ofNat 4 (q / 2 ^ 9)) (q.testBit 13))
    | 0x2C1 => some (.vstContiguous h d b x (maskOf q) (q.testBit 13))
    | _ => none

/-- Class 12 (R366 to R372). -/
def parseC12 (h : Hdr) (op form : Nat) (f : List Nat) : Option Instr :=
  match op, form, f with
  | 0x300, 6, [o1, _, x, y, _, q] => do
    some (.mma h (← accreg? o1) (.shape (← reg? x) (← reg? y)) (BitVec.ofNat 9 q) (q.testBit 17) (q.testBit 18))
  | 0x300, 0, [o1, o2, o3, _, _, q] => do
    some (.mma h (← accreg? o1) (.cbs (← cbreg? o2) (← cbreg? o3) (BitVec.ofNat 4 (q / 2 ^ 9)) (BitVec.ofNat 4 (q / 2 ^ 13)))
      (BitVec.ofNat 9 q) (q.testBit 17) (q.testBit 18))
  | 0x301, 0, [o1, _, _, _, _, q] => (accreg? o1).map fun a => .mzero h a (q.testBit 0)
  | 0x302, 0, [o1, o2, o3, _, _, q] => do
    if q.testBit 1 then some (.mrd h (.mem (← reg? o2) (← accreg? o3)) (q.testBit 0))
    else some (.mrd h (.reg (← vreg? o1) (← accreg? o2) (← reg? o3)) (q.testBit 0))
  | 0x303, 0, [_, o2, o3, _, _, _] => do some (.mst h (← reg? o2) (← accreg? o3))
  | 0x304, 0, [o1, o2, _, _, _, q] => do some (.mld h (← accreg? o1) (← reg? o2) (q.testBit 0))
  | 0x305, 0, [_, o2, o3, o4, _, q] => do
    some (.mcvt h (← reg? o2) (← accreg? o3) (← reg? o4) (BitVec.ofNat 4 q) (q.testBit 4))
  | 0x306, 0, [_, o2, _, _, _, q] => (reg? o2).map fun a => .mcb h a (q.testBit 0)
  | _, _, _ => none

/-- Class 13 (R352, R385, R387, R397, R394). -/
def parseC13 (h : Hdr) (op form : Nat) (f : List Nat) : Option Instr :=
  match op, form, f with
  | 0x346, 5, [o1, o2, o3, o4, _, _, _] => do some (.plan h (← reg? o1) (← reg? o2) (← reg? o3) (← reg? o4))
  | 0x347, 0, [o1, o2, o3, _, _, _] => do some (.smxm h (← vreg? o1) (← vreg? o2) (← vreg? o3))
  | 0x348, 0, [o1, o2, _, _, _, q] => do some (.smxf h (gdOf 0 q) (← vreg? o1) (← vreg? o2))
  | 0x349, 0, [o1, o2, o3, _, _, q] => do some (.rng h (← vreg? o1) (← reg? o2) (← reg? o3) (q.testBit 0))
  | _, 0, [o1, o2, o3, o4, o5, q] => do
    let gd := gdOf 0 q
    let d ← reg? o1
    let a ← Opnd.ofCode o2
    let b ← Opnd.ofCode o3
    let c ← Opnd.ofCode o4
    match op with
    | 0x340 => some (.kvmap h gd d a b)
    | 0x341 => some (.kvext h gd d a b)
    | 0x342 => some (.kvtrunc h gd d a b)
    | 0x343 => some (.kvmatch h gd d a b c)
    | 0x344 => (Opnd.ofCode o5).map fun n => .pxlook h gd d a b c n
    | 0x345 => some (.pxins h gd d a)
    | _ => none
  | _, _, _ => none

/-- The instruction whose fields the word holds, by class (R101), before any legality check. -/
def parse (h : Hdr) (op form : Nat) (f : List Nat) : Option Instr :=
  match op / 64 with
  | 0 => parseC0 h op form f
  | 1 => parseC1 h op form f
  | 2 => parseC2 h op form f
  | 3 => parseC3 h op form f
  | 4 | 5 | 6 => parseC456 h op form f
  | 7 => parseC7 h op form f
  | 8 => parseC8 h op form f
  | 9 => parseC9 h op form f
  | 10 => parseC10 h op form f
  | 11 => parseC11 h op form f
  | 12 => parseC12 h op form f
  | 13 => parseC13 h op form f
  | _ => none

/-- The number of functions that R101 assigns in each class, from function 0, or 1 in class 0. -/
def opcodeAssigned (op : Nat) : Bool :=
  let f := op % 64
  match op / 64 with
  | 0 => 1 ≤ f && f ≤ 24
  | 1 => f ≤ 8
  | 2 => f ≤ 14
  | 3 => f ≤ 15
  | 4 => f ≤ 2
  | 5 => f ≤ 3
  | 6 => f ≤ 1
  | 7 => f ≤ 10
  | 8 => f ≤ 8
  | 9 => f ≤ 8
  | 10 => f ≤ 22
  | 11 => f ≤ 5
  | 12 => f ≤ 6
  | 13 => f ≤ 9
  | _ => false

/-- The common fields of a word (R83). -/
def hdrOf (w : Nat) : Hdr :=
  { ga := BitVec.ofNat 4 (w / 2 ^ 13), gb := BitVec.ofNat 4 (w / 2 ^ 17), gc := w.testBit 21, ya := w.testBit 22
    eog := w.testBit 23
    wait := if w.testBit 24 then some ⟨BitVec.ofNat 2 (w / 2 ^ 25), BitVec.ofNat 3 (w / 2 ^ 27)⟩ else none
    hint := BitVec.ofNat 4 (w / 2 ^ 30), cbf := BitVec.ofNat 3 (w / 2 ^ 93) }

/-- The core instruction of a 96-bit word (R83 to R102). -/
def decode (w : IWord) : Decoded :=
  let n := w.toNat
  let op := n % 2 ^ 10
  let form := field n 10 3
  if !opcodeAssigned op then .bad (.opcode op)
  else
    match formWidths form with
    | none => .bad (.form op form)
    | some ws =>
      match parse (hdrOf n) op form (unpack ws (n / 2 ^ 34)) with
      | none => .bad (.form op form)
      | some i => if i.wellFormed && encode i == n % 2 ^ 96 then .ok i else .bad (.fields op form)

/-- The Carder instruction of a word's fields, before the loader's checks (R278, R279). -/
def parseCarder (n : Nat) : Option Instr :=
  let op := field n 26 6
  let d := BitVec.ofNat 4 (n / 2 ^ 22)
  let a := BitVec.ofNat 4 (n / 2 ^ 18)
  let b := BitVec.ofNat 4 (n / 2 ^ 14)
  let imm := n.testBit 13
  let i := BitVec.ofNat 13 n
  let obj := BitVec.ofNat 8 (n / 2 ^ 6)
  match op with
  | 0x00 => some .cdend
  | 0x01 => some (.cdmov d a)
  | 0x02 => some (.cdli d (BitVec.ofNat 22 n))
  | 0x03 => (fin? 8 i.toNat).map fun e => .cdlde d e
  | 0x04 => some (.cdlds d obj a)
  | 0x05 => some (.cdsts obj a b)
  | 0x06 => some (if imm then .cdaddImm d a i else .cdadd d a b)
  | 0x07 => some (if imm then .cdsubImm d a i else .cdsub d a b)
  | 0x08 => some (if imm then .cdandImm d a i else .cdand d a b)
  | 0x09 => some (if imm then .cdorImm d a i else .cdor d a b)
  | 0x0A => some (if imm then .cdxorImm d a i else .cdxor d a b)
  | 0x0B => some (if imm then .cdshlImm d a i else .cdshl d a b)
  | 0x0C => some (if imm then .cdshrImm d a i else .cdshr d a b)
  | 0x0D => some (if imm then .cdminImm d a i else .cdmin d a b)
  | 0x0E => some (if imm then .cdmaxImm d a i else .cdmax d a b)
  | 0x0F => some (if imm then .cdhashImm d a i else .cdhash d a b)
  | 0x10 => some (.cdbf (BitVec.ofNat 4 (n / 2 ^ 22)) a b (BitVec.ofNat 6 n))
  | 0x11 => some (.cdhist obj a)
  | 0x12 => some (.cdcms d obj a)
  | 0x13 => some (.cdhll obj a)
  | 0x14 => some (.cdemit obj a b)
  | 0x15 => some (.cdtrig obj a)
  | 0x16 => some .cddrop
  | _ => none

/-- The Carder instruction of a 32-bit word; none where R279 has the loader refuse the word. -/
def decodeCarder (w : BitVec 32) : Option Instr :=
  match parseCarder w.toNat with
  | some i => if i.wellFormed && encode i == w.toNat then some i else none
  | none => none

/-- The parity bit of a slot: the exclusive OR of its 96 bits (R78). -/
def parity96 (w : IWord) : Bool :=
  (List.range 96).foldl (fun acc k => xor acc (w.getLsbD k)) false

/-- A fetch line is 512 bits: slot k at <96k+95:96k> and the line word at <511:480> (R77). -/
def lineSlot (line : Nat) (k : Nat) : IWord := BitVec.ofNat 96 (line / 2 ^ (96 * k))
def lineWord (line : Nat) : Nat := line / 2 ^ 480 % 2 ^ 32

/-- TGT, PAIR and PAR bits of slot k, and the reserved fields of the line word (R78). -/
def lineTgt (lw k : Nat) : Bool := lw.testBit k
def linePair (lw k : Nat) : Bool := k < 4 && lw.testBit (5 + k)
def linePar (lw k : Nat) : Bool := lw.testBit (16 + k)
def lineRes0 (lw : Nat) : Bool := field lw 9 7 != 0 || field lw 21 11 != 0

/-- The instruction the decoder reads from words given as one number of nbits bits, numbered as spec/opcode_table.json does:
a 96-bit core instruction, or a 32-bit Carder instruction. -/
def decodeTableWord (nbits w : Nat) : Option Instr :=
  if nbits == 32 then decodeCarder (BitVec.ofNat 32 w)
  else if nbits ≤ 96 then
    match decode (BitVec.ofNat 96 w) with
    | .ok i => some i
    | .bad _ => none
  else none

end Sys2Proof
end

