-- ==== Sys2Proof/Config.lean ====
section
/-!
DEFINITION. Sys2Proof/Config.lean: what the manual leaves open, as constants with no body, so that nothing can be proved of
their values; and the sizes the manual fixes. Each free value is applied to the operands it depends on or to the counter
State.free, which a step that reads a fresh value advances.
-/
namespace Sys2Proof.Config

/-- VEXP, VLOG, VRCP and VRSQ (R220): which of the FP32 values within the function's bound the device gives. The arguments are
the function (0 VEXP, 1 VLOG, 2 VRCP, 3 VRSQ), the input bits and the captured FPCR byte; the result picks among the admissible
values, so each result is a fixed function of input bits and FPCR, as R220 says. -/
opaque approxPick : Nat → Nat → Nat → Nat

/-- Whether a load that finds its line in L1 is served from it: the manual fixes L1's capacity but not its replacement (R152). -/
opaque l1Serves : Nat → Bool

/-- Whether a matrix operation that finds a line in the matrix operand buffer is served from it (R206). -/
opaque operandBufferServes : Nat → Bool

/-- Whether KVMAP that finds a record in the extent buffer is served from it (R247). -/
opaque extentBufferServes : Nat → Bool

/-- A byte of a window line created by the bobbin whose contents no rule gives (R74), by a fresh number. -/
opaque freshByte : Nat → Byte

/-- What a peek sees of an accumulator that an MMA is updating: how many groups are added, by a fresh number and the row (R227). -/
opaque peekGroups : Nat → Nat → Nat

/-- Whether an MRD.peek completes before an older operation of the matrix queue (R369). -/
opaque peekFirst : Nat → Bool

/-- The 64 bits read after a machine check that lost thread state (R269). -/
opaque lostWord : Nat → Word

/-- The count that a class-3 event carries, by a fresh number: R273 does not say of what. -/
opaque linkCount : Nat → Nat

/-- Which of a core's slices the SLICE.SEQ field of a class-0 event names, by a fresh number: R273 does not say, and a core may
hold the slots of several slices, or of none. -/
opaque stateSlice : Nat → Nat

/-- How long a clock change of a Boost partition pauses its cores, in nanoseconds modulo 1,001, by a fresh number (R25). -/
opaque clockPause : Nat → Nat

/-- Which of the partitions of a die the class-3 event of a Corram link carries, by a fresh number: R273 does not say. -/
opaque linkPart : Nat → Nat

/-- The number, 0 to 23, of the Corram link by which a package reaches another: the topology of the network is not the device's (R188,
R298). -/
opaque corramLink : Nat → Nat → Nat

/-- Whether a reel stops at a cancel of its subscription's future: R379 says that it stops and R348 that NSUB runs on, by a fresh
number. -/
opaque cancelStopsReel : Nat → Bool

/-- Whether a hardware counter, 0 a core's dropped messages and 1 a cluster's discarded resolves, overflows when it reaches a count: the manual
gives no width (R273). -/
opaque counterWraps : Nat → Nat → Bool

/-- The number by which a class-1 event names that counter. -/
opaque counterNumber : Nat → Nat

/-- Whether a flit that is replayed has waited for credit before, by a fresh number: no step of the table tells it (R298). -/
opaque creditStall : Nat → Bool

/-- Whether the first of an image's two signatures holds under a key whose hash is fused: what the memory holds, and where the image is
staged (R301). -/
opaque imageRsa : List Host.Cell → Word → Bool

/-- The same of the second signature. -/
opaque imageSlh : List Host.Cell → Word → Bool

/-- The security version in an image's header, whose layout the manual does not give (R301). -/
opaque imageSecurity : List Host.Cell → Word → Nat

/-- The rollback counter fused in a package (R301). -/
opaque rollback : Nat → Nat

/-- The entry of an image (R302). -/
opaque imageEntry : List Host.Cell → Word → Word

/-- What a command processor's trap value register holds after an illegal instruction: the privileged architecture leaves it open. -/
opaque illegalValue : Nat → Word

end Sys2Proof.Config
end

