-- ==== Sys2Proof/Machine/Parts.lean ====
section
/-!
DEFINITION. Sys2Proof/Machine/Parts.lean: the records State is made of. Each names the rule that gives it. A register file, a
table or a queue is a list; a table is a list of keys and values in which an unlisted key has the value its reader states.
-/
namespace Sys2Proof.Machine

/-- A table by key; what an unlisted key holds is said where the table is read. -/
abbrev Tab (κ ν : Type) := List (κ × ν)

/-- A location in the model's one memory: every storage byte of the device has one Nat address (Machine/Ops.lean, addrHbm to
addrWindow). -/
abbrev Addr := Nat

/-- An engine's view of a future (R307, R42): the word's physical location, the generation created and the handle. -/
structure Fut where
  addr : Addr
  gen : Nat
  handle : Word
  slice : SliceId       -- whose operation it is (R33)
deriving DecidableEq, Repr

/-- The two kinds of park that R284 tells apart. -/
inductive ParkKind where
  | memory | message
deriving DecidableEq, Repr

/-- What a thread in a slot is doing. `ready` and `parked` threads try their instruction at each turn; the other phases end by
a step of the unit that the thread waits for. -/
inductive Phase where
  | ready
  | parked (k : ParkKind)
  | future (addr : Addr) (gen : Nat) (polled : Bool)  -- registered on a state word (R44, R45)
  | bank                                              -- held or parked at a scratchpad or pool bank (R148, R150)
  | home                                              -- an NLD at its version's home (R180)
  | barrier (n : Nat) (releases : Nat)                -- arrived at BARn; releases still to come (R240, R314)
  | watch                                             -- WAITEV (R413)
  | acquire                                           -- an acquire withheld at its point of coherence (R213)
  | walk                                              -- a translation miss (R159)
  | staging                                           -- held while its operands are staged, or its lanes move (R225, R410)
  | refetch                                           -- a slot whose parity failed once (R81)
  | ending                                            -- ended by fault, waiting for its NSTs (R267)
deriving DecidableEq, Repr

/-- A trap to be taken: TCAUSE.CODE and DEFERRED, TADDR and TINFO (R262, R263). -/
structure TrapRec where
  code : Nat
  deferred : Bool
  taddr : Word
  tinfo : Word
deriving DecidableEq, Repr

/-- An active REP block (R221 to R223): the REP's PC, the index of the thread's next instruction in the body, the body's length
and the REP's fields. -/
structure RepState where
  pc : Word
  idx : Nat
  len : Nat
  wc : Reg
  wi : Reg
  vbase : Nat
  vspan : Nat
  vstep : Nat
  astep : Nat
deriving DecidableEq, Repr

/-- The sender latched for pq by a read of pf (R236). -/
structure Sender where
  t : ThreadId
  gen : Nat
deriving DecidableEq, Repr

/-- A far message whose header is written and whose payload is not complete (R237). -/
structure OpenMsg where
  header : Word
  dst : CoreId
  words : List Word
  need : Nat
  byHandler : Bool        -- its header was written in the handler that runs
  roots : List Nat
deriving DecidableEq, Repr

/-- An unacknowledged NST of a thread (R176, R178, R291). -/
structure NstOut where
  id : Nat
  ref : Word
  pc : Word
deriving DecidableEq, Repr

/-- A line of a thread's window space that its chain has used (R74): resident, with the bytes it was loaded with, resident and
written since or never loaded, or at its home. -/
inductive LineSt where
  | clean (was : Nat) | dirty | home
deriving DecidableEq, Repr

def LineSt.resident : LineSt → Bool
  | .clean _ => true
  | .dirty => true
  | .home => false

/-- The state a JOIN keeps while it runs a child in its own slot (R36). -/
structure InlineFrame where
  pc : Word
  wsp : Word
  twsp : Word
  hwsp : Word
  abmask : Bool
  joinRec : Word
  intrap : Bool
deriving DecidableEq, Repr

/-- A BOWAIT that waits: the granule, the generation captured and, once DONE has come with it, that the guard is true (R232). -/
structure BoWait where
  addr : Addr
  gen : Nat
  done : Bool
deriving DecidableEq, Repr

/-- A watch registered by WAITEV (R413): its word, its time limit, and whether it ended. -/
structure WatchRec where
  addr : Addr
  limit : Nat
  fired : Bool
deriving DecidableEq, Repr

/-- A translation that failed for the thread: the 64 KiB page, TINFO's code and level (R158). -/
structure WalkFail where
  page : Nat
  code : Nat
  level : Nat
deriving DecidableEq, Repr

/-- The control state of a thread that its workspace does not hold (R40, R49, R94, R97, R258). -/
structure Ctl where
  slice : SliceId       -- whose work the thread is: the pusher's slice (R37)
  pc : Word
  wsp : Word
  twsp : Word
  hwsp : Word           -- the handler workspace that the last trap entered (R259)
  abmask : Bool
  joinRec : Word
  intrap : Bool
  priv : Bool
  first : Bool          -- the target check of the first instruction is still due (R80)
  rep : Option RepState
  repBnd : Bool         -- the EOG instruction at pc has completed, its boundary has not run (R223)
  inl : List InlineFrame
deriving DecidableEq, Repr

/-- Traps and waits that a thread has due. -/
structure Due where
  machineCheck : Option TrapRec
  revoked : List Nat
  violations : List NstOut
  kept : List NstOut         -- violations that were due with another trap: each comes after a RETI (R177, R265)
  after : Option TrapRec     -- taken at the boundary after the last instruction (R292, R400)
  fault : Option TrapRec     -- a bobbin fault of this thread's window (R266)
  walkFail : Option WalkFail
deriving DecidableEq, Repr

/-- What a fault record receives (R267). -/
structure EndRec where
  tpc : Word
  tcause : Word
  taddr : Word
  tinfo : Word
deriving DecidableEq, Repr

/-- A slice's logical accumulator on a core. -/
structure AccId where
  core : CoreId
  slice : SliceId
  n : Nat
deriving DecidableEq, Repr

/-- The arithmetic controls captured at issue (R116): the FPCR byte and the overflow table. -/
structure Captured where
  fpcr : Nat
  ovtab : Nat
deriving DecidableEq, Repr

/-- A matrix operation with its staged operands (R225, R366), and the answers of MRD.peek (R227). Destinations in memory are the
pieces of storage found at issue; the window and register are those of the issue. -/
inductive MatKind where
  | mma (acc : AccId) (k ta tb a b f32 bookA bookB : Nat) (au bu : Bool)
  | zero (acc : AccId) (tag : Nat)
  | rowOut (acc : AccId) (row tag : Nat) (wsp : Word) (vreg : Nat)
  | memOut (acc : AccId) (dst : List (Addr × Nat))
  | load (acc : AccId) (data tag : Nat)
  | convert (acc : AccId) (dst : List (Addr × Nat)) (tag scale fmt : Nat) (sgn : Bool) (cap : Captured)
  | copy (dst src : AccId)
  | codebook
  | peekRow (bits tag : Nat) (wsp : Word) (vreg : Nat)
  | peekMem (data : Nat) (dst : List (Addr × Nat))
deriving DecidableEq, Repr

/-- How a piece is moved: through the matrix operand buffer, from a bank by the matrix engine, or as an element of VGATH or VSCAT in local
or in plain memory. -/
inductive StageHow where
  | buffer | bank | local_ | plain
deriving DecidableEq, Repr

/-- A piece of what an instruction moves after its checks: the operand and the byte in it, the address that a poison trap reports, and the
storage, which for plain memory is a physical address. -/
structure StagePiece where
  side : Nat
  off : Nat
  a : Word
  x : Nat
  n : Nat
  how : StageHow
deriving DecidableEq, Repr

/-- What the pieces are for: a matrix operation, with its queue entry once it has one, the handles it consumes and MCB's side; or the lanes
of a VGATH or a VSCAT. -/
inductive StageGoal where
  | matrix (op : MatKind) (entry : Option Nat) (cbs : List Nat) (book : Option Bool)
  | gather (v fmt : Nat) (mk : Option Nat)
  | scatter (data : Nat)
deriving DecidableEq, Repr

/-- An instruction whose pieces move one by one while its thread is held (R225, R410). -/
structure Stage where
  goal : StageGoal
  a : Nat                 -- what has been read of the first operand
  b : Nat                 -- and of the second
  todo : List StagePiece
  hint : Nat
  eog : Bool
  ya : Bool
deriving DecidableEq, Repr

/-- A thread (R31 to R40). -/
structure Thread where
  ctl : Ctl
  phase : Phase
  charged : Bool        -- the instruction at pc has been issued and charged, and goes on when its access can (R67)
  again : Bool          -- it has parked in that instruction: its next issue turn is charged too (R67)
  outPre : Bool         -- out by pre-emption or slice yield (R64, R416)
  outBudget : Bool      -- out because no allotment is left (R67)
  outDebug : Bool       -- debug-out (R286)
  due : Due
  nsts : List NstOut
  latch : Option Sender
  openMsg : Option OpenMsg
  skid : Word
  watch : Option WatchRec
  boWait : Option BoWait   -- the waiting BOWAIT's registration (R232)
  sampled : Bool        -- the JOIN at pc has sampled the abort line (R36)
  shape : Option Nat    -- the shape record that a VLD or VST under way read at its issue (R163, R164)
  stage : Option Stage  -- what is being staged (R225)
  fences : Tab Nat Nat  -- per path, the operation number before which a FENCE orders (R205)
  lines : Tab Nat LineSt
  seen : Nat            -- at its last synchronisation on path P: stores its core had queued, numbered below, may be known to it (R207)
  used : Tab Word Nat   -- per active window, the ac of the last issue with it (R74)
  lastIssue : Option Nat   -- the ac of the last issue (R70)
  yielded : Bool        -- YA or YIELD: not a candidate until the others have issued (R84)
  endCause : Option EndRec  -- the fault that ends the thread (R267)
  watchHits : List (CoreId × Nat × Bool)
deriving DecidableEq, Repr

/-- A word on a port with the sender's roots (R195, R235). -/
structure PortWord where
  w : Word
  roots : List Nat
deriving DecidableEq, Repr

/-- A far-message payload word with its sender and whether it starts a message (R236). -/
structure FarWord where
  w : Word
  sender : Sender
  first : Bool
  roots : List Nat
deriving DecidableEq, Repr

/-- What a slot's steal request is doing (R35, R75). -/
inductive StealSt where
  | none
  | sent
  | empty
  | wait (since : Nat)
deriving DecidableEq, Repr

/-- A task record with the pusher's provisional set and slice (R34, R35, R342). -/
structure TaskRec where
  slice : SliceId
  pc : Word
  arg : Word
  join : Word
  prov : Word
  h1 : Word             -- the handles of a continuation; zero otherwise (R46)
  h2 : Word
deriving DecidableEq, Repr

/-- A reserved slot of a slice on a core: generation, port queues and the thread it runs (R40, R235, R236). -/
structure SlotRec where
  gen : Nat
  phys : Option Nat
  thread : Option Thread
  steal : StealSt
  carried : Option TaskRec   -- the record a steal reply carries (R38)
  north : List PortWord
  east : List PortWord
  south : List PortWord
  west : List PortWord
  far : List FarWord
  replies : List PortWord
deriving DecidableEq, Repr

/-- Slice states of R58. -/
inductive SliceSt where
  | ready | running | suspended | halted | completed
deriving DecidableEq, Repr

/-- Where a slice came from and which command processor hears of it (R56, R296). -/
structure Origin where
  cp : QuadId
  noVf : Bool
  vf : Nat
  queue : Nat
deriving DecidableEq, Repr

/-- A slice's resources on one group core (R59, R226): the bases of its data and workspace ranges, and the physical accumulator
bound to each logical one, none while it is saved (R64). -/
structure Grant where
  core : CoreId
  data : Nat
  work : Nat
  accs : List (Option Nat)
deriving DecidableEq, Repr

/-- Events that a full event queue keeps as one flag each (R296). -/
structure PendFlags where
  missed : Bool
  killed : Bool
  stalled : Bool
deriving DecidableEq, Repr

/-- A slice held by the dispatcher (R29, R55 to R69). -/
structure SliceRec where
  desc : BitVec 512
  st : SliceSt
  deadline : Word
  central : Nat
  allot : Tab CoreId Nat
  faults : Nat
  origin : Origin
  priv : Bool
  pass : Nat
  grants : List Grant
  pools : Tab ClusterId (List Nat)   -- its 64 KiB blocks of each pool, in order (R59)
  abort : List ClusterId
  missed : Bool
  lastBusy : Nat          -- device time at which a slot of it was last neither parked nor idle (R303)
  stallReported : Bool
  killed : Bool
  pend : PendFlags
  passedBack : Option SliceId  -- the head whose deadline it takes for ordering (R62)
deriving DecidableEq, Repr

/-- A continuation (R46): its record, its futures and the registrations still to come. -/
structure Cont where
  task : TaskRec
  h1 : Word
  h2 : Word
  w1 : Option Addr        -- the word registered on for h1, if waiting
  w2 : Option Addr
  poll1 : Bool
  poll2 : Bool
  n : Nat
  due : Bool              -- n is zero and the deque had no room (R39)
deriving DecidableEq, Repr

/-- A bound circular-buffer handle (R160, R161). -/
structure CbState where
  countM1 : Nat
  slotSz : Nat            -- in 16-byte units
  base : Nat              -- view offset
  p : Nat
  c : Nat
  nrsv : Nat
deriving DecidableEq, Repr

/-- A rectangle barrier register of a slice on a core (R239, R240, R314). -/
structure BarState where
  gen : Nat
  v : Bool
  nthrM1 : Nat
  x0 : Nat
  wM1 : Nat
  y0 : Nat
  hM1 : Nat
  arrived : List Nat      -- reserved slots marked for the current generation
  next : List Nat         -- marked for the next one
  forwarded : Bool        -- this core's arrival for the current generation has been sent on
  east : Option Nat       -- the rectangle for which the eastern neighbour's arrival has come in, as R239 lays it out
  south : Option Nat      -- the same of the southern one
  due : Bool              -- the release has reached the core
deriving DecidableEq, Repr

/-- A physical accumulator's contents and tag (R114, R226). -/
structure AccRec where
  bits : AccBits
  tag : Nat
deriving DecidableEq, Repr

/-- An accumulator taken from a victim and not yet saved: it is bound to the slice it was taken for (R64). -/
structure SaveOp where
  acc : AccId
  phys : Nat
  taker : SliceId
deriving DecidableEq, Repr

/-- A matrix operation under way and the thread that issued it. -/
structure MatOp where
  id : Nat
  t : ThreadId
  gen : Nat
  op : MatKind
  staged : Bool           -- its staging has ended (R225)
deriving DecidableEq, Repr

/-- A GCD-unit or divider operation, or a home's answer: what it writes, in which workspace, when it completes (R141, R142,
R330, R377). -/
structure LongOp where
  id : Nat
  t : ThreadId
  slice : SliceId         -- whose work it is (R37)
  wsp : Word
  regs : List (Nat × Word)
  guard : Option (Nat × Bool)
  flags : Nat
  home : Nat              -- the package that answers: its own for a unit of the core
deriving DecidableEq, Repr

/-- A store in a core's store queue (R204, R398). -/
structure StoreEnt where
  id : Nat
  t : ThreadId
  gen : Nat
  slice : SliceId         -- whose work it is (R37)
  pc : Word
  pa : Addr
  n : Nat
  val : Nat
  rel : Option Nat        -- the release scope
  after : Nat             -- it waits for the queue's entries numbered below (R205, R207)
deriving DecidableEq, Repr

/-- A line of an L1 data cache: its address and bytes as fetched (R152). A line of tile data carries its version's home and instance
number, and its address is its place in the tile (R173). -/
structure L1Line where
  addr : Addr
  data : Nat
  tile : Option (HomeId × Nat)
deriving DecidableEq, Repr

/-- A translation held by a TLB (R157, R159): virtual page, page size as a power of two, physical page and permissions. -/
structure TlbEnt where
  part : PartId
  vbase : Nat
  log2 : Nat
  pbase : Nat
  rd : Bool
  wr : Bool
  ex : Bool
deriving DecidableEq, Repr

/-- A record held by an extent buffer (R247): its virtual address and bytes. -/
structure ExtEnt where
  part : PartId
  va : Nat
  bits : Nat
deriving DecidableEq, Repr

/-- A watchpoint (R292): the registers as written, and the storage word the address named. -/
structure WpRec where
  ctl : Word
  addr : Word
  loc : Option Addr
deriving DecidableEq, Repr

/-- A core (R13, R18, R51, R76). -/
structure CoreRec where
  lastSlot : Nat
  issued : Option Nat       -- the ac in which it issued last (R70)
  slotGens : Tab Nat Nat
  place : Tab Nat Nat
  placeBase : Word
  deque : List TaskRec      -- the bottom first
  reserved : Nat
  conts : List Cont
  cbs : Tab (SliceId × Nat) CbState
  bars : Tab (SliceId × Nat) BarState
  accs : Tab Nat AccRec     -- physical accumulators
  mqueue : List MatOp
  peeks : List MatOp        -- answers of MRD.peek, outside the queue (R369)
  gcd : List LongOp
  div : List LongOp
  storeq : List StoreEnt
  l1 : List L1Line
  operandBuf : List L1Line
  tlb : List TlbEnt
  ext : List ExtEnt
  wps : List WpRec
  dropped : Nat
  gated : Bool
  gating : Bool             -- on its way into gating (R76)
  commit : Option Nat       -- E, the first ac of its commit window
  quietSince : Nat          -- the ac since which no slot was ready
deriving DecidableEq, Repr

/-- State logging of a core (R284). -/
structure LogRec where
  on : Bool
  last : Nat
  lastAc : Nat
  ring : List Nat
  enteredAc : Nat
deriving DecidableEq, Repr

/-- A place that an engine reads or writes (R143, R151): plain virtual, or pieces of storage already resolved through the issuing
slice's view. -/
inductive EngAddr where
  | plain (va : Nat)
  | local_ (l : List (Addr × Nat))
deriving DecidableEq, Repr

/-- A receiver of a copy (R228, R233). -/
structure Recv where
  core : CoreId
  dst : EngAddr
  ok : Bool                 -- false: outside the core group, receives nothing
  bar : Option (Addr × Nat) -- barrier granule and captured generation
  stale : Bool
deriving DecidableEq, Repr

/-- A copy in a flyer's in-flight table (R228, R229, R322). -/
structure Copy where
  id : Nat
  t : ThreadId
  gen : Nat
  fut : Fut
  src : EngAddr
  recvs : List Recv
  len : Nat
  done : Nat
  stop : Bool
deriving DecidableEq, Repr

/-- A copy-reduction contribution on its way (R230, R323). -/
structure Contribution where
  id : Nat
  t : ThreadId
  gen : Nat
  fut : Fut
  part : PartId
  dst : EngAddr
  fmt : Nat
  len : Nat
  index : Nat
  nm1 : Nat
  src : EngAddr
  data : Option Nat         -- read at its first arrival attempt
  bar : Option (Addr × Nat)
  resolveOff : Bool         -- cancelled: the later resolve is discarded by R43
  refused : Option Nat      -- the ac of the first refusal (R193)
  refusals : Nat            -- answers "retry" so far (R184)
  since : Nat               -- the ac of the last one
deriving DecidableEq, Repr

/-- A merge record of CPYR (R193, R230), by destination location. -/
structure MergeRec where
  addr : Addr
  home : Option HomeId      -- none: the owning cluster's pool
  cluster : ClusterId
  part : PartId
  fmt : Nat
  len : Nat
  nm1 : Nat
  received : List Nat
  nextIdx : Nat
  held : List (Nat × Nat)
  bars : Tab Nat (Addr × Nat)   -- the barrier of each contribution held
deriving DecidableEq, Repr

/-- A BOARR arrival on its way (R315). -/
structure BoArr where
  id : Nat
  t : ThreadId
  tgen : Nat
  slice : SliceId
  addr : Addr
  gen : Nat
  count : Nat
  after : Nat             -- stores of the core, numbered below, of which the thread knew (R207, R208)
deriving DecidableEq, Repr

/-- A PLAN under way (R252, R385). -/
structure PlanOp where
  id : Nat
  t : ThreadId
  gen : Nat
  fut : Fut
  recs : List (Nat × Nat × Nat)      -- per sequence, R242's code for its record, 0 for none, NTOK and T
  dst : List (Addr × Nat)            -- the pieces of the segment range
  segLog2 : Nat
  cores : Nat
  next : Nat                         -- the segment to be written next
deriving DecidableEq, Repr

/-- A debug module (R285, R289, R328). -/
structure DebugRec where
  stopped : Bool
  stopSeq : Nat
  stepRes : Nat
  trigIgn : Bool
  selSlot : Nat
  selCore : Nat
  dbg : Word                -- DMDBG
  step : Option ThreadId    -- the thread that may issue one turn
  req : Bool                -- a stop has reached the module and has not yet taken effect (R286)
deriving DecidableEq, Repr

/-- A cluster (R43, R45, R229). -/
structure ClusterRec where
  copies : List Copy
  watchDir : List (Addr × List CoreId)
  discarded : Nat
  doubled : List Word       -- handles of the operations whose double resolve is recorded (R43, R263)
  dm : DebugRec
deriving DecidableEq, Repr

/-- A walk-cache entry: a table entry of level 1 or 2 names the next table (R159). -/
structure WalkEnt where
  part : PartId
  level : Nat
  vbase : Nat             -- the virtual address above the level's page size
  tbl : Nat
deriving DecidableEq, Repr

/-- A miss-table entry of a quadrant (R159). -/
structure MissEnt where
  part : PartId
  va : Nat
  waiters : List ThreadId
deriving DecidableEq, Repr

/-- A region of the homing maps (R153): plain region of HBM, or name region of a partition. -/
inductive RegionKey where
  | plain (pkg n : Nat)
  | name (p : PartId) (n : Nat)
deriving DecidableEq, Repr

/-- What a command processor's instructions act on of the privileged architecture (R300): mode 0 user, 1 supervisor, 3 machine; its pc; the
standard registers by number, 0 where unlisted; and the image that it runs. -/
structure CpRec where
  mode : Nat
  pc : Word
  csrs : Tab Nat Word
  image : Word
deriving DecidableEq, Repr

/-- A command processor's architectural registers and event ring (R296, R300), and its quadrant's watchdog (R303). -/
structure QuadRec where
  regionCache : Tab RegionKey Nat
  regionMiss : List RegionKey
  stlb : List TlbEnt
  walks : List WalkEnt
  miss : List MissEnt
  ring : List (BitVec 256)      -- unread event records, oldest first
  ringHead : Nat
  held : List (PartId × BitVec 256)   -- events that dispatchers hold for the ring, oldest first
  serving : Option (Nat × Nat × Nat)  -- the host queue being served (virtual function, queue) and its records this turn (R55)
  subSt : Nat                   -- CPSUBST
  sqsel : Nat
  satp : Word               -- of the command processor
  cp : CpRec
  swapSt : Nat
  swapAddr : Word
  kick : Nat                    -- device time of the last kick
  wdStep : Nat                  -- watchdog steps taken since
  suspended : Option Nat        -- count suspended by a live swap since
  restarts : Nat
  irqs : Nat
deriving DecidableEq, Repr

/-- A version's state at its home (R173, R174, R189, R190). -/
inductive VerSt where
  | present | provisional | merging | abandoned
deriving DecidableEq, Repr

structure Version where
  home : HomeId
  part : PartId
  name : Nat
  ver : Nat
  st : VerSt
  count : Nat
  size : Nat
  fmt : Nat
  data : Nat
  poison : List Nat       -- the 16-byte granules of the tile that are poisoned (R167)
  roots : List Nat
  inst : Nat
  nm1 : Nat
  received : List Nat
  nextIdx : Nat
  held : List (Nat × Nat × List Nat)
deriving DecidableEq, Repr

/-- Where an NLD's tile goes (R376): a local address, a vector register of a window, or a slot of a handle. -/
inductive NldTo where
  | loc (a : Word)
  | vec (wsp : Word) (v : Nat)
  | slot (cb : Nat)
deriving DecidableEq, Repr

/-- A request on path V on its way to its home, in issue order of its source (R16, R175). -/
inductive VKind where
  | nst (size fmt count : Nat) (data : Nat) (roots : List Nat) (root : Option Nat)
  | nld (dst : Nat) (dest : NldTo) (maxsz : Nat) (p cons ge : Bool)
  | nred (size fmt count index nm1 : Nat) (data : Nat) (roots : List Nat) (fut : Fut)
  | nrel (gd : Nat) | ndrop (gd : Nat) | nqry (dst : Nat) | naband (gd : Nat)
deriving DecidableEq, Repr

structure VMsg where
  id : Nat
  t : ThreadId
  gen : Nat
  slice : SliceId         -- whose work it is (R37)
  wsp : Word
  pc : Word
  part : PartId
  name : Nat
  ver : Nat
  kind : VKind
  refusals : Nat          -- "retry" answers so far (R184)
  eog : Bool              -- of the NLD that waits on it
  since : Nat             -- ac of the last one
  prov : Bool             -- sent by a provisional thread (R196)
  hint : Nat
  firstRefused : Nat      -- ac of the first refusal (R273)
deriving DecidableEq, Repr

/-- A waiter record at a home (R184), of a parked NLD or of a reel (R162). -/
inductive Waiter where
  | load (m : VMsg) (home : HomeId)
  | reel (sub : Nat) (part : PartId) (home : HomeId) (name ver : Nat)
deriving DecidableEq, Repr

/-- A tile on its way to the slot an NLD reserved (R161). -/
structure SlotTile where
  t : ThreadId
  gen : Nat
  slice : SliceId         -- whose handle it is (R161)
  cb : Nat
  dst : Nat
  wsp : Word
  ref : Word
  bytes : Nat
  len : Nat
  addRoots : List Nat
  eog : Bool
deriving DecidableEq, Repr

/-- An acknowledgement of an NST on its way back (R176, R177). -/
structure NstAck where
  id : Nat
  t : ThreadId
  gen : Nat
  violation : Bool
  home : Nat              -- the home's package
deriving DecidableEq, Repr

/-- A reel subscription (R162, R187, R379). -/
structure SubRec where
  id : Nat
  t : ThreadId
  gen : Nat
  slice : SliceId
  core : CoreId
  cb : Nat
  part : PartId
  name : Nat
  ver : Nat               -- the next version
  step : Nat
  left : Nat
  m : Nat
  wb : Bool
  cons : Bool
  size : Nat
  fmt : Nat
  count : Nat
  fut : Fut
  waiting : Bool
  refusals : Nat          -- answers "retry", or refusals of a write-back, since the last that was taken (R179, R184)
  since : Nat             -- the ac of the first of a write-back, of the last otherwise
  stop : Bool
  roots : List Nat
deriving DecidableEq, Repr

/-- Where a root's decision must arrive (R197, R198). -/
inductive DecPlace where
  | home (h : HomeId)
  | core (c : CoreId)
deriving DecidableEq, Repr

structure Decision where
  part : PartId
  root : Nat
  confirm : Bool
  place : DecPlace
deriving DecidableEq, Repr

/-- A root's state in the root table (R194). -/
inductive RootSt where
  | free | open_ | confirmed | revoked
deriving DecidableEq, Repr

/-- A release tag at a point of coherence (R213): the location that the release wrote, and what the tag names. -/
structure RelTag where
  addr : Addr
  n : Nat
  scope : Nat
  core : CoreId
  t : ThreadId
  gen : Nat
  before : Nat            -- the release's number: earlier stores of the thread are waited for
deriving DecidableEq, Repr

/-- An acquire withheld for a tag, with its scope-miss message's progress (R213). -/
structure Withheld where
  t : ThreadId
  scope : Nat
  tag : RelTag
  promoted : Bool
  since : Nat
deriving DecidableEq, Repr

/-- An operation at a scratchpad or pool bank (R149, R150). -/
inductive BankOp where
  | load (n : Nat) (sgn : Bool) (fe : Nat) (dst : Nat)
  | store (n : Nat) (val : Nat) (fe : Bool)
  | atom (n : Nat) (op : Nat) (sgn : Bool) (val : Nat) (dst : Nat) (cap : Captured)
  | cas (n : Nat) (exp new : Nat) (dst gd : Nat)
  | feqry (n : Nat) (dst : Nat)
  | feset (mask : Nat) (val : Bool)
deriving DecidableEq, Repr

structure BankReq where
  t : ThreadId
  addr : Addr
  op : BankOp
  taddr : Word
  hdr : Hdr
  acq : Option Nat
  rel : Option Nat
  srcs : List Opnd         -- ports and handles read when the access is made (R91)
  marked : List (Nat × Word)   -- marked registers among its sources, with the values they resolved to (R44)
deriving DecidableEq, Repr

/-- A place in the order in which full/empty requests parked at a granule (R149): the thread, the granule and the bit waited for. -/
structure BankWait where
  t : ThreadId
  g : Nat
  full : Bool
deriving DecidableEq, Repr

/-- Messages on the message mesh (R235, R236). -/
structure NbrMsg where
  src : ThreadId
  dst : ThreadId
  dir : Nat                -- the receiving port: 0 north, 1 east, 2 south, 3 west
  w : PortWord
deriving DecidableEq, Repr

structure FarMsg where
  src : Sender
  dstCore : CoreId
  dstSlice : SliceId
  slot : Nat
  header : Word
  words : List Word
  roots : List Nat
deriving DecidableEq, Repr

structure ReplyMsg where
  src : ThreadId
  dst : ThreadId
  gen : Nat
  w : PortWord
  nack : Bool
deriving DecidableEq, Repr

/-- A slice yield on its way to the dispatcher (R416). -/
structure YieldMsg where
  t : ThreadId
  slice : SliceId
  deadline : Option Word
deriving DecidableEq, Repr

/-- A wake on its way to a core for a state word (R45). -/
structure WakeMsg where
  core : CoreId
  addr : Addr
deriving DecidableEq, Repr

/-- An event for the Carder (R273). -/
structure CdEvent where
  die : DieId
  src : Nat                -- e0, by which events of one source stay in order
  part : PartId
  cls : Nat
  e : List (BitVec 32)     -- e0 to e7
  time : Nat
deriving DecidableEq, Repr

/-- A filter slot (R276, R277). -/
structure FSlot where
  v : Bool
  part : Nat
  cls : Nat
  lenM1 : Nat
  prog : List (BitVec 32)
  regs : List (BitVec 32)
  faults : Nat
  staged : Option (Word × List (BitVec 32))  -- a load that lands during a run, for the next event
deriving DecidableEq, Repr

/-- An object-table entry and, for a trace ring, its indices and counters (R280, R282). -/
structure ObjRec where
  word : Word
  prod : Nat
  cons : Nat
  drops : Nat
  seq : Nat
deriving DecidableEq, Repr

/-- A run of a pipeline: the event, the slot and instruction index, and the instructions charged so far (R275, R276). -/
structure CdRun where
  ev : CdEvent
  slot : Nat
  idx : Nat
  used : Nat
deriving DecidableEq, Repr

structure Pipe where
  queue : List CdEvent
  run : Option CdRun
deriving DecidableEq, Repr

/-- A die: its Carder, machine-check log and Corram links (R268, R272 to R283, R298, R304). -/
structure DieRec where
  fslots : Tab Nat FSlot
  objs : Tab Nat ObjRec
  pipes : Tab Nat Pipe
  taps : List CdEvent
  budget : Tab PartId Int
  overload : Tab PartId Nat
  budgetDrops : Tab PartId Nat
  window : Nat
  mcBase : Nat              -- where the machine-check log stands, from the die's first granule (R268, R429)
  mcHead : Nat
  mcTail : Nat
  mcDropped : Nat
  mcSeq : Nat
  corrected : Nat           -- correctable errors counted (R166)
  refetched : Nat           -- L1 lines refetched after a parity error (R166)
  links : Tab Nat (Nat × Bool)  -- failed retrainings, and whether the link is down
  uciePhase : Tab Nat Nat
deriving DecidableEq, Repr

/-- A partition and its control page (R21, R61, R119, R153 to R172, R194, R244, R249, R293, R295). -/
structure PartRec where
  units : List Nat
  mode : Word
  ovdef : Word
  vquota : Word
  nregion : Word
  ptroot : Word
  tlbInv : Word
  tlbBusy : Bool
  arenas : Tab Nat Word
  wpools : Tab Nat Word
  wfree : Tab Nat (List (Nat × Nat))  -- free blocks of a pool as (order, unit)
  pxctl : Word
  resetBusy : Bool
  nrmbase : Word
  regrel : Word
  roothome : Word
  ageLimit : Nat
  roots : Tab Nat RootSt
  seq : Nat
  nextName : Nat
  clockLow : Bool            -- Boost: running at 1.9 GHz (R25)
  halfSince : Option Nat     -- device time since which the active count is at half or below
  pauseUntil : Nat
deriving DecidableEq, Repr

/-- A host queue (R294). -/
structure QueueRec where
  ctl : Word
  head : Nat
  tail : Nat
  ignored : Nat
deriving DecidableEq, Repr

/-- A package (R20, R153, R294, R305, R429). -/
structure PkgRec where
  gown : Tab Nat Word
  vfbind : Tab Nat Word
  queues : Tab (Nat × Nat) QueueRec
  rmapBase : Nat              -- physical address of the plain region map (R156)
  throttled : Bool
  mgmtIrqs : Nat
  hostMsgs : Nat
  resetAt : Nat               -- device time of the last package reset
deriving DecidableEq, Repr

/-- A Carder interrupt or trigger delivered to a command processor carries ca and the object number (R283). -/
structure CpIrq where
  q : QuadId
  value : Nat
  obj : Nat
deriving DecidableEq, Repr

/-- Who executes in the current step. -/
inductive Actor where
  | none
  | thread (t : ThreadId)
  | carder (d : DieId) (pipe : Nat)
deriving DecidableEq, Repr

/-- One turn of the device: whose step comes next. The list of turns stands for everything that decides it outside one
instruction: rotation, arrival, firmware and the passing of time. -/
inductive Turn where
  | thread (t : ThreadId)
  | carder (d : DieId) (pipe : Nat)
  | unit (ev : Instr)
  | pass (ac ns : Nat)
deriving DecidableEq, Repr

end Sys2Proof.Machine
end

