-- ==== Sys2Proof/Machine/State.lean ====
section
/-!
DEFINITION. Sys2Proof/Machine/State.lean: the state of the device as plain data, the reasons a step can stop, and the state after
package reset. INVENTORY.md lists every field with the rule that names it and its reset value.
-/
namespace Sys2Proof.Machine

/-- Storage bytes in one canonical list, and the bits beside each 16-byte granule, as sorted lists of granule numbers
(Addr / 16): full (R148), poisoned (R167) and typed as a barrier (R231). -/
structure Store where
  mem : List Host.Cell
  full : List Nat
  poison : List Nat
  typed : List Nat
deriving DecidableEq, Repr

/-- Threads by reserved slot, and slices. -/
structure Work where
  slots : Tab ThreadId SlotRec
  slices : Tab SliceId SliceRec
deriving DecidableEq, Repr

/-- The units of R13 and R293. -/
structure Units where
  cores : Tab CoreId CoreRec
  logs : Tab CoreId LogRec
  clusters : Tab ClusterId ClusterRec
  quads : Tab QuadId QuadRec
  dies : Tab DieId DieRec
  parts : Tab PartId PartRec
  pkgs : Tab Nat PkgRec
deriving DecidableEq, Repr

/-- Named tiles at their homes and on path V (R168 to R199). -/
structure Tiles where
  versions : List Version
  waiters : List Waiter
  refused : List VMsg        -- in the order in which a home refused them (R179)
  vnet : List VMsg           -- requests on their way, in issue order
  retries : List VMsg        -- answered "retry" (R184)
  acks : List NstAck
  answers : List LongOp      -- home answers on their way (R377)
  slotTiles : List SlotTile
  notices : List Waiter      -- arrival notices on their way (R185)
  decisions : List Decision
  subs : List SubRec
  insts : Tab HomeId Nat
deriving DecidableEq, Repr

/-- Everything else on its way between units. -/
structure Nets where
  relTags : List RelTag
  withheld : List Withheld
  merges : List MergeRec
  contribs : List Contribution
  boarrs : List BoArr
  plans : List PlanOp
  bankNet : List BankReq     -- accesses to another core's or cluster's bank (R150)
  bankWait : List BankWait   -- full/empty requests waiting at their banks, in the order in which they parked (R149)
  nbrs : List NbrMsg
  fars : List FarMsg
  replies : List ReplyMsg
  yields : List YieldMsg
  wakes : List WakeMsg
  cpIrqs : List CpIrq
  saving : List SaveOp       -- in the order in which they were taken
  savedAccs : Tab AccId Nat  -- tags of accumulators in their save areas (R64)
deriving DecidableEq, Repr

/-- The state of the device. `free` numbers the free values taken so far and `opId` the operations issued: both are the model's
own fields. -/
structure State where
  cur : Actor
  agenda : List Turn
  ac : Nat
  dtime : Word
  free : Nat
  opId : Nat
  st : Store
  wk : Work
  un : Units
  tl : Tiles
  nt : Nets
deriving DecidableEq, Repr

/-- Why a step can stop with a fault. Both are raised only by a turn that names nobody who could execute it, so no program meets
them: safe. -/
inductive Fault where
  /-- Raised by a core instruction when the step's actor is not a live thread: no slot runs it. Safe. -/
  | noThread
  /-- Raised by a Carder instruction when the step's actor is not a pipeline in a run: no filter slot runs it. Safe. -/
  | noCarderRun
deriving DecidableEq, Repr

/-- Why a step can be refused. -/
inductive Refusal where
  /-- Raised by the arm of an instruction whose meaning is not written: the machine stops where the hardware goes on. Safe. -/
  | notModelled (mnemonic : String)
deriving DecidableEq, Repr

/-- A watchpoint after partition reset (R292). -/
def WpRec.reset : WpRec := ⟨0, 0, none⟩

/-- A core after reset: an invalid place table (R51), empty queues and buffers. -/
def CoreRec.reset : CoreRec :=
  { lastSlot := 15, issued := none, slotGens := [], place := [], placeBase := 0, deque := [], reserved := 0, conts := [], cbs := [], bars := []
    accs := [], mqueue := [], peeks := [], gcd := [], div := [], storeq := [], l1 := [], operandBuf := [], tlb := [], ext := []
    wps := List.replicate 4 WpRec.reset, dropped := 0, gated := false, gating := false, commit := none, quietSince := 0 }

/-- State logging after reset: off, and idle as the last state logged (R284). -/
def LogRec.reset : LogRec := ⟨false, 3, 0, [], 0⟩

/-- A debug module after die reset (R285, R328). -/
def DebugRec.reset : DebugRec := ⟨false, 0, 0, false, 0, 0, 0, none, false⟩

/-- A cluster after reset. -/
def ClusterRec.reset : ClusterRec := ⟨[], [], 0, [], DebugRec.reset⟩

/-- A quadrant after reset (R296, R300, R303). -/
def QuadRec.reset : QuadRec :=
  { regionCache := [], regionMiss := [], stlb := [], walks := [], miss := [], ring := [], ringHead := 0, held := [], serving := none, subSt := 0, sqsel := 0, satp := 0, cp := ⟨3, 0, [], 0⟩
    swapSt := 0, swapAddr := 0, kick := 0, wdStep := 0, suspended := none, restarts := 0, irqs := 0 }

/-- A filter slot after die reset (R277). -/
def FSlot.reset : FSlot := ⟨false, 0, 0, 0, [], List.replicate 16 0, 0, none⟩

/-- An object-table entry after die reset (R280). -/
def ObjRec.reset : ObjRec := ⟨0, 0, 0, 0, 0⟩

def Pipe.reset : Pipe := ⟨[], none⟩

/-- A die after die reset. -/
def DieRec.reset : DieRec :=
  { fslots := [], objs := [], pipes := [], taps := [], budget := [], overload := [], budgetDrops := [], window := 0, mcBase := 63 * 2 ^ 30 + 2 ^ 25
    mcHead := 0, mcTail := 0, mcDropped := 0, mcSeq := 0, corrected := 0, refetched := 0, links := [], uciePhase := [] }

/-- A partition's registers after partition reset (R21, R61, R119, R172, R244, R249, R295). -/
def PartRec.reset : PartRec :=
  { units := [], mode := 0x01000000, ovdef := 0x1555, vquota := 0x0800008000, nregion := 0, ptroot := 0, tlbInv := 0
    tlbBusy := false, arenas := [], wpools := [], wfree := [], pxctl := 0, resetBusy := false, nrmbase := 0, regrel := 0
    roothome := 0, ageLimit := 0x10, roots := [], seq := 0, nextName := 0, clockLow := false, halfSince := none
    pauseUntil := 0 }

def QueueRec.reset : QueueRec := ⟨0, 0, 0, 0⟩

/-- A package after package reset (R294, R429). -/
def PkgRec.reset : PkgRec := ⟨[], [], [], 63 * 2 ^ 30, false, 0, 0, 0⟩

/-- The device right after package reset: no partition, no slice, no thread, nothing in flight, and no turn chosen. -/
def State.reset : State :=
  { cur := .none, agenda := [], ac := 0, dtime := 0, free := 0, opId := 0
    st := ⟨[], [], [], []⟩
    wk := ⟨[], []⟩
    un := ⟨[], [], [], [], [], [], []⟩
    tl := ⟨[], [], [], [], [], [], [], [], [], [], [], []⟩
    nt := ⟨[], [], [], [], [], [], [], [], [], [], [], [], [], [], [], []⟩ }

end Sys2Proof.Machine
end

