-- ==== Sys2Proof/Machine/Bits.lean ====
section
/-!
DEFINITION. Sys2Proof/Machine/Bits.lean: fields, extension, tables, sets and the one memory, over which everything else is
written.
-/
namespace Sys2Proof.Machine

/-- `x<n>` (R4). -/
def bitAt (x : Word) (n : Nat) : Bool := x.getLsbD n

/-- `x<lo+n-1:lo>` of a register as a number (R4). -/
def wfield (x : Word) (lo n : Nat) : Nat := field x.toNat lo n

/-- The low n bits of x read as two's complement (R4). -/
def signed (x n : Nat) : Int :=
  let v := x % 2 ^ n
  if 2 * v ≥ 2 ^ n ∧ n ≠ 0 then (v : Int) - 2 ^ n else v

/-- An integer modulo 2^n. -/
def wrap (n : Nat) (x : Int) : Nat := (x % 2 ^ n).toNat

/-- The low n bits of x extended to 64 bits with zeros, or with their sign bit. -/
def extend (sgn : Bool) (n x : Nat) : Word :=
  if sgn then BitVec.ofInt 64 (signed x n) else BitVec.ofNat 64 (x % 2 ^ n)

/-- A table's entry, or d when the key is not listed. -/
def tget {κ ν : Type} [DecidableEq κ] (t : Tab κ ν) (k : κ) (d : ν) : ν :=
  match t with
  | [] => d
  | (k', v) :: r => if k = k' then v else tget r k d

def tfind {κ ν : Type} [DecidableEq κ] (t : Tab κ ν) (k : κ) : Option ν :=
  match t with
  | [] => none
  | (k', v) :: r => if k = k' then some v else tfind r k

/-- Replaces the entry of k in its place, or adds one at the end. -/
def tput {κ ν : Type} [DecidableEq κ] (t : Tab κ ν) (k : κ) (v : ν) : Tab κ ν :=
  match t with
  | [] => [(k, v)]
  | (k', v') :: r => if k = k' then (k, v) :: r else (k', v') :: tput r k v

def tdel {κ ν : Type} [DecidableEq κ] (t : Tab κ ν) (k : κ) : Tab κ ν := t.filter fun e => e.1 ≠ k

/-- A set of numbers as a rising list. -/
def nins (l : List Nat) (x : Nat) : List Nat :=
  match l with
  | [] => [x]
  | y :: r => if x < y then x :: y :: r else if x = y then y :: r else y :: nins r x

def ndel (l : List Nat) (x : Nat) : List Nat := l.filter (· ≠ x)

def nrange (a n : Nat) : List Nat := (List.range n).map (a + ·)

/-- Adds, or removes, the numbers a to a + n - 1. -/
def ninsAll (l : List Nat) (a n : Nat) : List Nat := (nrange a n).foldl nins l
def ndelAll (l : List Nat) (a n : Nat) : List Nat := l.filter fun x => ¬ (a ≤ x ∧ x < a + n)

/-- Removes the k-th element. -/
def dropAt {α : Type} (l : List α) (k : Nat) : List α := l.take k ++ l.drop (k + 1)

def setAt {α : Type} (l : List α) (k : Nat) (x : α) : List α := l.take k ++ x :: l.drop (k + 1)

/-- The byte at an address: 0 where nothing is listed (assumption 2). -/
def memByte (m : List Host.Cell) (x : Addr) : Byte :=
  match m with
  | [] => 0
  | (a, b) :: r => if x = a then b else memByte r x

/-- n bytes from address a, the byte at the lowest address lowest (R4). -/
def memRead (m : List Host.Cell) (a n : Nat) : Nat :=
  match m with
  | [] => 0
  | (x, b) :: r => (if a ≤ x ∧ x < a + n then b.toNat * 2 ^ (8 * (x - a)) else 0) + memRead r a n

/-- The listed cells of n bytes v from address a: those whose byte is not what an unlisted address reads as. -/
def cellsOf (a n v : Nat) : List Host.Cell :=
  match n with
  | 0 => []
  | k + 1 => if v % 256 = 0 then cellsOf (a + 1) k (v / 256) else (a, BitVec.ofNat 8 v) :: cellsOf (a + 1) k (v / 256)

/-- Writes n bytes v from address a, keeping the canonical form. -/
def memWrite (m : List Host.Cell) (a n v : Nat) : List Host.Cell :=
  m.filter (fun c => c.1 < a) ++ cellsOf a n v ++ m.filter (fun c => a + n ≤ c.1)

/-- The addresses of a list of cells rise strictly. -/
def risingFrom (lo : Nat) (m : List Host.Cell) : Bool :=
  match m with
  | [] => true
  | (a, _) :: r => decide (lo ≤ a) && risingFrom (a + 1) r

/-- The canonical form: addresses strictly rising, no entry equal to what an unlisted address reads as. -/
def Memory.wf (m : List Host.Cell) : Bool := risingFrom 0 m && m.all fun c => c.2 ≠ 0

/-- A set of granules in canonical form. -/
def risingNat (lo : Nat) (l : List Nat) : Bool :=
  match l with
  | [] => true
  | a :: r => decide (lo ≤ a) && risingNat (a + 1) r

/-- slot_add (R79). -/
def slotAdd (pc : Word) (n : Int) : Word :=
  let i : Int := ((pc.toNat / 64 : Nat) : Int) * 5 + (pc.toNat % 8 : Nat) + n
  BitVec.ofInt 64 ((i / 5) * 64 + i % 5)

/-- The slot index of a PC (R79). -/
def slotIndex (pc : Word) : Nat := pc.toNat / 64 * 5 + pc.toNat % 8

/-- The number of bits of n: 0 for 0. -/
def bitLen (n : Nat) : Nat := if n = 0 then 0 else Nat.log2 n + 1

end Sys2Proof.Machine
end

