-- ==== Sys2Proof/Machine/Store.lean ====
section
/-!
DEFINITION. Sys2Proof/Machine/Store.lean: the records of State by unit, the topology of R13, the place of every storage byte, the
scratchpad view, translation, poison, the machine-check log and the event taps.
-/
namespace Sys2Proof

/-! ### Topology (R13, R14, R293) -/

/-- Column and row of a logical core. -/
def coreX (l : Nat) : Nat := l % 16
def coreY (l : Nat) : Nat := l / 16

/-- The cluster of a core. A spare is given the cluster of the lower router of its pair. -/
def CoreId.clusterNum (c : CoreId) : Nat :=
  if c.core < 192 then 4 * (coreY c.core / 2) + coreX c.core / 4
  else
    let i := c.core - 192
    let q := i / 3
    (q / 2 * 3 + i % 3) * 4 + q % 2 * 2

def CoreId.cluster (c : CoreId) : ClusterId := ⟨c.pkg, c.die, c.clusterNum⟩
def CoreId.dieId (c : CoreId) : DieId := ⟨c.pkg, c.die⟩

/-- The core's number within its cluster. -/
def CoreId.inCluster (c : CoreId) : Nat := 4 * (coreY c.core % 2) + coreX c.core % 4

/-- Core k of a cluster. -/
def ClusterId.core (c : ClusterId) (k : Nat) : CoreId :=
  ⟨c.pkg, c.die, 16 * (2 * (c.cl / 4) + k / 4) + 4 * (c.cl % 4) + k % 4⟩

def ClusterId.dieId (c : ClusterId) : DieId := ⟨c.pkg, c.die⟩

def ClusterId.quadNum (c : ClusterId) : Nat := 2 * bit (decide (c.cl / 4 ≥ 3)) + bit (decide (c.cl % 4 ≥ 2))
def ClusterId.quad (c : ClusterId) : QuadId := ⟨c.pkg, c.die, c.quadNum⟩
def CoreId.quad (c : CoreId) : QuadId := c.cluster.quad

/-- The router of a cluster in its quadrant: the quadrant's clusters in row-major order. -/
def ClusterId.router (c : ClusterId) : Nat := 2 * (c.cl / 4 % 3) + c.cl % 2

/-- The cluster of a quadrant's router. -/
def QuadId.cluster (q : QuadId) (r : Nat) : ClusterId :=
  ⟨q.pkg, q.die, 4 * (3 * (q.quad / 2) + r / 2) + 2 * (q.quad % 2) + r % 2⟩

/-- The package unit that holds a cluster (R293). -/
def ClusterId.unit (c : ClusterId) : Nat := 12 * c.die + 3 * c.quadNum + c.router / 2

/-- The quadrant of a package unit. -/
def unitQuad (pkg u : Nat) : QuadId := ⟨pkg, u / 12, u % 12 / 3⟩

end Sys2Proof

namespace Sys2Proof.Machine

/-- Changes the entry of k where it is listed. -/
def tmod {κ ν : Type} [DecidableEq κ] (t : Tab κ ν) (k : κ) (f : ν → ν) : Tab κ ν :=
  t.map fun e => if e.1 = k then (e.1, f e.2) else e

/-- Changes the entry of k, which is d where it is not listed. -/
def tupd {κ ν : Type} [DecidableEq κ] (t : Tab κ ν) (k : κ) (d : ν) (f : ν → ν) : Tab κ ν := tput t k (f (tget t k d))

/-- Changes every entry. -/
def tall {κ ν : Type} (t : Tab κ ν) (f : ν → ν) : Tab κ ν := t.map fun e => (e.1, f e.2)

/-! ### Records -/

def State.core (s : State) (c : CoreId) : CoreRec := tget s.un.cores c .reset
def State.log (s : State) (c : CoreId) : LogRec := tget s.un.logs c .reset
def State.cluster (s : State) (c : ClusterId) : ClusterRec := tget s.un.clusters c .reset
def State.quad (s : State) (q : QuadId) : QuadRec := tget s.un.quads q .reset
def State.die (s : State) (d : DieId) : DieRec := tget s.un.dies d .reset
def State.part (s : State) (p : PartId) : PartRec := tget s.un.parts p .reset
def State.pkg (s : State) (n : Nat) : PkgRec := tget s.un.pkgs n .reset
def State.slot? (s : State) (t : ThreadId) : Option SlotRec := tfind s.wk.slots t
def State.slice? (s : State) (i : SliceId) : Option SliceRec := tfind s.wk.slices i
def State.thread? (s : State) (t : ThreadId) : Option Thread := (s.slot? t).bind (·.thread)

def State.modCore (s : State) (c : CoreId) (f : CoreRec → CoreRec) : State :=
  { s with un := { s.un with cores := tupd s.un.cores c .reset f } }
def State.modLog (s : State) (c : CoreId) (f : LogRec → LogRec) : State :=
  { s with un := { s.un with logs := tupd s.un.logs c .reset f } }
def State.modCluster (s : State) (c : ClusterId) (f : ClusterRec → ClusterRec) : State :=
  { s with un := { s.un with clusters := tupd s.un.clusters c .reset f } }
def State.modQuad (s : State) (q : QuadId) (f : QuadRec → QuadRec) : State :=
  { s with un := { s.un with quads := tupd s.un.quads q .reset f } }
def State.modDie (s : State) (d : DieId) (f : DieRec → DieRec) : State :=
  { s with un := { s.un with dies := tupd s.un.dies d .reset f } }
def State.modPart (s : State) (p : PartId) (f : PartRec → PartRec) : State :=
  { s with un := { s.un with parts := tupd s.un.parts p .reset f } }
def State.modPkg (s : State) (n : Nat) (f : PkgRec → PkgRec) : State :=
  { s with un := { s.un with pkgs := tupd s.un.pkgs n .reset f } }
def State.modSlot (s : State) (t : ThreadId) (f : SlotRec → SlotRec) : State :=
  { s with wk := { s.wk with slots := tmod s.wk.slots t f } }
def State.modSlice (s : State) (i : SliceId) (f : SliceRec → SliceRec) : State :=
  { s with wk := { s.wk with slices := tmod s.wk.slices i f } }
def State.modThread (s : State) (t : ThreadId) (f : Thread → Thread) : State :=
  s.modSlot t fun r => { r with thread := r.thread.map f }

def PartRec.ownsCluster (p : PartRec) (c : ClusterId) : Bool := p.units.contains c.unit

/-- The physical dies of a partition, ascending: its logical dies 0, 1, … (R29). -/
def PartRec.dies (p : PartRec) : List Nat := (List.range 4).filter fun d => p.units.any fun u => decide (u / 12 = d)

/-- The logical die of a partition that a physical die is. -/
def PartRec.logicalDie? (p : PartRec) (n : Nat) : Option Nat := p.dies[n]?

/-- Mesh distance between two cores of a die. -/
def hops (a b : Nat) : Nat :=
  ((coreX a : Int) - coreX b).natAbs + ((coreY a : Int) - coreY b).natAbs

/-! ### The slice descriptor (R29) -/

def descField (d : BitVec 512) (lo n : Nat) : Nat := field d.toNat lo n
def SliceRec.entry (r : SliceRec) : Nat := descField r.desc 0 64
def SliceRec.argPtr (r : SliceRec) : Nat := descField r.desc 64 64
def SliceRec.budget (r : SliceRec) : Nat := descField r.desc 192 64
def SliceRec.x0 (r : SliceRec) : Nat := descField r.desc 256 4
def SliceRec.y0 (r : SliceRec) : Nat := descField r.desc 260 4
def SliceRec.width (r : SliceRec) : Nat := descField r.desc 264 5
def SliceRec.height (r : SliceRec) : Nat := descField r.desc 269 4
def SliceRec.ldie (r : SliceRec) : Nat := descField r.desc 273 2
def SliceRec.nslots (r : SliceRec) : Nat := descField r.desc 275 4 + 1
def SliceRec.accNum (r : SliceRec) : Nat := descField r.desc 279 3
def SliceRec.domain (r : SliceRec) : Nat := descField r.desc 282 2
def SliceRec.spad (r : SliceRec) : Nat := descField r.desc 288 8
def SliceRec.cpool (r : SliceRec) : Nat := descField r.desc 296 8
def SliceRec.stealKey (r : SliceRec) : Nat := descField r.desc 304 16
def SliceRec.spillBase (r : SliceRec) : Nat := descField r.desc 320 52
def SliceRec.spillSz (r : SliceRec) : Nat := descField r.desc 384 24
def SliceRec.startAll (r : SliceRec) : Bool := r.desc.getLsbD 448

/-- The core group in row-major order, as logical core indices (R29, R35). -/
def groupOf (x0 y0 w h : Nat) : List Nat := (nrange y0 h).flatMap fun y => (nrange x0 w).map fun x => 16 * y + x
def SliceRec.group (r : SliceRec) : List Nat := groupOf r.x0 r.y0 r.width r.height

/-- The index of a logical core in the group (R35). -/
def SliceRec.groupIndex (r : SliceRec) (l : Nat) : Nat := (coreY l - r.y0) * r.width + (coreX l - r.x0)

def SliceRec.inGroup (r : SliceRec) (l : Nat) : Bool := r.group.contains l

/-- The group's cores on its die. -/
def SliceRec.cores (s : State) (i : SliceId) (r : SliceRec) : List CoreId :=
  match (s.part i.part).logicalDie? r.ldie with
  | some d => r.group.map fun l => ⟨i.part.pkg, d, l⟩
  | none => []

/-- The clusters that the group touches, each once. -/
def SliceRec.clusters (s : State) (i : SliceId) (r : SliceRec) : List ClusterId := ((r.cores s i).map CoreId.cluster).eraseDups

def SliceRec.grant? (r : SliceRec) (c : CoreId) : Option Grant := r.grants.find? fun g => decide (g.core = c)

/-- The thread identifier (R35). -/
def tidNat (s : State) (t : ThreadId) : Nat :=
  match s.slice? t.slice with
  | some r => 16 * r.groupIndex t.core.core + t.ridx
  | none => t.ridx

/-- Spill area of thread identifier t, save area and fault records (R31, R267). -/
def SliceRec.spillOf (r : SliceRec) (t : Nat) : Nat := r.spillBase + t * r.spillSz * 4096
def SliceRec.saveBase (r : SliceRec) : Nat := r.spillBase + 16 * r.width * r.height * r.spillSz * 4096
def SliceRec.faultBase (r : SliceRec) : Nat := r.saveBase + r.width * r.height * r.accNum * 16384

/-! ### Where storage bytes stand -/

/-- HBM and host memory by physical address (R151). -/
def addrHbm (pkg pa : Nat) : Addr := pkg * 2 ^ 128 + pa
/-- Scratchpad byte off of a physical core. -/
def addrSpad (c : CoreId) (off : Nat) : Addr := c.pkg * 2 ^ 128 + 2 ^ 56 + (c.die * 256 + c.core) * 2 ^ 19 + off
/-- Byte off of a cluster's pool. -/
def addrPool (c : ClusterId) (off : Nat) : Addr := c.pkg * 2 ^ 128 + 2 ^ 57 + (c.die * 32 + c.cl) * 2 ^ 23 + off
/-- Byte off of a Carder's SRAM. -/
def addrCarder (d : DieId) (off : Nat) : Addr := d.pkg * 2 ^ 128 + 2 ^ 58 + d.die * 2 ^ 22 + off
/-- A byte of a thread's window space below its base workspace (R73): its lines while resident, and the model's place for them. -/
def addrWindow (t : ThreadId) (a : Int) : Addr :=
  t.core.pkg * 2 ^ 128 + 2 ^ 72 +
    ((((t.slice.seq * 64 + t.slice.part.num) * 4 + t.core.die) * 256 + t.core.core) * 16 + t.ridx) * 2 ^ 54 + (a + 2 ^ 53).toNat

/-- The base workspace of reserved slot s in view offsets (R29). -/
def slotBase (ridx : Nat) : Nat := 0x80000 - 0x2400 * (ridx + 1)

/-- The scratchpad view of a slice on a core (R59, R145): the physical offset that a view offset names. -/
def SliceRec.view (r : SliceRec) (g : Grant) (off : Nat) : Option Nat :=
  let w := 0x80000 - r.nslots * 0x2400
  if off < r.spad * 4096 then some (g.data + off)
  else if w ≤ off ∧ off < 0x80000 then some (g.work + (off - w))
  else none

/-- How many bytes from a mapped view offset its range goes on. -/
def SliceRec.viewRun (r : SliceRec) (off : Nat) : Nat := if off < r.spad * 4096 then r.spad * 4096 - off else 0x80000 - off

/-- Whether n bytes from a view offset lie in the data range. -/
def SliceRec.inData (r : SliceRec) (off n : Nat) : Bool := decide (off + n ≤ r.spad * 4096)

/-- The core that logical core l names in a core's place table (R51, R52). A spare wired to the routers of core l stands in its place
and keeps its index (R14, R293), so it is named by l. -/
def placePhys (s : State) (c : CoreId) (l : Nat) : Option CoreId :=
  let e := tget (s.core c).place l 0
  let x : CoreId := ⟨c.pkg, c.die, e % 256⟩
  let own : CoreId := ⟨c.pkg, c.die, l⟩
  if e.testBit 15 ∧ l < 192 then some (if 192 ≤ x.core ∧ x.cluster.unit = own.cluster.unit then own else x) else none

/-- Where a local address of SPACE 0 or 1 leads for a core and a slice's view, whose bank holds it, and for how many bytes storage goes
on from there; none where R144 refuses it. A pool grant is CPOOL blocks of 64 KiB. -/
def resolveRun (s : State) (c : CoreId) (sl : SliceId) (a : Word) : Option (Addr × (CoreId ⊕ ClusterId) × Nat) :=
  match s.slice? sl with
  | none => none
  | some r =>
    let space := wfield a 54 2
    let place := wfield a 44 8
    let off := wfield a 0 23
    if wfield a 56 8 ≠ 0 ∨ wfield a 23 21 ≠ 0 ∨ wfield a 52 2 ≠ c.die ∨ 2 ≤ space then none
    else if space = 0 then
      match placePhys s c place, r.grant? ⟨c.pkg, c.die, place⟩ with
      | some p, some g => (r.view g off).map fun o => (addrSpad p o, .inl p, r.viewRun off)
      | _, _ => none
    else if 32 ≤ place then none
    else
      let cl : ClusterId := ⟨c.pkg, c.die, place⟩
      match tfind r.pools cl with
      | some bs => (bs[off / 0x10000]?).map fun b => (addrPool cl (b + off % 0x10000), .inr cl, 0x10000 - off % 0x10000)
      | none => none

/-- The same without the extent. -/
def resolveLocal (s : State) (c : CoreId) (sl : SliceId) (a : Word) : Option (Addr × (CoreId ⊕ ClusterId)) :=
  (resolveRun s c sl a).map fun x => (x.1, x.2.1)

/-- Consecutive pieces of storage. -/
abbrev Span := List (Addr × Nat)

/-- The pieces of n bytes of SPACE 0 or 1, none where R144 refuses any of them. -/
def piecesFrom (s : State) (c : CoreId) (sl : SliceId) : (fuel : Nat) → (a : Word) → (n : Nat) → Option Span
  | 0, _, n => if n = 0 then some [] else none
  | f + 1, a, n =>
    if n = 0 then some []
    else match resolveRun s c sl a with
    | none => none
    | some (x, _, k) => (piecesFrom s c sl f (a + BitVec.ofNat 64 (min n k)) (n - k)).map ((x, min n k) :: ·)

/-- A range of SPACE 0 or 1 as pieces of storage (R144, R145): a pool grant has at most 128 blocks. -/
def viewPieces (s : State) (c : CoreId) (sl : SliceId) (a : Word) (n : Nat) : Option Span := piecesFrom s c sl 130 a n

/-- The state word that a handle or a location names (R42): its fields are those of a local address, word aligned. -/
def resolveHandle (s : State) (c : CoreId) (sl : SliceId) (h : Word) : Option Addr :=
  let a := h &&& (0x00FFFFFFFFFFFFFF : Word)
  if wfield a 0 3 ≠ 0 ∨ (wfield a 54 2 = 0 ∧ 0x80000 ≤ wfield a 0 23) then none
  else (resolveLocal s c sl a).map (·.1)

/-- The generation in a handle. -/
def handleGen (h : Word) : Nat := wfield h 56 8

/-! ### Bytes, granules and poison -/

def State.rd (s : State) (a : Addr) (n : Nat) : Nat := memRead s.st.mem a n

/-- Writes bytes and nothing else. -/
def State.put (s : State) (a : Addr) (n v : Nat) : State := { s with st := { s.st with mem := memWrite s.st.mem a n v } }

/-- The number of granules that n bytes from a touch. -/
def granules (a n : Nat) : Nat := if n = 0 then 0 else (a + n - 1) / 16 - a / 16 + 1

/-- The first poisoned granule that n bytes from a touch (R167). -/
def State.poisonAt (s : State) (a : Addr) (n : Nat) : Option Nat :=
  s.st.poison.find? fun g => decide (a / 16 ≤ g ∧ g < a / 16 + granules a n)

def State.poisoned (s : State) (a : Addr) (n : Nat) : Bool := (s.poisonAt a n).isSome

/-- The granules written whole by n bytes from a. -/
def wholeLo (a : Nat) : Nat := (a + 15) / 16
def wholeHi (a n : Nat) : Nat := (a + n) / 16

/-- Writes bytes: granules written whole lose their poison (R167). -/
def State.wr (s : State) (a : Addr) (n v : Nat) : State :=
  let s := s.put a n v
  { s with st := { s.st with poison := s.st.poison.filter fun g => ¬ (wholeLo a ≤ g ∧ g < wholeHi a n) } }

/-- Sets the full bits of the granules that the bytes lie in wholly (R148). -/
def State.fillGranules (s : State) (a n : Nat) : State :=
  { s with st := { s.st with full := ninsAll s.st.full (wholeLo a) (wholeHi a n - wholeLo a) } }

def State.isFull (s : State) (a : Addr) : Bool := s.st.full.contains (a / 16)
def State.setFull (s : State) (g : Nat) (b : Bool) : State :=
  { s with st := { s.st with full := if b then nins s.st.full g else ndel s.st.full g } }

/-- Whether n bytes from a touch a granule typed as a barrier (R231). -/
def State.typedAt (s : State) (a n : Nat) : Bool :=
  s.st.typed.any fun g => decide (a / 16 ≤ g ∧ g < a / 16 + granules a n)

/-- A range becomes zero, empty, untyped and free of poison (R147). -/
def State.clear (s : State) (a n : Nat) : State :=
  let out := fun (l : List Nat) => ndelAll l (a / 16) (n / 16)
  { s with st := { mem := s.st.mem.filter fun c => ¬ (a ≤ c.1 ∧ c.1 < a + n)
                   full := out s.st.full, poison := out s.st.poison, typed := out s.st.typed } }

/-! ### Event taps (R273) -/

/-- e0: the logical core or 0xFF, the slot or 0xF, and the die. -/
def eventSrc (die core slot : Nat) : Nat := core + slot * 2 ^ 8 + die * 2 ^ 12

/-- The number of a thread's slot on its core (R13). -/
def slotNo (s : State) (t : ThreadId) : Nat := ((s.slot? t).bind (·.phys)).getD t.ridx

/-- Raises an event: fields e2 to e7, zero when a provisional thread raises it (R196). -/
def raiseEvent (s : State) (d : DieId) (core slot : Nat) (p : PartId) (cls : Nat) (prov : Bool) (f : List Nat) : State :=
  let src := eventSrc d.die core slot
  let f := if prov then [] else f
  let ev : CdEvent :=
    ⟨d, src, p, cls, [BitVec.ofNat 32 src, BitVec.ofNat 32 s.dtime.toNat] ++ (List.range 6).map fun i => BitVec.ofNat 32 (f[i]?.getD 0), s.dtime.toNat⟩
  s.modDie d fun r => { r with taps := r.taps ++ [ev] }

/-! ### The machine-check log (R268) -/

/-- The partition number that owns a unit, or 0xFF. -/
def unitOwner (s : State) (pkg u : Nat) : Nat :=
  match s.un.parts.find? fun e => decide (e.1.pkg = pkg) && e.2.units.contains u with
  | some (p, _) => p.num
  | none => 0xFF

/-- A hardware counter of a cluster or one of its cores rises by n: its overflow raises a class-1 event. -/
def counterEvent (s : State) (cl : ClusterId) (core which old n : Nat) : State :=
  if (List.range n).any fun i => Config.counterWraps which (old + i + 1) then
    raiseEvent s cl.dieId core 0xF ⟨cl.pkg, unitOwner s cl.pkg cl.unit⟩ 1 false [Config.counterNumber which]
  else s

/-- What an entry says beside its time and number. -/
structure McInfo where
  pc : Nat
  addr : Nat
  part : Nat
  unit : Nat
  kind : Nat
  cluster : Nat
  core : Nat
  quad : Option QuadId    -- the quadrant of an L2 slice or router, which lies in no cluster
deriving DecidableEq, Repr

def mcEntry (time seq : Nat) (die : Nat) (m : McInfo) : BitVec 256 :=
  BitVec.ofNat 256 (pack [(14, seq), (3, m.core), (5, m.cluster), (2, die), (8, m.kind), (8, m.unit), (8, m.part), (16, 0),
    (64, m.addr), (64, m.pc), (64, time)])

/-- The command processors that an entry interrupts. -/
def mcQuads (s : State) (d : DieId) (m : McInfo) : List QuadId :=
  if m.quad.isSome then m.quad.toList
  else if m.cluster < 24 then [(⟨d.pkg, d.die, m.cluster⟩ : ClusterId).quad]
  else if m.part = 0xFF then [⟨d.pkg, d.die, 0⟩]
  else (((s.part ⟨d.pkg, m.part⟩).units.filter fun u => decide (u / 12 = d.die)).map (unitQuad d.pkg)).eraseDups

/-- The storage of entry n of a die's log, in the die's reserved HBM (R268). -/
def mcPlace (s : State) (d : DieId) (n : Nat) : Addr := addrHbm d.pkg (d.die * 2 ^ 37 + (s.die d).mcBase + n % 1024 * 32)

/-- Appends an entry, or counts it as dropped; after drops the next entry written has KIND 6 and the count in ADDR. -/
def mcLog (s : State) (d : DieId) (m : McInfo) : State :=
  let r := s.die d
  if r.mcTail + 1024 ≤ r.mcHead then s.modDie d fun r => { r with mcDropped := r.mcDropped + 1 }
  else
    let m := if r.mcDropped ≠ 0 then { m with kind := 6, addr := r.mcDropped } else m
    let s := (s.put (mcPlace s d r.mcHead) 32 (mcEntry s.dtime.toNat (r.mcSeq % 16384) d.die m).toNat).modDie d fun r =>
      { r with mcHead := r.mcHead + 1, mcSeq := r.mcSeq + 1, mcDropped := 0 }
    let s := s.modPkg d.pkg fun r => { r with mgmtIrqs := r.mgmtIrqs + 1 }
    (mcQuads s d m).foldl (fun s q => s.modQuad q fun r => { r with irqs := r.irqs + 1 }) s

/-- An entry about a core of a slice. -/
def mcCore (c : CoreId) (p : PartId) (unit kind addr pc : Nat) : McInfo := ⟨pc, addr, p.num, unit, kind, c.clusterNum, c.inCluster, none⟩

/-- The physical or local address that an entry or a report gives for a storage address. -/
def shownAddr (a : Addr) : Nat := a % 2 ^ 64

/-- The unit number of R268 that holds a storage address. -/
def unitKind (a : Addr) : Nat :=
  let x := a % 2 ^ 128
  if x < 2 ^ 56 then 6 else if x < 2 ^ 57 then 2 else if x < 2 ^ 58 then 3 else if x < 2 ^ 72 then 10 else 4

/-- The core or cluster that holds a storage address, if it is scratchpad or pool. -/
def addrOwner (a : Addr) : Option (CoreId ⊕ ClusterId) :=
  let pkg := a / 2 ^ 128; let x := a % 2 ^ 128
  if x < 2 ^ 56 then none
  else if x < 2 ^ 57 then let i := (x - 2 ^ 56) / 2 ^ 19; some (.inl ⟨pkg, i / 256, i % 256⟩)
  else if x < 2 ^ 58 then let i := (x - 2 ^ 57) / 2 ^ 23; some (.inr ⟨pkg, i / 32, i % 32⟩)
  else none

def ownerCluster : CoreId ⊕ ClusterId → ClusterId
  | .inl c => c.cluster
  | .inr c => c

/-- The core or cluster in which a storage address lies, the core of a resident file among them. -/
def addrSite (a : Addr) : Option (CoreId ⊕ ClusterId) :=
  let x := a % 2 ^ 128
  if x < 2 ^ 72 then addrOwner a
  else let i := (x - 2 ^ 72) / 2 ^ 54 / 16; some (.inl ⟨a / 2 ^ 128, i / 256 % 4, i % 256⟩)

/-- What a log entry says of the unit that holds a storage address (R268). An address of no die counts with die d0. -/
def siteInfo (s : State) (d0 : DieId) (a : Addr) (kind : Nat) : DieId × McInfo :=
  let pkg := a / 2 ^ 128
  match addrSite a with
  | some (.inl c) => (c.dieId, ⟨0, shownAddr a, unitOwner s pkg c.cluster.unit, unitKind a, kind, c.clusterNum, c.inCluster, none⟩)
  | some (.inr c) => (c.dieId, ⟨0, shownAddr a, unitOwner s pkg c.unit, unitKind a, kind, c.cl, 0, none⟩)
  | none =>
    let x := a % 2 ^ 128
    let v := tget (s.pkg pkg).gown (x / 2 ^ 30) 0
    if x < 2 ^ 39 then (⟨pkg, x / 2 ^ 37⟩, ⟨0, shownAddr a, if bitAt v 63 then wfield v 0 6 else 0xFF, unitKind a, kind, 31, 0, none⟩)
    else (if 2 ^ 58 ≤ x then ⟨pkg, (x - 2 ^ 58) / 2 ^ 22 % 4⟩ else d0, ⟨0, shownAddr a, 0xFF, unitKind a, kind, 31, 0, none⟩)

/-- An entry about a storage address. -/
def logSite (s : State) (d0 : DieId) (a : Addr) (kind : Nat) : State :=
  let (d, m) := siteInfo s d0 a kind
  mcLog s d m

/-- An entry about a storage address that an instruction of a partition concerns. -/
def logAccess (s : State) (d0 : DieId) (p : PartId) (pc : Word) (a : Addr) (kind : Nat) : State :=
  let (d, m) := siteInfo s d0 a kind
  mcLog s d { m with part := p.num, pc := pc.toNat }

/-- A write to a word ends the watches on it (R413). -/
def fireWatches (s : State) (a n : Nat) : State :=
  if s.wk.slots.any fun e => (e.2.thread.bind (·.watch)).isSome then
    { s with wk := { s.wk with slots := s.wk.slots.map fun (t, r) =>
        (t, { r with thread := r.thread.map fun th => { th with watch := th.watch.map fun w =>
          if a < w.addr + 8 ∧ w.addr < a + n then { w with fired := true } else w } }) } }
  else s

/-- A write ends the release tags of the locations that it meets (R213). -/
def clearTags (x : Addr) (n : Nat) (s : State) : State :=
  if s.nt.relTags.isEmpty then s
  else { s with nt := { s.nt with relTags := s.nt.relTags.filter fun g => decide (g.addr + g.n ≤ x ∨ x + n ≤ g.addr) } }

/-- A store: whole granules lose their poison, and a part store into a poisoned granule leaves it poisoned and logs the store's PC
(R167). -/
def storeAt (s : State) (c : CoreId) (p : PartId) (pc : Word) (a n v : Nat) : State :=
  let s := clearTags a n (fireWatches (s.wr a n v) a n)
  if s.poisoned a n then logAccess s c.dieId p pc a 2 else s

/-! ### Translation (R151, R157, R158) -/

/-- Whether a partition owns HBM granule g (R429). -/
def ownsGranule (s : State) (p : PartId) (g : Nat) : Bool :=
  let v := tget (s.pkg p.pkg).gown g 0
  decide (g < 512 ∧ g % 64 ≠ 63) && bitAt v 63 && decide (wfield v 0 6 = p.num)

/-- What a walk answers. -/
inductive Walk where
  | ok (pa log2 : Nat) (rd wr ex : Bool)
  | fail (code level : Nat)
deriving DecidableEq, Repr

/-- Whether a page at a physical address passes check 3 of R158. -/
def pageAllowed (s : State) (p : PartId) (pa log2 : Nat) : Bool :=
  if 2 ^ 47 ≤ pa then true
  else if 2 ^ 39 ≤ pa then false
  else
    let n := if log2 ≤ 30 then 1 else 2 ^ (log2 - 30)
    if n > 512 then false else (nrange (pa / 2 ^ 30) n).all (ownsGranule s p)

/-- One level and those below it, from the table at physical address tbl. -/
def walkFrom (s : State) (p : PartId) (va : Nat) : (left : Nat) → (level tbl : Nat) → Walk
  | 0, level, _ => .fail 2 level
  | left + 1, level, tbl =>
    let log2 := 52 - 12 * level
    let e := s.rd (addrHbm p.pkg (tbl + 8 * field va log2 12)) 8
    if e.testBit 0 = false then .fail 1 level
    else if field e 48 16 ≠ 0 ∨ field e 6 9 ≠ 0 ∨ e.testBit 2 then .fail 2 level
    else if e.testBit 1 then
      let pa := field e 15 33 * 2 ^ 15
      if pa % 2 ^ log2 ≠ 0 then .fail 2 level
      else if pageAllowed s p pa log2 then .ok (pa + va % 2 ^ log2) log2 (e.testBit 3) (e.testBit 4) (e.testBit 5)
      else .fail 3 level
    else if level = 3 then .fail 2 level
    else walkFrom s p va left (level + 1) (field e 15 33 * 2 ^ 15)

/-- The walk of a partition's tables. -/
def walk (s : State) (p : PartId) (va : Nat) : Walk := walkFrom s p va 3 1 (wfield (s.part p).ptroot 15 33 * 2 ^ 15)

/-- The place of the next table in a quadrant's walk caches (R159). -/
def walkHit (l : List WalkEnt) (p : PartId) (level vbase : Nat) : Option Nat :=
  (l.find? fun e => decide (e.part = p ∧ e.level = level ∧ e.vbase = vbase)).map (·.tbl)

/-- A walk through a quadrant's walk caches, with what it leaves in them. -/
def walkVia (s : State) (p : PartId) (va : Nat) : (left : Nat) → (level tbl : Nat) → List WalkEnt → Walk × List WalkEnt
  | 0, level, _, l => (.fail 2 level, l)
  | left + 1, level, tbl, l =>
    match if level < 3 then walkHit l p level (va / 2 ^ (52 - 12 * level)) else none with
    | some next => walkVia s p va left (level + 1) next l
    | none =>
      match walkFrom s p va 1 level tbl with
      | .ok pa log2 r w x => (.ok pa log2 r w x, l)
      | .fail c _ =>
        let e := s.rd (addrHbm p.pkg (tbl + 8 * field va (52 - 12 * level) 12)) 8
        if e.testBit 0 && !e.testBit 1 && !e.testBit 2 && decide (field e 48 16 = 0 ∧ field e 6 9 = 0 ∧ level < 3) then
          let next := field e 15 33 * 2 ^ 15
          walkVia s p va left (level + 1) next (⟨p, level, va / 2 ^ (52 - 12 * level), next⟩ :: l)
        else (.fail c level, l)

/-- What an access needs of its leaf. -/
inductive Need where
  | rd | wr | ex
deriving DecidableEq, Repr

def Need.of : Need → Bool → Bool → Bool → Bool
  | .rd, r, _, _ => r
  | .wr, _, w, _ => w
  | .ex, _, _, x => x

/-- The TLB entry of a virtual address. -/
def tlbFind (l : List TlbEnt) (p : PartId) (va : Nat) : Option TlbEnt :=
  l.find? fun e => decide (e.part = p ∧ va / 2 ^ e.log2 = e.vbase)

/-- A cause with its TADDR and TINFO. -/
def mkTrap (code taddr tinfo : Nat) : TrapRec := ⟨code, false, BitVec.ofNat 64 taddr, BitVec.ofNat 64 tinfo⟩

/-- The physical address of a virtual one, walked at once, or the trap it raises. -/
def walkTo (s : State) (p : PartId) (va : Nat) (n : Need) : Except TrapRec Nat :=
  if 2 ^ 52 ≤ va then .error (mkTrap 4 va 4)
  else match walk s p va with
  | .ok pa _ r w x => if n.of r w x then .ok pa else .error (mkTrap 5 va 0)
  | .fail c l => .error (mkTrap 4 va (c + l * 16))

/-- The same for a unit of a quadrant, which finds what the quadrant's shared TLB holds (R159). -/
def walkAt (s : State) (q : QuadId) (p : PartId) (va : Nat) (n : Need) : Except TrapRec Nat :=
  match tlbFind (s.quad q).stlb p va with
  | some e => if n.of e.rd e.wr e.ex then .ok (e.pbase * 2 ^ e.log2 + va % 2 ^ e.log2) else .error (mkTrap 5 va 0)
  | none => walkTo s p va n

/-! ### Windows -/

/-- The signed window address of a SPACE 3 local address (R143). -/
def waddrOf (a : Word) : Int := signed a.toNat 54

/-- The SPACE 3 local address of a window address. -/
def space3 (a : Int) : Word := BitVec.ofNat 64 (wrap 54 a + 3 * 2 ^ 54)

/-- The SPACE 0 local address of a view offset on a core. -/
def space0 (c : CoreId) (off : Nat) : Word := BitVec.ofNat 64 (off + c.core * 2 ^ 44 + c.die * 2 ^ 52)

/-- Where byte a of a slot's window space stands: the base workspace in the scratchpad, and what lies below it. -/
def windowByte (s : State) (t : ThreadId) (a : Int) : Addr :=
  if a < (slotBase t.ridx : Int) then addrWindow t a
  else
    match s.slice? t.slice with
    | some r =>
      match r.grant? t.core with
      | some g => addrSpad t.core (g.work + (a.toNat - (0x80000 - r.nslots * 0x2400)))
      | none => addrWindow t a
    | none => addrWindow t a

/-- Where byte off of the window at a WSP value stands: window space for SPACE 3, the data range for SPACE 0 (R97). -/
def winByte (s : State) (t : ThreadId) (sl : SliceId) (wsp : Word) (off : Nat) : Addr :=
  if wfield wsp 54 2 = 3 then windowByte s t (waddrOf wsp + off)
  else
    match (s.slice? sl).bind (·.grant? t.core) with
    | some g => addrSpad t.core (g.data + wfield wsp 0 23 + off)
    | none => addrSpad t.core (wfield wsp 0 23 + off)

/-- The local address of byte off of a window. -/
def winLocal (wsp : Word) (off : Nat) : Word :=
  if wfield wsp 54 2 = 3 then space3 (waddrOf wsp + off) else wsp + BitVec.ofNat 64 off

/-- The number of a line of a thread's windows: window-space lines by address, data-range lines above them. -/
def winLine (wsp : Word) : Nat :=
  if wfield wsp 54 2 = 3 then ((waddrOf wsp + 2 ^ 53) / 64).toNat else 2 ^ 60 + wfield wsp 0 23 / 64

/-- Lines of a window: 9,216 bytes (R92). -/
def winLines : Nat := 144

/-- Whether a window is wholly resident (R74). -/
def windowResident (lines : Tab Nat LineSt) (wsp : Word) : Bool :=
  let l := winLine wsp
  decide ((lines.filter fun e => decide (l ≤ e.1 ∧ e.1 < l + winLines) && e.2.resident).length = winLines)

/-- The pieces of n bytes at offset off of a window that lie in one line each: where each starts, and its bytes. -/
def linePieces (off n : Nat) : List (Nat × Nat) :=
  (List.range ((off + n + 63) / 64 - off / 64)).map fun i =>
    let lo := max off ((off / 64 + i) * 64)
    (lo, min (off + n) ((off / 64 + i + 1) * 64) - lo)

/-- Reads n bytes at offset off of a window, line by line where they cross a line. -/
def winRead (s : State) (t : ThreadId) (sl : SliceId) (wsp : Word) (off n : Nat) : Nat :=
  if off % 64 + n ≤ 64 then s.rd (winByte s t sl wsp off) n
  else (linePieces off n).foldr (fun p acc => s.rd (winByte s t sl wsp p.1) p.2 + acc * 2 ^ (8 * p.2)) 0

/-- Writes n bytes at offset off of a window. -/
def winWrite (s : State) (t : ThreadId) (sl : SliceId) (wsp : Word) (off n v : Nat) : State :=
  if off % 64 + n ≤ 64 then s.wr (winByte s t sl wsp off) n v
  else (linePieces off n).foldl (fun s p => s.wr (winByte s t sl wsp p.1) p.2 (field v (8 * (p.1 - off)) (8 * p.2))) s

/-- Whether any of n bytes of a window is poisoned. -/
def winPoisoned (s : State) (t : ThreadId) (sl : SliceId) (wsp : Word) (off n : Nat) : Bool :=
  if s.st.poison.isEmpty then false
  else if off % 64 + n ≤ 64 then s.poisoned (winByte s t sl wsp off) n
  else (linePieces off n).any fun p => s.poisoned (winByte s t sl wsp p.1) p.2

end Sys2Proof.Machine
end

