-- ==== Sys2Proof/Machine/Ops.lean ====
section
/-!
DEFINITION. Sys2Proof/Machine/Ops.lean: what instructions share. How a meaning runs and stops; the executing thread, its window and
control block; guards; futures; watchpoints; the target check; taking a trap (R259); and issuing and completing an instruction.
-/
namespace Sys2Proof.Machine

/-! ### Running a meaning -/

/-- What a thread that begins its instruction again leaves behind where it waits. -/
inductive Enrol where
  | miss (q : QuadId) (p : PartId) (va : Nat)   -- a place in a quadrant's miss table (R159)
  | bank (w : BankWait)                         -- a place in a granule's order (R149)
  | withheld (w : Withheld)                     -- an acquire withheld at the point of coherence (R213)
deriving DecidableEq, Repr

/-- How a meaning ends when it does not complete. -/
inductive Stop where
  | trap (r : TrapRec)          -- a precise trap: nothing else is changed (R11)
  | trapKeep (r : TrapRec)      -- a precise trap after a partial effect its entry names (R164)
  | park (k : ParkKind)         -- the instruction waits and begins again (R9, R91)
  | register (h : Word)         -- a marked register's future is pending (R44)
  | hold                        -- the instruction is not ready (R71, R84)
  | wait (ph : Phase)           -- the thread waits in a phase that a unit's step ends; what was done stays
  | enrol (e : Enrol) (ph : Phase)   -- it waits, and nothing else is changed: no source is consumed (R91)
  | fault (f : Fault)
deriving DecidableEq, Repr

/-- A meaning: it changes the state, or stops. -/
abbrev Exec := EStateM Stop State

/-- Where the thread goes on. -/
inductive Flow where
  | seq                         -- at the next slot (R79)
  | goto (pc : Word)
  | gone                        -- the thread has left its slot
deriving DecidableEq, Repr

def trapWith {α : Type} (r : TrapRec) : Exec α := throw (.trap r)
def trapAt {α : Type} (code taddr tinfo : Nat) : Exec α := throw (.trap (mkTrap code taddr tinfo))
def permTrap {α : Type} (taddr : Word) (tinfo : Nat := 0) : Exec α := trapAt 5 taddr.toNat tinfo
def alignTrap {α : Type} (taddr : Word) : Exec α := trapAt 6 taddr.toNat 0
def parkMemory {α : Type} : Exec α := throw (.park .memory)
def parkMessage {α : Type} : Exec α := throw (.park .message)
def need (b : Bool) (e : Stop) : Exec Unit := if b then pure () else throw e

/-- The value of an option, or the stop given. -/
def orStop {α : Type} (o : Option α) (e : Stop) : Exec α :=
  match o with
  | some x => pure x
  | none => throw e

def orTrap {α : Type} (o : Except TrapRec α) : Exec α :=
  match o with
  | .ok x => pure x
  | .error r => throw (.trap r)

/-- The illegal-instruction trap of a word, with its opcode and form in TINFO<47:32> (R102). -/
def illegalOf (i : Instr) : TrapRec :=
  match i.toRaw? with
  | some r => mkTrap 1 0 ((r.op + r.form * 1024) * 2 ^ 32)
  | none => mkTrap 1 0 0

/-! ### The executing thread -/

def me : Exec ThreadId := do
  match (← get).cur with
  | .thread t => pure t
  | _ => throw (.fault .noThread)

def thr : Exec Thread := do
  match (← get).thread? (← me) with
  | some th => pure th
  | none => throw (.fault .noThread)

def ctl : Exec Ctl := do return (← thr).ctl
def modT (f : Thread → Thread) : Exec Unit := do
  let t ← me
  modify fun s => s.modThread t f
def modCtl (f : Ctl → Ctl) : Exec Unit := modT fun th => { th with ctl := f th.ctl }
def myCore : Exec CoreId := do return (← me).core
def myPart : Exec PartId := do return (← ctl).slice.part

/-- The slice whose work the thread is (R37). -/
def mySlice : Exec SliceRec := do
  match (← get).slice? (← ctl).slice with
  | some r => pure r
  | none => throw (.fault .noThread)

/-- The slice that reserved the thread's slot. -/
def slotSlice : Exec SliceRec := do
  match (← get).slice? (← me).slice with
  | some r => pure r
  | none => throw (.fault .noThread)

def mySlot : Exec SlotRec := do
  match (← get).slot? (← me) with
  | some r => pure r
  | none => throw (.fault .noThread)

/-- A fresh operation number. -/
def newOp : Exec Nat := do
  let n := (← get).opId
  modify fun s => { s with opId := n + 1 }
  return n

/-- A fresh number for a free value. -/
def newFree : Exec Nat := do
  let n := (← get).free
  modify fun s => { s with free := n + 1 }
  return n

/-! ### Window and control block (R92, R93) -/

/-- Offsets in a workspace. -/
def offW (n : Nat) : Nat := 8 * n
def offPcsave : Nat := 0x200
def offMarks : Nat := 0x208
def offVtags : Nat := 0x210
def offAtags : Nat := 0x220
def offGuards : Nat := 0x222
def offFpcr : Nat := 0x223
def offFpsr : Nat := 0x224
def offStatus : Nat := 0x228
def offProv : Nat := 0x230
def offTpc : Nat := 0x240
def offTcause : Nat := 0x248
def offTaddr : Nat := 0x250
def offTinfo : Nat := 0x258
def offCaller : Nat := 0x260
def offFrame : Nat := 0x268
def offBook : Nat := 0x270
def offExtBase : Nat := 0x278
def offExtSize : Nat := 0x280
def offMcbA : Nat := 0x2A0
def offMcbB : Nat := 0x2C0
def offVcb : Nat := 0x2E0
def offM (n : Nat) : Nat := 0x300 + 32 * n
def offV (n : Nat) : Nat := 0x400 + 256 * n

/-- A thread's view of n bytes at an offset of a window. -/
def threadRead (s : State) (t : ThreadId) (c : Ctl) (wsp : Word) (off n : Nat) : Nat := winRead s t c.slice wsp off n
def threadWrite (s : State) (t : ThreadId) (c : Ctl) (wsp : Word) (off n v : Nat) : State := winWrite s t c.slice wsp off n v

/-- Reads the active window; a poisoned line traps with the address of what was read (R167). -/
def rdWin (off n : Nat) : Exec Nat := do
  let t ← me; let c ← ctl; let s ← get
  if winPoisoned s t c.slice c.wsp off n then trapAt 11 (winLocal c.wsp off).toNat 0
  return threadRead s t c c.wsp off n

def wrWin (off n v : Nat) : Exec Unit := do
  let t ← me; let c ← ctl
  modify fun s => threadWrite s t c c.wsp off n v

/-- Whether an operation under way will write register n of the window at wsp (R71). -/
def regPending (s : State) (t : ThreadId) (wsp : Word) (n : Nat) : Bool :=
  let c := s.core t.core
  let hits := fun (o : LongOp) => decide (o.t = t ∧ o.wsp = wsp) && o.regs.any fun r => decide (r.1 = n)
  c.gcd.any hits || c.div.any hits || s.tl.answers.any hits || s.tl.vnet.any fun m => decide (m.t = t ∧ m.wsp = wsp) &&
    (match m.kind with
     | .nqry d => decide (d = n)
     | _ => false)

/-- The matrix operations of a core under way. -/
def CoreRec.matOps (c : CoreRec) : List MatOp := c.mqueue ++ c.peeks

/-- Whether a matrix operation under way will write vector register n (R369). -/
def vregPending (s : State) (t : ThreadId) (wsp : Word) (n : Nat) : Bool :=
  (s.core t.core).matOps.any fun o => decide (o.t = t) &&
    (match o.op with
     | .rowOut _ _ _ w v => decide (w = wsp ∧ v = n)
     | .peekRow _ _ w v => decide (w = wsp ∧ v = n)
     | _ => false)

/-- Whether an operation under way will write guard g. -/
def guardPending (s : State) (t : ThreadId) (wsp : Word) (g : Nat) : Bool :=
  let c := s.core t.core
  let hits := fun (o : LongOp) => decide (o.t = t ∧ o.wsp = wsp) &&
    (match o.guard with
     | some (n, _) => decide (n = g ∧ g ≠ 0)
     | none => false)
  c.gcd.any hits || c.div.any hits || s.tl.answers.any hits ||
  (s.tl.vnet ++ s.tl.retries).any fun m => decide (m.t = t ∧ m.wsp = wsp) &&
    (match m.kind with
     | .nrel n => decide (n = g ∧ g ≠ 0)
     | .ndrop n => decide (n = g ∧ g ≠ 0)
     | .naband n => decide (n = g ∧ g ≠ 0)
     | _ => false)

/-- The bits of a general register, and its handle mark (R42). -/
def regBits (n : Nat) : Exec Word := do
  let t ← me; let c ← ctl; let s ← get
  if regPending s t c.wsp n then throw .hold
  return BitVec.ofNat 64 (← rdWin (offW n) 8)

def regMark (n : Nat) : Exec Bool := do return (← rdWin offMarks 8).testBit n

/-- A number with bit n set or cleared. -/
def putBit (x n : Nat) (b : Bool) : Nat := x - x / 2 ^ n % 2 * 2 ^ n + bit b * 2 ^ n

def setMark (n : Nat) (b : Bool) : Exec Unit := do
  let t ← me; let c ← ctl
  modify fun s =>
    let m := threadRead s t c c.wsp offMarks 8
    if m.testBit n = b then s else threadWrite s t c c.wsp offMarks 8 (putBit m n b)

/-- Writes a general register and clears its mark (R42). -/
def wrReg (n : Reg) (v : Word) : Exec Unit := do
  wrWin (offW n.val) 8 v.toNat
  setMark n.val false

/-- Writes a handle and sets the register's mark (R42, R307). -/
def wrHandle (n : Reg) (v : Word) : Exec Unit := do
  wrReg n v
  setMark n.val true

def guardBits : Exec Nat := rdWin offGuards 1

/-- Guard g; g0 reads true (R86, R93). -/
def rdGuard (g : Nat) : Exec Bool := do
  if g = 0 then return true
  let t ← me; let c ← ctl; let s ← get
  if guardPending s t c.wsp g then throw .hold
  return (← guardBits).testBit g

/-- Writes guard g; a write to g0 is discarded (R306). -/
def wrGuard (g : Nat) (b : Bool) : Exec Unit := do
  if g = 0 then return
  wrWin offGuards 1 (putBit (← guardBits) g b)

def setGuard (gd : BitVec 3) (b : Bool) : Exec Unit := wrGuard gd.toNat b

/-- The instruction's guard (R86). -/
def guardTrue (h : Hdr) : Exec Bool := do
  let a ← rdGuard (h.ga.toNat % 8)
  let b ← rdGuard (h.gb.toNat % 8)
  let a := a != h.ga.getLsbD 3
  let b := b != h.gb.getLsbD 3
  return if h.gc then a || b else a && b

/-! ### Provisional sets (R194) -/

/-- The roots in a PROVSET word. -/
def provRoots (w : Nat) : List Nat :=
  (List.range 4).filterMap fun i => if field w (16 * i + 15) 1 = 1 then some (field w (16 * i) 8) else none

/-- A PROVSET word that holds up to four roots. -/
def provWord (l : List Nat) : Nat := pack (l.take 4 |>.map fun r => (16, r + 0x8000))

def threadProv (s : State) (t : ThreadId) (c : Ctl) : Nat := threadRead s t c c.wsp offProv 8
def myRoots : Exec (List Nat) := do return provRoots (threadProv (← get) (← me) (← ctl))
def setRoots (l : List Nat) : Exec Unit := wrWin offProv 8 (provWord l)

/-- The partition that holds the root table of p: ROOTHOME names its package (R194, R295). -/
def rootHome (s : State) (p : PartId) : PartId :=
  let v := (s.part p).roothome
  if bitAt v 63 then ⟨wfield v 0 8, p.num⟩ else p

def rootState (s : State) (p : PartId) (n : Nat) : RootSt := tget (s.part (rootHome s p)).roots n .free

/-- A provisional thread waits until every root of its set is Confirmed (R196). -/
def waitConfirmed : Exec Unit := do
  let s ← get; let p ← myPart
  if (← myRoots).any fun n => rootState s p n ≠ .confirmed then parkMemory

/-! ### The abort line (R48) -/

def abortRaised (s : State) (t : ThreadId) (c : Ctl) : Bool :=
  match s.slice? c.slice with
  | some r => r.abort.contains t.core.cluster
  | none => false

/-- A sampling point. -/
def sampleAbort : Exec Unit := do
  let c ← ctl
  if abortRaised (← get) (← me) c && !c.abmask then trapAt 17 0 0

/-! ### Watchpoints (R292) -/

/-- The watchpoint, lowest first, that an access to n bytes from a hits on a core. -/
def watchFind (s : State) (c : CoreId) (a n : Nat) (write remote : Bool) : Option (Nat × WpRec) :=
  ((List.range 4).filterMap fun i => ((s.core c).wps[i]?).map fun w => (i, w)).find? fun (_, w) =>
    bitAt w.ctl 63 && bitAt w.ctl (if write then 1 else 0) && bitAt w.ctl (if remote then 3 else 2) &&
    (match w.loc with
     | some l => decide (a < l + 8 ∧ l < a + n)
     | none => false)

/-- Asks a cluster's debug module for a stop (R286). A request that meets another on its way is part of it. -/
def requestStop (s : State) (c : ClusterId) : State :=
  let d := (s.cluster c).dm
  if d.stopped then s.modCluster c fun r => { r with dm := { r.dm with trigIgn := true } }
  else if d.req then s
  else
    let s := s.modCluster c fun r => { r with dm := { r.dm with req := true } }
    { s with wk := { s.wk with slots := s.wk.slots.map fun (t, r) =>
        if t.core.cluster = c then
          (t, { r with thread := r.thread.map fun th =>
            { th with skid := BitVec.ofNat 64 ((d.stopSeq + 1) % 65536 * 2 ^ 48 +
                bit (!(th.outPre || th.outBudget || th.outDebug)) * 4) } })
        else (t, r) } }

/-- An access to scratchpad is seen by the watchpoints of the core that holds it. The answer is the trap for the accessing thread
under ACT 0. -/
def watchAccess (s : State) (acc : Option ThreadId) (p : PartId) (a n : Nat) (write remote : Bool) : Option TrapRec × State :=
  match addrOwner a with
  | some (.inl c) =>
    match watchFind s c a n write remote with
    | none => (none, s)
    | some (i, w) =>
      let who := match acc with
        | some t => eventSrc t.core.die t.core.core (slotNo s t)
        | none => eventSrc c.die 0xFF 0xF
      let shown := w.addr.toNat + a - w.loc.getD a
      let prov := match acc.bind fun t => (s.thread? t).map fun th => provRoots (threadProv s t th.ctl) with
        | some l => !l.isEmpty
        | none => false
      let s := raiseEvent s c.dieId c.core 0xF p 6 prov [i + bit remote * 4, shown % 2 ^ 32, who]
      match wfield w.ctl 4 2 with
      | 0 => (acc.map fun _ => mkTrap 18 w.addr.toNat (i + bit remote * 4), s)
      | 1 => (none, requestStop s c.cluster)
      | _ => (none, s)
  | _ => (none, s)

/-- A trap that a thread takes at the boundary after its instruction. -/
def dueAfter (s : State) (t : ThreadId) (r : Option TrapRec) : State :=
  match r with
  | none => s
  | some r => s.modThread t fun th => { th with due := { th.due with after := th.due.after.orElse fun _ => some r } }


/-- An access of an engine: its hits raise no trap. -/
def engWatch (s : State) (p : PartId) (a n : Nat) (write remote : Bool) : State := (watchAccess s none p a n write remote).2

/-- An access of a thread, whose trap comes at the boundary after its instruction. -/
def threadWatch (s : State) (t : ThreadId) (p : PartId) (a n : Nat) (write : Bool) : State :=
  let (r, s) := watchAccess s (some t) p a n write (addrOwner a != some (.inl t.core))
  dueAfter s t r

/-- An access of the executing thread as watchpoints see it. -/
def watchMine (a n : Nat) (write : Bool) : Exec Unit := do
  let t ← me; let p ← myPart
  modify fun s => threadWatch s t p a n write

/-! ### Futures (R41 to R45) -/

def fsState (w : Nat) : Nat := w % 8
def fsGen (w : Nat) : Nat := field w 8 8
def fsCount (w : Nat) : Nat := field w 16 16
def fsResult (w : Nat) : Nat := field w 32 32
def fsWord (st gen count result : Nat) : Nat := pack [(3, st), (5, 0), (8, gen), (16, count), (32, result)]

/-- The cluster whose watch directory serves a state word. -/
def wordCluster (a : Addr) : ClusterId :=
  match addrOwner a with
  | some o => ownerCluster o
  | none => ⟨a / 2 ^ 128, 0, 0⟩

/-- What a registration does (R43, R45). -/
inductive Registration where
  | satisfied | waiting | polling
deriving DecidableEq, Repr

def futRegister (s : State) (c : CoreId) (a : Addr) (gen : Nat) : Registration × State :=
  let w := s.rd a 8
  if fsState w ≠ 1 ∨ fsGen w ≠ gen then (.satisfied, s)
  else if fsCount w = 0xFFFF then (.polling, s)
  else
    let s := s.wr a 8 (fsWord 1 gen (fsCount w + 1) (fsResult w))
    let cl := wordCluster a
    let dir := (s.cluster cl).watchDir
    match tfind dir a with
    | some l => (.waiting, s.modCluster cl fun r => { r with watchDir := tput dir a (if l.contains c then l else l ++ [c]) })
    | none =>
      if dir.length < 256 then (.waiting, s.modCluster cl fun r => { r with watchDir := tput dir a [c] })
      else (.polling, s)

/-- A word leaves Pending: its directory entry sends one wake to every core and is freed (R45). -/
def futWake (s : State) (a : Addr) : State :=
  let cl := wordCluster a
  let cores := tget (s.cluster cl).watchDir a []
  let s := s.modCluster cl fun r => { r with watchDir := tdel r.watchDir a }
  { s with nt := { s.nt with wakes := s.nt.wakes ++ cores.map fun c => ⟨c, a⟩ } }

/-- What a resolve, a fault or a cancel meets (R43). -/
inductive Meeting where
  | done | double | discarded
deriving DecidableEq, Repr

/-- Resolve (2) or fault (3) with a result. -/
def futResolve (s : State) (a : Addr) (gen st result : Nat) : Meeting × State :=
  let w := s.rd a 8
  if fsGen w = gen ∧ fsState w = 1 then (.done, futWake (s.wr a 8 (fsWord st gen 0 result)) a)
  else if fsGen w = gen ∧ (fsState w = 2 ∨ fsState w = 3) then (.double, s)
  else
    let cl := wordCluster a
    (.discarded, counterEvent (s.modCluster cl fun r => { r with discarded := r.discarded + 1 }) cl 0xFF 1 (s.cluster cl).discarded 1)

/-- What RESULT holds when a cause faults a future (R264). -/
def faultResult (r : TrapRec) : Nat := r.code + r.tinfo.toNat % 256 * 256

/-- An engine resolves its future. A double resolve changes nothing and is recorded against the operation, under its handle (R43). -/
def engResolve (s : State) (f : Fut) (st result : Nat) : State :=
  let (m, s) := futResolve s f.addr f.gen st result
  let s := engWatch s f.slice.part f.addr 8 true true
  if m = .double then s.modCluster (wordCluster f.addr) fun r => { r with doubled := r.doubled ++ [f.handle] } else s

/-- The thread's view of a handle or a location (R42): a permission trap where it names no state word. -/
def handleAddr (h : Word) : Exec Addr := do
  let c ← ctl
  orStop (resolveHandle (← get) (← myCore) c.slice h) (.trap (mkTrap 5 h.toNat 0))

/-- The check of a source's handle fields (R103 step 5). -/
def checkHandle (n : Nat) : Exec Unit := do
  if ← regMark n then
    let _ ← handleAddr (← regBits n)

/-- The plain lines of a core's L1 are dropped, and those of tiles stay: what an acquire and the second event of a synchronisation on path P do (R152, R208). -/
def dropL1 (core : CoreId) (s : State) : State := s.modCore core fun r => { r with l1 := r.l1.filter (·.tile.isSome) }

/-- A thread learns on path P of what happened before (R207): it sees no older lines, and its later releases stand behind the stores that
its core has queued. -/
def syncP (t : ThreadId) (s : State) : State := (dropL1 t.core s).modThread t fun th => { th with seen := s.opId }

/-- A marked register whose future is pending parks the thread on it (R44). -/
def futureThere (n : Nat) : Exec Unit := do
  if ← regMark n then
    let v ← regBits n
    let w := (← get).rd (← handleAddr v) 8
    if fsGen w = handleGen v ∧ fsState w = 1 then throw (.register v)

/-- Reads a register as a data source: a marked one is resolved first (R44), and what stands behind a Resolved future is seen (R208). -/
def rdReg (n : Nat) : Exec Word := do
  let v ← regBits n
  if !(← regMark n) then return v
  let a ← handleAddr v
  let w := (← get).rd a 8
  let r : Word ←
    if fsGen w ≠ handleGen v then pure (BitVec.allOnes 64)
    else match fsState w with
    | 1 => throw (.register v)
    | 2 => do
      modify (syncP (← me))
      pure (BitVec.ofNat 64 (fsResult w))
    | 3 => throw (.trap (mkTrap (fsResult w % 256) 0 v.toNat))
    | _ => pure (BitVec.allOnes 64)
  watchMine a 8 false
  wrWin (offW n) 8 r.toNat
  setMark n false
  return r

/-- Creation of a future (R43): the new handle. -/
def futCreate (loc : Word) (a : Addr) : Exec (Fut × Word) := do
  let w := (← get).rd a 8
  if fsState w = 1 ∨ fsCount w ≠ 0 then trapAt 12 loc.toNat 1
  let g := (fsGen w + 1) % 256
  modify fun s => s.wr a 8 (fsWord 1 g 0 0)
  watchMine a 8 true
  let h : Word := (loc &&& (0x00FFFFFFFFFFFFFF : Word)) ||| BitVec.ofNat 64 (g * 2 ^ 56)
  return (⟨a, g, h, (← ctl).slice⟩, h)

/-! ### Translation by a thread (R158, R159) -/

/-- Adds a requester to its quadrant's miss table, which holds 256 entries: a later miss of the page joins the entry. -/
def enterMiss (s : State) (q : QuadId) (p : PartId) (va : Nat) (t : ThreadId) : State :=
  let m := (s.quad q).miss
  if m.any fun e => decide (e.part = p ∧ e.va / 2 ^ 16 = va / 2 ^ 16) then
    s.modQuad q fun r => { r with miss := m.map fun e =>
      if e.part = p ∧ e.va / 2 ^ 16 = va / 2 ^ 16 then { e with waiters := e.waiters ++ [t] } else e }
  else if m.length < 256 then s.modQuad q fun r => { r with miss := m ++ [⟨p, va, [t]⟩] }
  else s

/-- Takes a thread's place where it waits. -/
def enrolIn (s : State) (t : ThreadId) : Enrol → State
  | .miss q p va => enterMiss s q p va t
  | .bank w => if s.nt.bankWait.contains w then s else { s with nt := { s.nt with bankWait := s.nt.bankWait ++ [w] } }
  | .withheld w => if s.nt.withheld.any fun x => decide (x.t = w.t) then s else { s with nt := { s.nt with withheld := s.nt.withheld ++ [w] } }

/-- The physical address for an access of the executing thread. A miss of both TLBs parks it until the walk is done; a walk that
failed traps when the instruction begins again. -/
def translate (va : Word) (n : Need) : Exec Nat := do
  let t ← me; let th ← thr; let p := th.ctl.slice.part
  if 2 ^ 52 ≤ va.toNat then trapAt 4 va.toNat 4
  let perm := fun (e : TlbEnt) => do
    if !n.of e.rd e.wr e.ex then permTrap va
    return e.pbase * 2 ^ e.log2 + va.toNat % 2 ^ e.log2
  let s ← get
  match tlbFind (s.core t.core).tlb p va.toNat with
  | some e => perm e
  | none =>
    match tlbFind (s.quad t.core.quad).stlb p va.toNat with
    | some e =>
      modify fun s => s.modCore t.core fun r => { r with tlb := (e :: r.tlb).take 512 }
      perm e
    | none =>
      match th.due.walkFail with
      | some f => if f.page = va.toNat / 2 ^ 16 then trapAt 4 va.toNat (f.code + f.level * 16)
      | none => pure ()
      throw (.enrol (.miss t.core.quad p va.toNat) .walk)

/-! ### The target check (R80) -/

/-- The line word of the line at a physical address. -/
def lineWordAt (s : State) (pkg pa : Nat) : Nat := s.rd (addrHbm pkg (pa / 64 * 64 + 60)) 4

def targetCheck (s : State) (p : PartId) (pc : Word) : Except TrapRec Unit :=
  if wfield pc 3 3 ≠ 0 ∨ wfield pc 0 3 > 4 then .error (mkTrap 2 pc.toNat 0)
  else match walkTo s p pc.toNat .ex with
  | .error r => .error r
  | .ok pa => if lineTgt (lineWordAt s p.pkg pa) (wfield pc 0 3) then .ok () else .error (mkTrap 2 pc.toNat 0)

/-! ### Taking a trap (R259, R260) -/

/-- STATUS of a thread (R94). -/
def statusWord (th : Thread) : Nat :=
  let c := th.ctl
  pack [(1, bit c.abmask), (1, bit c.priv), (1, bit c.intrap), (1, bit th.openMsg.isSome), (1, bit c.repBnd), (6, 0),
    (1, bit c.rep.isSome), (4, match c.rep with | some r => r.idx | none => 0)]

/-- The physical accumulator bound to a slice's logical one on a core, or the one that still holds it until it is saved (R64, R226). -/
def accPhys (s : State) (c : CoreId) (sl : SliceId) (n : Nat) : Option Nat :=
  ((s.nt.saving.find? fun o => decide (o.acc = ⟨c, sl, n⟩)).map (·.phys)).orElse fun _ =>
    (((s.slice? sl).bind (·.grant? c)).bind (·.accs[n]?)).join

/-- The tags of a slice's accumulators on a core, as ATAGS holds them (R93, R114). -/
def accTags (s : State) (c : CoreId) (sl : SliceId) : Nat :=
  pack ((List.range 4).map fun n => (4, match accPhys s c sl n with
    | some p => ((tfind (s.core c).accs p).map (·.tag)).getD 0
    | none => 0))

/-- A handler's store into ATAGS reaches the accumulators' tags (R115). -/
def setAccTags (s : State) (c : CoreId) (sl : SliceId) (v : Nat) : State :=
  (List.range 4).foldl (fun s n =>
    match accPhys s c sl n with
    | some p => s.modCore c fun r => { r with accs := tupd r.accs p ⟨0, 0⟩ fun a => { a with tag := field v (4 * n) 4 } }
    | none => s) s

/-- The accumulators' tags as a thread finds them: its handler reads those of its own workspace (R259). -/
def tagsOf (s : State) (t : ThreadId) (c : Ctl) : Nat :=
  if c.intrap then threadRead s t c c.wsp offAtags 2 else accTags s t.core c.slice

/-- PCSAVE, STATUS and ATAGS take their values when the thread stops running (R93). -/
def saveControl (s : State) (t : ThreadId) : State :=
  match s.thread? t with
  | none => s
  | some th =>
    let s := threadWrite s t th.ctl th.ctl.wsp offAtags 2 (tagsOf s t th.ctl)
    let s := threadWrite s t th.ctl th.ctl.wsp offPcsave 8 th.ctl.pc.toNat
    threadWrite s t th.ctl th.ctl.wsp offStatus 8 (statusWord th)

def causeWord (r : TrapRec) (nested : Bool) : Nat := r.code + bit r.deferred * 2 ^ 8 + bit nested * 2 ^ 9

def Thread.isOut (th : Thread) : Bool := th.outPre || th.outBudget || th.outDebug

/-- An instruction that ends while its thread is out leaves the thread's control state saved (R93). -/
def saveOut (s : State) (t : ThreadId) : State :=
  match s.thread? t with
  | some th => if th.isOut then saveControl s t else s
  | none => s

/-- Drops what is due of the instruction that trapped. -/
def Thread.settled (th : Thread) : Thread :=
  { th with phase := .ready, charged := false, again := false, watch := none, boWait := none, sampled := false, shape := none, stage := none, due := { th.due with walkFail := none } }

/-- An unhandled trap: the task ends by fault, under R267. -/
def endByFault (s : State) (t : ThreadId) (r : TrapRec) : State :=
  let s := saveControl s t
  s.modThread t fun th =>
    { th.settled with
      phase := .ending
      endCause := some ⟨th.ctl.pc, BitVec.ofNat 64 (causeWord r th.ctl.intrap), r.taddr, r.tinfo⟩ }

/-- The handler workspace H of a thread: EN set and all of it in the slice's data range (R260). -/
def handlerAt (s : State) (c : Ctl) : Option Nat :=
  let h := wfield c.twsp 6 17 * 64
  match s.slice? c.slice with
  | some r => if bitAt c.twsp 63 && r.inData h 0x2400 then some h else none
  | none => none

/-- Writes the trap record of the interrupted window and the handler's chain header, PROVSET and overflow table (R259 steps 1 to 3). All
else of the handler's state is read from its workspace. -/
def writeTrapRecord (s : State) (t : ThreadId) (c : Ctl) (w : Word) (r : TrapRec) : State :=
  let s := saveControl s t
  let s := threadWrite s t c c.wsp offTpc 8 c.pc.toNat
  let s := threadWrite s t c c.wsp offTcause 8 (causeWord r false)
  let s := threadWrite s t c c.wsp offTaddr 8 r.taddr.toNat
  let s := threadWrite s t c c.wsp offTinfo 8 r.tinfo.toNat
  let s := threadWrite s t c w offCaller 8 c.wsp.toNat
  let s := threadWrite s t c w offFrame 8 0
  let s := threadWrite s t c w offProv 8 (threadRead s t c c.wsp offProv 8)
  threadWrite s t c w offBook 8 (s.part c.slice.part).ovdef.toNat

/-- Taking a precise trap at the thread's PC. -/
def takeTrap (t : ThreadId) (r : TrapRec) (s : State) : State :=
  match s.thread? t with
  | none => s
  | some th =>
    let c := th.ctl
    if c.intrap then endByFault s t r
    else match handlerAt s c with
    | none => endByFault s t r
    | some h =>
      let w := space0 t.core h
      let s' := writeTrapRecord s t c w r
      let pc : Word := BitVec.ofNat 64 (threadRead s' t c w (offW 62) 8)
      match targetCheck s' c.slice.part pc with
      | .error _ => endByFault s t r
      | .ok () =>
        s'.modThread t fun th =>
          { th.settled with
            due := { th.settled.due with violations := [], kept := th.due.kept ++ th.due.violations, after := none }
            ctl := { th.ctl with wsp := w, hwsp := w, pc := pc, intrap := true, rep := none, repBnd := false, first := false } }

/-! ### Outstanding operations (R84) -/

/-- How many operations of a class the thread has outstanding: 0 copies and copy-reductions, 1 posted tile operations and
subscriptions, 2 matrix operations, 3 operations of the GCD unit and the divider. -/
def outstanding (s : State) (t : ThreadId) (gen : Nat) (cls : Nat) : Nat :=
  let c := s.core t.core
  let n {α : Type} (l : List α) (f : α → Bool) : Nat := (l.filter f).length
  match cls with
  | 0 =>
    n ((s.cluster t.core.cluster).copies) (fun x => decide (x.t = t ∧ x.gen = gen)) +
    n s.nt.contribs (fun x => decide (x.t = t ∧ x.gen = gen) && !x.resolveOff) + n s.nt.boarrs (fun x => decide (x.t = t ∧ x.tgen = gen))
  | 1 =>
    (match s.thread? t with | some th => th.nsts.length | none => 0) +
    n (s.tl.vnet ++ s.tl.retries) (fun m => decide (m.t = t ∧ m.gen = gen) &&
      (match m.kind with
       | .nst .. => false
       | .nld .. => false
       | _ => true)) +
    n s.tl.subs (fun x => decide (x.t = t ∧ x.gen = gen)) + n s.tl.answers (fun x => decide (x.t = t))
  | 2 => n c.matOps fun o => decide (o.t = t ∧ o.gen = gen)
  | _ => n c.gcd (fun o => decide (o.t = t)) + n c.div fun o => decide (o.t = t)

/-- The generation of a thread's slot. -/
def slotGen (s : State) (t : ThreadId) : Nat :=
  match s.slot? t with
  | some r => r.gen
  | none => 0

def myGen : Exec Nat := do return slotGen (← get) (← me)

/-- The wait of the scheduling-control fields: not ready while too many operations are outstanding. -/
def checkWait (h : Hdr) : Exec Unit := do
  match h.wait with
  | none => pure ()
  | some w =>
    let t ← me; let s ← get
    if outstanding s t (slotGen s t) w.cls.toNat > w.cnt.toNat then throw .hold

/-! ### Completing an instruction -/

/-- The rest of a REP's iteration boundary: the count falls, the index rises, and the body begins again or is left (R221). -/
def boundaryStep (s : State) (t : ThreadId) (c : Ctl) (r : RepState) : State :=
  let unmark := fun (s : State) (n : Nat) =>
    let m := threadRead s t c c.wsp offMarks 8
    if m.testBit n then threadWrite s t c c.wsp offMarks 8 (putBit m n false) else s
  let wc := wrap 64 ((threadRead s t c c.wsp (offW r.wc.val) 8 : Int) - 1)
  let s := unmark (threadWrite s t c c.wsp (offW r.wc.val) 8 wc) r.wc.val
  let wi := (threadRead s t c c.wsp (offW r.wi.val) 8 + 1) % 2 ^ 64
  let s := unmark (threadWrite s t c c.wsp (offW r.wi.val) 8 wi) r.wi.val
  if wc ≠ 0 then
    s.modThread t fun th =>
      { th.settled with ctl := { th.ctl with pc := slotAdd r.pc 1, rep := some { r with idx := 0 }, repBnd := false } }
  else
    s.modThread t fun th =>
      { th.settled with ctl := { th.ctl with pc := slotAdd r.pc (r.len + 1), rep := none, repBnd := false } }

/-- A REP's iteration boundary: it waits for operations that will write wC or wI (R71), and the abort line is sampled first (R48, R221). -/
def boundary (s : State) (t : ThreadId) : State :=
  match s.thread? t with
  | none => s
  | some th =>
    match th.ctl.rep with
    | none => s
    | some r =>
      if regPending s t th.ctl.wsp r.wc.val || regPending s t th.ctl.wsp r.wi.val then
        s.modThread t fun th => { th.settled with ctl := { th.ctl with repBnd := true } }
      else if abortRaised s t th.ctl && !th.ctl.abmask then
        takeTrap t (mkTrap 17 0 0) (s.modThread t fun th => { th with ctl := { th.ctl with repBnd := true } })
      else boundaryStep s t th.ctl r

/-- Takes the trap that is due after the thread's instruction, if any. -/
def takeAfter (s : State) (t : ThreadId) : State :=
  match (s.thread? t).bind (·.due.after) with
  | none => s
  | some r => takeTrap t r (s.modThread t fun th => { th with due := { th.due with after := none } })

/-- While a stop is on its way, an instruction counts in the thread's SKID (R289). -/
def countSkid (s : State) (t : ThreadId) : State :=
  if (s.cluster t.core.cluster).dm.req then
    s.modThread t fun th => if bitAt th.skid 2 ∧ wfield th.skid 0 2 < 3 then { th with skid := th.skid + 1 } else th
  else s

/-- An instruction of thread t completes. -/
def retire (t : ThreadId) (eog : Bool) (f : Flow) (s : State) : State :=
  match s.thread? t with
  | none => s
  | some th =>
    let s := countSkid s t
    match f with
    | .gone => s
    | .goto pc => takeAfter (s.modThread t fun th => { th.settled with ctl := { th.ctl with pc := pc, first := false } }) t
    | .seq =>
      match th.ctl.rep with
      | none =>
        takeAfter (s.modThread t fun th =>
          { th.settled with ctl := { th.ctl with pc := slotAdd th.ctl.pc 1, first := false } }) t
      | some r =>
        if eog then
          if th.due.after.isSome then
            takeAfter (s.modThread t fun th => { th.settled with ctl := { th.ctl with repBnd := true } }) t
          else boundary s t
        else
          takeAfter (s.modThread t fun th =>
            { th.settled with ctl := { th.ctl with pc := slotAdd th.ctl.pc 1, rep := some { r with idx := r.idx + 1 } } }) t

/-- The phases whose end lets the instruction issue again (R9). -/
def Phase.reissues : Phase → Bool
  | .parked _ => true
  | .future _ _ _ => true
  | .watch => true
  | _ => false

/-- The thread leaves the issue in a phase, its control state saved. -/
def setPhase (s : State) (t : ThreadId) (ph : Phase) : State :=
  saveControl (s.modThread t fun th => { th with phase := ph, charged := true, again := ph.reissues }) t

/-- Parks the thread on a pending future (R44, R45). -/
def parkFuture (s : State) (t : ThreadId) (h : Word) : State :=
  match s.thread? t with
  | none => s
  | some th =>
    match resolveHandle s t.core th.ctl.slice h with
    | none => s
    | some a =>
      let (r, s) := futRegister (threadWatch s t th.ctl.slice.part a 8 true) t.core a (handleGen h)
      match r with
      | .satisfied => s
      | .waiting => setPhase s t (.future a (handleGen h) false)
      | .polling => setPhase s t (.future a (handleGen h) true)

/-- An issue turn: the core's slot and ac (R70), and the use of the active window (R74). -/
def noteTurn (s : State) (t : ThreadId) : State :=
  let s := match (s.slot? t).bind (·.phys) with
    | some n => s.modCore t.core fun r => { r with lastSlot := n, issued := some s.ac }
    | none => s
  s.modThread t fun th => { th with lastIssue := some s.ac, used := tput th.used th.ctl.wsp s.ac }

/-- A turn is used: one issue cycle is charged to the slice whose work the thread is (R67). An instruction that goes on after a walk, at a
bank or with the second fetch of its slot is in the turn that issued it. -/
def chargeTurn (s : State) (t : ThreadId) : State :=
  match s.thread? t with
  | none => s
  | some th =>
    let s := noteTurn s t
    if th.charged && !th.again then s
    else
      (s.modSlice th.ctl.slice fun r => { r with allot := tmod r.allot t.core (· - 1), stallReported := false }).modThread t fun th =>
        { th with charged := true, again := false }

/-- The mark that YA leaves (R84). -/
def markIssue (s : State) (t : ThreadId) (ya : Bool) : State := s.modThread t fun th => { th with yielded := ya }

/-- What a run of a meaning makes of the state: `before` is the state with the turn charged. -/
def settle (t : ThreadId) (h : Hdr) (orig before : State) (r : EStateM.Result Stop State Flow) :
    Host.Outcome State Fault Refusal :=
  match r with
  | .ok f s => .next (markIssue (retire t h.eog f s) t h.ya)
  | .error (.trap r) _ => .next (takeTrap t r before)
  | .error (.trapKeep r) s => .next (takeTrap t r s)
  | .error (.park k) _ => .next (setPhase before t (.parked k))
  | .error (.register w) _ => .next (parkFuture before t w)
  | .error .hold _ => .next orig
  | .error (.wait ph) s => .next (setPhase s t ph)
  | .error (.enrol e ph) _ => .next (setPhase (enrolIn before t e) t ph)
  | .error (.fault f) _ => .fault f

/-- Issues one instruction of the executing thread: its wait, its guard, and its meaning when the guard holds (R84, R86, R103). -/
def issue (h : Hdr) (body : Exec Flow) (s : State) : Host.Outcome State Fault Refusal :=
  match s.cur with
  | .thread t =>
    match s.thread? t with
    | none => .fault .noThread
    | some _ =>
      let before := chargeTurn s t
      settle t h s before
        ((do
            checkWait h
            if ← guardTrue h then body else return .seq : Exec Flow).run before)
  | _ => .fault .noThread

/-- Runs a meaning that always goes on to the next slot. -/
def issueSeq (h : Hdr) (body : Exec Unit) (s : State) : Host.Outcome State Fault Refusal :=
  issue h (do body; return .seq) s

/-- An encoding that the state makes illegal traps whatever the guard (R102). -/
def issueCheck (bad : Option TrapRec) (h : Hdr) (body : Exec Flow) (s : State) : Host.Outcome State Fault Refusal :=
  match bad with
  | some r => issue { h with ga := 0, gb := 0, gc := false } (throw (.trap r)) s
  | none => issue h body s

/-- Register numbers that an entry refuses: outside a REP body they stand in the word, and trap whatever the guard; inside one they are checked
once renamed (R102, R222). -/
def badNumbers (bad : TrapRec) (refused : Bool) (s : State) : Option TrapRec :=
  match s.cur with
  | .thread t =>
    match s.thread? t with
    | some th => if th.ctl.rep.isNone && refused then some bad else none
    | none => none
  | _ => none

/-- The instruction does not issue inside an active REP body (R222). -/
def notInBody (i : Instr) : Exec Unit := do
  if (← ctl).rep.isSome then throw (.trap (illegalOf i))

end Sys2Proof.Machine
end

