-- ==== Sys2Proof/Machine/Numbers.lean ====
section
/-!
DEFINITION. Sys2Proof/Machine/Numbers.lean: the binary formats (R110), exact values, round_fmt (R117), overflow (R118), NaNs (R120)
and the arithmetic that scalar, vector and merge hardware share.
-/
namespace Sys2Proof.Machine

/-- A binary floating format: width, exponent bits, fraction bits, its overflow-table entry, and whether it is FP8E4. -/
structure Fmt where
  bits : Nat
  ebits : Nat
  fbits : Nat
  ov : Nat
  e4 : Bool
deriving DecidableEq, Repr

def fp64 : Fmt := ⟨64, 11, 52, 0, false⟩
def fp32 : Fmt := ⟨32, 8, 23, 1, false⟩
def bf16 : Fmt := ⟨16, 8, 7, 2, false⟩
def fp16 : Fmt := ⟨16, 5, 10, 3, false⟩
def fp8e4 : Fmt := ⟨8, 4, 3, 4, true⟩
def fp8e5 : Fmt := ⟨8, 5, 2, 5, false⟩

def Fmt.bias (f : Fmt) : Nat := 2 ^ (f.ebits - 1) - 1

/-- The binary floating format of a tag (R114). -/
def fmtOf : Nat → Option Fmt
  | 1 => some fp32 | 2 => some bf16 | 3 => some fp16 | 4 => some fp8e4 | 5 => some fp8e5 | 10 => some fp64
  | _ => none

/-- Lane width in bits of a tag (R111, R112); RAW and the reserved tags have none. -/
def tagBits : Nat → Nat
  | 1 | 9 => 32 | 2 | 3 | 11 => 16 | 4 | 5 | 7 => 8 | 6 | 8 => 4 | 10 => 64
  | _ => 0

def isIntTag (t : Nat) : Bool := t = 7 || t = 8 || t = 9 || t = 11

/-- A floating value: a NaN with its sign, fraction and quiet bit, an infinity, or (−1)^s × m × 2^e. -/
inductive FV where
  | nan (s : Bool) (frac : Nat) (quiet : Bool)
  | inf (s : Bool)
  | fin (s : Bool) (m : Nat) (e : Int)
deriving DecidableEq, Repr

/-- What an encoding stands for (R110). -/
def decodeF (f : Fmt) (x : Nat) : FV :=
  let s := x.testBit (f.bits - 1)
  let e := field x f.fbits f.ebits
  let fr := field x 0 f.fbits
  let emax := 2 ^ f.ebits - 1
  if f.e4 ∧ e = emax ∧ fr = 7 then .nan s fr true
  else if !f.e4 ∧ e = emax then (if fr = 0 then .inf s else .nan s fr (fr.testBit (f.fbits - 1)))
  else if e = 0 then .fin s fr (1 - (f.bias : Int) - f.fbits)
  else .fin s (fr + 2 ^ f.fbits) ((e : Int) - f.bias - f.fbits)

/-- A subnormal encoding. -/
def isSubnormal (f : Fmt) (x : Nat) : Bool := field x f.fbits f.ebits = 0 && field x 0 f.fbits != 0

/-- The captured controls (R116). -/
def Captured.rnd (c : Captured) : Nat := c.fpcr % 4
def Captured.fzi (c : Captured) : Bool := c.fpcr.testBit 2
def Captured.fzr (c : Captured) : Bool := c.fpcr.testBit 3
def Captured.qmode (c : Captured) : Bool := c.fpcr.testBit 4
def Captured.qrnd (c : Captured) : Nat := field c.fpcr 5 2
def Captured.dn (c : Captured) : Bool := c.fpcr.testBit 7
def Captured.entry (c : Captured) (n : Nat) : Nat := field c.ovtab (2 * n) 2

/-- FPSR bits (R122). -/
def fNV : Nat := 1
def fDZ : Nat := 2
def fOF : Nat := 4
def fUF : Nat := 8
def fIX : Nat := 16
def fID : Nat := 32
def fQR : Nat := 64
def fQX : Nat := 128
def fQO : Nat := 256

/-- A result with the flags it raises. -/
structure FRes where
  bits : Nat
  flags : Nat
deriving DecidableEq, Repr

def signBit (f : Fmt) (s : Bool) : Nat := bit s * 2 ^ (f.bits - 1)
def zeroF (f : Fmt) (s : Bool) : Nat := signBit f s

/-- The default NaN (R120). -/
def defaultNaN (f : Fmt) : Nat :=
  if f.e4 then 0x7F else (2 ^ f.ebits - 1) * 2 ^ f.fbits + 2 ^ (f.fbits - 1)

/-- An infinity delivered without overflow: FP8E4 gives its NaN code (R118). -/
def infF (f : Fmt) (s : Bool) : Nat :=
  signBit f s + (if f.e4 then 0x7F else (2 ^ f.ebits - 1) * 2 ^ f.fbits)

/-- The largest finite encoding with a sign, and its value as m × 2^e. -/
def maxF (f : Fmt) (s : Bool) : Nat :=
  signBit f s + (if f.e4 then 0x7E else (2 ^ f.ebits - 1) * 2 ^ f.fbits - 1)
def maxFm (f : Fmt) : Nat := if f.e4 then 14 else 2 ^ (f.fbits + 1) - 1
def maxFe (f : Fmt) : Int := if f.e4 then 5 else (2 ^ f.ebits - 2 : Int) - f.bias - f.fbits

/-- A NaN operand of format g delivered in format f (R120). -/
def propNaN (c : Captured) (g f : Fmt) (s : Bool) (frac : Nat) : Nat :=
  if c.dn then defaultNaN f
  else if f.e4 then signBit f s + 0x7F
  else
    let q := if g.e4 then 2 ^ (g.fbits - 1) + frac % 2 ^ (g.fbits - 1) else frac % 2 ^ (g.fbits - 1) + 2 ^ (g.fbits - 1)
    let fr := if g.fbits ≤ f.fbits then q * 2 ^ (f.fbits - g.fbits) else q / 2 ^ (g.fbits - f.fbits)
    signBit f s + (2 ^ f.ebits - 1) * 2 ^ f.fbits + fr

/-- An operand as read: FZI gives a subnormal as a zero of its sign, with ID (R117). -/
def readF (c : Captured) (f : Fmt) (x : Nat) : FV × Nat :=
  if c.fzi && isSubnormal f x then (.fin (x.testBit (f.bits - 1)) 0 0, fID) else (decodeF f x, 0)

def FV.isNaN : FV → Bool
  | .nan .. => true
  | _ => false
def FV.isSNaN : FV → Bool
  | .nan _ _ q => !q
  | _ => false
def FV.isInf : FV → Bool
  | .inf _ => true
  | _ => false
def FV.isZero : FV → Bool
  | .fin _ m _ => m = 0
  | _ => false
def FV.sign : FV → Bool
  | .nan s _ _ => s
  | .inf s => s
  | .fin s _ _ => s
def FV.neg : FV → FV
  | .nan s f q => .nan (!s) f q
  | .inf s => .inf (!s)
  | .fin s m e => .fin (!s) m e

/-- x divided by 2^k and rounded to an integer under a mode for a value of sign s (R117); whether it was inexact. -/
def roundShift (mode : Nat) (s : Bool) (x k : Nat) : Nat × Bool :=
  let q := x / 2 ^ k
  let r := x % 2 ^ k
  if r = 0 then (q, false)
  else
    let up := match mode with
      | 0 => decide (2 * r > 2 ^ k) || (decide (2 * r = 2 ^ k) && q % 2 == 1)
      | 1 => false
      | 2 => s
      | _ => !s
    (q + bit up, true)

/-- Overflow (R118): the mode's provisional result, and the entry's replacement of a provisional infinity. -/
def overflowF (c : Captured) (f : Fmt) (mode : Nat) (s : Bool) : Nat :=
  let toInf := match mode with
    | 0 => true
    | 1 => false
    | 2 => s
    | _ => !s
  if toInf then
    match c.entry f.ov with
    | 0 => maxF f s
    | 1 => infF f s
    | _ => defaultNaN f
  else maxF f s

/-- round_fmt of (−1)^s × m × 2^e under a mode, with overflow, and FZR where `flush` (R117, R118). -/
def roundF (c : Captured) (f : Fmt) (mode : Nat) (flush : Bool) (s : Bool) (m : Nat) (e : Int) : FRes :=
  if m = 0 then ⟨zeroF f s, 0⟩
  else
    let top := e + Nat.log2 m
    let emin : Int := 1 - f.bias
    let q := max (top - f.fbits) (emin - f.fbits)
    let (n, ix) := if q ≤ e then (m * 2 ^ (e - q).toNat, false) else roundShift mode s m (q - e).toNat
    let (n, q) := if n = 2 ^ (f.fbits + 1) then (2 ^ f.fbits, q + 1) else (n, q)
    if q ≥ maxFe f ∧ n * 2 ^ (q - maxFe f).toNat > maxFm f then ⟨overflowF c f mode s, fOF + fIX⟩
    else if n < 2 ^ f.fbits then
      if flush ∧ n ≠ 0 then ⟨zeroF f s, fUF + fIX⟩
      else ⟨signBit f s + n, if ix then (if n = 0 then 0 else fUF) + fIX else 0⟩
    else ⟨signBit f s + (q + f.fbits + f.bias).toNat * 2 ^ f.fbits + (n - 2 ^ f.fbits), if ix then fIX else 0⟩

/-- Rounding under the captured mode with FZR. -/
def roundC (c : Captured) (f : Fmt) (s : Bool) (m : Nat) (e : Int) : FRes := roundF c f c.rnd c.fzr s m e

/-- A quotient n / d as a dyadic value whose last bit stands for any remainder, with at least `p` leading bits. -/
def quotient (p n d : Nat) : Nat × Int :=
  let k := p + bitLen d
  let x := n * 2 ^ k
  (2 * (x / d) + bit (decide (x % d ≠ 0)), -(k : Int) - 1)

/-- The largest r with r × r ≤ n, one bit at a time. -/
def isqrtFrom (n : Nat) : (i : Nat) → (r : Nat) → Nat
  | 0, r => r
  | i + 1, r => if (r + 2 ^ i) * (r + 2 ^ i) ≤ n then isqrtFrom n i (r + 2 ^ i) else isqrtFrom n i r
def isqrt (n : Nat) : Nat := isqrtFrom n (bitLen n / 2 + 1) 0

/-- The square root of m × 2^e as a dyadic value whose last bit stands for any remainder. -/
def sqrtDyadic (m : Nat) (e : Int) : Nat × Int :=
  let odd := (e % 2).toNat
  let x := m * 2 ^ (odd + 140)
  let r := isqrt x
  (2 * r + bit (decide (r * r ≠ x)), (e - odd - 140) / 2 - 1)

/-- (−1)^s × m as an integer. -/
def sgnd (s : Bool) (m : Nat) : Int := if s then -(m : Int) else m

/-- The exact sum of two finite values: an integer and its exponent. -/
def addExact (a b : Int × Int) : Int × Int :=
  let e := min a.2 b.2
  (a.1 * 2 ^ (a.2 - e).toNat + b.1 * 2 ^ (b.2 - e).toNat, e)

/-- An exact sum rounded: an exact zero has the sign of R117, `like` being the sign of two like-signed zeros. -/
def roundSum (c : Captured) (f : Fmt) (mode : Nat) (flush : Bool) (x : Int × Int) (like : Option Bool) : FRes :=
  if x.1 = 0 then ⟨zeroF f (like.getD (decide (mode = 2))), 0⟩
  else roundF c f mode flush (decide (x.1 < 0)) x.1.natAbs x.2

/-- The sign of a zero sum of two zeros of one sign. -/
def likeSign (a b : FV) : Option Bool := if a.isZero && b.isZero && (a.sign == b.sign) then some a.sign else none

/-- The invalid operation's result. -/
def invalidF (f : Fmt) : FRes := ⟨defaultNaN f, fNV⟩

/-- The first NaN of the operands in field order, delivered in f. -/
def firstNaN (c : Captured) (g f : Fmt) : List FV → Nat
  | [] => defaultNaN f
  | .nan s fr _ :: _ => propNaN c g f s fr
  | _ :: r => firstNaN c g f r

/-- a + b (R117, R120); the mode and FZR are given, since merges take nearest-even and ignore FZR. -/
def addFV (c : Captured) (f : Fmt) (mode : Nat) (flush : Bool) (a b : FV) : FRes :=
  if a.isSNaN || b.isSNaN then invalidF f
  else if a.isNaN || b.isNaN then ⟨firstNaN c f f [a, b], 0⟩
  else match a, b with
  | .inf s, .inf u => if s = u then ⟨infF f s, 0⟩ else invalidF f
  | .inf s, _ => ⟨infF f s, 0⟩
  | _, .inf s => ⟨infF f s, 0⟩
  | .fin s m e, .fin u n g => roundSum c f mode flush (addExact (sgnd s m, e) (sgnd u n, g)) (likeSign a b)
  | _, _ => ⟨defaultNaN f, 0⟩

def addF (c : Captured) (f : Fmt) (x y : Nat) : FRes :=
  let (a, i) := readF c f x; let (b, j) := readF c f y
  let r := addFV c f c.rnd c.fzr a b
  ⟨r.bits, r.flags ||| i ||| j⟩

def subF (c : Captured) (f : Fmt) (x y : Nat) : FRes :=
  let (a, i) := readF c f x; let (b, j) := readF c f y
  let r := if b.isNaN then addFV c f c.rnd c.fzr a b else addFV c f c.rnd c.fzr a b.neg
  ⟨r.bits, r.flags ||| i ||| j⟩

def mulF (c : Captured) (f : Fmt) (x y : Nat) : FRes :=
  let (a, i) := readF c f x; let (b, j) := readF c f y
  let s := a.sign != b.sign
  let r : FRes :=
    if a.isSNaN || b.isSNaN then invalidF f
    else if a.isNaN || b.isNaN then ⟨firstNaN c f f [a, b], 0⟩
    else if a.isInf || b.isInf then (if a.isZero || b.isZero then invalidF f else ⟨infF f s, 0⟩)
    else match a, b with
    | .fin _ m e, .fin _ n g => roundC c f s (m * n) (e + g)
    | _, _ => ⟨defaultNaN f, 0⟩
  ⟨r.bits, r.flags ||| i ||| j⟩

def divF (c : Captured) (f : Fmt) (x y : Nat) : FRes :=
  let (a, i) := readF c f x; let (b, j) := readF c f y
  let s := a.sign != b.sign
  let r : FRes :=
    if a.isSNaN || b.isSNaN then invalidF f
    else if a.isNaN || b.isNaN then ⟨firstNaN c f f [a, b], 0⟩
    else match a, b with
    | .inf _, .inf _ => invalidF f
    | .inf _, _ => ⟨infF f s, 0⟩
    | _, .inf _ => ⟨zeroF f s, 0⟩
    | .fin _ m e, .fin _ n g =>
      if n = 0 then (if m = 0 then invalidF f else ⟨infF f s, fDZ⟩)
      else
        let (q, k) := quotient (f.fbits + 8) m n
        roundC c f s q (k + e - g)
    | _, _ => ⟨defaultNaN f, 0⟩
  ⟨r.bits, r.flags ||| i ||| j⟩

def fmaF (c : Captured) (f : Fmt) (x y z : Nat) : FRes :=
  let (a, i) := readF c f x; let (b, j) := readF c f y; let (d, k) := readF c f z
  let s := a.sign != b.sign
  let r : FRes :=
    if a.isSNaN || b.isSNaN || d.isSNaN then invalidF f
    else if (a.isInf && b.isZero) || (a.isZero && b.isInf) then invalidF f
    else if a.isNaN || b.isNaN || d.isNaN then ⟨firstNaN c f f [a, b, d], 0⟩
    else if a.isInf || b.isInf then (if d.isInf && (d.sign != s) then invalidF f else ⟨infF f s, 0⟩)
    else match a, b, d with
    | .fin _ _ _, .fin _ _ _, .inf u => ⟨infF f u, 0⟩
    | .fin _ m e, .fin _ n g, .fin u p h =>
      roundSum c f c.rnd c.fzr (addExact (sgnd s (m * n), e + g) (sgnd u p, h))
        (if m * n = 0 ∧ p = 0 ∧ s = u then some s else none)
    | _, _, _ => ⟨defaultNaN f, 0⟩
  ⟨r.bits, r.flags ||| i ||| j ||| k⟩

def sqrtF (c : Captured) (f : Fmt) (x : Nat) : FRes :=
  let (a, i) := readF c f x
  let r : FRes := match a with
    | .nan s fr q => if q then ⟨propNaN c f f s fr, 0⟩ else invalidF f
    | .inf s => if s then invalidF f else ⟨infF f false, 0⟩
    | .fin s m e =>
      if m = 0 then ⟨zeroF f s, 0⟩ else if s then invalidF f
      else
        let (r, k) := sqrtDyadic m e
        roundC c f false r k
  ⟨r.bits, r.flags ||| i⟩

/-- The order of two values that are not NaNs, zeros equal. -/
def cmpFV (a b : FV) : Ordering :=
  let key : FV → Int × Int := fun v => match v with
    | .fin s m e => (sgnd s m, e)
    | _ => (0, 0)
  match a, b with
  | .inf s, .inf u => if s = u then .eq else if s then .lt else .gt
  | .inf s, _ => if s then .lt else .gt
  | _, .inf s => if s then .gt else .lt
  | _, _ =>
    let x := key a; let y := key b
    let e := min x.2 y.2
    compare (x.1 * 2 ^ (x.2 - e).toNat) (y.1 * 2 ^ (y.2 - e).toNat)

/-- The encoding of an operand as read: what FZI makes of a subnormal. -/
def asRead (c : Captured) (f : Fmt) (x : Nat) : Nat :=
  if c.fzi && isSubnormal f x then zeroF f (x.testBit (f.bits - 1)) else x

/-- Minimum or maximum as minimumNumber and maximumNumber (R120). -/
def minMaxF (isMax : Bool) (c : Captured) (f : Fmt) (x y : Nat) : FRes :=
  let (a, i) := readF c f x; let (b, j) := readF c f y
  let r : FRes :=
    if a.isSNaN || b.isSNaN then invalidF f
    else if a.isNaN && b.isNaN then ⟨firstNaN c f f [a, b], 0⟩
    else if a.isNaN then ⟨asRead c f y, 0⟩
    else if b.isNaN then ⟨asRead c f x, 0⟩
    else
      let aLess := match cmpFV a b with
        | .lt => true
        | .gt => false
        | .eq => a.sign && !b.sign
      ⟨if aLess != isMax then asRead c f x else asRead c f y, 0⟩
  ⟨r.bits, r.flags ||| i ||| j⟩

/-- An integer rounded from (−1)^s × m × 2^e under a mode; whether it was inexact. -/
def roundInt (mode : Nat) (s : Bool) (m : Nat) (e : Int) : Int × Bool :=
  if 0 ≤ e then (sgnd s (m * 2 ^ e.toNat), false)
  else
    let (n, ix) := roundShift mode s m (-e).toNat
    (sgnd s n, ix)

/-- The bounds of an n-bit integer (R112). -/
def intLo (sgn : Bool) (n : Nat) : Int := if sgn then -(2 ^ (n - 1)) else 0
def intHi (sgn : Bool) (n : Nat) : Int := if sgn then 2 ^ (n - 1) - 1 else 2 ^ n - 1

/-- Saturation to an n-bit integer; whether it saturated. -/
def satInt (sgn : Bool) (n : Nat) (x : Int) : Nat × Bool :=
  if x < intLo sgn n then (wrap n (intLo sgn n), true)
  else if x > intHi sgn n then (wrap n (intHi sgn n), true)
  else (wrap n x, false)

/-- A floating value to an n-bit integer (R124): NaN gives 0, out of range saturates, both with NV; rounding sets IX. -/
def toIntF (c : Captured) (sgn : Bool) (n : Nat) (v : FV) : FRes :=
  match v with
  | .nan .. => ⟨0, fNV⟩
  | .inf s => ⟨wrap n (if s then intLo sgn n else intHi sgn n), fNV⟩
  | .fin s m e =>
    let (x, ix) := roundInt c.rnd s m e
    let (r, sat) := satInt sgn n x
    ⟨r, if sat then fNV else if ix then fIX else 0⟩

/-- A value, exact product of two, into a binary format, rounded once (R124). -/
def scaleToF (c : Captured) (g f : Fmt) (a b : FV) : FRes :=
  let s := a.sign != b.sign
  if a.isSNaN || b.isSNaN then invalidF f
  else if (a.isInf && b.isZero) || (a.isZero && b.isInf) then invalidF f
  else match a with
  | .nan u fr _ => ⟨propNaN c g f u fr, 0⟩
  | _ => match b with
    | .nan u fr _ => ⟨propNaN c fp32 f u fr, 0⟩
    | _ =>
      if a.isInf || b.isInf then ⟨infF f s, 0⟩
      else match a, b with
      | .fin _ m e, .fin _ n h => roundC c f s (m * n) (e + h)
      | _, _ => ⟨defaultNaN f, 0⟩

/-- The exact product as a value, for a conversion to an integer. -/
def scaleFV (a b : FV) : FV :=
  if a.isNaN || b.isNaN || (a.isInf && b.isZero) || (a.isZero && b.isInf) then .nan false 0 true
  else
    let s := a.sign != b.sign
    match a, b with
    | .fin _ m e, .fin _ n h => .fin s (m * n) (e + h)
    | _, _ => .inf s

/-- The value of an integer lane. -/
def intFV (sgn : Bool) (n x : Nat) : FV :=
  let v : Int := if sgn then signed x n else ((x % 2 ^ n : Nat) : Int)
  .fin (decide (v < 0)) v.natAbs 0

/-- One in FP32. -/
def oneF : FV := .fin false 1 0

end Sys2Proof.Machine
end

