-- ==== Sys2Proof/Machine/Slash.lean ====
section
/-!
DEFINITION. Sys2Proof/Machine/Slash.lean: slash64 words and rational arithmetic (R128 to R140).
-/
namespace Sys2Proof.Machine

/-- A slash64 value: indeterminate, an infinity, or (−1)^s × n / d in lowest terms, zero being 0/1 (R129). -/
inductive QV where
  | ind
  | inf (s : Bool)
  | fin (s : Bool) (n d : Nat)
deriving DecidableEq, Repr

/-- K of a word; 57 to 63 are reserved (R128). -/
def slashK (x : Nat) : Nat := field x 57 6

/-- The value of a word with K at most 56. -/
def slashValue (x : Nat) : QV :=
  let s := x.testBit 63
  let k := slashK x
  let n := field x k (57 - k)
  let d := field x 0 k
  if k = 0 ∨ d = 0 then (if n = 0 then .ind else .inf s)
  else
    let g := Nat.gcd n d
    .fin s (n / g) (d / g)

/-- A finite word from its parts: K is the bit length of D. -/
def slashFin (s : Bool) (n d : Nat) : Nat :=
  let k := bitLen d
  bit s * 2 ^ 63 + k * 2 ^ 57 + n * 2 ^ k + d

/-- The canonical word of a representable value (R129). -/
def slashWord : QV → Nat
  | .ind => 0
  | .inf s => bit s * 2 ^ 63 + 1
  | .fin s n d => slashFin s n d

/-- Whether a word differs from the canonical word of its value; an indeterminate word is canonical with either sign (R129, R133). -/
def slashLoose (x : Nat) : Bool :=
  match slashValue x with
  | .ind => x % 2 ^ 63 ≠ 0
  | v => x ≠ slashWord v

/-- n/d in lowest terms fits (R130). -/
def representable (n d : Nat) : Bool := n = 0 || bitLen n + bitLen d ≤ 57

/-- A magnitude: the rational p/q, or its square root. -/
structure Mag where
  p : Nat
  q : Nat
  root : Bool
deriving DecidableEq, Repr

/-- Whether n/d lies below the magnitude. -/
def Mag.above (y : Mag) (n d : Nat) : Bool := if y.root then n * n * y.q < y.p * (d * d) else n * y.q < y.p * d
/-- Whether n/d lies above the magnitude. -/
def Mag.below (y : Mag) (n d : Nat) : Bool := if y.root then n * n * y.q > y.p * (d * d) else n * y.q > y.p * d

/-- The largest k below 2^i + k for which a predicate that fails from some point on holds. -/
def largestFrom (f : Nat → Bool) : (i : Nat) → (k : Nat) → Nat
  | 0, k => k
  | i + 1, k => if f (k + 2 ^ i) then largestFrom f i (k + 2 ^ i) else largestFrom f i k

/-- The walk of the Stern–Brocot tree, one run of mediants at a time (R135). -/
def bracketFrom (y : Mag) : (fuel : Nat) → (ln ld hn hd : Nat) → (Nat × Nat) × (Nat × Nat)
  | 0, ln, ld, hn, hd => ((ln, ld), (hn, hd))
  | fuel + 1, ln, ld, hn, hd =>
    if y.above (ln + hn) (ld + hd) then
      let k := largestFrom (fun k => y.above (ln + k * hn) (ld + k * hd) && representable (ln + k * hn) (ld + k * hd)) 58 0
      if k = 0 then ((ln, ld), (hn, hd)) else bracketFrom y fuel (ln + k * hn) (ld + k * hd) hn hd
    else
      let k := largestFrom (fun k => y.below (k * ln + hn) (k * ld + hd) && representable (k * ln + hn) (k * ld + hd)) 58 0
      if k = 0 then ((ln, ld), (hn, hd)) else bracketFrom y fuel ln ld (k * ln + hn) (k * ld + hd)

/-- The representable neighbours of a magnitude that is not representable. -/
def bracket (y : Mag) : (Nat × Nat) × (Nat × Nat) := bracketFrom y 200 0 1 1 0

/-- Twice the magnitude against the sum of two fractions: which is nearer. Lower, equal or upper. -/
def nearer (y : Mag) (lo hi : Nat × Nat) : Ordering :=
  -- lo is nearer when y − lo < hi − y, that is 2y < lo + hi
  let sn := lo.1 * hi.2 + hi.1 * lo.2
  let sd := lo.2 * hi.2
  if y.root then compare (4 * y.p * (sd * sd)) (sn * sn * y.q) else compare (2 * y.p * sd) (sn * y.q)

/-- The value of a rounded magnitude; a result of value 0 keeps the sign. -/
def finQ (s : Bool) (f : Nat × Nat) : QV := .fin s f.1 f.2

/-- round_q of a nonzero magnitude with a sign (R135). -/
def roundQ (mode : Nat) (s : Bool) (y : Mag) : QV :=
  let (lo, hi) := bracket y
  match mode with
  | 0 =>
    match nearer y lo hi with
    | .lt => finQ s lo
    | .gt => finQ s hi
    | .eq => if lo.2 < hi.2 then finQ s lo else if hi.2 < lo.2 then finQ s hi else finQ s lo
  | 1 => finQ s lo
  | 2 => if s then finQ s hi else finQ s lo
  | _ => if s then finQ s lo else finQ s hi

def maxQ : Nat := 2 ^ 56 - 1

/-- Overflow (R136, R137). -/
def overflowQ (c : Captured) (s : Bool) : FRes :=
  let toInf := match c.qrnd with
    | 0 => true
    | 1 => false
    | 2 => s
    | _ => !s
  let v : QV :=
    if toInf then
      match c.entry 6 with
      | 0 => .fin s maxQ 1
      | 1 => .inf s
      | _ => .ind
    else .fin s maxQ 1
  ⟨slashWord v, fQO + fQX⟩

/-- Delivers the exact magnitude p/q or √(p/q), nonzero, with a sign. -/
def deliverQ (c : Captured) (s : Bool) (y : Mag) : FRes :=
  let exact : Option (Nat × Nat) :=
    if y.root then
      let g := Nat.gcd y.p y.q
      let p := y.p / g; let q := y.q / g
      let rp := isqrt p; let rq := isqrt q
      if rp * rp = p ∧ rq * rq = q then some (rp, rq) else none
    else
      let g := Nat.gcd y.p y.q
      some (y.p / g, y.q / g)
  if y.above maxQ 1 then overflowQ c s
  else match exact with
  | some (n, d) =>
    if representable n d then ⟨slashFin s n d, 0⟩ else ⟨slashWord (roundQ c.qrnd s y), fQX⟩
  | none => ⟨slashWord (roundQ c.qrnd s y), fQX⟩

/-- An exact signed fraction n/d delivered; an exact zero has the sign given. -/
def deliverFrac (c : Captured) (n : Int) (d : Nat) (zsign : Bool) : FRes :=
  if n = 0 then ⟨slashFin zsign 0 1, 0⟩ else deliverQ c (decide (n < 0)) ⟨n.natAbs, d, false⟩

def indRes (fl : Nat) : FRes := ⟨0, fl⟩
def infRes (s : Bool) (fl : Nat := 0) : FRes := ⟨slashWord (.inf s), fl⟩
def zeroRes (s : Bool) : FRes := ⟨slashFin s 0 1, 0⟩

def QV.sign : QV → Bool
  | .ind => false
  | .inf s => s
  | .fin s _ _ => s
def QV.isZero : QV → Bool
  | .fin _ n _ => n = 0
  | _ => false
def QV.neg : QV → QV
  | .ind => .ind
  | .inf s => .inf (!s)
  | .fin s n d => .fin (!s) n d

/-- Addition (R134). -/
def addQV (c : Captured) (a b : QV) : FRes :=
  match a, b with
  | .ind, _ => indRes 0
  | _, .ind => indRes 0
  | .inf s, .inf u => if s = u then infRes s else indRes fNV
  | .inf s, _ => infRes s
  | _, .inf s => infRes s
  | .fin s n d, .fin u m e =>
    deliverFrac c (sgnd s (n * e) + sgnd u (m * d)) (d * e) (if n = 0 ∧ m = 0 ∧ s = u then s else decide (c.qrnd = 2))

def mulQV (c : Captured) (a b : QV) : FRes :=
  let s := a.sign != b.sign
  match a, b with
  | .ind, _ => indRes 0
  | _, .ind => indRes 0
  | .inf _, b => if b.isZero then indRes fNV else infRes s
  | a, .inf _ => if a.isZero then indRes fNV else infRes s
  | .fin _ n d, .fin _ m e => deliverFrac c (sgnd s (n * m)) (d * e) s

def divQV (c : Captured) (a b : QV) : FRes :=
  let s := a.sign != b.sign
  match a, b with
  | .ind, _ => indRes 0
  | _, .ind => indRes 0
  | .inf _, .inf _ => indRes fNV
  | .inf _, _ => infRes s
  | _, .inf _ => zeroRes s
  | .fin _ n d, .fin _ m e =>
    if m = 0 then (if n = 0 then indRes fNV else infRes s fDZ) else deliverFrac c (sgnd s (n * e)) (d * m) s

def fmaQV (c : Captured) (a b d : QV) : FRes :=
  let s := a.sign != b.sign
  match a, b, d with
  | .ind, _, _ => indRes 0
  | _, .ind, _ => indRes 0
  | _, _, .ind => indRes 0
  | .fin _ n p, .fin _ m q, .fin u k r =>
    deliverFrac c (sgnd s (n * m * r) + sgnd u (k * (p * q))) (p * q * r)
      (if n * m = 0 ∧ k = 0 ∧ s = u then s else decide (c.qrnd = 2))
  | a, b, d =>
    let prodInf := match a, b with
      | .fin .., .fin .. => false
      | _, _ => true
    if prodInf then
      if a.isZero || b.isZero then indRes fNV
      else match d with
        | .inf u => if u = s then infRes s else indRes fNV
        | _ => infRes s
    else infRes d.sign

def sqrtQV (c : Captured) (a : QV) : FRes :=
  match a with
  | .ind => indRes 0
  | .inf s => if s then indRes fNV else infRes false
  | .fin s n d => if n = 0 then zeroRes s else if s then indRes fNV else deliverQ c false ⟨n, d, true⟩

/-- The order of two determinate values, zeros equal. -/
def cmpQV (a b : QV) : Ordering :=
  match a, b with
  | .inf s, .inf u => if s = u then .eq else if s then .lt else .gt
  | .inf s, _ => if s then .lt else .gt
  | _, .inf s => if s then .gt else .lt
  | .fin s n d, .fin u m e => compare (sgnd s (n * e)) (sgnd u (m * d))
  | _, _ => .eq

def minMaxQV (isMax : Bool) (a b : QV) : FRes :=
  match a, b with
  | .ind, .ind => indRes 0
  | .ind, b => ⟨slashWord b, 0⟩
  | a, .ind => ⟨slashWord a, 0⟩
  | a, b =>
    let aLess := match cmpQV a b with
      | .lt => true
      | .gt => false
      | .eq => a.sign && !b.sign
    ⟨slashWord (if aLess != isMax then a else b), 0⟩

/-- The flag that a non-canonical operand raises (R133). -/
def qrOf (x : Nat) : Nat := if slashLoose x then fQR else 0

/-- A binary value into slash64 (R139). -/
def toSlashF (c : Captured) (f : Fmt) (x : Nat) : FRes :=
  let (v, i) := readF c f x
  let r : FRes := match v with
    | .nan _ _ q => if q then indRes 0 else indRes fNV
    | .inf s => infRes s
    | .fin s m e =>
      if m = 0 then zeroRes s
      else if 0 ≤ e then deliverQ c s ⟨m * 2 ^ e.toNat, 1, false⟩ else deliverQ c s ⟨m, 2 ^ (-e).toNat, false⟩
  ⟨r.bits, r.flags ||| i⟩

/-- A slash64 word into a binary format (R139). -/
def fromSlashF (c : Captured) (f : Fmt) (x : Nat) : FRes :=
  let r : FRes := match slashValue x with
    | .ind => ⟨defaultNaN f, 0⟩
    | .inf s => ⟨infF f s, 0⟩
    | .fin s n d =>
      if n = 0 then ⟨zeroF f s, 0⟩
      else
        let (q, k) := quotient (f.fbits + 8) n d
        roundC c f s q k
  ⟨r.bits, r.flags ||| qrOf x⟩

/-- A slash64 word into a 64-bit integer (R139). -/
def fromSlashInt (c : Captured) (sgn : Bool) (x : Nat) : FRes :=
  let r : FRes := match slashValue x with
    | .ind => ⟨0, fNV⟩
    | .inf s => toIntF c sgn 64 (.inf s)
    | .fin s n d =>
      let (q, k) := quotient 68 n d
      toIntF c sgn 64 (.fin s q k)
  ⟨r.bits, r.flags ||| qrOf x⟩

/-- QMAKE (R140). -/
def makeQ (c : Captured) (n d : Int) : FRes :=
  if d = 0 then (if n = 0 then indRes fNV else infRes (decide (n < 0)) fDZ)
  else if n = 0 then zeroRes false
  else deliverQ c (decide (n < 0) != decide (d < 0)) ⟨n.natAbs, d.natAbs, false⟩

end Sys2Proof.Machine
end

