-- ==== Sys2Proof/Machine/Flags.lean ====
section
/-!
DEFINITION. Sys2Proof/Machine/Flags.lean: the operating width of class 0, the conditions that set guards, FPCR, the overflow table and
the sticky flags of FPSR.
-/
namespace Sys2Proof.Machine

/-- The operating width W (R309). -/
def widBits (wid : BitVec 2) : Nat :=
  match wid.toNat with
  | 0 => 64
  | 1 => 32
  | 2 => 16
  | _ => 8

/-- val(x): the W-bit field as two's complement under .i and as unsigned under .n (R310). -/
def valOf (sgn : Bool) (w : Nat) (x : Word) : Int := if sgn then signed x.toNat w else ((x.toNat % 2 ^ w : Nat) : Int)

/-- The written result: r modulo 2^W extended by SGN (R310). -/
def resultOf (sgn : Bool) (w : Nat) (r : Int) : Word := extend sgn w (wrap w r)

/-- Clamps to the range of the width (R310). -/
def clamp (sgn : Bool) (w : Nat) (r : Int) : Int := min (max r (intLo sgn w)) (intHi sgn w)

/-- The condition of CMP (R320); 8 to 15 are not assigned. -/
def cmpHolds (cond : Nat) (sgn : Bool) (w : Nat) (a b : Word) : Bool :=
  let x := a.toNat % 2 ^ w; let y := b.toNat % 2 ^ w
  let p := valOf sgn w a; let q := valOf sgn w b
  match cond with
  | 0 => x = y
  | 1 => x ≠ y
  | 2 => p < q
  | 3 => p ≤ q
  | 4 => p > q
  | 5 => p ≥ q
  | 6 => x &&& y = 0
  | _ => x &&& y ≠ 0

/-- FPCR and the overflow table as an instruction captures them at issue (R116). -/
def capture : Exec Captured := do
  return ⟨← rdWin offFpcr 1, ← rdWin offBook 8⟩

/-- ORs flags into FPSR (R122, R123). -/
def raiseFlags (f : Nat) : Exec Unit := do
  if f = 0 then return
  wrWin offFpsr 4 ((← rdWin offFpsr 4) ||| f)

/-- ORs flags into the FPSR of the workspace at wsp when an operation of the GCD unit or the divider completes (R123, R142). -/
def orFlagsAt (s : State) (t : ThreadId) (sl : SliceId) (wsp : Word) (f : Nat) : State :=
  if f = 0 then s else winWrite s t sl wsp offFpsr 4 (winRead s t sl wsp offFpsr 4 ||| f)

end Sys2Proof.Machine
end

