-- ==== Sys2Proof/Machine/Operands.lean ====
section
/-!
DEFINITION. Sys2Proof/Machine/Operands.lean: every operand form of R90: general registers, ports (R235 to R238), circular-buffer
handles (R161), constants, immediates (R88), and the renaming of a REP body (R222).
-/
namespace Sys2Proof.Machine

/-! ### Roots that come with data (R195) -/

/-- Adds roots to the thread's set: confirmed and freed roots are not added, a revoked root is owed its trap, and a union of more
than four waits. -/
def addRoots (l : List Nat) : Exec Unit := do
  if l.isEmpty then return
  let s ← get; let p ← myPart
  let mine ← myRoots
  let new := (l.filter fun n => decide (rootState s p n = .open_)).filter fun n => !mine.contains n
  let gone := l.filter fun n => decide (rootState s p n = .revoked)
  if mine.length + new.length > 4 then parkMemory
  if !new.isEmpty then setRoots (mine ++ new)
  if !gone.isEmpty then modT fun th => { th with due := { th.due with revoked := th.due.revoked ++ gone } }

/-- The roots of a tile that a home answered join the thread's set: a confirmed or freed root is not added, and a revoked one is owed
its trap (R197, R198). -/
def joinRoots (l : List Nat) : Exec Unit := do
  let s ← get; let p ← myPart
  let mine ← myRoots
  let new := l.filter fun n => !mine.contains n
  let gone := new.filter fun n => decide (rootState s p n = .revoked)
  setRoots (mine ++ new.filter fun n => decide (rootState s p n = .open_))
  if !gone.isEmpty then modT fun th => { th with due := { th.due with revoked := th.due.revoked ++ gone } }

/-! ### Neighbour ports (R235) -/

/-- The neighbour of a logical core in a direction: 0 north, 1 east, 2 south, 3 west; none off the mesh. -/
def neighbour (l dir : Nat) : Option Nat :=
  let x := coreX l; let y := coreY l
  match dir with
  | 0 => if y = 0 then none else some (l - 16)
  | 1 => if x = 15 then none else some (l + 1)
  | 2 => if y = 11 then none else some (l + 16)
  | _ => if x = 0 then none else some (l - 1)

/-- The receiving port of a word sent in a direction. -/
def oppositeDir (dir : Nat) : Nat := (dir + 2) % 4

def SlotRec.port (r : SlotRec) (dir : Nat) : List PortWord :=
  match dir with
  | 0 => r.north
  | 1 => r.east
  | 2 => r.south
  | _ => r.west

def SlotRec.setPort (r : SlotRec) (dir : Nat) (l : List PortWord) : SlotRec :=
  match dir with
  | 0 => { r with north := l }
  | 1 => { r with east := l }
  | 2 => { r with south := l }
  | _ => { r with west := l }

def rdPort (dir : Nat) : Exec Word := do
  let t ← me; let r ← mySlot
  match r.port dir with
  | [] => parkMessage
  | p :: rest =>
    addRoots p.roots
    modify fun s => s.modSlot t fun r => r.setPort dir rest
    return p.w

/-- Words that a receiving port holds or that are on their way to it: it queues 8. -/
def portLoad (s : State) (t : ThreadId) (dir : Nat) : Nat :=
  (match s.slot? t with | some r => (r.port dir).length | none => 0) +
  (s.nt.nbrs.filter fun m => decide (m.dst = t ∧ m.dir = dir)).length

def wrPort (dir : Nat) (w : Word) : Exec Unit := do
  let t ← me; let sl ← slotSlice
  match neighbour t.core.core dir with
  | none => permTrap 0
  | some l =>
    if !sl.inGroup l then permTrap 0
    let dst : ThreadId := { t with core := { t.core with core := l } }
    if portLoad (← get) dst (oppositeDir dir) ≥ 8 then parkMessage
    let roots ← myRoots
    modify fun s => { s with nt := { s.nt with nbrs := s.nt.nbrs ++ [⟨t, dst, oppositeDir dir, ⟨w, roots⟩⟩] } }

/-! ### Far messages and replies (R236, R237) -/

/-- A read of pf takes the next payload word and latches its sender. -/
def rdFar : Exec Word := do
  let t ← me; let r ← mySlot
  match r.far with
  | [] => parkMessage
  | p :: rest =>
    addRoots p.roots
    modify fun s => s.modSlot t fun r => { r with far := rest }
    modT fun th => { th with latch := some p.sender }
    return p.w

/-- A header opens a message. -/
def openFar (w : Word) : Exec Unit := do
  let t ← me; let sl ← slotSlice; let c ← ctl
  if wfield w 18 38 ≠ 0 ∨ bitAt w 17 then permTrap 0
  if !sl.inGroup (wfield w 0 8) then permTrap 0
  let dst ← orStop (placePhys (← get) t.core (wfield w 0 8)) (.trap (mkTrap 5 0 0))
  let roots ← myRoots
  modT fun th => { th with openMsg := some ⟨w, dst, [], wfield w 12 3 + 1, c.intrap, roots⟩ }

/-- Roots of the sender at the header and at every payload word (R238). -/
def unionRoots (a b : List Nat) : List Nat := a ++ b.filter fun n => !a.contains n

def wrFar (w : Word) : Exec Unit := do
  let t ← me; let c ← ctl; let th ← thr; let gen ← myGen
  match th.openMsg with
  | none => openFar w
  | some m =>
    if c.intrap && !m.byHandler then permTrap 0 1
    let m := { m with words := m.words ++ [w], roots := unionRoots m.roots (← myRoots) }
    if m.words.length < m.need then modT fun th => { th with openMsg := some m }
    else
      modT fun th => { th with openMsg := none }
      modify fun s => { s with nt := { s.nt with fars := s.nt.fars ++
        [⟨⟨t, gen⟩, m.dst, t.slice, wfield m.header 8 4, m.header, m.words, m.roots⟩] } }

/-- A read of pq takes a reply word. -/
def rdReply : Exec Word := do
  let t ← me; let r ← mySlot
  match r.replies with
  | [] => parkMessage
  | p :: rest =>
    addRoots p.roots
    modify fun s => s.modSlot t fun r => { r with replies := rest }
    return p.w

/-- A write to pq sends one word to the latched sender. -/
def wrReply (w : Word) : Exec Unit := do
  let t ← me; let th ← thr
  match th.latch with
  | none => permTrap 0 1
  | some d =>
    let roots ← myRoots
    modify fun s => { s with nt := { s.nt with replies := s.nt.replies ++ [⟨t, d.t, d.gen, ⟨w, roots⟩, false⟩] } }

/-! ### Circular buffers (R160, R161) -/

/-- The handle state of cb n for the thread's slice on its core. -/
def cbState (n : Nat) : Exec (Option CbState) := do
  let c ← ctl
  return tfind ((← get).core (← myCore)).cbs (c.slice, n)

/-- A bound handle, or the permission trap of R311. -/
def cbBound (n : Nat) : Exec CbState := do orStop (← cbState n) (.trap (mkTrap 5 0 1))

def setCb (n : Nat) (b : CbState) : Exec Unit := do
  let c ← ctl; let core ← myCore
  modify fun s => s.modCore core fun r => { r with cbs := tput r.cbs (c.slice, n) b }

def CbState.slots (b : CbState) : Nat := b.countM1 + 1
/-- The filled count, of 32-bit counters. -/
def CbState.filled (b : CbState) : Nat := (b.p + 2 ^ 32 - b.c) % 2 ^ 32
def CbState.room (b : CbState) : Nat := b.slots - b.filled - b.nrsv
/-- The view offset of slot i. -/
def CbState.slotOff (b : CbState) (i : Nat) : Nat := b.base + i % b.slots * b.slotSz * 16

/-- The storage address of a view offset in the data range of the thread's slice on its core. -/
def dataAddr (off : Nat) : Exec Addr := do
  let c ← ctl; let core ← myCore
  match ((← get).slice? c.slice).bind (·.grant? core) with
  | some g => return addrSpad core (g.data + off)
  | none => permTrap (space0 core off)

/-- Whether a matrix operation that is being staged reads a slot of the handle: the slot is its own until then (R225). -/
def cbClaimed (s : State) (c : CoreId) (sl : SliceId) (k : Nat) : Bool :=
  s.wk.slots.any fun (t, r) =>
    match r.thread with
    | some th => decide (t.core = c ∧ th.ctl.slice = sl) &&
      (match th.stage with
       | some ⟨.matrix _ _ cbs _, _, _, _, _, _, _⟩ => cbs.contains k
       | _ => false)
    | none => false

def claimHold (k : Nat) : Exec Unit := do
  if cbClaimed (← get) (← myCore) (← ctl).slice k then throw .hold

/-- A handle read of n bytes (R89, R161): it waits for CBF + 1 filled slots and consumes one. -/
def cbRead (h : Hdr) (k n : Nat) : Exec Nat := do
  let b ← cbBound k
  if b.filled < h.cbf.toNat + 1 then parkMessage
  claimHold k
  let off := b.slotOff b.c
  if b.slotSz * 16 < n then alignTrap (space0 (← myCore) off)
  let a ← dataAddr off
  let s ← get
  if s.poisoned a n then trapAt 11 (space0 (← myCore) off).toNat 0
  watchMine a n false
  setCb k { b with c := (b.c + 1) % 2 ^ 32 }
  return s.rd a n

/-- A handle write of n bytes: it waits for a free slot, fills it and publishes it. -/
def cbWrite (k n v : Nat) : Exec Unit := do
  let b ← cbBound k
  if b.room = 0 then parkMessage
  waitConfirmed
  let off := b.slotOff b.p
  if b.slotSz * 16 < n then alignTrap (space0 (← myCore) off)
  let a ← dataAddr off
  let c ← ctl; let core ← myCore
  if (← get).typedAt a n then trapAt 14 (space0 core off).toNat 0
  modify fun s => (storeAt s core c.slice.part c.pc a n v).fillGranules a (b.slotSz * 16)
  watchMine a n true
  setCb k { b with p := (b.p + 1) % 2 ^ 32 }

/-! ### Scalar operands -/

/-- A scalar source (R90): its value. -/
def rdOpnd (h : Hdr) : Opnd → Exec Word
  | .w n => rdReg n.val
  | .pn => rdPort 0
  | .pe => rdPort 1
  | .ps => rdPort 2
  | .pw => rdPort 3
  | .pf => rdFar
  | .pq => rdReply
  | .cb n => do return BitVec.ofNat 64 (← cbRead h n.val 8)
  | .zero => pure 0
  | .ones => pure (BitVec.allOnes 64)
  | .tid => do return BitVec.ofNat 64 (tidNat (← get) (← me))
  | .dtime => do return (← get).dtime
  | .lane => trapAt 1 0 0
  | .v _ => trapAt 1 0 0
  | .acc _ => trapAt 1 0 0
  | .m _ => trapAt 1 0 0

/-- A second source: an operand or an immediate, sign-extended (R88). -/
def rdSrc (h : Hdr) : Src → Exec Word
  | .op o => rdOpnd h o
  | .imm16 i => pure (i.signExtend 64)
  | .imm32 i => pure (i.signExtend 64)

/-- The handle check of a source, before anything parks (R103 step 5). -/
def chkOpnd : Opnd → Exec Unit
  | .w n => checkHandle n.val
  | .cb n => do let _ ← cbBound n.val
  | _ => pure ()

/-- The handle check of a destination: a circular-buffer handle is bound. -/
def chkSink : Opnd → Exec Unit
  | .cb n => do let _ ← cbBound n.val
  | _ => pure ()

def chkSrc : Src → Exec Unit
  | .op o => chkOpnd o
  | _ => pure ()

/-- How many words or slots a port or handle holds for a reader. A handle must hold CBF more than it gives. -/
def sourceHolds (h : Hdr) (o : Opnd) : Exec (Option Nat) := do
  let r ← mySlot
  match o with
  | .pn => return some r.north.length
  | .pe => return some r.east.length
  | .ps => return some r.south.length
  | .pw => return some r.west.length
  | .pf => return some r.far.length
  | .pq => return some r.replies.length
  | .cb n => return some ((← cbBound n.val).filled - h.cbf.toNat)
  | _ => return none

/-- Whether a port or handle has room for what an instruction writes to it. -/
def sinkRoom (o : Opnd) : Exec Bool := do
  let t ← me; let s ← get
  let port := fun (dir : Nat) =>
    match neighbour t.core.core dir with
    | some l => decide (portLoad s { t with core := { t.core with core := l } } (oppositeDir dir) < 8)
    | none => true
  match o with
  | .pn => return port 0
  | .pe => return port 1
  | .ps => return port 2
  | .pw => return port 3
  | .cb n => return decide ((← cbBound n.val).room ≠ 0)
  | _ => return true

/-- A port or handle that holds too little for the source fields that name it parks the thread on message. -/
def waitSource (h : Hdr) (srcs : List Opnd) (o : Opnd) : Exec Unit := do
  match ← sourceHolds h o with
  | some n => if n < (srcs.filter (· = o)).length then parkMessage
  | none => pure ()

def waitSink (o : Opnd) : Exec Unit := do
  if !(← sinkRoom o) then parkMessage

def waitFuture : Opnd → Exec Unit
  | .w n => futureThere n.val
  | _ => pure ()

/-- What an instruction waits for before it reads anything (R91, R103 steps 5 and 7): the handles of its sources are checked; it is parked
on message while a port or handle that it names is not ready, and then on the first marked register whose future is pending. -/
def waitOpnds (h : Hdr) (srcs dsts : List Opnd) : Exec Unit := do
  srcs.forM chkOpnd
  dsts.forM chkSink
  srcs.forM (waitSource h srcs)
  dsts.forM waitSink
  srcs.forM waitFuture

/-- The sources of an instruction, a second source among them. -/
def allSrcs (l : List Opnd) (x : Src) : List Opnd := l ++ (match x with | .op o => [o] | _ => [])

/-- One, two or three sources in field order (R91). -/
def rd1 (h : Hdr) (a : Opnd) (d : List Opnd := []) : Exec Word := do
  waitOpnds h [a] d
  rdOpnd h a

def rd2 (h : Hdr) (a : Opnd) (b : Src) (d : List Opnd := []) : Exec (Word × Word) := do
  waitOpnds h (a :: match b with | .op o => [o] | _ => []) d
  let x ← rdOpnd h a
  let y ← rdSrc h b
  return (x, y)

def rd3 (h : Hdr) (a b c : Opnd) (d : List Opnd := []) : Exec (Word × Word × Word) := do
  waitOpnds h [a, b, c] d
  let x ← rdOpnd h a
  let y ← rdOpnd h b
  let z ← rdOpnd h c
  return (x, y, z)

/-- Reads two general registers as data sources. -/
def rdRegs2 (a b : Reg) : Exec (Word × Word) := do
  checkHandle a.val; checkHandle b.val
  let x ← rdReg a.val
  let y ← rdReg b.val
  return (x, y)

/-- Writes a scalar destination (R90, R91). -/
def wrOpnd (o : Opnd) (v : Word) : Exec Unit :=
  match o with
  | .w n => wrReg n v
  | .pn => wrPort 0 v
  | .pe => wrPort 1 v
  | .ps => wrPort 2 v
  | .pw => wrPort 3 v
  | .pf => wrFar v
  | .pq => wrReply v
  | .cb n => cbWrite n.val 8 v.toNat
  | _ => trapAt 1 0 0

/-! ### Renaming in a REP body (R222) -/

/-- The value of wI that renames: the register's bits at issue, once no operation under way will write it (R71). -/
def repIndex (r : RepState) : Exec Nat := do return (← regBits r.wi.val).toNat

def renV (b : Nat) : Exec Nat := do
  match (← ctl).rep with
  | none => return b
  | some r =>
    if r.vbase ≤ b ∧ b < r.vbase + r.vspan then
      return r.vbase + (b - r.vbase + (← repIndex r) * r.vstep) % r.vspan
    else return b

def renAcc (a : Nat) : Exec Nat := do
  match (← ctl).rep with
  | none => return a
  | some r => return (a + (← repIndex r) * r.astep) % 4

/-! ### Vector registers, tags and masks (R92, R114) -/

/-- The tag of v n, once no operation under way will write the register (R71). -/
def vTag (n : Nat) : Exec Nat := do
  let t ← me; let c ← ctl
  if vregPending (← get) t c.wsp n then throw .hold
  return field (← rdWin offVtags 16) (4 * n) 4
def setVTag (n tag : Nat) : Exec Unit := do
  let x ← rdWin offVtags 16
  wrWin offVtags 16 (x - field x (4 * n) 4 * 2 ^ (4 * n) + tag % 16 * 2 ^ (4 * n))

/-- The bits of v n, after renaming. -/
def vBits (n : Nat) : Exec Nat := do
  let t ← me; let c ← ctl
  if vregPending (← get) t c.wsp n then throw .hold
  rdWin (offV n) 256

def wrV (n bits tag : Nat) : Exec Unit := do
  wrWin (offV n) 256 (bits % 2 ^ 2048)
  setVTag n tag

def mBits (n : Nat) : Exec Nat := rdWin (offM n) 32
def wrM (n bits : Nat) : Exec Unit := wrWin (offM n) 32 (bits % 2 ^ 256)

/-- The format-tag trap (R109): the operand code and the tag found. -/
def tagTrap {α : Type} (code tag : Nat) : Exec α := trapAt 7 0 (code + tag * 256)

end Sys2Proof.Machine
end

