-- ==== Sys2Proof/Machine/Integer.lean ====
section
/-!
DEFINITION. Sys2Proof/Machine/Integer.lean: class 0 but for MOV (Machine/Matrix.lean), and the divider (R309, R310, R319, R320, R329, R330, R332,
R361, R362, R364, R381, R386, R389, R395, R396).
-/
namespace Sys2Proof.Machine

/-- A class-0 instruction with two sources: the result is a function of the two words. -/
def alu2 (h : Hdr) (d a : Opnd) (b : Src) (f : Word → Word → Word) (s : State) : Host.Outcome State Fault Refusal :=
  issueSeq h (do
    let (x, y) ← rd2 h a b [d]
    wrOpnd d (f x y)) s

/-- A class-0 instruction with one source. -/
def alu1 (h : Hdr) (d a : Opnd) (f : Word → Word) (s : State) : Host.Outcome State Fault Refusal :=
  issueSeq h (do
    let x ← rd1 h a [d]
    wrOpnd d (f x)) s

def satIf (sat sgn : Bool) (w : Nat) (r : Int) : Int := if sat then clamp sgn w r else r

def addW (wid : BitVec 2) (sgn sat : Bool) (a b : Word) : Word :=
  let w := widBits wid
  resultOf sgn w (satIf sat sgn w (valOf sgn w a + valOf sgn w b))

def subW (wid : BitVec 2) (sgn sat : Bool) (a b : Word) : Word :=
  let w := widBits wid
  resultOf sgn w (satIf sat sgn w (valOf sgn w a - valOf sgn w b))

def mulW (wid : BitVec 2) (sgn sat hi : Bool) (a b : Word) : Word :=
  let w := widBits wid
  let p := valOf sgn w a * valOf sgn w b
  resultOf sgn w (if hi then p / 2 ^ w else satIf sat sgn w p)

/-- The bitwise results, extended from W. -/
def bitwiseW (f : Word → Word → Word) (wid : BitVec 2) (sgn : Bool) (a b : Word) : Word := extend sgn (widBits wid) (f a b).toNat

def minW (wid : BitVec 2) (sgn : Bool) (a b : Word) : Word :=
  let w := widBits wid
  extend sgn w (if valOf sgn w a ≤ valOf sgn w b then a else b).toNat

def maxW (wid : BitVec 2) (sgn : Bool) (a b : Word) : Word :=
  let w := widBits wid
  extend sgn w (if valOf sgn w a ≥ valOf sgn w b then a else b).toNat

def shlW (wid : BitVec 2) (sgn : Bool) (a b : Word) : Word :=
  let w := widBits wid; let k := b.toNat % 256
  extend sgn w (if k ≥ w then 0 else a.toNat % 2 ^ w * 2 ^ k)

def shrW (wid : BitVec 2) (sgn : Bool) (a b : Word) : Word :=
  let w := widBits wid; let k := b.toNat % 256
  if sgn then resultOf true w (if k ≥ w then (if valOf true w a < 0 then -1 else 0) else valOf true w a / 2 ^ k)
  else extend false w (if k ≥ w then 0 else a.toNat % 2 ^ w / 2 ^ k)

def rotW (wid : BitVec 2) (a b : Word) : Word :=
  let w := widBits wid; let j := b.toNat % 256 % w; let x := a.toNat % 2 ^ w
  extend false w (x * 2 ^ j + x / 2 ^ (w - j))

def clzW (wid : BitVec 2) (a : Word) : Word := BitVec.ofNat 64 (widBits wid - bitLen (a.toNat % 2 ^ widBits wid))

/-- The number of trailing zero bits among n. -/
def ctzFrom (x : Nat) : (n : Nat) → Nat
  | 0 => 0
  | n + 1 => if x % 2 = 1 then 0 else ctzFrom (x / 2) n + 1

def ctzW (wid : BitVec 2) (a : Word) : Word := BitVec.ofNat 64 (ctzFrom (a.toNat % 2 ^ widBits wid) (widBits wid))

/-- The number of 1 bits among n. -/
def popFrom (x : Nat) : (n : Nat) → Nat
  | 0 => 0
  | n + 1 => x % 2 + popFrom (x / 2) n

def popW (wid : BitVec 2) (a : Word) : Word := BitVec.ofNat 64 (popFrom (a.toNat % 2 ^ widBits wid) (widBits wid))

def execAdd (h : Hdr) (d a : Opnd) (b : Src) (wid : BitVec 2) (sgn sat : Bool) (s : State) := alu2 h d a b (addW wid sgn sat) s
def execSub (h : Hdr) (d a : Opnd) (b : Src) (wid : BitVec 2) (sgn sat : Bool) (s : State) := alu2 h d a b (subW wid sgn sat) s
def execMul (h : Hdr) (d a : Opnd) (b : Src) (wid : BitVec 2) (sgn sat hi : Bool) (s : State) := alu2 h d a b (mulW wid sgn sat hi) s
def execAnd (h : Hdr) (d a : Opnd) (b : Src) (wid : BitVec 2) (sgn : Bool) (s : State) := alu2 h d a b (bitwiseW (· &&& ·) wid sgn) s
def execAndn (h : Hdr) (d a : Opnd) (b : Src) (wid : BitVec 2) (sgn : Bool) (s : State) :=
  alu2 h d a b (bitwiseW (fun x y => x &&& ~~~y) wid sgn) s
def execOr (h : Hdr) (d a : Opnd) (b : Src) (wid : BitVec 2) (sgn : Bool) (s : State) := alu2 h d a b (bitwiseW (· ||| ·) wid sgn) s
def execXor (h : Hdr) (d a : Opnd) (b : Src) (wid : BitVec 2) (sgn : Bool) (s : State) := alu2 h d a b (bitwiseW (· ^^^ ·) wid sgn) s
def execShl (h : Hdr) (d a : Opnd) (b : Src) (wid : BitVec 2) (sgn : Bool) (s : State) := alu2 h d a b (shlW wid sgn) s
def execShr (h : Hdr) (d a : Opnd) (b : Src) (wid : BitVec 2) (sgn : Bool) (s : State) := alu2 h d a b (shrW wid sgn) s
def execRot (h : Hdr) (d a : Opnd) (b : Src) (wid : BitVec 2) (s : State) := alu2 h d a b (rotW wid) s
def execClz (h : Hdr) (d a : Opnd) (wid : BitVec 2) (s : State) := alu1 h d a (clzW wid) s
def execCtz (h : Hdr) (d a : Opnd) (wid : BitVec 2) (s : State) := alu1 h d a (ctzW wid) s
def execPopc (h : Hdr) (d a : Opnd) (wid : BitVec 2) (s : State) := alu1 h d a (popW wid) s
def execMin (h : Hdr) (d a : Opnd) (b : Src) (wid : BitVec 2) (sgn : Bool) (s : State) := alu2 h d a b (minW wid sgn) s
def execMax (h : Hdr) (d a : Opnd) (b : Src) (wid : BitVec 2) (sgn : Bool) (s : State) := alu2 h d a b (maxW wid sgn) s

/-- CMP sets its guard and writes no register (R320). -/
def execCmp (h : Hdr) (gd : BitVec 3) (a : Opnd) (b : Src) (wid : BitVec 2) (sgn : Bool) (cond : BitVec 4) (s : State) :=
  issueSeq h (do
    let (x, y) ← rd2 h a b
    setGuard gd (cmpHolds cond.toNat sgn (widBits wid) x y)) s

/-- SEL reads both sources whichever it writes (R396). -/
def execSel (h : Hdr) (d a : Opnd) (b : Src) (sg : BitVec 3) (inv : Bool) (s : State) :=
  issueSeq h (do
    let g ← rdGuard sg.toNat
    let (x, y) ← rd2 h a b [d]
    wrOpnd d (if g != inv then x else y)) s

/-- POS and LENM1 of EXT and INS (R332). -/
def posOf (x : Word) : Nat := wfield x 0 6
def lenOf (x : Word) : Nat := wfield x 6 6 + 1

/-- The field that EXT takes: bits above bit 63 read as zero. -/
def extW (sgn : Bool) (a pl : Word) : Word := extend sgn (lenOf pl) (a.toNat / 2 ^ posOf pl)

def insW (d a pl : Word) : Word :=
  let m : Word := BitVec.ofNat 64 ((2 ^ lenOf pl - 1) * 2 ^ posOf pl)
  (d &&& ~~~m) ||| (BitVec.ofNat 64 (a.toNat * 2 ^ posOf pl) &&& m)

def execExt (h : Hdr) (d : Reg) (a : Opnd) (b : Src) (sgn : Bool) (s : State) := alu2 h (.w d) a b (extW sgn) s

/-- INS reads its destination (R332). -/
def execIns (h : Hdr) (d : Reg) (a : Opnd) (b : Src) (s : State) :=
  issueSeq h (do
    checkHandle d.val
    let (x, y) ← rd2 h a b
    let z ← rdReg d.val
    wrReg d (insW z x y)) s

def leaW (sh : BitVec 2) (loc : Bool) (b x : Word) : Word :=
  let off : Word := BitVec.ofNat 64 (x.toNat * 2 ^ sh.toNat)
  if loc then (b &&& ~~~(0x7FFFFF : Word)) ||| ((b + off) &&& (0x7FFFFF : Word)) else b + off

def execLea (h : Hdr) (d a : Opnd) (b : Src) (sh : BitVec 2) (loc : Bool) (s : State) := alu2 h d a b (leaW sh loc) s

/-- MOVI (R364). -/
def execMovi (h : Hdr) (d : Reg) (imm : BitVec 48) (hi : Bool) (s : State) :=
  issueSeq h (do
    if hi then
      checkHandle d.val
      let x ← rdReg d.val
      wrReg d ((x &&& (0x0000FFFFFFFFFFFF : Word)) ||| BitVec.ofNat 64 (imm.toNat % 2 ^ 16 * 2 ^ 48))
    else wrReg d (imm.signExtend 64)) s

/-! ### The divider (R329, R330, R389) -/

/-- Quotient and validity (R329). -/
def divide (sgn : Bool) (w : Nat) (a b : Word) : Word × Bool :=
  let x := valOf sgn w a; let y := valOf sgn w b
  if y = 0 then (0, false)
  else if sgn ∧ x = intLo true w ∧ y = -1 then (resultOf sgn w (intLo true w), false)
  else (resultOf sgn w (Int.tdiv x y), true)

/-- Remainder and validity (R389). -/
def remainder (sgn : Bool) (w : Nat) (a b : Word) : Word × Bool :=
  let x := valOf sgn w a; let y := valOf sgn w b
  if y = 0 then (resultOf sgn w x, false)
  else if sgn ∧ x = intLo true w ∧ y = -1 then (0, false)
  else (resultOf sgn w (Int.tmod x y), true)

/-- Whether an earlier operation of the thread has yet to write one of the registers or the guard (R141, R330). -/
def unitBusyFor (s : State) (t : ThreadId) (wsp : Word) (regs : List Nat) (gd : Nat) : Bool :=
  regs.any (regPending s t wsp) || guardPending s t wsp gd

/-- Enters an operation in the divider, which holds two (R330). -/
def enterDiv (regs : List (Nat × Word)) (guard : Option (Nat × Bool)) (flags : Nat) : Exec Unit := do
  let t ← me; let c ← ctl
  let s ← get
  if (s.core t.core).div.length ≥ 2 || unitBusyFor s t c.wsp (regs.map (·.1)) ((guard.map (·.1)).getD 0) then throw .hold
  let id ← newOp
  modify fun s => s.modCore t.core fun r => { r with div := r.div ++ [⟨id, t, c.slice, c.wsp, regs, guard, flags, t.core.pkg⟩] }

def divLike (h : Hdr) (gd : BitVec 3) (d : Reg) (a : Opnd) (b : Src) (f : Word → Word → Word × Bool) (s : State) :
    Host.Outcome State Fault Refusal :=
  issueSeq h (do
    let (x, y) ← rd2 h a b
    let (r, ok) := f x y
    enterDiv [(d.val, r)] (some (gd.toNat, ok)) 0) s

def execDiv (h : Hdr) (gd : BitVec 3) (d : Reg) (a : Opnd) (b : Src) (wid : BitVec 2) (sgn : Bool) (s : State) :=
  divLike h gd d a b (divide sgn (widBits wid)) s
def execRem (h : Hdr) (gd : BitVec 3) (d : Reg) (a : Opnd) (b : Src) (wid : BitVec 2) (sgn : Bool) (s : State) :=
  divLike h gd d a b (remainder sgn (widBits wid)) s

/-- The slice whose data view a thread's window needs: its own where the thread is live. -/
def viewSlice (s : State) (t : ThreadId) : SliceId :=
  match s.thread? t with
  | some th => th.ctl.slice
  | none => t.slice

/-- Writes a register of the workspace at wsp and clears its mark. -/
def putRegAt (s : State) (t : ThreadId) (sl : SliceId) (wsp : Word) (n : Nat) (v : Word) : State :=
  let s := winWrite s t sl wsp (offW n) 8 v.toNat
  let m := winRead s t sl wsp offMarks 8
  if m.testBit n then winWrite s t sl wsp offMarks 8 (putBit m n false) else s

def putGuardAt (s : State) (t : ThreadId) (sl : SliceId) (wsp : Word) (g : Nat) (b : Bool) : State :=
  if g = 0 then s else winWrite s t sl wsp offGuards 1 (putBit (winRead s t sl wsp offGuards 1) g b)

/-- An operation completes: registers, guard and flags of the workspace that issued it (R142, R123). -/
def completeOp (s : State) (o : LongOp) : State :=
  let s := o.regs.foldl (fun s r => putRegAt s o.t o.slice o.wsp r.1 r.2) s
  let s := match o.guard with
    | some (g, b) => putGuardAt s o.t o.slice o.wsp g b
    | none => s
  orFlagsAt s o.t o.slice o.wsp o.flags

/-- DIVIDER_OP_COMPLETE: the k-th operation of a core's divider completes. -/
def execDividerOpComplete (c : CoreId) (k : Nat) (s : State) : Host.Outcome State Fault Refusal :=
  match (s.core c).div[k]? with
  | none => .next s
  | some o => .next (completeOp (s.modCore c fun r => { r with div := dropAt r.div k }) o)

/-- GCD_OP_COMPLETE: the k-th operation of a core's GCD unit completes. -/
def execGcdOpComplete (c : CoreId) (k : Nat) (s : State) : Host.Outcome State Fault Refusal :=
  match (s.core c).gcd[k]? with
  | none => .next s
  | some o => .next (completeOp (s.modCore c fun r => { r with gcd := dropAt r.gcd k }) o)

end Sys2Proof.Machine
end

