-- ==== Sys2Proof/Machine/Threads.lean ====
section
/-!
DEFINITION. Sys2Proof/Machine/Threads.lean: starting a thread (R32, R35), ending a task (R35, R40, R267, R331), join records (R34), windows
and their homes (R73, R266), what an access waits for, and reading code.
-/
namespace Sys2Proof.Machine

/-! ### Join records (R34, R35) -/

def joinPending (w : Nat) : Nat := field w 0 32
def joinFailed (w : Nat) : Nat := field w 32 16
def joinFirst (w : Nat) : Nat := field w 64 64
def joinWord (pending failed first : Nat) : Nat := pack [(32, pending), (16, failed), (16, 0), (64, first)]

/-- The storage address of a join record for a core and a slice's view. -/
def joinAddr (s : State) (c : CoreId) (sl : SliceId) (j : Word) : Option Addr :=
  if j.toNat % 16 ≠ 0 then none else (resolveLocal s c sl j).map (·.1)

/-- A task named by a join record ends: PENDING falls; a failed task counts, and the first one leaves its fault record's address. A
poisoned record is logged and left (R35). -/
def joinUpdate (s : State) (t : ThreadId) (sl : SliceId) (j : Word) (failed : Bool) (faultRec : Nat) : State :=
  match joinAddr s t.core sl j with
  | none => s
  | some a =>
    if s.poisoned a 16 then logAccess s t.core.dieId sl.part 0 a 1
    else
      let w := s.rd a 16
      let f := if failed then min (joinFailed w + 1) 0xFFFF else joinFailed w
      let first := if failed ∧ joinFirst w = 0 then faultRec else joinFirst w
      threadWatch (storeAt s t.core sl.part 0 a 16 (joinWord (joinPending w - 1) f first)) t sl.part a 16 true

/-- The address of a thread's fault record (R267). -/
def faultAddr (s : State) (t : ThreadId) (sl : SliceId) : Nat :=
  match s.slice? sl with
  | some r => r.faultBase + 32 * tidNat s t
  | none => 0

/-- Writes a fault record where its location can be written and its V bit is 0 (R267). -/
def writeFault (s : State) (t : ThreadId) (sl : SliceId) (e : EndRec) : State :=
  let va := faultAddr s t sl
  match walkTo s sl.part va .wr with
  | .error _ => s
  | .ok pa =>
    let a := addrHbm sl.part.pkg pa
    if (s.rd a 32).testBit 127 then s
    else
      let cause := e.tcause.toNat % 2 ^ 63 + 2 ^ 63
      storeAt s t.core sl.part 0 a 32 (e.tpc.toNat + cause * 2 ^ 64 + e.taddr.toNat * 2 ^ 128 + e.tinfo.toNat * 2 ^ 192)

/-- A failed task with no join record counts in the slice (R267); one with a record updates it. -/
def countFailure (t : ThreadId) (sl : SliceId) (s : State) (j : Word) : State :=
  if j = 0 then s.modSlice sl fun r => { r with faults := (r.faults + 1) % 2 ^ 32 }
  else joinUpdate s t sl j true (faultAddr s t sl)

/-- A task ends by fault, kill or abort. -/
def failTask (s : State) (t : ThreadId) (sl : SliceId) (j : Word) (e : EndRec) : State := countFailure t sl (writeFault s t sl e) j

/-! ### Leaving a slot -/

/-- The abort line falls when the slice has no thread left on the cluster (R48). -/
def lowerAbort (s : State) (sl : SliceId) (cl : ClusterId) : State :=
  if s.wk.slots.any fun (t, r) =>
      match r.thread with
      | some th => decide (th.ctl.slice = sl ∧ t.core.cluster = cl)
      | none => false then s
  else s.modSlice sl fun r => { r with abort := r.abort.filter (· ≠ cl) }

/-- What waits for a thread elsewhere is withdrawn: its requests at banks, its places in queues, its withheld acquires and the queue entry of
an operation that it has not staged (R225, R360). The
release of reservations and waiter records is with the named tiles. -/
def dropRequests (s : State) (t : ThreadId) : State :=
  { (s.modCore t.core fun r => { r with mqueue := r.mqueue.filter fun o => o.staged || decide (o.t ≠ t) }) with
      nt := { s.nt with bankNet := s.nt.bankNet.filter (·.t ≠ t), bankWait := s.nt.bankWait.filter (·.t ≠ t),
                        withheld := s.nt.withheld.filter (·.t ≠ t) } }

/-- Counts n dropped messages or words of a core. -/
def countDropped (c : CoreId) (n : Nat) (s : State) : State :=
  counterEvent (s.modCore c fun r => { r with dropped := r.dropped + n }) c.cluster c.core 0 (s.core c).dropped n

/-- The thread leaves its slot: the generation rises, words on its ports and an open message are discarded and counted (R40, R235,
R237, R331). -/
def leaveSlot (s : State) (t : ThreadId) : State :=
  match s.slot? t, s.thread? t with
  | some r, some th =>
    let lost := r.north.length + r.east.length + r.south.length + r.west.length + r.far.length + r.replies.length + bit th.openMsg.isSome
    let s := countDropped t.core lost s
    let s := s.modSlot t fun r =>
      { r with gen := (r.gen + 1) % 256, thread := none, steal := .none, north := [], east := [], south := [], west := [], far := []
               replies := [] }
    lowerAbort (dropRequests s t) th.ctl.slice t.core.cluster
  | _, _ => s

/-! ### Starting a thread (R32, R35) -/

/-- The first 0x300 bytes of a base workspace: arguments, cleared registers, control block, trap record, chain header and
bookkeeping. -/
def startImage (regs : List Nat) (marks prov ovdef : Nat) : Nat :=
  pack (regs.map fun x => (64, x)) + marks * 2 ^ (8 * offMarks) + 2 ^ (8 * offGuards) + prov * 2 ^ (8 * offProv) + ovdef * 2 ^ (8 * offBook)

/-- Starts a thread on a slot at a PC, as work of slice sl. -/
def startThread (s : State) (t : ThreadId) (sl : SliceId) (pc : Word) (regs : List Nat) (marks prov : Nat) (join : Word) : State :=
  let wsp := space3 (slotBase t.ridx)
  let priv := match s.slice? sl with
    | some r => r.priv
    | none => false
  let c : Ctl := { slice := sl, pc := pc, wsp := wsp, twsp := 0, hwsp := 0, abmask := false, joinRec := join, intrap := false, priv := priv
                   first := true, rep := none, repBnd := false, inl := [] }
  let th : Thread :=
    { ctl := c, phase := .ready, charged := false, again := false, outPre := false, outBudget := false, outDebug := (s.cluster t.core.cluster).dm.stopped
      due := ⟨none, [], [], [], none, none, none⟩, nsts := [], latch := none, openMsg := none, skid := 0, watch := none, boWait := none
      sampled := false, shape := none, stage := none, fences := [], seen := s.opId
      lines := [], used := [], lastIssue := none, yielded := false, endCause := none, watchHits := [] }
  let s := s.modSlot t fun r =>
    { r with thread := some th, steal := .none, north := [], east := [], south := [], west := [], far := [], replies := [] }
  let img := startImage regs marks prov (s.part sl.part).ovdef.toNat
  let s := (List.range 12).foldl (fun s i => winWrite s t sl wsp (64 * i) 64 (field img (512 * i) 512)) s
  s.modCore t.core fun r => { r with quietSince := s.ac }

/-- The roots in a record's set: revoked ones are owed their trap at the first instruction, decided ones are gone (R198). -/
def startRoots (s : State) (p : PartId) (prov : Nat) : Nat × List Nat :=
  let l := provRoots prov
  (provWord (l.filter fun n => rootState s p n = .open_), l.filter fun n => rootState s p n = .revoked)

/-- Starts a thread on a task record with its registers. -/
def startTask (s : State) (t : ThreadId) (rc : TaskRec) (regs : List Nat) (marks : Nat) : State :=
  let (prov, gone) := startRoots s rc.slice.part rc.prov.toNat
  (startThread s t rc.slice rc.pc regs marks prov rc.join).modThread t fun th => { th with due := { th.due with revoked := gone } }

/-! ### Windows and their homes (R73, R266) -/

/-- The lowest window address with a home in the spill area, and the lowest with one in the extension. -/
def spillFloor (t : ThreadId) (spillSz : Nat) : Int := (slotBase t.ridx : Int) - spillSz * 4096
def extFloor (t : ThreadId) (spillSz ext : Nat) : Int := spillFloor t spillSz - ext * 4096

/-- The virtual address of the home of window address a, which lies below the base workspace. -/
def homeVa (s : State) (t : ThreadId) (sl : SliceRec) (extBase extSize : Nat) (a : Int) : Nat :=
  let l := spillFloor t sl.spillSz
  if a < l then ((extBase : Int) + extSize * 4096 - (l - a)).toNat
  else ((sl.spillOf (tidNat s t + 1) : Nat) - ((slotBase t.ridx : Int) - a)).toNat

/-- The extension of the thread's spill area, base and size (R266): it stands in the bookkeeping area of the active window, or, while a
handler runs, of the window it interrupted. -/
def extOf (s : State) (t : ThreadId) (c : Ctl) : Nat × Nat :=
  let w := if c.intrap then BitVec.ofNat 64 (threadRead s t c c.hwsp offCaller 8) else c.wsp
  (threadRead s t c w offExtBase 8, threadRead s t c w offExtSize 8)

/-- Copies a line with its poison, as it stood in state s0. -/
def moveLineFrom (s0 s : State) (dst src : Addr) : State :=
  let bad := (List.range 4).filter fun i => s0.poisoned (src + 16 * i) 16
  let s := s.wr dst 64 (s0.rd src 64)
  { s with st := { s.st with poison := bad.foldl (fun l i => nins l (dst / 16 + i)) s.st.poison } }

def moveLine (s : State) (dst src : Addr) : State := moveLineFrom s s dst src

/-- The window address of a line number of window space, and whether the number is one. -/
def lineAddr (l : Nat) : Int := (l : Int) * 64 - 2 ^ 53
def lineBelow (t : ThreadId) (l : Nat) : Bool := decide (l < 2 ^ 60 ∧ lineAddr l < (slotBase t.ridx : Int))

/-- Writes one line's bytes, as they stood in state s0, to its home, or leaves the trap that its thread takes (R266). -/
def toHome (s0 s : State) (t : ThreadId) (sl : SliceId) (src : Addr) (va : Nat) : State :=
  match walkTo s0 sl.part va .wr with
  | .ok pa => moveLineFrom s0 s (addrHbm sl.part.pkg pa) src
  | .error r => s.modThread t fun th => { th with due := { th.due with fault := some r } }

/-- Where byte off of a window stands: at its home where its line has been evicted (R74). -/
def winWhere (s : State) (t : ThreadId) (th : Thread) (w : Word) (off : Nat) (n : Need) : Option Addr :=
  let l := winLine (winLocal w off)
  if lineBelow t l ∧ tfind th.lines l = some .home then
    match s.slice? th.ctl.slice with
    | none => none
    | some r =>
      let e := extOf s t th.ctl
      match walkTo s th.ctl.slice.part (homeVa s t r e.1 e.2 (waddrOf w + off)) n with
      | .ok pa => some (addrHbm t.core.pkg pa)
      | .error _ => none
  else some (winByte s t th.ctl.slice w off)

/-- The roots of a live thread's set, wherever its window's control block stands. -/
def heldRoots (s : State) (t : ThreadId) (th : Thread) : List Nat :=
  match winWhere s t th th.ctl.wsp offProv .rd with
  | some x => provRoots (s.rd x 8)
  | none => []

def putRoots (s : State) (t : ThreadId) (th : Thread) (l : List Nat) : State :=
  match winWhere s t th th.ctl.wsp offProv .wr with
  | some x => s.wr x 8 (provWord l)
  | none => s

/-- Decided roots leave a thread's set; a revoked one is owed its trap (R197, R198). -/
def settleRoots (s : State) (t : ThreadId) : State :=
  match s.thread? t with
  | none => s
  | some th =>
    let l := heldRoots s t th
    let p := th.ctl.slice.part
    if l.all fun n => rootState s p n = .open_ then s
    else
      let gone := l.filter fun n => rootState s p n = .revoked && !th.due.revoked.contains n
      (putRoots s t th (l.filter fun n => rootState s p n = .open_ || rootState s p n = .revoked)).modThread t fun th =>
        { th with due := { th.due with revoked := th.due.revoked ++ gone } }

/-- The thread's task has ended: it goes on at the JOIN that ran it inline, which has sampled already (R36, R351), or leaves its slot. -/
def leaveTask (s : State) (t : ThreadId) : State :=
  match (s.thread? t).map (·.ctl.inl) with
  | some (f :: rest) =>
    settleRoots (s.modThread t fun th =>
      { th.settled with
        charged := true
        again := true
        sampled := true
        endCause := none
        ctl := { th.ctl with pc := f.pc, wsp := f.wsp, twsp := f.twsp, hwsp := f.hwsp, abmask := f.abmask, joinRec := f.joinRec
                             intrap := f.intrap, first := false, rep := none, repBnd := false, inl := rest } }) t
  | _ => leaveSlot s t

/-- Moves the lines homed in the extension installed to their homes in a larger one (R266). -/
def rehome (s : State) (t : ThreadId) (r : SliceRec) (sl : SliceId) (lines : Tab Nat LineSt) (b n b' n' : Nat) : State :=
  let low := lines.filter fun e => decide (e.2 = .home ∧ lineAddr e.1 < spillFloor t r.spillSz) && lineBelow t e.1
  low.foldl (fun s' e =>
    match walkTo s sl.part (homeVa s t r b n (lineAddr e.1)) .rd with
    | .ok pa => toHome s s' t sl (addrHbm sl.part.pkg pa) (homeVa s t r b' n' (lineAddr e.1))
    | .error x => s'.modThread t fun th => { th with due := { th.due with fault := some x } }) s

/-- A range of window space below the homes of the thread raises spill-area overflow with its lowest address and the number of its lines
without a home (R266). -/
def needHome (sl : SliceRec) (p : Int) (n : Nat) : Exec Unit := do
  let t ← me; let c ← ctl
  let lo := extFloor t sl.spillSz (extOf (← get) t c).2
  if p < lo then trapWith ⟨15, false, BitVec.ofInt 64 p, BitVec.ofInt 64 ((min lo (p + n) + 63) / 64 - p / 64)⟩

/-- The check of a new active window for homes: an overflow trap for window space, a permission trap outside the data range (R266). -/
def checkWindow (w : Word) : Exec Unit := do
  let t ← me; let sl ← mySlice
  if wfield w 54 2 = 3 then
    let a := waddrOf w
    if a > slotBase t.ridx then permTrap w
    needHome sl a 0x2400
  else if wfield w 23 31 ≠ wfield (← ctl).wsp 23 31 ∨ !sl.inData (wfield w 0 23) 0x2400 then permTrap w

/-- The window F bytes below a window (R317); in the data range only OFFSET<22:0> counts down. -/
def windowBelow (w : Word) (f : Nat) : Word :=
  if wfield w 54 2 = 3 then space3 (waddrOf w - f)
  else BitVec.ofNat 64 (w.toNat / 2 ^ 23 * 2 ^ 23 + (w.toNat % 2 ^ 23 + 2 ^ 23 - f) % 2 ^ 23)

/-- Lines of window space that the chain has never used hold bytes that no rule gives: each a fresh free value (R74). A window in
the data range holds what its scratchpad bytes hold. -/
def freshLines (w : Word) : Exec Unit := do
  if wfield w 54 2 ≠ 3 then return
  let t ← me; let th ← thr
  let l := winLine w
  let n0 := (← get).free
  let missing := (List.range winLines).filter fun i => (tfind th.lines (l + i)).isNone
  modify fun s =>
    let s := missing.foldl (fun s i =>
      (List.range 64).foldl (fun s j =>
        s.put (winByte s t th.ctl.slice w (64 * i + j)) 1 (Config.freshByte (n0 + 64 * i + j)).toNat) s) s
    { s with free := n0 + 64 * winLines }

/-- The lines of a window that its chain has used are resident before an instruction uses them (R74). -/
def needLines (w : Word) : Exec Unit := do
  let th ← thr
  let l := winLine w
  need (!th.lines.any fun e => decide (l ≤ e.1 ∧ e.1 < l + winLines ∧ e.2 = .home)) .hold

/-- Copies n bytes at an offset from the active window to another. -/
def copyTo (w : Word) (off n : Nat) : Exec Unit := do
  let t ← me; let c ← ctl
  modify fun s => threadWrite s t c w off n (threadRead s t c c.wsp off n)

def putAt (w : Word) (off n v : Nat) : Exec Unit := do
  let t ← me; let c ← ctl
  modify fun s => threadWrite s t c w off n v

/-- The bookkeeping area, 0x270 to 0x2FF, in pieces that lie in one line each. -/
def copyBook (w : Word) : Exec Unit := do
  copyTo w 0x270 16
  copyTo w 0x280 64
  copyTo w 0x2C0 64

/-! ### What an access waits for -/

/-- The thread has no operation of a class outstanding. -/
def waitClass (cls : Nat) : Exec Unit := do
  let t ← me; let s ← get
  if outstanding s t (slotGen s t) cls ≠ 0 then parkMemory

/-- Whether every P, S and V access of the thread, and every store of its core that it may know of, is performed at cluster scope or
wider: nothing of them is in the store queue, at a bank, or on path V (R204, R207, R215). -/
def accessesDone (s : State) (t : ThreadId) (gen : Nat) : Bool :=
  let seen := match s.thread? t with
    | some th => th.seen
    | none => 0
  !((s.core t.core).storeq.any fun e => decide (e.t = t ∧ e.gen = gen ∨ e.id < seen)) &&
  !((s.tl.vnet ++ s.tl.retries ++ s.tl.refused).any fun m => decide (m.t = t ∧ m.gen = gen)) &&
  !(s.tl.answers.any fun o => decide (o.t = t)) &&
  (match s.thread? t with
   | some th => th.nsts.isEmpty
   | none => true)

/-- Waits until every earlier P, S and V access of the thread is performed (R204, R215, R331, R416). -/
def waitAccesses : Exec Unit := do
  let t ← me; let s ← get
  if !accessesDone s t (slotGen s t) then parkMemory

/-- FENCE, NLD and EXIT wait for every earlier NST, and a violation is delivered in place of the instruction (R177); in a handler that
trap is nested. -/
def waitStores : Exec Unit := do
  let th ← thr
  match th.due.kept ++ th.due.violations with
  | v :: _ =>
    modT fun th => { th with due := { th.due with kept := th.due.kept.drop 1, violations := if th.due.kept.isEmpty then th.due.violations.drop 1 else th.due.violations } }
    throw (.trapKeep ⟨8, true, v.ref, v.pc⟩)
  | [] => pure ()
  if !th.nsts.isEmpty then parkMemory

/-! ### Reading code beside the fetch -/

/-- The word at a PC, its line translated for execution. -/
def codeWord (s : State) (p : PartId) (pc : Word) : Except TrapRec IWord :=
  match walkTo s p pc.toNat .ex with
  | .error r => .error r
  | .ok pa => .ok (lineSlot (s.rd (addrHbm p.pkg (pa / 64 * 64)) 64) (wfield pc 0 3))

/-- The number of slots of a body that begins at a PC: up to the first with EOG set, within n slots (R221). -/
def bodyLen (s : State) (p : PartId) (pc : Word) : (n : Nat) → (k : Nat) → Except TrapRec (Option Nat)
  | 0, _ => .ok none
  | n + 1, k =>
    match codeWord s p pc with
    | .error r => .error r
    | .ok w => if w.getLsbD 23 then .ok (some (k + 1)) else bodyLen s p (slotAdd pc 1) n (k + 1)

/-- Recovers an active block from the REP that precedes the instruction at pc by idx + 1 slots (R223). -/
def recoverRep (s : State) (p : PartId) (pc : Word) (idx : Nat) : Option RepState :=
  let rp := slotAdd pc (-(idx : Int) - 1)
  match codeWord s p rp with
  | .error _ => none
  | .ok w =>
    match decode w with
    | .ok (.rep _ wc wi vb vs vst ast) =>
      match bodyLen s p (slotAdd rp 1) 16 0 with
      | .ok (some n) => some ⟨rp, idx, n, wc, wi, vb.toNat, vs.toNat + 1, vst.toNat, ast.toNat⟩
      | _ => none
    | _ => none

end Sys2Proof.Machine
end

