-- ==== Sys2Proof/Machine/System.lean ====
section
/-!
DEFINITION. Sys2Proof/Machine/System.lean: class 2 (R97 to R100, R201 to R206, R308, R324, R327, R340, R343, R365, R382, R384, R413 to R415)
and the steps that end a WAITEV.
-/
namespace Sys2Proof.Machine

def execNop (h : Hdr) (s : State) : Host.Outcome State Fault Refusal := issueSeq h (pure ()) s

/-! ### Guards (R343) -/

def execGset (h : Hdr) (gd : BitVec 3) (src : GsetSrc) (s : State) : Host.Outcome State Fault Refusal :=
  issueSeq h (do
    let b ← match src with
      | .reg o => (fun v => v != 0) <$> rd1 h o
      | .f => pure false
      | .t => pure true
    setGuard gd b) s

/-- Holds while an operation under way will write a guard (R71). -/
def guardsSettled : Exec Unit := do
  let t ← me; let c ← ctl; let s ← get
  need (!(List.range 8).any fun g => guardPending s t c.wsp g) .hold

def execGmov (h : Hdr) (x : GmovArg) (s : State) : Host.Outcome State Fault Refusal :=
  issueSeq h (do
    match x with
    | .r d =>
      guardsSettled
      wrReg d (BitVec.ofNat 64 ((← guardBits) / 2 * 2 + 1))
    | .w src =>
      let v ← rd1 h src
      wrWin offGuards 1 (v.toNat % 256 / 2 * 2 + 1)) s

/-- The function of GLOG. -/
def glogOp (op : Nat) (a b : Bool) : Bool :=
  match op with
  | 0 => a && b
  | 1 => a || b
  | _ => a != b

def execGlog (h : Hdr) (gd a b : BitVec 3) (ia ib : Bool) (op : BitVec 2) (s : State) : Host.Outcome State Fault Refusal :=
  issueSeq h (do
    let x ← rdGuard a.toNat
    let y ← rdGuard b.toNat
    setGuard gd (glogOp op.toNat (x != ia) (y != ib))) s

/-! ### Control registers (R97) -/

/-- The workspace that a handler interrupted, else the active one. -/
def recordWindow : Exec Word := do
  let t ← me; let c ← ctl; let s ← get
  if !c.intrap then return c.wsp
  let w := BitVec.ofNat 64 (threadRead s t c c.hwsp offCaller 8)
  needLines w
  return w

def rdRecord (off : Nat) : Exec Word := do
  let t ← me; let c ← ctl; let w ← recordWindow
  return BitVec.ofNat 64 (threadRead (← get) t c w off 8)

/-- A barrier register as it reads (R239). -/
def BarState.word (b : BarState) : Word :=
  BitVec.ofNat 64 (pack [(4, b.hM1), (4, b.y0), (4, b.wM1), (4, b.x0), (4, b.nthrM1), (1, bit b.v), (35, 0), (8, b.gen)])

/-- A barrier register that no BARSET has written. -/
def BarState.reset : BarState := ⟨0, false, 0, 0, 0, 0, 0, [], [], false, none, none, false⟩

/-- BARn of the thread's slice on its core. -/
def myBar (n : Nat) : Exec BarState := do
  let c ← ctl
  return tget ((← get).core (← myCore)).bars (c.slice, n) BarState.reset

def watchpoint (n : Nat) : Exec WpRec := do return (((← get).core (← myCore)).wps[n]?).getD WpRec.reset

/-- The value of a control register (R324); its reserved fields read zero (R6). -/
def readCsr (n : Nat) : Exec Word := do
  let s ← get; let c ← ctl; let core ← myCore; let sl ← mySlice
  if 0x060 ≤ n ∧ n < 0x064 then return (← watchpoint (n - 0x060)).ctl
  if 0x064 ≤ n ∧ n < 0x068 then return (← watchpoint (n - 0x064)).addr
  if 0x070 ≤ n ∧ n < 0x074 then return (← myBar (n - 0x070)).word
  match n with
  | 0x000 => return BitVec.ofNat 64 (← rdWin offFpcr 1)
  | 0x001 => return BitVec.ofNat 64 ((← rdWin offFpsr 4) % 512)
  | 0x010 => return c.wsp
  | 0x011 => return c.twsp
  | 0x020 => rdRecord offTpc
  | 0x021 => return (← rdRecord offTcause) &&& (0x80000000000003FF : Word)
  | 0x022 => rdRecord offTaddr
  | 0x023 => rdRecord offTinfo
  | 0x030 => return BitVec.ofNat 64 (c.slice.seq % 2 ^ 32 + c.slice.part.num * 2 ^ 32)
  | 0x031 => return sl.deadline
  | 0x032 => return BitVec.ofNat 64 (sl.central + tget sl.allot core 0)
  | 0x040 => return BitVec.ofNat 64 (← rdWin offProv 8)
  | 0x041 => return BitVec.ofNat 64 (bit c.abmask)
  | 0x042 => return (s.part c.slice.part).vquota
  | 0x050 => return (← thr).skid
  | 0x051 => return s.dtime
  | 0x080 => do
    if !c.priv then permTrap 0
    return (s.core core).placeBase
  | _ => return BitVec.ofNat 64 (← rdWin offBook 8)

def execCsrr (h : Hdr) (d : Reg) (n : BitVec 12) (s : State) : Host.Outcome State Fault Refusal :=
  issueSeq h (do wrReg d (← readCsr n.toNat)) s

/-- The registers that a program may write, and when. -/
def mayWriteCsr (c : Ctl) (n : Nat) : Bool :=
  match n with
  | 0x000 => true
  | 0x001 => true
  | 0x011 => true
  | 0x041 => true
  | 0x080 => c.priv
  | _ => (decide (0x020 ≤ n ∧ n < 0x024) && c.intrap) || decide (0x060 ≤ n ∧ n < 0x068)

def wrRecord (off : Nat) (v : Nat) : Exec Unit := do
  let w ← recordWindow
  putAt w off 8 v

/-- WPADDRn takes a SPACE 0 address of this core that the slice's view maps (R292). -/
def writeWpAddr (n : Nat) (v : Word) : Exec Unit := do
  let c ← ctl; let core ← myCore
  if wfield v 54 2 ≠ 0 ∨ wfield v 44 8 ≠ core.core ∨ wfield v 0 3 ≠ 0 then permTrap v
  match resolveLocal (← get) core c.slice v with
  | none => permTrap v
  | some (a, _) => modify fun s => s.modCore core fun r =>
      { r with wps := setAt r.wps n { (r.wps[n]?).getD WpRec.reset with addr := v, loc := some a } }

/-- Writes a control register; reserved fields ignore the write (R6). -/
def writeCsr (n : Nat) (v : Word) : Exec Unit := do
  let core ← myCore
  if 0x060 ≤ n ∧ n < 0x064 then
    if wfield v 4 2 = 3 then return
    let k := n - 0x060
    modify fun s => s.modCore core fun r =>
      { r with wps := setAt r.wps k { (r.wps[k]?).getD WpRec.reset with ctl := v &&& (0x800000000000003F : Word) } }
  else if 0x064 ≤ n ∧ n < 0x068 then writeWpAddr (n - 0x064) v
  else match n with
  | 0x000 => wrWin offFpcr 1 (v.toNat % 256)
  | 0x001 => wrWin offFpsr 4 (v.toNat % 512)
  | 0x011 => modCtl fun c => { c with twsp := v &&& (0x80000000007FFFC0 : Word) }
  | 0x020 => wrRecord offTpc v.toNat
  | 0x021 => wrRecord offTcause (v &&& (0x80000000000003FF : Word)).toNat
  | 0x022 => wrRecord offTaddr v.toNat
  | 0x023 => wrRecord offTinfo v.toNat
  | 0x041 => modCtl fun c => { c with abmask := bitAt v 0 }
  | _ => modify fun s => s.modCore core fun r => { r with placeBase := v }

def execCsrw (h : Hdr) (src : Opnd) (n : BitVec 12) (s : State) : Host.Outcome State Fault Refusal :=
  issueSeq h (do
    let c ← ctl
    if c.rep.isSome then throw (.trap (illegalOf (.csrw h src n)))
    if !mayWriteCsr c n.toNat then permTrap 0
    writeCsr n.toNat (← rd1 h src)) s

/-! ### WSPSW (R414) -/

/-- The placement of a new workspace. -/
def checkPlacement (w : Word) : Exec Unit := do
  let t ← me; let c ← ctl; let sl ← mySlice
  if wfield w 54 2 = 3 then
    if wfield w 56 8 ≠ 0 ∨ waddrOf w > (slotBase t.ridx : Int) then permTrap w
  else
    if wfield w 54 2 ≠ 0 ∨ wfield w 44 8 ≠ t.core.core ∨ !sl.inData (wfield w 0 23) 0x2400 then permTrap w
    if (resolveLocal (← get) t.core c.slice w).isNone then permTrap w
  if w.toNat % 64 ≠ 0 then alignTrap w

def execWspsw (h : Hdr) (d src : Reg) (s : State) : Host.Outcome State Fault Refusal :=
  issueSeq h (do
    notInBody (.wspsw h d src)
    let c ← ctl
    if c.intrap then permTrap 0 1
    let w ← rd1 h (.w src)
    checkPlacement w
    waitClass 2
    waitClass 3
    if wfield w 54 2 = 3 then checkWindow w
    needLines w
    freshLines w
    putAt w offStatus 8 (statusWord (← thr))
    copyTo w offProv 8
    copyTo w offBook 24
    let t ← me
    putAt c.wsp offAtags 2 (tagsOf (← get) t c)
    modCtl fun c => { c with wsp := w }
    modify fun s => setAccTags s t.core c.slice (threadRead s t c w offAtags 2)
    wrReg d c.wsp) s

/-! ### DBG (R327, R328) -/

/-- A debug module receives a DBG. -/
def dbgArrives (s : State) (t : ThreadId) (code : Nat) : State :=
  let cl := t.core.cluster
  let d := (s.cluster cl).dm.dbg
  if bitAt d 62 then
    let d' := if bitAt d 63 then d
      else BitVec.ofNat 64 (t.core.inCluster * 2 ^ 9 + slotNo s t * 2 ^ 12 + code * 2 ^ 16 + 3 * 2 ^ 62)
    requestStop (s.modCluster cl fun r => { r with dm := { r.dm with dbg := d' } }) cl
  else s

/-- DBG retires before its request arrives: a new operation number says that it executed. -/
def execDbg (h : Hdr) (code : BitVec 16) (s : State) : Host.Outcome State Fault Refusal :=
  match issueSeq h (do let _ ← newOp) s, s.cur with
  | .next s', .thread t => .next (if s'.opId = s.opId then s' else dbgArrives s' t code.toNat)
  | r, _ => r

/-! ### WAITEV (R413) -/

/-- A local address of SPACE 0 or 1 that an instruction accesses: aligned, and in the view (R144). -/
def bankAddr (a : Word) (n : Nat) : Exec Addr := do
  let c ← ctl
  let (x, _) ← orStop (resolveLocal (← get) (← myCore) c.slice a) (.trap (mkTrap 5 a.toNat 0))
  if a.toNat % n ≠ 0 then alignTrap a
  return x

/-- Reads bytes at a bank; poison traps. -/
def bankRead (a : Word) (x : Addr) (n : Nat) : Exec Nat := do
  let s ← get
  if s.poisoned x n then trapAt 11 a.toNat 0
  watchMine x n false
  return s.rd x n

def execWaitev (h : Hdr) (gd : BitVec 3) (d a : Reg) (e lim : Opnd) (s : State) : Host.Outcome State Fault Refusal :=
  issueSeq h (do
    let s0 ← get
    waitOpnds h [.w a, e, lim] []
    let av ← rdOpnd h (.w a)
    let x ← bankAddr av 8
    let ev ← rdOpnd h e
    let tv ← rdOpnd h lim
    let v := BitVec.ofNat 64 (← bankRead av x 8)
    let waited := (← thr).watch.isSome
    if !waited && v == ev && decide ((← get).dtime.toNat < tv.toNat) then
      set s0
      let _ ← bankRead av x 8
      modT fun th => { th with watch := some ⟨x, tv.toNat, false⟩ }
      throw (.wait .watch)
    wrReg d v
    setGuard gd (v != ev)) s

/-- A watch ends: its thread reads the word again. -/
def endWatch (s : State) (t : ThreadId) (ok : State → WatchRec → Bool) : State :=
  match s.thread? t with
  | none => s
  | some th =>
    match th.phase, th.watch with
    | .watch, some w => if ok s w then s.modThread t fun th => { th with phase := .ready, watch := some { w with fired := true } } else s
    | _, _ => s

/-- WAITEV_WAKE: a write touched the watched word. -/
def execWaitevWake (t : ThreadId) (s : State) : Host.Outcome State Fault Refusal := .next (endWatch s t fun _ w => w.fired)

/-- WAITEV_TIMEOUT: device time has reached the limit. -/
def execWaitevTimeout (t : ThreadId) (s : State) : Host.Outcome State Fault Refusal :=
  .next (endWatch s t fun s w => decide (w.limit ≤ s.dtime.toNat))

/-! ### Overflow table, place table, abort line -/

/-- The table that OVFT names: form I16 extends it with zeros (R382). -/
def ovftTable (h : Hdr) : Src → Exec Word
  | .op o => rd1 h o
  | .imm16 i => pure (i.setWidth 64)
  | .imm32 i => pure (i.setWidth 64)

/-- No 2-bit entry of a table is 3, and nothing stands above it. -/
def ovTableOk (t : Word) : Bool := wfield t 14 50 = 0 && (List.range 7).all fun i => wfield t (2 * i) 2 ≠ 3

def needPriv : Exec Unit := do
  if !(← ctl).priv then permTrap 0

def execOvft (h : Hdr) (t : Src) (s : State) : Host.Outcome State Fault Refusal :=
  issueSeq h (do
    needPriv
    let v ← ovftTable h t
    if !ovTableOk v then permTrap 0 1
    wrWin offBook 8 v.toNat) s

def execPlacew (h : Hdr) (i e : Opnd) (s : State) : Host.Outcome State Fault Refusal :=
  issueSeq h (do
    needPriv
    let (x, y) ← rd2 h i (.op e)
    if x.toNat > 191 ∨ wfield y 16 48 ≠ 0 ∨ wfield y 8 7 ≠ 0 then permTrap 0 1
    if bitAt y 15 ∧ wfield y 0 8 > 203 then permTrap 0 1
    let core ← myCore
    modify fun s => s.modCore core fun r => { r with place := tput r.place x.toNat y.toNat }) s

/-- ABORT raises or lowers the slice's line on the cluster (R308). -/
def execAbort (h : Hdr) (clr : Bool) (s : State) : Host.Outcome State Fault Refusal :=
  issueSeq h (do
    let c ← ctl; let core ← myCore
    modify fun s => s.modSlice c.slice fun r =>
      let rest := r.abort.filter (· ≠ core.cluster)
      { r with abort := if clr then rest else core.cluster :: rest }) s

def execAbchk (h : Hdr) (gd : BitVec 3) (s : State) : Host.Outcome State Fault Refusal :=
  issueSeq h (do
    let c ← ctl; let t ← me
    setGuard gd (abortRaised (← get) t c)) s

/-! ### Fences (R205, R206) -/

/-- Whether an access of the thread on a path, with an operation number below `before`, is not yet performed at a scope (R204).
Paths are numbered 0 P, 1 S, 2 V, 3 C, 4 M, 5 K; the thread's accesses on S are performed when they issue or before it goes on. -/
def pathBusy (s : State) (t : ThreadId) (gen path scope before : Nat) : Bool :=
  let c := s.core t.core
  let mine := fun (u : ThreadId) (g id : Nat) => decide (u = t ∧ g = gen ∧ id < before)
  match path with
  | 0 => decide (2 ≤ scope) && c.storeq.any fun e => mine e.t e.gen e.id ||
      (match s.thread? t with | some th => decide (e.id < th.seen ∧ e.id < before) | none => false)
  | 1 => false
  | 2 => (match s.thread? t with | some th => th.nsts.any fun n => decide (n.id < before) | none => false) ||
    (s.tl.vnet ++ s.tl.retries ++ s.tl.refused).any (fun m => mine m.t m.gen m.id) || s.tl.answers.any fun o => decide (o.t = t ∧ o.id < before)
  | 3 => ((s.cluster t.core.cluster).copies).any (fun x => mine x.t x.gen x.id) || s.nt.contribs.any (fun x => mine x.t x.gen x.id) ||
    s.nt.boarrs.any fun x => mine x.t x.tgen x.id
  | 4 => c.matOps.any fun o => mine o.t o.gen o.id
  | _ => s.nt.plans.any fun x => mine x.t x.gen x.id

/-- A later access on a path is held until what came before the thread's last FENCE on that path is performed (R205). -/
def fenceHold (path : Nat) : Exec Unit := do
  let t ← me; let th ← thr; let s ← get
  match tfind th.fences path with
  | none => pure ()
  | some before => need (!pathBusy s t (slotGen s t) path 2 before) .hold

/-- What a FENCE at cluster scope or wider leaves behind, for every path that it orders (R205, R208). -/
def dropOperands (core : CoreId) (s : State) : State := s.modCore core fun r => { r with operandBuf := [] }

/-- The extent buffer and the operand buffer of a core hold what no later write changes: a fence that orders their paths drops them. -/
def dropExt (core : CoreId) (s : State) : State := s.modCore core fun r => { r with ext := [] }

def execFence (h : Hdr) (scope : BitVec 3) (s : State) : Host.Outcome State Fault Refusal :=
  issueSeq h (do
    waitStores
    let t ← me
    let id := (← get).opId
    let wide := decide (2 ≤ scope.toNat)
    modT fun th => { th with fences := (if wide then nrange 0 6 else nrange 1 5).foldl (fun l p => tput l p id) th.fences }
    if wide then modify fun s => dropExt t.core (dropOperands t.core (syncP t s))
    else if scope ≠ 0 then modT fun th => { th with seen := id }) s

def execXfence (h : Hdr) (scope : BitVec 3) (fr dest : BitVec 6) (s : State) : Host.Outcome State Fault Refusal :=
  issueSeq h (do
    let t ← me; let s ← get
    if (nrange 0 6).any fun p => fr.getLsbD p && pathBusy s t (slotGen s t) p scope.toNat s.opId then parkMemory
    modify fun s =>
      let s := if dest.getLsbD 0 && decide (2 ≤ scope.toNat) then syncP t s else s
      let s := if dest.getLsbD 4 then dropOperands t.core s else s
      if dest.getLsbD 5 then dropExt t.core s else s) s

end Sys2Proof.Machine
end

