-- ==== Sys2Proof/Machine/Plain.lean ====
section
/-!
DEFINITION. Sys2Proof/Machine/Plain.lean: path P: homing (R153 to R156), caches (R152), the store queue (R204, R398), release tags and
acquires (R205, R213), class 4 (R356, R357, R383, R398), and the steps of the translation and scope-miss machinery.
-/
namespace Sys2Proof.Machine

/-! ### Homing (R153 to R156) -/

/-- The home that a region entry records. -/
def entryHome (pkg e : Nat) : HomeId := ⟨if e.testBit 30 then field e 16 8 else pkg, field e 7 2, field e 5 2, field e 0 5⟩

/-- The entry that a first touch writes. -/
def homeEntry (h : HomeId) : Nat := pack [(5, h.slice), (2, h.quad), (2, h.die), (22, 0), (1, 1)]

def RegionKey.pkg : RegionKey → Nat
  | .plain p _ => p
  | .name p _ => p.pkg

def RegionKey.num : RegionKey → Nat
  | .plain _ n => n
  | .name _ n => n

/-- Where a region's 4-byte entry stands: a plain region's in the package's map in reserved HBM, a name region's at NRMBASE (R156). -/
def regionPlace (s : State) : RegionKey → Addr
  | .plain pkg n => addrHbm pkg ((s.pkg pkg).rmapBase + 4 * n)
  | .name p n => addrHbm p.pkg ((s.part p).nrmbase.toNat + 4 * n)

def regionEntry (s : State) (k : RegionKey) : Nat := s.rd (regionPlace s k) 4

def setRegionEntry (s : State) (k : RegionKey) (e : Nat) : State := s.put (regionPlace s k) 4 e

/-- The home of a region for a requester at a router of a quadrant: the cached or recorded one, or that of a first touch. -/
def homeOf (s : State) (q : QuadId) (router : Nat) (k : RegionKey) : HomeId × State :=
  match tfind (s.quad q).regionCache k with
  | some e => (entryHome k.pkg e, s)
  | none =>
    let s := if (s.quad q).regionMiss.contains k then s else s.modQuad q fun r => { r with regionMiss := r.regionMiss ++ [k] }
    let e := regionEntry s k
    if e.testBit 31 then (entryHome k.pkg e, s)
    else
      let h : HomeId := ⟨q.pkg, q.die, q.quad, 4 * router + k.num % 4⟩
      (h, setRegionEntry s k (homeEntry h))

/-- A plain access by a core reaches its region's home. -/
def touchPlain (s : State) (c : CoreId) (pa : Nat) : State :=
  if pa < 2 ^ 39 then (homeOf s c.quad c.cluster.router (.plain c.pkg (pa / 2 ^ 16))).2 else s

/-- REGION_CACHE_FILL: the k-th miss of a quadrant's region cache reads its entry (R155). -/
def execRegionCacheFill (q : QuadId) (k : Nat) (s : State) : Host.Outcome State Fault Refusal :=
  match (s.quad q).regionMiss[k]? with
  | none => .next s
  | some key =>
    let e := regionEntry s key
    .next (s.modQuad q fun r =>
      { r with regionMiss := dropAt r.regionMiss k
               regionCache := if e.testBit 31 then (tput r.regionCache key e).take 65536 else r.regionCache })

/-! ### The store queue and L1 -/

/-- n bytes x at address a as changed by a store. -/
def overlayOne (a n x : Nat) (e : StoreEnt) : Nat :=
  (nrange 0 n).foldl (fun x i =>
    if e.pa ≤ a + i ∧ a + i < e.pa + e.n then x - field x (8 * i) 8 * 2 ^ (8 * i) + field e.val (8 * (a + i - e.pa)) 8 * 2 ^ (8 * i) else x) x

def StoreEnt.mine (e x : StoreEnt) : Bool := decide (x.t = e.t ∧ x.gen = e.gen)

/-- A store that waits for others of the core's queue before it (R205, R207): a release of cluster scope or wider for every earlier one
of its thread, and any store for those that its thread's fence, or its release, stands behind. -/
def heldStore (before : List StoreEnt) (e : StoreEnt) : Bool :=
  before.any fun x => decide (x.id < e.after) || (decide (2 ≤ e.rel.getD 0) && e.mine x)

/-- The stores of a core's queue that a thread sees: its own, and those of the core's other threads that wait for no other (R204, R205). -/
def visibleFrom (t : ThreadId) : (before : List StoreEnt) → List StoreEnt → List StoreEnt
  | _, [] => []
  | before, e :: r =>
    let rest := visibleFrom t (before ++ [e]) r
    if e.t = t || !heldStore before e then e :: rest else rest

def visibleStores (s : State) (t : ThreadId) : List StoreEnt := visibleFrom t [] (s.core t.core).storeq

/-- What a thread sees of n bytes at a storage address that hold x: its core's store queue stands over them (R204). -/
def seenBytes (s : State) (t : ThreadId) (a n x : Nat) : Nat :=
  ((visibleStores s t).filter fun e => decide (e.pa < a + n ∧ a < e.pa + e.n)).foldl (fun x e => overlayOne a n x e) x

/-- Whether the queue gives the thread every byte of an access, which then meets no poison. -/
def queueCovers (s : State) (t : ThreadId) (a n : Nat) : Bool :=
  (visibleStores s t).any fun e => decide (e.pa ≤ a ∧ a + n ≤ e.pa + e.n)

/-- L1 holds 320 KiB of 64-byte lines (R13). -/
def l1Lines : Nat := 5120

def putL1 (s : State) (c : CoreId) (l : L1Line) : State :=
  s.modCore c fun r => { r with l1 := (l :: r.l1.filter fun x => ¬ (x.addr = l.addr ∧ x.tile = l.tile)).take l1Lines }

/-- Allocates a plain line as its home holds it. A line with poison is not kept: each reader meets the poison at the home (R167). -/
def fillL1 (s : State) (c : CoreId) (line : Addr) : State := if s.poisoned line 64 then s else putL1 s c ⟨line, s.rd line 64, none⟩

def plainLine (s : State) (c : CoreId) (line : Addr) : Option L1Line := (s.core c).l1.find? fun l => decide (l.addr = line ∧ l.tile = none)

/-- Reads n bytes of one 64-byte line of plain memory on path P. A line in L1 may be served from there (R152). HINT 1 allocates none, and
HINT 4 neither reads nor fills L1 (R85). -/
def plainRead (hint : Nat) (va : Word) (pa n : Nat) : Exec Nat := do
  let t ← me
  let a := addrHbm t.core.pkg pa
  let line := a / 64 * 64
  modify fun s => touchPlain s t.core pa
  let s ← get
  let served ← match if pa < 2 ^ 47 ∧ hint ≠ 4 then plainLine s t.core line else none with
    | some l => do
      let k ← newFree
      pure (if Config.l1Serves k then some (field l.data (8 * (a - line)) (8 * n)) else none)
    | none => pure none
  let s ← get
  match served with
  | some x => return seenBytes s t a n x
  | none =>
    if s.poisoned a n && !queueCovers s t a n then trapAt 11 va.toNat 0
    if pa < 2 ^ 47 ∧ hint ≠ 1 ∧ hint ≠ 4 then set (fillL1 s t.core line)
    return seenBytes s t a n (s.rd a n)

/-- A core's L1 line takes a store that its home has performed, where it is present (R152); a granule that stays poisoned leaves L1. -/
def updateL1 (s : State) (c : CoreId) (e : StoreEnt) : State :=
  let line := e.pa / 64 * 64
  let bad := s.poisoned e.pa e.n
  s.modCore c fun r => { r with l1 := (r.l1.filter fun l => !(bad && decide (l.addr = line ∧ l.tile = none))).map fun l =>
    if l.addr = line ∧ l.tile = none then { l with data := overlayOne l.addr 64 l.data e } else l }

/-- The operation number before which the thread's last FENCE orders accesses of a path. -/
def fenceMark (path : Nat) : Exec Nat := do return tget (← thr).fences path 0

/-- The store queue takes an instruction's stores while fewer than its 32 entries are filled (R398). -/
def storeRoom : Exec Unit := do
  if ((← get).core (← myCore)).storeq.length ≥ 32 then throw .hold

/-- Enters a store of n bytes of one 64-byte line. A release of cluster scope or wider also stands behind the stores that its thread has
come to know of (R207). -/
def enterStore (pa n val : Nat) (rel : Option Nat) : Exec Unit := do
  let t ← me; let th ← thr; let gen ← myGen
  let after ← fenceMark 0
  let id ← newOp
  let after := if 2 ≤ rel.getD 0 then max after th.seen else after
  let e : StoreEnt := ⟨id, t, gen, th.ctl.slice, th.ctl.pc, addrHbm t.core.pkg pa, n, val, rel, after⟩
  modify fun s => s.modCore t.core fun r => { r with storeq := r.storeq ++ [e] }

def queueStore (pa n val : Nat) (rel : Option Nat) : Exec Unit := do
  storeRoom
  enterStore pa n val rel

/-! ### Release tags (R213) -/

/-- Whether a scope around a core includes a thread at another core; `same` says that it is the same thread (R201). -/
def scopeHas (scope : Nat) (a b : CoreId) (same : Bool) : Bool :=
  match scope with
  | 0 => same
  | 1 => a = b
  | 2 => a.cluster = b.cluster
  | 3 => a.dieId = b.dieId
  | _ => true

/-- What a tag covers: on path P the 64-byte line of its location, on path S the granule. -/
def tagUnit (a : Addr) : Nat := if a % 2 ^ 128 < 2 ^ 56 then 64 else 16

/-- The tags that an access at a meets: those of its line or granule. -/
def tagsAt (s : State) (a : Addr) : List RelTag := s.nt.relTags.filter fun g => decide (g.addr / tagUnit a = a / tagUnit a)

def RelTag.own (g : RelTag) (t : ThreadId) (gen : Nat) : Bool := decide (g.t = t ∧ g.gen = gen)

def tagOutside (g : RelTag) (t : ThreadId) (gen : Nat) : Bool := !scopeHas g.scope g.core t.core (g.own t gen)

/-- A scope-miss event of class 4 for an acquiring thread (R273). -/
def scopeEvent (s : State) (t : ThreadId) (kind ac writer : Nat) : State :=
  match s.thread? t with
  | none => s
  | some th =>
    raiseEvent s t.core.dieId t.core.core (slotNo s t) th.ctl.slice.part 4 (!(provRoots (threadProv s t th.ctl)).isEmpty) [kind, ac, writer]

/-- A release leaves its tag; a write that is none has cleared the location's already (R213). -/
def leaveTagOf (s : State) (g : Option RelTag) : State := { s with nt := { s.nt with relTags := s.nt.relTags ++ g.toList } }

/-- An acquire by the executing thread meets the tags at an address: outside a tag's scope it is withheld; where its own scope leaves a
writer out, its effects are those of partition scope (R213). -/
def acquireAt (a : Addr) (scope : Nat) : Exec Unit := do
  let t ← me; let gen ← myGen; let s ← get
  match (tagsAt s a).find? fun g => tagOutside g t gen with
  | some g => throw (.enrol (.withheld ⟨t, scope, g, false, s.ac⟩) .acquire)
  | none =>
    match (tagsAt s a).find? fun g => !scopeHas scope t.core g.core (g.own t gen) with
    | some g => modify fun s => syncP t (scopeEvent s t 2 0 g.core.core)
    | none => pure ()

/-- A second release to a location waits at the point of coherence while an acquire is withheld for the first (R214). -/
def releaseWaits (s : State) (a : Addr) (n : Nat) : Bool :=
  s.nt.withheld.any fun w => decide (w.tag.addr < a + n ∧ a < w.tag.addr + w.tag.n)

/-- A thread in a phase goes on. -/
def wakeFrom (s : State) (t : ThreadId) (ph : Phase) : State :=
  s.modThread t fun th => if th.phase = ph then { th with phase := .ready } else th

/-- SCOPE_MISS: the k-th withheld acquire's message reaches the writer's core, whose reserved context answers when the writes that
entered the queue before the release are performed (R213, R214). -/
def execScopeMiss (k : Nat) (s : State) : Host.Outcome State Fault Refusal :=
  match s.nt.withheld[k]? with
  | none => .next s
  | some w =>
    if (s.core w.tag.core).storeq.any fun e => decide (e.t = w.tag.t ∧ e.gen = w.tag.gen ∧ e.id < w.tag.before) then .next s
    else .next { s with nt := { s.nt with withheld := setAt s.nt.withheld k { w with promoted := true } } }

/-- The answer to a withheld acquire: its event, and a widened reply where its own scope leaves the writer out (R213). -/
def answerWithheld (s : State) (x : Withheld) : State :=
  let s := scopeEvent s x.t 1 (s.ac - x.since) x.tag.core.core
  let s := if scopeHas x.scope x.t.core x.tag.core false then s else syncP x.t (scopeEvent s x.t 2 0 x.tag.core.core)
  wakeFrom s x.t .acquire

/-- PROMOTED_REPLY: the point of coherence clears the tag and answers every acquire it withheld for it. -/
def execPromotedReply (k : Nat) (s : State) : Host.Outcome State Fault Refusal :=
  match s.nt.withheld[k]? with
  | none => .next s
  | some w =>
    if !w.promoted then .next s
    else
      let mine := fun (x : Withheld) => decide (x.tag = w.tag)
      let done := s.nt.withheld.filter mine
      let s := { s with nt := { s.nt with withheld := s.nt.withheld.filter (fun x => !mine x), relTags := s.nt.relTags.filter (· ≠ w.tag) } }
      .next (done.foldl answerWithheld s)

/-! ### LD, ST and PF -/

def sizeOf (sz : BitVec 2) : Nat :=
  match sz.toNat with
  | 0 => 8
  | 1 => 4
  | 2 => 2
  | _ => 1

/-- The address of a class-4 or class-5 access (R357). -/
def baseIndex (h : Hdr) (b : Opnd) (x : Src) : Exec Word := do
  let (v, i) ← rd2 h b x
  return v + i

/-- The address of a plain access and its translation. -/
def plainAddr (a : Word) (n : Nat) (nd : Need) : Exec Nat := do
  if wfield a 52 12 ≠ 0 then trapAt 4 a.toNat 4
  if a.toNat % n ≠ 0 then alignTrap a
  translate a nd

/-- An acquire of cluster scope or wider invalidates the plain lines (R152). -/
def acquirePlain (pa scope : Nat) : Exec Unit := do
  let t ← me
  acquireAt (addrHbm t.core.pkg pa) scope
  if 2 ≤ scope then modify (syncP t)
  else if scope = 1 then modify fun s => s.modThread t fun th => { th with seen := s.opId }

def execLd (h : Hdr) (d : Reg) (b : Opnd) (x : Src) (ord : BitVec 2) (scope : BitVec 3) (sz : BitVec 2) (sgn : Bool) (s : State) :
    Host.Outcome State Fault Refusal :=
  issueSeq h (do
    let a ← baseIndex h b x
    let n := sizeOf sz
    let pa ← plainAddr a n .rd
    fenceHold 0
    if ord = 1 then acquirePlain pa scope.toNat
    let v ← plainRead h.hint.toNat a pa n
    wrReg d (extend sgn (8 * n) v)) s

def execSt (h : Hdr) (src b : Opnd) (x : Src) (ord : BitVec 2) (scope : BitVec 3) (sz : BitVec 2) (s : State) :
    Host.Outcome State Fault Refusal :=
  issueSeq h (do
    waitOpnds h (allSrcs [src, b] x) []
    let a ← baseIndex h b x
    let n := sizeOf sz
    let pa ← plainAddr a n .wr
    waitConfirmed
    let v ← rdOpnd h src
    queueStore pa n (v.toNat % 2 ^ (8 * n)) (if ord = 2 then some scope.toNat else none)) s

/-- The line that a PF fetches, where nothing drops it. -/
def prefetchLine (s : State) (t : ThreadId) (p : PartId) (a : Word) : Option Nat :=
  if wfield a 52 12 ≠ 0 then none
  else
    let own := tlbFind (s.core t.core).tlb p a.toNat
    let hit := own.isSome || (tlbFind (s.quad t.core.quad).stlb p a.toNat).isSome
    if !hit && decide ((s.quad t.core.quad).miss.length ≥ 256) then none
    else match own.elim (walkAt s t.core.quad p a.toNat .rd) fun e =>
        if e.rd then .ok (e.pbase * 2 ^ e.log2 + a.toNat % 2 ^ e.log2) else .error (mkTrap 5 a.toNat 0) with
    | .error _ => none
    | .ok pa => if 2 ^ 47 ≤ pa ∨ s.poisoned (addrHbm t.core.pkg (pa / 64 * 64)) 64 then none else some (pa / 64 * 64)

/-- PF: whatever would park or trap drops the fetch (R383). -/
def execPf (h : Hdr) (b : Opnd) (x : Src) (s : State) : Host.Outcome State Fault Refusal :=
  issueSeq h (do
    let s0 ← get
    let a ← tryCatch (some <$> baseIndex h b x) (fun e => if e = .hold then throw e else do set s0; pure none)
    let t ← me; let p ← myPart
    match a with
    | none => pure ()
    | some a =>
      match prefetchLine (← get) t p a with
      | none => pure ()
      | some pa => modify fun s =>
          let s := touchPlain s t.core pa
          if h.hint = 1 ∨ h.hint = 4 then s else fillL1 s t.core (addrHbm t.core.pkg pa)) s

/-! ### STORE_QUEUE_WRITE -/

/-- Whether entry e, behind the entries before it, may be performed (R203, R205, R214). -/
def storeReady (s : State) (before : List StoreEnt) (e : StoreEnt) : Bool :=
  before.all (fun x => decide (x.pa + x.n ≤ e.pa ∨ e.pa + e.n ≤ x.pa)) && !heldStore before e &&
  (e.rel.isNone || !releaseWaits s e.pa e.n)

/-- STORE_QUEUE_WRITE: the k-th store of a core's queue is performed at its home. -/
def execStoreQueueWrite (c : CoreId) (k : Nat) (s : State) : Host.Outcome State Fault Refusal :=
  let q := (s.core c).storeq
  match q[k]? with
  | none => .next s
  | some e =>
    if !storeReady s (q.take k) e then .next s
    else
      let s := s.modCore c fun r => { r with storeq := dropAt r.storeq k }
      let s := touchPlain s c (e.pa % 2 ^ 128)
      let s := updateL1 (storeAt s c e.slice.part e.pc e.pa e.n e.val) c e
      .next (leaveTagOf s (e.rel.map fun sc => ⟨e.pa, e.n, sc, c, e.t, e.gen, e.id⟩))

/-! ### Walks (R159) -/

/-- PAGE_WALK: the walk of the k-th miss of a quadrant ends: its requesters go on, or meet its failure. -/
def execPageWalk (q : QuadId) (k : Nat) (s : State) : Host.Outcome State Fault Refusal :=
  match (s.quad q).miss[k]? with
  | none => .next s
  | some m =>
    let s := s.modQuad q fun r => { r with miss := dropAt r.miss k }
    let (found, walks) := walkVia s m.part m.va 3 1 (wfield (s.part m.part).ptroot 15 33 * 2 ^ 15) (s.quad q).walks
    let s := s.modQuad q fun r => { r with walks := walks }
    match found with
    | .ok pa log2 r w x =>
      let e : TlbEnt := ⟨m.part, m.va / 2 ^ log2, log2, pa / 2 ^ log2, r, w, x⟩
      let s := s.modQuad q fun r => { r with stlb := (e :: r.stlb).take 16384 }
      .next (m.waiters.foldl (fun s t => wakeFrom s t .walk) s)
    | .fail c l =>
      .next (m.waiters.foldl (fun s t => wakeFrom (s.modThread t fun th =>
        if th.phase = .walk then { th with due := { th.due with walkFail := some ⟨m.va / 2 ^ 16, c, l⟩ } } else th) t .walk) s)

/-- MISS_TABLE_RETRY: a thread that found the miss table full tries again. -/
def execMissTableRetry (t : ThreadId) (s : State) : Host.Outcome State Fault Refusal :=
  if (s.quad t.core.quad).miss.any fun m => m.waiters.contains t then .next s else .next (wakeFrom s t .walk)

end Sys2Proof.Machine
end

