-- ==== Sys2Proof/Machine/Local.lean ====
section
/-!
DEFINITION. Sys2Proof/Machine/Local.lean: path S: local addresses (R143 to R146), what a thread may not address (R95), the banks and their
full/empty bits (R148 to R150), classes 5 and 6 (R312, R341, R358 to R360, R399), and REMOTE_BANK_ACCESS.
-/
namespace Sys2Proof.Machine

/-! ### Local addresses -/

/-- Where a local address stands. -/
inductive LocalAt where
  | bank (x : Addr) (own : CoreId ⊕ ClusterId)
  | window (a : Int) (x : Addr)
deriving DecidableEq, Repr

/-- A position by which accesses and windows are compared: window space, which the own base workspace belongs to in either form, or
the own data range. -/
def localPos (t : ThreadId) (a : Word) : Option (Bool × Int) :=
  if wfield a 54 2 = 3 then some (true, waddrOf a)
  else if wfield a 54 2 = 0 ∧ wfield a 44 8 = t.core.core then
    let off := wfield a 0 23; let b := slotBase t.ridx
    if b ≤ off ∧ off < b + 0x2400 then some (true, off) else some (false, off)
  else none

/-- The offset at which n bytes from a touch the window at w, where they do. -/
def offsetIn (t : ThreadId) (w a : Word) (n : Nat) : Option Int :=
  match localPos t a, localPos t w with
  | some (k, x), some (k', y) => if k = k' ∧ x < y + 0x2400 ∧ y < x + n then some (x - y) else none
  | _, _ => none

/-- A header word of a window of the thread, wherever its line stands. -/
def chainWord (s : State) (t : ThreadId) (th : Thread) (w : Word) (off : Nat) : Nat :=
  match winWhere s t th w off .rd with
  | some x => s.rd x 8
  | none => 0

/-- The windows of the thread's chain, the active one first (R95). -/
def chainFrom (s : State) (t : ThreadId) (th : Thread) : (fuel : Nat) → Word → List Word
  | 0, _ => []
  | n + 1, w =>
    if chainWord s t th w offFrame % 2 ^ 16 ≠ 0 ∨ (th.ctl.intrap ∧ w = th.ctl.hwsp) then
      w :: chainFrom s t th n (BitVec.ofNat 64 (chainWord s t th w offCaller))
    else [w]

/-- The longest chain that is followed. -/
def chainFuel : Nat := 65536

/-- R95: no access to the active window, and no store to the bookkeeping area of a window of the chain. -/
def checkOwn (a : Word) (n : Nat) (store : Bool) : Exec Unit := do
  let t ← me; let th ← thr; let s ← get
  if (offsetIn t th.ctl.wsp a n).isSome then permTrap a
  if store && (localPos t a).isSome then
    if (chainFrom s t th chainFuel th.ctl.wsp).any fun w =>
        match offsetIn t w a n with
        | some o => decide (o < 0x300 ∧ 0x270 < o + n)
        | none => false then permTrap a

/-- An access to n bytes of window space: their homes, and their line resident (R146, R266). -/
def windowAt (a : Word) (n : Nat) : Exec LocalAt := do
  let t ← me; let th ← thr; let sl ← mySlice
  let p := waddrOf a; let b : Int := slotBase t.ridx
  if wfield a 56 8 ≠ 0 ∨ p + n > b + 0x2400 then permTrap a
  needHome sl p n
  if p < b then
    match tfind th.lines (winLine a) with
    | some l => need l.resident .hold
    | none => throw .hold
  return .window p (windowByte (← get) t p)

/-- The place of n bytes at a local address of class 5. -/
def localAt (a : Word) (n : Nat) (store : Bool) : Exec LocalAt := do
  let c ← ctl
  if wfield a 54 2 = 3 then
    let w ← windowAt a n
    checkOwn a n store
    return w
  let (x, o) ← orStop (resolveLocal (← get) (← myCore) c.slice a) (.trap (mkTrap 5 a.toNat 0))
  if (viewPieces (← get) (← myCore) c.slice a n).isNone then permTrap a
  checkOwn a n store
  return .bank x o

/-- Whether an access travels on the message mesh (R150). -/
def isRemote (c : CoreId) : CoreId ⊕ ClusterId → Bool
  | .inl d => c != d
  | .inr cl => c.cluster != cl

/-! ### What a bank does -/

/-- The waiters that a bank serves before thread t, for one bit of one granule (R149). -/
def waitsBefore (s : State) (t : ThreadId) (g : Nat) (full : Bool) : List BankWait :=
  (s.nt.bankWait.filter fun w => decide (w.g = g ∧ w.full = full)).takeWhile fun w => decide (w.t ≠ t)

/-- A full/empty access is served when the bit is as it waits for and no earlier waiter stands before it; else it waits in the order
in which it parked. -/
def feWait (x : Addr) (full : Bool) : Exec Unit := do
  let t ← me; let s ← get
  let g := x / 16
  let w : BankWait := ⟨t, g, full⟩
  if s.isFull x = full ∧ waitsBefore s t g full = [] then
    set { s with nt := { s.nt with bankWait := s.nt.bankWait.filter (· ≠ w) } }
  else
    throw (.enrol (.bank w) (.parked .memory))

def modBit (x : Addr) (b : Bool) : Exec Unit := modify fun s => s.setFull (x / 16) b

/-- The numeric function of ATOM on n bytes (R312). -/
def atomNew (n op : Nat) (sgn : Bool) (cap : Captured) (old v : Nat) : Nat :=
  let m := 2 ^ (8 * n)
  let f := if n = 4 then fp32 else fp64
  let lt := if sgn then decide (signed old (8 * n) ≤ signed v (8 * n)) else decide (old ≤ v)
  match op with
  | 0 => (old + v) % m
  | 1 => old &&& v
  | 2 => old ||| v
  | 3 => old ^^^ v
  | 4 => if lt then old else v
  | 5 => if lt then v else old
  | 6 => v
  | 7 => (addF cap f old v).bits
  | 8 => (minMaxF false cap f old v).bits
  | _ => (minMaxF true cap f old v).bits

/-- A store of a thread at a bank. -/
def bankStore (x : Addr) (n v : Nat) : Exec Unit := do
  let c ← ctl; let core ← myCore
  modify fun s => storeAt s core c.slice.part c.pc x n v
  watchMine x n true

/-- The tag that a write of n bytes leaves: a release's, else none (R213). -/
def leaveTag (x : Addr) (n : Nat) (rel : Option Nat) : Exec Unit := do
  let t ← me; let gen ← myGen
  modify fun s => leaveTagOf s (rel.map fun sc => ⟨x, n, sc, t.core, t, gen, s.opId⟩)

/-- A release waits at a bank as R214 says. -/
def holdRelease (x : Addr) (n : Nat) (rel : Option Nat) : Exec Unit := do
  if rel.isSome && releaseWaits (← get) x n then throw .hold

/-- The granules of a FEQRY or FESET, each in the view. -/
def granuleAt (a : Word) (j : Nat) : Exec Addr := do
  let c ← ctl
  let (x, _) ← orStop (resolveLocal (← get) (← myCore) c.slice (a + BitVec.ofNat 64 (16 * j))) (.trap (mkTrap 5 a.toNat 0))
  return x

/-- The granules of a FESET mask that are typed as barriers. -/
def anyTyped : List Addr → Exec Bool
  | [] => pure false
  | x :: r => do if (← get).typedAt x 16 then pure true else anyTyped r

def maskAddrs (a : Word) (mask : Nat) : (n : Nat) → Exec (List Addr)
  | 0 => pure []
  | n + 1 => do
    let l ← maskAddrs a mask n
    if mask.testBit n then return l ++ [← granuleAt a n] else return l

/-- The full bits of n granules. -/
def fullBits (a : Word) : (n : Nat) → Exec Nat
  | 0 => pure 0
  | n + 1 => do
    let r ← fullBits a n
    let x ← granuleAt a n
    return r + bit ((← get).isFull x) * 2 ^ n

/-- An operation at the bank of x, whose local address is a. -/
def bankDo (x : Addr) (a : Word) (acq rel : Option Nat) (op : BankOp) : Exec Unit := do
  match acq with
  | some sc => acquireAt x sc
  | none => pure ()
  match op with
  | .load n sgn fe dst =>
    if fe ≠ 0 then feWait x true
    let v ← bankRead a x n
    if fe = 2 then modBit x false
    wrReg (Fin.ofNat 64 dst) (extend sgn (8 * n) v)
  | .store n v fe =>
    if (← get).typedAt x n then trapAt 14 a.toNat 0
    holdRelease x n rel
    if fe then feWait x false
    bankStore x n v
    leaveTag x n rel
    if fe then modBit x true
  | .atom n op sgn v dst cap =>
    if (← get).typedAt x n then trapAt 14 a.toNat 0
    if (← get).poisoned x n then trapAt 11 a.toNat 0
    holdRelease x n rel
    let old := (← get).rd x n
    bankStore x n (atomNew n op sgn cap old v)
    leaveTag x n rel
    wrReg (Fin.ofNat 64 dst) (extend sgn (8 * n) old)
  | .cas n e new dst gd =>
    if (← get).typedAt x n then trapAt 14 a.toNat 0
    if (← get).poisoned x n then trapAt 11 a.toNat 0
    holdRelease x n rel
    let old := (← get).rd x n
    if old = e then
      bankStore x n new
      leaveTag x n rel
    else watchMine x n false
    wrReg (Fin.ofNat 64 dst) (BitVec.ofNat 64 old)
    wrGuard gd (decide (old = e))
  | .feqry n dst => wrReg (Fin.ofNat 64 dst) (BitVec.ofNat 64 (← fullBits a n))
  | .feset mask val =>
    let l ← maskAddrs a mask 64
    if ← anyTyped l then trapAt 14 a.toNat 0
    modify fun s => l.foldl (fun s x => s.setFull (x / 16) val) s

/-- The marked registers among sources read from s0 on, with what they resolved to (R44). -/
def resolvedMarks (s0 s : State) (t : ThreadId) (c : Ctl) (l : List Opnd) : List (Nat × Word) :=
  l.filterMap fun o => match o with
    | .w n => if (threadRead s0 t c c.wsp offMarks 8).testBit n.val then some (n.val, BitVec.ofNat 64 (threadRead s t c c.wsp (offW n.val) 8)) else none
    | _ => none

/-- Registers that resolved take their values and lose their marks. -/
def writeResolved : List (Nat × Word) → Exec Unit
  | [] => pure ()
  | (n, v) :: r => do
    wrWin (offW n) 8 v.toNat
    setMark n false
    writeResolved r

def readAll (h : Hdr) : List Opnd → Exec Unit
  | [] => pure ()
  | o :: r => do
    let _ ← rdOpnd h o
    readAll h r

/-- Makes the access at once where the bank is the core's or its cluster's, and sends it on the mesh elsewhere: the thread is held
until the bank has answered (R150), and its sources, unread in s0, are consumed then, ports and handles by a read and marked registers with
the values that they resolved to. -/
def access (h : Hdr) (s0 : State) (srcs : List Opnd) (x : Addr) (own : CoreId ⊕ ClusterId) (a : Word) (acq rel : Option Nat) (op : BankOp) : Exec Unit := do
  let t ← me
  if isRemote t.core own then
    let s ← get
    let marked := resolvedMarks s0 s t (← ctl) srcs
    let r : BankReq := ⟨t, x, op, a, h, acq, rel, srcs.filter fun o => !o.isW, marked⟩
    let s0 := if marked.isEmpty then s0 else syncP t s0
    set { s0 with nt := { s0.nt with bankNet := s0.nt.bankNet ++ [r] } }
    throw (.wait .bank)
  else bankDo x a acq rel op

/-- REMOTE_BANK_ACCESS: the k-th access on its way is made at its bank and its thread answered. One that waits for a full/empty bit
stays there. -/
def execRemoteBankAccess (k : Nat) (s : State) : Host.Outcome State Fault Refusal :=
  match s.nt.bankNet[k]? with
  | none => .next s
  | some r =>
    match s.thread? r.t with
    | none => .next { s with nt := { s.nt with bankNet := dropAt s.nt.bankNet k } }
    | some _ =>
      let before : State := { s with cur := .thread r.t, nt := { s.nt with bankNet := dropAt s.nt.bankNet k } }
      match (do readAll r.hdr r.srcs; writeResolved r.marked; bankDo r.addr r.taddr r.acq r.rel r.op; return Flow.seq : Exec Flow).run before with
      | .error (.enrol e _) _ => .next (enrolIn s r.t e)
      | out =>
        match settle r.t r.hdr s before out with
        | .next s' => .next (saveOut s' r.t)
        | o => o

/-! ### Class 5 -/

/-- A load of the thread's window space. -/
def windowLoad (x : Addr) (a : Word) (n : Nat) (sgn : Bool) (d : Reg) : Exec Unit := do
  wrReg d (extend sgn (8 * n) (← bankRead a x n))

/-- The bits of byte q of a control block that are not reserved in FPSR and TCAUSE (R6, R122, R262). -/
def storeBits (q : Nat) : Nat :=
  if q = 0x225 then 1 else if q = 0x226 ∨ q = 0x227 then 0
  else if q = 0x249 then 3 else if 0x24A ≤ q ∧ q < 0x24F then 0 else if q = 0x24F then 0x80 else 0xFF

/-- What a store may change of the control block of a workspace that a handler interrupted (R93): STATUS, PROVSET and the reserved
word keep their values, reserved bits stay zero, and bit 0 of GUARDS stays 1. -/
def handlerMask (a : Word) (n v : Nat) : Exec (Option (Nat × Bool)) := do
  let t ← me; let c ← ctl; let s ← get
  if !c.intrap then return some (v, false)
  let w := BitVec.ofNat 64 (threadRead s t c c.hwsp offCaller 8)
  match offsetIn t w a n with
  | none => return some (v, false)
  | some o =>
    let o := o.toNat
    if 0x228 ≤ o ∧ o < 0x240 then return none
    let v := pack ((List.range n).map fun i => (8, field v (8 * i) 8 &&& storeBits (o + i)))
    let v := if o ≤ 0x222 ∧ 0x222 < o + n then putBit v (8 * (0x222 - o)) true else v
    return some (v, decide (o < 0x222 ∧ 0x220 < o + n))

/-- A store into the thread's window space or its own data range. -/
def maskedStore (a : Word) (n v : Nat) (go : Nat → Exec Unit) : Exec Unit := do
  match ← handlerMask a n v with
  | none => pure ()
  | some (v, tags) =>
    go v
    if tags then
      let t ← me; let c ← ctl; let s ← get
      let w := BitVec.ofNat 64 (threadRead s t c c.hwsp offCaller 8)
      modify fun s => setAccTags s t.core c.slice (threadRead s t c w offAtags 2)

/-- A line of window space that a store changes is dirty. -/
def markDirty (a : Word) : Exec Unit :=
  modT fun th => { th with lines := tmod th.lines (winLine a) fun _ => .dirty }

def execLds (h : Hdr) (d : Reg) (b : Opnd) (x : Src) (ord : BitVec 2) (scope : BitVec 3) (sz : BitVec 2) (sgn : Bool) (fe : BitVec 2)
    (s : State) : Host.Outcome State Fault Refusal :=
  issueSeq h (do
    let s0 ← get
    let a ← baseIndex h b x
    let n := sizeOf sz
    let l ← localAt a n false
    if a.toNat % n ≠ 0 then alignTrap a
    match l with
    | .window _ x =>
      if fe ≠ 0 then permTrap a
      if ord = 1 then acquireAt x scope.toNat
      windowLoad x a n sgn d
    | .bank y o => access h s0 (allSrcs [b] x) y o a (if ord = 1 then some scope.toNat else none) none (.load n sgn fe.toNat d.val)) s

def execSts (h : Hdr) (src b : Opnd) (x : Src) (ord : BitVec 2) (scope : BitVec 3) (sz : BitVec 2) (fe : Bool) (s : State) :
    Host.Outcome State Fault Refusal :=
  issueSeq h (do
    let s0 ← get
    waitOpnds h (allSrcs [src, b] x) []
    let a ← baseIndex h b x
    let n := sizeOf sz
    let l ← localAt a n true
    if a.toNat % n ≠ 0 then alignTrap a
    let rel := if ord = 2 then some scope.toNat else none
    match l with
    | .window _ x =>
      if fe then permTrap a
      let v ← rdOpnd h src
      markDirty a
      holdRelease x n rel
      maskedStore a n (v.toNat % 2 ^ (8 * n)) fun v => do
        bankStore x n v
        leaveTag x n rel
    | .bank y o =>
      waitConfirmed
      let v ← rdOpnd h src
      maskedStore a n (v.toNat % 2 ^ (8 * n)) fun v => access h s0 (allSrcs [b, src] x) y o a none rel (.store n v fe)) s

/-- The alignment and the view of a granule range of n granules. -/
def granuleRange (a : Word) (n : Nat) : Exec (Addr × (CoreId ⊕ ClusterId)) := do
  let c ← ctl
  let r ← orStop (resolveLocal (← get) (← myCore) c.slice a) (.trap (mkTrap 5 a.toNat 0))
  let _ ← maskAddrs a (2 ^ n - 1) n
  if a.toNat % 16 ≠ 0 then alignTrap a
  return r

def execFeqry (h : Hdr) (d a : Reg) (n : BitVec 16) (s : State) : Host.Outcome State Fault Refusal :=
  issueSeq h (do
    let s0 ← get
    let v ← rd1 h (.w a)
    let (x, o) ← granuleRange v n.toNat
    access h s0 [.w a] x o v none none (.feqry n.toNat d.val)) s

def execFeset (h : Hdr) (a mask : Reg) (val : Bool) (s : State) : Host.Outcome State Fault Refusal :=
  issueSeq h (do
    let s0 ← get
    let (v, m) ← rdRegs2 a mask
    if m = 0 then
      if wfield v 54 2 = 3 then permTrap v
      if v.toNat % 16 ≠ 0 then alignTrap v
    else
      let (x, o) ← granuleRange v (bitLen m.toNat)
      access h s0 [.w a, .w mask] x o v none none (.feset m.toNat val)) s

/-! ### Class 6 -/

def execAtom (h : Hdr) (d a : Reg) (v : Opnd) (ord : BitVec 2) (scope : BitVec 3) (op : BitVec 4) (w32 sgn : Bool) (s : State) :
    Host.Outcome State Fault Refusal :=
  issueSeq h (do
    let s0 ← get
    let n := if w32 then 4 else 8
    waitOpnds h [.w a, v] []
    let av ← rdOpnd h (.w a)
    let c ← ctl
    let (x, o) ← orStop (resolveLocal (← get) (← myCore) c.slice av) (.trap (mkTrap 5 av.toNat 0))
    if av.toNat % n ≠ 0 then alignTrap av
    let y ← rdOpnd h v
    if (← get).typedAt x n then trapAt 14 av.toNat 0
    waitConfirmed
    let cap ← capture
    access h s0 [.w a, v] x o av (if ord.getLsbD 0 then some scope.toNat else none) (if ord.getLsbD 1 then some scope.toNat else none)
      (.atom n op.toNat sgn (y.toNat % 2 ^ (8 * n)) d.val cap)) s

def execCas (h : Hdr) (gd : BitVec 3) (d a : Reg) (e nw : Opnd) (ord : BitVec 2) (scope : BitVec 3) (w32 : Bool) (s : State) :
    Host.Outcome State Fault Refusal :=
  issueSeq h (do
    let s0 ← get
    let n := if w32 then 4 else 8
    waitOpnds h [.w a, e, nw] []
    let av ← rdOpnd h (.w a)
    let c ← ctl
    let (x, o) ← orStop (resolveLocal (← get) (← myCore) c.slice av) (.trap (mkTrap 5 av.toNat 0))
    if av.toNat % n ≠ 0 then alignTrap av
    let y ← rdOpnd h e
    let z ← rdOpnd h nw
    if (← get).typedAt x n then trapAt 14 av.toNat 0
    waitConfirmed
    access h s0 [.w a, e, nw] x o av (if ord.getLsbD 0 then some scope.toNat else none) (if ord.getLsbD 1 then some scope.toNat else none)
      (.cas n (y.toNat % 2 ^ (8 * n)) (z.toNat % 2 ^ (8 * n)) d.val gd.toNat)) s

end Sys2Proof.Machine
end

