-- ==== Sys2Proof/Machine/Spans.lean ====
section
/-!
DEFINITION. Sys2Proof/Machine/Spans.lean: ranges of local addresses: the pieces of storage they name, reads and writes of whole ranges, and
their checks (R144, R146, R167, R373).
-/
namespace Sys2Proof.Machine

/-- The pieces of n bytes of window space from p, with b the base workspace. -/
def windowPieces (s : State) (t : ThreadId) (p b : Int) (n : Nat) : Span :=
  if p + n ≤ b ∨ b ≤ p then [(windowByte s t p, n)]
  else
    let k := (b - p).toNat
    [(windowByte s t p, k), (windowByte s t b, n - k)]

/-- The lines of window space below the base that n bytes from p touch. -/
def linesBelow (p b : Int) (n : Nat) : List Nat :=
  let hi := min (p + n) b
  if hi ≤ p then [] else
    let l0 := ((p + 2 ^ 53) / 64).toNat
    nrange l0 (((hi - 1 + 2 ^ 53) / 64).toNat + 1 - l0)

/-- A range of the thread's window space, its lines resident (R146). -/
def windowSpan (a : Word) (n : Nat) : Exec Span := do
  let t ← me; let th ← thr; let sl ← mySlice
  let p := waddrOf a; let b : Int := slotBase t.ridx
  if wfield a 56 8 ≠ 0 ∨ p + n > b + 0x2400 then permTrap a
  needHome sl p n
  need ((linesBelow p b n).all fun l => (tget th.lines l .home).resident) .hold
  return windowPieces (← get) t p b n

/-- A range of local addresses: aligned to al, and in the view or, where `win` allows, in the window space. -/
def localSpan (a : Word) (n al : Nat) (win : Bool) : Exec Span := do
  let c ← ctl
  let r ← if win && wfield a 54 2 = 3 then windowSpan a n
    else orStop (viewPieces (← get) (← myCore) c.slice a n) (.trap (mkTrap 5 a.toNat 0))
  if a.toNat % al ≠ 0 then alignTrap a
  return r

def Span.poisoned (s : State) (l : Span) : Bool := l.any fun (x, n) => s.poisoned x n
def Span.typed (s : State) (l : Span) : Bool := l.any fun (x, n) => s.typedAt x n

def Span.read (s : State) : Span → Nat
  | [] => 0
  | (x, n) :: r => s.rd x n + Span.read s r * 2 ^ (8 * n)

/-- Writes a range, piece by piece. -/
def Span.write (s : State) (v : Nat) : Span → State
  | [] => s
  | (x, n) :: r => Span.write (clearTags x n (fireWatches (s.wr x n (v % 2 ^ (8 * n))) x n)) (v / 2 ^ (8 * n)) r

/-- Sets the full bits of the granules a range covers (R148). -/
def Span.fill (s : State) : Span → State
  | [] => s
  | (x, n) :: r => Span.fill (s.fillGranules x n) r

def watchSpan (l : Span) (write : Bool) : Exec Unit :=
  match l with
  | [] => pure ()
  | (x, n) :: r => do
    watchMine x n write
    watchSpan r write

/-- Reads a range as an operand: poison traps at its address (R167). -/
def readSpan (a : Word) (l : Span) : Exec Nat := do
  if Span.poisoned (← get) l then trapAt 11 a.toNat 0
  watchSpan l false
  return Span.read (← get) l

/-- The lines of window space that a write of a range changes. -/
def dirtySpan (a : Word) (n : Nat) : Exec Unit := do
  if wfield a 54 2 = 3 then
    let t ← me
    let ls := linesBelow (waddrOf a) (slotBase t.ridx) n
    modT fun th => { th with lines := ls.foldl (fun l i => tmod l i fun _ => .dirty) th.lines }

/-- Writes a range whose granules are written whole. -/
def writeSpan (a : Word) (l : Span) (n v : Nat) : Exec Unit := do
  if Span.typed (← get) l then trapAt 14 a.toNat 0
  dirtySpan a n
  modify fun s => Span.write s v l
  watchSpan l true

/-- The part of a range from an offset, n bytes long. -/
def subSpan : Span → (off n : Nat) → Span
  | [], _, _ => []
  | (x, m) :: r, off, n =>
    if n = 0 then []
    else if m ≤ off then subSpan r (off - m) n
    else (x + off, min n (m - off)) :: subSpan r 0 (n - min n (m - off))

/-- The storage of n bytes at a plain virtual address, page by page. -/
def plainSpan (s : State) (q : QuadId) (p : PartId) (nd : Need) : (fuel : Nat) → (va n : Nat) → Except TrapRec Span
  | 0, _, _ => .ok []
  | f + 1, va, n =>
    if n = 0 then .ok []
    else
      let k := min n (2 ^ 16 - va % 2 ^ 16)
      match walkAt s q p va nd, plainSpan s q p nd f (va + k) (n - k) with
      | .ok pa, .ok r => .ok ((addrHbm p.pkg pa, k) :: r)
      | .error e, _ => .error e
      | _, .error e => .error e

end Sys2Proof.Machine
end

