-- ==== Sys2Proof/Machine/Homes.lean ====
section
/-!
DEFINITION. Sys2Proof/Machine/Homes.lean: versions at their home slices: limits, states, notices, stores, reductions and roots (R168 to
R199). The steps and instructions that use them are in Machine/Tiles.lean.
-/
namespace Sys2Proof.Machine

/-! ### References, sizes and homes (R168, R169, R188) -/

def refName (r : Word) : Nat := wfield r 24 40
def refVer (r : Word) : Nat := wfield r 0 24
def refWord (name ver : Nat) : Word := BitVec.ofNat 64 (ver + name * 2 ^ 24)

/-- Bytes of a size class. -/
def tileBytes (size : Nat) : Nat := 128 * 4 ^ size

/-- The home of a name for a core of a partition. -/
def nameHome (s : State) (c : CoreId) (p : PartId) (name : Nat) : HomeId × State :=
  homeOf s c.quad c.cluster.router (.name p (name / 4096))

/-- The home of a region for an access that no core makes: a first touch uses router 0 of the partition's lowest-numbered unit (R154). -/
def peerHome (s : State) (p : PartId) (k : RegionKey) : HomeId × State :=
  let u := (s.part p).units.min?.getD 0
  homeOf s (unitQuad p.pkg u) (2 * (u % 3)) k

/-- Whether the Corram link that joins two packages is up at both: what would travel on it waits otherwise (R298). -/
def linksUp (s : State) (a b : Nat) : Bool :=
  let up := fun pkg i => !(tget (s.die ⟨pkg, i % 24 / 6⟩).links (i % 6) (0, false)).2
  a = b || (up a (Config.corramLink a b) && up b (Config.corramLink b a))

/-- The partition whose tables at home h hold a version of p's namespace. -/
def verPart (h : HomeId) (p : PartId) : PartId := ⟨h.pkg, p.num⟩

def homeDie (h : HomeId) : DieId := ⟨h.pkg, h.die⟩

/-- A request that reaches a home in another package may be a peer's first touch of the region there (R154, R188). -/
def touchPeer (s : State) (h : HomeId) (p : PartId) (name : Nat) : State :=
  if h.pkg = p.pkg then s else (peerHome s (verPart h p) (.name (verPart h p) (name / 4096))).2

def isVer (h : HomeId) (p : PartId) (name ver : Nat) (v : Version) : Bool :=
  decide (v.home = h ∧ v.part = p ∧ v.name = name ∧ v.ver = ver)

def findVer (s : State) (h : HomeId) (p : PartId) (name ver : Nat) : Option Version := s.tl.versions.find? (isVer h p name ver)

def dropVer (s : State) (v : Version) : State :=
  { s with tl := { s.tl with versions := s.tl.versions.filter fun x => !isVer v.home v.part v.name v.ver x } }

def putVer (s : State) (v : Version) : State :=
  { s with tl := { s.tl with versions := s.tl.versions.filter (fun x => !isVer v.home v.part v.name v.ver x) ++ [v] } }

/-! ### Limits (R171, R172, R179, R193) -/

def quotaEntries (s : State) (p : PartId) : Nat := wfield (s.part p).vquota 0 16
def quotaHold (s : State) (p : PartId) : Nat := wfield (s.part p).vquota 32 8

/-- Version-table entries that a partition occupies at a home, merge records among them. -/
def entriesAt (s : State) (h : HomeId) (p : PartId) : Nat :=
  (s.tl.versions.filter fun v => decide (v.home = h ∧ v.part = p)).length +
  (s.nt.merges.filter fun m => decide (m.home = some h ∧ m.part = p)).length

/-- Arena bytes that a partition uses at a home. -/
def arenaUsed (s : State) (h : HomeId) (p : PartId) : Nat :=
  (s.tl.versions.filter fun v => decide (v.home = h ∧ v.part = p)).foldl
    (fun n v => n + (if v.st = .abandoned then 0 else tileBytes v.size * (1 + v.held.length))) 0 +
  (s.nt.merges.filter fun m => decide (m.home = some h ∧ m.part = p)).foldl (fun n m => n + m.len * m.held.length) 0

/-- A home slice's share of a partition's arena on its die: the arena divided equally among the partition's L2 slices there, eight to a
unit, in multiples of 32 KiB. -/
def arenaShare (s : State) (h : HomeId) (p : PartId) : Nat :=
  let r := s.part p
  let n := 8 * (r.units.filter fun u => decide (u / 12 = h.die)).length
  if n = 0 then 0 else wfield (tget r.arenas h.die 0) 16 16 * 2 ^ 30 / n / 32768 * 32768

/-- The physical address of a home slice's share: the shares follow one another in the arena in the order of the partition's slices. -/
def sharePlace (s : State) (h : HomeId) (p : PartId) : Nat :=
  let r := s.part p
  let mine := r.units.filter fun u => decide (u / 12 = h.die)
  let u := 12 * h.die + 3 * h.quad + h.slice / 8
  let i := 8 * (mine.filter fun v => decide (v < u)).length + h.slice % 8
  wfield (tget r.arenas h.die 0) 0 16 * 2 ^ 30 + i * arenaShare s h p

/-- The HBM stack of a home's storage, whose reel serves it (R28, R171, R429); a slice without storage counts with its die's first. -/
def homeStack (s : State) (h : HomeId) (p : PartId) : Nat × Nat :=
  (h.pkg, if arenaShare s h p = 0 then 2 * h.die else sharePlace s h p / 2 ^ 36)

/-- Whether a home has an entry and storage for a block. -/
def homeRoom (s : State) (h : HomeId) (p : PartId) (bytes : Nat) : Bool :=
  decide (entriesAt s h p < quotaEntries s p ∧ arenaUsed s h p + bytes ≤ arenaShare s h p)

/-! ### Carder events of the version table (R273, class 2) -/

def verEvent (s : State) (h : HomeId) (p : PartId) (prov : Bool) (kind name ver ac : Nat) : State :=
  raiseEvent s (homeDie h) 0xFF 0xF p 2 prov [kind, name % 2 ^ 32, ver, ac]

/-! ### Notices (R184, R185) -/

/-- Waiter records of a home. -/
def Waiter.home : Waiter → HomeId
  | .load _ h => h
  | .reel _ _ h _ _ => h

def waitersAt (s : State) (h : HomeId) : Nat := (s.tl.waiters.filter fun w => decide (w.home = h)).length

/-- Whether a version in its state answers a load of some form: an Abandoned one answers those that name it with a trap (R180). -/
def VerSt.answers (st : VerSt) (p ge : Bool) : Bool :=
  match st with
  | .present => true
  | .provisional => p
  | .merging => false
  | .abandoned => !ge

/-- Whether a waiter's record is satisfied by a version (R184, R185). -/
def Waiter.satisfied (v : Version) : Waiter → Bool
  | .load m h => decide (h = v.home ∧ verPart h m.part = v.part ∧ m.name = v.name) &&
    (match m.kind with
     | .nld _ _ _ p _ true => decide (m.ver ≤ v.ver) && v.st.answers p true
     | .nld _ _ _ p _ false => decide (m.ver = v.ver) && v.st.answers p false
     | _ => false)
  | .reel _ part h n k => decide (h = v.home ∧ verPart h part = v.part ∧ n = v.name ∧ k = v.ver) && v.st.answers false false

/-- Sends notices to the waiters that a changed version satisfies; their records are freed. -/
def notify (s : State) (v : Version) : State :=
  let hit := s.tl.waiters.filter (Waiter.satisfied v)
  { s with tl := { s.tl with waiters := s.tl.waiters.filter (fun w => !w.satisfied v), notices := s.tl.notices ++ hit } }

/-! ### Creating and freeing versions (R173, R176, R181) -/

/-- The next instance number of a home. -/
def nextInst (s : State) (h : HomeId) : Nat × State :=
  let n := tget s.tl.insts h 0 + 1
  (n, { s with tl := { s.tl with insts := tput s.tl.insts h n } })

/-- Roots of a message that are still Open when it is served: decided ones are gone. -/
def openRoots (s : State) (p : PartId) (l : List Nat) : List Nat := l.filter fun n => rootState s p n = .open_
def anyRevoked (s : State) (p : PartId) (l : List Nat) : Bool := l.any fun n => rootState s p n = .revoked

/-- The event of a new entry that brings the partition to its quota. -/
def quotaEvent (s : State) (h : HomeId) (p : PartId) (prov : Bool) (name ver : Nat) : State :=
  if entriesAt s h p = quotaEntries s p then verEvent s h p prov 3 name ver 0 else s

def createVer (s : State) (h : HomeId) (p : PartId) (name ver size fmt count data : Nat) (roots : List Nat) : State :=
  let (inst, s) := nextInst s h
  let st : VerSt := if roots.isEmpty then .present else .provisional
  let v : Version := ⟨h, p, name, ver, st, count, size, fmt, data, [], roots, inst, 0, [], 0, []⟩
  quotaEvent (notify (putVer s v) v) h p (!roots.isEmpty) name ver

/-- One consuming read: at zero the entry and its storage are freed (R181). A provisional thread's read shows nothing (R196). -/
def consumeVer (s : State) (prov : Bool) (v : Version) : State :=
  if v.count = 0xFFFF then s
  else if v.count ≤ 1 then verEvent (dropVer s v) v.home v.part prov 4 v.name v.ver 0
  else putVer s { v with count := v.count - 1 }

/-! ### Stores at the home (R176, R179) -/

/-- What a home does with a store. -/
inductive Stored where
  | done (violation : Bool)
  | refused
deriving DecidableEq, Repr

/-- Whether an earlier refused store of the partition waits at the home, of a thread or of a reel that was refused before an ac (R179). -/
def refusedAhead (s : State) (h : HomeId) (p : PartId) (before : List VMsg) (ac : Nat) : Bool :=
  before.any (fun m => decide ((nameHome s m.t.core m.part m.name).1 = h ∧ verPart h m.part = p)) ||
  s.tl.subs.any fun x => x.wb && decide (x.refusals ≠ 0 ∧ x.since < ac ∧ (nameHome s x.core x.part x.name).1 = h ∧ verPart h x.part = p)

def storeVer (s : State) (h : HomeId) (p : PartId) (ahead : Bool) (m : VMsg) (size fmt count data : Nat) (roots : List Nat) :
    Stored × State :=
  if anyRevoked s m.part roots then (.done false, s)
  else match findVer s h p m.name m.ver with
  | some _ => (.done true, s)
  | none =>
    if ahead || !homeRoom s h p (tileBytes size) then (.refused, s)
    else (.done false, createVer s h p m.name m.ver size fmt count data (openRoots s m.part roots))

/-! ### Reductions at the home (R126, R189, R190) -/

/-- The arithmetic of merges: nearest-even, default NaN, no flush, OVDEF (R121). -/
def mergeCap (ovdef : Word) : Captured := ⟨0x80, ovdef.toNat⟩

/-- The sum of two elements of a merge. -/
def mergeElem (cap : Captured) (fmt a b : Nat) : Nat :=
  match fmtOf fmt with
  | some f => (addF cap f a b).bits
  | none => (a + b) % 2 ^ 32

/-- Adds two blocks of n bytes element by element. -/
def mergeData (cap : Captured) (fmt n a b : Nat) : Nat :=
  let w := tagBits fmt
  pack ((List.range (8 * n / w)).map fun i => (w, mergeElem cap fmt (field a (w * i) w) (field b (w * i) w)))

/-- A running merge: the value, the indices received, the next index in order, and the contributions held. -/
structure Merging where
  data : Nat
  received : List Nat
  nextIdx : Nat
  held : List (Nat × Nat)
deriving DecidableEq, Repr

/-- Adds one contribution to the running value; the first becomes it. -/
def Merging.add (cap : Captured) (fmt n : Nat) (first : Bool) (m : Merging) (data : Nat) : Merging :=
  { m with data := if first then data else mergeData cap fmt n m.data data }

/-- What a merge starts from: the first contribution (R190), or what stands at the destination (R230). -/
structure MergeRule where
  cap : Captured
  arrival : Bool
  fmt : Nat
  n : Nat
  fresh : Bool
deriving DecidableEq, Repr

/-- Merges what is held with the next index, in turn (R190). -/
def Merging.drain (u : MergeRule) : (fuel : Nat) → Merging → Merging
  | 0, m => m
  | k + 1, m =>
    match m.held.find? fun e => decide (e.1 = m.nextIdx) with
    | none => m
    | some (i, d) =>
      let m' := m.add u.cap u.fmt u.n (u.fresh && decide (i = 0)) d
      Merging.drain u k { m' with nextIdx := i + 1, held := m.held.filter fun e => e.1 ≠ i }

/-- A contribution whose index is new: merged, held, or none where it cannot be held. -/
def Merging.take (u : MergeRule) (room : Bool) (m : Merging) (idx data : Nat) : Option Merging :=
  let got := { m with received := m.received ++ [idx] }
  if u.arrival then some (got.add u.cap u.fmt u.n (u.fresh && m.received.isEmpty) data)
  else if idx = m.nextIdx then
    some (Merging.drain u m.held.length { got.add u.cap u.fmt u.n (u.fresh && decide (idx = 0)) data with nextIdx := idx + 1 })
  else if room then some { got with held := m.held ++ [(idx, data)] }
  else none

def Version.merging (v : Version) : Merging := ⟨v.data, v.received, v.nextIdx, v.held.map fun e => (e.1, e.2.1)⟩

/-- What a home does with a contribution. -/
inductive Contributed where
  | resolved
  | faulted (result : Nat)
  | retry
deriving DecidableEq, Repr

/-- Puts a merged state back; the last contribution makes the version Present, or Provisional under the union of the roots. -/
def putMerging (s : State) (v : Version) (m : Merging) (roots : List Nat) : State :=
  let v := { v with data := m.data, received := m.received, nextIdx := m.nextIdx, held := m.held.map (fun e => (e.1, e.2, [])), roots := roots }
  if m.received.length = v.nm1 + 1 ∧ m.held.isEmpty then
    let v := { v with st := if roots.isEmpty then .present else .provisional, received := [] }
    notify (putVer s v) v
  else putVer s v

def contribute (s : State) (h : HomeId) (p : PartId) (m : VMsg) (size fmt count idx nm1 data : Nat) (roots : List Nat) :
    Contributed × State :=
  let r := s.part p
  let arrival := bitAt r.mode 2
  let cap := mergeCap r.ovdef
  let roots' := openRoots s m.part roots
  let n := tileBytes size
  let run := fun (s : State) (v : Version) (room : Bool) =>
    match Merging.take ⟨cap, arrival, fmt, n, true⟩ room v.merging idx data with
    | some g => (Contributed.resolved, putMerging s v g (unionRoots v.roots roots'))
    | none => (.retry, s)
  if anyRevoked s m.part roots then (.faulted 10, s)
  else match findVer s h p m.name m.ver with
  | none =>
    if homeRoom s h p n then
      let (inst, s') := nextInst s h
      let v : Version := ⟨h, p, m.name, m.ver, .merging, count, size, fmt, 0, [], [], inst, nm1, [], 0, []⟩
      let room := decide (arenaUsed s h p + 2 * n ≤ arenaShare s h p)
      match run s' v room with
      | (.retry, _) => (.retry, s)
      | (c, s) => (c, quotaEvent s h p (!roots'.isEmpty) m.name m.ver)
    else (.retry, s)
  | some v =>
    match v.st with
    | .abandoned => (.faulted 9, s)
    | .present => (.faulted 8, s)
    | .provisional => (.faulted 8, s)
    | .merging =>
      if v.nm1 ≠ nm1 ∨ v.size ≠ size ∨ v.fmt ≠ fmt then (.faulted (8 + 2 * 256), s)
      else if v.received.contains idx then (.faulted (8 + 1 * 256), s)
      else run s v (decide (v.held.length < quotaHold s p ∧ arenaUsed s h p + n ≤ arenaShare s h p))

/-! ### Loads at the home (R180, R195) -/

/-- What a home answers to a load. -/
inductive Served where
  | tile (v : Version)
  | wait
  | poisoned
deriving DecidableEq, Repr

/-- Whether a load may take a version: Present, or Provisional for NLD.p when the union of roots fits. -/
def mayTake (p : Bool) (mine : List Nat) (v : Version) : Bool :=
  match v.st with
  | .present => true
  | .provisional => p && decide ((unionRoots mine v.roots).length ≤ 4)
  | _ => false

def highest (l : List Version) : Option Version :=
  l.foldl (fun b v => match b with
    | none => some v
    | some w => if w.ver < v.ver then some v else some w) none

def serveLoad (s : State) (h : HomeId) (p : PartId) (name ver : Nat) (prov ge : Bool) (mine : List Nat) : Served :=
  if ge then
    match highest (s.tl.versions.filter fun v => decide (v.home = h ∧ v.part = p ∧ v.name = name ∧ ver ≤ v.ver) && mayTake prov mine v) with
    | some v => .tile v
    | none => .wait
  else
    match findVer s h p name ver with
    | none => .wait
    | some v => if v.st = .abandoned then .poisoned else if mayTake prov mine v then .tile v else .wait

/-! ### Roots (R194, R197, R198) -/

/-- Whether anything on its way or kept still carries a root, so that its number is not free yet. -/
def rootCarried (s : State) (p : PartId) (n : Nat) : Bool :=
  let has := fun (q : PartId) (l : List Nat) => decide (rootHome s q = p) && l.contains n
  let word := fun (q : PartId) (w : Word) => has q (provRoots w.toNat)
  let msg := fun (m : VMsg) => match m.kind with
    | .nst _ _ _ _ r _ => has m.part r
    | .nred _ _ _ _ _ _ r _ => has m.part r
    | _ => false
  (s.tl.vnet ++ s.tl.retries ++ s.tl.refused).any msg ||
  s.tl.versions.any (fun v => has v.part v.roots) ||
  s.tl.slotTiles.any (fun x => x.addRoots.contains n) ||
  s.nt.nbrs.any (fun m => has m.src.slice.part m.w.roots) || s.nt.fars.any (fun m => has m.dstSlice.part m.roots) ||
  s.nt.replies.any (fun m => has m.dst.slice.part m.w.roots) ||
  s.un.cores.any (fun (_, r) => r.deque.any (fun x => word x.slice.part x.prov) || r.conts.any fun x => word x.task.slice.part x.task.prov) ||
  s.wk.slots.any fun (t, r) =>
    (r.north ++ r.east ++ r.south ++ r.west ++ r.replies).any (fun w => has t.slice.part w.roots) ||
    r.far.any (fun w => has t.slice.part w.roots) || (match r.carried with | some x => word x.slice.part x.prov | none => false) ||
    (match r.thread with
     | some th => has th.ctl.slice.part (heldRoots s t th) || (match th.openMsg with | some m => has th.ctl.slice.part m.roots | none => false)
     | none => false)

/-- The lowest Free root of a root table: a decided root is free once its decision is complete and nothing carries it. -/
def freeRoot (s : State) (p : PartId) : Option Nat :=
  (List.range 256).find? fun n =>
    match tget (s.part p).roots n .free with
    | .free => true
    | .open_ => false
    | _ => !(s.tl.decisions.any fun d => decide (d.part = p ∧ d.root = n)) && !rootCarried s p n

def setRoot (s : State) (p : PartId) (n : Nat) (st : RootSt) : State := s.modPart p fun r => { r with roots := tput r.roots n st }

def DecPlace.pkg : DecPlace → Nat
  | .home h => h.pkg
  | .core c => c.pkg

/-- The places that a decision of a root table is sent to: homes that hold versions of its namespace, and cores with threads of it. -/
def decisionPlaces (s : State) (p : PartId) : List DecPlace :=
  ((s.tl.versions.filter fun v => decide (rootHome s v.part = p)).map (·.home)).eraseDups.map DecPlace.home ++
  ((s.wk.slots.filter fun (_, r) => match r.thread with
    | some th => decide (rootHome s th.ctl.slice.part = p)
    | none => false).map (·.1.core)).eraseDups.map DecPlace.core

/-- Decides an Open root; the answer says whether the decision was taken. -/
def decideRoot (s : State) (p : PartId) (n : Nat) (confirm : Bool) : Bool × State :=
  let p := rootHome s p
  if tget (s.part p).roots n .free = .open_ then
    let ds := (decisionPlaces s p).map fun pl => (⟨p, n, confirm, pl⟩ : Decision)
    let s := setRoot s p n (if confirm then .confirmed else .revoked)
    (true, { s with tl := { s.tl with decisions := s.tl.decisions ++ ds } })
  else (false, s)

/-- A decision at a home slice: confirmed roots leave versions, which may become Present; revoked ones free what depends on them. -/
def decideAtHome (s : State) (d : Decision) (h : HomeId) : State :=
  let mine := s.tl.versions.filter fun v => decide (v.home = h ∧ rootHome s v.part = d.part) && v.roots.contains d.root
  mine.foldl (fun s v =>
    if d.confirm then
      let v' := { v with roots := v.roots.filter (· ≠ d.root) }
      let v' := if v'.roots.isEmpty ∧ v.st = .provisional then { v' with st := .present } else v'
      let s := putVer s v'
      if v'.st = v.st then s else notify s v'
    else dropVer s v) s

/-- NLD.p waiters that would have returned a version which a revocation freed take a revocation trap (R198). -/
def revokedWaiters (s : State) (d : Decision) (h : HomeId) : List VMsg :=
  let mine := s.tl.versions.filter fun v => decide (v.home = h ∧ rootHome s v.part = d.part) && v.roots.contains d.root
  s.tl.waiters.filterMap fun w => match w with
    | .load m h' =>
      (match m.kind with
       | .nld _ _ _ true _ _ => if h' = h ∧ mine.any (fun v => v.st = .provisional && w.satisfied v) then some m else none
       | _ => none)
    | _ => none

/-- Loads of a core's speculating threads that wait because too many roots would join their sets are served again. -/
def renotifyLoads (s : State) (c : CoreId) : State :=
  let hit := fun (w : Waiter) => match w with
    | .load m _ => decide (m.t.core = c) && (match m.kind with
      | .nld _ _ _ true _ _ => true
      | _ => false)
    | _ => false
  { s with tl := { s.tl with waiters := s.tl.waiters.filter (fun w => !hit w), notices := s.tl.notices ++ s.tl.waiters.filter hit } }

/-- A decision at a core: every thread there settles its set (R197, R198). -/
def decideAtCore (s : State) (c : CoreId) : State :=
  renotifyLoads ((s.wk.slots.filter fun (t, r) => decide (t.core = c) && r.thread.isSome).foldl (fun s (t, _) => settleRoots s t) s) c

end Sys2Proof.Machine
end

