-- ==== Sys2Proof/Machine/Tiles.lean ====
section
/-!
DEFINITION. Sys2Proof/Machine/Tiles.lean: class 7 (R373 to R380) and the steps of path V: requests at homes, answers, notices, retries, reels
and root decisions.
-/
namespace Sys2Proof.Machine

/-! ### Shared by class 7 -/

/-- A reference operand: its name region must be below NREGION (R153, R373). -/
def refOperand (h : Hdr) (r : Reg) : Exec Word := do
  let w ← rd1 h (.w r)
  let p ← myPart
  if refName w / 4096 ≥ ((← get).part p).nregion.toNat then trapAt 4 w.toNat 5
  return w

/-- Sends a request on path V, with a fresh number. -/
def sendV (h : Hdr) (ref : Word) (kind : VKind) : Exec Nat := do
  let t ← me; let c ← ctl; let gen ← myGen; let roots ← myRoots
  let id ← newOp
  let m : VMsg := { id := id, t := t, gen := gen, slice := c.slice, wsp := c.wsp, pc := c.pc, part := c.slice.part, name := refName ref, ver := refVer ref
                    kind := kind, refusals := 0, eog := h.eog, since := 0, prov := !roots.isEmpty, hint := h.hint.toNat, firstRefused := 0 }
  modify fun s => { s with tl := { s.tl with vnet := s.tl.vnet ++ [m] } }
  return id

/-- Speculative forms are illegal while SPEC is 0, whatever their guard (R102). -/
def badSpec (i : Instr) (spec : Bool) (s : State) : Option TrapRec :=
  let off := match s.cur with
    | .thread t => !bitAt (s.part (viewSlice s t).part).mode 4
    | _ => false
  if spec && off then some (illegalOf i) else none

def issueSpec (i : Instr) (h : Hdr) (spec : Bool) (body : Exec Flow) (s : State) : Host.Outcome State Fault Refusal :=
  issueCheck (badSpec i spec s) h body s

/-- The thread stays parked until every refused store of its own has been accepted (R179). -/
def waitRefused : Exec Unit := do
  let t ← me; let s ← get
  if s.tl.refused.any fun m => decide (m.t = t ∧ m.gen = slotGen s t) then parkMemory

/-- Whether an NABAND of a thread has been answered "retry": the thread is parked on memory until it is accepted (R192). -/
def abandonRefused (s : State) (t : ThreadId) : Bool :=
  (s.tl.vnet ++ s.tl.retries).any fun m => decide (m.t = t ∧ m.gen = slotGen s t ∧ m.refusals ≠ 0) && (match m.kind with
    | .naband _ => true
    | _ => false)

/-! ### NALLOC, NST -/

/-- The block size exponent of NALLOC. -/
def nallocSize (h : Hdr) : Src → Exec Nat
  | .op o => do
    let v ← rd1 h o
    if v.toNat > 12 then permTrap 0
    return v.toNat
  | .imm16 i => pure i.toNat
  | .imm32 i => pure i.toNat

def execNalloc (h : Hdr) (gd : BitVec 3) (d : Reg) (j : Src) (s : State) : Host.Outcome State Fault Refusal :=
  issueSeq h (do
    let n := 2 ^ (← nallocSize h j)
    fenceHold 2
    let p ← myPart
    let r := (← get).part p
    let base := (r.nextName + n - 1) / n * n
    if base + n > r.nregion.toNat * 4096 then setGuard gd false
    else
      modify fun s => s.modPart p fun r => { r with nextName := base + n }
      wrReg d (refWord base 0)
      setGuard gd true) s

def srcOpnds : Src → List Opnd
  | .op o => [o]
  | _ => []

/-- The read count of a store (R375). -/
def countOperand (h : Hdr) (c : Src) : Exec Nat := do
  match c with
  | .op o =>
    let v ← rd1 h o
    if v = 0 ∨ v.toNat > 0xFFFF then permTrap 0 o.code
    return v.toNat
  | .imm16 i => pure i.toNat
  | .imm32 i => pure i.toNat

/-- NST.p takes a root: the lowest Free one, with room in the set (R194). -/
def takeRoot (d : Reg) : Exec Nat := do
  let p ← myPart; let s ← get
  let home := rootHome s p
  if !linksUp s p.pkg home.pkg then parkMemory
  let mine ← myRoots
  if mine.length ≥ 4 then parkMemory
  let r ← orStop (freeRoot s home) (.park .memory)
  modify fun s => setRoot s home r .open_
  setRoots (mine ++ [r])
  wrReg d (BitVec.ofNat 64 r)
  return r

def execNst (h : Hdr) (p : Bool) (d r : Reg) (a : Opnd) (c : Src) (size : BitVec 3) (fmt : BitVec 4) (s : State) :
    Host.Outcome State Fault Refusal :=
  issueSpec (.nst h p d r a c size fmt) h p (do
    waitOpnds h ([.w r, a] ++ srcOpnds c) []
    let ref ← refOperand h r
    let av ← rd1 h a
    let n := tileBytes size.toNat
    let sp ← localSpan av n 16 true
    let k ← countOperand h c
    fenceHold 2
    waitRefused
    let th ← thr
    if th.nsts.length ≥ 8 then throw .hold
    let data ← readSpan av sp
    let root ← if p then some <$> takeRoot d else pure none
    let id ← sendV h ref (.nst size.toNat fmt.toNat k data (← myRoots) root)
    let pc := th.ctl.pc
    modT fun th => { th with nsts := th.nsts ++ [⟨id, ref, pc⟩] }
    return .seq) s

/-! ### NLD -/

/-- The register that a load reads for its destination. -/
def nldSrcs : NldDst → List Opnd
  | .loc r => [.w r]
  | _ => []

/-- A load's handle is bound (R103 step 5). -/
def chkDest : NldDst → Exec Unit
  | .cb k => do let _ ← cbBound k.val
  | _ => pure ()

/-- The destination of a load, checked and, for a handle, reserved (R376). -/
def nldDest (h : Hdr) (t : NldDst) (n : Nat) : Exec NldTo := do
  match t with
  | .loc r =>
    let av ← rd1 h (.w r)
    let sp ← localSpan av n 16 true
    if Span.typed (← get) sp then trapAt 14 av.toNat 0
    return .loc av
  | .v k => return .vec (← ctl).wsp (← renV k.val)
  | .cb k =>
    let b ← cbBound k.val
    if b.slotSz * 16 < n then alignTrap (space0 (← myCore) (b.slotOff b.p))
    return .slot k.val

/-- Takes a free slot of a handle for the tile (R161). -/
def reserveSlot (dest : NldTo) : Exec Unit := do
  match dest with
  | .slot k =>
    let b ← cbBound k
    if b.room = 0 then parkMemory
    setCb k { b with nrsv := b.nrsv + 1 }
  | _ => pure ()

def execNld (h : Hdr) (d r : Reg) (t : NldDst) (maxsz : BitVec 3) (p cons ge : Bool) (s : State) : Host.Outcome State Fault Refusal :=
  issueSpec (.nld h d r t maxsz p cons ge) h p (do
    chkDest t
    waitOpnds h (.w r :: nldSrcs t) []
    let ref ← refOperand h r
    let dest ← nldDest h t (tileBytes maxsz.toNat)
    waitRefused
    waitStores
    fenceHold 2
    reserveSlot dest
    let _ ← sendV h ref (.nld d.val dest maxsz.toNat p cons ge)
    throw (.wait .home)) s

/-! ### NREL, NDROP, NQRY, NABAND -/

def simpleV (h : Hdr) (r : Reg) (kind : VKind) (s : State) : Host.Outcome State Fault Refusal :=
  issueSeq h (do
    let ref ← refOperand h r
    fenceHold 2
    let _ ← sendV h ref kind) s

def execNrel (h : Hdr) (gd : BitVec 3) (r : Reg) (s : State) := simpleV h r (.nrel gd.toNat) s
def execNdrop (h : Hdr) (gd : BitVec 3) (r : Reg) (s : State) := simpleV h r (.ndrop gd.toNat) s
def execNqry (h : Hdr) (d r : Reg) (s : State) := simpleV h r (.nqry d.val) s
def execNaband (h : Hdr) (gd : BitVec 3) (r : Reg) (s : State) := simpleV h r (.naband gd.toNat) s

/-! ### NRED, NSUB -/

/-- The location in an engine instruction's destination register (R307). -/
def futLocation (d : Reg) : Exec (Word × Addr) := do
  let v ← regBits d.val
  let loc := v &&& (0x00FFFFFFFFFFFFFF : Word)
  let a ← orStop (resolveHandle (← get) (← myCore) (← ctl).slice loc) (.trap (mkTrap 5 loc.toNat 0))
  return (loc, a)

/-- Creates the future of an engine instruction and writes its handle. -/
def makeFuture (d : Reg) (loc : Word) (a : Addr) : Exec Fut := do
  let (f, hw) ← futCreate loc a
  wrHandle d hw
  return f

def execNred (h : Hdr) (d r : Reg) (a : Opnd) (c : Reg) (size : BitVec 3) (fmt : BitVec 4) (s : State) : Host.Outcome State Fault Refusal :=
  issueSeq h (do
    let (loc, fa) ← futLocation d
    waitOpnds h [.w r, a, .w c] []
    let ref ← refOperand h r
    let av ← rd1 h a
    let sp ← localSpan av (tileBytes size.toNat) 16 true
    let x ← rd1 h (.w c)
    let idx := wfield x 0 12; let nm1 := wfield x 12 12; let count := wfield x 24 16
    if wfield x 40 24 ≠ 0 ∨ count = 0 ∨ idx > nm1 then permTrap 0
    if !([1, 2, 3, 9].contains fmt.toNat) then trapAt 7 0 (fmt.toNat * 256)
    fenceHold 2
    let data ← readSpan av sp
    let f ← makeFuture d loc fa
    let _ ← sendV h ref (.nred size.toNat fmt.toNat count idx nm1 data (← myRoots) f)) s

/-- Whether a reel has an entry for the partition: of 12,288, each Strict partition of the package has 256 reserved, and any other takes what
is free beside them (R24, R28, R162). -/
def reelRoom (s : State) (p : PartId) (name : Nat) : Bool :=
  let stack := fun (p : PartId) (name : Nat) =>
    let h := (peerHome s p (.name p (name / 4096))).1
    homeStack s h (verPart h p)
  let here := s.tl.subs.filter fun x => stack x.part x.name = stack p name
  let strict := fun (p : PartId) => !bitAt (s.part p).mode 3
  if strict p then decide ((here.filter fun x => x.part = p).length < 256)
  else
    let reserved := 256 * (s.un.parts.filter fun e => decide (e.1.pkg = p.pkg) && !e.2.units.isEmpty && strict e.1).length
    decide ((here.filter fun x => !strict x.part).length + reserved < 12288)

def execNsub (h : Hdr) (d r : Reg) (cb : Fin 16) (c : Reg) (wb cons : Bool) (size : BitVec 3) (fmt : BitVec 4) (s : State) :
    Host.Outcome State Fault Refusal :=
  issueSeq h (do
    let (loc, fa) ← futLocation d
    let b ← cbBound cb.val
    waitOpnds h [.w r, .w c] []
    let ref ← refOperand h r
    let t ← me; let ct ← ctl; let gen ← myGen
    if (← get).tl.subs.any fun x => decide (x.slice = ct.slice ∧ x.core = t.core ∧ x.cb = cb.val) then permTrap 0
    let x ← rd1 h (.w c)
    let m := wfield x 0 24; let step := wfield x 24 16 + 1; let count := wfield x 40 16
    if m = 0 ∨ refVer ref + m > 2 ^ 24 ∨ wfield x 56 8 ≠ 0 then permTrap 0
    if wb = decide (count = 0) then permTrap 0
    if wb && decide (b.slotSz * 16 < tileBytes size.toNat) then alignTrap (space0 t.core (b.slotOff b.c))
    if wb then waitConfirmed
    fenceHold 2
    if !reelRoom (← get) ct.slice.part (refName ref) then parkMemory
    let roots ← myRoots
    let f ← makeFuture d loc fa
    let id ← newOp
    let sub : SubRec :=
      { id := id, t := t, gen := gen, slice := ct.slice, core := t.core, cb := cb.val, part := ct.slice.part, name := refName ref
        ver := refVer ref, step := step, left := m, m := m, wb := wb, cons := cons, size := size.toNat, fmt := fmt.toNat, count := count
        fut := f, waiting := false, refusals := 0, since := 0, stop := false, roots := roots }
    modify fun s => { s with tl := { s.tl with subs := s.tl.subs ++ [sub] } }) s

/-! ### NCONF, NREVOKE -/

/-- Waits for the thread's stores and contributions (R380). -/
def waitTiles : Exec Unit := do
  let t ← me; let th ← thr; let s ← get
  let mine := fun (m : VMsg) => decide (m.t = t ∧ m.gen = slotGen s t) && (match m.kind with
    | .nred .. => true
    | _ => false)
  if !th.nsts.isEmpty || (s.tl.vnet ++ s.tl.retries).any mine then parkMemory

def decide' (h : Hdr) (gd : BitVec 3) (r : Reg) (confirm : Bool) : Exec Flow := do
  let w ← rd1 h (.w r)
  if wfield w 8 56 ≠ 0 then permTrap 0
  fenceHold 2
  waitTiles
  let p ← myPart
  if !linksUp (← get) p.pkg (rootHome (← get) p).pkg then parkMemory
  let (ok, s') := decideRoot (← get) p w.toNat confirm
  set s'
  setGuard gd ok
  return .seq

def execNconf (h : Hdr) (gd : BitVec 3) (r : Reg) (s : State) := issueSpec (.nconf h gd r) h true (decide' h gd r true) s
def execNrevoke (h : Hdr) (gd : BitVec 3) (r : Reg) (s : State) := issueSpec (.nrevoke h gd r) h true (decide' h gd r false) s

/-! ### Requests at a home -/

/-- A request may be served when no earlier one of its thread is on its way to the same home (R175). -/
def vReady (s : State) (before : List VMsg) (m : VMsg) : Bool :=
  let h := (nameHome s m.t.core m.part m.name).1
  before.all fun x => decide (x.t ≠ m.t ∨ x.gen ≠ m.gen) || decide ((nameHome s x.t.core x.part x.name).1 ≠ h)

/-- The k-th request on path V, where it may be served: with the rest of the path and its home. -/
def takeV (s : State) (k : Nat) : Option (VMsg × HomeId × State) :=
  match s.tl.vnet[k]? with
  | none => none
  | some m =>
    if vReady s (s.tl.vnet.take k) m && linksUp s m.part.pkg (nameHome s m.t.core m.part m.name).1.pkg then
      let (h, s) := nameHome s m.t.core m.part m.name
      some (m, h, touchPeer { s with tl := { s.tl with vnet := dropAt s.tl.vnet k } } h m.part m.name)
    else none

/-- Whether the thread of a message still runs in its slot. -/
def msgLive (s : State) (t : ThreadId) (gen : Nat) : Bool := (s.thread? t).isSome && slotGen s t = gen

def ackStore (s : State) (h : HomeId) (m : VMsg) (violation : Bool) : State :=
  { s with tl := { s.tl with acks := s.tl.acks ++ [⟨m.id, m.t, m.gen, violation, h.pkg⟩] } }

/-- NST_ARRIVAL: the k-th request of path V is a store and reaches its home (R176, R179). -/
def execNstArrival (k : Nat) (s : State) : Host.Outcome State Fault Refusal :=
  match takeV s k with
  | none => .next s
  | some (m, h, s') =>
    match m.kind with
    | .nst size fmt count data roots _ =>
      let p := verPart h m.part
      match storeVer s' h p (refusedAhead s' h p s'.tl.refused (s.ac + 1)) m size fmt count data roots with
      | (.done v, s') => .next (ackStore s' h m v)
      | (.refused, s') =>
        .next (verEvent { s' with tl := { s'.tl with refused := s'.tl.refused ++ [{ m with firstRefused := s.ac }] } } h p (!roots.isEmpty) 1
          m.name m.ver 0)
    | _ => .next s

/-- REFUSED_STORE_RETRY: the k-th refused store is offered again, in the order of refusal (R179). -/
def execRefusedStoreRetry (k : Nat) (s : State) : Host.Outcome State Fault Refusal :=
  match s.tl.refused[k]? with
  | none => .next s
  | some m =>
    match m.kind with
    | .nst size fmt count data roots _ =>
      let (h, s') := nameHome s m.t.core m.part m.name
      let p := verPart h m.part
      if !linksUp s m.part.pkg h.pkg then .next s
      else match storeVer s' h p (refusedAhead s' h p (s.tl.refused.take k) m.firstRefused) m size fmt count data roots with
      | (.refused, _) => .next s
      | (.done v, s') =>
        let s' := { s' with tl := { s'.tl with refused := dropAt s'.tl.refused k } }
        .next (ackStore (verEvent s' h p (!roots.isEmpty) 2 m.name m.ver (s.ac - m.firstRefused)) h m v)
    | _ => .next s

/-- Violations stay in the program order of their stores (R177). -/
def insertViolation (l : List NstOut) (n : NstOut) : List NstOut :=
  l.filter (fun x => x.id < n.id) ++ n :: l.filter (fun x => n.id < x.id)

/-- NST_ACKNOWLEDGE: the k-th acknowledgement reaches its core (R177). -/
def execNstAcknowledge (k : Nat) (s : State) : Host.Outcome State Fault Refusal :=
  match s.tl.acks[k]? with
  | none => .next s
  | some a =>
    if !linksUp s a.home a.t.core.pkg then .next s
    else
    let s := { s with tl := { s.tl with acks := dropAt s.tl.acks k } }
    if !msgLive s a.t a.gen then .next s
    else .next (s.modThread a.t fun th =>
      match th.nsts.find? fun n => decide (n.id = a.id) with
      | none => th
      | some n =>
        let th := { th with nsts := th.nsts.filter fun n => n.id ≠ a.id }
        if a.violation ∧ th.phase ≠ .ending then { th with due := { th.due with violations := insertViolation th.due.violations n } } else th)

/-! ### Loads -/

/-- An NLD gives back the slot it holds. -/
def releaseSlot (s : State) (m : VMsg) : State :=
  match m.kind with
  | .nld _ (.slot k) _ _ _ _ =>
    s.modCore m.t.core fun r => { r with cbs := tmod r.cbs (m.slice, k) fun b => { b with nrsv := b.nrsv - 1 } }
  | _ => s

/-- Whether a thread's window has every line that its chain has used resident. -/
def windowThere (s : State) (t : ThreadId) (wsp : Word) : Bool :=
  match s.thread? t with
  | some th => !th.lines.any fun e => decide (winLine wsp ≤ e.1 ∧ e.1 < winLine wsp + winLines ∧ e.2 = .home)
  | none => true

/-- Continues the thread of an answered request, once its window's lines are there: `orig` is the state when its body is not ready. -/
def answerThread (t : ThreadId) (eog : Bool) (orig s : State) (body : Exec Flow) : Host.Outcome State Fault Refusal :=
  let before := { s with cur := .thread t }
  match s.thread? t with
  | some th =>
    if windowThere s t th.ctl.wsp then settle t { Hdr.plain with eog := eog } orig before (body.run before) else .next orig
  | none => .next orig

/-- The lines of a version's tile in a core's L1, tagged with its home and instance number (R152, R173): a line that is there is read, and
the others come from the home. HINT 1 allocates none, and HINT 4 neither reads nor fills L1 (R85). -/
def tileRead (hint : Nat) (v : Version) : Exec Nat := do
  let core ← myCore
  let s ← get
  let lines := List.range (tileBytes v.size / 64)
  let tag := some (v.home, v.inst)
  let line := fun i => match if hint = 4 then none else (s.core core).l1.find? fun l => decide (l.addr = 64 * i ∧ l.tile = tag) with
    | some l => l.data
    | none => field v.data (512 * i) 512
  if hint ≠ 1 ∧ hint ≠ 4 then modify fun s => lines.foldl (fun s i => putL1 s core ⟨64 * i, line i, tag⟩) s
  return pack (lines.map fun i => (512, line i))

/-- The load takes a version: the tile goes to its destination, the roots join the set, and the reference is written (R376). -/
def deliver (m : VMsg) (v : Version) (d : Nat) (dest : NldTo) (maxsz : Nat) (cons : Bool) : Exec Flow := do
  let ref := refWord v.name v.ver
  if v.size > maxsz then
    modify fun s => releaseSlot s m
    throw (.trapKeep (mkTrap 5 ref.toNat 1))
  if !v.poison.isEmpty then
    modify fun s => releaseSlot s m
    throw (.trapKeep (mkTrap 11 ref.toNat 0))
  let n := tileBytes v.size
  let data ← tileRead m.hint v
  match dest with
  | .loc a =>
    let sp ← localSpan a n 16 true
    writeSpan a sp n data
  | .vec _ k => wrV k (data % 2 ^ 1024) v.fmt
  | .slot _ => pure ()
  if cons then
    let prov := !(← myRoots).isEmpty
    modify fun s => consumeVer s prov v
  match dest with
  | .slot k =>
    let x : SlotTile := ⟨m.t, m.gen, m.slice, k, d, m.wsp, ref, data, n, v.roots, m.eog⟩
    modify fun s => { s with tl := { s.tl with slotTiles := s.tl.slotTiles ++ [x] } }
    throw (.wait .home)
  | _ =>
    joinRoots v.roots
    wrReg (Fin.ofNat 64 d) ref
    return .seq

/-- A load is served at its home by the version's state (R180); a load that must wait holds a waiter record, or is answered "retry"
(R184). -/
def serveNld (orig s : State) (h : HomeId) (m : VMsg) : Host.Outcome State Fault Refusal :=
  match m.kind with
  | .nld d dest maxsz p cons ge =>
    match s.thread? m.t with
    | none => .next s
    | some th =>
      if slotGen s m.t ≠ m.gen then .next s
      else
        let vp := verPart h m.part
        match serveLoad s h vp m.name m.ver p ge (heldRoots s m.t th) with
        | .tile v => answerThread m.t m.eog orig s (deliver m v d dest maxsz cons)
        | .poisoned => .next (takeTrap m.t (mkTrap 9 (refWord m.name m.ver).toNat 0) (releaseSlot s m))
        | .wait =>
          if waitersAt s h < 8192 then .next { s with tl := { s.tl with waiters := s.tl.waiters ++ [.load m h] } }
          else
            let m' := { m with refusals := m.refusals + 1, since := s.ac }
            .next (verEvent { s with tl := { s.tl with retries := s.tl.retries ++ [m'] } } h vp (!(heldRoots s m.t th).isEmpty) 5
              m.name m.ver 0)
  | _ => .next orig

/-- NLD_REQUEST: the k-th request of path V is a load and reaches its home. -/
def execNldRequest (k : Nat) (s : State) : Host.Outcome State Fault Refusal :=
  match takeV s k with
  | none => .next s
  | some (m, h, s') => serveNld s s' h m

/-- ARRIVAL_NOTICE: the k-th notice reaches its waiter: a load is served again, a reel goes on (R185). -/
def execArrivalNotice (k : Nat) (s : State) : Host.Outcome State Fault Refusal :=
  match s.tl.notices[k]? with
  | none => .next s
  | some w =>
    let s' := { s with tl := { s.tl with notices := dropAt s.tl.notices k } }
    match w with
    | .load m h => if linksUp s m.part.pkg h.pkg then serveNld s s' h m else .next s
    | .reel id p h _ _ =>
      if !linksUp s p.pkg h.pkg then .next s
      else .next { s' with tl := { s'.tl with subs := s'.tl.subs.map fun x => if x.id = id then { x with waiting := false } else x } }

/-- RETRY_RESEND: after its back-off, of 256 ac doubled for each further answer up to 8,192, the k-th request is sent again (R184). -/
def execRetryResend (k : Nat) (s : State) : Host.Outcome State Fault Refusal :=
  match s.tl.retries[k]? with
  | none => .next s
  | some m =>
    if s.ac < m.since + min 8192 (256 * 2 ^ (m.refusals - 1)) then .next s
    else .next { s with tl := { s.tl with retries := dropAt s.tl.retries k, vnet := s.tl.vnet ++ [m] } }

/-- The tile fills the slot at P as a write does; the reservation ends (R161). -/
def fillSlot (x : SlotTile) : Exec Flow := do
  let b ← cbBound x.cb
  let a ← dataAddr (b.slotOff b.p)
  let b' := { b with nrsv := b.nrsv - 1 }
  if (← get).typedAt a x.len then
    setCb x.cb b'
    throw (.trapKeep (mkTrap 14 (space0 (← myCore) (b.slotOff b.p)).toNat 0))
  modify fun s => (Span.write s x.bytes [(a, x.len)]).fillGranules a (b.slotSz * 16)
  watchMine a x.len true
  setCb x.cb { b' with p := (b.p + 1) % 2 ^ 32 }
  joinRoots x.addRoots
  wrReg (Fin.ofNat 64 x.dst) x.ref
  return .seq

/-- NLD_SLOT_ARRIVAL: the k-th tile on its way to a slot arrives. -/
def execNldSlotArrival (k : Nat) (s : State) : Host.Outcome State Fault Refusal :=
  match s.tl.slotTiles[k]? with
  | none => .next s
  | some x =>
    let s' := { s with tl := { s.tl with slotTiles := dropAt s.tl.slotTiles k } }
    if !msgLive s x.t x.gen then
      .next (s'.modCore x.t.core fun r => { r with cbs := tmod r.cbs (x.slice, x.cb) fun b => { b with nrsv := b.nrsv - 1 } })
    else answerThread x.t x.eog s s' (fillSlot x)

/-! ### The other requests (R174, R181, R182, R192, R377) -/

/-- The word of NQRY. -/
def queryWord : Option Version → Nat
  | none => 0
  | some v =>
    let merging := v.st = .merging
    let merged := if merging then v.received.length - v.held.length else 0
    pack [(3, match v.st with
      | .present => 1
      | .provisional => 2
      | .merging => 3
      | .abandoned => 4), (6, 0), (3, v.size), (4, v.fmt), (16, v.count), (2, 0), (3, if v.st = .provisional then v.roots.length else 0), (3, 0),
      (12, if merging then v.nm1 else 0), (12, merged)]

/-- What one request does at its home and what it answers; none: "retry". -/
def serveSimple (s : State) (h : HomeId) (p : PartId) (m : VMsg) : Option (List (Nat × Word) × Option (Nat × Bool) × State) :=
  let v := findVer s h p m.name m.ver
  match m.kind with
  | .nqry d => some ([(d, BitVec.ofNat 64 (queryWord v))], none, s)
  | .nrel g =>
    (match v with
     | some v =>
       if v.st = .present ∨ v.st = .provisional then some ([], some (g, true), consumeVer s m.prov v) else some ([], some (g, false), s)
     | none => some ([], some (g, false), s))
  | .ndrop g =>
    (match v with
     | some v => if v.st = .merging then some ([], some (g, false), s) else some ([], some (g, true), dropVer s v)
     | none => some ([], some (g, false), s))
  | .naband g =>
    (match v with
     | some v =>
       if v.st = .merging then
         let v' := { v with st := .abandoned, data := 0, poison := [], received := [], held := [], roots := [], nextIdx := 0 }
         some ([], some (g, true), notify (putVer s v') v')
       else some ([], some (g, false), s)
     | none =>
       if entriesAt s h p < quotaEntries s p then
         let (inst, s) := nextInst s h
         let v : Version := ⟨h, p, m.name, m.ver, .abandoned, 0, 0, 0, 0, [], [], inst, 0, [], 0, []⟩
         let s := quotaEvent (notify (putVer s v) v) h p m.prov m.name m.ver
         some ([], some (g, true), if m.refusals ≠ 0 then verEvent s h p m.prov 2 m.name m.ver (s.ac - m.firstRefused) else s)
       else none)
  | _ => none

def refuseV (s : State) (m : VMsg) : VMsg :=
  { m with refusals := m.refusals + 1, since := s.ac, firstRefused := if m.refusals = 0 then s.ac else m.firstRefused }

def isSimple : VKind → Bool
  | .nqry _ => true
  | .nrel _ => true
  | .ndrop _ => true
  | .naband _ => true
  | _ => false

/-- HOME_REQUEST: the k-th request of path V is an NREL, NDROP, NQRY or NABAND and is served. -/
def execHomeRequest (k : Nat) (s : State) : Host.Outcome State Fault Refusal :=
  match takeV s k with
  | none => .next s
  | some (m, h, s') =>
    if !isSimple m.kind then .next s
    else
      let p := verPart h m.part
      match serveSimple s' h p m with
      | some (regs, g, s') => .next { s' with tl := { s'.tl with answers := s'.tl.answers ++ [⟨m.id, m.t, m.slice, m.wsp, regs, g, 0, h.pkg⟩] } }
      | none => .next (verEvent { s' with tl := { s'.tl with retries := s'.tl.retries ++ [refuseV s m] } } h p m.prov 1 m.name m.ver 0)

/-- HOME_ANSWER: the k-th answer is written in the workspace of the thread that asked, out or not (R377). -/
def execHomeAnswer (k : Nat) (s : State) : Host.Outcome State Fault Refusal :=
  match s.tl.answers[k]? with
  | none => .next s
  | some o =>
    if !linksUp s o.home o.t.core.pkg || !windowThere s o.t o.wsp then .next s
    else .next (completeOp { s with tl := { s.tl with answers := dropAt s.tl.answers k } } o)

/-- NRED_CONTRIBUTION_ARRIVAL: the k-th request of path V is a contribution and reaches its home (R189, R190, R193). -/
def execNredContributionArrival (k : Nat) (s : State) : Host.Outcome State Fault Refusal :=
  match takeV s k with
  | none => .next s
  | some (m, h, s') =>
    match m.kind with
    | .nred size fmt count idx nm1 data roots fut =>
      let p := verPart h m.part
      match contribute s' h p m size fmt count idx nm1 data roots with
      | (.resolved, s') =>
        let s' := if m.refusals ≠ 0 then verEvent s' h p (!roots.isEmpty) 2 m.name m.ver (s.ac - m.firstRefused) else s'
        .next (engResolve s' fut 2 idx)
      | (.faulted r, s') => .next (engResolve s' fut 3 r)
      | (.retry, s') =>
        .next (verEvent { s' with tl := { s'.tl with retries := s'.tl.retries ++ [refuseV s m] } } h p (!roots.isEmpty) 1 m.name m.ver 0)
    | _ => .next s

/-! ### Root decisions, withdrawals -/

/-- ROOT_DECISION_ARRIVAL: the k-th decision on its way takes effect at its place (R197, R198). -/
def execRootDecisionArrival (k : Nat) (s : State) : Host.Outcome State Fault Refusal :=
  match s.tl.decisions[k]? with
  | none => .next s
  | some d =>
    if !linksUp s d.part.pkg d.place.pkg then .next s
    else
    let s := { s with tl := { s.tl with decisions := dropAt s.tl.decisions k } }
    match d.place with
    | .core c => .next (decideAtCore s c)
    | .home h =>
      let hit := if d.confirm then [] else revokedWaiters s d h
      let s := decideAtHome s d h
      let gone := fun (w : Waiter) => match w with
        | .load m _ => hit.any fun x => decide (x.id = m.id)
        | _ => false
      let s := { s with tl := { s.tl with waiters := s.tl.waiters.filter fun w => !gone w } }
      .next (hit.foldl (fun s m => takeTrap m.t (mkTrap 10 0 (d.root * 256)) (releaseSlot s m)) s)

/-- Every request of a thread that waits elsewhere is removed: at banks, at homes, in queues and tables (R360). -/
def withdraw (s : State) (t : ThreadId) : State :=
  let isLoad := fun (m : VMsg) => decide (m.t = t) && (match m.kind with
    | .nld .. => true
    | _ => false)
  let waits := fun (w : Waiter) => match w with
    | .load m _ => decide (m.t = t)
    | _ => false
  let gone := (s.tl.vnet ++ s.tl.retries).filter isLoad ++
    (s.tl.waiters ++ s.tl.notices).filterMap fun w => match w with
      | .load m _ => if m.t = t then some m else none
      | _ => none
  let s := gone.foldl releaseSlot s
  let s := { s with tl := { s.tl with vnet := s.tl.vnet.filter (fun m => !isLoad m), retries := s.tl.retries.filter (fun m => !isLoad m)
                                      waiters := s.tl.waiters.filter (fun w => !waits w), notices := s.tl.notices.filter fun w => !waits w } }
  let s := s.modQuad t.core.quad fun r => { r with miss := r.miss.map fun m => { m with waiters := m.waiters.filter (· ≠ t) } }
  dropRequests s t

/-- Whether what a load waits for at its home has been served: its tile or its notice is on its way (R360). -/
def loadServed (s : State) (t : ThreadId) : Bool :=
  s.tl.slotTiles.any (fun x => decide (x.t = t)) || s.tl.notices.any fun w => match w with
    | .load m _ => decide (m.t = t)
    | _ => false

/-- Whether a thread's access at another core's bank waits for a full/empty bit (R149, R360). -/
def remoteWaits (s : State) (t : ThreadId) : Bool :=
  s.nt.bankNet.any fun r => decide (r.t = t) && (match r.op with
    | .load _ _ fe _ => decide (fe ≠ 0)
    | .store _ _ fe => fe
    | _ => false)

/-- Whether a thread waits in what a withdrawal ends: an LDS.fe or STS.fe at a bank, an NLD at a home whose tile is not yet on its way, and
WAITEV's watch (R360, R399, R413). Every other registration stays (R65). -/
def withdrawable (s : State) (t : ThreadId) (th : Thread) : Bool :=
  match th.phase with
  | .home => !loadServed s t
  | .bank => remoteWaits s t
  | .parked .memory => s.nt.bankWait.any fun w => decide (w.t = t)
  | .watch => true
  | _ => false

/-- Whether a thread may leave the rotation where it stands: an access that does not park completes first (R312, R357, R360). -/
def mayLeave (s : State) (t : ThreadId) (th : Thread) : Bool :=
  match th.phase with
  | .walk => false
  | .acquire => false
  | .staging => false
  | .refetch => false
  | .bank => remoteWaits s t
  | .ready => !th.charged || th.again
  | _ => true

/-- WITHDRAWAL: the withdrawal of a thread that leaves the rotation finds its request not yet served, and removes it (R360). -/
def execWithdrawal (t : ThreadId) (s : State) : Host.Outcome State Fault Refusal :=
  match s.thread? t with
  | none => .next s
  | some th =>
    if (th.outPre || th.outBudget || th.outDebug) && withdrawable s t th then
      .next ((withdraw s t).modThread t fun th => { th with phase := .ready, watch := none, shape := none })
    else .next s

/-! ### Reels (R162, R187, R379) -/

def dropSub (s : State) (x : SubRec) : State := { s with tl := { s.tl with subs := s.tl.subs.filter fun y => y.id ≠ x.id } }
def putSub (s : State) (x : SubRec) : State := { s with tl := { s.tl with subs := s.tl.subs.map fun y => if y.id = x.id then x else y } }

/-- A subscription ends by a fault, or by its last version. -/
def faultSub (s : State) (x : SubRec) (result : Nat) : State := engResolve (dropSub s x) x.fut 3 result

/-- The reel names no version beyond 0xFF_FFFF (R187). -/
def subNames (x : SubRec) : Bool := decide (x.ver < 2 ^ 24)

/-- One version has been written or stored: the subscription goes on, ends with RESULT = m, or stops when cancelled. -/
def advanceSub (s : State) (x : SubRec) : State :=
  if x.stop then dropSub s x
  else if x.left ≤ 1 then engResolve (dropSub s x) x.fut 2 x.m
  else putSub s { x with left := x.left - 1, ver := x.ver + x.step, refusals := 0, since := 0 }

def subCb (s : State) (x : SubRec) : Option CbState := tfind (s.core x.core).cbs (x.slice, x.cb)
def setSubCb (s : State) (x : SubRec) (b : CbState) : State := s.modCore x.core fun r => { r with cbs := tput r.cbs (x.slice, x.cb) b }

/-- The storage of a slot of a subscription's ring. -/
def subAddr (s : State) (x : SubRec) (b : CbState) (i : Nat) : Option Addr :=
  ((s.slice? x.slice).bind (·.grant? x.core)).map fun g => addrSpad x.core (g.data + b.slotOff i)

/-- The home of a subscription's tiles, reached by its reel. -/
def subHome (s : State) (x : SubRec) : HomeId × State :=
  let (h, s) := peerHome s x.part (.name x.part (x.name / 4096))
  (h, touchPeer s h x.part x.name)

/-- A reel's load finds no waiter record free: it is answered "retry", and sent again after the back-off of R184. -/
def refuseSub (s : State) (h : HomeId) (x : SubRec) : State :=
  verEvent (putSub s { x with refusals := x.refusals + 1, since := s.ac }) h (verPart h x.part) (!x.roots.isEmpty) 5 x.name x.ver 0

def subBackOff (s : State) (x : SubRec) : Bool := decide (x.refusals ≠ 0 ∧ s.ac < x.since + min 8192 (256 * 2 ^ (x.refusals - 1)))

/-- The version goes into the slot at P, whose granules become full, with the poison that it carries (R162, R167). -/
def fillReel (s : State) (x : SubRec) (b : CbState) (a : Addr) (v : Version) : State :=
  let n := tileBytes v.size
  let s := if x.cons then consumeVer s (!x.roots.isEmpty) v else s
  let s := (Span.write s v.data [(a, n)]).fillGranules a (b.slotSz * 16)
  let s := { s with st := { s.st with poison := v.poison.foldl (fun l i => nins l (a / 16 + i)) s.st.poison } }
  let s := setSubCb (engWatch s x.part a n true false) x { b with p := (b.p + 1) % 2 ^ 32 }
  if v.poison.isEmpty then advanceSub s x else faultSub s x 11

/-- REEL_SLOT_FILL: the k-th subscription, a read one, writes its next version into a free slot. -/
def execReelSlotFill (k : Nat) (s : State) : Host.Outcome State Fault Refusal :=
  match s.tl.subs[k]? with
  | none => .next s
  | some x =>
    if x.wb ∨ x.waiting then .next s
    else if x.stop then .next (dropSub s x)
    else
      let (h, s') := subHome s x
      if !subNames x || subBackOff s x || !linksUp s x.part.pkg h.pkg then .next s
      else match serveLoad s' h (verPart h x.part) x.name x.ver false false [] with
      | .poisoned => .next (faultSub s' x 9)
      | .wait =>
        if waitersAt s' h < 8192 then
          .next (putSub { s' with tl := { s'.tl with waiters := s'.tl.waiters ++ [.reel x.id x.part h x.name x.ver] } } { x with waiting := true })
        else .next (refuseSub s' h x)
      | .tile v =>
        match subCb s' x with
        | none => .next s'
        | some b =>
          if b.room = 0 then .next s'
          else if tileBytes v.size > b.slotSz * 16 then .next (faultSub s' x (5 + 2 ^ 8))
          else
            match subAddr s' x b b.p with
            | none => .next s'
            | some a => if s'.typedAt a (tileBytes v.size) then .next (faultSub s' x 14) else .next (fillReel s' x b a v)

/-- The poisoned granules of a range, numbered from its start. -/
def poisonIn (s : State) (a n : Nat) : List Nat := (List.range (n / 16)).filter fun i => s.poisoned (a + 16 * i) 16

/-- The slot at C becomes a version, with the poison that the slot carries (R162, R167). -/
def drainReel (s : State) (h : HomeId) (x : SubRec) (b : CbState) (a : Addr) : State :=
  let n := tileBytes x.size
  let p := verPart h x.part
  let bad := poisonIn s a n
  let s := if x.refusals ≠ 0 then verEvent s h p false 2 x.name x.ver (s.ac - x.since) else s
  let s := createVer s h p x.name x.ver x.size x.fmt x.count (s.rd a n) []
  let s := if bad.isEmpty then s else match findVer s h p x.name x.ver with
    | some v => putVer s { v with poison := bad }
    | none => s
  let s := setSubCb (engWatch s x.part a n false false) x { b with c := (b.c + 1) % 2 ^ 32 }
  if bad.isEmpty then advanceSub s x else faultSub s x 11

/-- REEL_WRITEBACK_DRAIN: the k-th subscription, a write-back one, stores its next filled slot as a version. -/
def execReelWritebackDrain (k : Nat) (s : State) : Host.Outcome State Fault Refusal :=
  match s.tl.subs[k]? with
  | none => .next s
  | some x =>
    if !x.wb then .next s
    else if x.stop then .next (dropSub s x)
    else
      match (subCb s x).bind fun b => (subAddr s x b b.c).map fun a => (b, a) with
      | none => .next s
      | some (b, a) =>
        let (h, s') := subHome s x
        let p := verPart h x.part
        if b.filled = 0 || !subNames x || !linksUp s x.part.pkg h.pkg then .next s
        else match findVer s' h p x.name x.ver with
        | some _ => .next (faultSub s' x 8)
        | none =>
          let ac := if x.refusals = 0 then s.ac + 1 else x.since
          if refusedAhead s' h p (s'.tl.refused.filter fun m => decide (m.firstRefused < ac)) ac || !homeRoom s' h p (tileBytes x.size) then
            if x.refusals = 0 then .next (verEvent (putSub s' { x with refusals := 1, since := s.ac }) h p false 1 x.name x.ver 0) else .next s
          else .next (drainReel s' h x b a)

end Sys2Proof.Machine
end

