-- ==== Sys2Proof/Machine/Slices.lean ====
section
/-!
DEFINITION. Sys2Proof/Machine/Slices.lean: the dispatcher of a partition (R29 to R33, R55 to R69): submission, events, fit, admission,
pre-emption and resumption, budgets, completion and kill; and the host queues that feed it (R294).
-/
namespace Sys2Proof.Machine

/-! ### Events to the command processor (R57, R296) -/

/-- An event record. -/
def eventRecord (time seq faults detail : Nat) (o : Origin) (part code : Nat) : BitVec 256 :=
  BitVec.ofNat 256 (pack [(8, code), (56, 0), (3, if o.noVf then 0 else o.queue), (7, 0), (6, part), (9, if o.noVf then 0 else o.vf),
    (1, bit o.noVf), (6, 0), (32, detail % 2 ^ 32), (32, faults), (32, seq), (64, time)])

/-- The events that the dispatcher of a partition holds in its own queue, whichever command processor they are for. -/
def heldBy (s : State) (p : PartId) : Nat :=
  (s.un.quads.map fun e => (e.2.held.filter fun h => decide (h.1 = p)).length).sum

/-- Whether a dispatcher can take one more event for a command processor: its own queue has room. -/
def eventRoom (s : State) (p : PartId) : Bool := decide (heldBy s p < 1024)

/-- A dispatcher appends an event to the ring, behind those that it holds for it. -/
def postEvent (s : State) (q : QuadId) (p : PartId) (e : BitVec 256) : State :=
  let r := s.quad q
  if r.held.all (fun h => decide (h.1 ≠ p)) ∧ r.ring.length < 1024 then s.modQuad q fun r => { r with ring := r.ring ++ [e] }
  else if eventRoom s p then s.modQuad q fun r => { r with held := r.held ++ [(p, e)] }
  else s

/-- Central count and every allotment. -/
def SliceRec.left (r : SliceRec) : Nat := r.central + r.allot.foldl (fun n e => n + e.2) 0

def postSlice (s : State) (i : SliceId) (r : SliceRec) (code : Nat) : State :=
  let faults := if code = 1 ∨ code = 6 then r.faults else 0
  let detail := if code = 3 ∨ code = 5 then r.left else 0
  postEvent s r.origin.cp i.part (eventRecord s.dtime.toNat i.seq faults detail r.origin i.part.num code)

/-- A class-5 event of a slice (R273). -/
def budgetEvent (s : State) (i : SliceId) (r : SliceRec) (core kind left : Nat) : State :=
  match (s.part i.part).logicalDie? r.ldie with
  | some d => raiseEvent s ⟨i.part.pkg, d⟩ core 0xF i.part 5 false [kind, i.seq, left % 2 ^ 32]
  | none => s

/-! ### Submission (R30, R55, R56) -/

/-- The code of the first failed check, 0 for none. -/
def descCode (s : State) (p : PartId) (d : BitVec 512) : Nat :=
  let f := descField d
  let x := f 256 4; let y := f 260 4; let w := f 264 5; let h := f 269 4
  if f 449 63 ≠ 0 ∨ f 408 40 ≠ 0 ∨ f 372 12 ≠ 0 ∨ f 284 4 ≠ 0 then 1
  else if x + w > 16 ∨ y + h > 12 ∨ h = 0 ∨ w = 0 then 2
  else match (s.part p).logicalDie? (f 273 2) with
  | none => 8
  | some die =>
    if !(groupOf x y w h).all fun l => (s.part p).ownsCluster (CoreId.cluster ⟨p.pkg, die, l⟩) then 3
    else if f 288 8 * 4096 + (f 275 4 + 1) * 9216 > 524288 then 4
    else if f 296 8 > 128 ∨ f 279 3 > 4 ∨ f 288 8 > 128 then 5
    else if f 192 64 = 0 ∨ f 384 24 = 0 then 6
    else if f 320 12 ≠ 0 then 7
    else 0

/-- Slices of a partition that are not Completed (R56). -/
def heldSlices (s : State) (p : PartId) : Nat :=
  (s.wk.slices.filter fun e => decide (e.1.part = p ∧ e.2.st ≠ .completed)).length

/-- Submits an accepted descriptor; its sequence number is the partition's submission counter. -/
def submit (s : State) (p : PartId) (d : BitVec 512) (o : Origin) (priv : Bool) : Nat × State :=
  let n := (s.part p).seq
  let r : SliceRec :=
    { desc := d, st := .ready, deadline := BitVec.ofNat 64 (descField d 128 64), central := descField d 192 64, allot := [], faults := 0
      origin := o, priv := priv, pass := 0, grants := [], pools := [], abort := [], missed := false, lastBusy := s.dtime.toNat
      stallReported := false, killed := false, pend := ⟨false, false, false⟩, passedBack := none }
  let s := s.modPart p fun r => { r with seq := (n + 1) % 2 ^ 32 }
  (n, { s with wk := { s.wk with slices := tput s.wk.slices ⟨p, n⟩ r } })

/-! ### Records and reservations (R38, R39) -/

def pushBottom (s : State) (c : CoreId) (rc : TaskRec) : State := s.modCore c fun r => { r with deque := rc :: r.deque }
def releaseEntry (s : State) (c : CoreId) : State := s.modCore c fun r => { r with reserved := r.reserved - 1 }

/-- What a slot's steal request carries reaches the deque of its core, or frees the entry reserved. -/
def landReply (s : State) (t : ThreadId) (r : SlotRec) : State :=
  match r.steal, r.carried with
  | .sent, some rc => pushBottom (releaseEntry s t.core) t.core rc
  | .sent, none => releaseEntry s t.core
  | .empty, _ => releaseEntry s t.core
  | _, _ => s

/-! ### What is out (R63 to R68) -/

/-- Whether the slots of a slice on a core run: bound, and every accumulator taken there saved and every one to be loaded loaded. -/
def coreReady (s : State) (c : CoreId) (i : SliceId) : Bool :=
  !(s.nt.saving.any fun o => decide (o.acc.core = c ∧ (o.taker = i ∨ o.acc.slice = i))) && !(s.nt.savedAccs.any fun e => decide (e.1.slice = i ∧ e.1.core = c))

/-- Takes a trap that abandons whatever the thread waits for (R9): its requests elsewhere are withdrawn. -/
def dueTrap (s : State) (t : ThreadId) (r : TrapRec) : State := takeTrap t r (withdraw s t)

/-- Whether what the thread waits for has been served and is on its way: its trap comes when it has arrived. -/
def served (s : State) (t : ThreadId) (th : Thread) : Bool := th.phase = .refetch || th.phase = .staging || (th.phase = .home && !withdrawable s t th)

/-- A revoked root leaves the thread's set before the handler runs (R198). -/
def dropRoot (s : State) (t : ThreadId) (n : Nat) : State :=
  match s.thread? t with
  | none => s
  | some th => putRoots s t th ((heldRoots s t th).filter (· ≠ n))

/-- Whether a thread stands between two instructions. -/
def Thread.atBoundary (th : Thread) : Bool := th.phase = .ready && !th.charged

/-- The first of the traps due to a thread, in the order of R265: a machine check, a revocation, a write-once violation. The violation waits
for the instruction under way (R177). -/
def dueNow (s : State) (t : ThreadId) (th : Thread) : Option State :=
  let d := th.due
  match d.machineCheck, d.revoked, d.violations with
  | some r, _, _ =>
    if served s t th then none
    else some (dueTrap (s.modThread t fun th => { th with due := { th.due with machineCheck := none } }) t r)
  | none, n :: rest, _ =>
    if served s t th then none
    else some (dueTrap (dropRoot (s.modThread t fun th => { th with due := { th.due with revoked := rest } }) t n) t (mkTrap 10 0 (1 + n * 256)))
  | none, [], v :: rest =>
    if th.atBoundary && !th.ctl.repBnd then
      some (takeTrap t ⟨8, true, v.ref, v.pc⟩ (s.modThread t fun th => { th with due := { th.due with violations := rest } }))
    else none
  | none, [], [] => none

/-- The traps due to a thread are taken before it leaves the rotation (R265). -/
def settleDue (t : ThreadId) : (fuel : Nat) → State → State
  | 0, s => s
  | n + 1, s =>
    match (s.thread? t).bind (fun th => if th.phase = .ending then none else dueNow s t th) with
    | some s' => settleDue t n s'
    | none => s

/-- A thread leaves the rotation at its instruction boundary: what is due to it is taken, its control state is saved, and an instruction
that has not completed is to begin again (R9, R64, R93, R265). What it has registered for stays. -/
def leaveRotation (t : ThreadId) (f : Thread → Thread) (s : State) : State :=
  let s := settleDue t 8 s
  saveControl (s.modThread t fun th =>
    f { th with sampled := false, shape := none
                charged := th.charged && th.phase ≠ .ready, again := th.again || th.phase = .ready }) t

/-- A thread comes back to the rotation: in a body its REP is fetched again (R223). -/
def rejoin (t : ThreadId) (f : Thread → Thread) (s : State) : State :=
  s.modThread t fun th =>
    f { th with ctl := { th.ctl with rep := th.ctl.rep.map fun r => (recoverRep s th.ctl.slice.part th.ctl.pc r.idx).getD r } }

/-- The flags of R64, R67 and R416 that a slot's thread has by the states of the slot's slice and of the slice whose work it is. -/
def outFlags (s : State) (t : ThreadId) (r : SlotRec) (th : Thread) : Bool × Bool :=
  match s.slice? th.ctl.slice with
  | none => (true, th.outBudget)
  | some w =>
    (r.phys.isNone || !coreReady s t.core t.slice || !(w.st = .running || w.st = .halted),
     w.st = .halted || (w.central = 0 && tget w.allot t.core 0 = 0))

/-- One thread's flags follow. -/
def syncThread (s : State) (t : ThreadId) : State :=
  match s.slot? t, s.thread? t with
  | some r, some th =>
    let (pre, bud) := outFlags s t r th
    let f := fun (th : Thread) => { th with outPre := pre, outBudget := bud }
    if pre = th.outPre ∧ bud = th.outBudget then s
    else if (pre || bud) && !th.isOut then (if mayLeave s t th then leaveRotation t f s else s)
    else if th.isOut && !(pre || bud || th.outDebug) then rejoin t f s
    else s.modThread t f
  | _, _ => s

/-- Every thread in a slot of a slice can leave the rotation where it stands: a pre-emption waits for those that cannot (R312, R357). -/
def slotsLeave (s : State) (i : SliceId) : Bool :=
  s.wk.slots.all fun (t, r) =>
    match r.thread with
    | some th => decide (t.slice ≠ i) || r.phys.isNone || th.isOut || mayLeave s t th
    | none => true

/-- Every thread's flags follow. One that cannot leave where it stands leaves at a later look. -/
def syncOut (s : State) : State := (s.wk.slots.map (·.1)).foldl syncThread s

/-! ### Completion and kill (R33, R60) -/

/-- An operation of the matrix engine names an accumulator of the slice. -/
def MatKind.names (p : AccId → Bool) : MatKind → Bool
  | .mma a .. => p a
  | .zero a _ => p a
  | .rowOut a .. => p a
  | .memOut a _ => p a
  | .load a _ _ => p a
  | .convert a .. => p a
  | .copy a b => p a || p b
  | _ => false

/-- Whether an engine operation of the slice is in flight. -/
def engineBusy (s : State) (i : SliceId) : Bool :=
  s.un.clusters.any (fun e => e.2.copies.any fun x => decide (x.fut.slice = i)) ||
  s.nt.contribs.any (fun x => decide (x.fut.slice = i)) || s.nt.plans.any (fun x => decide (x.fut.slice = i)) ||
  s.tl.subs.any (fun x => decide (x.fut.slice = i)) || s.nt.boarrs.any (fun x => decide (x.slice = i)) ||
  (s.tl.vnet ++ s.tl.retries).any (fun m => match m.kind with
    | .nred _ _ _ _ _ _ _ fut => decide (fut.slice = i)
    | _ => false) ||
  s.un.cores.any fun e => e.2.matOps.any fun o => decide (o.t.slice = i) || o.op.names fun a => decide (a.slice = i)

/-- Whether anything of a slice's work remains: a thread, a record in a deque or in transit, or a continuation. -/
def workLeft (s : State) (i : SliceId) : Bool :=
  s.wk.slots.any (fun (t, r) =>
    (match r.thread with
     | some th => decide (t.slice = i ∨ th.ctl.slice = i)
     | none => false) ||
    (match r.carried with
     | some rc => decide (rc.slice = i)
     | none => false)) ||
  s.un.cores.any fun e => e.2.deque.any (fun rc => decide (rc.slice = i)) || e.2.conts.any fun k => decide (k.task.slice = i)

/-- Whether a write of the slice's work is still on its way (R216, R37). -/
def writesLeft (s : State) (i : SliceId) : Bool :=
  s.un.cores.any (fun e => e.2.storeq.any fun x => decide (x.slice = i)) ||
  (s.tl.vnet ++ s.tl.retries ++ s.tl.refused).any fun m => decide (m.slice = i)

/-- R33, of a Running slice (R58). -/
def completes (s : State) (i : SliceId) (r : SliceRec) : Bool :=
  !r.killed && r.st = .running && !workLeft s i && !engineBusy s i && !writesLeft s i

/-- The slots of a slice return to their cores with their generations. -/
def freeSlots (s : State) (i : SliceId) : State :=
  let mine := s.wk.slots.filter fun e => decide (e.1.slice = i)
  let s := mine.foldl (fun s (t, r) =>
    let s := landReply s t r
    match r.phys with
    | some p => s.modCore t.core fun c => { c with slotGens := tput c.slotGens p r.gen }
    | none => s) s
  { s with wk := { s.wk with slots := s.wk.slots.filter fun e => decide (e.1.slice ≠ i) } }

/-- Handles and barrier registers of a slice end with it. -/
def freeHandles (s : State) (i : SliceId) : State :=
  { s with un := { s.un with cores := s.un.cores.map fun (c, r) =>
      (c, { r with cbs := r.cbs.filter fun e => decide (e.1.1 ≠ i), bars := r.bars.filter fun e => decide (e.1.1 ≠ i) }) } }

/-- Scratchpad and pool return to the dispatcher, and no slice is passed the deadline of this one. -/
def freeSpace (s : State) (i : SliceId) (st : SliceSt) : State :=
  let s := s.modSlice i fun r => { r with st := st, allot := [], central := r.left, grants := [], pools := [], abort := [] }
  { s with wk := { s.wk with slices := s.wk.slices.map fun (j, r) =>
      (j, if r.passedBack = some i then { r with passedBack := none } else r) } }

/-- Completion. -/
def complete (s : State) (i : SliceId) (r : SliceRec) : State :=
  freeSpace (freeHandles (freeSlots (postSlice s i r 1) i) i) i .completed

/-- A killed slice ends when no engine operation of it remains; its event may stay pending (R296). -/
def endKill (s : State) (i : SliceId) (r : SliceRec) : State :=
  if !r.killed || engineBusy s i then s
  else if r.pend.killed ∨ r.st = .completed then s
  else if eventRoom s i.part then freeSpace (postSlice s i r 6) i .completed
  else (freeSpace s i .suspended).modSlice i fun r => { r with pend := { r.pend with killed := true } }

/-- SLICE_COMPLETION: a slice that meets R33 completes once its event can be recorded. -/
def execSliceCompletion (i : SliceId) (s : State) : Host.Outcome State Fault Refusal :=
  match s.slice? i with
  | none => .next s
  | some r =>
    if completes s i r && eventRoom s i.part then .next (complete s i r)
    else .next (endKill s i r)

/-- A thread ends by kill, and with it the task it runs and those that wait in JOIN below it (R36, R267). -/
def killThread (quiet : Bool) (s : State) (t : ThreadId) : State :=
  match s.thread? t with
  | none => s
  | some th =>
    let s := withdraw s t
    let ended := fun s => (th.ctl.inl.map (·.joinRec)).foldl (countFailure t th.ctl.slice)
      (failTask s t th.ctl.slice th.ctl.joinRec ⟨th.ctl.pc, 0, 0, 0⟩)
    leaveSlot (if quiet then s else ended s) t

/-- A kill runs at once: threads, records, continuations, slots and accumulators go. -/
def killSlice (s : State) (i : SliceId) (quiet : Bool) : State :=
  let gone := s.wk.slots.filterMap fun (t, r) =>
    match r.thread with
    | some th => if t.slice = i ∨ th.ctl.slice = i then some t else none
    | none => none
  let s := gone.foldl (killThread quiet) s
  let s := { s with
    wk := { s.wk with slots := s.wk.slots.map fun (t, r) =>
      (t, match r.carried with
        | some rc => if rc.slice = i then { r with carried := none, steal := .empty } else r
        | none => r) }
    un := { s.un with cores := s.un.cores.map fun (c, r) =>
      (c, { r with deque := r.deque.filter fun rc => decide (rc.slice ≠ i), conts := r.conts.filter fun k => decide (k.task.slice ≠ i) }) }
    nt := { s.nt with yields := s.nt.yields.filter (fun y => decide (y.slice ≠ i))
                      saving := s.nt.saving.filter (fun o => decide (o.acc.slice ≠ i))
                      savedAccs := s.nt.savedAccs.filter fun e => decide (e.1.slice ≠ i) } }
  let s := freeHandles (freeSlots s i) i
  let s := s.modSlice i fun r =>
    { r with killed := true, st := .suspended, grants := r.grants.map fun g => { g with accs := [] } }
  syncOut s

/-- KILL: a command processor kills a slice. -/
def execKill (i : SliceId) (s : State) : Host.Outcome State Fault Refusal :=
  match s.slice? i with
  | none => .next s
  | some r =>
    if r.st = .completed then .next s
    else
      let s := if r.killed then s else killSlice s i false
      match s.slice? i with
      | none => .next s
      | some r => .next (endKill s i r)

/-! ### Fit (R59, R65) -/

def usedSlots (s : State) (c : CoreId) (ex : List SliceId) : List Nat :=
  s.wk.slots.filterMap fun (t, r) => if t.core = c ∧ !ex.contains t.slice then r.phys else none

def usedAccs (s : State) (c : CoreId) (ex : List SliceId) : List Nat :=
  s.wk.slices.flatMap fun (i, r) =>
    if ex.contains i then []
    else match r.grant? c with
    | some g => g.accs.filterMap id
    | none => []

/-- Ranges of a core's scratchpad in use, in 1 KiB units. -/
def usedSpad (s : State) (c : CoreId) (ex : List SliceId) : List (Nat × Nat) :=
  s.wk.slices.flatMap fun (i, r) =>
    if ex.contains i then []
    else match r.grant? c with
    | some g => [(g.data / 1024, r.spad * 4), (g.work / 1024, r.nslots * 9)]
    | none => []

/-- The 64 KiB blocks of a cluster's pool in use. -/
def usedPool (s : State) (c : ClusterId) (ex : List SliceId) : List Nat :=
  s.wk.slices.flatMap fun (i, r) => if ex.contains i then [] else tget r.pools c []

/-- n free blocks of a cluster's pool, the lowest first, where there are so many: their offsets. -/
def fitPool (s : State) (c : ClusterId) (ex : List SliceId) (n : Nat) : Option (List Nat) :=
  let used := usedPool s c ex
  let free := ((List.range 128).map (· * 65536)).filter fun b => !used.contains b
  if free.length < n then none else some (free.take n)

def rangeFree (used : List (Nat × Nat)) (b n : Nat) : Bool := used.all fun (x, m) => decide (b + n ≤ x ∨ x + m ≤ b ∨ n = 0 ∨ m = 0)

/-- First fit from the low or the high end of `top` units. -/
def fitLow (used : List (Nat × Nat)) (top n : Nat) : Option Nat := (List.range (top + 1 - n)).find? fun b => rangeFree used b n
def fitHigh (used : List (Nat × Nat)) (top n : Nat) : Option Nat := (List.range (top + 1 - n)).reverse.find? fun b => rangeFree used b n

/-- Applies f to every element, when each has an answer. -/
def allSome {α β : Type} (f : α → Option β) : List α → Option (List β)
  | [] => some []
  | a :: l =>
    match f a, allSome f l with
    | some b, some r => some (b :: r)
    | _, _ => none

/-- The slots and accumulators that a slice takes on each core, with the resources of some slices counted as free. -/
structure UnitPlan where
  core : CoreId
  slots : List Nat
  accs : List Nat
deriving DecidableEq, Repr

/-- How many accumulators the slice needs on a core: all of them, or those that have been taken. -/
def accNeed (r : SliceRec) (c : CoreId) : Nat :=
  match r.grant? c with
  | some g => (g.accs.filter (·.isNone)).length
  | none => r.accNum

def fitUnits (s : State) (i : SliceId) (r : SliceRec) (ex : List SliceId) : Option (List UnitPlan) :=
  allSome (fun c =>
    let us := usedSlots s c ex; let ua := usedAccs s c ex
    let fs := (List.range 16).filter fun n => !us.contains n
    let fa := (List.range 4).filter fun n => !ua.contains n
    if fs.length < r.nslots ∨ fa.length < accNeed r c then none
    else some ⟨c, fs.take r.nslots, fa.take (accNeed r c)⟩) (r.cores s i)

/-- What a Ready slice takes: data and workspace range of each core, and the pool blocks of each cluster. -/
structure SpacePlan where
  cores : List (CoreId × Nat × Nat)
  pools : List (ClusterId × List Nat)
deriving DecidableEq, Repr

def fitSpace (s : State) (i : SliceId) (r : SliceRec) (ex : List SliceId) : Option SpacePlan :=
  match allSome (fun c =>
      let used := usedSpad s c ex
      match fitLow used 512 (r.spad * 4) with
      | none => none
      | some d => (fitHigh ((d, r.spad * 4) :: used) 512 (r.nslots * 9)).map fun w => (c, d * 1024, w * 1024)) (r.cores s i),
    allSome (fun c => (fitPool s c ex r.cpool).map fun b => (c, b)) (r.clusters s i) with
  | some a, some b => some ⟨a, b⟩
  | _, _ => none

/-- Whether the space of a slice fits as it stands: a Suspended slice holds its own. -/
def spaceFits (s : State) (i : SliceId) (r : SliceRec) (ex : List SliceId) : Bool := r.st = .suspended || (fitSpace s i r ex).isSome

/-! ### Admission and resumption (R32, R59, R65, R147) -/

def SlotRec.empty : SlotRec :=
  { gen := 0, phys := none, thread := none, steal := .none, carried := none, north := [], east := [], south := [], west := []
    far := [], replies := [] }

/-- Binds the slots of a slice on one core. -/
def bindSlots (s : State) (i : SliceId) (u : UnitPlan) : State :=
  (u.slots.zipIdx).foldl (fun s (p, k) =>
    let t : ThreadId := ⟨u.core, i, k⟩
    match s.slot? t with
    | some _ => s.modSlot t fun r => { r with phys := some p }
    | none =>
      let g := tget (s.core u.core).slotGens p 0
      { s with wk := { s.wk with slots := s.wk.slots ++ [(t, { SlotRec.empty with gen := g, phys := some p })] } }) s

/-- Gives the physical accumulators to the logical ones that have none, in order. -/
def bindAccs : List (Option Nat) → List Nat → List (Option Nat)
  | none :: l, p :: ps => some p :: bindAccs l ps
  | some x :: l, ps => some x :: bindAccs l ps
  | l, [] => l
  | [], _ => []

/-- An admitted accumulator is RAW (R32). One that is still to be saved becomes RAW at its save (R64). -/
def rawAccs (s : State) (u : UnitPlan) : State :=
  let ps := u.accs.filter fun p => !s.nt.saving.any fun o => decide (o.acc.core = u.core ∧ o.phys = p)
  s.modCore u.core fun r => { r with accs := ps.foldl (fun l p => tupd l p ⟨0, 0⟩ fun a => { a with tag := 0 }) r.accs }

/-- Threads that start on a core at admission. They start with acquire effects: nothing stale is left in the core (R215, R216). -/
def startCore (s : State) (i : SliceId) (r : SliceRec) (c : CoreId) : State :=
  let s := s.modCore c fun r => { r with l1 := [], operandBuf := [], ext := [] }
  (List.range (if r.startAll then r.nslots else 1)).foldl (fun s k =>
    startThread s ⟨c, i, k⟩ i (BitVec.ofNat 64 r.entry) [r.argPtr, r.width * r.height] 0 0 0) s

/-- Nobody takes the deadline of an admitted or resumed slice any more (R62). -/
def settlePassed (s : State) (i : SliceId) : State :=
  { s with wk := { s.wk with slices := s.wk.slices.map fun (j, r) => (j, if r.passedBack = some i then { r with passedBack := none } else r) } }

/-- The head slice, admitted or resumed: its pass count is 0 (R60). -/
def settleHead (s : State) (i : SliceId) : State := (settlePassed s i).modSlice i fun r => { r with pass := 0 }

def admitSlice (s : State) (i : SliceId) (r : SliceRec) (us : List UnitPlan) (sp : SpacePlan) : State :=
  let zero := fun (s : State) (a n : Nat) => clearTags a n (s.clear a n)
  let s := sp.cores.foldl (fun s (c, d, _) => zero s (addrSpad c d) (r.spad * 4096)) s
  let s := sp.pools.foldl (fun s (c, bs) => bs.foldl (fun s b => zero s (addrPool c b) 65536) s) s
  let accs := fun c => match us.find? fun u => decide (u.core = c) with
    | some u => u.accs.map some
    | none => []
  let s := s.modSlice i fun r =>
    { r with st := .running, lastBusy := s.dtime.toNat, grants := sp.cores.map fun (c, d, w) => ⟨c, d, w, accs c⟩, pools := sp.pools }
  let s := us.foldl (fun s u => rawAccs (bindSlots s i u) u) s
  syncOut ((us.map (·.core)).foldl (fun s c => startCore s i r c) s)

def resume (s : State) (i : SliceId) (us : List UnitPlan) : State :=
  let s := s.modSlice i fun r =>
    { r with st := .running, lastBusy := s.dtime.toNat, grants := r.grants.map fun g =>
        match us.find? fun u => decide (u.core = g.core) with
        | some u => { g with accs := bindAccs g.accs u.accs }
        | none => g }
  syncOut (us.foldl (fun s u => bindSlots s i u) s)

/-- Admits or resumes a slice that fits. -/
def admitOrResume (s : State) (i : SliceId) (r : SliceRec) : Option State :=
  match fitUnits s i r [] with
  | none => none
  | some us =>
    if r.st = .suspended then some (resume s i us)
    else match fitSpace s i r [] with
    | some sp => some (admitSlice s i r us sp)
    | none => none

/-! ### Deadline order (R60, R62) -/

def ownDeadline (r : SliceRec) : Nat := r.deadline.toNat

/-- The deadline that orders a slice. -/
def orderDeadline (s : State) (r : SliceRec) : Nat :=
  match r.passedBack.bind s.slice? with
  | some h => min (ownDeadline r) (ownDeadline h)
  | none => ownDeadline r

/-- Earlier in deadline order: by deadline, then those that were passed a deadline, then by sequence number. -/
def earlier (s : State) (a b : SliceId × SliceRec) : Bool :=
  let da := orderDeadline s a.2; let db := orderDeadline s b.2
  let pa := bit a.2.passedBack.isNone; let pb := bit b.2.passedBack.isNone
  decide (da < db) || (da = db && (decide (pa < pb) || (pa = pb && decide (a.1.seq < b.1.seq))))

def insertBy {α : Type} (lt : α → α → Bool) (x : α) : List α → List α
  | [] => [x]
  | y :: l => if lt x y then x :: y :: l else y :: insertBy lt x l

def sortBy {α : Type} (lt : α → α → Bool) (l : List α) : List α := l.foldr (insertBy lt) []

/-- The slices in deadline order that an evaluation looks at. -/
def candidates (s : State) (p : PartId) : List (SliceId × SliceRec) :=
  sortBy (earlier s) (s.wk.slices.filter fun (i, r) =>
    decide (i.part = p) && !r.killed && eventRoom s i.part && (r.st = .ready || (r.st = .suspended && r.left ≠ 0)))

/-! ### Pre-emption (R63, R64, R66) -/

/-- Slices that may give way to h, the latest deadline first. -/
def victims (s : State) (h : SliceId) (hr : SliceRec) : List (SliceId × SliceRec) :=
  sortBy (fun a b => earlier s b a) (s.wk.slices.filter fun (i, r) =>
    decide (i.part = h.part ∧ i ≠ h) && !r.killed && eventRoom s i.part &&
      (r.st = .running || r.st = .halted || r.st = .suspended) && decide (orderDeadline s r > orderDeadline s hr))

/-- Takes victims in order until the slice fits. -/
def takeVictims (s : State) (h : SliceId) (hr : SliceRec) : List SliceId → List (SliceId × SliceRec) → Option (List SliceId)
  | ex, [] => if (fitUnits s h hr ex).isSome then some ex else none
  | ex, (i, _) :: l => if (fitUnits s h hr ex).isSome then some ex else takeVictims s h hr (ex ++ [i]) l

/-- Drops victims that the fit does not need, the one taken last first. -/
def pruneVictims (s : State) (h : SliceId) (hr : SliceRec) (ex : List SliceId) : List SliceId :=
  ex.foldr (fun i l => if (fitUnits s h hr (l.filter (· ≠ i))).isSome then l.filter (· ≠ i) else l) ex

/-- A slice leaves its slots: by pre-emption, by YIELD with the slice flag, or re-queued. -/
def dropSlots (s : State) (i : SliceId) : State :=
  { s with wk := { s.wk with slots := s.wk.slots.map fun (t, r) =>
      (t, if t.slice = i then (match r.phys with
        | some _ => { r with phys := none }
        | none => r) else r) } }

/-- The accumulators of victims that are taken on a core, from the highest physical index of each victim down. One that its slice has yet
to load stands in the save area as it is; one that an earlier owner has yet to save is now saved for the new taker. -/
def takeAccs (s : State) (c : CoreId) (taker : SliceId) : Nat → List SliceId → State
  | _, [] => s
  | n, v :: vs =>
    let held := match (s.slice? v).bind (·.grant? c) with
      | some g => g.accs.zipIdx.filterMap fun (p, a) => p.map fun p => (p, a)
      | none => []
    let taken := (sortBy (fun x y => decide (x.1 > y.1)) held).take n
    let s := taken.foldl (fun s (p, a) =>
      let s := s.modSlice v fun r => { r with grants := r.grants.map fun g =>
        if g.core = c then { g with accs := setAt g.accs a none } else g }
      let before := s.nt.saving.map fun o => if o.acc.core = c ∧ o.phys = p then { o with taker := taker } else o
      let saved := (tfind s.nt.savedAccs ⟨c, v, a⟩).isSome
      { s with nt := { s.nt with saving := if saved then before else before ++ [⟨⟨c, v, a⟩, p, taker⟩] } }) s
    takeAccs s c taker (n - taken.length) vs

/-- The budget of a Running slice is exhausted: it becomes Halted, with event 3 (R68). -/
def haltSlice (s : State) (i : SliceId) (r : SliceRec) : State :=
  let s := s.modSlice i fun r => { r with st := .halted, central := 0, allot := [] }
  budgetEvent (postSlice s i r 3) i r 0xFF 2 0

/-- A victim is taken out as a whole slice. Its unspent allotments return to the central count; one with nothing left becomes Halted
(R66). -/
def preemptSlice (s : State) (i : SliceId) : State :=
  match s.slice? i with
  | none => s
  | some r =>
    if r.st ≠ .running ∧ r.st ≠ .halted then s
    else
      let s := dropSlots s i
      if r.st = .halted then s
      else if r.left = 0 then haltSlice s i r
      else
        let s := s.modSlice i fun r => { r with st := .suspended, central := r.left, allot := [] }
        budgetEvent (postSlice s i r 5) i r 0xFF 4 r.left

/-- Pre-empts for the head slice, or completes a victim that meets R33; none when pre-emption is not possible. It waits for a thread whose
access is under way. -/
def preemptFor (s : State) (h : SliceId) (hr : SliceRec) : Option State :=
  if !spaceFits s h hr [] then none
  else match takeVictims s h hr [] (victims s h hr) with
  | none => none
  | some ex =>
    let ex := pruneVictims s h hr ex
    match ex.filterMap fun i => (s.slice? i).bind fun r => if completes s i r then some (i, r) else none with
    | (i, r) :: _ => some (complete s i r)
    | [] =>
      if !ex.all (slotsLeave s) then some s else
      let short := fun c => accNeed hr c - (4 - (usedAccs s c []).eraseDups.length)
      let cs := hr.cores s h
      let needs := cs.map fun c => (c, short c)
      let s := ex.foldl preemptSlice s
      some (syncOut (needs.foldl (fun s (c, n) => takeAccs s c h n ex) s))

/-! ### Evaluation (R60, R62) -/

/-- Whether a slice holds space where h needs it. -/
def holdsSpaceOf (s : State) (h : SliceId) (hr r : SliceRec) : Bool :=
  (hr.cores s h).any (fun c => (r.grant? c).isSome) || (hr.clusters s h).any fun c => (tfind r.pools c).isSome

/-- The slices that take the head's deadline: those Suspended or Halted whose space alone keeps it from fitting. One that has taken another
head's deadline takes this one's in its place. -/
def passBack (s : State) (h : SliceId) (hr : SliceRec) : Option State :=
  let who := (s.wk.slices.filter fun (i, r) =>
    decide (i.part = h.part ∧ i ≠ h) && !r.killed && (r.st = .suspended || r.st = .halted) && holdsSpaceOf s h hr r).map (·.1)
  let fresh := who.filter fun i => match s.slice? i with
    | some r => decide (orderDeadline s r ≥ orderDeadline s hr ∧ r.passedBack ≠ some h)
    | none => false
  if hr.st ≠ .ready || fresh.isEmpty || (fitUnits s h hr []).isNone || (fitSpace s h hr who).isNone then none
  else some (fresh.foldl (fun s i => s.modSlice i fun r => { r with passedBack := some h }) s)

/-- The first later slice that fits. -/
def admitLater (s : State) : List (SliceId × SliceRec) → Option (SliceId × State)
  | [] => none
  | (i, r) :: l =>
    match admitOrResume s i r with
    | some s' => some (i, s')
    | none => admitLater s l

/-- One evaluation; none when it admits and takes nothing. -/
def evaluateOnce (s : State) (p : PartId) : Option State :=
  match candidates s p with
  | [] => none
  | (h, hr) :: later =>
    match admitOrResume s h hr with
    | some s => some (settleHead s h)
    | none =>
      match preemptFor s h hr with
      | some s => some s
      | none =>
        match passBack s h hr with
        | some s => some s
        | none =>
          if hr.pass < (s.part p).ageLimit then
            match admitLater s later with
            | some (i, s) => some ((settlePassed s i).modSlice h fun r => { r with pass := r.pass + 1 })
            | none => none
          else none

/-- Evaluations repeated until one admits nothing. -/
def evaluate (p : PartId) : Nat → State → State
  | 0, s => s
  | n + 1, s =>
    match evaluateOnce s p with
    | some s' => evaluate p n s'
    | none => s

/-- ADMISSION_EVALUATION. A partition in reset admits nothing (R270). -/
def execAdmissionEvaluation (p : PartId) (s : State) : Host.Outcome State Fault Refusal :=
  if (s.part p).resetBusy then .next s else .next (evaluate p (4 * s.wk.slices.length) s)

/-! ### Accumulators in their save area (R64, R65) -/

/-- The four 4 KiB pieces of an accumulator's place in the save area. -/
def savePlaces (s : State) (i : SliceId) (r : SliceRec) (c : CoreId) (a : Nat) (n : Need) : Except TrapRec (List Addr) :=
  let va := r.saveBase + (r.groupIndex c.core * r.accNum + a) * 16384
  (List.range 4).mapM fun k => (walkTo s i.part (va + 4096 * k) n).map (addrHbm i.part.pkg)

/-- The lowest reserved slot with a thread of a slice on a core is owed the trap of a fault in the save area. -/
def saveFault (s : State) (i : SliceId) (c : CoreId) (x : TrapRec) : State :=
  match (List.range 16).find? fun k => (s.thread? ⟨c, i, k⟩).isSome with
  | some k => s.modThread ⟨c, i, k⟩ fun th => { th with due := { th.due with fault := some x } }
  | none => s

/-- ACCUMULATOR_SAVE: a taken accumulator is written to its save area once no operation of the core's queue names it. -/
def execAccumulatorSave (i : SliceId) (c : CoreId) (a : Nat) (s : State) : Host.Outcome State Fault Refusal :=
  match s.nt.saving.find? fun o => decide (o.acc = ⟨c, i, a⟩), s.slice? i with
  | some o, some r =>
    let first := (s.nt.saving.find? fun x => decide (x.acc.core = c ∧ x.phys = o.phys)) = some o
    if !first || (s.core c).mqueue.any fun m => m.op.names fun x => decide (x = o.acc) then .next s
    else match savePlaces s i r c a .wr with
    | .error x => .next (saveFault s i c x)
    | .ok places =>
      let v := tget (s.core c).accs o.phys ⟨0, 0⟩
      let s := places.zipIdx.foldl (fun s (pa, k) => s.wr pa 4096 (field v.bits.toNat (32768 * k) 32768)) s
      let s := s.modCore c fun r => { r with accs := tput r.accs o.phys { v with tag := 0 } }
      .next (syncOut { s with nt := { s.nt with saving := s.nt.saving.filter (· ≠ o), savedAccs := tput s.nt.savedAccs o.acc v.tag } })
  | _, _ => .next s

/-- ACCUMULATOR_LOAD: a resumed slice's accumulator is loaded from its save area. -/
def execAccumulatorLoad (i : SliceId) (c : CoreId) (a : Nat) (s : State) : Host.Outcome State Fault Refusal :=
  match s.slice? i, tfind s.nt.savedAccs ⟨c, i, a⟩ with
  | some r, some tag =>
    match ((r.grant? c).bind (·.accs[a]?)).join with
    | none => .next s
    | some p =>
      if s.nt.saving.any fun x => decide (x.acc.core = c ∧ x.phys = p) then .next s
      else match savePlaces s i r c a .rd with
      | .error x => .next (saveFault s i c x)
      | .ok places =>
        let v := pack (places.map fun pa => (32768, s.rd pa 4096))
        let s := match places.zipIdx.find? fun e => s.poisoned e.1 4096 with
          | some (_, k) => saveFault s i c (mkTrap 11 (r.saveBase + (r.groupIndex c.core * r.accNum + a) * 16384 + 4096 * k) 0)
          | none => s
        let s := s.modCore c fun r => { r with accs := tput r.accs p ⟨BitVec.ofNat _ v, tag⟩ }
        .next (syncOut { s with nt := { s.nt with savedAccs := tdel s.nt.savedAccs ⟨c, i, a⟩ } })
  | _, _ => .next s

/-! ### Budgets (R67, R68) -/

/-- ALLOTMENT_DRAW: a core whose allotment is spent draws up to 4,096 cycles. -/
def execAllotmentDraw (i : SliceId) (c : CoreId) (s : State) : Host.Outcome State Fault Refusal :=
  match s.slice? i with
  | none => .next s
  | some r =>
    if r.st ≠ .running ∨ r.central = 0 ∨ tget r.allot c 0 ≠ 0 then .next s
    else
      let n := min 4096 r.central
      let r' := { r with central := r.central - n, allot := tput r.allot c n }
      .next (syncOut (budgetEvent (s.modSlice i fun _ => r') i r' c.core 1 (r'.central + n)))

/-- ALLOTMENT_RECALL: with the central count at zero, unspent allotments return to it. -/
def execAllotmentRecall (i : SliceId) (s : State) : Host.Outcome State Fault Refusal :=
  match s.slice? i with
  | none => .next s
  | some r =>
    if r.st = .running ∧ r.central = 0 then .next (syncOut (s.modSlice i fun r => { r with central := r.left, allot := [] })) else .next s

/-- BUDGET_EXHAUSTED: a slice with nothing left becomes Halted when its event can be recorded, unless it meets R33. -/
def execBudgetExhausted (i : SliceId) (s : State) : Host.Outcome State Fault Refusal :=
  match s.slice? i with
  | none => .next s
  | some r =>
    if r.st ≠ .running ∨ r.left ≠ 0 ∨ completes s i r ∨ !eventRoom s i.part then .next (syncOut s)
    else .next (syncOut (haltSlice s i r))

/-- Whether a Halted slice still holds all it held: its slots and its accumulators. -/
def holdsAll (s : State) (i : SliceId) (r : SliceRec) : Bool :=
  (s.wk.slots.all fun (t, x) => decide (t.slice ≠ i) || x.phys.isSome) && r.grants.all fun g => g.accs.all (·.isSome)

/-- BUDGET_EXTENSION: cycles are added; a Halted slice goes on in place, or waits as Suspended for what was taken from it. -/
def execBudgetExtension (i : SliceId) (n : Word) (s : State) : Host.Outcome State Fault Refusal :=
  match s.slice? i with
  | none => .next s
  | some r =>
    if r.st = .completed ∨ r.killed ∨ n = 0 ∨ (r.st = .halted ∧ !slotsLeave s i) then .next s
    else
      let st := if r.st ≠ .halted then r.st else if holdsAll s i r then .running else .suspended
      let s := if r.st = .halted ∧ st = .suspended then dropSlots s i else s
      .next (syncOut (s.modSlice i fun r => { r with st := st, central := r.central + n.toNat }))

/-- REQUEUE: a Halted slice becomes Suspended with a new deadline, and cycles may be added. -/
def execRequeue (i : SliceId) (deadline n : Word) (s : State) : Host.Outcome State Fault Refusal :=
  match s.slice? i with
  | none => .next s
  | some r =>
    if r.st ≠ .halted ∨ !slotsLeave s i then .next s
    else .next (syncOut ((dropSlots s i).modSlice i fun r =>
      { r with st := .suspended, deadline := deadline, central := r.central + n.toNat }))

/-- SLICE_YIELD_MESSAGE: the k-th slice yield reaches its dispatcher (R416). A slice with no budget left becomes Halted (R68). -/
def execSliceYieldMessage (k : Nat) (s : State) : Host.Outcome State Fault Refusal :=
  match s.nt.yields[k]? with
  | none => .next s
  | some y =>
    let s0 := s
    let s := { s with nt := { s.nt with yields := dropAt s.nt.yields k } }
    match s.slice? y.slice with
    | none => .next s
    | some r =>
      if r.st = .running ∧ (!slotsLeave s y.slice ∨ (r.left = 0 ∧ !eventRoom s y.slice.part)) then .next s0 else
      let s := match y.deadline with
        | some d => if r.st = .completed then s else s.modSlice y.slice fun r => { r with deadline := d }
        | none => s
      if r.st = .running ∧ r.left = 0 then .next (syncOut (haltSlice s y.slice r))
      else if r.st = .running then
        .next (syncOut ((dropSlots s y.slice).modSlice y.slice fun r => { r with st := .suspended, central := r.left, allot := [] }))
      else .next s

/-! ### Reports (R57, R296, R303) -/

/-- DEADLINE_MISSED: event 4, once. -/
def execDeadlineMissed (i : SliceId) (s : State) : Host.Outcome State Fault Refusal :=
  match s.slice? i with
  | none => .next s
  | some r =>
    if r.st = .completed ∨ r.missed ∨ s.dtime.toNat ≤ ownDeadline r then .next s
    else
      let s := if eventRoom s i.part then postSlice s i r 4
        else s.modSlice i fun r => { r with pend := { r.pend with missed := true } }
      .next (budgetEvent (s.modSlice i fun r => { r with missed := true }) i r 0xFF 3 r.left)

/-- A slot that is idle, or whose thread is parked. -/
def slotQuiet (r : SlotRec) : Bool :=
  match r.thread with
  | none => true
  | some th => th.phase ≠ .ready && th.phase ≠ .staging && !th.isOut

/-- STALLED: event 7 for a slice whose slots have been parked or idle for 100 ms past its deadline (R303). -/
def execStalled (i : SliceId) (s : State) : Host.Outcome State Fault Refusal :=
  match s.slice? i with
  | none => .next s
  | some r =>
    let quiet := s.wk.slots.all fun (t, x) => decide (t.slice ≠ i) || slotQuiet x
    if r.st ≠ .running ∨ r.stallReported ∨ !quiet ∨ engineBusy s i ∨ s.dtime.toNat < max (ownDeadline r) r.lastBusy + 100000000 then .next s
    else
      let s := if eventRoom s i.part then postSlice s i r 7
        else s.modSlice i fun r => { r with pend := { r.pend with stalled := true } }
      .next (s.modSlice i fun r => { r with stallReported := true })

/-- Appends the pending flags of one slice, as far as there is room. -/
def flushFlags (s : State) (i : SliceId) : State :=
  let go := fun (s : State) (get : PendFlags → Bool) (clr : PendFlags → PendFlags) (code : Nat) =>
    match s.slice? i with
    | some r =>
      if get r.pend && eventRoom s i.part then (postSlice s i r code).modSlice i fun r => { r with pend := clr r.pend } else s
    | none => s
  let s := go s (·.missed) (fun f => { f with missed := false }) 4
  let had := ((s.slice? i).map (·.pend.killed)).getD false
  let s := go s (·.killed) (fun f => { f with killed := false }) 6
  let s := match s.slice? i with
    | some r => if had && !r.pend.killed then s.modSlice i fun r => { r with st := .completed } else s
    | none => s
  go s (·.stalled) (fun f => { f with stalled := false }) 7

/-- HELD_EVENT_APPEND: the oldest held event enters the ring, and pending flags of its dispatcher take the room, in order of sequence
numbers. -/
def execHeldEventAppend (q : QuadId) (s : State) : Host.Outcome State Fault Refusal :=
  let r := s.quad q
  match r.held with
  | (p, e) :: rest =>
    if r.ring.length < 1024 then
      let s := s.modQuad q fun r => { r with ring := r.ring ++ [e], held := rest }
      let mine := sortBy (fun a b => decide (a.seq < b.seq)) ((s.wk.slices.filter fun (i, _) => decide (i.part = p)).map (·.1))
      .next (mine.foldl flushFlags s)
    else .next s
  | [] => .next s

/-! ### Host queues (R55, R294) -/

def QueueRec.log2n (r : QueueRec) : Nat := wfield r.ctl 12 4
def QueueRec.live (r : QueueRec) : Bool := bitAt r.ctl 0 && decide (4 ≤ r.log2n)

def hostQueue (s : State) (pkg vf n : Nat) : QueueRec := tget (s.pkg pkg).queues (vf, n) .reset
def modQueue (s : State) (pkg vf n : Nat) (f : QueueRec → QueueRec) : State :=
  s.modPkg pkg fun r => { r with queues := tupd r.queues (vf, n) .reset f }

/-- DOORBELL: the host writes a tail index; one beyond the ring's room is ignored and counted. -/
def execDoorbell (pkg vf n : Nat) (tail : BitVec 32) (s : State) : Host.Outcome State Fault Refusal :=
  if 512 ≤ vf ∨ 8 ≤ n then .next s
  else
    let r := hostQueue s pkg vf n
    if (tail.toNat + 2 ^ 32 - r.head) % 2 ^ 32 > 2 ^ r.log2n then .next (modQueue s pkg vf n fun r => { r with ignored := r.ignored + 1 })
    else .next (modQueue s pkg vf n fun r => { r with tail := tail.toNat })

/-- Whether a quadrant holds a unit of a partition. -/
def servesPart (s : State) (q : QuadId) (p : PartId) : Bool :=
  decide (p.pkg = q.pkg) && (s.part p).units.any fun u => decide (unitQuad q.pkg u = q)

/-- The partition that a virtual function is bound to. -/
def vfPart (s : State) (pkg vf : Nat) : PartId := ⟨pkg, wfield (tget (s.pkg pkg).vfbind vf 0) 0 6⟩

/-- Whether a command processor can take a record of a queue: the queue is doorbelled and its own, and the dispatcher has an entry free. -/
def recordReady (s : State) (q : QuadId) (vf n : Nat) : Bool :=
  let r := hostQueue s q.pkg vf n
  let p := vfPart s q.pkg vf
  r.live && decide (r.head ≠ r.tail) && bitAt (tget (s.pkg q.pkg).vfbind vf 0) 63 && decide (wfield r.ctl 6 2 = q.die ∧ wfield r.ctl 4 2 = q.quad) &&
    servesPart s q p && decide (heldSlices s p < 1024) && !(s.part p).resetBusy

/-- The queue whose record a command processor takes next: the one it serves, for up to 8 records, and then the next in turn (R55). -/
def nextQueue (s : State) (q : QuadId) : Option (Nat × Nat) :=
  let num := fun (e : Nat × Nat) => 8 * e.1 + e.2
  let l := sortBy (fun a b => decide (num a < num b)) (((s.pkg q.pkg).queues.map (·.1)).filter fun e => recordReady s q e.1 e.2)
  match (s.quad q).serving with
  | none => l.head?
  | some (vf, n, k) =>
    if k < 8 ∧ l.contains (vf, n) then some (vf, n)
    else (l.find? fun e => decide (num (vf, n) < num e)).orElse fun _ => l.head?

/-- One more record of a queue in its turn. -/
def QuadRec.serve (r : QuadRec) (vf n : Nat) : QuadRec :=
  { r with serving := some (vf, n, match r.serving with
    | some (v, m, k) => if v = vf ∧ m = n ∧ k < 8 then k + 1 else 1
    | none => 1) }

/-- LAUNCH_RECORD: a command processor takes the next record of the queue whose turn it is. -/
def execLaunchRecord (q : QuadId) (vf n : Nat) (s : State) : Host.Outcome State Fault Refusal :=
  let r := hostQueue s q.pkg vf n
  let p := vfPart s q.pkg vf
  let c := s.quad q
  if nextQueue s q ≠ some (vf, n) ∨ 1024 ≤ c.ring.length ∨ c.swapSt = 1 then .next s
  else
    let d := BitVec.ofNat 512 (s.rd (addrHbm q.pkg (wfield r.ctl 16 48 * 2 ^ 16 + 64 * (r.head % 2 ^ r.log2n))) 64)
    let s := (modQueue s q.pkg vf n fun r => { r with head := (r.head + 1) % 2 ^ 32 }).modQuad q fun c => c.serve vf n
    let o : Origin := ⟨q, false, vf, n⟩
    match descCode s p d with
    | 0 => .next (submit s p d o false).2
    | code => .next (postEvent s q p (eventRecord s.dtime.toNat 0 0 code o p.num 2))

end Sys2Proof.Machine
end

