-- ==== Sys2Proof/Machine/Tasks.lean ====
section
/-!
DEFINITION. Sys2Proof/Machine/Tasks.lean: class 8 (R342 to R351, R355): FORK, JOIN, LAUNCH and the instructions over futures; and the steps
that move task records (R35 to R39) and wakes (R45, R46).
-/
namespace Sys2Proof.Machine

/-! ### Eligible records (R35, R37) -/

/-- Whether a slice's slots may take records of another: the same slice, or one joined to it by die-domain stealing. -/
def joined (s : State) (a b : SliceId) : Bool :=
  if a = b then true
  else match s.slice? a, s.slice? b with
  | some x, some y =>
    decide (a.part = b.part ∧ x.ldie = y.ldie ∧ x.domain = 3 ∧ y.domain = 3 ∧ x.stealKey = y.stealKey) &&
    y.st != .ready && y.st != .completed
  | _, _ => false

/-- The index of the eligible record nearest the bottom of a slot's core's deque. -/
def eligibleAt (s : State) (t : ThreadId) : Option Nat := ((s.core t.core).deque.findIdx? fun rc => joined s t.slice rc.slice)

def takeRecord (s : State) (c : CoreId) (k : Nat) : State := s.modCore c fun r => { r with deque := dropAt r.deque k }

/-- Room for one more record: 256 with the entries reserved (R39). -/
def dequeRoom (s : State) (c : CoreId) : Bool := decide ((s.core c).deque.length + (s.core c).reserved < 256)

/-- Registers of a thread that starts on a record, and their marks (R35, R46). -/
def recordRegs (rc : TaskRec) : List Nat := [rc.arg.toNat, rc.join.toNat, rc.h1.toNat, rc.h2.toNat]
def recordMarks (rc : TaskRec) : Nat := bit (rc.h1 != 0) * 4 + bit (rc.h2 != 0) * 8

/-- The fault record of a record discarded under the abort line (R50, R267). -/
def discardRecord (s : State) (t : ThreadId) (rc : TaskRec) : State := failTask s t rc.slice rc.join ⟨rc.pc, 17, 0, 0⟩

/-- Whether the abort line of a record's slice is raised at a core's cluster. -/
def recordAborts (s : State) (c : CoreId) (rc : TaskRec) : Bool :=
  match s.slice? rc.slice with
  | some r => r.abort.contains c.cluster
  | none => false

/-! ### Join records -/

/-- The storage of a join record that an instruction names: in the core's scratchpad or its cluster's pool, and not poisoned. -/
def joinPlace (j : Word) : Exec Addr := do
  let t ← me; let c ← ctl
  match resolveLocal (← get) t.core c.slice j with
  | some (a, o) =>
    if j.toNat % 16 ≠ 0 ∨ isRemote t.core o then permTrap j
    if (← get).poisoned a 16 then trapAt 11 j.toNat 0
    return a
  | none => permTrap j

/-- Adds a child to a join record. -/
def addChild (j : Word) : Exec Unit := do
  if j = 0 then return
  let t ← me; let c ← ctl; let a ← joinPlace j
  modify fun s =>
    let w := s.rd a 16
    storeAt s t.core c.slice.part c.pc a 16 (joinWord (joinPending w + 1) (joinFailed w) (joinFirst w))
  watchMine a 16 true

/-- Whether a named record can take another child. -/
def childRoom (j : Word) : Exec Bool := do
  if j = 0 then return true
  let a ← joinPlace j
  return decide (joinPending ((← get).rd a 16) < 0xFFFFFFFF)

def execFork (h : Hdr) (gd : BitVec 3) (pc arg j : Opnd) (s : State) : Host.Outcome State Fault Refusal :=
  issueSeq h (do
    notInBody (.fork h gd pc arg j)
    sampleAbort
    let (p, a, jv) ← rd3 h pc arg j
    let ok ← childRoom jv
    waitAccesses
    let t ← me; let c ← ctl
    if ok && dequeRoom (← get) t.core then
      addChild jv
      let prov := BitVec.ofNat 64 (threadProv (← get) t c)
      modify fun s => pushBottom s t.core ⟨c.slice, p, a, jv, prov, 0, 0⟩
      setGuard gd true
    else setGuard gd false) s

/-! ### JOIN (R36, R351) -/

/-- The first 0x300 bytes of the window of a child run inline. -/
def inlineImage (rc : TaskRec) (prov ovdef : Nat) (caller : Word) (ext : Nat) : Nat :=
  startImage (recordRegs rc) (recordMarks rc) prov ovdef + caller.toNat * 2 ^ (8 * offCaller) + 0x2400 * 2 ^ (8 * offFrame) +
    ext * 2 ^ (8 * offExtBase)

/-- Runs the record at index k of the deque in the thread's own slot. -/
def runInline (k : Nat) (rc : TaskRec) : Exec Flow := do
  let t ← me; let c ← ctl
  waitClass 3
  let w := windowBelow c.wsp 0x2400
  checkWindow w
  needLines w
  freshLines w
  let s ← get
  let (prov, gone) := startRoots s c.slice.part rc.prov.toNat
  let ext := threadRead s t c c.wsp offExtBase 16
  let img := inlineImage rc prov (s.part c.slice.part).ovdef.toNat c.wsp ext
  let s := saveControl (takeRecord s t.core k) t
  set (syncP t ((List.range 12).foldl (fun s i => threadWrite s t c w (64 * i) 64 (field img (512 * i) 512)) s))
  let f : InlineFrame := ⟨c.pc, c.wsp, c.twsp, c.hwsp, c.abmask, c.joinRec, c.intrap⟩
  modT fun th =>
    { th.settled with
      due := { th.settled.due with revoked := th.due.revoked ++ gone, after := none }
      ctl := { c with pc := rc.pc, wsp := w, twsp := 0, hwsp := 0, abmask := false, joinRec := rc.join, intrap := false, first := true
                      rep := none, repBnd := false, inl := f :: c.inl } }
  return .gone

/-- JOIN waits; it has sampled the abort line (R36). -/
def joinParks : Exec Flow := do
  modT fun th => { th with sampled := true }
  throw (.wait (.parked .message))

def execJoin (h : Hdr) (gd : BitVec 3) (d a : Reg) (s : State) : Host.Outcome State Fault Refusal :=
  issue h (do
    notInBody (.join h gd d a)
    if !(← thr).sampled then sampleAbort
    let j ← rd1 h (.w a)
    if j = 0 then permTrap 0
    let x ← joinPlace j
    let w := (← get).rd x 16
    let t ← me; let c ← ctl
    watchMine x 16 false
    if joinPending w = 0 then
      modify (syncP t)
      wrReg d (BitVec.ofNat 64 (joinFailed w))
      setGuard gd (joinFailed w != 0)
      return .seq
    else
      let s ← get
      match (eligibleAt s t).bind fun k => (s.core t.core).deque[k]?.map fun rc => (k, rc) with
      | some (k, rc) =>
        if rc.join = j ∧ rc.slice = c.slice then
          if recordAborts s t.core rc then
            set (discardRecord (takeRecord s t.core k) t rc)
            modT fun th => { th with sampled := true }
            throw (.wait .ready)
          else runInline k rc
        else joinParks
      | none => joinParks) s

/-! ### LAUNCH (R355) -/

def execLaunch (h : Hdr) (gd : BitVec 3) (d a : Reg) (vp : Bool) (s : State) : Host.Outcome State Fault Refusal :=
  issueSeq h (do
    notInBody (.launch h gd d a vp)
    let av ← rd1 h (.w a)
    let sp ← if vp then pure [] else localSpan av 64 64 false
    if vp && decide (wfield av 52 12 ≠ 0) then trapAt 4 av.toNat 4
    if vp && decide (av.toNat % 64 ≠ 0) then alignTrap av
    waitConfirmed
    waitAccesses
    let x ← if vp then do
        let pa ← translate av .rd
        plainRead h.hint.toNat av pa 64
      else readSpan av sp
    let t ← me; let p ← myPart
    let desc : BitVec 512 := BitVec.ofNat 512 x
    match descCode (← get) p desc with
    | 0 =>
      if 1024 ≤ heldSlices (← get) p then parkMessage
      let (n, s) := submit (← get) p desc ⟨t.core.quad, true, 0, 0⟩ false
      set s
      wrReg d (BitVec.ofNat 64 (n * 2 ^ 32))
      setGuard gd true
    | c =>
      wrReg d (BitVec.ofNat 64 c)
      setGuard gd false) s

/-! ### Futures (R344 to R349) -/

/-- A handle operand, read without the wait of R44 and checked under R42. -/
def handleOperand (a : Reg) : Exec (Word × Addr) := do
  let v ← regBits a.val
  return (v, ← handleAddr v)

def execHinit (h : Hdr) (d : Reg) (s : State) : Host.Outcome State Fault Refusal :=
  issueSeq h (do
    notInBody (.hinit h d)
    let (loc, a) ← futLocation d
    let _ ← makeFuture d loc a) s

def execHtest (h : Hdr) (gd : BitVec 3) (d a : Reg) (s : State) : Host.Outcome State Fault Refusal :=
  issueSeq h (do
    notInBody (.htest h gd d a)
    let (v, x) ← handleOperand a
    let w := (← get).rd x 8
    watchMine x 8 false
    wrReg d (BitVec.ofNat 64 w)
    setGuard gd !(fsState w = 1 && fsGen w = handleGen v)) s

def execHwait (h : Hdr) (gd : BitVec 3) (a : Reg) (s : State) : Host.Outcome State Fault Refusal :=
  issueSeq h (do
    notInBody (.hwait h gd a)
    let (v, x) ← handleOperand a
    let w := (← get).rd x 8
    if fsState w = 1 ∧ fsGen w = handleGen v then throw (.register v)
    watchMine x 8 false
    modify (syncP (← me))
    setGuard gd (fsState w = 2 && fsGen w = handleGen v)) s

/-- What stands behind a cancelled future: a copy stops at a boundary of its own, a copy-reduction resolves nothing, and an NSUB stops
under R379 or runs on under R348, which a free value decides (R229, R323). -/
def cancelEngines (s : State) (a : Addr) (gen : Nat) : State :=
  let hit := fun (f : Fut) => decide (f.addr = a ∧ f.gen = gen)
  { s with
    un := { s.un with clusters := s.un.clusters.map fun (c, r) =>
      (c, { r with copies := r.copies.map fun x => if hit x.fut then { x with stop := true } else x }) }
    nt := { s.nt with contribs := s.nt.contribs.map fun x => if hit x.fut then { x with resolveOff := true } else x }
    tl := { s.tl with subs := s.tl.subs.map fun x => if hit x.fut && Config.cancelStopsReel s.free then { x with stop := true } else x }
    free := s.free + 1 }

def execHcancel (h : Hdr) (gd : BitVec 3) (a : Reg) (s : State) : Host.Outcome State Fault Refusal :=
  issueSeq h (do
    notInBody (.hcancel h gd a)
    let (v, x) ← handleOperand a
    let w := (← get).rd x 8; let g := handleGen v
    watchMine x 8 true
    if fsState w = 1 ∧ fsGen w = g then
      modify fun s => cancelEngines (futWake (s.wr x 8 (fsWord 4 g 0 (fsResult w))) x) x g
      setGuard gd true
    else setGuard gd false) s

def execHresolve (h : Hdr) (gd : BitVec 3) (a : Reg) (v : Opnd) (flt : Bool) (s : State) : Host.Outcome State Fault Refusal :=
  issueSeq h (do
    notInBody (.hresolve h gd a v flt)
    let (hv, x) ← handleOperand a
    let r := wfield (← rd1 h v) 0 32
    if flt && !(decide (1 ≤ r % 256 ∧ r % 256 ≤ 20)) then permTrap 0 1
    let t ← me; let gen ← myGen; let seen := (← thr).seen
    if ((← get).core t.core).storeq.any fun e => decide (e.t = t ∧ e.gen = gen ∨ e.id < seen) then parkMemory
    waitConfirmed
    let (m, s) := futResolve (← get) x (handleGen hv) (if flt then 3 else 2) r
    match m with
    | .double => trapAt 12 hv.toNat 0
    | .done =>
      set s
      watchMine x 8 true
      setGuard gd true
    | .discarded =>
      set s
      watchMine x 8 true
      setGuard gd false) s

/-! ### HJOIN (R46, R350) -/

/-- Registers a continuation on the word of a handle: the word waited for, if any, and whether it is polled. -/
def contRegister (v : Word) (x : Addr) : Exec (Option Addr × Bool) := do
  let t ← me
  watchMine x 8 true
  let (r, s) := futRegister (← get) t.core x (handleGen v)
  set s
  match r with
  | .satisfied => return (none, false)
  | .waiting => return (some x, false)
  | .polling => return (some x, true)

/-- The second handle: none when it is zero. -/
def secondHandle : Opnd → Exec (Option (Word × Addr))
  | .w n => do
    let v ← regBits n.val
    if v = 0 then return none
    return some (v, ← handleAddr v)
  | _ => pure none

/-- A continuation whose count is zero is pushed, or waits behind those of its core that wait (R39). -/
def pushDue (s : State) (c : CoreId) (k : Cont) : State :=
  if dequeRoom s c && !((s.core c).conts.any (·.due)) then pushBottom s c k.task
  else s.modCore c fun r => { r with conts := r.conts ++ [{ k with due := true }] }

def execHjoin (h : Hdr) (gd : BitVec 3) (pc arg j : Opnd) (h1 : Reg) (h2 : Opnd) (s : State) : Host.Outcome State Fault Refusal :=
  issueSeq h (do
    notInBody (.hjoin h gd pc arg j h1 h2)
    let v1 ← regBits h1.val
    if v1 = 0 then permTrap 0
    let x1 ← handleAddr v1
    let second ← secondHandle h2
    let (p, a, jv) ← rd3 h pc arg j
    let ok ← childRoom jv
    waitAccesses
    let t ← me; let c ← ctl
    if ok && decide (((← get).core t.core).conts.length < 64) then
      addChild jv
      let (w1, p1) ← contRegister v1 x1
      let (w2, p2) ← match second with
        | some (v2, x2) => contRegister v2 x2
        | none => pure (none, false)
      let v2 := (second.map (·.1)).getD 0
      let prov := BitVec.ofNat 64 (threadProv (← get) t c)
      let n := bit w1.isSome + bit w2.isSome
      let k : Cont := ⟨⟨c.slice, p, a, jv, prov, v1, v2⟩, v1, v2, w1, w2, p1, p2, n, false⟩
      modify fun s => if n = 0 then pushDue s t.core k else s.modCore t.core fun r => { r with conts := r.conts ++ [k] }
      setGuard gd true
    else setGuard gd false) s

/-! ### Idle slots and the steal network (R35, R37 to R39, R50, R75) -/

/-- Whether a slot can take a record: idle, bound, and its slice Running. -/
def slotIdle (s : State) (t : ThreadId) (r : SlotRec) : Bool :=
  r.thread.isNone && r.phys.isSome && coreReady s t.core t.slice &&
  (match s.slice? t.slice with
   | some x => x.st = .running && !x.killed
   | none => false)

/-- Operations of the GCD unit, the divider and the homes that still write the slot's windows (R142). -/
def slotDraining (s : State) (t : ThreadId) : Bool :=
  (s.core t.core).gcd.any (fun o => decide (o.t = t)) || (s.core t.core).div.any (fun o => decide (o.t = t)) ||
  s.tl.answers.any fun o => decide (o.t = t)

/-- IDLE_SLOT_POP: an idle slot pops the eligible record nearest the bottom and starts a thread on it. -/
def execIdleSlotPop (t : ThreadId) (s : State) : Host.Outcome State Fault Refusal :=
  match s.slot? t, eligibleAt s t with
  | some r, some k =>
    let asked := r.steal = .sent || r.steal = .empty
    if !slotIdle s t r || asked || slotDraining s t then .next s
    else match (s.core t.core).deque[k]? with
    | none => .next s
    | some rc =>
      match s.slice? rc.slice with
      | none => .next s
      | some _ =>
        let s := takeRecord s t.core k
        if recordAborts s t.core rc then
          .next ((discardRecord s t rc).modSlot t fun r => { r with gen := (r.gen + 1) % 256 })
        else .next (syncOut (startTask (dropL1 t.core s) t rc (recordRegs rc) (recordMarks rc)))
  | _, _ => .next s

/-- Whether a thief's slot may take a record from a core's deque. -/
def thiefMay (s : State) (t : ThreadId) (v : CoreId) (rc : TaskRec) : Bool :=
  joined s t.slice rc.slice && v.dieId = t.core.dieId &&
  (match s.slice? rc.slice with
   | none => false
   | some x =>
     match x.domain with
     | 0 => v.cluster = t.core.cluster
     | 2 => v.quad = t.core.quad
     | _ => true)

/-- The index of the record nearest the top among those a thief may take. -/
def topTakeable (s : State) (t : ThreadId) (v : CoreId) : Option Nat :=
  let d := (s.core v).deque
  ((List.range d.length).reverse).find? fun k => match d[k]? with
    | some rc => thiefMay s t v rc
    | none => false

/-- The nearest core with a record to take, the lowest index first among equals. -/
def pickVictim (s : State) (t : ThreadId) : Option CoreId :=
  let all := (List.range 192).map fun l => (⟨t.core.pkg, t.core.die, l⟩ : CoreId)
  let have' := all.filter fun v => decide (v ≠ t.core) && (topTakeable s t v).isSome
  (sortBy (fun a b => decide (hops t.core.core a.core < hops t.core.core b.core) ||
    (hops t.core.core a.core = hops t.core.core b.core && decide (a.core < b.core))) have').head?

/-- STEAL_REQUEST: an idle slot without an eligible record reserves an entry and takes the top record of the nearest victim, or an empty
reply. -/
def execStealRequest (t : ThreadId) (s : State) : Host.Outcome State Fault Refusal :=
  match s.slot? t with
  | none => .next s
  | some r =>
    if !slotIdle s t r || r.steal != .none || (eligibleAt s t).isSome || !dequeRoom s t.core then .next s
    else
      let s := s.modCore t.core fun r => { r with reserved := r.reserved + 1 }
      match (pickVictim s t).bind fun v => (topTakeable s t v).bind fun k => (s.core v).deque[k]?.map fun rc => (v, k, rc) with
      | some (v, k, rc) => .next ((takeRecord s v k).modSlot t fun r => { r with steal := .sent, carried := some rc })
      | none => .next (s.modSlot t fun r => { r with steal := .empty, carried := none })

/-- STEAL_REPLY: the reply reaches the thief's core. -/
def execStealReply (t : ThreadId) (s : State) : Host.Outcome State Fault Refusal :=
  match s.slot? t with
  | none => .next s
  | some r =>
    match r.steal, r.carried with
    | .sent, some rc =>
      let s := (releaseEntry s t.core).modSlot t fun r => { r with steal := .none, carried := none }
      .next (if recordAborts s t.core rc then (discardRecord s t rc).modSlot t fun r => { r with gen := (r.gen + 1) % 256 }
        else pushBottom s t.core rc)
    | .sent, none => .next ((releaseEntry s t.core).modSlot t fun r => { r with steal := .wait s.ac })
    | .empty, _ => .next ((releaseEntry s t.core).modSlot t fun r => { r with steal := .wait s.ac, carried := none })
    | _, _ => .next s

/-- STEAL_RETRY: 64 ac after an empty reply the slot may ask again. -/
def execStealRetry (t : ThreadId) (s : State) : Host.Outcome State Fault Refusal :=
  match s.slot? t with
  | none => .next s
  | some r =>
    match r.steal with
    | .wait since => if since + 64 ≤ s.ac then .next (s.modSlot t fun r => { r with steal := .none }) else .next s
    | _ => .next s

/-! ### Wakes, polls and continuations (R45, R46, R39) -/

/-- Whether a registration on a word is satisfied: no longer Pending with its generation. -/
def regOver (s : State) (a : Addr) (gen : Nat) : Bool := fsState (s.rd a 8) ≠ 1 || fsGen (s.rd a 8) ≠ gen

/-- The registrations of a continuation on words that `which` selects fall. -/
def fallCont (s : State) (which : Addr → Bool → Bool) (k : Cont) : Cont :=
  let above := fun (w : Option Addr) (poll : Bool) (h : Word) => match w with
    | some a => which a poll && regOver s a (handleGen h)
    | none => false
  let o1 := above k.w1 k.poll1 k.h1
  let o2 := above k.w2 k.poll2 k.h2
  { k with w1 := if o1 then none else k.w1, w2 := if o2 then none else k.w2, n := k.n - bit o1 - bit o2 }

/-- Satisfied registrations of a core's continuations; those whose count reaches zero are pushed in table order. -/
def settleConts (s : State) (c : CoreId) (which : Addr → Bool → Bool) : State :=
  let ks := (s.core c).conts.map fun k => if k.due then k else fallCont s which k
  let done := ks.filter fun k => !k.due && decide (k.n = 0)
  let s := s.modCore c fun r => { r with conts := ks.filter fun k => k.due || decide (k.n ≠ 0) }
  done.foldl (fun s k => pushDue s c k) s

/-- FUTURE_WAKE: the k-th wake reaches its core: every registration there on the word is satisfied. -/
def execFutureWake (k : Nat) (s : State) : Host.Outcome State Fault Refusal :=
  match s.nt.wakes[k]? with
  | none => .next s
  | some w =>
    let s := { s with nt := { s.nt with wakes := dropAt s.nt.wakes k } }
    let s := { s with wk := { s.wk with slots := s.wk.slots.map fun (t, r) =>
      (t, if t.core = w.core then { r with thread := r.thread.map fun th =>
        match th.phase with
        | .future a g p => if a = w.addr && regOver s a g && !p then { th with phase := .ready } else th
        | _ => th } else r) } }
    .next (settleConts s w.core fun a p => decide (a = w.addr) && !p)

/-- The polled registrations of the device: threads by slot, then continuations by core. -/
def polled (s : State) : List (ThreadId ⊕ CoreId) :=
  (s.wk.slots.filterMap fun (t, r) => match r.thread with
    | some th => (match th.phase with
      | .future _ _ true => some (.inl t)
      | _ => none)
    | none => none) ++
  s.un.cores.filterMap fun (c, r) => if r.conts.any (fun k => k.poll1 || k.poll2) then some (.inr c) else none

/-- REGISTRATION_POLL: the k-th polled registrant reads its words. -/
def execRegistrationPoll (k : Nat) (s : State) : Host.Outcome State Fault Refusal :=
  match (polled s)[k]? with
  | none => .next s
  | some (.inl t) =>
    .next (s.modThread t fun th => match th.phase with
      | .future a g _ => if regOver s a g then { th with phase := .ready } else th
      | _ => th)
  | some (.inr c) => .next (settleConts s c fun _ p => p)

/-- WAITING_CONTINUATION_PUSH: the first waiting continuation of a core enters its deque. -/
def execWaitingContinuationPush (c : CoreId) (s : State) : Host.Outcome State Fault Refusal :=
  let r := s.core c
  match r.conts.findIdx? (·.due) with
  | none => .next s
  | some k =>
    if !dequeRoom s c then .next s
    else match r.conts[k]? with
    | some x => .next (pushBottom (s.modCore c fun r => { r with conts := dropAt r.conts k }) c x.task)
    | none => .next s

end Sys2Proof.Machine
end

