-- ==== Sys2Proof/Machine/Engines.lean ====
section
/-!
DEFINITION. Sys2Proof/Machine/Engines.lean: class 9 (R311 to R323): copies and copy-reductions of the flyer (R228 to R230), barrier objects
(R231 to R234), rectangle barriers (R239, R240) and circular-buffer handles (R160, R161); and their steps.
-/
namespace Sys2Proof.Machine

/-! ### Barrier objects (R231, R232) -/

def boGenOf (w : Nat) : Nat := field w 8 8
def boWord (gen : Nat) (above done : Bool) (arrived expected : Nat) : Nat :=
  pack [(1, bit done), (1, bit above), (6, 0), (8, gen), (48, 0), (32, arrived), (32, expected)]

/-- Hardware writes a barrier granule: its poison is left alone. -/
def putBarrier (s : State) (a : Addr) (w : Nat) : State := clearTags a 16 (fireWatches (s.put a 16 w) a 16)

/-- DONE comes with a generation: the threads that wait for it go on with a true guard, whatever becomes of the object (R232). -/
def wakeBo (a : Addr) (gen : Nat) (s : State) : State :=
  { s with wk := { s.wk with slots := s.wk.slots.map fun (t, r) =>
      (t, { r with thread := r.thread.map fun th => { th with boWait := th.boWait.map fun b =>
        if b.addr = a ∧ b.gen = gen then { b with done := true } else b } }) } }

/-- An arrival of n bytes, for a core's thread or engine. -/
def boArrive (s : State) (c : CoreId) (p : PartId) (a : Addr) (n : Nat) : State :=
  let w := s.rd a 16
  let sum := field w 64 32 + n; let expected := field w 96 32
  let arrived := sum % 2 ^ 32
  let done := decide (expected ≤ arrived)
  let s := putBarrier s a (boWord (boGenOf w) (w.testBit 1 || decide (expected < sum)) done arrived expected)
  let s := engWatch s p a 16 true (addrOwner a != some (.inl c))
  if done && !w.testBit 0 then wakeBo a (boGenOf w) (s.setFull (a / 16) true) else s

/-- Whether an arrival that carries a generation is stale (R233). -/
def barStale (s : State) (b : Option (Addr × Nat)) : Bool :=
  match b with
  | none => false
  | some (a, gen) => !s.typedAt a 16 || boGenOf (s.rd a 16) ≠ gen

/-- The granule of a barrier instruction (R315). -/
def boPlace (a : Word) : Exec Addr := do
  let c ← ctl
  let (x, _) ← orStop (resolveLocal (← get) (← myCore) c.slice a) (.trap (mkTrap 5 a.toNat 0))
  if a.toNat % 16 ≠ 0 then alignTrap a
  return x

def execBoinit (h : Hdr) (a : Reg) (e : Option Opnd) (s : State) : Host.Outcome State Fault Refusal :=
  issueSeq h (do
    let (av, ev) ← match e with
      | some o => rd2 h (.w a) (.op o)
      | none => do pure (← rd1 h (.w a), 1)
    let x ← boPlace av
    if ev = 0 ∨ 2 ^ 32 ≤ ev.toNat then permTrap av
    fenceHold 3
    let gen := (boGenOf ((← get).rd x 16) + 1) % 256
    modify fun s =>
      let g := x / 16
      let s := (clearTags x 16 (fireWatches (s.wr x 16 (boWord gen false false 0 (if e.isSome then ev.toNat else 0))) x 16)).setFull g false
      { s with st := { s.st with typed := if e.isSome then nins s.st.typed g else ndel s.st.typed g } }
    watchMine x 16 true) s

/-- The count of BOARR, zero-extended. -/
def boCount (h : Hdr) : Src → Exec Nat
  | .op o => do return (← rd1 h o).toNat
  | .imm16 i => pure i.toNat
  | .imm32 i => pure i.toNat

def execBoarr (h : Hdr) (a : Reg) (c : Src) (s : State) : Host.Outcome State Fault Refusal :=
  issueSeq h (do
    let (av, cv) ← match c with
      | .op o => rd2 h (.w a) (.op o)
      | .imm16 i => do pure (← rd1 h (.w a), BitVec.ofNat 64 i.toNat)
      | .imm32 i => do pure (← rd1 h (.w a), BitVec.ofNat 64 i.toNat)
    let x ← boPlace av
    if 2 ^ 32 ≤ cv.toNat then permTrap av
    if !(← get).typedAt x 16 then permTrap av 1
    fenceHold 3
    let t ← me; let th ← thr; let ct := th.ctl; let tgen ← myGen
    let id ← newOp
    modify fun s =>
      { s with nt := { s.nt with boarrs := s.nt.boarrs ++ [⟨id, t, tgen, ct.slice, x, boGenOf (s.rd x 16), cv.toNat, th.seen⟩] } }) s

/-- BOARR_ARRIVAL: the k-th arrival counts once the thread's earlier P and S writes, and the stores of its core that it knew of, are
performed; under another generation it counts nothing. -/
def execBoarrArrival (k : Nat) (s : State) : Host.Outcome State Fault Refusal :=
  match s.nt.boarrs[k]? with
  | none => .next s
  | some x =>
    if (s.core x.t.core).storeq.any fun e => decide (e.t = x.t ∧ e.gen = x.tgen ∧ e.id < x.id ∨ e.id < x.after) then .next s
    else
      let s := { s with nt := { s.nt with boarrs := dropAt s.nt.boarrs k } }
      .next (if barStale s (some (x.addr, x.gen)) then s else boArrive s x.t.core x.slice.part x.addr x.count)

def execBowait (h : Hdr) (gd : BitVec 3) (a : Reg) (s : State) : Host.Outcome State Fault Refusal :=
  issueSeq h (do
    let av ← rd1 h (.w a)
    let x ← boPlace av
    fenceHold 3
    let s ← get; let w := s.rd x 16; let b := (← thr).boWait
    watchMine x 16 false
    let gen := (b.map (·.gen)).getD (boGenOf w)
    let here := s.typedAt x 16 && decide (boGenOf w = gen)
    if ((b.map (·.done)).getD false) || (here && w.testBit 0) then
      modify (syncP (← me))
      setGuard gd true
    else if here then
      modT fun th => { th with boWait := some ⟨x, gen, false⟩ }
      throw (.wait (.parked .message))
    else setGuard gd false) s

/-! ### Copies: places and checks (R228, R321, R322) -/

def EngAddr.span (s : State) (q : QuadId) (p : PartId) (e : EngAddr) (off n : Nat) (nd : Need) : Except TrapRec Span :=
  match e with
  | .plain va => plainSpan s q p nd (n / 2 ^ 16 + 2) (va + off) n
  | .local_ l => .ok (subSpan l off n)

/-- An operand address of the flyer: plain virtual, or a range of SPACE 0 or 1. -/
def engAddr (a : Word) (n : Nat) (plain : Bool) : Exec EngAddr := do
  let c ← ctl
  if plain then return .plain a.toNat
  return .local_ (← orStop (viewPieces (← get) (← myCore) c.slice a n) (.trap (mkTrap 5 a.toNat 0)))

def chkEngAlign (a : Word) : Exec Unit := do if a.toNat % 16 ≠ 0 then alignTrap a
def chkEngPlain (a : Word) (plain : Bool) : Exec Unit := do if plain && wfield a 52 12 ≠ 0 then trapAt 4 a.toNat 4

/-- The local address with another offset, or in another core. -/
def withOffset (a : Word) (off : Nat) : Word := a - BitVec.ofNat 64 (wfield a 0 23) + BitVec.ofNat 64 off
def withPlace (a : Word) (l : Nat) : Word := a - BitVec.ofNat 64 (wfield a 44 8 * 2 ^ 44) + BitVec.ofNat 64 (l * 2 ^ 44)

/-- The barrier granule beside a destination, with the generation that the flyer reads (R233). -/
def captureBar (dst : Word) (bar : Option Nat) : Exec (Option (Addr × Nat)) := do
  match bar with
  | none => return none
  | some off =>
    let c ← ctl
    let a := withOffset dst off
    let (x, _) ← orStop (resolveLocal (← get) (← myCore) c.slice a) (.trap (mkTrap 5 a.toNat 0))
    return some (x, boGenOf ((← get).rd x 16))

/-- One receiver at a local destination. -/
def receiver (core : CoreId) (dst : Word) (n : Nat) (bar : Option Nat) : Exec Recv := do
  return ⟨core, ← engAddr dst n false, true, ← captureBar dst bar, false⟩

/-- The receivers of a multicast: the cores of the cluster that the mask names. -/
def multicast (dst : Word) (n : Nat) (bar : Option Nat) (mask : Nat) : (k : Nat) → Exec (List Recv)
  | 0 => pure []
  | k + 1 => do
    let before ← multicast dst n bar mask k
    if !mask.testBit k then return before
    let t ← me; let sl ← mySlice
    let c := t.core.cluster.core k
    if (placePhys (← get) t.core c.core).isNone then permTrap (withPlace dst c.core)
    let r ← if sl.inGroup c.core then receiver c (withPlace dst c.core) n bar else pure ⟨c, .local_ [], false, none, false⟩
    return before ++ [r]

/-- A core has at most 2,048 copies and copy-reductions in flight (R229). -/
def flyerRoom : Exec Unit := do
  let t ← me; let s ← get
  let n := ((s.cluster t.core.cluster).copies.filter fun x => decide (x.t.core = t.core)).length +
    (s.nt.contribs.filter fun x => decide (x.t.core = t.core)).length
  need (decide (n < 2048)) .hold

def execCpy (h : Hdr) (d dst src c : Reg) (cmask : BitVec 8) (sk dk : Bool) (s : State) : Host.Outcome State Fault Refusal :=
  issueSeq h (do
    let (loc, fa) ← futLocation d
    let (dv, sv, x) ← rd3 h (.w dst) (.w src) (.w c)
    let len := wfield x 0 32; let ben := bitAt x 63
    if len = 0 ∨ len % 16 ≠ 0 then alignTrap dv
    chkEngAlign dv; chkEngAlign sv
    chkEngPlain dv dk; chkEngPlain sv sk
    if wfield x 51 12 ≠ 0 ∨ (ben ∧ dk) then permTrap dv
    let source ← engAddr sv len sk
    if cmask ≠ 0 ∧ (dk ∨ wfield dv 54 2 ≠ 0) then permTrap dv
    let t ← me; let gen ← myGen
    let bar := if ben then some (wfield x 32 19 * 16) else none
    let recvs ← if cmask ≠ 0 then multicast dv len bar cmask.toNat 8
      else if dk then do pure [⟨t.core, ← engAddr dv len true, true, none, false⟩]
      else do pure [← receiver t.core dv len bar]
    flyerRoom
    waitConfirmed
    fenceHold 3
    let f ← makeFuture d loc fa
    let id ← newOp
    let e : Copy := ⟨id, t, gen, f, source, recvs, len, 0, false⟩
    modify fun s => s.modCluster t.core.cluster fun r => { r with copies := r.copies ++ [e] }) s

def execCpyr (h : Hdr) (d dst src c : Reg) (sk dk : Bool) (m : CpyrMods) (s : State) : Host.Outcome State Fault Refusal :=
  issueSeq h (do
    let (loc, fa) ← futLocation d
    let (dv, sv, x) ← rd3 h (.w dst) (.w src) (.w c)
    let len := wfield x 0 20 * 16; let ben := bitAt x 63; let idx := wfield x 20 12; let nm1 := wfield x 32 12
    if len = 0 then alignTrap dv
    chkEngAlign dv; chkEngAlign sv
    chkEngPlain dv dk; chkEngPlain sv sk
    if !([1, 2, 3, 9].contains m.fmt.toNat) then trapAt 7 0 (m.fmt.toNat * 256)
    if idx > nm1 ∨ (ben ∧ dk) ∨ (!dk ∧ wfield dv 54 2 = 0) ∨ m.cmask ≠ 0 then permTrap dv
    let source ← engAddr sv len sk
    let dest ← engAddr dv len dk
    let bar ← captureBar dv (if ben then some (wfield x 44 19 * 16) else none)
    flyerRoom
    waitConfirmed
    fenceHold 3
    let t ← me; let gen ← myGen; let ct ← ctl
    let f ← makeFuture d loc fa
    let id ← newOp
    let e : Contribution :=
      { id := id, t := t, gen := gen, fut := f, part := ct.slice.part, dst := dest, fmt := m.fmt.toNat, len := len, index := idx, nm1 := nm1
        src := source, data := none, bar := bar, resolveOff := false, refused := none, refusals := 0, since := 0 }
    modify fun s => { s with nt := { s.nt with contribs := s.nt.contribs ++ [e] } }) s

/-! ### FLYER_CHUNK (R228, R233, R234, R322) -/

/-- Homes of the plain pieces of a range are touched, and watchpoints see the others. -/
def engTouch (s : State) (c : CoreId) (p : PartId) (write : Bool) : Span → State
  | [] => s
  | (x, n) :: r =>
    let s := if x % 2 ^ 128 < 2 ^ 56 then touchPlain s c (x % 2 ^ 128) else engWatch s p x n write (addrOwner x != some (.inl c))
    engTouch s c p write r

/-- Sets the full bits of the banks' granules that a range covers. -/
def fillBanks (s : State) (l : Span) : State := Span.fill s (l.filter fun e => (addrOwner e.1).isSome)

/-- The offsets, in granules, of the poisoned granules of a range. -/
def badGranules (s : State) (l : Span) (n : Nat) : List Nat :=
  if s.st.poison.isEmpty then [] else (List.range (n / 16)).filter fun i => Span.poisoned s (subSpan l (16 * i) 16)

/-- Writes a chunk at one place, its poison with it. -/
def writeChunk (c : CoreId) (p : PartId) (data : Nat) (bad : List Nat) (s : State) (l : Span) : State :=
  let s := engTouch (fillBanks (Span.write s data l) l) c p true l
  let gs := bad.flatMap fun i => (subSpan l (16 * i) 16).map fun e => e.1 / 16
  { s with st := { s.st with poison := gs.foldl nins s.st.poison } }

def modCopy (s : State) (c : ClusterId) (id : Nat) (f : Copy → Copy) : State :=
  s.modCluster c fun r => { r with copies := r.copies.map fun x => if x.id = id then f x else x }

/-- The copy leaves the in-flight table. -/
def dropCopy (s : State) (c : ClusterId) (id : Nat) : State :=
  s.modCluster c fun r => { r with copies := r.copies.filter fun x => decide (x.id ≠ id) }

/-- The copy ends: its future resolves or faults. -/
def endCopy (s : State) (c : ClusterId) (x : Copy) (st result : Nat) : State := engResolve (dropCopy s c x.id) x.fut st result

/-- Two ranges share a byte of storage. -/
def Span.meets (a b : Span) : Bool := a.any fun x => b.any fun y => decide (x.1 < y.1 + y.2 ∧ y.1 < x.1 + x.2)

/-- Where a range stands for the comparison of accesses; a range that does not translate meets none. -/
def EngAddr.places (s : State) (q : QuadId) (p : PartId) (e : EngAddr) (off n : Nat) : Span :=
  match e.span s q p off n .rd, e.span s q p off n .wr with
  | .ok l, _ => l
  | _, .ok l => l
  | _, _ => []

/-- What the rest of a copy reads and writes. -/
def Copy.reads (s : State) (q : QuadId) (x : Copy) : Span := x.src.places s q x.fut.slice.part x.done (x.len - x.done)
def Copy.writes (s : State) (q : QuadId) (x : Copy) : Span :=
  x.recvs.flatMap fun r => if r.ok then r.dst.places s q x.fut.slice.part x.done (x.len - x.done) else []
def Contribution.reads (s : State) (q : QuadId) (x : Contribution) : Span := if x.data.isSome then [] else x.src.places s q x.part 0 x.len
def Contribution.writes (s : State) (q : QuadId) (x : Contribution) : Span := x.dst.places s q x.part 0 x.len

/-- Whether a path C access of a thread must wait for an earlier one of the same thread to a location that it shares (R203). Two
contributions to one destination keep the order of their merge record instead. -/
def afterPathC (s : State) (t : ThreadId) (gen id : Nat) (reads writes : Span) (contrib : Bool) : Bool :=
  let q := t.core.quad
  (s.cluster t.core.cluster).copies.any (fun y => decide (y.t = t ∧ y.gen = gen ∧ y.id < id) && !y.stop &&
    (writes.meets (y.reads s q) || writes.meets (y.writes s q) || reads.meets (y.writes s q))) ||
  s.nt.contribs.any fun y => decide (y.t = t ∧ y.gen = gen ∧ y.id < id) &&
    (writes.meets (y.reads s q) || (!contrib && writes.meets (y.writes s q)) || reads.meets (y.writes s q))

/-- What all chunks written leave: a receiver outside the group, a stale barrier, or success. -/
def finishCopy (s : State) (c : ClusterId) (x : Copy) : State :=
  if x.recvs.any fun r => !r.ok then endCopy s c x 3 5
  else if x.recvs.any (·.stale) then endCopy s c x 3 13
  else endCopy s c x 2 x.len

def mapExcept {α β ε : Type} (f : α → Except ε β) : List α → Except ε (List β)
  | [] => .ok []
  | a :: l =>
    match f a with
    | .error e => .error e
    | .ok b =>
      match mapExcept f l with
      | .error e => .error e
      | .ok r => .ok (b :: r)

/-- One chunk. -/
def moveChunk (s : State) (c : ClusterId) (x : Copy) : State :=
  let p := x.fut.slice.part; let q := x.t.core.quad
  let n := min 4096 (x.len - x.done)
  match x.src.span s q p x.done n .rd with
  | .error r => endCopy s c x 3 (faultResult r)
  | .ok src =>
    let recvs := x.recvs.map fun r => if r.ok && barStale s r.bar then { r with stale := true } else r
    let live := recvs.filter fun r => r.ok && !r.stale
    match mapExcept (fun (r : Recv) => r.dst.span s q p x.done n .wr) live with
    | .error r => endCopy s c x 3 (faultResult r)
    | .ok dsts =>
      if dsts.any (Span.typed s) then endCopy s c x 3 14
      else
        let data := Span.read s src
        let bad := badGranules s src n
        let s := engTouch s x.t.core p false src
        let s := dsts.foldl (writeChunk x.t.core p data bad) s
        let s := live.foldl (fun s r => match r.bar with
          | some (a, _) => boArrive s x.t.core p a n
          | none => s) s
        let x := { x with recvs := recvs, done := x.done + n }
        if !bad.isEmpty then endCopy s c x 3 11
        else if x.done = x.len then finishCopy s c x
        else modCopy s c x.id fun _ => x

/-- FLYER_CHUNK: the k-th copy of a cluster moves one chunk. A stopped cluster starts none (R287); a cancelled copy stops; one waits for what
its thread issued before to the same locations (R203). -/
def execFlyerChunk (c : ClusterId) (k : Nat) (s : State) : Host.Outcome State Fault Refusal :=
  match (s.cluster c).copies[k]? with
  | none => .next s
  | some x =>
    if (s.cluster c).dm.stopped then .next s
    else if x.stop then .next (dropCopy s c x.id)
    else if afterPathC s x.t x.gen x.id (x.reads s x.t.core.quad) (x.writes s x.t.core.quad) false then .next s
    else .next (moveChunk s c x)

/-! ### CPYR_MERGE (R193, R230, R323) -/

def modContrib (s : State) (id : Nat) (f : Contribution → Contribution) : State :=
  { s with nt := { s.nt with contribs := s.nt.contribs.map fun x => if x.id = id then f x else x } }

def endContrib (s : State) (x : Contribution) (st result : Nat) : State :=
  engResolve { s with nt := { s.nt with contribs := s.nt.contribs.filter fun y => decide (y.id ≠ x.id) } } x.fut st result

/-- The contribution's bytes, read at its first attempt; what it meets faults its future. -/
def contribData (s : State) (x : Contribution) : Except Nat (Nat × State) :=
  match x.data with
  | some d => .ok (d, s)
  | none =>
    match x.src.span s x.t.core.quad x.part 0 x.len .rd with
    | .error r => .error (faultResult r)
    | .ok src => if Span.poisoned s src then .error 11 else .ok (Span.read s src, engTouch s x.t.core x.part false src)

/-- Where a merge record is kept: at the home of a plain destination, or in the cluster that owns a pool destination. -/
structure MergeSite where
  addr : Addr
  home : Option HomeId
  cluster : ClusterId
deriving DecidableEq, Repr

def mergeSite (s : State) (x : Contribution) (dst : Span) : MergeSite × State :=
  let a := ((dst.head?).map (·.1)).getD 0
  match addrOwner a with
  | some o => (⟨a, none, ownerCluster o⟩, s)
  | none =>
    let (h, s) := homeOf s x.t.core.quad x.t.core.cluster.router (.plain x.t.core.pkg (a % 2 ^ 128 / 2 ^ 16))
    (⟨a, some h, x.t.core.cluster⟩, s)

/-- Whether a site can take one more record, and one more held contribution of n bytes. -/
def siteRoom (s : State) (x : Contribution) (m : MergeSite) : Bool :=
  match m.home with
  | some h => decide (entriesAt s h x.part < quotaEntries s x.part)
  | none => decide ((s.nt.merges.filter fun r => decide (r.home = none ∧ r.cluster = m.cluster)).length < 64)

def holdRoom (s : State) (x : Contribution) (m : MergeSite) (held : Nat) : Bool :=
  match m.home with
  | some h => decide (held < quotaHold s x.part ∧ arenaUsed s h x.part + x.len ≤ arenaShare s h x.part)
  | none =>
    let used := (s.nt.merges.filter fun r => decide (r.home = none ∧ r.cluster = m.cluster)).foldl (fun n r => n + r.len * r.held.length) 0
    decide (held < quotaHold s x.part ∧ used + x.len ≤ 131072)

def sameMerge (m : MergeSite) (p : PartId) (r : MergeRec) : Bool := decide (r.addr = m.addr ∧ r.home = m.home ∧ r.part = p)

/-- A class-2 event of a copy-reduction: it has no name (R193). -/
def contribEvent (s : State) (x : Contribution) (m : MergeSite) (kind ac : Nat) : State :=
  match m.home with
  | some h => verEvent s h x.part false kind 0 0 ac
  | none => raiseEvent s m.cluster.dieId 0xFF 0xF x.part 2 false [kind, 0, 0, ac]

/-- The contribution is answered "retry": it is sent again after the back-off of R184. -/
def retryContrib (s : State) (x : Contribution) (m : MergeSite) (data : Nat) : State :=
  contribEvent (modContrib s x.id fun y => { y with data := some data, refused := y.refused.orElse (fun _ => some s.ac), refusals := y.refusals + 1, since := s.ac }) x m 1 0

/-- Whether a contribution waits out the interval after its last refusal (R184, R193). -/
def contribBackOff (s : State) (x : Contribution) : Bool :=
  decide (x.refusals ≠ 0 ∧ s.ac < x.since + min 8192 (256 * 2 ^ (x.refusals - 1)))

/-- Counts one merge at its barrier. -/
def countMerge (x : Contribution) (s : State) (b : Option (Addr × Nat)) : State :=
  match b with
  | some (a, g) => if barStale s (some (a, g)) then s else boArrive s x.t.core x.part a x.len
  | none => s

/-- Merges or holds a contribution into a record, and writes the running value. -/
def mergeInto (s : State) (x : Contribution) (m : MergeSite) (dst : Span) (data : Nat) (r : MergeRec) : State :=
  let p := s.part x.part
  let room := holdRoom s x m r.held.length
  let u : MergeRule := ⟨mergeCap p.ovdef, bitAt p.mode 2, x.fmt, x.len, false⟩
  match Merging.take u room ⟨Span.read s dst, r.received, r.nextIdx, r.held⟩ x.index data with
  | none => retryContrib s x m data
  | some g =>
    let bars := match x.bar with
      | some b => tput r.bars x.index b
      | none => r.bars
    let isHeld := fun i => g.held.any fun e => decide (e.1 = i)
    let merged := (x.index :: r.held.map (·.1)).filter fun i => !isHeld i
    let s := if merged.isEmpty then s else engTouch (fillBanks (Span.write s g.data dst) dst) x.t.core x.part true dst
    let s := merged.foldl (fun s i => countMerge x s (tfind bars i)) s
    let r := { r with received := g.received, nextIdx := g.nextIdx, held := g.held, bars := bars.filter fun e => isHeld e.1 }
    let others := s.nt.merges.filter fun y => !sameMerge m x.part y
    let s := { s with nt := { s.nt with merges := if r.received.length = r.nm1 + 1 ∧ r.held.isEmpty then others else others ++ [r] } }
    let s := match x.refused with
      | some ac => contribEvent s x m 2 (s.ac - ac)
      | none => s
    endContrib s x 2 x.index

/-- CPYR_MERGE: the k-th contribution reaches the home or bank of its destination. -/
def execCpyrMerge (k : Nat) (s : State) : Host.Outcome State Fault Refusal :=
  match s.nt.contribs[k]? with
  | none => .next s
  | some x =>
    if ((s.cluster x.t.core.cluster).dm.stopped && x.data.isNone) || contribBackOff s x ||
      afterPathC s x.t x.gen x.id (x.reads s x.t.core.quad) (x.writes s x.t.core.quad) true then .next s
    else match contribData s x with
    | .error r => .next (endContrib s x 3 r)
    | .ok (data, s) =>
      match x.dst.span s x.t.core.quad x.part 0 x.len .wr with
      | .error r => .next (endContrib s x 3 (faultResult r))
      | .ok dst =>
        if Span.typed s dst then .next (endContrib s x 3 14)
        else if barStale s x.bar then .next (endContrib s x 3 13)
        else if Span.poisoned s dst then .next (endContrib s x 3 11)
        else
          let (m, s) := mergeSite s x dst
          match s.nt.merges.find? (sameMerge m x.part) with
          | none =>
            if siteRoom s x m then .next (mergeInto s x m dst data ⟨m.addr, m.home, m.cluster, x.part, x.fmt, x.len, x.nm1, [], 0, [], []⟩)
            else .next (retryContrib s x m data)
          | some r =>
            if r.nm1 ≠ x.nm1 ∨ r.len ≠ x.len ∨ r.fmt ≠ x.fmt then .next (endContrib s x 3 (8 + 2 * 256))
            else if r.received.contains x.index then .next (endContrib s x 3 (8 + 1 * 256))
            else .next (mergeInto s x m dst data r)

/-! ### Rectangle barriers (R239, R240, R313, R314) -/

/-- The slot of a thread as a barrier register of its slice marks it. -/
def barSlot (t : ThreadId) (sl : SliceId) : Nat := if t.slice = sl then t.ridx else 16 + t.ridx

def putBar (s : State) (c : CoreId) (sl : SliceId) (n : Nat) (b : BarState) : State :=
  s.modCore c fun r => { r with bars := tput r.bars (sl, n) b }

def execBar (h : Hdr) (n : BitVec 2) (s : State) : Host.Outcome State Fault Refusal :=
  issueSeq h (do
    sampleAbort
    let b ← myBar n.toNat
    if !b.v then permTrap 0
    let t ← me; let th ← thr; let c := th.ctl; let gen ← myGen
    if ((← get).core t.core).storeq.any fun e => decide (e.t = t ∧ e.gen = gen ∨ e.id < th.seen) then parkMemory
    let k := barSlot t c.slice
    if b.arrived.contains k then throw (.wait (.barrier n.toNat 1))
    else if b.next.contains k then throw (.wait (.barrier n.toNat 2))
    else if b.arrived.length < b.nthrM1 + 1 then
      modify fun s => putBar s t.core c.slice n.toNat { b with arrived := b.arrived ++ [k] }
      throw (.wait (.barrier n.toNat 1))
    else
      modify fun s => putBar s t.core c.slice n.toNat { b with next := b.next ++ [k] }
      throw (.wait (.barrier n.toNat 2))) s

/-- Whether a rectangle lies in the core group and contains the executing core, and its thread count exists. -/
def rectOk (r : SliceRec) (l x0 wM1 y0 hM1 nthrM1 : Nat) : Bool :=
  decide (r.x0 ≤ x0 ∧ x0 + wM1 < r.x0 + r.width ∧ r.y0 ≤ y0 ∧ y0 + hM1 < r.y0 + r.height ∧
    x0 ≤ coreX l ∧ coreX l ≤ x0 + wM1 ∧ y0 ≤ coreY l ∧ coreY l ≤ y0 + hM1 ∧ nthrM1 < r.nslots)

def execBarset (h : Hdr) (n : BitVec 2) (src : Option Reg) (s : State) : Host.Outcome State Fault Refusal :=
  issueSeq h (do
    let t ← me; let c ← ctl
    match src with
    | none =>
      let b ← myBar n.toNat
      if !b.arrived.isEmpty then parkMessage
      modify fun s => putBar s t.core c.slice n.toNat { b with v := false }
    | some r =>
      let w ← rd1 h (.w r)
      let sl ← mySlice
      let x0 := wfield w 12 4; let wM1 := wfield w 8 4; let y0 := wfield w 4 4; let hM1 := wfield w 0 4; let nthr := wfield w 16 4
      if wfield w 21 35 ≠ 0 then permTrap 0
      let s ← get
      if (placePhys s t.core (16 * y0 + x0)).isNone || (placePhys s t.core (16 * (y0 + hM1) + x0 + wM1)).isNone then permTrap 0
      if !rectOk sl t.core.core x0 wM1 y0 hM1 nthr then permTrap 0
      let b ← myBar n.toNat
      if !b.arrived.isEmpty then parkMessage
      modify fun s => putBar s t.core c.slice n.toNat
        { b with v := true, nthrM1 := nthr, x0 := x0, wM1 := wM1, y0 := y0, hM1 := hM1 }) s

/-- The register of a slice on a core. -/
def barOf (s : State) (i : SliceId) (c : CoreId) (n : Nat) : BarState := tget (s.core c).bars (i, n) .reset

/-- A rectangle as R239 lays it out. -/
def BarState.rect (b : BarState) : Nat := pack [(4, b.hM1), (4, b.y0), (4, b.wM1), (4, b.x0)]

/-- Whether all of this core's threads have arrived, and the arrivals that come in through it: from the east along its row, and in column
X0 from the south. An arrival counts for the rectangle it was sent for (R240). -/
def barComplete (c : CoreId) (b : BarState) : Bool :=
  let x := coreX c.core; let y := coreY c.core
  b.v && decide (b.arrived.length = b.nthrM1 + 1) && (decide (b.x0 + b.wM1 ≤ x) || b.east = some b.rect) &&
  (decide (x ≠ b.x0 ∨ b.y0 + b.hM1 ≤ y) || b.south = some b.rect)

/-- The corner, where the arrivals end and the release begins. -/
def atCorner (c : CoreId) (b : BarState) : Bool := decide (coreX c.core = b.x0 ∧ coreY c.core = b.y0)

/-- A core's arrival reaches the next core toward the corner: west along the row, north in column X0. -/
def sendArrival (s : State) (i : SliceId) (c : CoreId) (n : Nat) (b : BarState) : State :=
  if coreX c.core ≠ b.x0 then
    let d := { c with core := c.core - 1 }
    putBar s d i n { barOf s i d n with east := some b.rect }
  else
    let d := { c with core := c.core - 16 }
    putBar s d i n { barOf s i d n with south := some b.rect }

/-- BARRIER_ARRIVAL_FORWARD: a core signals its arrival toward the corner; the corner's starts the release. -/
def execBarrierArrivalForward (i : SliceId) (c : CoreId) (n : BitVec 2) (s : State) : Host.Outcome State Fault Refusal :=
  let b := barOf s i c n.toNat
  if barComplete c b && !b.forwarded then
    let s := putBar s c i n.toNat { b with forwarded := true, east := none, south := none, due := atCorner c b }
    .next (if atCorner c b then s else sendArrival s i c n.toNat b)
  else .next s

/-- The release goes on to a neighbour inside the rectangle. -/
def passRelease (i : SliceId) (n : Nat) (s : State) (e : CoreId × Bool) : State :=
  if e.2 then putBar s e.1 i n { barOf s i e.1 n with due := true } else s

/-- Whether the instruction at a thread's PC ends a REP body's iteration. -/
def eogAt (s : State) (c : Ctl) : Bool :=
  match codeWord s c.slice.part c.pc with
  | .ok w => w.getLsbD 23
  | .error _ => false

/-- A waiting thread of the register is released once. -/
def releaseThread (i : SliceId) (n : Nat) (s : State) (t : ThreadId) : State :=
  match s.thread? t with
  | none => s
  | some th =>
    match th.phase with
    | .barrier m k =>
      if m ≠ n ∨ th.ctl.slice ≠ i then s
      else if k ≤ 1 then retire t (eogAt s th.ctl) .seq (syncP t s)
      else s.modThread t fun th => { th with phase := .barrier m (k - 1) }
    | _ => s

/-- BARRIER_RELEASE: the release at a core, which starts at the corner once every arrival is there, lets its threads go and goes on along
the reverse path. -/
def execBarrierRelease (i : SliceId) (c : CoreId) (n : BitVec 2) (s : State) : Host.Outcome State Fault Refusal :=
  let b := barOf s i c n.toNat
  let x := coreX c.core; let y := coreY c.core
  if b.due then
    let s := putBar s c i n.toNat { b with gen := (b.gen + 1) % 256, arrived := b.next, next := [], forwarded := false, due := false }
    let s := [({ c with core := c.core + 1 }, decide (x < b.x0 + b.wM1)), ({ c with core := c.core + 16 }, decide (x = b.x0 ∧ y < b.y0 + b.hM1))].foldl
      (passRelease i n.toNat) s
    let here := (s.wk.slots.filter fun e => decide (e.1.core = c)).map (·.1)
    .next (here.foldl (releaseThread i n.toNat) s)
  else .next s

/-! ### Circular-buffer handles (R160, R161, R311, R318) -/

/-- Whether an instruction names a handle in an operand field. -/
def namesHandle (i : Instr) (n : Nat) : Bool :=
  match i.toRaw? with
  | some r => r.form ≠ 5 && (((formWidths r.form).getD []).zip r.f).any fun (w, v) => decide (w = 8 ∧ v = 0x80 + n)
  | none => false

/-- Whether a thread of the slice on the core is parked on the handle. -/
def parkedOnHandle (s : State) (c : CoreId) (i : SliceId) (n : Nat) : Bool :=
  s.wk.slots.any fun (t, r) =>
    match r.thread with
    | some th =>
      decide (t.core = c ∧ th.ctl.slice = i) && th.phase = .parked .message &&
      (match codeWord s i.part th.ctl.pc with
       | .ok w => (match decode w with
         | .ok ins => namesHandle ins n
         | .bad _ => false)
       | .error _ => false)
    | none => false

/-- The subscriptions on a handle. -/
def handleSubs (s : State) (c : CoreId) (i : SliceId) (n : Nat) : List SubRec :=
  s.tl.subs.filter fun x => decide (x.slice = i ∧ x.core = c ∧ x.cb = n)

/-- What forbids a change of a handle's binding. -/
def handleFree (n : Nat) : Exec Unit := do
  let t ← me; let c ← ctl; let s ← get
  if !(handleSubs s t.core c.slice n).isEmpty then permTrap 0
  let held := match ← cbState n with
    | some b => decide (b.nrsv ≠ 0)
    | none => false
  if held || parkedOnHandle s t.core c.slice n then permTrap 0 1

def execCbset (h : Hdr) (cb : Fin 16) (cfg : Option (Reg × BitVec 16)) (s : State) : Host.Outcome State Fault Refusal :=
  issueSeq h (do
    let t ← me; let c ← ctl
    match cfg with
    | none =>
      handleFree cb.val
      modify fun s => s.modCore t.core fun r => { r with cbs := tdel r.cbs (c.slice, cb.val) }
    | some (b, off) =>
      let a := (← rd1 h (.w b)) + off.signExtend 64
      let (x, own) ← orStop (resolveLocal (← get) t.core c.slice a) (.trap (mkTrap 5 a.toNat 0))
      if own ≠ .inl t.core then permTrap a
      if a.toNat % 8 ≠ 0 then alignTrap a
      if (← get).poisoned x 8 then trapAt 11 a.toNat 0
      watchMine x 8 false
      let w := (← get).rd x 8
      let n := field w 42 8 + 1; let sz := field w 30 12; let base := field w 0 23
      let sl ← mySlice
      if field w 50 14 ≠ 0 ∨ field w 23 7 ≠ 0 ∨ sz = 0 ∨ sz > 2048 ∨ base % 16 ≠ 0 ∨ !sl.inData base (n * sz * 16) then permTrap a
      handleFree cb.val
      setCb cb.val ⟨n - 1, sz, base, 0, 0, 0⟩) s

/-- Sets the full bits of slots of a ring. -/
def fillSlots (b : CbState) : (n i : Nat) → Exec Unit
  | 0, _ => pure ()
  | n + 1, i => do
    let a ← dataAddr (b.slotOff i)
    modify fun s => s.fillGranules a (b.slotSz * 16)
    fillSlots b n (i + 1)

def execAdv (h : Hdr) (cb : Fin 16) (n : Src) (prod : Bool) (s : State) : Host.Outcome State Fault Refusal :=
  issueSeq h (do
    let k ← boCount h n
    let b ← cbBound cb.val
    if k > b.slots then permTrap 0
    let t ← me; let c ← ctl
    let subs := handleSubs (← get) t.core c.slice cb.val
    if subs.any fun x => x.wb != prod then permTrap 0
    if !prod then
      if b.filled < k then parkMessage
      claimHold cb.val
      setCb cb.val { b with c := (b.c + k) % 2 ^ 32 }
    else
      if b.room < k then parkMessage
      fillSlots b k b.p
      setCb cb.val { b with p := (b.p + k) % 2 ^ 32 }) s

end Sys2Proof.Machine
end

