-- ==== Sys2Proof/Machine/Float.lean ====
section
/-!
DEFINITION. Sys2Proof/Machine/Float.lean: class 3, binary and rational, and the Q group (R128 to R142, R333 to R339, R388).
-/
namespace Sys2Proof.Machine

/-- The binary format of an FMT qualifier (R333). -/
def fmtQ (fmt : BitVec 2) : Fmt :=
  match fmt.toNat with
  | 0 => fp64
  | 1 => fp32
  | 2 => fp16
  | _ => bf16

/-- The GCD unit holds four operations, and no operation of the thread has yet to write a destination of this one (R141). -/
def gcdReady (dests : List Nat) (gd : Nat) : Exec Unit := do
  let t ← me; let c ← ctl; let s ← get
  if (s.core t.core).gcd.length ≥ 4 || unitBusyFor s t c.wsp dests gd then throw .hold

/-- In rational mode the one assigned FMT is that of FP64: any other is an illegal instruction (R102, R131). -/
def badFormat (i : Instr) (fmt : BitVec 2) (s : State) : Option TrapRec :=
  match s.cur with
  | .thread t =>
    match s.thread? t with
    | some th => if (threadRead s t th.ctl th.ctl.wsp offFpcr 1).testBit 4 && fmt ≠ 0 then some (illegalOf i) else none
    | none => none
  | _ => none

def enterGcd (regs : List (Nat × Word)) (guard : Option (Nat × Bool)) (flags : Nat) : Exec Unit := do
  let t ← me; let c ← ctl
  gcdReady (regs.map (·.1)) ((guard.map (·.1)).getD 0)
  let id ← newOp
  modify fun s => s.modCore t.core fun r => { r with gcd := r.gcd ++ [⟨id, t, c.slice, c.wsp, regs, guard, flags, t.core.pkg⟩] }

/-- The check of a slash64 operand's K (R132). -/
def checkK (o : Opnd) (x : Word) : Exec Unit := do
  if slashK x.toNat ≥ 57 then trapAt 19 0 (o.code + slashK x.toNat * 256)

def checkKs : List (Opnd × Word) → Exec Unit
  | [] => pure ()
  | (o, x) :: r => do checkK o x; checkKs r

/-- QR of the operands (R133). -/
def qrAll (l : List (Opnd × Word)) : Nat := l.foldl (fun f x => f ||| qrOf x.2.toNat) 0

/-- A rational instruction enters the GCD unit (R132, R134, R141). -/
def rationalOp (d : Reg) (l : List (Opnd × Word)) (f : List QV → FRes) : Exec Unit := do
  gcdReady [d.val] 0
  checkKs l
  let r := f (l.map fun x => slashValue x.2.toNat)
  enterGcd [(d.val, BitVec.ofNat 64 r.bits)] none (r.flags ||| qrAll l)

/-- Reads sources in field order. -/
def rdAll (h : Hdr) : List Opnd → Exec (List (Opnd × Word))
  | [] => pure []
  | o :: r => do
    let x ← rdOpnd h o
    let rest ← rdAll h r
    return (o, x) :: rest

/-- How an instruction of the group runs in each mode (R131). `slow` instructions use the divider in binary mode (R330). -/
def floatOp (i : Instr) (h : Hdr) (d : Reg) (srcs : List Opnd) (fmt : BitVec 2) (slow : Bool)
    (bin : Captured → Fmt → List Nat → FRes) (rat : Captured → List QV → FRes) (s : State) : Host.Outcome State Fault Refusal :=
  issueCheck (badFormat i fmt s) h (do
    let c ← capture
    waitOpnds h srcs []
    let l ← rdAll h srcs
    if c.qmode then rationalOp d l (rat c)
    else
      let f := fmtQ fmt
      let r := bin c f (l.map fun x => x.2.toNat % 2 ^ f.bits)
      if slow then enterDiv [(d.val, BitVec.ofNat 64 r.bits)] none r.flags
      else
        wrReg d (BitVec.ofNat 64 r.bits)
        raiseFlags r.flags
    return .seq) s

/-- A binary operation on the first operands of a list. -/
def on1 (f : Nat → FRes) : List Nat → FRes
  | x :: _ => f x
  | _ => ⟨0, 0⟩
def on2 (f : Nat → Nat → FRes) : List Nat → FRes
  | x :: y :: _ => f x y
  | _ => ⟨0, 0⟩
def on3 (f : Nat → Nat → Nat → FRes) : List Nat → FRes
  | x :: y :: z :: _ => f x y z
  | _ => ⟨0, 0⟩
def onQ1 (f : QV → FRes) : List QV → FRes
  | x :: _ => f x
  | _ => ⟨0, 0⟩
def onQ2 (f : QV → QV → FRes) : List QV → FRes
  | x :: y :: _ => f x y
  | _ => ⟨0, 0⟩
def onQ3 (f : QV → QV → QV → FRes) : List QV → FRes
  | x :: y :: z :: _ => f x y z
  | _ => ⟨0, 0⟩

def execFadd (h : Hdr) (d : Reg) (a b : Opnd) (fmt : BitVec 2) (s : State) :=
  floatOp (.fadd h d a b fmt) h d [a, b] fmt false (fun c f => on2 (addF c f)) (fun c => onQ2 (addQV c)) s
def execFsub (h : Hdr) (d : Reg) (a b : Opnd) (fmt : BitVec 2) (s : State) :=
  floatOp (.fsub h d a b fmt) h d [a, b] fmt false (fun c f => on2 (subF c f)) (fun c => onQ2 fun x y => addQV c x y.neg) s
def execFmul (h : Hdr) (d : Reg) (a b : Opnd) (fmt : BitVec 2) (s : State) :=
  floatOp (.fmul h d a b fmt) h d [a, b] fmt false (fun c f => on2 (mulF c f)) (fun c => onQ2 (mulQV c)) s
def execFdiv (h : Hdr) (d : Reg) (a b : Opnd) (fmt : BitVec 2) (s : State) :=
  floatOp (.fdiv h d a b fmt) h d [a, b] fmt true (fun c f => on2 (divF c f)) (fun c => onQ2 (divQV c)) s
def execFma (h : Hdr) (d : Reg) (a b c : Opnd) (fmt : BitVec 2) (s : State) :=
  floatOp (.fma h d a b c fmt) h d [a, b, c] fmt false (fun k f => on3 (fmaF k f)) (fun k => onQ3 (fmaQV k)) s
def execFsqrt (h : Hdr) (d : Reg) (a : Opnd) (fmt : BitVec 2) (s : State) :=
  floatOp (.fsqrt h d a fmt) h d [a] fmt true (fun c f => on1 (sqrtF c f)) (fun c => onQ1 (sqrtQV c)) s
def execFmin (h : Hdr) (d : Reg) (a b : Opnd) (fmt : BitVec 2) (s : State) :=
  floatOp (.fmin h d a b fmt) h d [a, b] fmt false (fun c f => on2 (minMaxF false c f)) (fun _ => onQ2 (minMaxQV false)) s
def execFmax (h : Hdr) (d : Reg) (a b : Opnd) (fmt : BitVec 2) (s : State) :=
  floatOp (.fmax h d a b fmt) h d [a, b] fmt false (fun c f => on2 (minMaxF true c f)) (fun _ => onQ2 (minMaxQV true)) s

/-- FCMP's condition from an order, or none when unordered (R335). -/
def fcmpHolds (cond : Nat) (o : Option Ordering) : Bool :=
  match cond, o with
  | 0, some .eq => true
  | 1, some .eq => false
  | 1, _ => true
  | 2, some .lt => true
  | 3, some .lt => true
  | 3, some .eq => true
  | 4, some .gt => true
  | 5, some .gt => true
  | 5, some .eq => true
  | 6, none => true
  | 7, some _ => true
  | _, _ => false

/-- The binary comparison: its order and its flags. -/
def fcmpBin (c : Captured) (f : Fmt) (cond x y : Nat) : Option Ordering × Nat :=
  let (a, i) := readF c f x; let (b, j) := readF c f y
  let nan := a.isNaN || b.isNaN
  let nv := a.isSNaN || b.isSNaN || (nan && decide (2 ≤ cond ∧ cond ≤ 5))
  (if nan then none else some (cmpFV a b), (if nv then fNV else 0) ||| i ||| j)

def fcmpRat (a b : QV) : Option Ordering :=
  match a, b with
  | .ind, _ => none
  | _, .ind => none
  | a, b => some (cmpQV a b)

def execFcmp (h : Hdr) (gd : BitVec 3) (a b : Opnd) (fmt : BitVec 2) (cond : BitVec 4) (s : State) : Host.Outcome State Fault Refusal :=
  issueCheck (badFormat (.fcmp h gd a b fmt cond) fmt s) h (do
    let c ← capture
    let (x, y) ← rd2 h a (.op b)
    if c.qmode then
      gcdReady [] gd.toNat
      checkKs [(a, x), (b, y)]
      let o := fcmpRat (slashValue x.toNat) (slashValue y.toNat)
      enterGcd [] (some (gd.toNat, fcmpHolds cond.toNat o)) (qrAll [(a, x), (b, y)])
    else
      let f := fmtQ fmt
      let (o, fl) := fcmpBin c f cond.toNat (x.toNat % 2 ^ f.bits) (y.toNat % 2 ^ f.bits)
      setGuard gd (fcmpHolds cond.toNat o)
      raiseFlags fl
    return .seq) s

/-- FCLASS of a binary encoding (R336). -/
def classBin (f : Fmt) (x : Nat) : Nat :=
  let s := x.testBit (f.bits - 1)
  match decodeF f x with
  | .nan _ _ q => if q then 2 ^ 9 else 2 ^ 8
  | .inf s => if s then 1 else 2 ^ 7
  | .fin _ m _ =>
    if m = 0 then (if s then 2 ^ 3 else 2 ^ 4)
    else if isSubnormal f x then (if s then 2 ^ 2 else 2 ^ 5)
    else if s then 2 else 2 ^ 6

/-- FCLASS of a slash64 word. -/
def classRat (x : Nat) : Nat :=
  (match slashValue x with
   | .ind => 2 ^ 9
   | .inf s => if s then 1 else 2 ^ 7
   | .fin s n _ => if n = 0 then (if s then 2 ^ 3 else 2 ^ 4) else if s then 2 else 2 ^ 6) + (if slashLoose x then 2 ^ 10 else 0)

def execFclass (h : Hdr) (d : Reg) (a : Opnd) (fmt : BitVec 2) (s : State) : Host.Outcome State Fault Refusal :=
  issueCheck (badFormat (.fclass h d a fmt) fmt s) h (do
    let c ← capture
    let x ← rd1 h a
    if c.qmode then
      gcdReady [d.val] 0
      checkK a x
      enterGcd [(d.val, BitVec.ofNat 64 (classRat x.toNat))] none (qrOf x.toNat)
    else wrReg d (BitVec.ofNat 64 (classBin (fmtQ fmt) (x.toNat % 2 ^ (fmtQ fmt).bits)))
    return .seq) s

/-- FSGN's sign (R337). -/
def signOp (op : Nat) (x y : Bool) : Bool :=
  match op with
  | 0 => y
  | 1 => !x
  | 2 => false
  | _ => x != y

/-- FSGN on the low n bits. -/
def fsgnW (op n : Nat) (x y : Word) : Word :=
  BitVec.ofNat 64 (x.toNat % 2 ^ (n - 1) + bit (signOp op (x.toNat.testBit (n - 1)) (y.toNat.testBit (n - 1))) * 2 ^ (n - 1))

def execFsgn (h : Hdr) (d : Reg) (a b : Opnd) (op fmt : BitVec 2) (s : State) : Host.Outcome State Fault Refusal :=
  issueCheck (badFormat (.fsgn h d a b op fmt) fmt s) h (do
    let c ← capture
    let two := op = 0 ∨ op = 3
    let (x, y) ← if two then rd2 h a (.op b) else do
      let x ← rd1 h a
      pure (x, x)
    if c.qmode then enterGcd [(d.val, fsgnW op.toNat 64 x y)] none 0
    else wrReg d (fsgnW op.toNat (fmtQ fmt).bits x y)
    return .seq) s

/-- A conversion between binary formats and 64-bit integers (R124, R338). -/
def convertF (c : Captured) (src dst : Nat) (x : Nat) : FRes :=
  let f? : Nat → Option Fmt := fun n => if n < 4 then some (fmtQ (BitVec.ofNat 2 n)) else none
  match f? src, f? dst with
  | some g, some f =>
    let (v, i) := readF c g (x % 2 ^ g.bits)
    let r := scaleToF c g f v oneF
    ⟨r.bits, r.flags ||| i⟩
  | some g, none =>
    let (v, i) := readF c g (x % 2 ^ g.bits)
    let r := toIntF c (dst = 4) 64 v
    ⟨r.bits, r.flags ||| i⟩
  | none, some f =>
    match intFV (src = 4) 64 x with
    | .fin s m e => roundC c f s m e
    | _ => ⟨0, 0⟩
  | none, none => ⟨x, 0⟩

/-- A conversion that names slash64 (R139). -/
def convertQ (c : Captured) (src dst : Nat) (x : Nat) : FRes :=
  if src = 6 then
    if dst < 4 then fromSlashF c (fmtQ (BitVec.ofNat 2 dst)) x else fromSlashInt c (dst = 4) x
  else if src < 4 then
    let g := fmtQ (BitVec.ofNat 2 src)
    toSlashF c g (x % 2 ^ g.bits)
  else deliverFrac c (if src = 4 then signed x 64 else ((x % 2 ^ 64 : Nat) : Int)) 1 false

def execFcvt (h : Hdr) (d : Reg) (a : Opnd) (src dst : BitVec 4) (s : State) : Host.Outcome State Fault Refusal :=
  issueSeq h (do
    let c ← capture
    let x ← rd1 h a
    if src = 6 ∨ dst = 6 then
      gcdReady [d.val] 0
      if src = 6 then checkK a x
      let r := convertQ c src.toNat dst.toNat x.toNat
      enterGcd [(d.val, BitVec.ofNat 64 r.bits)] none r.flags
    else
      let r := convertF c src.toNat dst.toNat x.toNat
      wrReg d (BitVec.ofNat 64 r.bits)
      raiseFlags r.flags) s

/-! ### The Q group (R140, R388) -/

def execQmake (h : Hdr) (d : Reg) (n m : Opnd) (sgn : Bool) (s : State) : Host.Outcome State Fault Refusal :=
  issueSeq h (do
    let c ← capture
    let (x, y) ← rd2 h n (.op m)
    gcdReady [d.val] 0
    let r := makeQ c (valOf sgn 64 x) (valOf sgn 64 y)
    enterGcd [(d.val, BitVec.ofNat 64 r.bits)] none r.flags) s

/-- A Q-group instruction with one slash64 source. -/
def qUnary (h : Hdr) (d : Reg) (a : Opnd) (f : QV → Word) (s : State) : Host.Outcome State Fault Refusal :=
  issueSeq h (do
    let x ← rd1 h a
    gcdReady [d.val] 0
    checkK a x
    enterGcd [(d.val, f (slashValue x.toNat))] none (qrOf x.toNat)) s

def qnumW : QV → Word
  | .ind => 0
  | .inf s => BitVec.ofInt 64 (sgnd s 1)
  | .fin s n _ => BitVec.ofInt 64 (sgnd s n)

def qdenW : QV → Word
  | .ind => 0
  | .inf _ => 0
  | .fin _ _ d => BitVec.ofNat 64 d

def execQnum (h : Hdr) (d : Reg) (a : Opnd) (s : State) := qUnary h d a qnumW s
def execQden (h : Hdr) (d : Reg) (a : Opnd) (s : State) := qUnary h d a qdenW s

/-- One continued-fraction step: integer part, reciprocal of the fraction, guard and flags (R140). -/
def qcfStep : QV → Word × Word × Bool × Nat
  | .fin s n d =>
    let a := n / d
    let r := n % d
    (BitVec.ofInt 64 (sgnd s a), BitVec.ofNat 64 (if r = 0 then slashWord (.inf false) else slashFin s d r), decide (r = 0), 0)
  | _ => (0, 0, true, fNV)

def execQcf (h : Hdr) (gd : BitVec 3) (d1 d2 : Reg) (a : Opnd) (s : State) : Host.Outcome State Fault Refusal :=
  issueSeq h (do
    let x ← rd1 h a
    gcdReady [d1.val, d2.val] gd.toNat
    checkK a x
    let (i, r, g, fl) := qcfStep (slashValue x.toNat)
    enterGcd [(d1.val, i), (d2.val, r)] (some (gd.toNat, g)) (fl ||| qrOf x.toNat)) s

end Sys2Proof.Machine
end

