-- ==== Sys2Proof/Machine/Vector.lean ====
section
/-!
DEFINITION. Sys2Proof/Machine/Vector.lean: class 10 (R401 to R407), VCVT (R411), VCB (R412), the functions of R220 and the trees of R126.
-/
namespace Sys2Proof.Machine

/-! ### Lanes, masks and sources -/

/-- The lane width of a tag: bytes for RAW and the reserved codes (R403). -/
def laneW (tag : Nat) : Nat := if tagBits tag = 0 then 8 else tagBits tag
def laneCount (w : Nat) : Nat := 2048 / w
def lane (x w j : Nat) : Nat := field x (w * j) w
/-- A register whose lane j is f j. -/
def packLanes (w : Nat) (f : Nat → Nat) : Nat := pack ((List.range (laneCount w)).map fun j => (w, f j))

/-- The mask of an instruction, none when it is not masked. -/
def maskOf (m : VMask) : Exec (Option Nat) := do
  if m.on then return some (← mBits m.reg.val) else return none

/-- mask_bit(m, j) at lane width w (R90). -/
def maskBit (m w j : Nat) : Bool := m.testBit (if w = 4 then j / 2 else j)

def laneOn (mk : Option Nat) (w j : Nat) : Bool :=
  match mk with
  | none => true
  | some m => maskBit m w j

/-- The v registers among sources, renamed: operand code and tag, in field order. -/
def vecTags : List Src → Exec (List (Nat × Nat))
  | [] => pure []
  | .op (.v n) :: r => do
    let k ← renV n.val
    let t ← vTag k
    return (0x40 + k, t) :: (← vecTags r)
  | _ :: r => vecTags r

def headTag (l : List (Nat × Nat)) : Nat := (l.head?.map (·.2)).getD 0

/-- All v sources carry one tag of a set (R115, R403). -/
def checkTags (ok : Nat → Bool) (first : Nat) : List (Nat × Nat) → Exec Unit
  | [] => pure ()
  | (c, t) :: r => do
    if !ok t || t ≠ first then tagTrap c t
    checkTags ok first r

def Src.isImm : Src → Bool
  | .op _ => false
  | _ => true

/-- The 2,048 bits of a source at lane width w: a constant or an immediate fills every lane. -/
def vecSrc (w : Nat) : Src → Exec Nat
  | .op (.v n) => do vBits (← renV n.val)
  | .op .ones => pure (2 ^ 2048 - 1)
  | .op .lane => pure (packLanes w fun j => j % 2 ^ w)
  | .op _ => pure 0
  | .imm16 i => pure (packLanes w fun _ => (i.signExtend 64).toNat % 2 ^ w)
  | .imm32 i => pure (packLanes w fun _ => (i.signExtend 64).toNat % 2 ^ w)

def vecSrcs (w : Nat) : List Src → Exec (List Nat)
  | [] => pure []
  | x :: r => do
    let v ← vecSrc w x
    return v :: (← vecSrcs w r)

/-- Writes lanes of d: a masked instruction keeps the bits of the others, and d takes the tag (R402, R115). -/
def wrLanes (d : VReg) (w tag : Nat) (mk : Option Nat) (f : Nat → Nat) : Exec Unit := do
  let k ← renV d.val
  match mk with
  | none => wrV k (packLanes w f) tag
  | some m =>
    let old ← vBits k
    wrV k (packLanes w fun j => if maskBit m w j then f j else lane old w j) tag

def isFloatTag (t : Nat) : Bool := (fmtOf t).isSome
def isNumTag (t : Nat) : Bool := isFloatTag t || isIntTag t

/-- Tags of an element-wise instruction: a Float tag takes no immediate (R403). -/
def arithTag (ok : Nat → Bool) (srcs : List Src) : Exec Nat := do
  let l ← vecTags srcs
  checkTags ok (headTag l) l
  if isFloatTag (headTag l) && srcs.any Src.isImm then tagTrap ((l.head?.map (·.1)).getD 0) (headTag l)
  return headTag l

/-- An element-wise instruction (R402): `f` gives lane j from the tag and the sources' lanes. -/
def elementwise (h : Hdr) (d : VReg) (srcs : List Src) (m : VMask) (tag : Exec Nat) (f : Captured → Nat → List Nat → Nat) (s : State) :
    Host.Outcome State Fault Refusal :=
  issueSeq h (do
    let t ← tag
    let c ← capture
    let w := laneW t
    let mk ← maskOf m
    let xs ← vecSrcs w srcs
    wrLanes d w t mk fun j => f c t (xs.map fun x => lane x w j)) s

/-! ### Lane arithmetic -/

def laneInt (sgn : Bool) (w x : Nat) : Int := if sgn then signed x w else (x : Int)

/-- An integer lane's result: it wraps, or saturates by SGN (R402). -/
def laneRes (sgn sat : Bool) (w : Nat) (r : Int) : Nat := if sat then (satInt sgn w r).1 else wrap w r

/-- The first, second and third of a lane's operands. -/
def arg (l : List Nat) (k : Nat) : Nat := (l[k]?).getD 0

/-- A lane of a Float or an Int tag. -/
def numLane (ff : Captured → Fmt → List Nat → Nat) (fi : Nat → List Nat → Nat) (c : Captured) (t : Nat) (l : List Nat) : Nat :=
  match fmtOf t with
  | some f => ff c f l
  | none => fi (laneW t) l

/-- .sat with a Float tag is illegal (R403). -/
def satTag (bad : TrapRec) (sat : Bool) (srcs : List Src) : Exec Nat := do
  if sat && isFloatTag (headTag (← vecTags srcs)) then throw (.trap bad)
  arithTag isNumTag srcs

/-- The two-operand integer lane. -/
def intLane2 (sgn sat : Bool) (g : Int → Int → Int) (w : Nat) (l : List Nat) : Nat :=
  laneRes sgn sat w (g (laneInt sgn w (arg l 0)) (laneInt sgn w (arg l 1)))

def execVabs (h : Hdr) (d : VReg) (a : Opnd) (m : VMask) (sgn sat : Bool) (s : State) :=
  elementwise h d [.op a] m (satTag (illegalOf (.vabs h d a m sgn sat)) sat [.op a])
    (numLane (fun _ f l => arg l 0 % 2 ^ (f.bits - 1)) fun w l => laneRes sgn sat w (laneInt sgn w (arg l 0)).natAbs) s

def execVneg (h : Hdr) (d : VReg) (a : Opnd) (m : VMask) (sgn sat : Bool) (s : State) :=
  elementwise h d [.op a] m (satTag (illegalOf (.vneg h d a m sgn sat)) sat [.op a])
    (numLane (fun _ f l => arg l 0 ^^^ 2 ^ (f.bits - 1)) fun w l => laneRes sgn sat w (-laneInt sgn w (arg l 0))) s

def execVadd (h : Hdr) (d : VReg) (a : Opnd) (b : Src) (m : VMask) (sgn sat : Bool) (s : State) :=
  elementwise h d [.op a, b] m (satTag (illegalOf (.vadd h d a b m sgn sat)) sat [.op a, b])
    (numLane (fun c f l => (addF c f (arg l 0) (arg l 1)).bits) (intLane2 sgn sat (· + ·))) s

def execVsub (h : Hdr) (d : VReg) (a : Opnd) (b : Src) (m : VMask) (sgn sat : Bool) (s : State) :=
  elementwise h d [.op a, b] m (satTag (illegalOf (.vsub h d a b m sgn sat)) sat [.op a, b])
    (numLane (fun c f l => (subF c f (arg l 0) (arg l 1)).bits) (intLane2 sgn sat (· - ·))) s

def execVmul (h : Hdr) (d : VReg) (a : Opnd) (b : Src) (m : VMask) (sgn sat : Bool) (s : State) :=
  elementwise h d [.op a, b] m (satTag (illegalOf (.vmul h d a b m sgn sat)) sat [.op a, b])
    (numLane (fun c f l => (mulF c f (arg l 0) (arg l 1)).bits) (intLane2 sgn sat (· * ·))) s

def execVfma (h : Hdr) (d : VReg) (a b x : Opnd) (m : VMask) (sgn sat : Bool) (s : State) :=
  elementwise h d [.op a, .op b, .op x] m (satTag (illegalOf (.vfma h d a b x m sgn sat)) sat [.op a, .op b, .op x])
    (numLane (fun c f l => (fmaF c f (arg l 0) (arg l 1) (arg l 2)).bits) fun w l =>
      laneRes sgn sat w (laneInt sgn w (arg l 0) * laneInt sgn w (arg l 1) + laneInt sgn w (arg l 2))) s

def execVmax (h : Hdr) (d : VReg) (a : Opnd) (b : Src) (m : VMask) (sgn : Bool) (s : State) :=
  elementwise h d [.op a, b] m (arithTag isNumTag [.op a, b])
    (numLane (fun c f l => (minMaxF true c f (arg l 0) (arg l 1)).bits) (intLane2 sgn false max)) s

def execVmin (h : Hdr) (d : VReg) (a : Opnd) (b : Src) (m : VMask) (sgn : Bool) (s : State) :=
  elementwise h d [.op a, b] m (arithTag isNumTag [.op a, b])
    (numLane (fun c f l => (minMaxF false c f (arg l 0) (arg l 1)).bits) (intLane2 sgn false min)) s

/-- The tag-blind instructions take the tag of the first v register (R403, R405). -/
def blindTag (srcs : List Src) : Exec Nat := do return headTag (← vecTags srcs)

def bitwiseLane (f : Nat → Nat → Nat) (_ : Captured) (_ : Nat) (l : List Nat) : Nat := f (arg l 0) (arg l 1)

def execVand (h : Hdr) (d : VReg) (a : Opnd) (b : Src) (m : VMask) (s : State) :=
  elementwise h d [.op a, b] m (blindTag [.op a, b]) (bitwiseLane (· &&& ·)) s
def execVor (h : Hdr) (d : VReg) (a : Opnd) (b : Src) (m : VMask) (s : State) :=
  elementwise h d [.op a, b] m (blindTag [.op a, b]) (bitwiseLane (· ||| ·)) s
def execVxor (h : Hdr) (d : VReg) (a : Opnd) (b : Src) (m : VMask) (s : State) :=
  elementwise h d [.op a, b] m (blindTag [.op a, b]) (bitwiseLane (· ^^^ ·)) s

/-- A shift of a lane by k (R395, R407). -/
def shlLane (w x k : Nat) : Nat := if k ≥ w then 0 else x * 2 ^ k % 2 ^ w
def shrLane (sgn : Bool) (w x k : Nat) : Nat :=
  if sgn then wrap w (laneInt true w x / 2 ^ min k w) else if k ≥ w then 0 else x / 2 ^ k

/-- The shift count: b's lane, or the low byte of an immediate. -/
def shiftCount (b : Src) (l : List Nat) : Nat :=
  match b with
  | .imm16 i => i.toNat % 256
  | _ => arg l 1

def execVshl (h : Hdr) (d : VReg) (a : Opnd) (b : Src) (m : VMask) (_sgn : Bool) (s : State) :=
  elementwise h d [.op a, b] m (arithTag isIntTag [.op a, b]) (fun _ t l => shlLane (laneW t) (arg l 0) (shiftCount b l)) s

def execVshr (h : Hdr) (d : VReg) (a : Opnd) (b : Src) (m : VMask) (sgn : Bool) (s : State) :=
  elementwise h d [.op a, b] m (arithTag isIntTag [.op a, b]) (fun _ t l => shrLane sgn (laneW t) (arg l 0) (shiftCount b l)) s

/-! ### VEXP, VLOG, VRCP and VRSQ (R220) -/

/-- An exact value is carried as an integer over 2^128. -/
def apxFrac : Nat := 128
/-- ln 2 over 2^128. -/
def ln2Fix : Nat := 235865763225513294137944142764154484399

/-- The terms of e^r from the k-th on: the last is `t`. -/
def expTail (r : Nat) : (fuel : Nat) → (k t : Nat) → Nat
  | 0, _, t => t
  | n + 1, k, t => t + expTail r n (k + 1) (t * r / 2 ^ apxFrac / k)

/-- e^(x / 2^128) as E × 2^(e − 128). -/
def expFix (x : Int) : Nat × Int :=
  let k := x / (ln2Fix : Int)
  let r := (x - k * ln2Fix).toNat
  (expTail r 45 1 (2 ^ apxFrac), k - apxFrac)

/-- The terms of 2 atanh z from z^k on, with z² = q. -/
def atanhTail (q : Nat) : (fuel : Nat) → (k t : Nat) → Nat
  | 0, _, _ => 0
  | n + 1, k, t => 2 * t / k + atanhTail q n (k + 2) (t * q / 2 ^ apxFrac)

/-- ln(m × 2^e) over 2^128, for m > 0. -/
def logFix (m : Nat) (e : Int) : Int :=
  let l := Nat.log2 m
  let z := (m - 2 ^ l) * 2 ^ apxFrac / (m + 2 ^ l)
  (atanhTail (z * z / 2 ^ apxFrac) 45 1 z : Int) + (e + l) * ln2Fix

/-- m × 2^e over 2^k, rounded down in magnitude. -/
def scaleTo (k : Int) (m : Int) (e : Int) : Int := if 0 ≤ e + k then m * 2 ^ (e + k).toNat else m / 2 ^ (-(e + k)).toNat

/-- Whether |m × 2^e − v × 2^g| is at most t × 2^u, with an allowance of 2^16 units of v for its own error. -/
def withinTol (m : Int) (e : Int) (v : Int) (g : Int) (t : Nat) (u : Int) : Bool :=
  let lo := min (min e g) u
  decide ((m * 2 ^ (e - lo).toNat - v * 2 ^ (g - lo).toNat).natAbs ≤ t * 2 ^ (u - lo).toNat + 2 ^ 16 * 2 ^ (g - lo).toNat)

/-- The result near the exact value v × 2^g: the device's choice among the FP32 values, unbounded above, within the tolerance t × 2^u,
which the model leaves free; it is then rounded into the lane's format. -/
def approxRes (c : Captured) (f : Fmt) (fn x : Nat) (v : Int) (g : Int) (t : Nat) (u : Int) : Nat :=
  let pick := Config.approxPick fn x c.fpcr
  let m := pick / 2 % 2 ^ 24
  let e : Int := pick / 2 ^ 25 - 149
  let neg := pick % 2 = 1
  let q := max ((Nat.log2 v.natAbs : Int) + g - 23) (-149)
  if withinTol (sgnd neg m) e v g t u then (roundC c f neg m e).bits
  else
    let n := (scaleTo (-q) v.natAbs g).toNat
    (roundC c f (decide (v < 0)) n q).bits

/-- An ULP of FP32 at v × 2^g. -/
def ulpExp (v : Nat) (g : Int) : Int := max ((Nat.log2 v : Int) + g - 23) (-149)

/-- What a NaN gives. -/
def nanLane (c : Captured) (f : Fmt) (s : Bool) (frac : Nat) (quiet : Bool) : Nat := if quiet then propNaN c f f s frac else defaultNaN f

/-- A magnitude above which e^x overflows every format, and below whose negative it is under every subnormal. -/
def expClamp (x : Int) : Int := max (min x (200 * 2 ^ apxFrac)) (-(200 * 2 ^ apxFrac))

def expLane (c : Captured) (f : Fmt) (x : Nat) : Nat :=
  match (readF c f x).1 with
  | .nan s fr q => nanLane c f s fr q
  | .inf s => if s then 0 else infF f false
  | .fin s m e =>
    let (v, g) := expFix (expClamp (scaleTo apxFrac (sgnd s m) (min e 16)))
    approxRes c f 0 x v g 2 (ulpExp v g)

def logLane (c : Captured) (f : Fmt) (x : Nat) : Nat :=
  match (readF c f x).1 with
  | .nan s fr q => nanLane c f s fr q
  | .inf s => if s then defaultNaN f else infF f false
  | .fin s m e =>
    if m = 0 then infF f true
    else if s then defaultNaN f
    else
      let v := logFix m e
      if v = 0 then 0
      else if -(ln2Fix : Int) ≤ v ∧ v ≤ ln2Fix then approxRes c f 1 x v (-apxFrac) 1 (-22)
      else approxRes c f 1 x v (-apxFrac) 2 (ulpExp v.natAbs (-apxFrac))

def rcpLane (c : Captured) (f : Fmt) (x : Nat) : Nat :=
  match (readF c f x).1 with
  | .nan s fr q => nanLane c f s fr q
  | .inf s => zeroF f s
  | .fin s m e =>
    if m = 0 then infF f s
    else
      let k := apxFrac + Nat.log2 m
      let v := 2 ^ k / m
      let g := -(k : Int) - e
      approxRes c f 2 x (sgnd s v) g 1 (ulpExp v g)

def rsqLane (c : Captured) (f : Fmt) (x : Nat) : Nat :=
  match (readF c f x).1 with
  | .nan s fr q => nanLane c f s fr q
  | .inf s => if s then defaultNaN f else 0
  | .fin s m e =>
    if m = 0 then infF f s
    else if s then defaultNaN f
    else
      let odd := (e % 2).toNat
      let k := apxFrac + Nat.log2 m
      let v := isqrt (2 ^ (2 * k) / (m * 2 ^ odd))
      let g := -(k : Int) - (e - odd) / 2
      approxRes c f 3 x v g 1 (ulpExp v g)

/-- The tags of R220. -/
def isApxTag (t : Nat) : Bool := t = 1 || t = 2 || t = 3

def apxOp (h : Hdr) (d : VReg) (a : Opnd) (m : VMask) (f : Captured → Fmt → Nat → Nat) (s : State) : Host.Outcome State Fault Refusal :=
  elementwise h d [.op a] m (arithTag isApxTag [.op a]) (numLane (fun c g l => f c g (arg l 0)) fun _ _ => 0) s

def execVexp (h : Hdr) (d : VReg) (a : Opnd) (m : VMask) (s : State) := apxOp h d a m expLane s
def execVlog (h : Hdr) (d : VReg) (a : Opnd) (m : VMask) (s : State) := apxOp h d a m logLane s
def execVrcp (h : Hdr) (d : VReg) (a : Opnd) (m : VMask) (s : State) := apxOp h d a m rcpLane s
def execVrsq (h : Hdr) (d : VReg) (a : Opnd) (m : VMask) (s : State) := apxOp h d a m rsqLane s

/-! ### VCMP (R404) -/

/-- The order of two lanes: none where a NaN makes them unordered. -/
def laneOrder (c : Captured) (sgn : Bool) (t x y : Nat) : Option Ordering :=
  match fmtOf t with
  | some f => (fcmpBin c f 0 x y).1
  | none => some (compare (laneInt sgn (laneW t) x) (laneInt sgn (laneW t) y))

def isCmpTag (t : Nat) : Bool := isNumTag t && t != 8

/-- n bits, bit j being f j. -/
def packBits (n : Nat) (f : Nat → Bool) : Nat := pack ((List.range n).map fun j => (1, bit (f j)))

def execVcmp (h : Hdr) (d : Fin 8) (a : Opnd) (b : Src) (m : VMask) (sgn : Bool) (cond : BitVec 4) (s : State) :
    Host.Outcome State Fault Refusal :=
  issueSeq h (do
    let t ← arithTag isCmpTag [.op a, b]
    let c ← capture
    let w := laneW t
    let mk ← maskOf m
    let xs ← vecSrcs w [.op a, b]
    let res := fun j => fcmpHolds cond.toNat (laneOrder c sgn t (lane (arg xs 0) w j) (lane (arg xs 1) w j))
    match mk with
    | none => wrM d.val (packBits (laneCount w) res)
    | some k =>
      let old ← mBits d.val
      wrM d.val (packBits 256 fun j => if j < laneCount w && maskBit k w j then res j else old.testBit j)) s

/-! ### VSEL, VPERM and VBCAST (R405) -/

/-- The tag of O2, or of the first v register where O2 is a constant. -/
def execVsel (h : Hdr) (d : VReg) (a b : Opnd) (sm : Fin 8) (s : State) : Host.Outcome State Fault Refusal :=
  issueSeq h (do
    let t ← blindTag [.op a, .op b]
    let w := laneW t
    let k ← mBits sm.val
    let xs ← vecSrcs w [.op a, .op b]
    wrLanes d w t none fun j => if maskBit k w j then lane (arg xs 0) w j else lane (arg xs 1) w j) s

def execVperm (h : Hdr) (d : VReg) (a i : Opnd) (m : VMask) (s : State) : Host.Outcome State Fault Refusal :=
  issueSeq h (do
    let l ← vecTags [.op a, .op i]
    let t := headTag l
    if tagBits t = 4 then tagTrap ((l.head?.map (·.1)).getD 0) t
    let w := laneW t
    let mk ← maskOf m
    let xs ← vecSrcs w [.op a, .op i]
    wrLanes d w t mk fun j => lane (arg xs 0) w (lane (arg xs 1) w j % laneCount w)) s

def execVbcast (h : Hdr) (d : VReg) (x : Src) (m : VMask) (fmt : BitVec 4) (s : State) : Host.Outcome State Fault Refusal :=
  issueSeq h (do
    chkSrc x
    let v ← rdSrc h x
    let w := laneW fmt.toNat
    let mk ← maskOf m
    wrLanes d w fmt.toNat mk fun _ => v.toNat % 2 ^ w) s

/-! ### VSUM and VMAXR (R406) -/

/-- One level of the tree of R126: an absent lane passes its partner's value up (R219). -/
def treeLevel (f : Nat → Nat → Nat) : List (Option Nat) → List (Option Nat)
  | some x :: some y :: r => some (f x y) :: treeLevel f r
  | some x :: none :: r => some x :: treeLevel f r
  | none :: y :: r => y :: treeLevel f r
  | l => l

def treeUp (f : Nat → Nat → Nat) : (levels : Nat) → List (Option Nat) → Option Nat
  | 0, l => l.head?.join
  | n + 1, l => treeUp f n (treeLevel f l)

/-- The lanes of a register, absent where the mask is 0. -/
def presentLanes (mk : Option Nat) (w x : Nat) : List (Option Nat) :=
  (List.range (laneCount w)).map fun j => if laneOn mk w j then some (lane x w j) else none

/-- A reduction: the tree for Float tags, and an integer fold over the lanes present for Int tags. -/
def reduction (h : Hdr) (d : Reg) (a : VReg) (m : VMask) (ff : Captured → Fmt → Nat → Nat → Nat) (none' : Fmt → Nat)
    (fi : Nat → List Int → Int) (sgn : Bool) (s : State) : Host.Outcome State Fault Refusal :=
  issueSeq h (do
    let t ← arithTag isNumTag [.op (.v a)]
    let c ← capture
    let w := laneW t
    let mk ← maskOf m
    let l := presentLanes mk w (← vecSrc w (.op (.v a)))
    match fmtOf t with
    | some f => wrReg d (BitVec.ofNat 64 ((treeUp (ff c f) 9 l).getD (none' f)))
    | none => wrReg d (BitVec.ofInt 64 (fi w ((l.filterMap id).map (laneInt sgn w))))) s

def execVsum (h : Hdr) (d : Reg) (a : VReg) (m : VMask) (sgn : Bool) (s : State) :=
  reduction h d a m (fun c f x y => (addF c f x y).bits) (fun _ => 0) (fun _ l => l.foldl (· + ·) 0) sgn s

def execVmaxr (h : Hdr) (d : Reg) (a : VReg) (m : VMask) (sgn : Bool) (s : State) :=
  reduction h d a m (fun c f x y => (minMaxF true c f x y).bits) defaultNaN (fun w l => l.foldl max (intLo sgn w)) sgn s

/-! ### VCVT and VCB (R411, R412) -/

/-- The value of a lane of a source tag; a CB4 code's is its codebook entry (R113). -/
def laneValue (c : Captured) (book : Nat) (sgn : Bool) (t x : Nat) : FV × Fmt :=
  match fmtOf t with
  | some f => ((readF c f x).1, f)
  | none => if t = 6 then ((readF c bf16 (field book (16 * x) 16)).1, bf16) else (intFV sgn (laneW t) x, fp32)

/-- A scaled conversion of one element into a tag (R124). -/
def convertLane (c : Captured) (sgn : Bool) (x : FV × Fmt) (scale tag : Nat) : Nat :=
  let k := (readF c fp32 scale).1
  match fmtOf tag with
  | some f => (scaleToF c x.2 f x.1 k).bits
  | none => (toIntF c sgn (laneW tag) (scaleFV x.1 k)).bits

/-- SEG must be below the ratio of the lane counts, or 0 where they are equal. -/
def segLimit (ws wd : Nat) : Nat := max ws wd / min ws wd

/-- Whether a destination lane is converted, and from which source lane. -/
def segLane (ws wd seg j : Nat) : Option Nat :=
  let ls := laneCount ws; let ld := laneCount wd
  if ld > ls then (if seg * ls ≤ j ∧ j < seg * ls + ls then some (j - seg * ls) else none) else some (seg * ld + j)

def execVcvt (h : Hdr) (d a : VReg) (x : Opnd) (m : VMask) (sgn : Bool) (fmt : BitVec 4) (seg : BitVec 2) (s : State) :
    Host.Outcome State Fault Refusal :=
  issueSeq h (do
    let ka ← renV a.val
    chkOpnd x
    let t ← vTag ka
    let ws := laneW t; let wd := laneW fmt.toNat
    if tagBits t ≠ 0 ∧ seg.toNat ≥ segLimit ws wd then throw (.trap (illegalOf (.vcvt h d a x m sgn fmt seg)))
    if tagBits t = 0 then tagTrap (0x40 + ka) t
    let sc ← rdOpnd h x
    let c ← capture
    let book ← rdWin offVcb 32
    let mk ← maskOf m
    let src ← vBits ka
    let kd ← renV d.val
    let old ← vBits kd
    wrV kd (packLanes wd fun j =>
      match segLane ws wd seg.toNat j with
      | some i => if laneOn mk wd j then convertLane c sgn (laneValue c book sgn t (lane src ws i)) (sc.toNat % 2 ^ 32) fmt.toNat else lane old wd j
      | none => lane old wd j) fmt.toNat) s

def execVcb (h : Hdr) (a : Reg) (s : State) : Host.Outcome State Fault Refusal :=
  issueSeq h (do
    let v ← rd1 h (.w a)
    let l ← localSpan v 32 32 false
    fenceHold 1
    wrWin offVcb 32 (← readSpan v l)) s

end Sys2Proof.Machine
end

