-- ==== Sys2Proof/Machine/VecMem.lean ====
section
/-!
DEFINITION. Sys2Proof/Machine/VecMem.lean: shape records (R163, R164), and VLD and VST (R408, R409).
-/
namespace Sys2Proof.Machine

/-! ### Shape records -/

/-- A shape record (R163), its dimensions innermost first: extent and byte stride. -/
structure Shape where
  base : Nat
  fmt : Nat
  kind : Nat
  nd : Nat
  dims : List (Nat × Int)
deriving DecidableEq, Repr

/-- The extents above NDIMM1 and their strides are zero; they do not count in the product. -/
def Shape.used (r : Shape) : List (Nat × Int) := r.dims.take (r.nd + 1)

/-- The number of elements. -/
def Shape.count (r : Shape) : Nat := (r.used.map (·.1)).foldl (· * ·) 1

/-- Bytes of a unit of access, and elements in it: a byte of two 4-bit elements, or one element. -/
def unitBytes (fmt : Nat) : Nat := max (laneW fmt) 8 / 8
def unitElems (fmt : Nat) : Nat := if laneW fmt = 4 then 2 else 1

/-- What R163 and R164 refuse of a record. -/
def Shape.bad (r : Shape) (res : Nat) : Bool :=
  let size := unitBytes r.fmt
  let e0 := r.dims.head?.getD (0, 0)
  tagBits r.fmt = 0 || decide (1 < r.kind) || res ≠ 0 || (r.dims.drop (r.nd + 1)).any (fun d => d != (0, 0)) ||
  (if laneW r.fmt = 4 then e0.2 ≠ 0 || e0.1 % 2 ≠ 0 else r.base % size ≠ 0 || r.dims.any fun d => d.2 % size ≠ 0) ||
  decide (2 ^ 63 ≤ r.count)

/-- A record from its 64 bytes. -/
def parseShape (x : Nat) : Option Shape :=
  let r : Shape :=
    { base := field x 0 64, fmt := field x 64 4, kind := field x 68 4, nd := field x 72 2
      dims := (List.range 4).map fun d => (field x (128 + 96 * d) 32, signed (field x (160 + 96 * d) 64) 64) }
  if r.bad (field x 74 54) then none else some r

/-- Reads the record whose view offset a w register holds; the traps name the register (R163). -/
def readShapeBits (w : Reg) : Exec Nat := do
  let c ← ctl; let core ← myCore
  let v ← rdReg w.val
  let a := space0 core (wfield v 0 23)
  if wfield v 23 41 ≠ 0 ∨ v.toNat % 64 ≠ 0 then permTrap v w.val
  let l ← orStop (viewPieces (← get) core c.slice a 64) (.trap (mkTrap 5 a.toNat w.val))
  readSpan a l

def shapeOf (w : Reg) (x : Nat) : Exec Shape := orStop (parseShape x) (.trap (mkTrap 5 0 w.val))

def readShape (w : Reg) : Exec Shape := do shapeOf w (← readShapeBits w)

/-- Byte offset of element e from BASE: Σ idx_d × STRIDE_d, with two 4-bit elements of dimension 0 to a byte (R164). -/
def strideSum : List (Nat × Int) → Nat → Int
  | [], _ => 0
  | (n, st) :: r, e => (e % n : Nat) * st + strideSum r (e / n)

def Shape.addr (r : Shape) (e : Nat) : Word :=
  let low : Int := if laneW r.fmt = 4 then ((e % (r.dims.head?.getD (1, 0)).1 / 2 : Nat) : Int) else 0
  BitVec.ofInt 64 ((r.base : Int) + low + strideSum r.used e)

/-! ### Runs: the bytes that an instruction moves -/

/-- Bytes of one 64-byte line: the first byte's place in the register, its address and the number of bytes. -/
structure VRun where
  off : Nat
  a : Word
  n : Nat
deriving DecidableEq, Repr

/-- Joins what continues the last run in the register and in its line. -/
def joinRun (l : List VRun) (x : VRun) : List VRun :=
  match l with
  | r :: rest =>
    if x.off = r.off + r.n ∧ x.a = r.a + BitVec.ofNat 64 r.n ∧ x.a.toNat / 64 = r.a.toNat / 64 then { r with n := r.n + x.n } :: rest
    else x :: r :: rest
  | [] => [x]

def joinRuns (l : List VRun) : List VRun := (l.foldl joinRun []).reverse

/-- The storage of a run of local addresses (R144, R146). R95 names only LDS and STS. -/
def runSpan (a : Word) (n : Nat) : Exec Span := do
  let c ← ctl
  if wfield a 54 2 = 3 then windowSpan a n
  else orStop (viewPieces (← get) (← myCore) c.slice a n) (.trap (mkTrap 5 a.toNat 0))

/-- The physical address of a run of plain memory. -/
def runPhys (a : Word) (nd : Need) : Exec Nat := do
  if wfield a 52 12 ≠ 0 then trapAt 4 a.toNat 4
  translate a nd

def runSpans : List VRun → Exec (List (VRun × Span))
  | [] => pure []
  | r :: rest => do
    let l ← runSpan r.a r.n
    return (r, l) :: (← runSpans rest)

def runPhyses (nd : Need) : List VRun → Exec (List (VRun × Nat))
  | [] => pure []
  | r :: rest => do
    let p ← runPhys r.a nd
    return (r, p) :: (← runPhyses nd rest)

/-- The address that a poison trap or a protection trap of a run reports: the operand's, where it is one address. -/
def VRun.shown (at' : Option Word) (r : VRun) : Word := at'.getD r.a

def readLocalRuns (at' : Option Word) : List (VRun × Span) → Exec Nat
  | [] => pure 0
  | (r, l) :: rest => do
    let v ← readSpan (r.shown at') l
    return v * 2 ^ (8 * r.off) + (← readLocalRuns at' rest)

def readPlainRuns (hint : Nat) : List (VRun × Nat) → Exec Nat
  | [] => pure 0
  | (r, pa) :: rest => do
    let v ← plainRead hint r.a pa r.n
    watchMine (addrHbm (← myCore).pkg pa) r.n false
    return v * 2 ^ (8 * r.off) + (← readPlainRuns hint rest)

/-- Reads runs into their places of a register: every address is checked before any byte is returned. -/
def readRuns (hint : Nat) (plain : Bool) (at' : Option Word) (l : List VRun) : Exec Nat := do
  if plain then
    let p ← runPhyses .rd l
    fenceHold 0
    readPlainRuns hint p
  else
    readLocalRuns at' (← runSpans l)

/-- The windows whose control blocks keep their read-only fields: the active one, and the one that a handler interrupted (R93). -/
def blockWindows : Exec (List Word) := do
  let t ← me; let c ← ctl; let s ← get
  return if c.intrap then [c.wsp, BitVec.ofNat 64 (threadRead s t c c.hwsp offCaller 8)] else [c.wsp]

/-- A store that meets such a control block: STATUS, PROVSET and the reserved word keep their bytes, reserved bits stay zero (R6), and bit
0 of GUARDS stays 1. -/
def protectIn (t : ThreadId) (w a : Word) (n v old : Nat) : Nat :=
  match offsetIn t w a n with
  | none => v
  | some o =>
    let byte := fun (i : Nat) =>
      let q := o + i
      if 0x228 ≤ q ∧ q < 0x240 then field old (8 * i) 8
      else if q = 0x222 then field v (8 * i) 8 ||| 1 else field v (8 * i) 8 &&& storeBits q.toNat
    pack ((List.range n).map fun i => (8, byte i))

/-- Whether the store reaches ATAGS of a window. -/
def meetsTags (t : ThreadId) (w a : Word) (n : Nat) : Bool :=
  match offsetIn t w a n with
  | none => false
  | some o => decide (o < 0x222 ∧ 0x220 < o + n)

/-- Stores of pieces of storage. -/
def storePieces : Span → Nat → Exec Unit
  | [], _ => pure ()
  | (x, n) :: r, v => do
    bankStore x n (v % 2 ^ (8 * n))
    storePieces r (v / 2 ^ (8 * n))

def writeLocalRuns (data : Nat) : List (VRun × Span) → Exec Unit
  | [] => pure ()
  | (r, l) :: rest => do
    let t ← me; let c ← ctl
    let ws ← blockWindows
    let old := Span.read (← get) l
    let v := ws.foldl (fun v w => protectIn t w r.a r.n v old) (field data (8 * r.off) (8 * r.n))
    dirtySpan r.a r.n
    storePieces l v
    match ws.find? fun w => meetsTags t w r.a r.n with
    | some w => modify fun s => setAccTags s t.core c.slice (threadRead s t c w offAtags 2)
    | none => pure ()
    writeLocalRuns data rest

def writePlainRuns (data : Nat) : List (VRun × Nat) → Exec Unit
  | [] => pure ()
  | (r, pa) :: rest => do
    enterStore pa r.n (field data (8 * r.off) (8 * r.n)) none
    watchMine (addrHbm (← myCore).pkg pa) r.n true
    writePlainRuns data rest

/-- The first run that meets a barrier-typed granule (R234). -/
def checkTyped (at' : Option Word) : List (VRun × Span) → Exec Unit
  | [] => pure ()
  | (r, l) :: rest => do
    if Span.typed (← get) l then trapAt 14 (r.shown at').toNat 0
    checkTyped at' rest

/-- Writes runs from their places of a register, all or none of them. -/
def writeRuns (plain : Bool) (at' : Option Word) (data : Nat) (l : List VRun) : Exec Unit := do
  if plain then
    let p ← runPhyses .wr l
    waitConfirmed
    storeRoom
    writePlainRuns data p
  else
    let p ← runSpans l
    if l.any fun r => decide (wfield r.a 54 2 ≠ 3) then waitConfirmed
    checkTyped at' p
    writeLocalRuns data p

/-! ### VLD and VST with shape records (R408) -/

/-- Whether the mask enables a unit: the byte of two 4-bit lanes, or one lane (R90). -/
def unitOn (mk : Option Nat) (u : Nat) : Bool :=
  match mk with
  | none => true
  | some m => m.testBit u

/-- The enabled units of the chunk of elements from e0, each with its run. -/
def chunkRuns (r : Shape) (mk : Option Nat) (e0 : Nat) : List VRun :=
  let b := unitBytes r.fmt; let per := unitElems r.fmt
  joinRuns ((List.range (256 / b)).filterMap fun u =>
    let e := e0 + u * per
    if decide (e < r.count) && unitOn mk u then some ⟨b * u, r.addr e, b⟩ else none)

/-- A register in which the enabled lanes take new bits. -/
def mergeLanes (w : Nat) (mk : Option Nat) (old new : Nat) : Nat :=
  packLanes w fun j => if laneOn mk w j then lane new w j else lane old w j

/-- The record of a VLD or VST: read at issue and kept between its chunks. -/
def chunkShape (w : Reg) : Exec Shape := do
  match (← thr).shape with
  | some x => shapeOf w x
  | none =>
    let x ← readShapeBits w
    let r ← shapeOf w x
    modT fun th => { th with shape := some x }
    return r

/-- Runs one chunk of a shape access: `go` moves it. The position register then holds the first element not done, and the thread
goes on with the next chunk at its next turn. -/
def shapeAccess (bad : TrapRec) (h : Hdr) (d : VReg) (rec' pos : Reg) (nregM1 : BitVec 5) (early : Shape → Nat → Exec Unit)
    (go : Shape → (v e0 : Nat) → Exec Unit) (s : State) : Host.Outcome State Fault Refusal :=
  issueCheck (badNumbers bad (decide (32 < d.val + nregM1.toNat + 1)) s) h (do
    let d ← renV d.val
    let n := nregM1.toNat + 1
    if d + n > 32 then throw (.trap bad)
    checkHandle rec'.val; checkHandle pos.val
    let r ← chunkShape rec'
    let p := (← rdReg pos.val).toNat
    let lanes := laneCount (laneW r.fmt)
    if r.count = 0 ∨ r.count ≤ p then pure ()
    else
      if p % lanes ≠ 0 then permTrap 0 pos.val
      early r p
      let k := p / lanes
      go r (d + k % n) p
      let p' := min (p + lanes) r.count
      wrReg pos (BitVec.ofNat 64 p')
      if !(p' = r.count ∨ k % n = n - 1) then throw (.wait .ready)
    return .seq) s

def execVld (h : Hdr) (d : VReg) (rec' pos : Reg) (m : VMask) (nregM1 : BitVec 5) (s : State) : Host.Outcome State Fault Refusal :=
  shapeAccess (illegalOf (.vld h d rec' pos m nregM1)) h d rec' pos nregM1 (fun _ _ => pure ()) (fun r v e0 => do
    let mk ← maskOf m
    let x ← readRuns h.hint.toNat (r.kind = 1) none (chunkRuns r mk e0)
    let old ← vBits v
    wrV v (mergeLanes (laneW r.fmt) mk old x) r.fmt) s

/-- Registers that must carry a tag. -/
def checkAllTags (tag : Nat) : List Nat → Exec Unit
  | [] => pure ()
  | v :: rest => do
    let t ← vTag v
    if t ≠ tag then tagTrap (0x40 + v) t
    checkAllTags tag rest

/-- The source registers that the loop uses from position p on carry the record's format. -/
def checkSources (r : Shape) (d n p : Nat) : Exec Unit :=
  let lanes := laneCount (laneW r.fmt)
  let k := p / lanes % n
  checkAllTags r.fmt (nrange (d + k) (min ((r.count - p + lanes - 1) / lanes) (n - k)))

def execVst (h : Hdr) (d : VReg) (rec' pos : Reg) (m : VMask) (nregM1 : BitVec 5) (s : State) : Host.Outcome State Fault Refusal :=
  shapeAccess (illegalOf (.vst h d rec' pos m nregM1)) h d rec' pos nregM1
    (fun r p => do checkSources r (← renV d.val) (nregM1.toNat + 1) p)
    (fun r v e0 => do
      let mk ← maskOf m
      let x ← vBits v
      writeRuns (r.kind = 1) none x (chunkRuns r mk e0)) s

/-! ### VLD and VST contiguous (R409) -/

/-- The checks of a contiguous access at a: its enabled bytes, and 16-byte alignment. A lane masked off raises no trap (R219). -/
def contiguousCheck (a : Word) (plain : Bool) (l : List VRun) : Exec Unit := do
  if plain then
    if wfield a 52 12 ≠ 0 then trapAt 4 a.toNat 4
  else
    let _ ← runSpans l
  if a.toNat % 16 ≠ 0 then alignTrap a

/-- The enabled units of 256 bytes at a. -/
def contiguousRuns (tag : Nat) (mk : Option Nat) (a : Word) : List VRun :=
  let b := unitBytes tag
  joinRuns ((List.range (256 / b)).filterMap fun u =>
    if unitOn mk u then some ⟨b * u, a + BitVec.ofNat 64 (b * u), b⟩ else none)

def execVldContiguous (h : Hdr) (d : VReg) (b : Opnd) (x : Src) (m : VMask) (fmt : BitVec 4) (pl : Bool) (s : State) :
    Host.Outcome State Fault Refusal :=
  issueSeq h (do
    let a ← baseIndex h b x
    let mk ← maskOf m
    let k ← renV d.val
    let l := contiguousRuns fmt.toNat mk a
    contiguousCheck a pl l
    let v ← readRuns h.hint.toNat pl (some a) l
    let old ← vBits k
    wrV k (mergeLanes (laneW fmt.toNat) mk old v) fmt.toNat) s

def execVstContiguous (h : Hdr) (d : VReg) (b : Opnd) (x : Src) (m : VMask) (pl : Bool) (s : State) : Host.Outcome State Fault Refusal :=
  issueSeq h (do
    let a ← baseIndex h b x
    let mk ← maskOf m
    let k ← renV d.val
    let l := contiguousRuns (← vTag k) mk a
    contiguousCheck a pl l
    writeRuns pl (some a) (← vBits k) l) s

end Sys2Proof.Machine
end

