-- ==== Sys2Proof/Machine/Stage.lean ====
section
/-!
DEFINITION. Sys2Proof/Machine/Stage.lean: instructions whose bytes move piece by piece while their thread is held and other slots issue: the
staging of matrix operands (R225), and VGATH and VSCAT (R410).
-/
namespace Sys2Proof.Machine

/-! ### The matrix operand buffer (R206) -/

/-- Reads n bytes of one 64-byte line: from the operand buffer, or from the bank, leaving the line in the buffer (R206). -/
def bufferRead (a : Word) (x : Addr) (n : Nat) : Exec Nat := do
  let core ← myCore; let p ← myPart
  let line := x / 64 * 64
  let served : Option Nat ← match ((← get).core core).operandBuf.find? fun l => decide (l.addr = line) with
    | some l => do
      let k ← newFree
      pure (if Config.operandBufferServes k then some l.data else none)
    | none => pure none
  match served with
  | some d => return field d (8 * (x - line)) (8 * n)
  | none =>
    let s ← get
    if s.poisoned x n then trapAt 11 a.toNat 0
    modify fun s =>
      let s := engWatch s p x n false (addrOwner x != some (.inl core))
      s.modCore core fun r => { r with operandBuf := ⟨line, s.rd line 64, none⟩ :: r.operandBuf.filter (·.addr ≠ line) }
    return s.rd x n

/-! ### The queue (R225) -/

def matFull (s : State) (t : ThreadId) : Bool := decide ((s.core t.core).mqueue.length ≥ 4)

def newMat (op : MatKind) : Exec MatOp := do
  let t ← me; let gen ← myGen; let id ← newOp
  return ⟨id, t, gen, op, true⟩

def enqueueMat (op : MatKind) : Exec Unit := do
  let o ← newMat op
  modify fun s => s.modCore o.t.core fun r => { r with mqueue := r.mqueue ++ [o] }

/-- Whether an older operation of the core is still to be staged: entries stage one at a time, in issue order. -/
def stagingBefore (s : State) (c : CoreId) (entry : Option Nat) : Bool :=
  (s.core c).mqueue.any fun o => !o.staged && (match entry with
    | some id => decide (o.id < id)
    | none => true)

/-- What an instruction makes an accumulator's tag: a handler's is in its own workspace too (R115, R259). -/
def noteTag (a : AccId) (tag : Nat) : Exec Unit := do
  if (← ctl).intrap then
    let x ← rdWin offAtags 2
    wrWin offAtags 2 (x - field x (4 * a.n) 4 * 2 ^ (4 * a.n) + tag * 2 ^ (4 * a.n))

/-! ### Pieces -/

/-- The pieces of a range, each within one 64-byte line. -/
def piecesOf (side : Nat) (a : Word) (how : StageHow) : (off : Nat) → Span → List StagePiece
  | _, [] => []
  | off, (x, n) :: r =>
    ((linePieces x n).map fun p => ⟨side, off + (p.1 - x), a, p.1, p.2, how⟩) ++ piecesOf side a how (off + n) r

/-- Moves one piece: what it reads. -/
def movePiece (g : Stage) (p : StagePiece) : Exec Nat := do
  match p.how, g.goal with
  | .buffer, _ => bufferRead p.a p.x p.n
  | .bank, _ =>
    let s ← get; let part ← myPart; let core ← myCore
    if s.poisoned p.x p.n then trapAt 11 p.a.toNat 0
    modify fun s => engWatch s part p.x p.n false (addrOwner p.x != some (.inl core))
    return s.rd p.x p.n
  | .local_, .scatter data =>
    writeLocalRuns data [(⟨p.off, p.a, p.n⟩, [(p.x, p.n)])]
    return 0
  | .local_, _ => readSpan p.a [(p.x, p.n)]
  | .plain, .scatter data =>
    writePlainRuns data [(⟨p.off, p.a, p.n⟩, p.x)]
    return 0
  | .plain, _ => readPlainRuns g.hint [(⟨0, p.a, p.n⟩, p.x)]

def Stage.add (g : Stage) (p : StagePiece) (v : Nat) : Stage :=
  if p.side = 0 then { g with a := g.a + v * 2 ^ (8 * p.off) } else { g with b := g.b + v * 2 ^ (8 * p.off) }

/-- The thread is held until its staging goes on; a matrix operation has its queue entry meanwhile. -/
def pauseStage {α : Type} (g : Stage) : Exec α := do
  let goal ← match g.goal with
    | .matrix op none cbs book => do
      let o ← newMat op
      modify fun s => s.modCore o.t.core fun r => { r with mqueue := r.mqueue ++ [{ o with staged := false }] }
      pure (.matrix op (some o.id) cbs book)
    | x => pure x
  modT fun th => { th with stage := some { g with goal := goal } }
  throw (.wait .staging)

/-- Whether a piece is a store of plain memory that finds the core's queue full. -/
def storeWaits (s : State) (c : CoreId) (g : Stage) (p : StagePiece) : Bool :=
  match p.how, g.goal with
  | .plain, .scatter _ => decide (32 ≤ (s.core c).storeq.length)
  | _, _ => false

/-- Moves pieces in order. Where the agenda has turns of others next, they come between two pieces; a store that finds the queue full waits. -/
def runPieces : List StagePiece → Stage → Exec Stage
  | [], g => pure g
  | p :: rest, g => do
    if storeWaits (← get) (← myCore) g p then pauseStage { g with todo := p :: rest }
    let g := g.add p (← movePiece g p)
    if !rest.isEmpty && !(← get).agenda.isEmpty then pauseStage { g with todo := rest }
    runPieces rest g

/-- A matrix operation with its staged operands. -/
def MatKind.withData (a b : Nat) : MatKind → MatKind
  | .mma acc k ta tb _ _ f32 bookA bookB au bu => .mma acc k ta tb a b f32 bookA bookB au bu
  | .load acc _ tag => .load acc a tag
  | op => op

/-- Consumes the oldest slot of each handle. -/
def takeSlots : List Nat → Exec Unit
  | [] => pure ()
  | k :: rest => do
    let b ← cbBound k
    setCb k { b with c := (b.c + 1) % 2 ^ 32 }
    takeSlots rest

/-- Every piece has been moved. -/
def finishStage (g : Stage) : Exec Unit :=
  match g.goal with
  | .matrix op entry cbs book => do
    takeSlots cbs
    match op with
    | .load acc _ tag => noteTag acc tag
    | _ => pure ()
    match book with
    | some side => wrWin (if side then offMcbB else offMcbA) 32 g.a
    | none => pure ()
    match entry with
    | none => enqueueMat (op.withData g.a g.b)
    | some id => do
      let core ← myCore
      modify fun s => s.modCore core fun r =>
        { r with mqueue := r.mqueue.map fun o => if o.id = id then { o with op := o.op.withData g.a g.b, staged := true } else o }
  | .gather v fmt mk => do
    let old ← vBits v
    wrV v (mergeLanes (laneW fmt) mk old g.a) fmt
  | .scatter _ => pure ()

def StageGoal.entry : StageGoal → Option Nat
  | .matrix _ e _ _ => e
  | _ => none

def StageGoal.isMatrix : StageGoal → Bool
  | .matrix .. => true
  | _ => false

/-- An instruction whose checks have passed moves its pieces. -/
def startStage (h : Hdr) (goal : StageGoal) (l : List StagePiece) : Exec Unit := do
  let g : Stage := ⟨goal, 0, 0, l, h.hint.toNat, h.eog, h.ya⟩
  if goal.isMatrix && stagingBefore (← get) (← myCore) none then pauseStage g
  finishStage (← runPieces l g)

/-- The thread's staging goes on. -/
def goOnStage : Exec Unit := do
  match (← thr).stage with
  | none => throw .hold
  | some g =>
    if g.goal.isMatrix && stagingBefore (← get) (← myCore) g.goal.entry then throw .hold
    finishStage (← runPieces g.todo g)

/-- The queue entry of an operation whose staging meets a fault is freed. -/
def dropStage (s : State) (t : ThreadId) (g : Stage) : State :=
  s.modCore t.core fun r => { r with mqueue := r.mqueue.filter fun o => g.goal.entry ≠ some o.id }

/-- A turn of a held thread: its pieces go on, and its instruction completes with the last. -/
def stageTurn (t : ThreadId) (s : State) : Host.Outcome State Fault Refusal :=
  match (s.thread? t).bind (·.stage) with
  | none => .next s
  | some g =>
    match settle t { Hdr.plain with eog := g.eog, ya := g.ya } s (dropStage s t g) ((do goOnStage; return Flow.seq : Exec Flow).run s) with
    | .next s' => .next (saveOut s' t)
    | o => o

/-! ### VGATH and VSCAT (R410) -/

/-- The record and the element index of each of the first lanes. -/
def indexedShape (rec' : Reg) (i : VReg) : Exec (Shape × Nat) := do
  checkHandle rec'.val
  let k ← renV i.val
  let t ← vTag k
  if t ≠ 9 then tagTrap (0x40 + k) t
  let r ← readShape rec'
  if laneW r.fmt = 4 then permTrap 0 rec'.val
  return (r, ← vBits k)

/-- The enabled lanes whose element exists, in ascending order; runs of one line are not joined across lanes that name one element. -/
def indexedRuns (r : Shape) (mk : Option Nat) (idx : Nat) : List VRun :=
  let w := laneW r.fmt
  (List.range (min (laneCount w) 64)).filterMap fun j =>
    let e := lane idx 32 j
    if laneOn mk w j && decide (e < r.count) then some ⟨w / 8 * j, r.addr e, w / 8⟩ else none

/-- The elements as pieces. -/
def plainLanes (l : List (VRun × Nat)) : List StagePiece := l.map fun e => ⟨0, e.1.off, e.1.a, e.2, e.1.n, .plain⟩
def localLanes (l : List (VRun × Span)) : List StagePiece := l.flatMap fun e => piecesOf 0 e.1.a .local_ e.1.off e.2

def execVgath (h : Hdr) (d i : VReg) (rec' : Reg) (m : VMask) (s : State) : Host.Outcome State Fault Refusal :=
  issueSeq h (do
    let (r, idx) ← indexedShape rec' i
    let mk ← maskOf m
    let l ← if r.kind = 1 then do
        let p ← runPhyses .rd (indexedRuns r mk idx)
        fenceHold 0
        pure (plainLanes p)
      else localLanes <$> runSpans (indexedRuns r mk idx)
    let k ← renV d.val
    startStage h (.gather k r.fmt mk) l) s

def execVscat (h : Hdr) (d i : VReg) (rec' : Reg) (m : VMask) (s : State) : Host.Outcome State Fault Refusal :=
  issueSeq h (do
    let (r, idx) ← indexedShape rec' i
    let k ← renV d.val
    let t ← vTag k
    if t ≠ r.fmt then tagTrap (0x40 + k) t
    if r.count = 0 then pure ()
    else
      let mk ← maskOf m
      let x ← vBits k
      let l ← if r.kind = 1 then do
          let p ← runPhyses .wr (indexedRuns r mk idx)
          waitConfirmed
          storeRoom
          pure (plainLanes p)
        else do
          let p ← runSpans (indexedRuns r mk idx)
          if p.any fun e => decide (wfield e.1.a 54 2 ≠ 3) then waitConfirmed
          checkTyped none p
          pure (localLanes p)
      startStage h (.scatter x) l) s

end Sys2Proof.Machine
end

