-- ==== Sys2Proof/Machine/Matrix.lean ====
section
/-!
DEFINITION. Sys2Proof/Machine/Matrix.lean: MOV (R363), and class 12 with the matrix engine's queue (R125, R224 to R227, R366 to R372).
-/
namespace Sys2Proof.Machine

/-! ### Accumulators -/

/-- The elements of an accumulator: 64 rows of 64 of 32 bits. -/
def accRow (bits row : Nat) : Nat := field bits (2048 * row) 2048

/-- The operand's accumulator: renamed, then below ACCS (R226, R366). -/
def accOf (a : Fin 4) : Exec AccId := do
  let k ← renAcc a.val
  let sl ← mySlice; let c ← ctl
  if sl.accNum ≤ k then permTrap 0
  return ⟨← myCore, c.slice, k⟩

def accRec (s : State) (a : AccId) : AccRec :=
  match accPhys s a.core a.slice a.n with
  | some p => tget (s.core a.core).accs p ⟨0, 0⟩
  | none => ⟨0, 0⟩

def setAcc (a : AccId) (v : AccRec) (s : State) : State :=
  match accPhys s a.core a.slice a.n with
  | some p => s.modCore a.core fun r => { r with accs := tput r.accs p v }
  | none => s

/-- The tag that an accumulator has when every operation issued so far has completed: operations apply in issue order (R226). -/
def accTagAt (s : State) (a : AccId) : Nat :=
  let tag := fun (l : Tab AccId Nat) (x : AccId) => tget l x (accRec s x).tag
  let l := (s.core a.core).mqueue.foldl (fun l o =>
    match o.op with
    | .zero x t => tput l x t
    | .load x _ t => tput l x t
    | .copy x y => tput l x (tag l y)
    | _ => l) []
  tag l a

/-- The tag that an instruction finds on an accumulator: a handler reads it in its own workspace (R259). -/
def accTag (a : AccId) (now : Bool) : Exec Nat := do
  let s ← get
  if (← ctl).intrap then return field (← rdWin offAtags 2) (4 * a.n) 4
  return if now then (accRec s a).tag else accTagAt s a

/-! ### Memory operands (R366) -/

/-- A range of a core's own scratchpad or its own cluster's pool, aligned. -/
def matSpan (a : Word) (n al : Nat) : Exec Span := do
  let c ← ctl; let core ← myCore; let s ← get
  let own := match resolveLocal s core c.slice a with
    | some (_, .inl d) => d = core
    | some (_, .inr cl) => cl = core.cluster
    | none => false
  if !own then permTrap a
  localSpan a n al false

/-- The pieces of memory that an operation under way will write. -/
def MatKind.dest : MatKind → Span
  | .memOut _ l => l
  | .convert _ l .. => l
  | .peekMem _ l => l
  | _ => []

/-- A thread's accesses to one location on path M take effect in program order (R203): an access waits for the writes under way. -/
def matOrder (l : Span) : Exec Unit := do
  let t ← me; let gen ← myGen
  fenceHold 4
  if ((← get).core t.core).matOps.any fun o => decide (o.t = t ∧ o.gen = gen) && Span.meets o.op.dest l then throw .hold

/-- A destination in memory: its pieces, none of them typed as a barrier (R234), in program order; a provisional thread waits (R196). -/
def matDest (a : Word) (n : Nat) : Exec Span := do
  let l ← matSpan a n 64
  if Span.typed (← get) l then trapAt 14 a.toNat 0
  matOrder l
  waitConfirmed
  return l

/-! ### The queue (R225) -/

def enterPeek (op : MatKind) : Exec Unit := do
  let o ← newMat op
  modify fun s => s.modCore o.t.core fun r => { r with peeks := r.peeks ++ [o] }

/-- An instruction of class 12 is not ready while the queue is full. -/
def matCheck (bad : Option TrapRec) (h : Hdr) (body : Exec Unit) (s : State) : Host.Outcome State Fault Refusal :=
  match s.cur with
  | .thread t => if matFull s t && (s.thread? t).isSome then .next s else issueCheck bad h (do body; return .seq) s
  | _ => .fault .noThread

def matIssue (h : Hdr) (body : Exec Unit) (s : State) : Host.Outcome State Fault Refusal := matCheck none h body s

/-! ### MMA (R125, R224, R367) -/

/-- The row of R224 for a pair of formats: group size, maximum of k and accumulator tag. -/
def mmaRow (ta tb : Nat) : Option (Nat × Nat × Nat) :=
  if (ta = 2 ∧ tb = 2) ∨ (ta = 3 ∧ tb = 3) then some (8, 64, 1)
  else if (ta = 4 ∨ ta = 5) ∧ (tb = 4 ∨ tb = 5) then some (16, 128, 1)
  else if ta = 6 ∧ tb = 6 then some (32, 256, 1)
  else if ta = 7 ∧ tb = 7 then some (16, 128, 9)
  else if ta = 8 ∧ tb = 8 then some (32, 256, 9)
  else none

/-- The value of an operand element; CB4 decodes through a codebook (R113). -/
def mmaValue (t book x : Nat) : FV :=
  match fmtOf t with
  | some f => decodeF f x
  | none => decodeF bf16 (field book (16 * x) 16)

/-- The state of a group's exact sum: group_invalid, the infinite products' signs, the sum, and whether every product is −0. -/
structure GroupSum where
  bad : Bool
  pos : Bool
  neg : Bool
  sum : Int × Int
  negZero : Bool
deriving DecidableEq, Repr

def GroupSum.add (g : GroupSum) (a b : FV) : GroupSum :=
  let s := a.sign != b.sign
  if a.isNaN || b.isNaN || (a.isInf && b.isZero) || (a.isZero && b.isInf) then { g with bad := true }
  else match a, b with
  | .fin _ m e, .fin _ n f => { g with sum := addExact g.sum (sgnd s (m * n), e + f), negZero := g.negZero && m * n = 0 && s }
  | _, _ => { g with pos := g.pos || !s, neg := g.neg || s }

/-- The rounded sum of a group (R125): nearest-even, overflow by the captured F32 entry. -/
def GroupSum.result (f32 : Nat) (g : GroupSum) : Nat :=
  if g.bad || (g.pos && g.neg) then defaultNaN fp32
  else if g.pos || g.neg then infF fp32 g.neg
  else if g.sum.1 = 0 then zeroF fp32 g.negZero
  else (roundF ⟨0x80, f32 * 4⟩ fp32 0 false (decide (g.sum.1 < 0)) g.sum.1.natAbs g.sum.2).bits

/-- acc + s under nearest-even with default NaNs. -/
def accAdd (f32 acc x : Nat) : Nat := (addFV ⟨0x80, f32 * 4⟩ fp32 0 false (decodeF fp32 acc) (decodeF fp32 x)).bits

/-- Element (i, t) of A and (t, j) of B, packed row-major. -/
def mmaA (a w k i t : Nat) : Nat := field a (w * (i * k + t)) w
def mmaB (b w t j : Nat) : Nat := field b (w * (64 * t + j)) w

/-- One element of A × B's group g added to an FP32 accumulator element. -/
def mmaGroup (k ta tb a b f32 bookA bookB size i j g acc : Nat) : Nat :=
  let sum := (List.range size).foldl (fun (s : GroupSum) t =>
    s.add (mmaValue ta bookA (mmaA a (tagBits ta) k i (g * size + t))) (mmaValue tb bookB (mmaB b (tagBits tb) (g * size + t) j)))
    ⟨false, false, false, (0, 0), true⟩
  accAdd f32 acc (sum.result f32)

/-- An element's integer sum over the first n of k, modulo 2^32. -/
def mmaInt (k ta tb a b : Nat) (au bu : Bool) (i j n acc : Nat) : Nat :=
  wrap 32 ((List.range n).foldl (fun (s : Int) t =>
    s + laneInt (!au) (tagBits ta) (mmaA a (tagBits ta) k i t) * laneInt (!bu) (tagBits tb) (mmaB b (tagBits tb) t j)) (acc : Int))

/-- Row i of an accumulator after the first `groups` groups of an MMA. -/
def mmaRowAfter (k ta tb a b f32 bookA bookB : Nat) (au bu : Bool) (i groups row : Nat) : Nat :=
  let (size, _, tag) := (mmaRow ta tb).getD (8, 64, 1)
  pack ((List.range 64).map fun j =>
    let x := field row (32 * j) 32
    (32, if tag = 9 then mmaInt k ta tb a b au bu i j (groups * size) x
      else (List.range groups).foldl (fun acc g => mmaGroup k ta tb a b f32 bookA bookB size i j g acc) x))

/-- The number of groups of an MMA. -/
def mmaGroups (k ta tb : Nat) : Nat := k / ((mmaRow ta tb).getD (8, 64, 1)).1

/-- What a record must be for one side of MMA (R367). -/
def mmaShapeOk (r : Shape) (e0 e1 : Nat) : Bool := r.kind = 0 && r.nd = 1 && (r.dims.map (·.1)).take 2 == [e0, e1]

/-- The runs of every element of a record, packed in element order. -/
def allRuns (r : Shape) : List VRun :=
  let b := unitBytes r.fmt
  joinRuns ((List.range (r.count / unitElems r.fmt)).map fun u => ⟨b * u, r.addr (u * unitElems r.fmt), b⟩)

/-- Checks the addresses of a record's elements. -/
def matSpans : List VRun → Exec (List (VRun × Span))
  | [] => pure []
  | r :: rest => do
    let l ← matSpan r.a r.n 1
    return (r, l) :: (← matSpans rest)

/-- The pieces of a record's elements: every address is checked before any is read. -/
def shapePieces (side : Nat) (l : List (VRun × Span)) : List StagePiece := l.flatMap fun e => piecesOf side e.1.a .buffer e.1.off e.2

/-- The slot of a handle that a matrix operation reads: it waits for CBF + 1 filled slots behind those already claimed. -/
def slotFor (h : Hdr) (k skip : Nat) : Exec Nat := do
  let b ← cbBound k
  if b.filled < h.cbf.toNat + 1 + skip then parkMessage
  claimHold k
  return b.slotOff ((b.c + skip) % 2 ^ 32)

/-- The pieces of a slot; one too small for its operand raises the alignment trap (R161, R224). -/
def slotPieces (k side off n : Nat) : Exec (List StagePiece) := do
  let b ← cbBound k; let core ← myCore
  if b.slotSz * 16 < n then alignTrap (space0 core off)
  return piecesOf side (space0 core off) .bank 0 [(← dataAddr off, n)]

/-- What MMA in form 0 makes illegal whatever its guard: its formats and K stand in the word (R102). -/
def mmaStatic (i : Instr) (fa fb k : Nat) (au bu : Bool) : Option TrapRec :=
  let bad := (au && !(fa = 7 || fa = 8)) || (bu && !(fb = 7 || fb = 8)) ||
    (match mmaRow fa fb with
     | some (g, kmax, _) => decide (k % g ≠ 0 ∨ kmax < k)
     | none => false)
  if bad then some (illegalOf i) else none

/-- The checks of MMA that need only the formats, the accumulator and k, in the order of R103. -/
def mmaChecks (bad : TrapRec) (acc : AccId) (codeA ta codeB tb k : Nat) (au bu : Bool) : Exec Unit := do
  if (au && !(ta = 7 || ta = 8)) || (bu && !(tb = 7 || tb = 8)) then throw (.trap bad)
  match mmaRow ta tb with
  | none => if (mmaRow ta ta).isNone then tagTrap codeA ta else tagTrap codeB tb
  | some (g, kmax, tag) =>
    if k % g ≠ 0 ∨ kmax < k then throw (.trap bad)
    let t ← accTag acc false
    if t ≠ tag then tagTrap (0x60 + acc.n) t

/-- The traps of MMA that its word alone raises. -/
def mmaBad (i : Instr) (x : MmaSrc) (k : BitVec 9) (au bu : Bool) : Option TrapRec :=
  match x with
  | .cbs _ _ fa fb => mmaStatic i fa.toNat fb.toNat k.toNat au bu
  | .shape _ _ => none

def execMma (h : Hdr) (acc : Fin 4) (x : MmaSrc) (k : BitVec 9) (au bu : Bool) (s : State) : Host.Outcome State Fault Refusal :=
  matCheck (mmaBad (.mma h acc x k au bu) x k au bu) h (do
    let bad := illegalOf (.mma h acc x k au bu)
    let id ← accOf acc
    let c ← capture
    let f32 := c.entry 1
    let bookA ← rdWin offMcbA 32
    let bookB ← rdWin offMcbB 32
    let n := k.toNat
    match x with
    | .shape a b =>
      checkHandle a.val; checkHandle b.val
      let ra ← readShape a
      let rb ← readShape b
      mmaChecks bad id a.val ra.fmt b.val rb.fmt n au bu
      if !mmaShapeOk ra n 64 then permTrap 0 a.val
      if !mmaShapeOk rb 64 n then permTrap 0 b.val
      let la ← matSpans (allRuns ra)
      let lb ← matSpans (allRuns rb)
      matOrder ((la ++ lb).flatMap (·.2))
      startStage h (.matrix (.mma id n ra.fmt rb.fmt 0 0 f32 bookA bookB au bu) none [] none) (shapePieces 0 la ++ shapePieces 1 lb)
    | .cbs a b fa fb =>
      mmaChecks bad id (0x80 + a.val) fa.toNat (0x80 + b.val) fb.toNat n au bu
      let _ ← cbBound a.val
      let _ ← cbBound b.val
      let na := 64 * n * tagBits fa.toNat / 8
      let nb := 64 * n * tagBits fb.toNat / 8
      let oa ← slotFor h a.val 0
      let ob ← slotFor h b.val (bit (a = b))
      let la ← slotPieces a.val 0 oa na
      let lb ← slotPieces b.val 1 ob nb
      startStage h (.matrix (.mma id n fa.toNat fb.toNat 0 0 f32 bookA bookB au bu) none [a.val, b.val] none) (la ++ lb)) s

def execMzero (h : Hdr) (acc : Fin 4) (int : Bool) (s : State) : Host.Outcome State Fault Refusal :=
  matIssue h (do
    let id ← accOf acc
    let tag := if int then 9 else 1
    noteTag id tag
    enqueueMat (.zero id tag)) s

/-! ### MRD (R227, R369) -/

/-- A row of the live accumulator: between two group updates of an MMA that executes on it (R227). -/
def liveRow (s : State) (a : AccId) (k i : Nat) : Nat :=
  let row := accRow (accRec s a).bits.toNat i
  match (s.core a.core).mqueue with
  | ⟨_, _, _, .mma x n ta tb va vb f32 bookA bookB au bu, true⟩ :: _ =>
    if x = a then mmaRowAfter n ta tb va vb f32 bookA bookB au bu i (Config.peekGroups k i % (mmaGroups n ta tb + 1)) row else row
  | _ => row

/-- An accumulator tagged RAW raises a format-tag trap; a peek sees the tag it has now. -/
def checkRead (a : AccId) (peek : Bool) : Exec Nat := do
  let t ← accTag a peek
  if t = 0 then tagTrap (0x60 + a.n) 0
  return t

def execMrd (h : Hdr) (x : MrdArg) (peek : Bool) (s : State) : Host.Outcome State Fault Refusal :=
  matIssue h (do
    match x with
    | .reg d acc r =>
      let id ← accOf acc
      checkHandle r.val
      let t ← checkRead id peek
      let row ← rdReg r.val
      if row.toNat > 63 then permTrap 0
      let k ← renV d.val
      let w := (← ctl).wsp
      fenceHold 4
      if peek then
        let n ← newFree
        enterPeek (.peekRow (liveRow (← get) id n row.toNat) t w k)
      else enqueueMat (.rowOut id row.toNat t w k)
    | .mem a acc =>
      let id ← accOf acc
      checkHandle a.val
      let _ ← checkRead id peek
      let v ← rdReg a.val
      let l ← matDest v 16384
      if peek then
        let n ← newFree
        let s ← get
        enterPeek (.peekMem (pack ((List.range 64).map fun i => (2048, liveRow s id n i))) l)
      else enqueueMat (.memOut id l)) s

/-! ### MST, MLD, MCVT and MCB (R370 to R372) -/

def execMst (h : Hdr) (a : Reg) (acc : Fin 4) (s : State) : Host.Outcome State Fault Refusal :=
  matIssue h (do
    let id ← accOf acc
    let v ← rd1 h (.w a)
    let l ← matDest v 16384
    enqueueMat (.memOut id l)) s

def execMld (h : Hdr) (acc : Fin 4) (a : Reg) (int : Bool) (s : State) : Host.Outcome State Fault Refusal :=
  matIssue h (do
    let id ← accOf acc
    let v ← rd1 h (.w a)
    let l ← matSpan v 16384 64
    matOrder l
    startStage h (.matrix (.load id 0 (if int then 9 else 1)) none [] none) (piecesOf 0 v .buffer 0 l)) s

def execMcvt (h : Hdr) (a : Reg) (acc : Fin 4) (x : Reg) (fmt : BitVec 4) (sgn : Bool) (s : State) : Host.Outcome State Fault Refusal :=
  matIssue h (do
    let id ← accOf acc
    checkHandle a.val; checkHandle x.val
    let t ← accTag id false
    if t ≠ 1 ∧ t ≠ 9 then tagTrap (0x60 + id.n) t
    let v ← rdReg a.val
    let sc ← rdReg x.val
    let l ← matDest v (512 * laneW fmt.toNat)
    let c ← capture
    enqueueMat (.convert id l t (sc.toNat % 2 ^ 32) fmt.toNat sgn c)) s

/-- MCB: the codebook takes effect with its last piece; its entry then takes its turn in the queue (R225, R372). -/
def execMcb (h : Hdr) (a : Reg) (side : Bool) (s : State) : Host.Outcome State Fault Refusal :=
  matIssue h (do
    let v ← rd1 h (.w a)
    let l ← matSpan v 32 32
    matOrder l
    startStage h (.matrix .codebook none [] (some side)) (piecesOf 0 v .buffer 0 l)) s

/-! ### MATRIX_OP_EXECUTE -/

/-- Writes a destination in memory: an engine write of whole granules, which sets full bits; the buffer drops its lines. -/
def matWrite (o : MatOp) (l : Span) (v : Nat) (s : State) : State :=
  let c := o.t.core
  let s := fillBanks (Span.write s v l) l
  let s := engTouch s c (viewSlice s o.t).part true l
  s.modCore c fun r => { r with operandBuf := r.operandBuf.filter fun x => !Span.meets l [(x.addr, 64)] }

/-- Writes a vector register of the workspace of the issue, while the thread lives. -/
def matRow (o : MatOp) (w : Word) (v bits tag : Nat) (s : State) : State :=
  match s.thread? o.t with
  | none => s
  | some th =>
    if slotGen s o.t ≠ o.gen then s
    else
      let sl := th.ctl.slice
      let s := winWrite s o.t sl w (offV v) 256 bits
      let x := winRead s o.t sl w offVtags 16
      winWrite s o.t sl w offVtags 16 (x - field x (4 * v) 4 * 2 ^ (4 * v) + tag * 2 ^ (4 * v))

/-- Whether the window that an operation writes a vector register in is resident, so that it can complete. -/
def rowThere (s : State) (o : MatOp) : Bool :=
  match o.op with
  | .rowOut _ _ _ w _ => windowThere s o.t w
  | .peekRow _ _ w _ => windowThere s o.t w
  | _ => true

def accBits (x : Nat) : AccBits := BitVec.ofNat _ x

/-- Executes an operation. -/
def matExecute (o : MatOp) (s : State) : State :=
  match o.op with
  | .mma a k ta tb va vb f32 bookA bookB au bu =>
    let r := accRec s a
    let rows := (List.range 64).map fun i => (2048, mmaRowAfter k ta tb va vb f32 bookA bookB au bu i (mmaGroups k ta tb) (accRow r.bits.toNat i))
    setAcc a ⟨accBits (pack rows), r.tag⟩ s
  | .zero a tag => setAcc a ⟨0, tag⟩ s
  | .rowOut a row tag w v => matRow o w v (accRow (accRec s a).bits.toNat row) tag s
  | .memOut a l => matWrite o l (accRec s a).bits.toNat s
  | .load a x tag => setAcc a ⟨accBits x, tag⟩ s
  | .convert a l tag scale fmt sgn c =>
    let r := accRec s a
    let w := laneW fmt
    let item := fun (i : Nat) =>
      (w, convertLane c sgn (laneValue c 0 true tag (field r.bits.toNat (32 * i) 32)) scale fmt)
    matWrite o l (pack ((List.range 4096).map item)) s
  | .copy d x => setAcc d (accRec s x) s
  | .codebook => s
  | .peekRow bits tag w v => matRow o w v bits tag s
  | .peekMem x l => matWrite o l x s

/-- MATRIX_OP_EXECUTE: the head of a core's queue, once staged, executes, or the oldest MRD.peek completes. An older peek goes first; a later one may. -/
def execMatrixOpExecute (c : CoreId) (s : State) : Host.Outcome State Fault Refusal :=
  let r := s.core c
  let head := fun (o : MatOp) => matExecute o (s.modCore c fun r => { r with mqueue := r.mqueue.drop 1 })
  let peek := fun (o : MatOp) => matExecute o (s.modCore c fun r => { r with peeks := r.peeks.drop 1 })
  match r.mqueue.head?.filter (fun o => o.staged && rowThere s o), r.peeks.head?.filter (rowThere s) with
  | none, none => .next s
  | some o, none => .next (head o)
  | none, some p => .next (peek p)
  | some o, some p =>
    if p.id < o.id ∨ Config.peekFirst s.free then
      .next { peek p with free := s.free + 1 }
    else .next { head o with free := s.free + 1 }

/-! ### MOV (R363) -/

/-- MOV: scalar, vector, mask or accumulator. -/
def execMov (h : Hdr) (d x : Opnd) (s : State) : Host.Outcome State Fault Refusal :=
  issueSeq h (do
    match d, x with
    | .v d, .v a => do
      let k ← renV a.val
      let t ← vTag k
      let b ← vBits k
      wrV (← renV d.val) b t
    | .v d, .ones => do wrV (← renV d.val) (2 ^ 2048 - 1) 0
    | .v d, _ => do wrV (← renV d.val) 0 0
    | .m d, .m a => do wrM d.val (← mBits a.val)
    | .m d, .ones => wrM d.val (2 ^ 256 - 1)
    | .m d, _ => wrM d.val 0
    | .acc d, .acc a => do
      let i ← accOf d
      let j ← accOf a
      if matFull (← get) (← me) then throw .hold
      noteTag i (← accTag j false)
      enqueueMat (.copy i j)
    | d, x => do
      let v ← rd1 h x [d]
      wrOpnd d v) s

end Sys2Proof.Machine
end

