-- ==== Sys2Proof/Machine/Attention.lean ====
section
/-!
DEFINITION. Sys2Proof/Machine/Attention.lean: class 13: sequence records and the winder (R241 to R247, R352), KVMATCH (R248), the prefix
index (R249 to R251, R387), the drafter (R252, R385), soft-maximum states (R253 to R255, R397) and RNG (R256, R394).
-/
namespace Sys2Proof.Machine

/-! ### Sequence records (R241, R242) -/

/-- An extent of a record, STRIDE in 64-byte units. -/
structure Extent where
  base : Nat
  len : Nat
  stride : Nat
deriving DecidableEq, Repr

/-- A sequence record; `exts` are all 16 extent slots. -/
structure SeqRec where
  ntok : Nat
  pool : Nat
  next : Nat
  blkt : Nat
  blkbytes : Nat
  exts : List Extent
deriving DecidableEq, Repr

def SeqRec.live (r : SeqRec) : List Extent := r.exts.take r.next
/-- Tokens of a block. -/
def SeqRec.tokens (r : SeqRec) : Nat := 2 ^ (4 + r.blkt)
def SeqRec.blocks (r : SeqRec) : Nat := (r.live.map (·.len)).foldl (· + ·) 0
def SeqRec.tokBytes (r : SeqRec) : Nat := r.blkbytes * 64 / r.tokens

def seqBytes : Nat := 320

def parseSeq (x : Nat) : SeqRec :=
  { ntok := field x 32 32, pool := field x 18 3, next := field x 13 5, blkt := field x 10 3, blkbytes := field x 0 10
    exts := (List.range 16).map fun e => ⟨field x (512 + 128 * e) 52, field x (592 + 128 * e) 16, field x (608 + 128 * e) 32⟩ }

def packSeq (r : SeqRec) : Nat :=
  pack ([(10, r.blkbytes), (3, r.blkt), (5, r.next), (3, r.pool), (11, 0), (32, r.ntok), (448, 0)] ++
    r.exts.flatMap fun e => [(52, e.base), (28, 0), (16, e.len), (32, e.stride)])

/-- The reserved fields of all slots are zero. -/
def seqReserved (x : Nat) : Bool :=
  field x 64 448 ≠ 0 || field x 21 11 ≠ 0 || (List.range 16).any fun e => field x (564 + 128 * e) 28 ≠ 0

/-- The first check of R242 that fails, codes 1 to 5; 0 where none does. -/
def seqCheck (x : Nat) : Nat :=
  let r := parseSeq x
  if seqReserved x then 1
  else if r.next > 16 ∨ r.blkt > 4 then 2
  else if r.blkbytes = 0 ∨ r.blkbytes * 64 % r.tokens ≠ 0 then 3
  else if r.live.any fun e => e.len = 0 || decide (e.stride < r.blkbytes) || e.base % 64 ≠ 0 then 4
  else if r.ntok > r.tokens * r.blocks then 5
  else 0

/-- The storage of n bytes of plain memory, at most two pages of them. -/
def plainPieces (a : Word) (n : Nat) (nd : Need) : Exec Span := do
  let core ← myCore
  let k := min n (2 ^ 16 - a.toNat % 2 ^ 16)
  let x ← translate a nd
  modify fun s => touchPlain s core x
  if k = n then return [(addrHbm core.pkg x, n)]
  let y ← translate (a + BitVec.ofNat 64 k) nd
  modify fun s => touchPlain s core y
  return [(addrHbm core.pkg x, k), (addrHbm core.pkg y, n - k)]

/-- The storage of a record at an address of R151. -/
def seqSpan (a : Word) (nd : Need) : Exec Span := do
  if wfield a 52 12 ≠ 0 then trapAt 4 a.toNat 4
  if a.toNat % 64 ≠ 0 then alignTrap a
  plainPieces a seqBytes nd

/-- A record that has passed R242. -/
def checkedSeq (a : Word) (x : Nat) : Exec SeqRec := do
  if seqCheck x ≠ 0 then permTrap a (seqCheck x)
  return parseSeq x

/-- Enters a record in the core's extent buffer, of 32 (R247). -/
def bufferSeq (a : Word) (x : Nat) : Exec Unit := do
  let core ← myCore; let p ← myPart
  modify fun s => s.modCore core fun r =>
    { r with ext := (⟨p, a.toNat, x⟩ :: r.ext.filter fun e => !decide (e.part = p ∧ e.va = a.toNat)).take 32 }

/-- The core's own KVEXT or KVTRUNC updates a record that the buffer holds. -/
def updateSeqBuffer (a : Word) (x : Nat) : Exec Unit := do
  let core ← myCore; let p ← myPart
  modify fun s => s.modCore core fun r =>
    { r with ext := r.ext.map fun e => if e.part = p ∧ e.va = a.toNat then { e with bits := x } else e }

/-- Reads a record through the extent buffer, which may serve one it holds. -/
def readSeq (a : Word) : Exec Nat := do
  let core ← myCore; let p ← myPart
  if wfield a 52 12 ≠ 0 then trapAt 4 a.toNat 4
  if a.toNat % 64 ≠ 0 then alignTrap a
  let served : Option Nat ← match ((← get).core core).ext.find? fun e => decide (e.part = p ∧ e.va = a.toNat) with
    | some e => do
      let k ← newFree
      pure (if Config.extentBufferServes k then some e.bits else none)
    | none => pure none
  match served with
  | some x => return x
  | none =>
    let x ← readSpan a (← seqSpan a .rd)
    bufferSeq a x
    return x

/-! ### KVMAP (R243) -/

/-- The address of block j of a list of extents. -/
def blockAddr : List Extent → Nat → Option Nat
  | [], _ => none
  | e :: r, j => if j < e.len then some (e.base + j * e.stride * 64) else blockAddr r (j - e.len)

def execKvmap (h : Hdr) (gd : BitVec 3) (d : Reg) (a p : Opnd) (s : State) : Host.Outcome State Fault Refusal :=
  issueSeq h (do
    let (v, q) ← rd2 h a (.op p)
    fenceHold 5
    let r ← checkedSeq v (← readSeq v)
    match blockAddr r.live (q.toNat / r.tokens) with
    | none => do
      wrReg d 0
      setGuard gd false
    | some x => do
      wrReg d (BitVec.ofNat 64 (x + q.toNat % r.tokens * r.tokBytes))
      setGuard gd true) s

/-! ### The winder (R244 to R246) -/

/-- A pool: configured, ORD, UNIT in 64-byte units, and its base address. -/
structure Pool where
  v : Bool
  ord : Nat
  unit : Nat
  base : Nat
deriving DecidableEq, Repr

def poolOf (r : PartRec) (n : Nat) : Pool :=
  let w := tget r.wpools n 0
  ⟨bitAt w 63, wfield w 58 5, wfield w 48 10, wfield w 0 36 * 2 ^ 16⟩

/-- The free blocks of a pool, as (order, first unit): all of it where nothing is recorded. -/
def freeOf (r : PartRec) (n : Nat) : List (Nat × Nat) := tget r.wfree n [((poolOf r n).ord, 0)]

/-- The free block that holds block u of order o. -/
def holder (l : List (Nat × Nat)) (o u : Nat) : Option (Nat × Nat) := l.find? fun (k, x) => decide (o ≤ k ∧ x = u / 2 ^ k * 2 ^ k)

/-- The halves left over when block u of order o is split from block x of order o + d. -/
def splitRest (o u : Nat) : (d : Nat) → (x : Nat) → List (Nat × Nat)
  | 0, _ => []
  | d + 1, x =>
    let half := x + 2 ^ (o + d)
    if half ≤ u then (o + d, x) :: splitRest o u d half else (o + d, half) :: splitRest o u d x

/-- Takes block u of order o out of the free block that holds it. -/
def takeBlock (l : List (Nat × Nat)) (b : Nat × Nat) (o u : Nat) : List (Nat × Nat) := l.filter (· ≠ b) ++ splitRest o u (b.1 - o) b.2

/-- A freed block coalesces with its free buddy, order by order. -/
def giveBlock (l : List (Nat × Nat)) : (left : Nat) → (o u : Nat) → List (Nat × Nat)
  | 0, o, u => l ++ [(o, u)]
  | n + 1, o, u =>
    let buddy := if u / 2 ^ o % 2 = 0 then u + 2 ^ o else u - 2 ^ o
    if l.contains (o, buddy) then giveBlock (l.filter (· ≠ (o, buddy))) n (o + 1) (min u buddy) else l ++ [(o, u)]

/-- The smallest free block of order at least o, the lowest-addressed of them. -/
def smallestBlock (l : List (Nat × Nat)) (o : Nat) : Option (Nat × Nat) :=
  (l.filter fun b => decide (o ≤ b.1)).foldl (fun best b =>
    match best with
    | none => some b
    | some c => if b.1 < c.1 ∨ (b.1 = c.1 ∧ b.2 < c.2) then some b else best) none

/-- ceil(log2 n), for n > 0. -/
def clog2 (n : Nat) : Nat := if n ≤ 1 then 0 else Nat.log2 (n - 1) + 1

/-- What KVEXT does to a record and its pool's free blocks: the record, the blocks, w_d and the guard (R245). -/
def kvext (p : Pool) (free : List (Nat × Nat)) (r : SeqRec) (n : Nat) : Option (SeqRec × List (Nat × Nat) × Nat) :=
  let need := (n + r.tokens - 1) / r.tokens
  if need ≤ r.blocks then some ({ r with ntok := max r.ntok n }, free, 0)
  else
    let b := need - r.blocks
    if b > 32768 then none
    else
      let o := clog2 b
      let merge : Option (Extent × (Nat × Nat) × Nat) := do
        let l ← r.live.getLast?
        let top := l.base + l.len * p.unit * 64
        if l.stride ≠ p.unit ∨ top < p.base ∨ (top - p.base) % (p.unit * 64) ≠ 0 then none
        let u := (top - p.base) / (p.unit * 64)
        if u % 2 ^ o ≠ 0 ∨ u + 2 ^ o > 2 ^ p.ord ∨ l.len + 2 ^ o > 65535 then none
        let k ← holder free o u
        return (l, k, u)
      match merge with
      | some (l, k, u) =>
        some ({ r with ntok := n, exts := setAt r.exts (r.next - 1) { l with len := l.len + 2 ^ o } }, takeBlock free k o u, 2 ^ o)
      | none =>
        match smallestBlock free o with
        | none => none
        | some k =>
          if r.next ≥ 16 then none
          else
            some ({ r with ntok := n, next := r.next + 1, exts := setAt r.exts r.next ⟨p.base + k.2 * p.unit * 64, 2 ^ o, p.unit⟩ },
              takeBlock free k o k.2, 2 ^ o)

/-- The addresses of the blocks of a list of extents after the first `keep`, extent by extent. -/
def laterBlocks : List Extent → Nat → List Nat
  | [], _ => []
  | e :: r, keep => (nrange keep (e.len - keep)).map (fun i => e.base + i * e.stride * 64) ++ laterBlocks r (keep - e.len)

/-- The extents that hold the first `keep` blocks. -/
def keepExtents : List Extent → Nat → List Extent
  | [], _ => []
  | e :: r, keep => if keep = 0 then [] else { e with len := min e.len keep } :: keepExtents r (keep - e.len)

/-- The unit of a block that is allocated, none where R242 gives code 7. -/
def blockUnit (p : Pool) (free : List (Nat × Nat)) (a : Nat) : Option Nat :=
  let u := (a - p.base) / (p.unit * 64)
  if a < p.base ∨ (a - p.base) % (p.unit * 64) ≠ 0 ∨ u ≥ 2 ^ p.ord ∨ (holder free 0 u).isSome then none else some u

/-- What KVTRUNC to n ≤ NTOK tokens does (R246); none where a block is not an allocated block of the pool. -/
def kvtrunc (p : Pool) (free : List (Nat × Nat)) (r : SeqRec) (n : Nat) : Option (SeqRec × List (Nat × Nat) × Nat) :=
  let keep := (n + r.tokens - 1) / r.tokens
  match (laterBlocks r.live keep).mapM (blockUnit p free) with
  | none => none
  | some us =>
    if us.eraseDups.length ≠ us.length then none
    else
      let kept := keepExtents r.live keep
      some ({ r with ntok := n, next := kept.length, exts := kept ++ (r.exts.drop kept.length).zipIdx.map fun (e, i) =>
                if i + kept.length < r.next then { e with len := 0 } else e },
        us.foldl (fun l u => giveBlock l p.ord 0 u) free, us.length)

/-- A record's read, check and update in one step (R247). Where nothing is done, the guard is false, and `zero` says whether w_d becomes 0
(R245) or keeps its value (R246). -/
def updateSeq (h : Hdr) (gd : BitVec 3) (d : Reg) (a n : Opnd) (zero : Bool)
    (f : Word → SeqRec → Pool → List (Nat × Nat) → Nat → Exec (Option (SeqRec × List (Nat × Nat) × Nat))) (s : State) :
    Host.Outcome State Fault Refusal :=
  issueSeq h (do
    let (v, q) ← rd2 h a (.op n)
    fenceHold 5
    let _ ← seqSpan v .rd
    let l ← seqSpan v .wr
    waitConfirmed
    let r ← checkedSeq v (← readSpan v l)
    let part ← myPart
    let p := (← get).part part
    let pool := poolOf p r.pool
    if !pool.v then permTrap v 6
    match ← f v r pool (freeOf p r.pool) q.toNat with
    | none => do
      if zero then wrReg d 0
      setGuard gd false
    | some (r', free, x) => do
      modify fun s => Span.write (s.modPart part fun y => { y with wfree := tput y.wfree r.pool free }) (packSeq r') l
      watchSpan l true
      updateSeqBuffer v (packSeq r')
      wrReg d (BitVec.ofNat 64 x)
      setGuard gd true) s

def execKvext (h : Hdr) (gd : BitVec 3) (d : Reg) (a n : Opnd) (s : State) :=
  updateSeq h gd d a n true (fun _ r p free n => return if n > 0xFFFFFFFF then none else kvext p free r n) s

def execKvtrunc (h : Hdr) (gd : BitVec 3) (d : Reg) (a n : Opnd) (s : State) :=
  updateSeq h gd d a n false (fun v r p free n => do
    if n > r.ntok then return none
    if n = r.ntok then return some (r, free, 0)
    let x ← orStop (kvtrunc p free r n) (.trap (mkTrap 5 v.toNat 7))
    return some x) s

/-! ### KVMATCH (R248) -/

/-- Leading equal 32-bit tokens among n. -/
def leadingEqual (x y : Nat) : (n : Nat) → Nat
  | 0 => 0
  | n + 1 => if x % 2 ^ 32 = y % 2 ^ 32 then leadingEqual (x / 2 ^ 32) (y / 2 ^ 32) n + 1 else 0

/-- n tokens at a 4-byte aligned local address. -/
def readTokens (a : Word) (n : Nat) : Exec Nat := do
  if n = 0 then
    if a.toNat % 4 ≠ 0 then alignTrap a
    return 0
  readSpan a (← localSpan a (4 * n) 4 false)

def execKvmatch (h : Hdr) (gd : BitVec 3) (d : Reg) (a b n : Opnd) (s : State) : Host.Outcome State Fault Refusal :=
  issueSeq h (do
    let (x, y, k) ← rd3 h a b n
    if k.toNat > 65536 then permTrap 0
    fenceHold 5
    let p ← readTokens x k.toNat
    let q ← readTokens y k.toNat
    let c := leadingEqual p q k.toNat
    wrReg d (BitVec.ofNat 64 c)
    setGuard gd (decide (c = k.toNat))) s

/-! ### The prefix index (R249 to R251, R387) -/

/-- An entry of the index. -/
structure PxEnt where
  v : Bool
  res : Nat
  age : Nat
  gen : Nat
  tokm1 : Nat
  parent : Nat
  value : Nat
  tref : Nat
  hash : Nat
deriving DecidableEq, Repr

def parsePx (x : Nat) : PxEnt :=
  ⟨x.testBit 255, field x 242 13, field x 240 2, field x 232 8, field x 224 8, field x 192 32, field x 128 64, field x 64 64, field x 0 64⟩

def packPx (e : PxEnt) : Nat :=
  pack [(64, e.hash), (64, e.tref), (64, e.value), (32, e.parent), (8, e.tokm1), (8, e.gen), (2, e.age), (13, e.res), (1, bit e.v)]

/-- An entry with a nonzero reserved field is treated as invalid. -/
def PxEnt.valid (e : PxEnt) : Bool := e.v && e.res = 0

/-- A touch of way w. -/
def touchWay (ways : List PxEnt) (w : Nat) : List PxEnt :=
  let a := ((ways[w]?).map (·.age)).getD 0
  ways.zipIdx.map fun (e, i) => if i = w then { e with age := 0 } else if e.age < a then { e with age := e.age + 1 } else e

/-- The first n tokens of a Present tile, none where the version is not Present; a tile too small holds no such tokens. -/
def tileTokens (s : State) (c : CoreId) (p : PartId) (ref : Nat) (n : Nat) : Option (Option Nat) × State :=
  let r := BitVec.ofNat 64 ref
  if refName r / 4096 ≥ (s.part p).nregion.toNat then (none, s)
  else
    let (h, s) := nameHome s c p (refName r)
    match findVer s h (verPart h p) (refName r) (refVer r) with
    | some v =>
      if v.st = .present then (some (if tileBytes v.size < 4 * n then none else some (field v.data 0 (32 * n))), s) else (none, s)
    | none => (none, s)

/-- What the examination of a bucket finds: the ways as they become, the matching way and COLL. -/
structure PxScan where
  ways : List PxEnt
  hit : Option Nat
  coll : Bool
deriving DecidableEq, Repr

/-- Examines way w for hash, parent and tokens (R250): a way whose tile is not Present loses its V. -/
def scanWay (s : State) (c : CoreId) (p : PartId) (hash parent tokm1 : Nat) (toks : Option Nat) (x : PxScan) (w : Nat) : PxScan × State :=
  match x.ways[w]? with
  | none => (x, s)
  | some e =>
    if x.hit.isSome ∨ !e.valid ∨ e.hash ≠ hash then (x, s)
    else if e.parent ≠ parent ∨ e.tokm1 ≠ tokm1 then ({ x with coll := true }, s)
    else
      match tileTokens s c p e.tref (tokm1 + 1) with
      | (none, s) => ({ x with ways := setAt x.ways w { e with v := false } }, s)
      | (some t, s) =>
        if t.isSome ∧ t = toks then ({ x with hit := some w }, s) else ({ x with coll := true }, s)

def scanBucket (s : State) (c : CoreId) (p : PartId) (hash parent tokm1 : Nat) (toks : Option Nat) (ways : List PxEnt) : PxScan × State :=
  (List.range 4).foldl (fun (x, s) w => scanWay s c p hash parent tokm1 toks x w) (⟨ways, none, false⟩, s)

/-- PXCTL's fields, or the permission trap while EN = 0. -/
def pxBucket (hash : Word) (nd : Need) : Exec (Nat × Word × Span) := do
  let p ← myPart
  let ctl := ((← get).part p).pxctl
  let i := hash.toNat % 2 ^ wfield ctl 52 5
  let a : Word := BitVec.ofNat 64 (wfield ctl 7 45 * 128 + 128 * i)
  return (i, a, ← plainPieces a 128 nd)

def pxEnabled : Exec Unit := do
  let p ← myPart
  if !bitAt ((← get).part p).pxctl 63 then permTrap 0

def readWays (a : Word) (l : Span) : Exec (List PxEnt) := do
  let x ← readSpan a l
  return (List.range 4).map fun w => parsePx (field x (256 * w) 256)

def writeWays (l : Span) (ways : List PxEnt) : Exec Unit :=
  modify fun s => Span.write s (pack (ways.map fun e => (256, packPx e))) l

/-- The identifier of way w of bucket i. -/
def pxIdent (gen i w : Nat) : Nat := gen * 2 ^ 24 + 4 * i + w

def pxStatus (hit coll badref : Bool) (ident : Nat) : Word :=
  BitVec.ofNat 64 (ident + bit hit * 2 ^ 32 + bit coll * 2 ^ 33 + bit badref * 2 ^ 34)

/-- The empty prefix's identifier. -/
def pxNone : Nat := 0xFFFFFFFF

def execPxlook (h : Hdr) (gd : BitVec 3) (d : Reg) (hash p t n : Opnd) (s : State) : Host.Outcome State Fault Refusal :=
  issueSeq h (do
    pxEnabled
    waitOpnds h [hash, p, t, n] []
    let hv ← rdOpnd h hash
    let pv ← rdOpnd h p
    let tv ← rdOpnd h t
    let nv ← rdOpnd h n
    if wfield pv 32 32 ≠ 0 ∨ nv = 0 ∨ nv.toNat > 256 then permTrap 0
    if tv.toNat % 4 ≠ 0 then alignTrap tv
    fenceHold 5
    let toks ← readTokens tv nv.toNat
    let (i, a, l) ← pxBucket hv .rd
    let ways ← readWays a l
    let core ← myCore; let part ← myPart
    let (x, s) := scanBucket (← get) core part hv.toNat pv.toNat (nv.toNat - 1) (some toks) ways
    set s
    let d1 : Reg := Fin.ofNat 64 (d.val + 1)
    match x.hit with
    | some w => do
      let e := (x.ways[w]?).getD (parsePx 0)
      writeWays l (touchWay x.ways w)
      wrReg d (BitVec.ofNat 64 e.value)
      wrReg d1 (pxStatus true false false (pxIdent e.gen i w))
      setGuard gd true
    | none => do
      if x.ways ≠ ways then writeWays l x.ways
      wrReg d 0
      wrReg d1 (pxStatus false x.coll false pxNone)
      setGuard gd false) s

/-- Whether a reference's version is Present and pinned. -/
def isPinned (s : State) (c : CoreId) (p : PartId) (ref : Nat) : Bool :=
  let r := BitVec.ofNat 64 ref
  decide (refName r / 4096 < (s.part p).nregion.toNat) &&
  (let (h, s) := nameHome s c p (refName r)
   match findVer s h (verPart h p) (refName r) (refVer r) with
   | some v => decide (v.st = .present ∧ v.count = 0xFFFF)
   | none => false)

/-- The way that an insertion fills: the lowest-numbered invalid way, or the one with AGE 3. -/
def victimWay (ways : List PxEnt) : Nat :=
  match ways.zipIdx.find? fun (e, _) => !e.valid with
  | some (_, i) => i
  | none => ((ways.zipIdx.find? fun (e, _) => e.age = 3).map (·.2)).getD 0

def execPxins (h : Hdr) (gd : BitVec 3) (d : Reg) (r : Opnd) (s : State) : Host.Outcome State Fault Refusal :=
  issueSeq h (do
    pxEnabled
    let rv ← rd1 h r
    if rv.toNat % 32 ≠ 0 then alignTrap rv
    let sp ← localSpan rv 32 32 false
    let e := parsePx (← readSpan rv sp)
    if e.res ≠ 0 then permTrap rv
    fenceHold 5
    let (i, a, l) ← pxBucket (BitVec.ofNat 64 e.hash) .wr
    waitConfirmed
    let core ← myCore; let part ← myPart
    if !isPinned (← get) core part e.tref then
      wrReg d (pxStatus false false true pxNone)
      setGuard gd false
    else
      let ways ← readWays a l
      let (toks, s) := tileTokens (← get) core part e.tref (e.tokm1 + 1)
      let (x, s) := scanBucket s core part e.hash e.parent e.tokm1 toks.join ways
      set s
      match x.hit with
      | some w => do
        writeWays l (touchWay x.ways w)
        wrReg d (pxStatus true false false (pxIdent (((x.ways[w]?).map (·.gen)).getD 0) i w))
        setGuard gd false
      | none => do
        let w := victimWay x.ways
        let old := (x.ways[w]?).getD (parsePx 0)
        let gen := (old.gen + 1) % 256
        writeWays l (touchWay (setAt x.ways w { e with v := true, res := 0, age := old.age, gen := gen }) w)
        wrReg d (pxStatus false x.coll false (pxIdent gen i w))
        setGuard gd true) s

/-! ### The drafter (R252, R385) -/

/-- Reads the records of a batch. -/
def readBatch : List Word → Exec (List (Nat × Nat × Nat))
  | [] => pure []
  | a :: r => do
    let x ← readSeq a
    let q := parseSeq x
    return (seqCheck x, q.ntok, q.tokens) :: (← readBatch r)

def execPlan (h : Hdr) (d b o c : Reg) (s : State) : Host.Outcome State Fault Refusal :=
  issueSeq h (do
    let (loc, fa) ← futLocation d
    let (bv, ov, cv) ← rd3 h (.w b) (.w o) (.w c)
    let cores := wfield cv 0 8 + 1
    let seg := wfield cv 16 4
    if wfield cv 8 8 ≠ 0 ∨ wfield cv 20 44 ≠ 0 ∨ cores > 192 ∨ seg < 6 ∨ seg > 12 then permTrap 0
    if bv.toNat % 8 ≠ 0 then alignTrap bv
    let head ← readSpan bv (← localSpan bv 8 8 false)
    let n := head % 2 ^ 16
    if n = 0 ∨ n > 1024 ∨ head ≥ 2 ^ 16 then permTrap bv
    let list ← localSpan bv (8 + 8 * n) 8 false
    if ov.toNat % 2 ^ seg ≠ 0 then alignTrap ov
    let dst ← localSpan ov (cores * 2 ^ seg) 1 false
    waitConfirmed
    fenceHold 5
    let x ← readSpan bv list
    let recs ← readBatch ((List.range n).map fun i => BitVec.ofNat 64 (field x (64 + 64 * i) 64))
    let t ← me; let gen ← myGen
    let f ← makeFuture d loc fa
    let id ← newOp
    let e : PlanOp := ⟨id, t, gen, f, recs, dst, seg, cores, 0⟩
    modify fun s => { s with nt := { s.nt with plans := s.nt.plans ++ [e] } }) s

/-- The blocks of each sequence. -/
def PlanOp.blocks (p : PlanOp) : List Nat := p.recs.map fun r => (r.2.1 + r.2.2 - 1) / r.2.2

/-- The code of the first record that R242 refuses; 0 where all pass. -/
def PlanOp.refused (p : PlanOp) : Nat := ((p.recs.map (·.1)).find? (· ≠ 0)).getD 0

/-- Whether an earlier plan of the same thread writes where this one does: the later one waits (R203). -/
def planWaits (s : State) (p : PlanOp) : Bool :=
  s.nt.plans.any fun q => decide (q.t = p.t ∧ q.gen = p.gen ∧ q.id < p.id) && Span.meets q.dst p.dst

/-- The chains of a share of n blocks that begins at block `skip` of the sequences from number i: sequence, first block, count. -/
def chainsOf : List Nat → (i skip n : Nat) → List (Nat × Nat × Nat)
  | [], _, _, _ => []
  | b :: r, i, skip, n =>
    if n = 0 then []
    else if b ≤ skip then chainsOf r (i + 1) (skip - b) n
    else
      let k := min n (b - skip)
      (i, skip, k) :: chainsOf r (i + 1) 0 (n - k)

/-- Core j's share: its first block in the global order and its number of blocks. -/
def shareOf (total cores j : Nat) : Nat × Nat :=
  let q := total / cores; let rm := total % cores
  (j * q + min j rm, q + bit (decide (j < rm)))

def setPlan (s : State) (k : Nat) (p : PlanOp) : State := { s with nt := { s.nt with plans := setAt s.nt.plans k p } }
def dropPlan (s : State) (k : Nat) : State := { s with nt := { s.nt with plans := dropAt s.nt.plans k } }

/-- An engine's write of a segment's bytes. -/
def planWrite (p : PlanOp) (part : PartId) (off n v : Nat) (s : State) : State :=
  let l := subSpan p.dst off n
  engTouch (fillBanks (Span.write s v l) l) p.t.core part true l

/-- PLAN_EXECUTE: the k-th plan writes its next segment, the header last, and after the last one resolves its future. -/
def execPlanExecute (k : Nat) (s : State) : Host.Outcome State Fault Refusal :=
  match s.nt.plans[k]? with
  | none => .next s
  | some p =>
    let part := p.fut.slice.part
    if planWaits s p then .next s
    else if p.refused ≠ 0 then .next (engResolve (dropPlan s k) p.fut 3 (faultResult (mkTrap 5 0 p.refused)))
    else
      let total := p.blocks.foldl (· + ·) 0
      let (first, count) := shareOf total p.cores p.next
      let chains := chainsOf p.blocks 0 first count
      let off := p.next * 2 ^ p.segLog2
      if chains.length > 2 ^ p.segLog2 / 16 - 1 then .next (engResolve (dropPlan s k) p.fut 3 (faultResult (mkTrap 5 0 0)))
      else if Span.typed s (subSpan p.dst off (16 + 16 * chains.length)) then
        .next (engResolve (dropPlan s k) p.fut 3 (faultResult (mkTrap 14 0 0)))
      else
        let body := pack (chains.map fun (i, b, n) => (128, i + b * 2 ^ 16 + n * 2 ^ 64))
        let s := planWrite p part (off + 16) (16 * chains.length) body s
        let s := planWrite p part off 16 (chains.length + count * 2 ^ 16) s
        if p.next + 1 < p.cores then .next (setPlan s k { p with next := p.next + 1 })
        else .next (engResolve (dropPlan s k) p.fut 2 (total % 2 ^ 32))

/-! ### Soft-maximum states (R253 to R255, R397) -/

/-- A state register: even after renaming, its pair tagged FP32. -/
def stateReg (bad : TrapRec) (v : VReg) : Exec Nat := do
  let k ← renV v.val
  if k % 2 ≠ 0 then throw (.trap bad)
  return k

def checkState (k : Nat) : Exec Unit := checkAllTags 1 [k, k + 1]

def fp32NegInf : Nat := 0xFF800000

/-- The larger running maximum; a NaN in either gives a NaN. -/
def smxMax (c : Captured) (a b : Nat) : Nat :=
  if (decodeF fp32 a).isNaN || (decodeF fp32 b).isNaN then (addF c fp32 a b).bits else (minMaxF true c fp32 a b).bits

/-- The weight α of a state with maximum x under the maximum m. -/
def smxAlpha (c : Captured) (x m : Nat) : Nat :=
  if x = fp32NegInf then 0
  else if (fcmpBin c fp32 0 x m).1 = some .eq then 0x3F800000
  else expLane c fp32 (subF c fp32 x m).bits

def smxMix (c : Captured) (x a y b : Nat) : Nat := (addF c fp32 (mulF c fp32 x a).bits (mulF c fp32 y b).bits).bits

def execSmxm (h : Hdr) (d a b : VReg) (s : State) : Host.Outcome State Fault Refusal :=
  issueCheck (badNumbers (illegalOf (.smxm h d a b)) ([d, a, b].any fun v => decide (v.val % 2 ≠ 0)) s) h (do
    let bad := illegalOf (.smxm h d a b)
    let kd ← stateReg bad d
    let ka ← stateReg bad a
    let kb ← stateReg bad b
    checkState ka
    checkState kb
    let c ← capture
    let oa ← vBits ka
    let ma ← vBits (ka + 1)
    let ob ← vBits kb
    let mb ← vBits (kb + 1)
    let m := smxMax c (lane ma 32 0) (lane mb 32 0)
    let wa := smxAlpha c (lane ma 32 0) m
    let wb := smxAlpha c (lane mb 32 0) m
    wrV kd (packLanes 32 fun j => smxMix c (lane oa 32 j) wa (lane ob 32 j) wb) 1
    wrV (kd + 1) (m + smxMix c (lane ma 32 1) wa (lane mb 32 1) wb * 2 ^ 32) 1
    return .seq) s

def execSmxf (h : Hdr) (gd : BitVec 3) (d x : VReg) (s : State) : Host.Outcome State Fault Refusal :=
  issueCheck (badNumbers (illegalOf (.smxf h gd d x)) (decide (x.val % 2 ≠ 0)) s) h (do
    let k ← stateReg (illegalOf (.smxf h gd d x)) x
    checkState k
    let c ← capture
    let o ← vBits k
    let m ← vBits (k + 1)
    let kd ← renV d.val
    if lane m 32 0 = fp32NegInf then
      wrV kd 0 1
      setGuard gd true
    else
      wrV kd (packLanes 32 fun j => (divF c fp32 (lane o 32 j) (lane m 32 1)).bits) 1
      setGuard gd false
    return .seq) s

/-! ### RNG (R256, R394) -/

def rotl32 (x n : Nat) : Nat := (x * 2 ^ n + x / 2 ^ (32 - n)) % 2 ^ 32

/-- The four words of the mixer. -/
structure Mix where
  x0 : Nat
  x1 : Nat
  x2 : Nat
  x3 : Nat
deriving DecidableEq, Repr

/-- Round t of the device's stream mixer. -/
def mixRound (k0 k1 k2 k3 t : Nat) (x : Mix) : Mix :=
  let kA := (k0 + t * 0x71D346B9) % 2 ^ 32
  let kB := (k1 + t * 0x2F8AD5C3) % 2 ^ 32
  let kC := k2 ^^^ rotl32 kA 7
  let kD := k3 ^^^ rotl32 kB 13
  let y0 := (x.x0 ^^^ kA) * 0xB4E92D6B % 2 ^ 32
  let y1 := (x.x1 ^^^ kB) * 0xE17C3A95 % 2 ^ 32
  let y2 := rotl32 ((x.x2 + y0) % 2 ^ 32) 11 ^^^ kC
  let y3 := rotl32 ((x.x3 + y1) % 2 ^ 32) 19 ^^^ kD
  ⟨y2 ^^^ (y1 / 2 ^ 15), y3 ^^^ (y0 / 2 ^ 15), y1, y0⟩

/-- Block j for a counter and a key. -/
def mixBlock (key c j : Nat) : Nat :=
  let k := fun i => field key (32 * i) 32
  let x := (List.range 12).foldl (fun x t => mixRound (k 0) (k 1) (k 2) (k 3) t x) ⟨field c 0 32, field c 32 32, j, j ^^^ 0xFFFFFFFF⟩
  pack [(32, x.x0), (32, x.x1), (32, x.x2), (32, x.x3)]

/-- (lane >> 8) × 2^−24 in FP32. -/
def unitFloat (x : Nat) : Nat := (roundF ⟨0, 0⟩ fp32 0 false false (x / 256) (-24)).bits

def execRng (h : Hdr) (d : VReg) (c k : Reg) (u : Bool) (s : State) : Host.Outcome State Fault Refusal :=
  issueSeq h (do
    checkHandle c.val; checkHandle k.val
    let cv ← rdReg c.val
    let kv ← rdReg k.val
    let key ← readSpan kv (← localSpan kv 16 16 false)
    let x := pack ((List.range 16).map fun j => (128, mixBlock key cv.toNat j))
    let kd ← renV d.val
    if u then wrV kd (packLanes 32 fun j => unitFloat (lane x 32 j)) 1 else wrV kd x 9
    wrReg c (cv + 1)) s

end Sys2Proof.Machine
end

