-- ==== Sys2Proof/Machine/Carder.lean ====
section
/-!
DEFINITION. Sys2Proof/Machine/Carder.lean: the Carder (R272 to R283, R325): its events, windows and pipelines, the CD group, the
filter loader and the object table; and the state-change log of R284.
-/
namespace Sys2Proof.Machine

/-! ### Windows and budgets (R275) -/

/-- The instructions a partition is granted in a window. -/
def cdGrant (s : State) (p : PartId) : Nat := wfield (s.part p).mode 16 16 * 64

/-- A count after k further windows: each gives the grant, and a negative count is carried. -/
def cdCarry (grant : Nat) (k : Nat) (count : Int) : Int :=
  if k = 0 then count
  else if 0 ≤ count + (k - 1) * grant then grant
  else count + k * grant

/-- The window of device time. -/
def cdWindow (s : State) : Nat := s.dtime.toNat / 1000000

/-- The window in which the device now is has begun: every listed count has been renewed. -/
def syncWindow (d : DieId) (s : State) : State :=
  let w := cdWindow s
  s.modDie d fun r =>
    { r with window := w, budget := r.budget.map fun e => (e.1, cdCarry (cdGrant s e.1) (w - r.window) e.2) }

/-- A partition's remaining count: the whole grant where it is not listed. -/
def cdCount (s : State) (d : DieId) (p : PartId) : Int := tget (s.die d).budget p (cdGrant s p)

/-- A saturating 32-bit count. -/
def sat32 (n : Nat) : Nat := min n 0xFFFFFFFF

def countOverload (s : State) (d : DieId) (p : PartId) : State :=
  s.modDie d fun r => { r with overload := tupd r.overload p 0 fun n => sat32 (n + 1) }
def countBudgetDrop (s : State) (d : DieId) (p : PartId) : State :=
  s.modDie d fun r => { r with budgetDrops := tupd r.budgetDrops p 0 fun n => sat32 (n + 1) }

/-! ### Pipelines (R274, R276) -/

/-- The pipeline of a partition's events: its die index modulo 4, none where it has no unit on the die. -/
def cdPipe (s : State) (d : DieId) (p : PartId) : Option Nat :=
  ((s.part p).units.filter fun u => decide (u / 12 = d.die)).min?.map fun u => u % 12 % 4

def FSlot.runs (f : FSlot) (e : CdEvent) : Bool := f.v && decide (f.part = e.part.num ∧ f.cls = e.cls)

def State.fslot (s : State) (d : DieId) (i : Nat) : FSlot := tget (s.die d).fslots i .reset
def State.modFslot (s : State) (d : DieId) (i : Nat) (f : FSlot → FSlot) : State :=
  s.modDie d fun r => { r with fslots := tupd r.fslots i .reset f }
def State.pipe (s : State) (d : DieId) (p : Nat) : Pipe := tget (s.die d).pipes p .reset
def State.setPipe (s : State) (d : DieId) (p : Nat) (x : Pipe) : State := s.modDie d fun r => { r with pipes := tput r.pipes p x }

/-- The next slot, from number `lo`, that an event runs. -/
def cdNextSlot (s : State) (d : DieId) (e : CdEvent) (lo : Nat) : Option Nat :=
  (List.range 64).find? fun i => decide (lo ≤ i) && (s.fslot d i).runs e

/-- A pipeline takes the first event of its queue that runs a program: those before it are dropped for want of budget, or run none. -/
def cdTake (d : DieId) (p : Nat) (q : List CdEvent) (s : State) : State :=
  match q with
  | [] => s.setPipe d p ⟨[], none⟩
  | e :: q =>
    if cdCount s d e.part ≤ 0 then cdTake d p q (countBudgetDrop s d e.part)
    else
      match cdNextSlot s d e 0 with
      | none => cdTake d p q s
      | some i => s.setPipe d p ⟨q, some ⟨e, i, 0, 0⟩⟩

/-- Writes a slot: V, PART, CLASS and LENM1 of the descriptor, and for V = 1 the program, with the registers reading 0. -/
def fslotWrite (f : FSlot) (desc : Word) (words : List (BitVec 32)) : FSlot :=
  let v := bitAt desc 63
  let f := { f with v := v, part := wfield desc 52 6, cls := wfield desc 48 4, lenM1 := wfield desc 42 6, staged := none }
  if v then { f with prog := words, regs := List.replicate 16 0 } else f

/-- An event completes: its instructions are charged, the loads that waited for it take effect, and the next event begins. -/
def cdComplete (d : DieId) (p : Nat) (r : CdRun) (s : State) : State :=
  let s := syncWindow d s
  let left := cdCount s d r.ev.part - r.used
  let s := s.modDie d fun x =>
    { x with budget := tput x.budget r.ev.part left
             fslots := x.fslots.map fun e => (e.1, match e.2.staged with
               | some (desc, ws) => if e.2.runs r.ev then fslotWrite e.2 desc ws else e.2
               | none => e.2) }
  cdTake d p (s.pipe d p).queue s

/-- Where a run goes after an instruction. -/
inductive CdNext where
  | next
  | skip (off : Nat)
  | stop                 -- the slot's program ends; later slots run
  | drop                 -- no later slot runs
  | fault                -- the run of the slot ends and FAULTS rises (R281)
deriving DecidableEq, Repr

/-- The run goes on at a slot above those that ran, or the event completes. -/
def cdLeave (d : DieId) (p : Nat) (r : CdRun) (s : State) : State :=
  match cdNextSlot s d r.ev (r.slot + 1) with
  | some i => s.setPipe d p { s.pipe d p with run := some { r with slot := i, idx := 0 } }
  | none => cdComplete d p r s

/-- Counts a run-time fault of a slot. -/
def cdFault (d : DieId) (slot : Nat) (s : State) : State := s.modFslot d slot fun f => { f with faults := sat32 (f.faults + 1) }

/-- The program goes on at an index; past its last instruction it ends. -/
def cdGoto (d : DieId) (p : Nat) (r : CdRun) (idx : Nat) (s : State) : State :=
  if idx < (s.fslot d r.slot).prog.length then s.setPipe d p { s.pipe d p with run := some { r with idx := idx } }
  else cdLeave d p r s

def cdGo (d : DieId) (p : Nat) (r : CdRun) (n : CdNext) (s : State) : State :=
  match n with
  | .next => cdGoto d p r (r.idx + 1) s
  | .skip off => cdGoto d p r (r.idx + off) s
  | .stop => cdLeave d p r s
  | .drop => cdComplete d p r s
  | .fault => cdLeave d p r (cdFault d r.slot s)

/-- Executes one Carder instruction of the pipeline whose turn it is: it is charged to the run, and it takes effect in full before
the next begins (R325). -/
def cdIssue (body : DieId → CdRun → State → CdNext × State) (s : State) : Host.Outcome State Fault Refusal :=
  match s.cur with
  | .carder d p =>
    match (s.pipe d p).run with
    | none => .fault .noCarderRun
    | some r =>
      let r := { r with used := r.used + 1 }
      let (n, s) := body d r s
      .next (cdGo d p r n s)
  | _ => .fault .noCarderRun

/-- A register of the slot that runs. -/
def cdReg (s : State) (d : DieId) (r : CdRun) (n : BitVec 4) : BitVec 32 := (s.fslot d r.slot).regs[n.toNat]?.getD 0

def cdSetReg (s : State) (d : DieId) (r : CdRun) (n : BitVec 4) (v : BitVec 32) : State :=
  s.modFslot d r.slot fun f => { f with regs := setAt f.regs n.toNat v }

/-- An instruction of registers: cd := f ca cb. -/
def cdOp2 (f : BitVec 32 → BitVec 32 → BitVec 32) (c a b : BitVec 4) (s : State) : Host.Outcome State Fault Refusal :=
  cdIssue (fun d r s => (.next, cdSetReg s d r c (f (cdReg s d r a) (cdReg s d r b)))) s

/-- The same with zext(IMM13, 32) in the place of cb. -/
def cdOpI (f : BitVec 32 → BitVec 32 → BitVec 32) (c a : BitVec 4) (i : BitVec 13) (s : State) : Host.Outcome State Fault Refusal :=
  cdIssue (fun d r s => (.next, cdSetReg s d r c (f (cdReg s d r a) (i.setWidth 32)))) s

/-- hash32 (R279). -/
def hash32 (a b : BitVec 32) : BitVec 32 :=
  let h := a * 0x9E3779B1 + b
  let h := h ^^^ (h >>> 15)
  let h := h * 0x85EBCA77
  h ^^^ (h >>> 13)

def cdShl (a b : BitVec 32) : BitVec 32 := a <<< (b.toNat % 32)
def cdShr (a b : BitVec 32) : BitVec 32 := a >>> (b.toNat % 32)
def cdMinU (a b : BitVec 32) : BitVec 32 := if a.toNat ≤ b.toNat then a else b
def cdMaxU (a b : BitVec 32) : BitVec 32 := if a.toNat ≤ b.toNat then b else a

/-- COND of CDBF (R279). -/
def cdCond (c : BitVec 4) (a b : BitVec 32) : Bool :=
  match c.toNat with
  | 0 => true
  | 1 => a == b
  | 2 => a != b
  | 3 => decide (a.toNat < b.toNat)
  | 4 => decide (b.toNat ≤ a.toNat)
  | 5 => decide (a.toInt < b.toInt)
  | _ => decide (b.toInt ≤ a.toInt)

def execCdend (s : State) : Host.Outcome State Fault Refusal := cdIssue (fun _ _ s => (.stop, s)) s
def execCddrop (s : State) : Host.Outcome State Fault Refusal := cdIssue (fun _ _ s => (.drop, s)) s

def execCdmov (c a : BitVec 4) (s : State) : Host.Outcome State Fault Refusal :=
  cdIssue (fun d r s => (.next, cdSetReg s d r c (cdReg s d r a))) s

def execCdli (c : BitVec 4) (i : BitVec 22) (s : State) : Host.Outcome State Fault Refusal :=
  cdIssue (fun d r s => (.next, cdSetReg s d r c (i.signExtend 32))) s

def execCdlde (c : BitVec 4) (n : Fin 8) (s : State) : Host.Outcome State Fault Refusal :=
  cdIssue (fun d r s => (.next, cdSetReg s d r c (r.ev.e[n.val]?.getD 0))) s

def execCdadd (c a b : BitVec 4) (s : State) : Host.Outcome State Fault Refusal := cdOp2 (· + ·) c a b s
def execCdaddImm (c a : BitVec 4) (i : BitVec 13) (s : State) : Host.Outcome State Fault Refusal := cdOpI (· + ·) c a i s
def execCdsub (c a b : BitVec 4) (s : State) : Host.Outcome State Fault Refusal := cdOp2 (· - ·) c a b s
def execCdsubImm (c a : BitVec 4) (i : BitVec 13) (s : State) : Host.Outcome State Fault Refusal := cdOpI (· - ·) c a i s
def execCdand (c a b : BitVec 4) (s : State) : Host.Outcome State Fault Refusal := cdOp2 (· &&& ·) c a b s
def execCdandImm (c a : BitVec 4) (i : BitVec 13) (s : State) : Host.Outcome State Fault Refusal := cdOpI (· &&& ·) c a i s
def execCdor (c a b : BitVec 4) (s : State) : Host.Outcome State Fault Refusal := cdOp2 (· ||| ·) c a b s
def execCdorImm (c a : BitVec 4) (i : BitVec 13) (s : State) : Host.Outcome State Fault Refusal := cdOpI (· ||| ·) c a i s
def execCdxor (c a b : BitVec 4) (s : State) : Host.Outcome State Fault Refusal := cdOp2 (· ^^^ ·) c a b s
def execCdxorImm (c a : BitVec 4) (i : BitVec 13) (s : State) : Host.Outcome State Fault Refusal := cdOpI (· ^^^ ·) c a i s
def execCdshl (c a b : BitVec 4) (s : State) : Host.Outcome State Fault Refusal := cdOp2 cdShl c a b s
def execCdshlImm (c a : BitVec 4) (i : BitVec 13) (s : State) : Host.Outcome State Fault Refusal := cdOpI cdShl c a i s
def execCdshr (c a b : BitVec 4) (s : State) : Host.Outcome State Fault Refusal := cdOp2 cdShr c a b s
def execCdshrImm (c a : BitVec 4) (i : BitVec 13) (s : State) : Host.Outcome State Fault Refusal := cdOpI cdShr c a i s
def execCdmin (c a b : BitVec 4) (s : State) : Host.Outcome State Fault Refusal := cdOp2 cdMinU c a b s
def execCdminImm (c a : BitVec 4) (i : BitVec 13) (s : State) : Host.Outcome State Fault Refusal := cdOpI cdMinU c a i s
def execCdmax (c a b : BitVec 4) (s : State) : Host.Outcome State Fault Refusal := cdOp2 cdMaxU c a b s
def execCdmaxImm (c a : BitVec 4) (i : BitVec 13) (s : State) : Host.Outcome State Fault Refusal := cdOpI cdMaxU c a i s
def execCdhash (c a b : BitVec 4) (s : State) : Host.Outcome State Fault Refusal := cdOp2 hash32 c a b s
def execCdhashImm (c a : BitVec 4) (i : BitVec 13) (s : State) : Host.Outcome State Fault Refusal := cdOpI hash32 c a i s

def execCdbf (cond a b : BitVec 4) (off : BitVec 6) (s : State) : Host.Outcome State Fault Refusal :=
  cdIssue (fun d r s => (if cdCond cond (cdReg s d r a) (cdReg s d r b) then .skip off.toNat else .next, s)) s

/-! ### Output objects (R280 to R282) -/

def objKind (o : Word) : Nat := wfield o 59 4
def objPart (o : Word) : Nat := wfield o 53 6
def objSize (o : Word) : Nat := wfield o 36 17 + 1
def objBase (o : Word) : Nat := wfield o 0 16 * 64

/-- The bytes an object occupies from BASE. -/
def objBytes (o : Word) : Nat :=
  match objKind o with
  | 1 => 4 * objSize o
  | 2 => 16384
  | 3 => 768
  | 4 => 4 * objSize o
  | 5 => 32 * objSize o
  | _ => 16

def State.obj (s : State) (d : DieId) (n : Nat) : ObjRec := tget (s.die d).objs n .reset
def State.modObj (s : State) (d : DieId) (n : Nat) (f : ObjRec → ObjRec) : State :=
  s.modDie d fun r => { r with objs := tupd r.objs n .reset f }

/-- An instruction on an object of one kind: it faults where the entry is invalid, another partition's or of another kind (R281), and
where the object reaches beyond the 4 MiB of the SRAM. -/
def cdObj (kind : Nat) (obj : BitVec 8) (body : DieId → CdRun → Word → State → CdNext × State) (s : State) :
    Host.Outcome State Fault Refusal :=
  cdIssue (fun d r s =>
    let o := (s.obj d obj.toNat).word
    if bitAt o 63 ∧ objPart o = r.ev.part.num ∧ objKind o = kind ∧ objBase o + objBytes o ≤ 2 ^ 22 then body d r o s else (.fault, s)) s

/-- Word i of an object in the Carder's SRAM. -/
def objWord (s : State) (d : DieId) (o : Word) (i : Nat) : Nat := s.rd (addrCarder d (objBase o + 4 * i)) 4
def setObjWord (s : State) (d : DieId) (o : Word) (i : Nat) (v : Nat) : State := s.wr (addrCarder d (objBase o + 4 * i)) 4 v

def execCdlds (c : BitVec 4) (obj : BitVec 8) (a : BitVec 4) (s : State) : Host.Outcome State Fault Refusal :=
  cdObj 4 obj (fun d r o s =>
    (.next, cdSetReg s d r c (BitVec.ofNat 32 (objWord s d o ((cdReg s d r a).toNat % objSize o))))) s

def execCdsts (obj : BitVec 8) (a b : BitVec 4) (s : State) : Host.Outcome State Fault Refusal :=
  cdObj 4 obj (fun d r o s =>
    (.next, setObjWord s d o ((cdReg s d r a).toNat % objSize o) (cdReg s d r b).toNat)) s

def execCdhist (obj : BitVec 8) (a : BitVec 4) (s : State) : Host.Outcome State Fault Refusal :=
  cdObj 1 obj (fun d r o s =>
    let i := min (cdReg s d r a).toNat (objSize o - 1)
    (.next, setObjWord s d o i (sat32 (objWord s d o i + 1)))) s

/-- One row of a count-min sketch: the counter rises, and the least counter so far is kept. -/
def cmsRow (d : DieId) (o : Word) (key : BitVec 32) (acc : Nat × State) (i : Nat) : Nat × State :=
  let k := 1024 * i + (hash32 key (BitVec.ofNat 32 i)).toNat % 1024
  let v := sat32 (objWord acc.2 d o k + 1)
  (min acc.1 v, setObjWord acc.2 d o k v)

def execCdcms (c : BitVec 4) (obj : BitVec 8) (a : BitVec 4) (s : State) : Host.Outcome State Fault Refusal :=
  cdObj 2 obj (fun d r o s =>
    let (least, s) := (List.range 4).foldl (cmsRow d o (cdReg s d r a)) (0xFFFFFFFF, s)
    (.next, cdSetReg s d r c (BitVec.ofNat 32 least))) s

/-- clz22 (R279). -/
def clz22 (x : Nat) : Nat := 22 - bitLen (x % 2 ^ 22)

def execCdhll (obj : BitVec 8) (a : BitVec 4) (s : State) : Host.Outcome State Fault Refusal :=
  cdObj 3 obj (fun d r o s =>
    let h := (hash32 (cdReg s d r a) 0x5A5A).toNat
    let v := min (clz22 (h / 1024) + 1) 23
    let at_ := 6 * (h % 1024)
    let n := if at_ % 8 ≤ 2 then 1 else 2
    let addr := addrCarder d (objBase o + at_ / 8)
    let w := s.rd addr n
    let old := field w (at_ % 8) 6
    (.next, if old < v then s.wr addr n (w + (v - old) * 2 ^ (at_ % 8)) else s)) s

/-- Appends a trace record, or counts the drop of one (R282). -/
def cdEmit (d : DieId) (r : CdRun) (obj : Nat) (o : Word) (a b : BitVec 32) (s : State) : State :=
  let x := s.obj d obj
  if x.cons + objSize o ≤ x.prod then s.modObj d obj fun x => { x with drops := x.drops + 1 }
  else
    let record := pack [(64, r.ev.time), (32, (r.ev.e[0]?.getD 0).toNat), (8, r.ev.cls), (8, r.ev.part.num), (16, r.slot), (32, a.toNat),
      (32, b.toNat), (32, x.seq % 2 ^ 32), (32, 0)]
    (s.wr (addrCarder d (objBase o + 32 * (x.prod % objSize o))) 32 record).modObj d obj fun x =>
      { x with prod := x.prod + 1, seq := x.seq + 1 }

def execCdemit (obj : BitVec 8) (a b : BitVec 4) (s : State) : Host.Outcome State Fault Refusal :=
  cdObj 5 obj (fun d r o s => (.next, cdEmit d r obj.toNat o (cdReg s d r a) (cdReg s d r b) s)) s

/-! ### Triggers (R283) -/

/-- Asks every cluster of a mask that the partition owns for a stop. -/
def cdStops (d : DieId) (p : PartId) (mask : Nat) (s : State) : State :=
  (List.range 24).foldl (fun s k =>
    let c : ClusterId := ⟨d.pkg, d.die, k⟩
    if mask.testBit k && (s.part p).ownsCluster c then requestStop s c else s) s

/-- The word that a trigger's handle names through the view of a slice. -/
def cdHandle (s : State) (d : DieId) (p : PartId) (seq : Nat) (h : Word) : Option Addr :=
  resolveHandle s ⟨d.pkg, d.die, wfield h 44 8⟩ ⟨p, seq⟩ h

/-- Fires a trigger whose two words are w0 and w1, with value ca. -/
def cdTrigger (d : DieId) (r : CdRun) (obj : Nat) (w0 w1 : Nat) (ca : BitVec 32) (s : State) : CdNext × State :=
  match w0 % 4 with
  | 0 => (.next, cdStops d r.ev.part w1 s)
  | 1 =>
    if w1 ≤ 3 then
      let q : QuadId := ⟨d.pkg, d.die, w1⟩
      let s := s.modQuad q fun x => { x with irqs := x.irqs + 1 }
      (.next, { s with nt := { s.nt with cpIrqs := s.nt.cpIrqs ++ [⟨q, ca.toNat, obj⟩] } })
    else (.fault, s)
  | 2 =>
    let h := BitVec.ofNat 64 w1
    match cdHandle s d r.ev.part (field w0 32 32) h with
    | none => (.fault, s)
    | some a =>
      match futResolve s a (handleGen h) 2 ca.toNat with
      | (.done, s') => (.next, s')
      | _ => (.next, cdFault d r.slot s)
  | _ => (.fault, s)

def execCdtrig (obj : BitVec 8) (a : BitVec 4) (s : State) : Host.Outcome State Fault Refusal :=
  cdObj 6 obj (fun d r o s =>
    cdTrigger d r obj.toNat (s.rd (addrCarder d (objBase o)) 8) (s.rd (addrCarder d (objBase o + 8)) 8) (cdReg s d r a) s) s

/-! ### Events, windows and the loader -/

/-- The k-th event on its way reaches its pipeline, after every earlier one of its source (R274). -/
def execCarderEvent (d : DieId) (k : Nat) (s : State) : Host.Outcome State Fault Refusal :=
  .next (match (s.die d).taps[k]? with
    | none => s
    | some e =>
      if ((s.die d).taps.take k).any fun x => decide (x.src = e.src) then s
      else
        let s := syncWindow d (s.modDie d fun r => { r with taps := dropAt r.taps k })
        match cdPipe s d e.part with
        | none => s
        | some p =>
          let x := s.pipe d p
          if 1024 ≤ x.queue.length then countOverload s d e.part
          else if x.run.isSome then s.setPipe d p { x with queue := x.queue ++ [e] }
          else cdTake d p (x.queue ++ [e]) s)

/-- A window begins (R275). -/
def execCarderWindowStart (d : DieId) (s : State) : Host.Outcome State Fault Refusal := .next (syncWindow d s)

/-- The longest path from each instruction of a program; none where a word breaks R279 or a branch target lies beyond the last
instruction. -/
def cdPaths (l : List (BitVec 32)) : Option (List Nat) :=
  match l with
  | [] => some []
  | w :: r =>
    match cdPaths r, decodeCarder w with
    | some ps, some .cdend => some (1 :: ps)
    | some ps, some .cddrop => some (1 :: ps)
    | some ps, some (.cdbf cond _ _ off) =>
      (ps[off.toNat - 1]?).map fun t => (1 + if cond = 0 then t else max t (ps.headD 0)) :: ps
    | some ps, some _ => some ((1 + ps.headD 0) :: ps)
    | _, _ => none

/-- Whether the loader takes a program and its descriptor with V = 1 (R277). -/
def cdLoads (s : State) (d : DieId) (desc : Word) (words : List (BitVec 32)) : Bool :=
  decide (words.length = wfield desc 42 6 + 1) && (cdPipe s d ⟨d.pkg, wfield desc 52 6⟩).isSome && decide (wfield desc 48 4 ≤ 6) &&
  (match cdPaths words with
   | some (n :: _) => decide (n ≤ 48)
   | _ => false)

/-- A load lands: at once, or for the next event when an event of the slot is running. -/
def fslotLoad (d : DieId) (slot : Nat) (desc : Word) (words : List (BitVec 32)) (s : State) : State :=
  let busy := (s.die d).pipes.any fun e =>
    match e.2.run with
    | some r => (s.fslot d slot).runs r.ev
    | none => false
  s.modFslot d slot fun f => if busy then { f with staged := some (desc, words) } else fslotWrite f desc words

/-- Firmware's load of a slot with V = 1; a load with V = 0 is FILTER_SLOT_DETACH's. -/
def execFilterSlotLoad (d : DieId) (slot : Nat) (desc : Word) (words : List (BitVec 32)) (s : State) :
    Host.Outcome State Fault Refusal :=
  .next (if slot < 64 ∧ bitAt desc 63 ∧ cdLoads s d desc words then fslotLoad d slot desc words s else s)

/-- Firmware's load with V = 0. -/
def execFilterSlotDetach (d : DieId) (slot : Nat) (desc : Word) (s : State) : Host.Outcome State Fault Refusal :=
  .next (if slot < 64 ∧ bitAt desc 63 = false then fslotLoad d slot desc [] s else s)

/-- Firmware clears an object (R280): its bytes read zero, and a ring is empty. -/
def execObjectClear (d : DieId) (obj : Nat) (s : State) : Host.Outcome State Fault Refusal :=
  .next (if obj < 256 then
    let o := (s.obj d obj).word
    (s.wr (addrCarder d (objBase o)) (min (objBytes o) (2 ^ 22 - objBase o)) 0).modObj d obj fun x =>
      { x with cons := x.prod, drops := 0, seq := 0 }
  else s)

/-! ### The state-change log (R284) -/

/-- How a thread in a slot counts: 0 ready, also while R71 holds it; 1 parked on memory; 2 parked on message. A thread that is out does
not count. -/
def slotState (th : Thread) : Option Nat :=
  if th.outPre ∨ th.outBudget ∨ th.outDebug then none
  else match th.phase with
  | .ready => some 0
  | .parked .message => some 2
  | .future _ _ _ => some 2
  | .barrier _ _ => some 2
  | .watch => some 2
  | _ => some 1

/-- A core's state: 0 running, 1 waiting on memory, 2 waiting on message, 3 idle. -/
def coreState (s : State) (c : CoreId) : Nat :=
  if (s.core c).gated then 3
  else ((s.wk.slots.filter fun e => decide (e.1.core = c)).filterMap fun e => e.2.thread.bind slotState).foldl min 3

/-- Appends records to a core's 8 KiB ring while its logging is enabled; the oldest are overwritten. -/
def logAppend (l : LogRec) (recs : List Nat) : LogRec :=
  if l.on then
    let ring := l.ring ++ recs
    { l with ring := ring.drop (ring.length - 4096) }
  else l

/-- A core whose state differs from the last one logged emits a record and raises a class-0 event. -/
def execStateChangeRecord (c : CoreId) (s : State) : Host.Outcome State Fault Refusal :=
  .next (
    let l := s.log c
    let st := coreState s c
    if st = l.last ∨ l.lastAc + 4096 ≤ s.ac then s
    else
      let seqs := (s.wk.slots.filterMap fun e => if e.1.core = c then some e.1.slice.seq else none).eraseDups
      let pick := Config.stateSlice s.free
      let seq := if seqs.length = 0 then pick else seqs[pick % seqs.length]?.getD 0
      let s := s.modLog c fun l =>
        { logAppend l [st * 2 ^ 14 + (s.ac - l.lastAc)] with last := st, lastAc := s.ac, enteredAc := s.ac }
      let p : PartId := ⟨c.pkg, unitOwner s c.pkg c.cluster.unit⟩
      raiseEvent { s with free := s.free + 1 } c.dieId c.core 0xF p 0 false [st, l.last, sat32 (s.ac - l.enteredAc), seq % 2 ^ 32])

/-- A core emits an escape: the record 0x1000 and three records of device time. -/
def execStateLogEscape (c : CoreId) (s : State) : Host.Outcome State Fault Refusal :=
  .next (if (s.log c).lastAc + 4096 ≤ s.ac then
    s.modLog c fun l => { logAppend l [0x1000, wfield s.dtime 0 16, wfield s.dtime 16 16, wfield s.dtime 32 16] with lastAc := s.ac }
  else s)

end Sys2Proof.Machine
end

