-- ==== Sys2Proof/Machine/Control.lean ====
section
/-!
DEFINITION. Sys2Proof/Machine/Control.lean: class 1 (R221 to R223, R261, R316, R317, R331, R391 to R393, R400, R416), and the steps
TASK_END_BY_FAULT (R267) and FETCH_REFETCH (R81).
-/
namespace Sys2Proof.Machine

/-! ### Branches (R316) -/

/-- A branch to a PC that passes the target check. -/
def jump (pc : Word) : Exec Flow := do
  orTrap (targetCheck (← get) (← myPart) pc)
  return .goto pc

def execBr (h : Hdr) (disp : BitVec 40) (s : State) : Host.Outcome State Fault Refusal :=
  issue h (do
    notInBody (.br h disp)
    jump (slotAdd (← ctl).pc disp.toInt)) s

def execBri (h : Hdr) (t : Reg) (s : State) : Host.Outcome State Fault Refusal :=
  issue h (do
    notInBody (.bri h t)
    jump (← rd1 h (.w t))) s

/-! ### Windows of CALL.f and RET.f (R317, R392) -/

/-- The new window takes the caller's control values and bookkeeping; its tags and marks are cleared and its chain header filled. -/
def enterWindow (w : Word) (frame : Nat) : Exec Unit := do
  let c ← ctl
  freshLines w
  let t ← me
  putAt w offAtags 2 (tagsOf (← get) t c)
  copyTo w offGuards 6
  putAt w offStatus 8 (statusWord (← thr))
  copyTo w offProv 8
  copyBook w
  putAt w offVtags 16 0
  putAt w offMarks 8 0
  putAt w offCaller 8 c.wsp.toNat
  putAt w offFrame 8 frame

def callTarget (h : Hdr) : CallTgt → Exec Word
  | .disp d => do return slotAdd (← ctl).pc d.toInt
  | .reg r => rd1 h (.w r)

def execCall (h : Hdr) (t : CallTgt) (frame : BitVec 8) (s : State) : Host.Outcome State Fault Refusal :=
  issue h (do
    notInBody (.call h t frame)
    let pc ← callTarget h t
    orTrap (targetCheck (← get) (← myPart) pc)
    let c ← ctl
    let link := slotAdd c.pc 1
    if frame = 0 then wrReg 63 link
    else
      waitClass 3
      let w := windowBelow c.wsp (frame.toNat * 64)
      checkWindow w
      needLines w
      enterWindow w (frame.toNat * 64)
      modCtl fun c => { c with wsp := w }
      wrReg 63 link
    return .goto pc) s

def execRet (h : Hdr) (link : Reg) (f : Bool) (s : State) : Host.Outcome State Fault Refusal :=
  issue h (do
    notInBody (.ret h link f)
    let pc ← rd1 h (.w link)
    if f then
      if (← rdWin offFrame 2) = 0 then permTrap 0
      waitClass 3
      let w := BitVec.ofNat 64 (← rdWin offCaller 8)
      checkWindow w
      needLines w
      let t ← me; let c ← ctl
      putAt w offAtags 2 (tagsOf (← get) t c)
      copyTo w offGuards 6
      copyTo w offProv 8
      copyBook w
      putAt w offStatus 8 (putBit (threadRead (← get) t c w offStatus 8) 0 c.abmask)
      modCtl fun c => { c with wsp := w }
    return .goto pc) s

/-! ### RETI (R261, R266) -/

/-- Installs the spill extension that the trap record of the interrupted window at w offers. -/
def installExtension (w : Word) : Exec Unit := do
  let t ← me; let c ← ctl; let s ← get
  let at' := fun off n => threadRead s t c w off n
  if at' offTcause 8 % 256 ≠ 15 then return
  let b := at' offTaddr 8; let n := at' offTinfo 8
  if b % 4096 ≠ 0 ∨ 2 ^ 52 ≤ b ∨ n = 0 ∨ n ≤ at' offExtSize 8 then return
  let sl ← mySlice; let th ← thr
  modify fun s => rehome s t sl c.slice th.lines (at' offExtBase 8) (at' offExtSize 8) b n
  putAt w offExtBase 8 b
  putAt w offExtSize 8 n

/-- The block that the interrupted window's STATUS records (R223). A handler that moved TPC within the body leaves it active at the
slot TPC names; one that moved it out leaves no block. -/
def resumeBlock (s : State) (p : PartId) (pcsave status : Nat) (tpc : Word) : Option RepState :=
  if status.testBit 11 then
    match recoverRep s p (BitVec.ofNat 64 pcsave) (field status 12 4) with
    | none => none
    | some r =>
      let k := slotIndex tpc; let k0 := slotIndex r.pc
      if k0 < k ∧ k ≤ k0 + r.len then some { r with idx := k - k0 - 1 } else none
  else none

def execReti (h : Hdr) (s : State) : Host.Outcome State Fault Refusal :=
  issue h (do
    notInBody (.reti h)
    let t ← me; let c ← ctl
    if !c.intrap then throw (.trap (illegalOf (.reti h)))
    let s ← get
    let hand := fun off n => threadRead s t c c.hwsp off n
    let w := BitVec.ofNat 64 (hand offCaller 8)
    checkWindow w
    needLines w
    putAt w offProv 8 (hand offProv 8)
    installExtension w
    let old := fun off n => threadRead s t c w off n
    let tpc := BitVec.ofNat 64 (old offTpc 8)
    let status := old offStatus 8
    let blk := resumeBlock s c.slice.part (old offPcsave 8) status tpc
    let bnd := blk.isSome && status.testBit 4 && decide (old offTpc 8 = old offPcsave 8)
    modT fun th =>
      { th with openMsg := th.openMsg.map fun m => { m with byHandler := false }
                due := { th.due with violations := th.due.kept ++ th.due.violations, kept := [] }
                ctl := { th.ctl with wsp := w, intrap := false, rep := blk, repBnd := bnd } }
    return .goto tpc) s

/-! ### REP (R221, R391) -/

def execRep (h : Hdr) (wc wi : Reg) (vbase vspanM1 vstep : BitVec 5) (astep : BitVec 2) (s : State) :
    Host.Outcome State Fault Refusal :=
  let i : Instr := .rep h wc wi vbase vspanM1 vstep astep
  issue h (do
    notInBody i
    let c ← ctl
    match ← orTrap (bodyLen (← get) c.slice.part (slotAdd c.pc 1) 16 0) with
    | none => throw (.trap (illegalOf i))
    | some n =>
      let k ← rd1 h (.w wc)
      if k = 0 then return .goto (slotAdd c.pc (n + 1))
      modCtl fun c =>
        { c with rep := some ⟨c.pc, 0, n, wc, wi, vbase.toNat, vspanM1.toNat + 1, vstep.toNat, astep.toNat⟩ }
      return .goto (slotAdd c.pc 1)) s

/-! ### TRAP, EXIT and YIELD -/

/-- TRAP completes, and its trap is taken at the boundary after it (R400). -/
def execTrap (h : Hdr) (info : Opnd) (code : BitVec 8) (s : State) : Host.Outcome State Fault Refusal :=
  issue h (do
    notInBody (.trap h info code)
    let x ← rd1 h info
    let t ← me
    modify fun s => dueAfter s t (some ⟨code.toNat, false, 0, BitVec.ofNat 64 (2 ^ 63 + x.toNat % 2 ^ 63)⟩)
    return .seq) s

/-- The trap record of the window a handler interrupted, as EXIT in a handler records it. -/
def interruptedRecord (s : State) (t : ThreadId) (c : Ctl) : EndRec :=
  let w := BitVec.ofNat 64 (threadRead s t c c.hwsp offCaller 8)
  let rd := fun off => BitVec.ofNat 64 (threadRead s t c w off 8)
  ⟨rd offTpc, rd offTcause, rd offTaddr, rd offTinfo⟩

def execExit (h : Hdr) (s : State) : Host.Outcome State Fault Refusal :=
  issue h (do
    notInBody (.exit h)
    sampleAbort
    waitStores
    waitClass 3
    waitAccesses
    let t ← me; let c ← ctl; let s ← get
    if c.intrap then
      modT fun th => { th with endCause := some (interruptedRecord s t c) }
      throw (.wait .ending)
    modify fun s => takeAfter (leaveTask (if c.joinRec = 0 then s else joinUpdate s t c.slice c.joinRec false 0) t) t
    return .gone) s

/-- Whether the guard of an instruction of the executing thread holds. -/
def guardHolds (h : Hdr) (s : State) : Bool :=
  match s.cur with
  | .thread t =>
    match (guardTrue h).run (chargeTurn s t) with
    | .ok g _ => g
    | .error _ _ => false
  | _ => false

/-- The thread's slice yields: a message goes to the dispatcher (R416). -/
def execYield (h : Hdr) (s' : Bool) (dl : Reg) (s : State) : Host.Outcome State Fault Refusal :=
  issue { h with ya := h.ya || (!s' && guardHolds h s) } (do
    notInBody (.yield h s' dl)
    sampleAbort
    if s' then
      let d ← if dl = 0 then pure none else some <$> rd1 h (.w dl)
      waitAccesses
      let t ← me; let c ← ctl
      modify fun s => { s with nt := { s.nt with yields := s.nt.yields ++ [⟨t, c.slice, d⟩] } }
    return .seq) s

/-! ### Steps -/

/-- TASK_END_BY_FAULT: the last NST of a thread that ended by fault has been acknowledged, and the thread is not out (R267 steps
2 to 4). -/
def execTaskEndByFault (t : ThreadId) (s : State) : Host.Outcome State Fault Refusal :=
  match s.thread? t with
  | none => .next s
  | some th =>
    match th.phase, th.nsts, th.endCause with
    | .ending, [], some e =>
      if th.outPre || th.outBudget || th.outDebug then .next s else
      let s := s.modThread t fun th => { th with due := { th.due with violations := [], kept := [] } }
      .next (leaveTask (failTask s t th.ctl.slice th.ctl.joinRec e) t)
    | _, _, _ => .next s

/-- FETCH_REFETCH: the line of a slot whose parity failed is read again from L2; a second failure is logged and traps (R81). -/
def execFetchRefetch (t : ThreadId) (s : State) : Host.Outcome State Fault Refusal :=
  match s.thread? t with
  | none => .next s
  | some th =>
    if th.phase ≠ .refetch then .next s
    else
      let pc := th.ctl.pc; let p := th.ctl.slice.part
      match walkTo s p pc.toNat .ex with
      | .error r => .next (takeTrap t r s)
      | .ok pa =>
        let line := s.rd (addrHbm p.pkg (pa / 64 * 64)) 64
        let k := wfield pc 0 3
        if parity96 (lineSlot line k) = linePar (lineWord line) k then .next (s.modThread t fun th => { th with phase := .ready })
        else .next (takeTrap t (mkTrap 3 pc.toNat 0) (mcLog s t.core.dieId (mcCore t.core p 7 3 pa pc.toNat)))

end Sys2Proof.Machine
end

