-- ==== Sys2Proof/Machine/Debug.lean ====
section
/-!
DEFINITION. Sys2Proof/Machine/Debug.lean: the stops, resumptions and steps of a cluster's debug module (R285 to R290), and uncorrectable
errors (R166, R268, R269).
-/
namespace Sys2Proof.Machine

/-- The threads of a cluster. -/
def clusterThreads (s : State) (c : ClusterId) : List ThreadId :=
  s.wk.slots.filterMap fun (t, r) => if t.core.cluster = c ∧ r.thread.isSome then some t else none

/-- A thread becomes debug-out. One in the rotation first takes what is due to it (R265, R287). -/
def debugOut (s : State) (t : ThreadId) : State :=
  let f := fun (th : Thread) => { th with outDebug := true }
  match s.thread? t with
  | some th => if th.isOut then s.modThread t f else leaveRotation t f s
  | none => s

/-- A stop takes effect: every thread leaves the rotation (R286). -/
def takeStop (c : ClusterId) (s : State) : State :=
  let s := (clusterThreads s c).foldl debugOut s
  s.modCluster c fun r =>
    { r with dm := { r.dm with stopped := true, req := false, step := none, stopSeq := (r.dm.stopSeq + 1) % 65536 } }

/-- DEBUG_STOP: a requested stop takes effect; with none requested, firmware's DMCTL.STOP reaches the module, where it sets TRIGIGN when
the cluster is stopped already. The stop waits for an access under way. -/
def execDebugStop (c : ClusterId) (s : State) : Host.Outcome State Fault Refusal :=
  .next (if (s.cluster c).dm.req then
      (if (clusterThreads s c).all fun t => (s.thread? t).all fun th => th.isOut || mayLeave s t th then takeStop c s else s)
    else requestStop s c)

/-- A thread is no longer debug-out. -/
def debugBack (s : State) (t : ThreadId) : State :=
  let f := fun (th : Thread) => { th with outDebug := false }
  match s.thread? t with
  | some th => if th.outPre || th.outBudget then s.modThread t f else rejoin t f s
  | none => s

def resumeCluster (c : ClusterId) (s : State) : State :=
  if (s.cluster c).dm.stopped then
    ((clusterThreads s c).foldl debugBack s).modCluster c fun r =>
      { r with dm := { r.dm with stopped := false, step := none } }
  else s

/-- DEBUG_RESUME: the cluster leaves debug stop; ignored while it is not stopped (R290). -/
def execDebugResume (c : ClusterId) (s : State) : Host.Outcome State Fault Refusal := .next (resumeCluster c s)

/-- The thread in a physical slot of a core, where the slot is ready but for the stop. -/
def stepTarget (s : State) (c : CoreId) (slot : Nat) : Option ThreadId :=
  s.wk.slots.findSome? fun (t, r) =>
    if t.core = c ∧ r.phys = some slot then
      match r.thread with
      | some th => if th.phase = .ready ∧ !th.outPre ∧ !th.outBudget then some t else none
      | none => none
    else none

def selectSlot (c : ClusterId) (core slot : Nat) (s : State) : State :=
  s.modCluster c fun r => { r with dm := { r.dm with selCore := core % 8, selSlot := slot % 16 } }

def stepCluster (c : ClusterId) (s : State) : State :=
  let d := (s.cluster c).dm
  let t := if d.stopped then stepTarget s (c.core d.selCore) d.selSlot else none
  s.modCluster c fun r =>
    match t with
    | some t => { r with dm := { r.dm with step := some t } }
    | none => { r with dm := { r.dm with step := none, stepRes := 4 } }

/-- DEBUG_STEP: the thread that CORE and SLOT select may issue one turn; STEPRES is 4 where none may (R290). -/
def execDebugStep (c : ClusterId) (core slot : Nat) (s : State) : Host.Outcome State Fault Refusal :=
  .next (stepCluster c (selectSlot c core slot s))

/-- A write of DMCTL (R285, R290): one that sets more than one of STOP, RESUME and STEP is ignored as a whole. -/
def writeDmctl (c : ClusterId) (v : Word) (s : State) : State :=
  let stop := bitAt v 0; let resume := bitAt v 1; let step := bitAt v 2
  if (stop && resume) || (stop && step) || (resume && step) then s
  else
    let s := selectSlot c (wfield v 9 3) (wfield v 12 4) s
    if stop then requestStop s c
    else if resume then resumeCluster c s
    else if step then stepCluster c s
    else s

/-- What a step's turn did: 1 issued, 2 parked, 3 trapped. An EXIT of a handler issued. -/
def stepResult (before after : Option Thread) : Nat :=
  match before, after with
  | some b, some a =>
    let exits := b.ctl.intrap && !(match a.endCause with | some e => bitAt e.tcause 9 | none => false)
    if a.phase = .ending then (if exits then 1 else 3)
    else if a.ctl.intrap ∧ !b.ctl.intrap then 3 else if a.phase = .ready ∨ a.phase = .staging then 1 else 2
  | _, _ => 1

/-- A step ends with a result (R290). -/
def setStep (c : ClusterId) (res : Nat) (s : State) : State :=
  s.modCluster c fun r => { r with dm := { r.dm with step := none, stepRes := res } }

/-- After a turn of the stepped thread: the step ends once the thread has issued, and the thread is debug-out again. -/
def endStep (before after : State) (t : ThreadId) : State :=
  if (before.cluster t.core.cluster).dm.step ≠ some t ∨ before.thread? t = after.thread? t then after
  else
    let after := setStep t.core.cluster (stepResult (before.thread? t) (after.thread? t)) after
    leaveRotation t (fun th => { th with outDebug := true }) after

/-! ### Errors of storage -/

/-- A granule becomes poisoned, and an entry names it. -/
def poisonGranule (a : Addr) (s : State) : State :=
  let s := { s with st := { s.st with poison := nins s.st.poison (a / 16) } }
  logSite s ⟨a / 2 ^ 128, 0⟩ (a / 16 * 16) 1

/-- A granule of a version's tile becomes poisoned: the entry names the HBM stack's die and no address, which the table alone knows. -/
def poisonVersion (h : HomeId) (p : PartId) (name ver g : Nat) (s : State) : State :=
  match findVer s h p name ver with
  | none => s
  | some v =>
    if v.st = .abandoned ∨ tileBytes v.size / 16 ≤ g then s
    else mcLog (putVer s { v with poison := nins v.poison g }) (homeDie h) ⟨0, 0, p.num, 6, 1, 31, 0, none⟩

/-- A corrected error is counted (R166). -/
def countCorrected (d : DieId) (s : State) : State := s.modDie d fun r => { r with corrected := r.corrected + 1 }

/-- A clean L1 line is refetched from its home at its next use; the error is counted and logged. -/
def lostL1 (c : CoreId) (line : Nat) (s : State) : State :=
  let s := (s.modCore c fun r => { r with l1 := r.l1.filter fun x => x.addr ≠ line }).modDie c.dieId fun r => { r with refetched := r.refetched + 1 }
  mcLog s c.dieId (mcCore c ⟨c.pkg, unitOwner s c.pkg c.cluster.unit⟩ 1 1 (shownAddr line) 0)

/-- A machine check is owed to a thread, with the address of what the error struck, if one exists, and the number of its log entry, whose
KIND is 4 (R263, R268, R269). -/
def machineCheck (t : ThreadId) (lost : Bool) (at? : Option Nat) (s : State) : State :=
  match s.thread? t with
  | none => s
  | some th =>
    let addr := (at?.map fun off => (winLocal th.ctl.wsp off).toNat).getD 0
    let seq := (s.die t.core.dieId).mcSeq % 16384
    let s := s.modThread t fun th => { th with due := { th.due with machineCheck := some (mkTrap 20 addr (bit lost + seq * 2 ^ 16)) } }
    mcLog s t.core.dieId (mcCore t.core th.ctl.slice.part 8 4 addr th.ctl.pc.toNat)

/-- The control block, trap record, chain header and bookkeeping that an error lost hold free values. -/
def loseControl (t : ThreadId) (s : State) : State :=
  match s.thread? t with
  | none => s
  | some th =>
    let s := (List.range 32).foldl (fun s i =>
      threadWrite s t th.ctl th.ctl.wsp (0x200 + 8 * i) 8 (Config.lostWord (s.free + i)).toNat) s
    { s with free := s.free + 32 }

/-- The counters of the handles of a thread's slice on its core that an error lost hold free values. -/
def loseHandles (t : ThreadId) (s : State) : State :=
  match s.thread? t with
  | none => s
  | some th =>
    let n := s.free
    { (s.modCore t.core fun r =>
        { r with cbs := r.cbs.zipIdx.map fun (e, i) =>
            if e.1.1 = th.ctl.slice then
              (e.1, { e.2 with p := (Config.lostWord (n + 2 * i)).toNat % 2 ^ 32, c := (Config.lostWord (n + 2 * i + 1)).toNat % 2 ^ 32 })
            else e }) with free := n + 2 * (s.core t.core).cbs.length }

end Sys2Proof.Machine
end

