-- ==== Sys2Proof/Machine/Power.lean ====
section
/-!
DEFINITION. Sys2Proof/Machine/Power.lean: the bobbin's moves (R74, R266), power gating (R76) and the Boost clock (R25).
-/
namespace Sys2Proof.Machine

/-! ### The bobbin -/

/-- Resident lines of a core's threads: the file holds 2,304. -/
def residentLines (s : State) (c : CoreId) : Nat :=
  ((s.wk.slots.filter fun e => decide (e.1.core = c)).map fun e =>
    match e.2.thread with
    | some th => (th.lines.filter fun l => l.2.resident).length
    | none => 0).sum

def inActive (th : Thread) (l : Nat) : Bool := decide (winLine th.ctl.wsp ≤ l ∧ l < winLine th.ctl.wsp + winLines)

/-- Whether a line not yet used is one the thread may come to need: of its active window, or of its window space with a home. -/
def mayCreate (s : State) (t : ThreadId) (th : Thread) (l : Nat) : Bool :=
  inActive th l ||
  (match s.slice? th.ctl.slice with
   | some r => lineBelow t l && decide (extFloor t r.spillSz (extOf s t th.ctl).2 ≤ lineAddr l)
   | none => false)

/-- Whether a slot keeps its active window: it is neither out nor parked (R74). -/
def keepsWindow (th : Thread) : Bool :=
  !th.isOut &&
  (match th.phase with
   | .parked _ => false
   | .future _ _ _ => false
   | .home => false
   | .barrier _ _ => false
   | .watch => false
   | .ending => false
   | _ => true)

/-- Whether a line holds a register, the guards or the FPSR byte that an operation of the GCD unit or the divider will write (R142,
R330). -/
def unitWrites (s : State) (t : ThreadId) (l : Nat) : Bool :=
  ((s.core t.core).gcd ++ (s.core t.core).div).any fun o => decide (o.t = t) &&
    ((o.regs.map fun r => offW r.1) ++ [offGuards, offFpsr]).any fun x => decide (l = winLine o.wsp + x / 64)

/-- Whether a resident line may be a victim: in no active window of a ready slot, and awaited by no unit. -/
def evictable (s : State) (t : ThreadId) (th : Thread) (l : Nat) : Bool := !(keepsWindow th && inActive th l) && !unitWrites s t l

/-- When a line was last used: the last issue with an active window that holds it, counted from 1; 0 for none. -/
def lineUse (th : Thread) (l : Nat) : Nat :=
  th.used.foldl (fun n e => if winLine e.1 ≤ l ∧ l < winLine e.1 + winLines then max n (e.2 + 1) else n) 0

/-- Whether the bobbin may evict a line: the file is full, and no other victim has been used less recently. -/
def mayEvict (s : State) (t : ThreadId) (th : Thread) (l : Nat) : Bool :=
  decide (2304 ≤ residentLines s t.core) && evictable s t th l &&
  s.wk.slots.all fun (u, r) =>
    match r.thread with
    | some x => u.core ≠ t.core || x.lines.all fun e => !e.2.resident || !evictable s u x e.1 || decide (lineUse th l ≤ lineUse x e.1)
    | none => true

def setLine (t : ThreadId) (l : Nat) (x : LineSt) (s : State) : State :=
  s.modThread t fun th => { th with lines := tput th.lines l x }

/-- The home of a line below the base workspace. -/
def lineHome (s : State) (t : ThreadId) (th : Thread) (l : Nat) (n : Need) : Except TrapRec Addr :=
  match s.slice? th.ctl.slice with
  | none => .error (mkTrap 5 0 0)
  | some r =>
    let e := extOf s t th.ctl
    (walkTo s th.ctl.slice.part (homeVa s t r e.1 e.2 (lineAddr l)) n).map (addrHbm t.core.pkg)

/-- A translation or permission fault on a home is the owner's trap at its next instruction (R266). -/
def oweFault (t : ThreadId) (r : TrapRec) (s : State) : State :=
  s.modThread t fun th => { th with due := { th.due with fault := some r } }

/-- Creates a line. A line of the active window has the contents that the instruction which placed the window gave it; no rule gives
another one's bytes. -/
def createLine (s : State) (t : ThreadId) (th : Thread) (l : Nat) : State :=
  let s := setLine t l .dirty s
  if inActive th l then s
  else
    let s := (List.range 64).foldl (fun s j => s.put (addrWindow t (lineAddr l + j)) 1 (Config.freshByte (s.free + j)).toNat) s
    { s with free := s.free + 64 }

/-- Loads a line from its home. A line in the scratchpad is its own home. -/
def loadLine (s : State) (t : ThreadId) (th : Thread) (l : Nat) : State :=
  if lineBelow t l then
    match lineHome s t th l .rd with
    | .error r => oweFault t r s
    | .ok a => setLine t l (.clean (s.rd a 64)) (moveLine s (addrWindow t (lineAddr l)) a)
  else setLine t l (.clean 0) s

/-- Evicts a line: written to its home when dirty, dropped when clean. -/
def evictLine (s : State) (t : ThreadId) (th : Thread) (l : Nat) (x : LineSt) : State :=
  if lineBelow t l then
    let here := addrWindow t (lineAddr l)
    if x = .clean (s.rd here 64) then setLine t l .home s
    else
      match lineHome s t th l .wr with
      | .error r => oweFault t r s
      | .ok a => setLine t l .home (moveLine s a here)
  else setLine t l .home s

/-- The bobbin moves or creates one line. -/
def execBobbinLineMove (t : ThreadId) (line : Nat) (mv : LineMove) (s : State) : Host.Outcome State Fault Refusal :=
  .next (match s.thread? t with
    | none => s
    | some th =>
      let room := decide (residentLines s t.core < 2304)
      match mv, tfind th.lines line with
      | .create, none => if room && mayCreate s t th line then createLine s t th line else s
      | .load, some .home => if room then loadLine s t th line else s
      | .evict, some x => if x.resident && mayEvict s t th line then evictLine s t th line x else s
      | _, _ => s)

/-! ### Power gating (R76) -/

/-- Whether a slot of a core is ready. -/
def anyReady (s : State) (c : CoreId) : Bool :=
  s.wk.slots.any fun e => decide (e.1.core = c) &&
    (match e.2.thread with
     | some th => !th.isOut && decide (th.phase = .ready)
     | none => false)

/-- A line that its home does not hold as it stands. -/
def unsavedLine (s : State) (t : ThreadId) (l : Nat) (x : LineSt) : Bool :=
  lineBelow t l && x.resident && decide (x ≠ .clean (s.rd (addrWindow t (lineAddr l)) 64))

/-- Whether the bobbin has an accumulator of a core to save or to load. -/
def bobbinBusy (s : State) (c : CoreId) : Bool :=
  s.nt.saving.any (fun o => decide (o.acc.core = c)) ||
  s.nt.savedAccs.any fun e => decide (e.1.core = c) &&
    ((((s.slice? e.1.slice).bind (·.grant? c)).bind (·.accs[e.1.n]?)).join).isSome

/-- Whether a core may gate: 256 ac with no slot ready, an idle bobbin, an empty store queue, and nothing in flight in its units. -/
def mayGate (s : State) (c : CoreId) : Bool :=
  let r := s.core c
  !anyReady s c && !bobbinBusy s c && decide (r.quietSince + 256 ≤ s.ac) && r.storeq.isEmpty && r.matOps.isEmpty && r.gcd.isEmpty && r.div.isEmpty

/-- The lines of a gated core's threads stand at their homes. -/
def loseLines (c : CoreId) (s : State) : State :=
  { s with wk := { s.wk with slots := s.wk.slots.map fun (t, r) =>
      if t.core = c then
        (t, { r with thread := r.thread.map fun th => { th with lines := th.lines.map fun l => (l.1, .home) } })
      else (t, r) } }

/-- The cores of a partition. -/
def partCores (s : State) (p : PartId) : List CoreId :=
  (s.part p).units.flatMap fun u =>
    ((List.range 192).map fun k => (⟨p.pkg, u / 12, k⟩ : CoreId)).filter fun c => decide (c.cluster.unit = u)

/-- Active cores of a partition (R25). -/
def activeCores (s : State) (p : PartId) : Nat := ((partCores s p).filter fun c => !(s.core c).gated).length
def overHalf (s : State) (p : PartId) : Bool := decide (2 * activeCores s p > (partCores s p).length)

/-- The partition that owns a core. -/
def corePart (s : State) (c : CoreId) : PartId := ⟨c.pkg, unitOwner s c.pkg c.cluster.unit⟩

/-- Notes since when the active count has been at half or below. -/
def noteHalf (p : PartId) (s : State) : State :=
  let above := overHalf s p
  { s with un := { s.un with parts := tmod s.un.parts p fun r =>
      { r with halfSince := if above then none else r.halfSince.orElse fun _ => some s.dtime.toNat } } }

/-- A wake that the core has to handle. -/
def wakeDue (s : State) (c : CoreId) : Bool :=
  anyReady s c || s.nt.wakes.any (fun w => decide (w.core = c)) || s.nt.nbrs.any (fun m => decide (m.dst.core = c)) ||
  s.nt.fars.any (fun m => decide (m.dstCore = c)) || s.nt.replies.any (fun m => decide (m.dst.core = c)) ||
  s.nt.bankNet.any (fun m => decide (m.t.core = c)) || (s.cluster c.cluster).dm.req || (s.core c).conts.any (·.due) ||
  s.tl.notices.any (fun w => match w with
    | .load m _ => decide (m.t.core = c)
    | .reel _ _ _ _ _ => false) ||
  s.wk.slots.any fun e => decide (e.1.core = c) &&
    (e.2.carried.isSome ||
     (match e.2.steal with
      | .empty => true
      | _ => false))

/-- A core that stays up. -/
def abandonGating (c : CoreId) (s : State) : State := s.modCore c fun r => { r with gating := false, commit := none }

/-- A dirty line of a core's threads, none of a thread that is owed a fault. -/
def nextUnsaved (s : State) (c : CoreId) : Option (ThreadId × Thread × Nat) :=
  s.wk.slots.findSome? fun (t, r) =>
    if t.core = c then
      r.thread.bind fun th =>
        if th.due.fault.isSome then none
        else (th.lines.find? fun l => unsavedLine s t l.1 l.2).map fun l => (t, th, l.1)
    else none

/-- Whether any line of a core's threads is dirty. -/
def anyUnsaved (s : State) (c : CoreId) : Bool :=
  s.wk.slots.any fun (t, r) => decide (t.core = c) &&
    (match r.thread with
     | some th => th.lines.any fun l => unsavedLine s t l.1 l.2
     | none => false)

/-- One act of a core on its way into gating: entry begins, each act writes a dirty line back, the last one opens the commit window of two
ac, and after it the core is gated. Entry is abandoned where the core may no longer gate or a wake has arrived. -/
def execPowerGateEntry (c : CoreId) (s : State) : Host.Outcome State Fault Refusal :=
  .next (
    if (s.core c).gated then s
    else if !mayGate s c || wakeDue s c then abandonGating c s
    else
      match nextUnsaved s c with
      | some (t, th, l) =>
        let s := s.modCore c fun r => { r with gating := true, commit := none }
        match lineHome s t th l .wr with
        | .error r => oweFault t r s
        | .ok a =>
          let here := addrWindow t (lineAddr l)
          setLine t l (.clean (s.rd here 64)) (moveLine s a here)
      | none =>
        if anyUnsaved s c then abandonGating c s
        else match (s.core c).commit with
        | none => s.modCore c fun r => { r with gating := true, commit := some s.ac }
        | some e =>
          if s.ac < e + 2 then s
          else noteHalf (corePart s c) ((loseLines c s).modCore c fun r =>
            { r with gated := true, gating := false, commit := none, l1 := [], tlb := [], operandBuf := [], ext := [], place := [] }))

/-- The place table as the image at PLACEBASE gives it; where the image cannot be read its entries are free values. -/
def placeImage (s : State) (c : CoreId) : Tab Nat Nat :=
  match walkTo s (corePart s c) (s.core c).placeBase.toNat .rd with
  | .ok pa => (List.range 192).map fun i =>
      let e := s.rd (addrHbm c.pkg (pa + 2 * i)) 2
      (i, e % 2 ^ 8 + e / 2 ^ 15 * 2 ^ 15)
  | .error _ => (List.range 192).map fun i => (i, (Config.lostWord (s.free + i)).toNat % 2 ^ 8 + 2 ^ 15)

/-- A wake arrives: a core on its way into gating stays up, and a gated one leaves gating with its place table reloaded. -/
def execPowerGateWake (c : CoreId) (s : State) : Host.Outcome State Fault Refusal :=
  .next (
    if !wakeDue s c then s
    else if (s.core c).gated then
      let pl := placeImage s c
      noteHalf (corePart s c) (({ s with free := s.free + 192 }).modCore c fun r =>
        { r with gated := false, quietSince := s.ac, place := pl })
    else s.modCore c fun r => { r with gating := false, commit := none, quietSince := s.ac })

/-! ### The Boost clock (R25) -/

def isBoost (s : State) (p : PartId) : Bool := decide (wfield (s.part p).mode 0 2 = 1)

/-- The cores stop issuing for at most 1 µs while their clock changes. -/
def changeClock (p : PartId) (low : Bool) (s : State) : State :=
  { (s.modPart p fun r =>
      { r with clockLow := low, pauseUntil := s.dtime.toNat + Config.clockPause s.free % 1001 }) with free := s.free + 1 }

/-- More than half of a Boost partition's cores are active: its clock goes to 1.9 GHz. -/
def execBoostClockDown (p : PartId) (s : State) : Host.Outcome State Fault Refusal :=
  .next (if isBoost s p ∧ (s.part p).clockLow = false ∧ overHalf s p then changeClock p true s else s)

/-- The count has stayed at half or below for 100 µs: the clock returns to 2.2 GHz. -/
def execBoostClockRestore (p : PartId) (s : State) : Host.Outcome State Fault Refusal :=
  .next (match (s.part p).halfSince with
    | some t =>
      if isBoost s p ∧ (s.part p).clockLow ∧ overHalf s p = false ∧ t + 100000 ≤ s.dtime.toNat then changeClock p false s else s
    | none => s)

end Sys2Proof.Machine
end

