-- ==== Sys2Proof/Machine/Resets.lean ====
section
/-!
DEFINITION. Sys2Proof/Machine/Resets.lean: partition, die and package reset (R7, R270, R271), the watchdog ladder (R303), throttling (R305)
and the uncorrectable errors that end in a reset.
-/
namespace Sys2Proof.Machine

/-- A slice that the dispatcher has admitted and that has not completed. -/
def admittedSlice (r : SliceRec) : Bool := decide (r.st = .running ∨ r.st = .suspended ∨ r.st = .halted)

def holdsAdmitted (s : State) (p : PartId) : Bool := s.wk.slices.any fun e => decide (e.1.part = p) && admittedSlice e.2

/-- No admitted slice and no thread in any slot (R22). -/
def partIdle (s : State) (p : PartId) : Bool :=
  !holdsAdmitted s p && !s.wk.slots.any fun e => decide (e.1.slice.part = p) && e.2.thread.isSome

/-! ### Partition reset (R270) -/

/-- Step 1: every slice of the partition is killed, with no fault record written. -/
def killAll (p : PartId) (s : State) : State :=
  let live := (s.wk.slices.filter fun e => decide (e.1.part = p ∧ e.2.st ≠ .completed) && !e.2.killed).map (·.1)
  live.foldl (fun s i => killSlice s i true) s

/-- Step 2: the partition's engine operations stop, and their futures are not resolved. -/
def dropEngines (p : PartId) (s : State) : State :=
  let mine := fun (f : Fut) => decide (f.slice.part = p)
  { s with
    un := { s.un with
      clusters := s.un.clusters.map fun (c, r) => (c, { r with copies := r.copies.filter fun x => !mine x.fut })
      cores := s.un.cores.map fun (c, r) =>
        (c, { r with mqueue := r.mqueue.filter (fun o => decide (o.t.slice.part ≠ p)), peeks := r.peeks.filter fun o => decide (o.t.slice.part ≠ p) }) }
    nt := { s.nt with contribs := s.nt.contribs.filter (fun x => !mine x.fut), plans := s.nt.plans.filter (fun x => !mine x.fut)
                      boarrs := s.nt.boarrs.filter fun x => decide (x.slice.part ≠ p) } }

def Waiter.ofPart (p : PartId) : Waiter → Bool
  | .load m h => decide (m.part = p ∨ verPart h m.part = p)
  | .reel _ q h _ _ => decide (q = p ∨ verPart h q = p)

/-- Step 3: home slices, reels and winders drop what they hold of the partition. -/
def dropHeld (p : PartId) (s : State) : State :=
  { (s.modPart p fun r => { r with wfree := [] }) with
    tl := { s.tl with versions := s.tl.versions.filter (fun v => decide (v.part ≠ p)), waiters := s.tl.waiters.filter (fun w => !w.ofPart p)
                      subs := s.tl.subs.filter fun x => decide (x.part ≠ p) }
    nt := { s.nt with merges := s.nt.merges.filter (fun m => decide (m.part ≠ p))
                      relTags := s.nt.relTags.filter (fun g => decide (g.t.slice.part ≠ p))
                      withheld := s.nt.withheld.filter fun w => decide (w.t.slice.part ≠ p) } }

/-- Step 4: the partition's flits: each would be dropped where it arrives (R271). -/
def dropFlits (p : PartId) (s : State) : State :=
  let ofT := fun (t : ThreadId) => decide (t.slice.part ≠ p)
  let ofM := fun (m : VMsg) => decide (m.part ≠ p)
  { s with
    un := { s.un with cores := s.un.cores.map fun (c, r) => (c, { r with storeq := r.storeq.filter fun e => ofT e.t }) }
    tl := { s.tl with refused := s.tl.refused.filter ofM, vnet := s.tl.vnet.filter ofM, retries := s.tl.retries.filter ofM
                      acks := s.tl.acks.filter (fun a => ofT a.t), answers := s.tl.answers.filter (fun o => ofT o.t)
                      slotTiles := s.tl.slotTiles.filter (fun x => ofT x.t), notices := s.tl.notices.filter (fun w => !w.ofPart p)
                      decisions := s.tl.decisions.filter fun d => decide (d.part ≠ p) }
    nt := { s.nt with bankNet := s.nt.bankNet.filter (fun x => ofT x.t), bankWait := s.nt.bankWait.filter (fun x => ofT x.t)
                      nbrs := s.nt.nbrs.filter (fun m => ofT m.dst), fars := s.nt.fars.filter (fun m => decide (m.dstSlice.part ≠ p))
                      replies := s.nt.replies.filter (fun m => ofT m.dst), yields := s.nt.yields.filter fun y => decide (y.slice.part ≠ p) } }

/-- The kills of a partition end once none of its engine operations remains. -/
def endKills (p : PartId) (s : State) : State :=
  ((s.wk.slices.filter fun e => decide (e.1.part = p)).map (·.1)).foldl (fun s i =>
    match s.slice? i with
    | some r => endKill s i r
    | none => s) s

/-- Steps 1 to 4. -/
def startReset (p : PartId) (s : State) : State :=
  if (s.part p).resetBusy then s
  else endKills p (dropFlits p (dropHeld p (dropEngines p (killAll p (s.modPart p fun r => { r with resetBusy := true })))))

/-- Every entry of the prefix index loses V, and the AGE of way w becomes w (R249). -/
def resetIndex (p : PartId) (s : State) : State :=
  let x := (s.part p).pxctl
  if bitAt x 63 then
    (List.range (2 ^ wfield x 52 5)).foldl (fun s i =>
      (List.range 4).foldl (fun s w =>
        match walkTo s p (wfield x 7 45 * 128 + 128 * i + 32 * w + 30) .wr with
        | .ok pa =>
          let a := addrHbm p.pkg pa
          let top := s.rd a 2
          s.put a 2 (top % 2 ^ 15 - field top 0 2 + w)
        | .error _ => s) s) s
  else s

/-- The region entries of what the partition owns lose their homes (R153), in the maps and in every region cache. -/
def resetRegions (p : PartId) (s : State) : State :=
  let mine := fun (k : RegionKey) => match k with
    | .plain pkg n => decide (pkg = p.pkg) && ownsGranule s p (n / 2 ^ 14)
    | .name q _ => decide (q = p)
  let lo := addrHbm p.pkg (s.part p).nrmbase.toNat
  let hi := lo + 4 * (s.part p).nregion.toNat
  let map := addrHbm p.pkg (s.pkg p.pkg).rmapBase
  let plain := fun (a : Addr) => decide (map ≤ a ∧ a < map + 2 ^ 25) && ownsGranule s p ((a - map) / 2 ^ 16)
  { s with
    st := { s.st with mem := s.st.mem.filter fun c => !(decide (lo ≤ c.1 ∧ c.1 < hi) || plain c.1) }
    un := { s.un with quads := s.un.quads.map fun (q, r) =>
      (q, { r with regionCache := r.regionCache.filter (fun e => !mine e.1), regionMiss := r.regionMiss.filter fun k => !mine k }) } }

/-- Watchpoints of the partition's cores, and V of its filter slots and objects. -/
def resetUnits (p : PartId) (s : State) : State :=
  { s with un := { s.un with
      cores := s.un.cores.map fun (c, r) =>
        (c, if decide (c.pkg = p.pkg) && (s.part p).ownsCluster c.cluster then { r with wps := List.replicate 4 WpRec.reset } else r)
      dies := s.un.dies.map fun (d, r) =>
        (d, if d.pkg = p.pkg ∧ (s.part p).dies.contains d.die then
          { r with fslots := r.fslots.map (fun (i, f) => (i, if f.part = p.num then { f with v := false, staged := none } else f))
                   objs := r.objs.map fun (i, o) => (i, if wfield o.word 53 6 = p.num then { o with word := o.word &&& (0x7FFFFFFFFFFFFFFF : Word) } else o) }
        else r) } }

/-- Step 5: registers of partition scope take their reset values. -/
def finishReset (p : PartId) (s : State) : State :=
  (resetUnits p (resetRegions p (resetIndex p s))).modPart p fun r =>
    { PartRec.reset with units := r.units, seq := r.seq, nextName := r.nextName }

/-- RESET: a write of 1 starts the sequence. -/
def execReset (p : PartId) (v : Word) (s : State) : Host.Outcome State Fault Refusal := .next (if v = 1 then startReset p s else s)

/-- PARTITION_RESET_COMPLETE: the flits have drained. -/
def execPartitionResetComplete (p : PartId) (s : State) : Host.Outcome State Fault Refusal :=
  .next (if (s.part p).resetBusy then finishReset p s else s)

/-! ### Die and package reset -/

/-- The registers of die scope: the Carder's, the machine-check log's and the debug modules'. -/
def dieReset (d : DieId) (s : State) : State :=
  let s := s.modDie d fun r => { DieRec.reset with links := r.links, uciePhase := r.uciePhase, taps := r.taps, mcBase := r.mcBase }
  (List.range 24).foldl (fun s k =>
    let c : ClusterId := ⟨d.pkg, d.die, k⟩
    ((clusterThreads s c).foldl debugBack s).modCluster c fun r => { r with dm := DebugRec.reset }) s

def execDieReset (d : DieId) (s : State) : Host.Outcome State Fault Refusal := .next (dieReset d s)

def Waiter.ofPkg (pkg : Nat) : Waiter → Bool
  | .load m h => decide (m.part.pkg = pkg ∨ h.pkg = pkg)
  | .reel _ q h _ _ => decide (q.pkg = pkg ∨ h.pkg = pkg)

/-- A package is as State.reset has it, but for the bytes it stores. -/
def packageReset (n : Nat) (s : State) : State :=
  let ofT := fun (t : ThreadId) => decide (t.core.pkg ≠ n)
  let ofM := fun (m : VMsg) => decide (m.part.pkg ≠ n)
  let msgs := (s.pkg n).hostMsgs
  { s with
    wk := { slots := s.wk.slots.filter (fun e => ofT e.1), slices := s.wk.slices.filter fun e => decide (e.1.part.pkg ≠ n) }
    un := { cores := s.un.cores.filter (fun e => decide (e.1.pkg ≠ n)), logs := s.un.logs.filter (fun e => decide (e.1.pkg ≠ n))
            clusters := s.un.clusters.filter (fun e => decide (e.1.pkg ≠ n)), quads := s.un.quads.filter (fun e => decide (e.1.pkg ≠ n))
            dies := s.un.dies.filter (fun e => decide (e.1.pkg ≠ n)), parts := s.un.parts.filter (fun e => decide (e.1.pkg ≠ n))
            pkgs := tput s.un.pkgs n { PkgRec.reset with hostMsgs := msgs, resetAt := s.dtime.toNat } }
    tl := { versions := s.tl.versions.filter (fun v => decide (v.home.pkg ≠ n)), waiters := s.tl.waiters.filter (fun w => !w.ofPkg n)
            refused := s.tl.refused.filter ofM, vnet := s.tl.vnet.filter ofM, retries := s.tl.retries.filter ofM
            acks := s.tl.acks.filter (fun a => ofT a.t), answers := s.tl.answers.filter (fun o => ofT o.t)
            slotTiles := s.tl.slotTiles.filter (fun x => ofT x.t), notices := s.tl.notices.filter (fun w => !w.ofPkg n)
            decisions := s.tl.decisions.filter (fun d => decide (d.part.pkg ≠ n ∧ d.place.pkg ≠ n))
            subs := s.tl.subs.filter (fun x => decide (x.part.pkg ≠ n)), insts := s.tl.insts.filter fun e => decide (e.1.pkg ≠ n) }
    nt := { relTags := s.nt.relTags.filter (fun g => decide (g.addr / 2 ^ 128 ≠ n)), withheld := s.nt.withheld.filter (fun w => ofT w.t)
            merges := s.nt.merges.filter (fun m => decide (m.part.pkg ≠ n)), contribs := s.nt.contribs.filter (fun x => ofT x.t)
            boarrs := s.nt.boarrs.filter (fun x => ofT x.t), plans := s.nt.plans.filter (fun x => ofT x.t)
            bankNet := s.nt.bankNet.filter (fun x => ofT x.t), bankWait := s.nt.bankWait.filter (fun x => ofT x.t)
            nbrs := s.nt.nbrs.filter (fun m => ofT m.dst), fars := s.nt.fars.filter (fun m => decide (m.dstCore.pkg ≠ n))
            replies := s.nt.replies.filter (fun m => ofT m.dst), yields := s.nt.yields.filter (fun y => ofT y.t)
            wakes := s.nt.wakes.filter (fun w => decide (w.core.pkg ≠ n)), cpIrqs := s.nt.cpIrqs.filter (fun i => decide (i.q.pkg ≠ n))
            saving := s.nt.saving.filter (fun o => decide (o.acc.core.pkg ≠ n))
            savedAccs := s.nt.savedAccs.filter fun e => decide (e.1.core.pkg ≠ n) } }

def execPackageReset (n : Nat) (s : State) : Host.Outcome State Fault Refusal := .next (packageReset n s)

/-- Step 5 of the ladder: a management message to the host first. -/
def ladderReset (n : Nat) (s : State) : State := packageReset n (s.modPkg n fun r => { r with hostMsgs := r.hostMsgs + 1 })

/-! ### Command processors and their images (R300 to R302) -/

/-- Whether an image passes: both signatures under the fused key hashes, and a security version at least the fused rollback counter. -/
def imagePasses (s : State) (pkg : Nat) (a : Word) : Bool :=
  Config.imageRsa s.st.mem a && Config.imageSlh s.st.mem a && decide (Config.rollback pkg ≤ Config.imageSecurity s.st.mem a)

/-- A command processor starts an image: at its entry, in machine mode, with the standard registers as its reset leaves them. -/
def enterImage (q : QuadId) (a : Word) (s : State) : State :=
  s.modQuad q fun r => { r with cp := ⟨3, Config.imageEntry s.st.mem a, [], a⟩ }

/-- mstatus on a trap: the interrupt enable at bit `ie` goes to the bit 4 above it, and the mode into the field that keeps it. -/
def cpStacked (st : Nat) (ie modeAt width mode : Nat) : Word :=
  let en := st / 2 ^ ie % 2
  let st := st - en * 2 ^ ie - field st (ie + 4) 1 * 2 ^ (ie + 4) - field st modeAt width * 2 ^ modeAt
  BitVec.ofNat 64 (st + en * 2 ^ (ie + 4) + mode % 2 ^ width * 2 ^ modeAt)

/-- An exception of the privileged architecture: to supervisor mode where it is delegated, else to machine mode. -/
def CpRec.trap (r : CpRec) (cause : Nat) (tval : Word) : CpRec :=
  let st := (tget r.csrs 0x300 0).toNat
  let put := fun (l : Tab Nat Word) (e : Nat × Word) => tput l e.1 e.2
  if r.mode < 3 && bitAt (tget r.csrs 0x302 0) cause then
    { r with mode := 1, pc := tget r.csrs 0x105 0 &&& (0xFFFFFFFFFFFFFFFC : Word)
             csrs := [(0x141, r.pc), (0x142, BitVec.ofNat 64 cause), (0x143, tval), (0x300, cpStacked st 1 8 1 r.mode)].foldl put r.csrs }
  else
    { r with mode := 3, pc := tget r.csrs 0x305 0 &&& (0xFFFFFFFFFFFFFFFC : Word)
             csrs := [(0x341, r.pc), (0x342, BitVec.ofNat 64 cause), (0x343, tval), (0x300, cpStacked st 3 11 2 r.mode)].foldl put r.csrs }

/-- The illegal-instruction exception of a command processor. -/
def cpIllegal (q : QuadId) (s : State) : State :=
  { s with free := s.free + 1 }.modQuad q fun r => { r with cp := r.cp.trap 2 (Config.illegalValue s.free) }

/-- A command processor's instruction that accesses a register of a mode: in that mode or a higher one it has its effect and the pc goes on,
and in a lower one it is illegal. -/
def cpWrite (q : QuadId) (mode : Nat) (f : State → State) (s : State) : State :=
  if mode ≤ (s.quad q).cp.mode then (f s).modQuad q fun r => { r with cp := { r.cp with pc := r.cp.pc + 4 } } else cpIllegal q s

/-! ### The watchdog ladder (R303) -/

/-- The part of the time since a kick that a live swap suspends: from step 1 on, and at most 100 ms. -/
def wdHeld (s : State) (q : QuadId) (kick : Nat) : Nat :=
  match (s.quad q).suspended with
  | some t => min s.dtime.toNat (t + 100000000) - max kick t
  | none => 0

/-- Device time since the last kick, without what a live swap suspends: at most 100 ms. -/
def wdElapsed (s : State) (q : QuadId) : Nat :=
  let k := max (s.quad q).kick (s.pkg q.pkg).resetAt
  s.dtime.toNat - k - wdHeld s q k

/-- A step of the ladder falls due: the steps before it have been taken, and its time has passed without a kick. -/
def wdDue (s : State) (q : QuadId) (step ms : Nat) : Bool := decide ((s.quad q).wdStep = step ∧ ms * 1000000 ≤ wdElapsed s q)

def wdTake (q : QuadId) (step : Nat) (s : State) : State := s.modQuad q fun r => { r with wdStep := step }

/-- A partition reset under way in a package: a watchdog step waits for it (R271). -/
def anyReset (s : State) (pkg : Nat) : Bool := s.un.parts.any fun e => decide (e.1.pkg = pkg) && e.2.resetBusy

def execWatchdogSoftRestart (q : QuadId) (s : State) : Host.Outcome State Fault Refusal :=
  .next (if wdDue s q 0 10 ∧ anyReset s q.pkg = false then
    enterImage q (s.quad q).cp.image ((wdTake q 1 s).modQuad q fun r => { r with restarts := r.restarts + 1 }) else s)

/-- Step 2: the management core verifies the quadrant's image again, and it runs where it passes. -/
def execWatchdogFirmwareReload (q : QuadId) (s : State) : Host.Outcome State Fault Refusal :=
  .next (if wdDue s q 1 30 ∧ anyReset s q.pkg = false then
    (let s := wdTake q 2 s
     let a := (s.quad q).cp.image
     if imagePasses s q.pkg a then enterImage q a (s.modQuad q fun r => { r with restarts := r.restarts + 1 }) else s) else s)

/-- The partitions served only by a quadrant. -/
def onlyServed (s : State) (q : QuadId) : List PartId :=
  (s.un.parts.filter fun e => decide (e.1.pkg = q.pkg ∧ e.2.units ≠ []) && e.2.units.all fun u => decide (unitQuad q.pkg u = q)).map (·.1)

def execWatchdogPartitionReset (q : QuadId) (s : State) : Host.Outcome State Fault Refusal :=
  .next (if wdDue s q 2 80 ∧ anyReset s q.pkg = false then (onlyServed s q).foldl (fun s p => startReset p s) (wdTake q 3 s) else s)

def execWatchdogDieReset (q : QuadId) (s : State) : Host.Outcome State Fault Refusal :=
  .next (if wdDue s q 3 180 ∧ anyReset s q.pkg = false then dieReset ⟨q.pkg, q.die⟩ (wdTake q 4 s) else s)

def execWatchdogPackageReset (q : QuadId) (mcoreFailed : Bool) (s : State) : Host.Outcome State Fault Refusal :=
  .next (if (mcoreFailed ∨ wdDue s q 4 380) ∧ anyReset s q.pkg = false then ladderReset q.pkg s else s)

/-- WDKICK: the count restarts and the escalation stops. -/
def execWdkick (q : QuadId) (s : State) : Host.Outcome State Fault Refusal :=
  .next (cpWrite q 3 (fun s => s.modQuad q fun r => { r with kick := s.dtime.toNat, wdStep := 0 }) s)

/-! ### Live swap (R302) -/

/-- SWAPREQ: the command processor stops reading queues, and its watchdog count is suspended. -/
def execSwapreq (q : QuadId) (addr : Word) (s : State) : Host.Outcome State Fault Refusal :=
  .next (if (s.quad q).swapSt = 1 then s
    else cpWrite q 3 (fun s => s.modQuad q fun r => { r with swapSt := 1, swapAddr := addr, suspended := some s.dtime.toNat }) s)

/-- SWAP_VERIFY_DONE: an image that passes every check goes on from its entry, and one that does not leaves the old image at the instruction
after SWAPREQ; SWAPST says which. The watchdog's count goes on where it was. -/
def execSwapVerifyDone (q : QuadId) (pass : Bool) (s : State) : Host.Outcome State Fault Refusal :=
  .next (if (s.quad q).swapSt = 1 ∧ pass = imagePasses s q.pkg (s.quad q).swapAddr then
    let k := max (s.quad q).kick (s.pkg q.pkg).resetAt
    let s' := s.modQuad q fun r => { r with swapSt := if pass then 2 else 3, suspended := none, kick := k + wdHeld s q k }
    if pass then enterImage q (s.quad q).swapAddr s' else s'
  else s)

/-! ### Power (R305) -/

def execThrottleStart (pkg : Nat) (s : State) : Host.Outcome State Fault Refusal := .next (s.modPkg pkg fun r => { r with throttled := true })
def execThrottleEnd (pkg : Nat) (s : State) : Host.Outcome State Fault Refusal := .next (s.modPkg pkg fun r => { r with throttled := false })
def execOvertempShutdown (pkg : Nat) (s : State) : Host.Outcome State Fault Refusal := .next (ladderReset pkg s)

/-! ### Uncorrectable errors (R166, R269) -/

/-- An error in a shared structure is logged with KIND 5, and the partition that owns the entry is reset. -/
def lostStructure (p : PartId) (u : SharedUnit) (s : State) : State :=
  startReset p (match u with
    | .core c => mcLog s c.dieId (mcCore c p 10 5 0 0)
    | .cluster c => mcLog s c.dieId ⟨0, 0, p.num, 10, 5, c.cl, 0, none⟩
    | .home h => mcLog s (homeDie h) ⟨0, 0, p.num, 5, 5, 31, 0, some ⟨h.pkg, h.die, h.quad⟩⟩)

def execUncorrectableError (e : ErrorSite) (s : State) : Host.Outcome State Fault Refusal :=
  .next (match e with
    | .corrected d => countCorrected d s
    | .l1 c line => if (s.core c).l1.any fun x => decide (x.addr = line) then lostL1 c line s else s
    | .granule a => poisonGranule a s
    | .threadState t lost => machineCheck t lost (some offPcsave) (if lost then loseControl t s else s)
    | .handleState t lost => machineCheck t lost none (if lost then loseHandles t s else s)
    | .version h p name ver g => poisonVersion h p name ver g s
    | .shared p u => lostStructure p u s)

end Sys2Proof.Machine
end

