-- ==== Sys2Proof/Machine/Firmware.lean ====
section
/-!
DEFINITION. Sys2Proof/Machine/Firmware.lean: what firmware, the management core, the host and the links do: the partition control page
(R295), granules and partitions (R293, R429), the command processors' registers (R300), plain registers (R5), host DMA (R216) and link
events (R297, R298).
-/
namespace Sys2Proof.Machine

/-! ### The partition control page (R295) -/

/-- A write that takes effect only while the partition is idle. -/
def idleWrite (p : PartId) (ok : Bool) (f : PartRec → PartRec) (s : State) : State := if partIdle s p && ok then s.modPart p f else s

/-- The counts of a partition's windows stand as granted before a write of CBUDGET. -/
def listBudgets (p : PartId) (s : State) : State :=
  (s.part p).dies.foldl (fun s d =>
    let s := syncWindow ⟨p.pkg, d⟩ s
    let n := cdCount s ⟨p.pkg, d⟩ p
    s.modDie ⟨p.pkg, d⟩ fun r => { r with budget := tput r.budget p n }) s

/-- MODE (R21, R22): CLK = 3 is ignored. -/
def execMode (p : PartId) (v : Word) (s : State) : Host.Outcome State Fault Refusal :=
  .next (if partIdle s p ∧ wfield v 0 2 ≠ 3 then
    noteHalf p ((listBudgets p s).modPart p fun r =>
      { r with mode := v &&& (0xFFFF001F : Word), clockLow := false, halfSince := none })
  else s)

/-- DCTL (R61): an AGELIMIT of 0 is ignored. -/
def execDctl (p : PartId) (v : Word) (s : State) : Host.Outcome State Fault Refusal :=
  .next (if wfield v 0 8 ≠ 0 then s.modPart p fun r => { r with ageLimit := wfield v 0 8 } else s)

/-- OVDEF (R119): a 3 in any entry is ignored. -/
def execOvdef (p : PartId) (v : Word) (s : State) : Host.Outcome State Fault Refusal :=
  .next (idleWrite p ((List.range 7).all fun i => wfield v (2 * i) 2 ≠ 3) (fun r => { r with ovdef := v &&& (0x3FFF : Word) }) s)

/-- VQUOTA (R172). -/
def execVquota (p : PartId) (v : Word) (s : State) : Host.Outcome State Fault Refusal :=
  let entries := wfield v 0 16
  let hold := wfield v 32 8
  .next (idleWrite p (decide (1 ≤ entries ∧ entries ≤ 0x8000 ∧ 1 ≤ hold ∧ hold ≤ 64))
    (fun r => { r with vquota := v &&& (0xFF0000FFFF : Word) }) s)

/-- NREGION (R153, R295). -/
def execNregion (p : PartId) (v : Word) (s : State) : Host.Outcome State Fault Refusal :=
  .next (idleWrite p (decide (v.toNat ≤ 2 ^ 20)) (fun r => { r with nregion := v }) s)

/-- ROOTHOME (R194, R295). -/
def execRoothome (p : PartId) (v : Word) (s : State) : Host.Outcome State Fault Refusal :=
  .next (idleWrite p true (fun r => { r with roothome := v &&& (0x80000000000000FF : Word) }) s)

/-- NRMBASE (R156): 64 KiB aligned, and the 4 MiB from it inside one reserved granule. -/
def execNrmbase (p : PartId) (v : Word) (s : State) : Host.Outcome State Fault Refusal :=
  let a := v.toNat
  .next (idleWrite p (decide (a % 2 ^ 16 = 0 ∧ a < 2 ^ 39 ∧ a / 2 ^ 30 % 64 = 63 ∧ a % 2 ^ 30 + 2 ^ 22 ≤ 2 ^ 30))
    (fun r => { r with nrmbase := v }) s)

/-- ARENAd (R171): every granule of a range that is not empty is the partition's and on die Dd. -/
def execArena (p : PartId) (d : Fin 4) (v : Word) (s : State) : Host.Outcome State Fault Refusal :=
  let base := wfield v 0 16
  let size := wfield v 16 16
  let ok := size = 0 || (decide (128 * d.val ≤ base ∧ base + size ≤ 128 * (d.val + 1)) && (nrange base size).all (ownsGranule s p))
  .next (idleWrite p ok (fun r => { r with arenas := tput r.arenas d.val (BitVec.ofNat 64 (base + size * 2 ^ 16)) }) s)

/-- WPOOLn (R244): the pool's free map stands when V, ORD, UNIT and BASE stay as they were, and every unit is free otherwise. -/
def execWpool (p : PartId) (n : Fin 8) (v : Word) (s : State) : Host.Outcome State Fault Refusal :=
  let ok := decide (wfield v 48 10 ≠ 0 ∧ wfield v 58 5 ≤ 20 ∧ wfield v 36 12 = 0)
  .next (idleWrite p ok (fun r =>
    let keep := bitAt v 63 && decide (tget r.wpools n.val 0 = v)
    { r with wpools := tput r.wpools n.val v, wfree := if keep then r.wfree else tdel r.wfree n.val }) s)

/-- PXCTL (R249). -/
def execPxctl (p : PartId) (v : Word) (s : State) : Host.Outcome State Fault Refusal :=
  .next (idleWrite p true (fun r => { r with pxctl := v &&& (0x81FFFFFFFFFFFF80 : Word) }) s)

/-- TLB_INVALIDATE (R159): begins; a further write replaces a range whose invalidation has not completed. -/
def execTlbInvalidate (p : PartId) (v : Word) (s : State) : Host.Outcome State Fault Refusal :=
  .next (s.modPart p fun r => { r with tlbInv := v &&& (0x000FFFFFFFFF003F : Word), tlbBusy := true })

/-- Whether a translation of the partition lies in the range that a TLB invalidation names. -/
def invalidates (v : Word) (lo log2 : Nat) : Bool :=
  let n := wfield v 0 6
  n = 0x3F || (let a := wfield v 16 36 * 2 ^ 16; decide (lo < a + 2 ^ (16 + n) ∧ a < lo + 2 ^ log2))

/-- TLB_INVALIDATE_COMPLETE: every TLB and miss-table entry has dropped the translations, and <63> is set. A requester whose entry is
dropped begins again. -/
def execTlbInvalidateComplete (p : PartId) (s : State) : Host.Outcome State Fault Refusal :=
  .next (if (s.part p).tlbBusy then
    let v := (s.part p).tlbInv
    let gone := fun (e : TlbEnt) => decide (e.part = p) && invalidates v (e.vbase * 2 ^ e.log2) e.log2
    let walk := fun (e : WalkEnt) => decide (e.part = p) && invalidates v (e.vbase * 2 ^ (52 - 12 * e.level)) (52 - 12 * e.level)
    let miss := fun (e : MissEnt) => decide (e.part = p) && invalidates v (e.va / 2 ^ 16 * 2 ^ 16) 16
    let again := s.un.quads.flatMap fun e => (e.2.miss.filter miss).flatMap (·.waiters)
    let s := { s with un := { s.un with
      cores := tall s.un.cores fun r => { r with tlb := r.tlb.filter fun e => !gone e }
      quads := tall s.un.quads fun r => { r with stlb := r.stlb.filter (fun e => !gone e), miss := r.miss.filter (fun e => !miss e)
                                                 walks := r.walks.filter fun e => !walk e } } }
    let s := again.foldl (fun s t => s.modThread t fun th => if th.phase = .walk then { th with phase := .ready } else th) s
    s.modPart p fun r => { r with tlbBusy := false, tlbInv := r.tlbInv ||| (0x8000000000000000 : Word) }
  else s)

/-- The region that REGREL names. -/
def regionOf (p : PartId) (v : Word) : RegionKey :=
  if bitAt v 63 then .name p (wfield v 0 23) else .plain p.pkg (wfield v 0 23)

/-- A name region is not released while its home holds a version, a merge record or a waiter of it (R156). -/
def regionHeld (s : State) (k : RegionKey) : Bool :=
  match k with
  | .plain _ _ => false
  | .name p n =>
    let e := regionEntry s k
    let h := entryHome p.pkg e
    e.testBit 31 &&
    (s.tl.versions.any (fun v => decide (v.home = h ∧ v.part = verPart h p ∧ v.name / 4096 = n)) ||
     s.tl.waiters.any fun w => match w with
       | .load m h' => decide (h' = h ∧ verPart h m.part = verPart h p ∧ m.name / 4096 = n)
       | .reel _ q h' name _ => decide (h' = h ∧ verPart h q = verPart h p ∧ name / 4096 = n))

/-- REGREL (R156): a release begins, or is refused. -/
def execRegrel (p : PartId) (v : Word) (s : State) : Host.Outcome State Fault Refusal :=
  let w := v &&& (0x80000000007FFFFF : Word)
  .next (if bitAt (s.part p).regrel 62 then s
    else if regionHeld s (regionOf p v) then s.modPart p fun r => { r with regrel := w ||| (0x2000000000000000 : Word) }
    else s.modPart p fun r => { r with regrel := w ||| (0x4000000000000000 : Word) })

/-- REGION_RELEASE_COMPLETE: the lines are in memory, V is clear, and no region cache holds the entry. -/
def execRegionReleaseComplete (p : PartId) (s : State) : Host.Outcome State Fault Refusal :=
  .next (let v := (s.part p).regrel
    if bitAt v 62 then
      let k := regionOf p v
      let e := regionEntry s k
      let s := if e.testBit 31 then setRegionEntry s k (e - 2 ^ 31) else s
      let s := { s with un := { s.un with quads := tall s.un.quads fun r => { r with regionCache := tdel r.regionCache k } } }
      s.modPart p fun r => { r with regrel := v &&& (0x80000000007FFFFF : Word) }
    else s)

/-! ### Granules and partitions -/

/-- GOWNg (R429). -/
def execGown (pkg g : Nat) (v : Word) (s : State) : Host.Outcome State Fault Refusal :=
  let old := tget (s.pkg pkg).gown g 0
  let named : PartId := ⟨pkg, wfield v 0 6⟩
  let owner : PartId := ⟨pkg, wfield old 0 6⟩
  .next (if g < 512 ∧ g % 64 ≠ 63 ∧ wfield v 6 57 = 0 ∧
      (bitAt v 63 = false ∨ ((s.part named).dies.contains (g / 128) ∧ holdsAdmitted s named = false)) ∧
      (bitAt old 63 = false ∨ holdsAdmitted s owner = false) then
    s.modPkg pkg fun r => { r with gown := tput r.gown g v }
  else s)

/-- PARTITION_CREATE_DESTROY (R293): creation takes units that no partition has; destruction, with an empty list, frees those of an idle
partition. -/
def execPartitionCreateDestroy (p : PartId) (units : List Nat) (s : State) : Host.Outcome State Fault Refusal :=
  let free := units.all fun u => decide (u < 48 ∧ unitOwner s p.pkg u = 0xFF)
  .next (if 48 ≤ p.num ∨ partIdle s p = false then s
    else if units = [] then s.modPart p fun _ => PartRec.reset
    else if (s.part p).units = [] ∧ free ∧ units.Nodup then s.modPart p fun _ => { PartRec.reset with units := units }
    else s)

/-! ### Command processors (R300) -/

/-- A byte of a command processor's local SRAM. -/
def addrCp (q : QuadId) (off : Nat) : Addr := q.pkg * 2 ^ 128 + 2 ^ 59 + (q.die * 4 + q.quad) * 2 ^ 32 + off % 2 ^ 32

/-- FWSUBMIT: the descriptor at an SRAM address is submitted to a partition that the quadrant serves, as a privileged slice; CPSUBST
takes the code of R30. -/
def execFwsubmit (q : QuadId) (p : PartId) (addr : Word) (s : State) : Host.Outcome State Fault Refusal :=
  .next (if servesPart s q p = false ∨ 1024 ≤ heldSlices s p ∨ (s.part p).resetBusy then s
    else
      let d := BitVec.ofNat 512 (s.rd (addrCp q addr.toNat) 64)
      let code := descCode s p d
      cpWrite q 3 (fun s => (if code = 0 then (submit s p d ⟨q, true, 0, 0⟩ true).2 else s).modQuad q fun r => { r with subSt := code }) s)

/-- CPEVTHEAD: event records before the index written are freed; an index beyond the records appended frees none. -/
def execCpevthead (q : QuadId) (v : Word) (s : State) : Host.Outcome State Fault Refusal :=
  .next (let n := (v.toNat + 2 ^ 64 - (s.quad q).ringHead) % 2 ^ 64
    cpWrite q 3 (fun s =>
      if n ≤ (s.quad q).ring.length then s.modQuad q fun r => { r with ring := r.ring.drop n, ringHead := v.toNat } else s) s)

/-- MCTAIL (R304): entries before the index written are freed; one beyond MCHEAD is ignored. -/
def execMctail (d : DieId) (v : Word) (s : State) : Host.Outcome State Fault Refusal :=
  .next (if v.toNat ≤ (s.die d).mcHead then s.modDie d fun r => { r with mcTail := v.toNat } else s)

/-! ### Plain registers (R5) -/

/-- A firmware write of a region-map entry: an entry with V = 1 is changed only after a release (R156). -/
def writeRegion (k : RegionKey) (v : Word) (s : State) : State :=
  if (regionEntry s k).testBit 31 then s else setRegionEntry s k (wfield v 0 32 % 2 ^ 32 &&& 0xC0FF01FF)

/-- DMDBG (R328): EN is replaced, a 1 clears V. -/
def writeDmdbg (v old : Word) : Word :=
  let old := if bitAt v 63 then old &&& (0x7FFFFFFFFFFFFFFF : Word) else old
  (old &&& (0xBFFFFFFFFFFFFFFF : Word)) ||| (v &&& (0x4000000000000000 : Word))

/-- The standard registers of the privileged architecture that a command processor's firmware writes: the 16 PMP entries, and those of its
traps. -/
def cpStandard (n : Nat) : Bool :=
  [0x105, 0x140, 0x141, 0x142, 0x143, 0x300, 0x302, 0x303, 0x304, 0x305, 0x306, 0x340, 0x341, 0x342, 0x343, 0x344, 0x3A0, 0x3A2].contains n ||
  decide (0x3B0 ≤ n ∧ n ≤ 0x3BF)

/-- A write of a standard or a read-only register of a command processor; an unassigned custom number is illegal (R300). Those whose writes
act have steps of their own. -/
def writeCpCsr (q : QuadId) (n : Nat) (v : Word) (s : State) : State :=
  if cpStandard n then cpWrite q (n / 2 ^ 8 % 4) (fun s => s.modQuad q fun x => { x with cp := { x.cp with csrs := tput x.cp.csrs n v } }) s
  else if n = 0x7C1 ∨ n = 0x7C3 ∨ n = 0x7C6 then cpWrite q 3 id s
  else if n = 0x5C0 then cpWrite q 1 id s
  else if n = 0x301 then cpWrite q 3 id s
  else if (0x7C0 ≤ n ∧ n ≤ 0x7C5) ∨ n = 0x5C1 ∨ n = 0x180 then s
  else cpIllegal q s

/-- REGISTER_WRITE: a register with no behaviour of its own, by its access type; reserved fields ignore the write (R6). -/
def execRegisterWrite (r : RegName) (v : Word) (s : State) : Host.Outcome State Fault Refusal :=
  .next (match r with
    | .vfbind pkg vf => if vf < 512 then s.modPkg pkg fun x => { x with vfbind := tput x.vfbind vf (v &&& (0x800000000000003F : Word)) } else s
    | .qctl pkg vf n =>
      if vf < 512 ∧ n < 8 then modQueue s pkg vf n fun x => { x with ctl := v &&& (0xFFFFFFFFFFFFF0F1 : Word) } else s
    | .ptroot p => s.modPart p fun x => { x with ptroot := v &&& (0x0000FFFFFFFF8000 : Word) }
    | .dmctl c => writeDmctl c v s
    | .dmdbg c => s.modCluster c fun x => { x with dm := { x.dm with dbg := writeDmdbg v x.dm.dbg } }
    | .dmstat c => if bitAt v 1 then s.modCluster c fun x => { x with dm := { x.dm with trigIgn := false } } else s
    | .satp q => cpWrite q 1 (fun s => if wfield v 60 4 = 0 then s.modQuad q fun x => { x with satp := v } else s) s
    | .sqsel q => cpWrite q 1 (fun s => s.modQuad q fun x => { x with sqsel := wfield v 0 12 }) s
    | .cpCsr q n => writeCpCsr q n v s
    | .cpRun q mode => if mode = 2 ∨ (s.quad q).swapSt = 1 then s else s.modQuad q fun x => { x with cp := { x.cp with mode := mode.val, pc := v } }
    | .mcBase d => if v.toNat % 2 ^ 37 / 2 ^ 30 % 64 = 63 ∧ v.toNat < 2 ^ 37 ∧ v.toNat % 2 ^ 30 + 2 ^ 15 ≤ 2 ^ 30 then
        s.modDie d fun x => { x with mcBase := v.toNat } else s
    | .rmapBase pkg => if v.toNat / 2 ^ 30 % 64 = 63 ∧ v.toNat < 2 ^ 39 ∧ v.toNat % 2 ^ 30 + 2 ^ 25 ≤ 2 ^ 30 ∧ !(s.un.parts.any fun e => decide (e.1.pkg = pkg)) then
        s.modPkg pkg fun x => { x with rmapBase := v.toNat } else s
    | .object d n => if n < 256 then s.modObj d n fun x => { x with word := v &&& (0xFFFFFFF00000FFFF : Word) } else s
    | .logEnable c => s.modLog c fun x => { x with on := bitAt v 0 }
    | .overloadCount d p => s.modDie d fun x => { x with overload := tdel x.overload p }
    | .budgetCount d p => s.modDie d fun x => { x with budgetDrops := tdel x.budgetDrops p }
    | .traceHead d n => s.modObj d n fun x => if x.cons ≤ v.toNat ∧ v.toNat ≤ x.prod then { x with cons := v.toNat } else x
    | .regionEntry p pkg n =>
      (match p with
       | some p => if n < (s.part p).nregion.toNat then writeRegion (.name p n) v s else s
       | none => if n < 2 ^ 23 then writeRegion (.plain pkg n) v s else s)
    | .carderSram d off => if off + 8 ≤ 2 ^ 22 then s.wr (addrCarder d off) 8 v.toNat else s
    | .cpSram q off => s.wr (addrCp q off) 8 v.toNat)

/-! ### Host DMA (R216) -/

/-- A host access touches the homes of its regions. -/
def hostTouch (pkg pa n : Nat) (s : State) : State :=
  if n = 0 then s
  else (nrange (pa / 2 ^ 16) ((pa + n - 1) / 2 ^ 16 + 1 - pa / 2 ^ 16)).foldl (fun s r =>
    let v := tget (s.pkg pkg).gown (r / 2 ^ 14) 0
    if r < 2 ^ 23 ∧ bitAt v 63 then (peerHome s ⟨pkg, wfield v 0 6⟩ (.plain pkg r)).2 else s) s

/-- Whether a range is device memory or host memory (R151). -/
def dmaRange (pa n : Nat) : Bool := decide (pa + n ≤ 2 ^ 39 ∨ (2 ^ 47 ≤ pa ∧ pa + n ≤ 2 ^ 48))

def bytesNat (l : List Byte) : Nat := pack (l.map fun b => (8, b.toNat))

/-- HOST_DMA: a write or a read over the Pardopol port. -/
def execHostDma (q : QuadId) (op : DmaOp) (s : State) : Host.Outcome State Fault Refusal :=
  .next (match op with
    | .write pa bytes =>
      if dmaRange pa bytes.length then
        let a := addrHbm q.pkg pa
        let s := clearTags a bytes.length (fireWatches ((hostTouch q.pkg pa bytes.length s).wr a bytes.length (bytesNat bytes)) a bytes.length)
        if s.poisoned a bytes.length then logSite s ⟨q.pkg, q.die⟩ a 2 else s
      else s
    | .read pa len dst =>
      if dmaRange pa len && decide (2 ^ 47 ≤ dst ∧ dst + len ≤ 2 ^ 48) then
        let a := addrHbm q.pkg pa
        let b := addrHbm q.pkg dst
        let bad := (List.range len).filter fun i => s.poisoned (a + i) 1
        let s := (hostTouch q.pkg pa len s).wr b len (s.rd a len)
        { s with st := { s.st with poison := bad.foldl (fun l i => nins l ((b + i) / 16)) s.st.poison } }
      else s)

/-! ### Links (R297, R298) -/

/-- A class-3 event. The manual names neither the partition nor the count that it carries. -/
def linkEvent (d : DieId) (link kind : Nat) (s : State) : State :=
  let here := (s.un.parts.filter fun e => decide (e.1.pkg = d.pkg ∧ e.2.dies.contains d.die)).map (·.1)
  match here[Config.linkPart s.free % here.length]? with
  | none => s
  | some p =>
    raiseEvent { s with free := s.free + 1 } d 0xFF 0xF p 3 false [link, kind, Config.linkCount s.free % 2 ^ 32]

/-- FLIT_CRC_RETRY: the adapter delivers the flit once, so nothing changes. -/
def execFlitCrcRetry (_d : DieId) (_boundary : Nat) (s : State) : Host.Outcome State Fault Refusal := .next s

/-- CORRAM_FLIT_RETRY: the flit is replayed; one that waited for credit before raised a credit stall first. -/
def execCorramFlitRetry (d : DieId) (link : Nat) (s : State) : Host.Outcome State Fault Refusal :=
  .next (if 6 ≤ link then s
    else
      let s' := { s with free := s.free + 1 }
      linkEvent d link 2 (if Config.creditStall s.free then linkEvent d link 3 s' else s'))

/-- LINK_RETRAIN: a third failure takes the link down. -/
def execLinkRetrain (d : DieId) (link : Nat) (ok : Bool) (s : State) : Host.Outcome State Fault Refusal :=
  let (n, down) := tget (s.die d).links link (0, false)
  .next (if down ∨ 6 ≤ link then s
    else
      let n' := if ok then n else n + 1
      (linkEvent d link 1 s).modDie d fun r => { r with links := tput r.links link (n', decide (3 ≤ n')) })

/-- UCIE_RETRAIN: a die boundary repairs lanes, trains or retrains; the model counts it. -/
def execUcieRetrain (d : DieId) (boundary : Nat) (s : State) : Host.Outcome State Fault Refusal :=
  .next (s.modDie d fun r => { r with uciePhase := tupd r.uciePhase boundary 0 (· + 1) })

end Sys2Proof.Machine
end

