-- ==== Sys2Proof/Machine/Mesh.lean ====
section
/-!
DEFINITION. Sys2Proof/Machine/Mesh.lean: the arrival of what travels on the message mesh (R235, R236, R238).
-/
namespace Sys2Proof.Machine

/-- Whether a message carries a revoked root: it is dropped and counted where it arrives (R198). -/
def revokedMsg (s : State) (p : PartId) (roots : List Nat) : Bool := roots.any fun n => rootState s p n = .revoked

/-- The k-th neighbour word on its way reaches its port, after every earlier one between the same slots and port. -/
def execNeighbourWordArrival (k : Nat) (s : State) : Host.Outcome State Fault Refusal :=
  .next (match s.nt.nbrs[k]? with
    | none => s
    | some m =>
      if (s.nt.nbrs.take k).any fun x => decide (x.src = m.src ∧ x.dst = m.dst ∧ x.dir = m.dir) then s
      else
        let s := { s with nt := { s.nt with nbrs := dropAt s.nt.nbrs k } }
        if revokedMsg s m.dst.slice.part m.w.roots then countDropped m.dst.core 1 s
        else match s.slot? m.dst with
        | none => countDropped m.dst.core 1 s
        | some _ => s.modSlot m.dst fun r => r.setPort m.dir (r.port m.dir ++ [m.w]))

/-- The header that a NACK returns (R238). -/
def nackHeader (h : Word) (gen : Nat) : Word := BitVec.ofNat 64 (h.toNat % 2 ^ 17 + 2 ^ 17 + gen % 256 * 2 ^ 56)

/-- A far message meets another generation: it is dropped and counted, and with NACKREQ its sender hears of it. -/
def dropFar (m : FarMsg) (gen : Nat) (s : State) : State :=
  let s := countDropped m.dstCore 1 s
  if bitAt m.header 15 then
    { s with nt := { s.nt with replies := s.nt.replies ++
        [⟨⟨m.dstCore, m.dstSlice, m.slot⟩, m.src.t, m.src.gen, ⟨nackHeader m.header gen, []⟩, true⟩] } }
  else s

/-- The k-th far message on its way is delivered whole or dropped; it waits while its slot has no room for its words. -/
def execFarMessageDelivery (k : Nat) (s : State) : Host.Outcome State Fault Refusal :=
  .next (match s.nt.fars[k]? with
    | none => s
    | some m =>
      if (s.nt.fars.take k).any fun x => decide (x.src.t = m.src.t ∧ x.dstCore = m.dstCore ∧ x.slot = m.slot ∧ x.dstSlice = m.dstSlice)
      then s
      else
        let out : State := { s with nt := { s.nt with fars := dropAt s.nt.fars k } }
        let t : ThreadId := ⟨m.dstCore, m.dstSlice, m.slot⟩
        if revokedMsg s m.dstSlice.part m.roots then countDropped m.dstCore 1 out
        else match s.slot? t with
        | none => dropFar m (Config.freshByte s.free).toNat { out with free := s.free + 1 }
        | some r =>
          if wfield m.header 56 8 ≠ r.gen ∧ bitAt m.header 16 = false then dropFar m r.gen out
          else if 16 < r.far.length + m.words.length then s
          else
            out.modSlot t fun r =>
              { r with far := r.far ++ (m.words.zipIdx.map fun (w, i) => ⟨w, m.src, i == 0, m.roots⟩) })

/-- The k-th reply word on its way reaches its slot, is dropped and counted where the slot's generation has changed, or waits for room. -/
def execPortReplyArrival (k : Nat) (s : State) : Host.Outcome State Fault Refusal :=
  .next (match s.nt.replies[k]? with
    | none => s
    | some m =>
      if (s.nt.replies.take k).any fun x => decide (x.src = m.src ∧ x.dst = m.dst) then s
      else
        let out : State := { s with nt := { s.nt with replies := dropAt s.nt.replies k } }
        if revokedMsg s m.dst.slice.part m.w.roots then countDropped m.dst.core 1 out
        else match s.slot? m.dst with
        | none => countDropped m.dst.core 1 out
        | some r =>
          if r.gen ≠ m.gen then countDropped m.dst.core 1 out
          else if 8 ≤ r.replies.length then s
          else out.modSlot m.dst fun r => { r with replies := r.replies ++ [m.w] })

end Sys2Proof.Machine
end

