-- ==== Sys2Proof/Machine/Dispatch.lean ====
section
/-!
DEFINITION. Sys2Proof/Machine/Dispatch.lean: one arm per constructor of Instr, each one direct call of its meaning.
-/
namespace Sys2Proof.Machine

def exec (i : Instr) (s : State) : Host.Outcome State Fault Refusal :=
  match i with
  | .add h d a b wid sgn sat => Sys2Proof.Machine.execAdd h d a b wid sgn sat s
  | .sub h d a b wid sgn sat => Sys2Proof.Machine.execSub h d a b wid sgn sat s
  | .mul h d a b wid sgn sat hi => Sys2Proof.Machine.execMul h d a b wid sgn sat hi s
  | .div h gd d a b wid sgn => Sys2Proof.Machine.execDiv h gd d a b wid sgn s
  | .rem h gd d a b wid sgn => Sys2Proof.Machine.execRem h gd d a b wid sgn s
  | .and h d a b wid sgn => Sys2Proof.Machine.execAnd h d a b wid sgn s
  | .andn h d a b wid sgn => Sys2Proof.Machine.execAndn h d a b wid sgn s
  | .or h d a b wid sgn => Sys2Proof.Machine.execOr h d a b wid sgn s
  | .xor h d a b wid sgn => Sys2Proof.Machine.execXor h d a b wid sgn s
  | .shl h d a b wid sgn => Sys2Proof.Machine.execShl h d a b wid sgn s
  | .shr h d a b wid sgn => Sys2Proof.Machine.execShr h d a b wid sgn s
  | .rot h d a b wid => Sys2Proof.Machine.execRot h d a b wid s
  | .clz h d a wid => Sys2Proof.Machine.execClz h d a wid s
  | .ctz h d a wid => Sys2Proof.Machine.execCtz h d a wid s
  | .popc h d a wid => Sys2Proof.Machine.execPopc h d a wid s
  | .cmp h gd a b wid sgn cond => Sys2Proof.Machine.execCmp h gd a b wid sgn cond s
  | .min h d a b wid sgn => Sys2Proof.Machine.execMin h d a b wid sgn s
  | .max h d a b wid sgn => Sys2Proof.Machine.execMax h d a b wid sgn s
  | .sel h d a b sg inv => Sys2Proof.Machine.execSel h d a b sg inv s
  | .ext h d a b sgn => Sys2Proof.Machine.execExt h d a b sgn s
  | .ins h d a b => Sys2Proof.Machine.execIns h d a b s
  | .lea h d a b sh loc => Sys2Proof.Machine.execLea h d a b sh loc s
  | .mov h d s1 => Sys2Proof.Machine.execMov h d s1 s
  | .movi h d imm hi => Sys2Proof.Machine.execMovi h d imm hi s
  | .br h disp => Sys2Proof.Machine.execBr h disp s
  | .bri h t => Sys2Proof.Machine.execBri h t s
  | .call h t frame => Sys2Proof.Machine.execCall h t frame s
  | .ret h link f => Sys2Proof.Machine.execRet h link f s
  | .reti h => Sys2Proof.Machine.execReti h s
  | .rep h wc wi vbase vspanM1 vstep astep => Sys2Proof.Machine.execRep h wc wi vbase vspanM1 vstep astep s
  | .trap h info code => Sys2Proof.Machine.execTrap h info code s
  | .exit h => Sys2Proof.Machine.execExit h s
  | .yield h s1 dl => Sys2Proof.Machine.execYield h s1 dl s
  | .nop h => Sys2Proof.Machine.execNop h s
  | .gset h gd s1 => Sys2Proof.Machine.execGset h gd s1 s
  | .gmov h x => Sys2Proof.Machine.execGmov h x s
  | .glog h gd a b ia ib op => Sys2Proof.Machine.execGlog h gd a b ia ib op s
  | .csrr h d n => Sys2Proof.Machine.execCsrr h d n s
  | .csrw h s1 n => Sys2Proof.Machine.execCsrw h s1 n s
  | .wspsw h d s1 => Sys2Proof.Machine.execWspsw h d s1 s
  | .dbg h code => Sys2Proof.Machine.execDbg h code s
  | .waitev h gd d a e t => Sys2Proof.Machine.execWaitev h gd d a e t s
  | .ovft h t => Sys2Proof.Machine.execOvft h t s
  | .placew h i1 e => Sys2Proof.Machine.execPlacew h i1 e s
  | .abort h clr => Sys2Proof.Machine.execAbort h clr s
  | .abchk h gd => Sys2Proof.Machine.execAbchk h gd s
  | .fence h scope => Sys2Proof.Machine.execFence h scope s
  | .xfence h scope fr dest => Sys2Proof.Machine.execXfence h scope fr dest s
  | .fadd h d a b fmt => Sys2Proof.Machine.execFadd h d a b fmt s
  | .fsub h d a b fmt => Sys2Proof.Machine.execFsub h d a b fmt s
  | .fmul h d a b fmt => Sys2Proof.Machine.execFmul h d a b fmt s
  | .fdiv h d a b fmt => Sys2Proof.Machine.execFdiv h d a b fmt s
  | .fma h d a b c fmt => Sys2Proof.Machine.execFma h d a b c fmt s
  | .fsqrt h d a fmt => Sys2Proof.Machine.execFsqrt h d a fmt s
  | .fmin h d a b fmt => Sys2Proof.Machine.execFmin h d a b fmt s
  | .fmax h d a b fmt => Sys2Proof.Machine.execFmax h d a b fmt s
  | .fcmp h gd a b fmt cond => Sys2Proof.Machine.execFcmp h gd a b fmt cond s
  | .fclass h d a fmt => Sys2Proof.Machine.execFclass h d a fmt s
  | .fcvt h d a src dst => Sys2Proof.Machine.execFcvt h d a src dst s
  | .fsgn h d a b op fmt => Sys2Proof.Machine.execFsgn h d a b op fmt s
  | .qmake h d n m sgn => Sys2Proof.Machine.execQmake h d n m sgn s
  | .qnum h d a => Sys2Proof.Machine.execQnum h d a s
  | .qden h d a => Sys2Proof.Machine.execQden h d a s
  | .qcf h gd d1 d2 a => Sys2Proof.Machine.execQcf h gd d1 d2 a s
  | .ld h d b x ord scope sz sgn => Sys2Proof.Machine.execLd h d b x ord scope sz sgn s
  | .st h s1 b x ord scope sz => Sys2Proof.Machine.execSt h s1 b x ord scope sz s
  | .pf h b x => Sys2Proof.Machine.execPf h b x s
  | .lds h d b x ord scope sz sgn fe => Sys2Proof.Machine.execLds h d b x ord scope sz sgn fe s
  | .sts h s1 b x ord scope sz fe => Sys2Proof.Machine.execSts h s1 b x ord scope sz fe s
  | .feqry h d a n => Sys2Proof.Machine.execFeqry h d a n s
  | .feset h a mask val => Sys2Proof.Machine.execFeset h a mask val s
  | .atom h d a v ord scope op w32 sgn => Sys2Proof.Machine.execAtom h d a v ord scope op w32 sgn s
  | .cas h gd d a e n ord scope w32 => Sys2Proof.Machine.execCas h gd d a e n ord scope w32 s
  | .nalloc h gd d j => Sys2Proof.Machine.execNalloc h gd d j s
  | .nst h p d r a c size fmt => Sys2Proof.Machine.execNst h p d r a c size fmt s
  | .nld h d r t maxsz p cons ge => Sys2Proof.Machine.execNld h d r t maxsz p cons ge s
  | .nrel h gd r => Sys2Proof.Machine.execNrel h gd r s
  | .ndrop h gd r => Sys2Proof.Machine.execNdrop h gd r s
  | .nqry h d r => Sys2Proof.Machine.execNqry h d r s
  | .nred h d r a c size fmt => Sys2Proof.Machine.execNred h d r a c size fmt s
  | .nsub h d r cb c wb cons size fmt => Sys2Proof.Machine.execNsub h d r cb c wb cons size fmt s
  | .naband h gd r => Sys2Proof.Machine.execNaband h gd r s
  | .nconf h gd r => Sys2Proof.Machine.execNconf h gd r s
  | .nrevoke h gd r => Sys2Proof.Machine.execNrevoke h gd r s
  | .fork h gd pc arg j => Sys2Proof.Machine.execFork h gd pc arg j s
  | .join h gd d a => Sys2Proof.Machine.execJoin h gd d a s
  | .launch h gd d a vp => Sys2Proof.Machine.execLaunch h gd d a vp s
  | .hinit h d => Sys2Proof.Machine.execHinit h d s
  | .htest h gd d a => Sys2Proof.Machine.execHtest h gd d a s
  | .hwait h gd a => Sys2Proof.Machine.execHwait h gd a s
  | .hcancel h gd a => Sys2Proof.Machine.execHcancel h gd a s
  | .hresolve h gd a v flt => Sys2Proof.Machine.execHresolve h gd a v flt s
  | .hjoin h gd pc arg j h1 h2 => Sys2Proof.Machine.execHjoin h gd pc arg j h1 h2 s
  | .cpy h d dst src c cmask sk dk => Sys2Proof.Machine.execCpy h d dst src c cmask sk dk s
  | .cpyr h d dst src c sk dk m => Sys2Proof.Machine.execCpyr h d dst src c sk dk m s
  | .bar h n => Sys2Proof.Machine.execBar h n s
  | .barset h n s1 => Sys2Proof.Machine.execBarset h n s1 s
  | .boinit h a e => Sys2Proof.Machine.execBoinit h a e s
  | .boarr h a c => Sys2Proof.Machine.execBoarr h a c s
  | .bowait h gd a => Sys2Proof.Machine.execBowait h gd a s
  | .cbset h cb cfg => Sys2Proof.Machine.execCbset h cb cfg s
  | .adv h cb n prod => Sys2Proof.Machine.execAdv h cb n prod s
  | .vabs h d a m sgn sat => Sys2Proof.Machine.execVabs h d a m sgn sat s
  | .vadd h d a b m sgn sat => Sys2Proof.Machine.execVadd h d a b m sgn sat s
  | .vand h d a b m => Sys2Proof.Machine.execVand h d a b m s
  | .vbcast h d s1 m fmt => Sys2Proof.Machine.execVbcast h d s1 m fmt s
  | .vcmp h d a b m sgn cond => Sys2Proof.Machine.execVcmp h d a b m sgn cond s
  | .vexp h d a m => Sys2Proof.Machine.execVexp h d a m s
  | .vfma h d a b c m sgn sat => Sys2Proof.Machine.execVfma h d a b c m sgn sat s
  | .vlog h d a m => Sys2Proof.Machine.execVlog h d a m s
  | .vmax h d a b m sgn => Sys2Proof.Machine.execVmax h d a b m sgn s
  | .vmaxr h d a m sgn => Sys2Proof.Machine.execVmaxr h d a m sgn s
  | .vmin h d a b m sgn => Sys2Proof.Machine.execVmin h d a b m sgn s
  | .vmul h d a b m sgn sat => Sys2Proof.Machine.execVmul h d a b m sgn sat s
  | .vneg h d a m sgn sat => Sys2Proof.Machine.execVneg h d a m sgn sat s
  | .vor h d a b m => Sys2Proof.Machine.execVor h d a b m s
  | .vperm h d a i1 m => Sys2Proof.Machine.execVperm h d a i1 m s
  | .vrcp h d a m => Sys2Proof.Machine.execVrcp h d a m s
  | .vrsq h d a m => Sys2Proof.Machine.execVrsq h d a m s
  | .vsel h d a b sm => Sys2Proof.Machine.execVsel h d a b sm s
  | .vshl h d a b m sgn => Sys2Proof.Machine.execVshl h d a b m sgn s
  | .vshr h d a b m sgn => Sys2Proof.Machine.execVshr h d a b m sgn s
  | .vsub h d a b m sgn sat => Sys2Proof.Machine.execVsub h d a b m sgn sat s
  | .vsum h d a m sgn => Sys2Proof.Machine.execVsum h d a m sgn s
  | .vxor h d a b m => Sys2Proof.Machine.execVxor h d a b m s
  | .vld h d rec pos m nregM1 => Sys2Proof.Machine.execVld h d rec pos m nregM1 s
  | .vst h d rec pos m nregM1 => Sys2Proof.Machine.execVst h d rec pos m nregM1 s
  | .vldContiguous h d b x m fmt pl => Sys2Proof.Machine.execVldContiguous h d b x m fmt pl s
  | .vstContiguous h d b x m pl => Sys2Proof.Machine.execVstContiguous h d b x m pl s
  | .vgath h d i1 rec m => Sys2Proof.Machine.execVgath h d i1 rec m s
  | .vscat h d i1 rec m => Sys2Proof.Machine.execVscat h d i1 rec m s
  | .vcvt h d a s1 m sgn fmt seg => Sys2Proof.Machine.execVcvt h d a s1 m sgn fmt seg s
  | .vcb h a => Sys2Proof.Machine.execVcb h a s
  | .mma h acc s1 k au bu => Sys2Proof.Machine.execMma h acc s1 k au bu s
  | .mzero h acc int => Sys2Proof.Machine.execMzero h acc int s
  | .mrd h x peek => Sys2Proof.Machine.execMrd h x peek s
  | .mst h a acc => Sys2Proof.Machine.execMst h a acc s
  | .mld h acc a int => Sys2Proof.Machine.execMld h acc a int s
  | .mcvt h a acc s1 fmt sgn => Sys2Proof.Machine.execMcvt h a acc s1 fmt sgn s
  | .mcb h a side => Sys2Proof.Machine.execMcb h a side s
  | .kvmap h gd d a p => Sys2Proof.Machine.execKvmap h gd d a p s
  | .kvext h gd d a n => Sys2Proof.Machine.execKvext h gd d a n s
  | .kvtrunc h gd d a n => Sys2Proof.Machine.execKvtrunc h gd d a n s
  | .kvmatch h gd d a b n => Sys2Proof.Machine.execKvmatch h gd d a b n s
  | .pxlook h gd d hash p t n => Sys2Proof.Machine.execPxlook h gd d hash p t n s
  | .pxins h gd d r => Sys2Proof.Machine.execPxins h gd d r s
  | .plan h d b o c => Sys2Proof.Machine.execPlan h d b o c s
  | .smxm h d a b => Sys2Proof.Machine.execSmxm h d a b s
  | .smxf h gd d s1 => Sys2Proof.Machine.execSmxf h gd d s1 s
  | .rng h d c k u => Sys2Proof.Machine.execRng h d c k u s
  | .cdend => Sys2Proof.Machine.execCdend s
  | .cdmov d a => Sys2Proof.Machine.execCdmov d a s
  | .cdli d i1 => Sys2Proof.Machine.execCdli d i1 s
  | .cdlde d n => Sys2Proof.Machine.execCdlde d n s
  | .cdlds d obj a => Sys2Proof.Machine.execCdlds d obj a s
  | .cdsts obj a b => Sys2Proof.Machine.execCdsts obj a b s
  | .cdadd d a b => Sys2Proof.Machine.execCdadd d a b s
  | .cdaddImm d a i1 => Sys2Proof.Machine.execCdaddImm d a i1 s
  | .cdsub d a b => Sys2Proof.Machine.execCdsub d a b s
  | .cdsubImm d a i1 => Sys2Proof.Machine.execCdsubImm d a i1 s
  | .cdand d a b => Sys2Proof.Machine.execCdand d a b s
  | .cdandImm d a i1 => Sys2Proof.Machine.execCdandImm d a i1 s
  | .cdor d a b => Sys2Proof.Machine.execCdor d a b s
  | .cdorImm d a i1 => Sys2Proof.Machine.execCdorImm d a i1 s
  | .cdxor d a b => Sys2Proof.Machine.execCdxor d a b s
  | .cdxorImm d a i1 => Sys2Proof.Machine.execCdxorImm d a i1 s
  | .cdshl d a b => Sys2Proof.Machine.execCdshl d a b s
  | .cdshlImm d a i1 => Sys2Proof.Machine.execCdshlImm d a i1 s
  | .cdshr d a b => Sys2Proof.Machine.execCdshr d a b s
  | .cdshrImm d a i1 => Sys2Proof.Machine.execCdshrImm d a i1 s
  | .cdmin d a b => Sys2Proof.Machine.execCdmin d a b s
  | .cdminImm d a i1 => Sys2Proof.Machine.execCdminImm d a i1 s
  | .cdmax d a b => Sys2Proof.Machine.execCdmax d a b s
  | .cdmaxImm d a i1 => Sys2Proof.Machine.execCdmaxImm d a i1 s
  | .cdhash d a b => Sys2Proof.Machine.execCdhash d a b s
  | .cdhashImm d a i1 => Sys2Proof.Machine.execCdhashImm d a i1 s
  | .cdbf cond a b off => Sys2Proof.Machine.execCdbf cond a b off s
  | .cdhist obj a => Sys2Proof.Machine.execCdhist obj a s
  | .cdcms d obj a => Sys2Proof.Machine.execCdcms d obj a s
  | .cdhll obj a => Sys2Proof.Machine.execCdhll obj a s
  | .cdemit obj a b => Sys2Proof.Machine.execCdemit obj a b s
  | .cdtrig obj a => Sys2Proof.Machine.execCdtrig obj a s
  | .cddrop => Sys2Proof.Machine.execCddrop s
  | .doorbell pkg vf q tail => Sys2Proof.Machine.execDoorbell pkg vf q tail s
  | .launchRecord q vf n => Sys2Proof.Machine.execLaunchRecord q vf n s
  | .admissionEvaluation p => Sys2Proof.Machine.execAdmissionEvaluation p s
  | .accumulatorSave s1 c a => Sys2Proof.Machine.execAccumulatorSave s1 c a s
  | .accumulatorLoad s1 c a => Sys2Proof.Machine.execAccumulatorLoad s1 c a s
  | .sliceCompletion s1 => Sys2Proof.Machine.execSliceCompletion s1 s
  | .kill s1 => Sys2Proof.Machine.execKill s1 s
  | .budgetExtension s1 n => Sys2Proof.Machine.execBudgetExtension s1 n s
  | .requeue s1 deadline n => Sys2Proof.Machine.execRequeue s1 deadline n s
  | .allotmentDraw s1 c => Sys2Proof.Machine.execAllotmentDraw s1 c s
  | .allotmentRecall s1 => Sys2Proof.Machine.execAllotmentRecall s1 s
  | .budgetExhausted s1 => Sys2Proof.Machine.execBudgetExhausted s1 s
  | .deadlineMissed s1 => Sys2Proof.Machine.execDeadlineMissed s1 s
  | .sliceYieldMessage k => Sys2Proof.Machine.execSliceYieldMessage k s
  | .idleSlotPop t => Sys2Proof.Machine.execIdleSlotPop t s
  | .stealRequest t => Sys2Proof.Machine.execStealRequest t s
  | .stealReply t => Sys2Proof.Machine.execStealReply t s
  | .stealRetry t => Sys2Proof.Machine.execStealRetry t s
  | .futureWake k => Sys2Proof.Machine.execFutureWake k s
  | .registrationPoll k => Sys2Proof.Machine.execRegistrationPoll k s
  | .waitingContinuationPush c => Sys2Proof.Machine.execWaitingContinuationPush c s
  | .taskEndByFault t => Sys2Proof.Machine.execTaskEndByFault t s
  | .fetchRefetch t => Sys2Proof.Machine.execFetchRefetch t s
  | .gcdOpComplete c k => Sys2Proof.Machine.execGcdOpComplete c k s
  | .dividerOpComplete c k => Sys2Proof.Machine.execDividerOpComplete c k s
  | .matrixOpExecute c => Sys2Proof.Machine.execMatrixOpExecute c s
  | .bobbinLineMove t line mv => Sys2Proof.Machine.execBobbinLineMove t line mv s
  | .flyerChunk c k => Sys2Proof.Machine.execFlyerChunk c k s
  | .cpyrMerge k => Sys2Proof.Machine.execCpyrMerge k s
  | .boarrArrival k => Sys2Proof.Machine.execBoarrArrival k s
  | .powerGateEntry c => Sys2Proof.Machine.execPowerGateEntry c s
  | .powerGateWake c => Sys2Proof.Machine.execPowerGateWake c s
  | .boostClockDown p => Sys2Proof.Machine.execBoostClockDown p s
  | .boostClockRestore p => Sys2Proof.Machine.execBoostClockRestore p s
  | .nstArrival k => Sys2Proof.Machine.execNstArrival k s
  | .nstAcknowledge k => Sys2Proof.Machine.execNstAcknowledge k s
  | .refusedStoreRetry k => Sys2Proof.Machine.execRefusedStoreRetry k s
  | .nldRequest k => Sys2Proof.Machine.execNldRequest k s
  | .retryResend k => Sys2Proof.Machine.execRetryResend k s
  | .arrivalNotice k => Sys2Proof.Machine.execArrivalNotice k s
  | .nredContributionArrival k => Sys2Proof.Machine.execNredContributionArrival k s
  | .rootDecisionArrival k => Sys2Proof.Machine.execRootDecisionArrival k s
  | .withdrawal t => Sys2Proof.Machine.execWithdrawal t s
  | .reelSlotFill k => Sys2Proof.Machine.execReelSlotFill k s
  | .reelWritebackDrain k => Sys2Proof.Machine.execReelWritebackDrain k s
  | .nldSlotArrival k => Sys2Proof.Machine.execNldSlotArrival k s
  | .scopeMiss k => Sys2Proof.Machine.execScopeMiss k s
  | .promotedReply k => Sys2Proof.Machine.execPromotedReply k s
  | .remoteBankAccess k => Sys2Proof.Machine.execRemoteBankAccess k s
  | .neighbourWordArrival k => Sys2Proof.Machine.execNeighbourWordArrival k s
  | .farMessageDelivery k => Sys2Proof.Machine.execFarMessageDelivery k s
  | .portReplyArrival k => Sys2Proof.Machine.execPortReplyArrival k s
  | .barrierArrivalForward s1 c n => Sys2Proof.Machine.execBarrierArrivalForward s1 c n s
  | .barrierRelease s1 c n => Sys2Proof.Machine.execBarrierRelease s1 c n s
  | .planExecute k => Sys2Proof.Machine.execPlanExecute k s
  | .waitevWake t => Sys2Proof.Machine.execWaitevWake t s
  | .waitevTimeout t => Sys2Proof.Machine.execWaitevTimeout t s
  | .pageWalk q k => Sys2Proof.Machine.execPageWalk q k s
  | .missTableRetry t => Sys2Proof.Machine.execMissTableRetry t s
  | .regionCacheFill q k => Sys2Proof.Machine.execRegionCacheFill q k s
  | .uncorrectableError e => Sys2Proof.Machine.execUncorrectableError e s
  | .carderEvent d k => Sys2Proof.Machine.execCarderEvent d k s
  | .carderWindowStart d => Sys2Proof.Machine.execCarderWindowStart d s
  | .stateChangeRecord c => Sys2Proof.Machine.execStateChangeRecord c s
  | .stateLogEscape c => Sys2Proof.Machine.execStateLogEscape c s
  | .filterSlotLoad d slot desc words => Sys2Proof.Machine.execFilterSlotLoad d slot desc words s
  | .filterSlotDetach d slot desc => Sys2Proof.Machine.execFilterSlotDetach d slot desc s
  | .objectClear d obj => Sys2Proof.Machine.execObjectClear d obj s
  | .debugStop c => Sys2Proof.Machine.execDebugStop c s
  | .debugResume c => Sys2Proof.Machine.execDebugResume c s
  | .debugStep c core slot => Sys2Proof.Machine.execDebugStep c core slot s
  | .watchdogSoftRestart q => Sys2Proof.Machine.execWatchdogSoftRestart q s
  | .watchdogFirmwareReload q => Sys2Proof.Machine.execWatchdogFirmwareReload q s
  | .watchdogPartitionReset q => Sys2Proof.Machine.execWatchdogPartitionReset q s
  | .watchdogDieReset q => Sys2Proof.Machine.execWatchdogDieReset q s
  | .watchdogPackageReset q mcoreFailed => Sys2Proof.Machine.execWatchdogPackageReset q mcoreFailed s
  | .stalled s1 => Sys2Proof.Machine.execStalled s1 s
  | .wdkick q => Sys2Proof.Machine.execWdkick q s
  | .fwsubmit q p addr => Sys2Proof.Machine.execFwsubmit q p addr s
  | .cpevthead q v => Sys2Proof.Machine.execCpevthead q v s
  | .heldEventAppend q => Sys2Proof.Machine.execHeldEventAppend q s
  | .swapreq q addr => Sys2Proof.Machine.execSwapreq q addr s
  | .swapVerifyDone q pass => Sys2Proof.Machine.execSwapVerifyDone q pass s
  | .mode p v => Sys2Proof.Machine.execMode p v s
  | .dctl p v => Sys2Proof.Machine.execDctl p v s
  | .ovdef p v => Sys2Proof.Machine.execOvdef p v s
  | .vquota p v => Sys2Proof.Machine.execVquota p v s
  | .nregion p v => Sys2Proof.Machine.execNregion p v s
  | .tlbInvalidate p v => Sys2Proof.Machine.execTlbInvalidate p v s
  | .tlbInvalidateComplete p => Sys2Proof.Machine.execTlbInvalidateComplete p s
  | .arena p d v => Sys2Proof.Machine.execArena p d v s
  | .wpool p n v => Sys2Proof.Machine.execWpool p n v s
  | .pxctl p v => Sys2Proof.Machine.execPxctl p v s
  | .nrmbase p v => Sys2Proof.Machine.execNrmbase p v s
  | .regrel p v => Sys2Proof.Machine.execRegrel p v s
  | .reset p v => Sys2Proof.Machine.execReset p v s
  | .partitionResetComplete p => Sys2Proof.Machine.execPartitionResetComplete p s
  | .gown pkg g v => Sys2Proof.Machine.execGown pkg g v s
  | .mctail d v => Sys2Proof.Machine.execMctail d v s
  | .registerWrite r v => Sys2Proof.Machine.execRegisterWrite r v s
  | .dieReset d => Sys2Proof.Machine.execDieReset d s
  | .packageReset pkg => Sys2Proof.Machine.execPackageReset pkg s
  | .throttleStart pkg => Sys2Proof.Machine.execThrottleStart pkg s
  | .throttleEnd pkg => Sys2Proof.Machine.execThrottleEnd pkg s
  | .overtempShutdown pkg => Sys2Proof.Machine.execOvertempShutdown pkg s
  | .flitCrcRetry d boundary => Sys2Proof.Machine.execFlitCrcRetry d boundary s
  | .corramFlitRetry d link => Sys2Proof.Machine.execCorramFlitRetry d link s
  | .linkRetrain d link ok => Sys2Proof.Machine.execLinkRetrain d link ok s
  | .storeQueueWrite c k => Sys2Proof.Machine.execStoreQueueWrite c k s
  | .homeRequest k => Sys2Proof.Machine.execHomeRequest k s
  | .homeAnswer k => Sys2Proof.Machine.execHomeAnswer k s
  | .hostDma q op => Sys2Proof.Machine.execHostDma q op s
  | .regionReleaseComplete p => Sys2Proof.Machine.execRegionReleaseComplete p s
  | .roothome p v => Sys2Proof.Machine.execRoothome p v s
  | .partitionCreateDestroy p units => Sys2Proof.Machine.execPartitionCreateDestroy p units s
  | .ucieRetrain d boundary => Sys2Proof.Machine.execUcieRetrain d boundary s

end Sys2Proof.Machine
end

