-- ==== Sys2Proof/Machine/Pair.lean ====
section
/-!
DEFINITION. Sys2Proof/Machine/Pair.lean: which two instructions issue in one turn (R72, R225): what each reads and writes, and its unit.
-/
namespace Sys2Proof.Machine

/-- Registers, handles, masks and guards that an instruction writes and reads. -/
structure Uses where
  writes : List Opnd
  reads : List Opnd
  guardsOut : List Nat
  guardsIn : List Nat
deriving DecidableEq, Repr

def srcUse : Src → List Opnd
  | .op o => [o]
  | .imm16 _ => []
  | .imm32 _ => []

def maskUse (m : VMask) : List Opnd := if m.on then [.m m.reg] else []

/-- n vector registers from v. -/
def vregs (v : VReg) (n : Nat) : List Opnd := (List.range n).map fun i => .v (v + Fin.ofNat 32 i)

/-- Adds the guards that the common fields name; g0 is a constant. -/
def useOf (h : Hdr) (writes reads : List Opnd) (out inn : List Nat) : Uses :=
  ⟨writes, reads, out.filter (· ≠ 0), (inn ++ [h.ga.toNat % 8, h.gb.toNat % 8]).filter (· ≠ 0)⟩

end Sys2Proof.Machine
namespace Sys2Proof
open Sys2Proof.Machine

/-- What an instruction that may pair reads and writes; none for classes 1, 2 and 8, the Carder's words and device steps. -/
def Instr.uses? : Instr → Option Uses
  | .add h d a b _ _ _ => some (useOf h ([d]) ([a] ++ srcUse b) [] [])
  | .sub h d a b _ _ _ => some (useOf h ([d]) ([a] ++ srcUse b) [] [])
  | .mul h d a b _ _ _ _ => some (useOf h ([d]) ([a] ++ srcUse b) [] [])
  | .div h gd d a b _ _ => some (useOf h ([.w d]) ([a] ++ srcUse b) [gd.toNat] [])
  | .rem h gd d a b _ _ => some (useOf h ([.w d]) ([a] ++ srcUse b) [gd.toNat] [])
  | .and h d a b _ _ => some (useOf h ([d]) ([a] ++ srcUse b) [] [])
  | .andn h d a b _ _ => some (useOf h ([d]) ([a] ++ srcUse b) [] [])
  | .or h d a b _ _ => some (useOf h ([d]) ([a] ++ srcUse b) [] [])
  | .xor h d a b _ _ => some (useOf h ([d]) ([a] ++ srcUse b) [] [])
  | .shl h d a b _ _ => some (useOf h ([d]) ([a] ++ srcUse b) [] [])
  | .shr h d a b _ _ => some (useOf h ([d]) ([a] ++ srcUse b) [] [])
  | .rot h d a b _ => some (useOf h ([d]) ([a] ++ srcUse b) [] [])
  | .clz h d a _ => some (useOf h ([d]) ([a]) [] [])
  | .ctz h d a _ => some (useOf h ([d]) ([a]) [] [])
  | .popc h d a _ => some (useOf h ([d]) ([a]) [] [])
  | .cmp h gd a b _ _ _ => some (useOf h ([]) ([a] ++ srcUse b) [gd.toNat] [])
  | .min h d a b _ _ => some (useOf h ([d]) ([a] ++ srcUse b) [] [])
  | .max h d a b _ _ => some (useOf h ([d]) ([a] ++ srcUse b) [] [])
  | .sel h d a b sg _ => some (useOf h ([d]) ([a] ++ srcUse b) [] [sg.toNat])
  | .ext h d a b _ => some (useOf h ([.w d]) ([a] ++ srcUse b) [] [])
  | .ins h d a b => some (useOf h ([.w d]) ([a, .w d] ++ srcUse b) [] [])
  | .lea h d a b _ _ => some (useOf h ([d]) ([a] ++ srcUse b) [] [])
  | .mov h d s1 => some (useOf h ([d]) ([s1]) [] [])
  | .movi h d _ _ => some (useOf h ([.w d]) ([]) [] [])
  | .br _ _ => none
  | .bri _ _ => none
  | .call _ _ _ => none
  | .ret _ _ _ => none
  | .reti _ => none
  | .rep _ _ _ _ _ _ _ => none
  | .trap _ _ _ => none
  | .exit _ => none
  | .yield _ _ _ => none
  | .nop _ => none
  | .gset _ _ _ => none
  | .gmov _ _ => none
  | .glog _ _ _ _ _ _ _ => none
  | .csrr _ _ _ => none
  | .csrw _ _ _ => none
  | .wspsw _ _ _ => none
  | .dbg _ _ => none
  | .waitev _ _ _ _ _ _ => none
  | .ovft _ _ => none
  | .placew _ _ _ => none
  | .abort _ _ => none
  | .abchk _ _ => none
  | .fence _ _ => none
  | .xfence _ _ _ _ => none
  | .fadd h d a b _ => some (useOf h ([.w d]) ([a, b]) [] [])
  | .fsub h d a b _ => some (useOf h ([.w d]) ([a, b]) [] [])
  | .fmul h d a b _ => some (useOf h ([.w d]) ([a, b]) [] [])
  | .fdiv h d a b _ => some (useOf h ([.w d]) ([a, b]) [] [])
  | .fma h d a b c _ => some (useOf h ([.w d]) ([a, b, c]) [] [])
  | .fsqrt h d a _ => some (useOf h ([.w d]) ([a]) [] [])
  | .fmin h d a b _ => some (useOf h ([.w d]) ([a, b]) [] [])
  | .fmax h d a b _ => some (useOf h ([.w d]) ([a, b]) [] [])
  | .fcmp h gd a b _ _ => some (useOf h ([]) ([a, b]) [gd.toNat] [])
  | .fclass h d a _ => some (useOf h ([.w d]) ([a]) [] [])
  | .fcvt h d a _ _ => some (useOf h ([.w d]) ([a]) [] [])
  | .fsgn h d a b _ _ => some (useOf h ([.w d]) ([a, b]) [] [])
  | .qmake h d n m _ => some (useOf h ([.w d]) ([n, m]) [] [])
  | .qnum h d a => some (useOf h ([.w d]) ([a]) [] [])
  | .qden h d a => some (useOf h ([.w d]) ([a]) [] [])
  | .qcf h gd d1 d2 a => some (useOf h ([.w d1, .w d2]) ([a]) [gd.toNat] [])
  | .ld h d b x _ _ _ _ => some (useOf h ([.w d]) ([b] ++ srcUse x) [] [])
  | .st h s1 b x _ _ _ => some (useOf h ([]) ([s1, b] ++ srcUse x) [] [])
  | .pf h b x => some (useOf h ([]) ([b] ++ srcUse x) [] [])
  | .lds h d b x _ _ _ _ _ => some (useOf h ([.w d]) ([b] ++ srcUse x) [] [])
  | .sts h s1 b x _ _ _ _ => some (useOf h ([]) ([s1, b] ++ srcUse x) [] [])
  | .feqry h d a _ => some (useOf h ([.w d]) ([.w a]) [] [])
  | .feset h a mask _ => some (useOf h ([]) ([.w a, .w mask]) [] [])
  | .atom h d a v _ _ _ _ _ => some (useOf h ([.w d]) ([.w a, v]) [] [])
  | .cas h gd d a e n _ _ _ => some (useOf h ([.w d]) ([.w a, e, n]) [gd.toNat] [])
  | .nalloc h gd d j => some (useOf h ([.w d]) (srcUse j) [gd.toNat] [])
  | .nst h p d r a c _ _ => some (useOf h ((if p then [Opnd.w d] else [])) ([.w r, a] ++ srcUse c) [] [])
  | .nld h d r t _ _ _ _ => some (useOf h ([.w d] ++ (match t with | .v n => [Opnd.v n] | .cb n => [Opnd.cb n] | .loc _ => [])) ([.w r] ++ (match t with | .loc n => [Opnd.w n] | _ => [])) [] [])
  | .nrel h gd r => some (useOf h ([]) ([.w r]) [gd.toNat] [])
  | .ndrop h gd r => some (useOf h ([]) ([.w r]) [gd.toNat] [])
  | .nqry h d r => some (useOf h ([.w d]) ([.w r]) [] [])
  | .nred h d r a c _ _ => some (useOf h ([.w d]) ([.w r, a, .w c, .w d]) [] [])
  | .nsub h d r cb c _ _ _ _ => some (useOf h ([.w d, .cb cb]) ([.w r, .w c, .w d]) [] [])
  | .naband h gd r => some (useOf h ([]) ([.w r]) [gd.toNat] [])
  | .nconf h gd r => some (useOf h ([]) ([.w r]) [gd.toNat] [])
  | .nrevoke h gd r => some (useOf h ([]) ([.w r]) [gd.toNat] [])
  | .fork _ _ _ _ _ => none
  | .join _ _ _ _ => none
  | .launch _ _ _ _ _ => none
  | .hinit _ _ => none
  | .htest _ _ _ _ => none
  | .hwait _ _ _ => none
  | .hcancel _ _ _ => none
  | .hresolve _ _ _ _ _ => none
  | .hjoin _ _ _ _ _ _ _ => none
  | .cpy h d dst src c _ _ _ => some (useOf h ([.w d]) ([.w dst, .w src, .w c, .w d]) [] [])
  | .cpyr h d dst src c _ _ _ => some (useOf h ([.w d]) ([.w dst, .w src, .w c, .w d]) [] [])
  | .bar h _ => some (useOf h ([]) ([]) [] [])
  | .barset h _ s1 => some (useOf h ([]) (s1.toList.map Opnd.w) [] [])
  | .boinit h a e => some (useOf h ([]) ([.w a] ++ e.toList) [] [])
  | .boarr h a c => some (useOf h ([]) ([.w a] ++ srcUse c) [] [])
  | .bowait h gd a => some (useOf h ([]) ([.w a]) [gd.toNat] [])
  | .cbset h cb cfg => some (useOf h ([.cb cb]) ((cfg.map fun e => Opnd.w e.1).toList) [] [])
  | .adv h cb n _ => some (useOf h ([.cb cb]) ([.cb cb] ++ srcUse n) [] [])
  | .vabs h d a m _ _ => some (useOf h ([.v d]) ([a] ++ maskUse m) [] [])
  | .vadd h d a b m _ _ => some (useOf h ([.v d]) ([a] ++ srcUse b ++ maskUse m) [] [])
  | .vand h d a b m => some (useOf h ([.v d]) ([a] ++ srcUse b ++ maskUse m) [] [])
  | .vbcast h d s1 m _ => some (useOf h ([.v d]) (srcUse s1 ++ maskUse m) [] [])
  | .vcmp h d a b m _ _ => some (useOf h ([.m d]) ([a] ++ srcUse b ++ maskUse m) [] [])
  | .vexp h d a m => some (useOf h ([.v d]) ([a] ++ maskUse m) [] [])
  | .vfma h d a b c m _ _ => some (useOf h ([.v d]) ([a, b, c] ++ maskUse m) [] [])
  | .vlog h d a m => some (useOf h ([.v d]) ([a] ++ maskUse m) [] [])
  | .vmax h d a b m _ => some (useOf h ([.v d]) ([a] ++ srcUse b ++ maskUse m) [] [])
  | .vmaxr h d a m _ => some (useOf h ([.w d]) ([.v a] ++ maskUse m) [] [])
  | .vmin h d a b m _ => some (useOf h ([.v d]) ([a] ++ srcUse b ++ maskUse m) [] [])
  | .vmul h d a b m _ _ => some (useOf h ([.v d]) ([a] ++ srcUse b ++ maskUse m) [] [])
  | .vneg h d a m _ _ => some (useOf h ([.v d]) ([a] ++ maskUse m) [] [])
  | .vor h d a b m => some (useOf h ([.v d]) ([a] ++ srcUse b ++ maskUse m) [] [])
  | .vperm h d a i m => some (useOf h ([.v d]) ([a, i] ++ maskUse m) [] [])
  | .vrcp h d a m => some (useOf h ([.v d]) ([a] ++ maskUse m) [] [])
  | .vrsq h d a m => some (useOf h ([.v d]) ([a] ++ maskUse m) [] [])
  | .vsel h d a b sm => some (useOf h ([.v d]) ([a, b, .m sm]) [] [])
  | .vshl h d a b m _ => some (useOf h ([.v d]) ([a] ++ srcUse b ++ maskUse m) [] [])
  | .vshr h d a b m _ => some (useOf h ([.v d]) ([a] ++ srcUse b ++ maskUse m) [] [])
  | .vsub h d a b m _ _ => some (useOf h ([.v d]) ([a] ++ srcUse b ++ maskUse m) [] [])
  | .vsum h d a m _ => some (useOf h ([.w d]) ([.v a] ++ maskUse m) [] [])
  | .vxor h d a b m => some (useOf h ([.v d]) ([a] ++ srcUse b ++ maskUse m) [] [])
  | .vld h d rec pos m nregM1 => some (useOf h (vregs d (nregM1.toNat + 1)) ([.w rec, .w pos] ++ maskUse m) [] [])
  | .vst h d rec pos m nregM1 => some (useOf h ([]) ([.w rec, .w pos] ++ maskUse m ++ vregs d (nregM1.toNat + 1)) [] [])
  | .vldContiguous h d b x m _ _ => some (useOf h ([.v d]) ([b] ++ srcUse x ++ maskUse m) [] [])
  | .vstContiguous h d b x m _ => some (useOf h ([]) ([.v d, b] ++ srcUse x ++ maskUse m) [] [])
  | .vgath h d i rec m => some (useOf h ([.v d]) ([.v i, .w rec] ++ maskUse m) [] [])
  | .vscat h d i rec m => some (useOf h ([]) ([.v d, .v i, .w rec] ++ maskUse m) [] [])
  | .vcvt h d a s1 m _ _ _ => some (useOf h ([.v d]) ([.v a, s1] ++ maskUse m) [] [])
  | .vcb h a => some (useOf h ([]) ([.w a]) [] [])
  | .mma h acc s1 _ _ _ => some (useOf h ([.acc acc] ++ (match s1 with | .shape _ _ => [] | .cbs a b _ _ => [Opnd.cb a, Opnd.cb b])) ([.acc acc] ++ (match s1 with | .shape a b => [Opnd.w a, Opnd.w b] | .cbs a b _ _ => [Opnd.cb a, Opnd.cb b])) [] [])
  | .mzero h acc _ => some (useOf h ([.acc acc]) ([]) [] [])
  | .mrd h x _ => some (useOf h ((match x with | .reg d _ _ => [Opnd.v d] | .mem _ _ => [])) ((match x with | .reg _ acc n => [Opnd.acc acc, Opnd.w n] | .mem n acc => [Opnd.acc acc, Opnd.w n])) [] [])
  | .mst h a acc => some (useOf h ([]) ([.w a, .acc acc]) [] [])
  | .mld h acc a _ => some (useOf h ([.acc acc]) ([.w a]) [] [])
  | .mcvt h a acc s1 _ _ => some (useOf h ([]) ([.w a, .acc acc, .w s1]) [] [])
  | .mcb h a _ => some (useOf h ([]) ([.w a]) [] [])
  | .kvmap h gd d a p => some (useOf h ([.w d]) ([a, p]) [gd.toNat] [])
  | .kvext h gd d a n => some (useOf h ([.w d]) ([a, n]) [gd.toNat] [])
  | .kvtrunc h gd d a n => some (useOf h ([.w d]) ([a, n]) [gd.toNat] [])
  | .kvmatch h gd d a b n => some (useOf h ([.w d]) ([a, b, n]) [gd.toNat] [])
  | .pxlook h gd d hash p t n => some (useOf h ([Opnd.w d, Opnd.w (d + 1)]) ([hash, p, t, n]) [gd.toNat] [])
  | .pxins h gd d r => some (useOf h ([.w d]) ([r]) [gd.toNat] [])
  | .plan h d b o c => some (useOf h ([.w d]) ([.w b, .w o, .w c, .w d]) [] [])
  | .smxm h d a b => some (useOf h (vregs d 2) (vregs a 2 ++ vregs b 2) [] [])
  | .smxf h gd d s1 => some (useOf h ([.v d]) (vregs s1 2) [gd.toNat] [])
  | .rng h d c k _ => some (useOf h ([.v d, .w c]) ([.w c, .w k]) [] [])
  | .cdend => none
  | .cdmov _ _ => none
  | .cdli _ _ => none
  | .cdlde _ _ => none
  | .cdlds _ _ _ => none
  | .cdsts _ _ _ => none
  | .cdadd _ _ _ => none
  | .cdaddImm _ _ _ => none
  | .cdsub _ _ _ => none
  | .cdsubImm _ _ _ => none
  | .cdand _ _ _ => none
  | .cdandImm _ _ _ => none
  | .cdor _ _ _ => none
  | .cdorImm _ _ _ => none
  | .cdxor _ _ _ => none
  | .cdxorImm _ _ _ => none
  | .cdshl _ _ _ => none
  | .cdshlImm _ _ _ => none
  | .cdshr _ _ _ => none
  | .cdshrImm _ _ _ => none
  | .cdmin _ _ _ => none
  | .cdminImm _ _ _ => none
  | .cdmax _ _ _ => none
  | .cdmaxImm _ _ _ => none
  | .cdhash _ _ _ => none
  | .cdhashImm _ _ _ => none
  | .cdbf _ _ _ _ => none
  | .cdhist _ _ => none
  | .cdcms _ _ _ => none
  | .cdhll _ _ => none
  | .cdemit _ _ _ => none
  | .cdtrig _ _ => none
  | .cddrop => none
  | .doorbell _ _ _ _ => none
  | .launchRecord _ _ _ => none
  | .admissionEvaluation _ => none
  | .accumulatorSave _ _ _ => none
  | .accumulatorLoad _ _ _ => none
  | .sliceCompletion _ => none
  | .kill _ => none
  | .budgetExtension _ _ => none
  | .requeue _ _ _ => none
  | .allotmentDraw _ _ => none
  | .allotmentRecall _ => none
  | .budgetExhausted _ => none
  | .deadlineMissed _ => none
  | .sliceYieldMessage _ => none
  | .idleSlotPop _ => none
  | .stealRequest _ => none
  | .stealReply _ => none
  | .stealRetry _ => none
  | .futureWake _ => none
  | .registrationPoll _ => none
  | .waitingContinuationPush _ => none
  | .taskEndByFault _ => none
  | .fetchRefetch _ => none
  | .gcdOpComplete _ _ => none
  | .dividerOpComplete _ _ => none
  | .matrixOpExecute _ => none
  | .bobbinLineMove _ _ _ => none
  | .flyerChunk _ _ => none
  | .cpyrMerge _ => none
  | .boarrArrival _ => none
  | .powerGateEntry _ => none
  | .powerGateWake _ => none
  | .boostClockDown _ => none
  | .boostClockRestore _ => none
  | .nstArrival _ => none
  | .nstAcknowledge _ => none
  | .refusedStoreRetry _ => none
  | .nldRequest _ => none
  | .retryResend _ => none
  | .arrivalNotice _ => none
  | .nredContributionArrival _ => none
  | .rootDecisionArrival _ => none
  | .withdrawal _ => none
  | .reelSlotFill _ => none
  | .reelWritebackDrain _ => none
  | .nldSlotArrival _ => none
  | .scopeMiss _ => none
  | .promotedReply _ => none
  | .remoteBankAccess _ => none
  | .neighbourWordArrival _ => none
  | .farMessageDelivery _ => none
  | .portReplyArrival _ => none
  | .barrierArrivalForward _ _ _ => none
  | .barrierRelease _ _ _ => none
  | .planExecute _ => none
  | .waitevWake _ => none
  | .waitevTimeout _ => none
  | .pageWalk _ _ => none
  | .missTableRetry _ => none
  | .regionCacheFill _ _ => none
  | .uncorrectableError _ => none
  | .carderEvent _ _ => none
  | .carderWindowStart _ => none
  | .stateChangeRecord _ => none
  | .stateLogEscape _ => none
  | .filterSlotLoad _ _ _ _ => none
  | .filterSlotDetach _ _ _ => none
  | .objectClear _ _ => none
  | .debugStop _ => none
  | .debugResume _ => none
  | .debugStep _ _ _ => none
  | .watchdogSoftRestart _ => none
  | .watchdogFirmwareReload _ => none
  | .watchdogPartitionReset _ => none
  | .watchdogDieReset _ => none
  | .watchdogPackageReset _ _ => none
  | .stalled _ => none
  | .wdkick _ => none
  | .fwsubmit _ _ _ => none
  | .cpevthead _ _ => none
  | .heldEventAppend _ => none
  | .swapreq _ _ => none
  | .swapVerifyDone _ _ => none
  | .mode _ _ => none
  | .dctl _ _ => none
  | .ovdef _ _ => none
  | .vquota _ _ => none
  | .nregion _ _ => none
  | .tlbInvalidate _ _ => none
  | .tlbInvalidateComplete _ => none
  | .arena _ _ _ => none
  | .wpool _ _ _ => none
  | .pxctl _ _ => none
  | .nrmbase _ _ => none
  | .regrel _ _ => none
  | .reset _ _ => none
  | .partitionResetComplete _ => none
  | .gown _ _ _ => none
  | .mctail _ _ => none
  | .registerWrite _ _ => none
  | .dieReset _ => none
  | .packageReset _ => none
  | .throttleStart _ => none
  | .throttleEnd _ => none
  | .overtempShutdown _ => none
  | .flitCrcRetry _ _ => none
  | .corramFlitRetry _ _ => none
  | .linkRetrain _ _ _ => none
  | .storeQueueWrite _ _ => none
  | .homeRequest _ => none
  | .homeAnswer _ => none
  | .hostDma _ _ => none
  | .regionReleaseComplete _ => none
  | .roothome _ _ => none
  | .partitionCreateDestroy _ _ => none
  | .ucieRetrain _ _ => none

end Sys2Proof
namespace Sys2Proof.Machine

/-- The unit of R72 that executes a class: the memory unit takes classes 4 to 7. -/
def unitOf (op : Nat) : Nat := if 4 ≤ op / 64 ∧ op / 64 ≤ 7 then 4 else op / 64

/-- Whether an instruction of class 12 reads memory, so that it issues unpaired (R225). -/
def matrixReads : Instr → Bool
  | .mma _ _ _ _ _ _ => true
  | .mld _ _ _ _ => true
  | .mcb _ _ _ => true
  | _ => false

/-- Whether j issues in the turn of i when the line word pairs them. -/
def pairs (i j : Instr) : Bool :=
  match i.uses?, j.uses?, i.opcode?, j.opcode? with
  | some a, some b, some x, some y =>
    decide (unitOf x ≠ unitOf y) && !matrixReads i && !matrixReads j && !a.writes.any b.reads.contains && !a.writes.any b.writes.contains &&
    !a.guardsOut.any b.guardsIn.contains && !a.guardsOut.any b.guardsOut.contains
  | _, _, _, _ => false

end Sys2Proof.Machine
end

