-- ==== Sys2Proof/Machine/Turn.lean ====
section
/-!
DEFINITION. Sys2Proof/Machine/Turn.lean: a turn of a slot: what falls due at its boundary (R265), fetch (R77 to R82), and the
instruction; a turn of a Carder pipeline; the passing of time; and the choice of a turn when none is given.
-/
namespace Sys2Proof.Machine

/-- Whether a thread may take a turn at all (R25, R67, R71, R286, R289, R305, R416): it is in the rotation or steps, its core is awake, it
has cycles left, and its active window is resident. A Boost partition's cores wait while more than half are active at the higher clock, and
throttling leaves each core three of every four ac. -/
def allowed (s : State) (t : ThreadId) (th : Thread) : Bool :=
  let c := s.core t.core
  let dm := (s.cluster t.core.cluster).dm
  let stepping := dm.step = some t
  let allotted := match s.slice? th.ctl.slice with
    | some r => tget r.allot t.core 0 ≠ 0
    | none => false
  let mayRun := !th.outPre && !th.outBudget && (!th.outDebug || stepping)
  let p := t.slice.part
  let clocked := decide ((s.part p).pauseUntil ≤ s.dtime.toNat) && !(isBoost s p && overHalf s p && !(s.part p).clockLow)
  let awake := !c.gated && clocked && !((s.pkg p.pkg).throttled && decide (s.ac % 4 = 3))
  let asked := s.nt.yields.any fun y => decide (y.t = t)   -- its slice yield is on its way (R416)
  let goes := th.charged && !th.again                      -- an instruction under way goes on
  let skidRoom := !dm.req || wfield th.skid 0 2 < 3 || goes
  mayRun && awake && !asked && skidRoom && (allotted || goes) && windowResident th.lines th.ctl.wsp

/-- A fetched slot: its instruction, the pairing bit after it and the line's address, or what the fetch meets. -/
inductive Fetched where
  | instr (i : Instr) (pair : Bool) (pa : Nat)
  | parity
  | trap (r : TrapRec)
  | miss
deriving DecidableEq, Repr

/-- Reads a slot of the line at a physical address and checks it in the order of R103. -/
def fetchAt (s : State) (pkg pa : Nat) (pc : Word) : Fetched :=
  let k := wfield pc 0 3
  let a := addrHbm pkg (pa / 64 * 64)
  if s.poisoned (a + 12 * k) 12 || s.poisoned (a + 60) 4 then .trap (mkTrap 11 pc.toNat 0)
  else
    let line := s.rd a 64
    let w := lineSlot line k
    let lw := lineWord line
    if parity96 w != linePar lw k then .parity
    else if lineRes0 lw then .trap (mkTrap 1 0 (w.toNat % 2 ^ 13 * 2 ^ 32 + 1))
    else match decode w with
    | .ok i => .instr i (linePair lw k) pa
    | .bad _ => .trap (mkTrap 1 0 (w.toNat % 2 ^ 13 * 2 ^ 32))

/-- The fetch at a thread's PC (R79, R80, R392). -/
def fetch (s : State) (t : ThreadId) (th : Thread) : Fetched :=
  let pc := th.ctl.pc
  let p := th.ctl.slice.part
  if wfield pc 3 3 ≠ 0 ∨ wfield pc 0 3 > 4 then .trap (mkTrap 1 0 0)
  else if 2 ^ 52 ≤ pc.toNat then .trap (mkTrap 4 pc.toNat 4)
  else
    let go := fun (e : TlbEnt) =>
      if e.ex then fetchAt s p.pkg (e.pbase * 2 ^ e.log2 + pc.toNat % 2 ^ e.log2) pc else .trap (mkTrap 5 pc.toNat 0)
    match tlbFind (s.core t.core).tlb p pc.toNat with
    | some e => go e
    | none =>
      match tlbFind (s.quad t.core.quad).stlb p pc.toNat with
      | some e => go e
      | none =>
        match th.due.walkFail with
        | some f => if f.page = pc.toNat / 2 ^ 16 then .trap (mkTrap 4 pc.toNat (f.code + f.level * 16)) else .miss
        | none => .miss

/-- A trap met at issue: the turn is charged (R67). -/
def trapTurn (s : State) (t : ThreadId) (r : TrapRec) : State := takeTrap t r (chargeTurn s t)

/-- The instruction of the next slot of the line, where it pairs with i (R72). -/
def secondOf (s : State) (pkg pa : Nat) (pc : Word) (pair : Bool) (i : Instr) : Option Instr :=
  if pair && decide (wfield pc 0 3 < 4) then
    match fetchAt s pkg pa (pc + 1) with
    | .instr j _ _ => if pairs i j then some j else none
    | _ => none
  else none

/-- Whether the first instruction of a pair has completed, so that the turn goes on with the second slot; while a stop is on its way only
where SKID can count it (R289). -/
def goesOn (t : ThreadId) (before : Thread) (s : State) : Bool :=
  match s.thread? t with
  | some th =>
    decide (th.phase = .ready ∧ th.ctl.pc = before.ctl.pc + 1 ∧ th.ctl.wsp = before.ctl.wsp) && !th.ctl.repBnd &&
      (!(s.cluster t.core.cluster).dm.req || decide (wfield th.skid 0 2 < 3))
  | none => false

/-- The second instruction of a pair: it issues in the turn of the first and is not charged; where it is not ready it issues in the slot's
next turn (R67, R72). -/
def runSecond (t : ThreadId) (j : Instr) (s : State) : Host.Outcome State Fault Refusal :=
  match exec j (s.modThread t fun th => { th with charged := true }) with
  | .next s' => .next (s'.modThread t fun th =>
      match s.thread? t with
      | some b => if th = { b with charged := true } then b else th
      | none => th)
  | o => o

/-- An instruction and, once it has completed, the one that pairs with it. -/
def runPair (t : ThreadId) (before : Thread) (j : Option Instr) (r : Host.Outcome State Fault Refusal) : Host.Outcome State Fault Refusal :=
  match j, r with
  | some j, .next s => if goesOn t before s then runSecond t j s else .next s
  | _, r => r

/-- Fetches and runs the instruction at the thread's PC, and the one that pairs with it. -/
def runAt (s : State) (t : ThreadId) (th : Thread) : Host.Outcome State Fault Refusal :=
  let first : Except TrapRec Unit := if th.ctl.first then targetCheck s th.ctl.slice.part th.ctl.pc else .ok ()
  match first with
  | .error r => .next (trapTurn s t r)
  | .ok () =>
    match fetch s t th with
    | .trap r => .next (trapTurn s t r)
    | .parity => .next (s.modThread t fun th => { th with phase := .refetch })
    | .miss => .next ((enterMiss s t.core.quad th.ctl.slice.part th.ctl.pc.toNat t).modThread t fun th => { th with phase := .walk })
    | .instr i pair pa =>
      let s := touchPlain s t.core pa
      runPair t th (secondOf s t.core.pkg pa th.ctl.pc pair i) (exec i s)

/-- The turn of a thread in the rotation: what is due at the boundary in the order of R265, then the instruction. -/
def turnOf (s : State) (t : ThreadId) (th : Thread) : Host.Outcome State Fault Refusal :=
  match dueNow s t th with
  | some s => .next s
  | none =>
    if th.phase ≠ .ready then .next s
    else if th.ctl.repBnd && th.atBoundary then .next (boundary s t)
    else
      match th.due.fault, th.atBoundary with
      | some r, true => .next (takeTrap t r (s.modThread t fun th => { th with due := { th.due with fault := none } }))
      | _, _ => if abandonRefused s t then .next (s.modThread t fun th => { th with phase := .parked .memory }) else runAt s t th

/-- Whether a turn would do something for the thread: R71 holds it back otherwise. -/
def acts (s : State) (t : ThreadId) (th : Thread) : Bool :=
  match turnOf { s with cur := .thread t } t th with
  | .next s' => decide (s'.thread? t ≠ some th)
  | _ => true

/-- Whether a slot is ready (R70, R71). -/
def ready (s : State) (t : ThreadId) (th : Thread) : Bool := allowed s t th && decide (th.phase = .ready) && acts s t th

/-- Whether what a parked thread waits for is there: its instruction would go on, trap or park for something else. -/
def parkOver (s : State) (t : ThreadId) (th : Thread) : Bool :=
  match th.phase with
  | .parked k => !abandonRefused s t &&
    (match runAt { s with cur := .thread t } t th with
     | .next s' =>
       (match s'.thread? t with
        | some x => decide (x.phase ≠ .parked k ∨ x.ctl.pc ≠ th.ctl.pc ∨ x.ctl.wsp ≠ th.ctl.wsp)
        | none => true)
     | _ => true)
  | _ => false

/-- Whether a held thread's staging can go on: entries of a core's matrix queue stage one at a time (R225), and a store needs room. -/
def stagesOn (s : State) (t : ThreadId) (th : Thread) : Bool :=
  decide (th.phase = .staging) && match th.stage with
    | some g => !(g.goal.isMatrix && stagingBefore s t.core g.goal.entry) && !(g.todo.head?.any fun p => storeWaits s t.core g p)
    | none => false

/-- YA and YIELD: a slot waits until every other ready slot of its core has issued, or for 16 ac (R84). -/
def yieldOver (s : State) (t : ThreadId) (th : Thread) : Bool :=
  !th.yielded || decide ((th.lastIssue.getD 0) + 16 ≤ s.ac) ||
  s.wk.slots.all fun (u, r) =>
    match r.thread with
    | some o => u = t || u.core ≠ t.core || decide (th.lastIssue.getD 0 < o.lastIssue.getD 0) || !ready s u o
    | none => true

/-- Whether a slot is a candidate: ready, and it has not issued in the last 3 ac (R70). -/
def candidate (s : State) (t : ThreadId) (th : Thread) : Bool :=
  (match th.lastIssue with
   | some n => decide (n + 4 ≤ s.ac)
   | none => true) && ready s t th && yieldOver s t th

/-- The candidate of a core whose turn it is: the first in ascending slot order after the slot that issued last (R70). -/
def nextOf (s : State) (c : CoreId) : Option ThreadId :=
  (List.range 16).findSome? fun i =>
    s.wk.slots.findSome? fun (t, r) =>
      match r.thread, r.phys with
      | some th, some n => if t.core = c && n = ((s.core c).lastSlot + 1 + i) % 16 && candidate s t th then some t else none
      | _, _ => none

/-- Whether a thread takes a turn now: a trap is due to it, or the turn of its core is its own and the core has not issued in this ac. -/
def canIssue (s : State) (t : ThreadId) (th : Thread) : Bool :=
  allowed s t th && ((dueNow s t th).isSome || (decide ((s.core t.core).issued ≠ some s.ac) && decide (nextOf s t.core = some t)))

/-- A turn of a slot: a parked thread whose wait is over becomes ready, and a thread whose turn it is takes it. A stepped thread that has
issued is stopped again, and one that is not ready ends its step (R290). -/
def turnThread (t : ThreadId) (s : State) : Host.Outcome State Fault Refusal :=
  let s := { s with cur := .thread t }
  match s.thread? t with
  | none => .next s
  | some th =>
    if th.phase = .ending then .next s
    else if th.phase = .staging then stageTurn t s
    else if canIssue s t th then
      match turnOf s t th with
      | .next s' => .next (endStep s s' t)
      | o => o
    else if (s.cluster t.core.cluster).dm.step = some t ∧ !ready s t th then .next (setStep t.core.cluster 4 s)
    else if parkOver s t th then .next (s.modThread t fun th => { th with phase := .ready })
    else .next s

/-- A turn of a Carder pipeline: the next instruction of its run (R276). -/
def turnCarder (d : DieId) (pipe : Nat) (s : State) : Host.Outcome State Fault Refusal :=
  let s := { s with cur := .carder d pipe }
  match (tget (s.die d).pipes pipe .reset).run with
  | none => .next s
  | some r =>
    match (tget (s.die d).fslots r.slot .reset).prog[r.idx]? with
    | none => exec .cdend s
    | some w =>
      match decodeCarder w with
      | some i => exec i s
      | none => exec .cdend s

/-- Time passes. A core with a ready slot is not quiet (R76), and a slice with a slot neither parked nor idle is busy (R303). -/
def passTime (ac ns : Nat) (s : State) : State :=
  let ac' := s.ac + ac
  let now := s.dtime + BitVec.ofNat 64 ns
  let busy := fun i => s.wk.slots.any fun (t, x) => decide (t.slice = i) && !slotQuiet x
  { s with cur := .none, ac := ac', dtime := now
           wk := { s.wk with slices := s.wk.slices.map fun (i, r) => if busy i then (i, { r with lastBusy := now.toNat }) else (i, r) }
           un := { s.un with cores := s.un.cores.map fun (c, r) => if anyReady s c then (c, { r with quietSince := ac' }) else (c, r) } }

/-- The first thread of which a turn goes on apart from the rotation: a held one whose staging can go on, or a parked one whose wait is over. -/
def wakeOf (s : State) : Option ThreadId :=
  s.wk.slots.findSome? fun (t, r) => r.thread.bind fun th => if parkOver s t th || stagesOn s t th then some t else none

/-- The turn taken when none is given: a wake, or the turn of the first core that has a candidate; with neither, one tick passes. -/
def defaultTurn (s : State) : Turn :=
  match (wakeOf s).orElse fun _ => s.wk.slots.findSome? fun e => if (s.core e.1.core).issued = some s.ac then none else nextOf s e.1.core with
  | some t => .thread t
  | none => .pass 1 1

/-- One turn of the device. -/
def runTurn (u : Turn) (s : State) : Host.Outcome State Fault Refusal :=
  match u with
  | .thread t => turnThread t s
  | .carder d p => turnCarder d p s
  | .unit ev => exec ev { s with cur := .none }
  | .pass ac ns => .next (passTime ac ns s)

/-! ### Placing one instruction where the next step fetches -/

def loadPart : PartId := ⟨0, 0⟩
def loadCore : CoreId := ⟨0, 0, 0⟩
def loadSlice : SliceId := ⟨loadPart, 0⟩
def loadThread : ThreadId := ⟨loadCore, loadSlice, 0⟩
def loadPc : Word := 0x10000

/-- The descriptor of a slice of one core with one reserved slot and four accumulators. -/
def loadDesc : BitVec 512 :=
  BitVec.ofNat 512 (0x10000 + 0x100000 * 2 ^ 192 + 2 ^ 264 + 2 ^ 269 + 4 * 2 ^ 279 + 92 * 2 ^ 288 + 2 ^ 384)

/-- The control state of a thread about to issue at a PC. -/
def Ctl.start (sl : SliceId) (pc wsp : Word) (priv : Bool) : Ctl :=
  { slice := sl, pc := pc, wsp := wsp, twsp := 0, hwsp := 0, abmask := false, joinRec := 0, intrap := false, priv := priv, first := false
    rep := none, repBnd := false, inl := [] }

def Due.none : Due := ⟨.none, [], [], [], .none, .none, .none⟩

def Thread.start (c : Ctl) : Thread :=
  { ctl := c, phase := .ready, charged := false, again := false, outPre := false, outBudget := false, outDebug := false, due := Due.none, nsts := []
    latch := none, openMsg := none, skid := 0, watch := none, boWait := none, sampled := false, shape := none, stage := none, seen := 0, fences := [], lines := [], used := []
    lastIssue := none, yielded := false, endCause := none, watchHits := [] }

def SliceRec.running (desc : BitVec 512) (c : CoreId) : SliceRec :=
  { desc := desc, st := .running, deadline := 0, central := 0, allot := [(c, 4096)], faults := 0, origin := ⟨⟨0, 0, 0⟩, true, 0, 0⟩
    priv := false, pass := 0, grants := [⟨c, 0, 0x80000 - 0x2400, [some 0, some 1, some 2, some 3]⟩], pools := [], abort := []
    missed := false, lastBusy := 0, stallReported := false, killed := false, pend := ⟨false, false, false⟩, passedBack := none }

/-- A line that holds one word in slot 0, with its parity bit and TGT bit 0. -/
def lineOf (w : Nat) : Nat := w % 2 ^ 96 + (1 + bit (parity96 (BitVec.ofNat 96 w)) * 2 ^ 16) * 2 ^ 480

/-- A core word placed where the next turn fetches: a resident thread of a running slice at a mapped line that holds it. -/
def placeCore (s : State) (w : Nat) : State :=
  let wsp := space3 (slotBase 0)
  let th := Thread.start (Ctl.start loadSlice loadPc wsp false)
  let th := { th with lines := (List.range winLines).map fun i => (winLine wsp + i, LineSt.dirty) }
  let s := { s with agenda := [.thread loadThread], wk :=
    { slots := tput s.wk.slots loadThread { SlotRec.empty with phys := some 0, thread := some th }
      slices := tput s.wk.slices loadSlice (SliceRec.running loadDesc loadCore) } }
  let s := s.modCore loadCore fun r => { r with tlb := [⟨loadPart, 1, 16, 1, true, true, true⟩] }
  s.put (addrHbm 0 loadPc.toNat) 64 (lineOf w)

/-- A Carder word placed as the program of filter slot 0 of die 0, with an event of its class in a run. -/
def placeCarder (s : State) (w : Nat) : State :=
  let d : DieId := ⟨0, 0⟩
  let ev : CdEvent := ⟨d, 0xFFF, loadPart, 0, List.replicate 8 0, 0⟩
  let s := { s with agenda := [.carder d 0] }
  s.modDie d fun r =>
    { r with fslots := tput r.fslots 0 { FSlot.reset with v := true, prog := [BitVec.ofNat 32 w] }
             pipes := tput r.pipes 0 ⟨[], some ⟨ev, 0, 0, 0⟩⟩ }

def placeWord (s : State) (nbits w : Nat) : State := if nbits = 32 then placeCarder s w else placeCore s w

end Sys2Proof.Machine
end

