-- ==== Sys2Proof/Machine/Step.lean ====
section
/-!
DEFINITION. Sys2Proof/Machine/Step.lean: one step of the device is one turn: the next of the agenda, or the one defaultTurn gives.
-/
namespace Sys2Proof.Machine

/-- One step. -/
def step (s : State) : Host.Outcome State Fault Refusal :=
  match s.agenda with
  | u :: rest => runTurn u { s with agenda := rest }
  | [] => runTurn (defaultTurn s) s

/-- s with one instruction stored where step fetches its next one. -/
def State.withFetchWord (s : State) (nbits w : Nat) : State := placeWord s nbits w

end Sys2Proof.Machine
end

