-- ==== Sys2Proof/Safety.lean ====
section
/-!
DEFINITION. Sys2Proof/Safety.lean: what counts as a sound state and a safe run, in the terms that statements use.
-/
namespace Sys2Proof.Machine

/-- The storage stands in its one form: memory as Memory.wf says, and the granule sets rising. -/
def Store.wf (st : Store) : Bool := Memory.wf st.mem && risingNat 0 st.full && risingNat 0 st.poison && risingNat 0 st.typed

/-- The invariant of the device's storage. -/
def State.sound (s : State) : Prop := Store.wf s.st = true

/-- P holds of the state that an outcome answers, if it answers one. -/
def holdsNext (P : State → Prop) : Host.Outcome State Fault Refusal → Prop
  | .next s => P s
  | .fault _ => True
  | .refused _ => True

/-- A run is safe over n steps when no step of it stops and every state of it is sound. -/
def safeRun : Nat → State → Prop
  | 0, s => s.sound
  | n + 1, s => s.sound ∧
    match step s with
    | .next s' => safeRun n s'
    | .fault _ => False
    | .refused _ => False

/-! ### Completing an instruction, as statements say it -/

/-- m, run from s, completes with a and leaves s'. -/
def Runs {α : Type} (m : Exec α) (s : State) (a : α) (s' : State) : Prop := m.run s = .ok a s'

/-- Thread t, in the record th, issues an instruction with the common fields h: s0 is s with the turn charged, the wait of WCLS and
WCNT is over (R84), and the guard holds (R86). -/
structure Issues (h : Hdr) (t : ThreadId) (th : Thread) (s s0 : State) : Prop where
  actor : s.cur = .thread t
  turn : s0 = chargeTurn s t
  live : s0.thread? t = some th
  waited : Runs (checkWait h) s0 () s0
  guarded : Runs (guardTrue h) s0 true s0

/-- The answer of an instruction of thread t whose meaning has left s and goes on at f. -/
def retired (t : ThreadId) (h : Hdr) (f : Flow) (s : State) : Host.Outcome State Fault Refusal :=
  .next (markIssue (retire t h.eog f s) t h.ya)

/-- The trap of an instruction that its word, with SPEC, QMODE and the register numbers outside a REP body, makes illegal whatever its
guard (R102, R131): a speculative form while SPEC is 0, a format that QMODE does not have, an MMA whose formats do not go with K, AU and
BU, and a register beyond the file or not even. -/
def illegalNow (i : Instr) (s : State) : Option TrapRec :=
  match i with
  | .nst _ p _ _ _ _ _ _ => badSpec i p s
  | .nld _ _ _ _ _ p _ _ => badSpec i p s
  | .nconf _ _ _ => badSpec i true s
  | .nrevoke _ _ _ => badSpec i true s
  | .fadd _ _ _ _ fmt => badFormat i fmt s
  | .fsub _ _ _ _ fmt => badFormat i fmt s
  | .fmul _ _ _ _ fmt => badFormat i fmt s
  | .fdiv _ _ _ _ fmt => badFormat i fmt s
  | .fma _ _ _ _ _ fmt => badFormat i fmt s
  | .fsqrt _ _ _ fmt => badFormat i fmt s
  | .fmin _ _ _ _ fmt => badFormat i fmt s
  | .fmax _ _ _ _ fmt => badFormat i fmt s
  | .fcmp _ _ _ _ fmt _ => badFormat i fmt s
  | .fclass _ _ _ fmt => badFormat i fmt s
  | .fsgn _ _ _ _ _ fmt => badFormat i fmt s
  | .mma _ _ x k au bu => mmaBad i x k au bu
  | .vld _ d _ _ _ n => badNumbers (illegalOf i) (decide (32 < d.val + n.toNat + 1)) s
  | .vst _ d _ _ _ n => badNumbers (illegalOf i) (decide (32 < d.val + n.toNat + 1)) s
  | .smxm _ d a b => badNumbers (illegalOf i) ([d, a, b].any fun v => decide (v.val % 2 ≠ 0)) s
  | .smxf _ _ _ x => badNumbers (illegalOf i) (decide (x.val % 2 ≠ 0)) s
  | _ => none

/-- The instructions of class 12, which are not ready while their core's matrix queue is full (R225). -/
def classTwelve : Instr → Bool
  | .mma _ _ _ _ _ _ => true
  | .mzero _ _ _ => true
  | .mrd _ _ _ => true
  | .mst _ _ _ => true
  | .mld _ _ _ _ => true
  | .mcvt _ _ _ _ _ _ => true
  | .mcb _ _ _ => true
  | _ => false

/-! ### Windows and registers -/

/-- No line of the window at w1 shares a byte of storage with a line of the window at w2, but for a line with itself. -/
def LinesApart (s : State) (t : ThreadId) (sl : SliceId) (w1 w2 : Word) : Prop :=
  ∀ i j, i < winLines → j < winLines → w1 ≠ w2 ∨ i ≠ j →
    winByte s t sl w1 (64 * i) + 64 ≤ winByte s t sl w2 (64 * j) ∨ winByte s t sl w2 (64 * j) + 64 ≤ winByte s t sl w1 (64 * i)

/-- Each line of the window at w stands in one piece of storage, apart from the window's other lines. -/
structure WindowStands (s : State) (t : ThreadId) (sl : SliceId) (w : Word) : Prop where
  whole : ∀ i k, i < winLines → k < 64 → winByte s t sl w (64 * i + k) = winByte s t sl w (64 * i) + k
  apart : LinesApart s t sl w w

/-- General register n of the executing thread t holds v as a plain value: no operation under way will write it, its handle mark is
clear, and neither it nor the marks are poisoned. -/
structure RegHolds (s : State) (t : ThreadId) (th : Thread) (n : Nat) (v : Word) : Prop where
  actor : s.cur = .thread t
  live : s.thread? t = some th
  settled : regPending s t th.ctl.wsp n = false
  clean : winPoisoned s t th.ctl.slice th.ctl.wsp (offW n) 8 = false
  cleanMarks : winPoisoned s t th.ctl.slice th.ctl.wsp offMarks 8 = false
  plain : (threadRead s t th.ctl th.ctl.wsp offMarks 8).testBit n = false
  value : BitVec.ofNat 64 (threadRead s t th.ctl th.ctl.wsp (offW n) 8) = v

/-- Nothing is due after the instruction of thread t, which is outside any REP body. -/
structure NothingDue (th : Thread) : Prop where
  rep : th.ctl.rep = none
  after : th.due.after = none

/-! ### Frames -/

/-- s' differs from s in threads, slices and storage only: no unit, tile or message, no clock and no counter is changed. -/
structure UnitsKept (s s' : State) : Prop where
  cur : s'.cur = s.cur
  agenda : s'.agenda = s.agenda
  ac : s'.ac = s.ac
  dtime : s'.dtime = s.dtime
  free : s'.free = s.free
  opId : s'.opId = s.opId
  un : s'.un = s.un
  tl : s'.tl = s.tl
  nt : s'.nt = s.nt

/-- No byte outside the ranges in l differs, a range being an address and a number of bytes. -/
def bytesKept (l : List (Addr × Nat)) (s s' : State) : Prop :=
  ∀ a : Addr, (∀ r ∈ l, ¬ (r.1 ≤ a ∧ a < r.1 + r.2)) → s'.rd a 1 = s.rd a 1

/-- Where n bytes at offset off of the active window of a thread stand, line by line. -/
def winRange (s : State) (t : ThreadId) (c : Ctl) (off n : Nat) : List (Addr × Nat) :=
  (linePieces off n).map fun p => (winByte s t c.slice c.wsp p.1, p.2)

/-- s' differs from s in the bytes of the ranges l alone: no slice, slot, thread, unit, tile or message is changed. -/
structure OnlyBytes (l : List (Addr × Nat)) (s s' : State) : Prop where
  units : UnitsKept s s'
  work : s'.wk = s.wk
  bytes : bytesKept l s s'

/-- An instruction of thread t with the header h completed from s0 and left s': the thread is at the next slot, and only the bytes of the
ranges l may differ beside it. -/
structure Completed (t : ThreadId) (th : Thread) (h : Hdr) (l : List (Addr × Nat)) (s0 s' : State) : Prop where
  units : UnitsKept s0 s'
  slices : s'.wk.slices = s0.wk.slices
  others : ∀ u, u ≠ t → s'.slot? u = s0.slot? u
  thread : ∃ k, s'.thread? t =
    some { th.settled with ctl := { th.ctl with pc := slotAdd th.ctl.pc 1, first := false }, skid := k, yielded := h.ya }
  bytes : bytesKept l s0 s'

end Sys2Proof.Machine
end

