-- ==== Sys2Proof/Certificates/Slice0/Obligations.lean ====
section
/-!
DEFINITION. Sys2Proof/Certificates/Slice0/Obligations.lean: the statements for the provers. The completion statements name, for every constructor of
Instr, states from which its own effect is taken; the others state values, frames, traps, issue, encoding, reset and an invariant.
-/
open Sys2Proof Sys2Proof.Machine

/-- R310, R332, R361, R362, R381, R395: an issued class-0 instruction with two sources completes once its sources are read and its result is written.
Nothing else is asked of the state. R310, R319, R320, R332, R363, R364, R386, R396: the same of the class-0 instructions of other shapes: one source,
a guard for a destination or a source, and a destination that is read. -/
def Obligations.IntegerInstructionsComplete : Prop :=
  (∀ (h : Hdr) (t : ThreadId) (th : Thread) (s s0 s1 s2 : State) (d a : Opnd) (b : Src) (r : Reg) (x y : Word) (wid sh : BitVec 2)
     (sgn sat hi loc : Bool),
     Issues h t th s s0 → (Runs (rd2 h a b [d]) s0 (x, y) s1 →
     (Runs (wrOpnd d (addW wid sgn sat x y)) s1 () s2 → exec (.add h d a b wid sgn sat) s = retired t h .seq s2) ∧
     (Runs (wrOpnd d (subW wid sgn sat x y)) s1 () s2 → exec (.sub h d a b wid sgn sat) s = retired t h .seq s2) ∧
     (Runs (wrOpnd d (mulW wid sgn sat hi x y)) s1 () s2 → exec (.mul h d a b wid sgn sat hi) s = retired t h .seq s2) ∧
     (Runs (wrOpnd d (bitwiseW (· &&& ·) wid sgn x y)) s1 () s2 → exec (.and h d a b wid sgn) s = retired t h .seq s2) ∧
     (Runs (wrOpnd d (bitwiseW (fun p q => p &&& ~~~q) wid sgn x y)) s1 () s2 → exec (.andn h d a b wid sgn) s = retired t h .seq s2) ∧
     (Runs (wrOpnd d (bitwiseW (· ||| ·) wid sgn x y)) s1 () s2 → exec (.or h d a b wid sgn) s = retired t h .seq s2) ∧
     (Runs (wrOpnd d (bitwiseW (· ^^^ ·) wid sgn x y)) s1 () s2 → exec (.xor h d a b wid sgn) s = retired t h .seq s2) ∧
     (Runs (wrOpnd d (shlW wid sgn x y)) s1 () s2 → exec (.shl h d a b wid sgn) s = retired t h .seq s2) ∧
     (Runs (wrOpnd d (shrW wid sgn x y)) s1 () s2 → exec (.shr h d a b wid sgn) s = retired t h .seq s2) ∧
     (Runs (wrOpnd d (rotW wid x y)) s1 () s2 → exec (.rot h d a b wid) s = retired t h .seq s2) ∧
     (Runs (wrOpnd d (minW wid sgn x y)) s1 () s2 → exec (.min h d a b wid sgn) s = retired t h .seq s2) ∧
     (Runs (wrOpnd d (maxW wid sgn x y)) s1 () s2 → exec (.max h d a b wid sgn) s = retired t h .seq s2) ∧
     (Runs (wrOpnd d (leaW sh loc x y)) s1 () s2 → exec (.lea h d a b sh loc) s = retired t h .seq s2)) ∧
     (Runs (rd2 h a b [.w r]) s0 (x, y) s1 → Runs (wrReg r (extW sgn x y)) s1 () s2 → exec (.ext h r a b sgn) s = retired t h .seq s2)) ∧
  (∀ (h : Hdr) (t : ThreadId) (th : Thread) (s s0 s1 s2 s3 : State) (d a : Opnd) (b : Src) (r : Reg) (x y z : Word) (wid : BitVec 2)
     (sgn inv g : Bool) (gd sg : BitVec 3) (cond : BitVec 4) (imm : BitVec 48),
     Issues h t th s s0 →
     (Runs (rd1 h a [d]) s0 x s1 → Runs (wrOpnd d (clzW wid x)) s1 () s2 → exec (.clz h d a wid) s = retired t h .seq s2) ∧
     (Runs (rd1 h a [d]) s0 x s1 → Runs (wrOpnd d (ctzW wid x)) s1 () s2 → exec (.ctz h d a wid) s = retired t h .seq s2) ∧
     (Runs (rd1 h a [d]) s0 x s1 → Runs (wrOpnd d (popW wid x)) s1 () s2 → exec (.popc h d a wid) s = retired t h .seq s2) ∧
     (Runs (rd2 h a b) s0 (x, y) s1 → Runs (setGuard gd (cmpHolds cond.toNat sgn (widBits wid) x y)) s1 () s2 →
       exec (.cmp h gd a b wid sgn cond) s = retired t h .seq s2) ∧
     (Runs (rdGuard sg.toNat) s0 g s1 → Runs (rd2 h a b [d]) s1 (x, y) s2 → Runs (wrOpnd d (if g != inv then x else y)) s2 () s3 →
       exec (.sel h d a b sg inv) s = retired t h .seq s3) ∧
     (Runs (do checkHandle r.val; rd2 h a b) s0 (x, y) s1 → Runs (rdReg r.val) s1 z s2 → Runs (wrReg r (insW z x y)) s2 () s3 →
       exec (.ins h r a b) s = retired t h .seq s3) ∧
     (Runs (wrReg r (imm.signExtend 64)) s0 () s1 → exec (.movi h r imm false) s = retired t h .seq s1) ∧
     (Runs (do checkHandle r.val; rdReg r.val) s0 x s1 →
       Runs (wrReg r ((x &&& (0x0000FFFFFFFFFFFF : Word)) ||| BitVec.ofNat 64 (imm.toNat % 2 ^ 16 * 2 ^ 48))) s1 () s2 →
       exec (.movi h r imm true) s = retired t h .seq s2))

/-- R329, R330, R389: an issued DIV or REM whose sources are read completes when the divider, which holds two, has room and no operation under way
will write the same register or guard; its result and its guard are on their way. R363: MOV between scalar places, between vector registers, to a
vector register from zero and ones, between masks, and between accumulators, whose copy enters the matrix engine's queue. R142, R330: the completion
of an operation of a core's divider writes its registers, its guard and its flags in the workspace that issued it, and frees its place in the unit. -/
def Obligations.DivisionAndMovComplete : Prop :=
  (∀ (h : Hdr) (t : ThreadId) (th th1 : Thread) (s s0 s1 : State) (a : Opnd) (b : Src) (d : Reg) (gd : BitVec 3) (x y : Word)
     (wid : BitVec 2) (sgn : Bool),
     Issues h t th s s0 → Runs (rd2 h a b) s0 (x, y) s1 → s1.cur = .thread t → s1.thread? t = some th1 →
     (s1.core t.core).div.length < 2 → unitBusyFor s1 t th1.ctl.wsp [d.val] gd.toNat = false →
     exec (.div h gd d a b wid sgn) s = retired t h .seq
       (({ s1 with opId := s1.opId + 1 } : State).modCore t.core fun r =>
         { r with div := r.div ++ [⟨s1.opId, t, th1.ctl.slice, th1.ctl.wsp, [(d.val, (divide sgn (widBits wid) x y).1)],
                                    some (gd.toNat, (divide sgn (widBits wid) x y).2), 0, t.core.pkg⟩] }) ∧
     exec (.rem h gd d a b wid sgn) s = retired t h .seq
       (({ s1 with opId := s1.opId + 1 } : State).modCore t.core fun r =>
         { r with div := r.div ++ [⟨s1.opId, t, th1.ctl.slice, th1.ctl.wsp, [(d.val, (remainder sgn (widBits wid) x y).1)],
                                    some (gd.toNat, (remainder sgn (widBits wid) x y).2), 0, t.core.pkg⟩] })) ∧
  (∀ (h : Hdr) (t : ThreadId) (th : Thread) (s s0 s1 s2 s3 : State) (d a : Opnd) (vd va : VReg) (md ma : Fin 8) (ad aa : Fin 4) (x : Word)
     (k tag bits j : Nat) (i1 i2 : AccId),
     Issues h t th s s0 →
     ((∀ n, d ≠ .v n) → (∀ n, d ≠ .m n) → (∀ n, d ≠ .acc n) → Runs (rd1 h a [d]) s0 x s1 → Runs (wrOpnd d x) s1 () s2 →
       exec (.mov h d a) s = retired t h .seq s2) ∧
     (Runs (renV va.val) s0 k s0 → Runs (vTag k) s0 tag s0 → Runs (vBits k) s0 bits s0 → Runs (renV vd.val) s0 j s0 →
       Runs (wrV j bits tag) s0 () s1 → exec (.mov h (.v vd) (.v va)) s = retired t h .seq s1) ∧
     (Runs (renV vd.val) s0 j s0 → Runs (wrV j (2 ^ 2048 - 1) 0) s0 () s1 → exec (.mov h (.v vd) .ones) s = retired t h .seq s1) ∧
     (Runs (renV vd.val) s0 j s0 → Runs (wrV j 0 0) s0 () s1 → exec (.mov h (.v vd) .zero) s = retired t h .seq s1) ∧
     (Runs (mBits ma.val) s0 bits s0 → Runs (wrM md.val bits) s0 () s1 → exec (.mov h (.m md) (.m ma)) s = retired t h .seq s1) ∧
     (Runs (wrM md.val (2 ^ 256 - 1)) s0 () s1 → exec (.mov h (.m md) .ones) s = retired t h .seq s1) ∧
     (Runs (wrM md.val 0) s0 () s1 → exec (.mov h (.m md) .zero) s = retired t h .seq s1) ∧
     (Runs (accOf ad) s0 i1 s0 → Runs (accOf aa) s0 i2 s0 → matFull s0 t = false → Runs (accTag i2 false) s0 tag s0 →
       Runs (do noteTag i1 tag; enqueueMat (.copy i1 i2)) s0 () s3 → exec (.mov h (.acc ad) (.acc aa)) s = retired t h .seq s3)) ∧
  (∀ (s : State) (c : CoreId) (k : Nat) (o : LongOp),
     (s.core c).div[k]? = some o →
     exec (.dividerOpComplete c k) s = .next
       (let w := s.modCore c fun r => { r with div := dropAt r.div k }
        let w := o.regs.foldl (fun s r => putRegAt s o.t o.slice o.wsp r.1 r.2) w
        let w := match o.guard with
          | some (g, b) => putGuardAt w o.t o.slice o.wsp g b
          | none => w
        orFlagsAt w o.t o.slice o.wsp o.flags))

/-- R80, R221, R316, R317, R391, R392: outside an active REP body, a branch whose target passes the target check, a CALL without a frame, a CALL with
a frame whose window may be entered, a RET, and a REP over a body that ends. R392: RET.f goes back to the caller's window when the active window is
one of a CALL.f, no operation of the GCD unit or the divider is outstanding, and the caller's window is legal and resident; ABMASK in the STATUS it
writes there is the thread's. -/
def Obligations.BranchesAndCallsComplete : Prop :=
  (∀ (h : Hdr) (t : ThreadId) (th th1 : Thread) (s s0 s1 s2 s3 : State) (disp : BitVec 40) (r wi : Reg) (tgt : CallTgt) (frame : BitVec 8)
   (pc x : Word) (n : Nat) (vb vs vt : BitVec 5) (va : BitVec 2),
     Issues h t th s s0 → th.ctl.rep = none →
     (targetCheck s0 th.ctl.slice.part (slotAdd th.ctl.pc disp.toInt) = .ok () →
       exec (.br h disp) s = retired t h (.goto (slotAdd th.ctl.pc disp.toInt)) s0) ∧
     (Runs (rd1 h (.w r)) s0 x s1 → s1.cur = .thread t → s1.thread? t = some th1 →
       targetCheck s1 th1.ctl.slice.part x = .ok () → exec (.bri h r) s = retired t h (.goto x) s1) ∧
     (Runs (callTarget h tgt) s0 pc s1 → s1.cur = .thread t → s1.thread? t = some th1 → targetCheck s1 th1.ctl.slice.part pc = .ok () →
       Runs (wrReg 63 (slotAdd th1.ctl.pc 1)) s1 () s2 → exec (.call h tgt 0) s = retired t h (.goto pc) s2) ∧
     (Runs (callTarget h tgt) s0 pc s1 → s1.cur = .thread t → s1.thread? t = some th1 → targetCheck s1 th1.ctl.slice.part pc = .ok () →
       frame ≠ 0 → Runs (waitClass 3) s1 () s1 → Runs (checkWindow (windowBelow th1.ctl.wsp (frame.toNat * 64))) s1 () s1 →
       Runs (needLines (windowBelow th1.ctl.wsp (frame.toNat * 64))) s1 () s1 →
       Runs (enterWindow (windowBelow th1.ctl.wsp (frame.toNat * 64)) (frame.toNat * 64)) s1 () s2 → s2.cur = .thread t →
       Runs (wrReg 63 (slotAdd th1.ctl.pc 1))
         (s2.modThread t fun u => { u with ctl := { u.ctl with wsp := windowBelow th1.ctl.wsp (frame.toNat * 64) } }) () s3 →
       exec (.call h tgt frame) s = retired t h (.goto pc) s3) ∧
     (Runs (rd1 h (.w r)) s0 x s1 → exec (.ret h r false) s = retired t h (.goto x) s1) ∧
     (Runs (orTrap (bodyLen s0 th.ctl.slice.part (slotAdd th.ctl.pc 1) 16 0)) s0 (some n) s0 → Runs (rd1 h (.w r)) s0 0 s1 →
       exec (.rep h r wi vb vs vt va) s = retired t h (.goto (slotAdd th.ctl.pc (n + 1))) s1) ∧
     (Runs (orTrap (bodyLen s0 th.ctl.slice.part (slotAdd th.ctl.pc 1) 16 0)) s0 (some n) s0 → Runs (rd1 h (.w r)) s0 x s1 → x ≠ 0 →
       s1.cur = .thread t →
       exec (.rep h r wi vb vs vt va) s = retired t h (.goto (slotAdd th.ctl.pc 1)) (s1.modThread t fun u => { u with ctl := { u.ctl with
         rep := some ⟨u.ctl.pc, 0, n, r, wi, vb.toNat, vs.toNat + 1, vt.toNat, va.toNat⟩ } }))) ∧
  (∀ (h : Hdr) (t : ThreadId) (th th1 : Thread) (s s0 s1 s2 s3 : State) (r : Reg) (x w : Word) (fr : Nat),
     Issues h t th s s0 → th.ctl.rep = none →
     Runs (rd1 h (.w r)) s0 x s1 → Runs (rdWin offFrame 2) s1 fr s1 → fr ≠ 0 → Runs (waitClass 3) s1 () s1 →
     Runs (rdWin offCaller 8) s1 w.toNat s1 → Runs (checkWindow w) s1 () s1 → Runs (needLines w) s1 () s1 →
     s1.cur = .thread t → s1.thread? t = some th1 →
     Runs (do putAt w offAtags 2 (tagsOf s1 t th1.ctl); copyTo w offGuards 6; copyTo w offProv 8; copyBook w) s1 () s2 →
     Runs (putAt w offStatus 8 (putBit (threadRead s2 t th1.ctl w offStatus 8) 0 th1.ctl.abmask)) s2 () s3 →
     s3.cur = .thread t →
     exec (.ret h r true) s = retired t h (.goto x) (s3.modThread t fun u => { u with ctl := { u.ctl with wsp := w } }))

/-- R261, R393: RETI in a handler goes back to the interrupted window: the record's TPC, the handler's PROVSET, and the block that STATUS records; the
thread is no longer in its handler, a message that the handler had open goes on outside it, and violations that a trap kept back are due again. R331,
R400, R416: TRAP records its trap for the boundary after it, EXIT outside a handler leaves the slot with its join record updated once nothing of the
thread is outstanding, EXIT in a handler ends the task by the interrupted trap, and YIELD gives up the turn, with its slice flag by a message to the
dispatcher. -/
def Obligations.ReturnsAndEndsComplete : Prop :=
  (∀ (h : Hdr) (t : ThreadId) (th : Thread) (s s0 s1 : State) (w : Word),
     Issues h t th s s0 → th.ctl.rep = none → th.ctl.intrap = true →
     w = BitVec.ofNat 64 (threadRead s0 t th.ctl th.ctl.hwsp offCaller 8) →
     Runs (checkWindow w) s0 () s0 → Runs (needLines w) s0 () s0 →
     Runs (do putAt w offProv 8 (threadRead s0 t th.ctl th.ctl.hwsp offProv 8); installExtension w) s0 () s1 → s1.cur = .thread t →
     exec (.reti h) s = retired t h (.goto (BitVec.ofNat 64 (threadRead s0 t th.ctl w offTpc 8)))
       (s1.modThread t fun u => { u with
         openMsg := u.openMsg.map fun m => { m with byHandler := false }
         due := { u.due with violations := u.due.kept ++ u.due.violations, kept := [] }
         ctl := { u.ctl with
         wsp := w, intrap := false
         rep := resumeBlock s0 th.ctl.slice.part (threadRead s0 t th.ctl w offPcsave 8) (threadRead s0 t th.ctl w offStatus 8)
           (BitVec.ofNat 64 (threadRead s0 t th.ctl w offTpc 8))
         repBnd := (resumeBlock s0 th.ctl.slice.part (threadRead s0 t th.ctl w offPcsave 8) (threadRead s0 t th.ctl w offStatus 8)
             (BitVec.ofNat 64 (threadRead s0 t th.ctl w offTpc 8))).isSome &&
           (threadRead s0 t th.ctl w offStatus 8).testBit 4 &&
           decide (threadRead s0 t th.ctl w offTpc 8 = threadRead s0 t th.ctl w offPcsave 8) } })) ∧
  (∀ (h : Hdr) (t : ThreadId) (th th1 : Thread) (s s0 s1 : State) (info : Opnd) (code : BitVec 8) (x : Word) (dl : Reg),
     Issues h t th s s0 → th.ctl.rep = none →
     (Runs (rd1 h info) s0 x s1 → s1.cur = .thread t →
       exec (.trap h info code) s = retired t h .seq
         (dueAfter s1 t (some ⟨code.toNat, false, 0, BitVec.ofNat 64 (2 ^ 63 + x.toNat % 2 ^ 63)⟩))) ∧
     (Runs (do sampleAbort; waitStores; waitClass 3; waitAccesses) s0 () s0 → th.ctl.intrap = false →
       exec (.exit h) s = retired t h .gone
         (takeAfter (leaveTask (if th.ctl.joinRec = 0 then s0 else joinUpdate s0 t th.ctl.slice th.ctl.joinRec false 0) t) t)) ∧
     (Runs (do sampleAbort; waitStores; waitClass 3; waitAccesses) s0 () s0 → th.ctl.intrap = true →
       exec (.exit h) s = .next (setPhase (s0.modThread t fun u => { u with endCause := some (interruptedRecord s0 t th.ctl) }) t .ending)) ∧
     (Issues { h with ya := true } t th s s0 → Runs sampleAbort s0 () s0 →
       exec (.yield h false dl) s = retired t { h with ya := true } .seq s0) ∧
     (dl ≠ 0 → Runs sampleAbort s0 () s0 → Runs (rd1 h (.w dl)) s0 x s1 → Runs waitAccesses s1 () s1 →
       s1.cur = .thread t → s1.thread? t = some th1 →
       exec (.yield h true dl) s = retired t h .seq { s1 with nt := { s1.nt with yields := s1.nt.yields ++ [⟨t, th1.ctl.slice, some x⟩] } }) ∧
     (Runs sampleAbort s0 () s0 → Runs waitAccesses s0 () s0 →
       exec (.yield h true 0) s = retired t h .seq { s0 with nt := { s0.nt with yields := s0.nt.yields ++ [⟨t, th.ctl.slice, none⟩] } }))

/-- R343, R365: NOP and the guard instructions: GSET from an operand and from a constant, GMOV both ways, and GLOG. R97, R324: CSRR of a register the
thread may read, and CSRW outside a REP body of a register it may write. -/
def Obligations.GuardsAndControlRegistersComplete : Prop :=
  (∀ (h : Hdr) (t : ThreadId) (th : Thread) (s s0 s1 s2 : State) (a : Opnd) (r : Reg) (x : Word) (n : Nat)
    (gd ga gb : BitVec 3) (ia ib p q : Bool) (op : BitVec 2),
     Issues h t th s s0 →
     exec (.nop h) s = retired t h .seq s0 ∧
     (Runs (rd1 h a) s0 x s1 → Runs (setGuard gd (x != 0)) s1 () s2 → exec (.gset h gd (.reg a)) s = retired t h .seq s2) ∧
     (Runs (setGuard gd false) s0 () s1 → exec (.gset h gd .f) s = retired t h .seq s1) ∧
     (Runs (setGuard gd true) s0 () s1 → exec (.gset h gd .t) s = retired t h .seq s1) ∧
     (Runs guardsSettled s0 () s0 → Runs guardBits s0 n s0 → Runs (wrReg r (BitVec.ofNat 64 (n / 2 * 2 + 1))) s0 () s1 →
       exec (.gmov h (.r r)) s = retired t h .seq s1) ∧
     (Runs (rd1 h a) s0 x s1 → Runs (wrWin offGuards 1 (x.toNat % 256 / 2 * 2 + 1)) s1 () s2 →
       exec (.gmov h (.w a)) s = retired t h .seq s2) ∧
     (Runs (rdGuard ga.toNat) s0 p s0 → Runs (rdGuard gb.toNat) s0 q s0 →
       Runs (setGuard gd (glogOp op.toNat (p != ia) (q != ib))) s0 () s1 → exec (.glog h gd ga gb ia ib op) s = retired t h .seq s1)) ∧
  (∀ (h : Hdr) (t : ThreadId) (th : Thread) (s s0 s1 s2 : State) (a : Opnd) (r : Reg) (x : Word) (n : BitVec 12),
     Issues h t th s s0 →
     (Runs (readCsr n.toNat) s0 x s1 → Runs (wrReg r x) s1 () s2 → exec (.csrr h r n) s = retired t h .seq s2) ∧
     (th.ctl.rep = none → mayWriteCsr th.ctl n.toNat = true → Runs (rd1 h a) s0 x s1 → Runs (writeCsr n.toNat x) s1 () s2 →
       exec (.csrw h a n) s = retired t h .seq s2))

/-- R308, R382, R384: OVFT and PLACEW in privileged mode, with a table and an entry that are legal; ABORT and ABCHK in either mode. R205, R206, R340,
R415: FENCE orders the paths at its scope once the thread's stores of named tiles are acknowledged, and XFENCE completes when no access of the paths
it names is still to be performed at its scope. R327, R413, R414: WSPSW outside a handler to a workspace that may be entered; DBG; and WAITEV when the
word differs from the value expected, or its wait is over, or its limit is not ahead. -/
def Obligations.SystemInstructionsComplete : Prop :=
  (∀ (h : Hdr) (t : ThreadId) (th : Thread) (s s0 s1 s2 : State) (a b : Opnd) (src : Src) (x y : Word) (gd : BitVec 3),
     Issues h t th s s0 →
     (th.ctl.priv = true → Runs (ovftTable h src) s0 x s1 → ovTableOk x = true → Runs (wrWin offBook 8 x.toNat) s1 () s2 →
       exec (.ovft h src) s = retired t h .seq s2) ∧
     (th.ctl.priv = true → Runs (rd2 h a (.op b)) s0 (x, y) s1 → x.toNat ≤ 191 → wfield y 16 48 = 0 → wfield y 8 7 = 0 →
       (bitAt y 15 = true → wfield y 0 8 ≤ 203) → s1.cur = .thread t →
       exec (.placew h a b) s = retired t h .seq (s1.modCore t.core fun r => { r with place := tput r.place x.toNat y.toNat })) ∧
     (exec (.abort h false) s = retired t h .seq (s0.modSlice th.ctl.slice fun r =>
       { r with abort := t.core.cluster :: r.abort.filter (· ≠ t.core.cluster) })) ∧
     (exec (.abort h true) s = retired t h .seq (s0.modSlice th.ctl.slice fun r =>
       { r with abort := r.abort.filter (· ≠ t.core.cluster) })) ∧
     (Runs (setGuard gd (abortRaised s0 t th.ctl)) s0 () s1 → exec (.abchk h gd) s = retired t h .seq s1)) ∧
  (∀ (h : Hdr) (t : ThreadId) (th : Thread) (s s0 : State) (scope : BitVec 3) (fr dest : BitVec 6),
     Issues h t th s s0 →
     (Runs waitStores s0 () s0 → scope = 0 →
       exec (.fence h scope) s = retired t h .seq (s0.modThread t fun u =>
         { u with fences := (nrange 1 5).foldl (fun l p => tput l p s0.opId) u.fences })) ∧
     (Runs waitStores s0 () s0 → scope = 1 →
       exec (.fence h scope) s = retired t h .seq ((s0.modThread t fun u =>
         { u with fences := (nrange 1 5).foldl (fun l p => tput l p s0.opId) u.fences }).modThread t fun u => { u with seen := s0.opId })) ∧
     (Runs waitStores s0 () s0 → 2 ≤ scope.toNat →
       exec (.fence h scope) s = retired t h .seq (dropExt t.core (dropOperands t.core (syncP t (s0.modThread t fun u =>
         { u with fences := (nrange 0 6).foldl (fun l p => tput l p s0.opId) u.fences }))))) ∧
     ((∀ p, p < 6 → fr.getLsbD p = true → pathBusy s0 t (slotGen s0 t) p scope.toNat s0.opId = false) →
       exec (.xfence h scope fr dest) s = retired t h .seq
         (let s := if dest.getLsbD 0 && decide (2 ≤ scope.toNat) then syncP t s0 else s0
          let s := if dest.getLsbD 4 then dropOperands t.core s else s
          if dest.getLsbD 5 then dropExt t.core s else s))) ∧
  (∀ (h : Hdr) (t : ThreadId) (th th1 : Thread) (s s0 s1 s2 s3 s4 s5 s6 : State) (d r a : Reg) (e lim : Opnd) (w av ev tv : Word) (x : Addr)
     (v : Nat) (gd : BitVec 3) (code : BitVec 16),
     Issues h t th s s0 →
     (th.ctl.rep = none → th.ctl.intrap = false → Runs (rd1 h (.w r)) s0 w s1 → Runs (checkPlacement w) s1 () s1 →
       Runs (waitClass 2) s1 () s1 → Runs (waitClass 3) s1 () s1 → (wfield w 54 2 = 3 → Runs (checkWindow w) s1 () s1) →
       Runs (needLines w) s1 () s1 → Runs (freshLines w) s1 () s2 → s2.cur = .thread t → s2.thread? t = some th1 →
       Runs (do putAt w offStatus 8 (statusWord th1); copyTo w offProv 8; copyTo w offBook 24) s2 () s3 → s3.cur = .thread t →
       Runs (putAt th.ctl.wsp offAtags 2 (tagsOf s3 t th.ctl)) s3 () s4 → s4.cur = .thread t →
       s5 = s4.modThread t (fun u => { u with ctl := { u.ctl with wsp := w } }) →
       Runs (wrReg d th.ctl.wsp) (setAccTags s5 t.core th.ctl.slice (threadRead s5 t th.ctl w offAtags 2)) () s6 →
       exec (.wspsw h d r) s = retired t h .seq s6) ∧
     (exec (.dbg h code) s =
       .next (dbgArrives (markIssue (retire t h.eog .seq { s0 with opId := s0.opId + 1 }) t h.ya) t code.toNat)) ∧
     (Runs (waitOpnds h [.w a, e, lim] []) s0 () s1 → Runs (rdOpnd h (.w a)) s1 av s2 → Runs (bankAddr av 8) s2 x s2 →
       Runs (rdOpnd h e) s2 ev s3 → Runs (rdOpnd h lim) s3 tv s4 → Runs (bankRead av x 8) s4 v s5 → s5.cur = .thread t →
       s5.thread? t = some th1 →
       (th1.watch.isSome = true ∨ BitVec.ofNat 64 v ≠ ev ∨ tv.toNat ≤ s5.dtime.toNat) →
       Runs (do wrReg d (BitVec.ofNat 64 v); setGuard gd (BitVec.ofNat 64 v != ev)) s5 () s6 →
       exec (.waitev h gd d a e lim) s = retired t h .seq s6))

/-- R131, R330, R333, R334: in binary mode FADD, FSUB, FMUL, FMA, FMIN and FMAX write the result of the operands' values in the instruction's format,
which the mode assigns, and raise its flags; FDIV and FSQRT enter the divider with theirs. R335 to R338: in binary mode FCMP sets its guard, FCLASS
and FSGN write their register and raise no flag, and FCVT between formats other than slash64 converts, raises flags and does so in either mode. -/
def Obligations.BinaryFloatInstructionsComplete : Prop :=
  (∀ (h : Hdr) (t : ThreadId) (th : Thread) (s s0 s1 s2 : State) (d : Reg) (a b c : Opnd) (x y z : Word) (fmt : BitVec 2) (k : Captured)
     (f : Fmt) (u v w : Nat),
     Issues h t th s s0 → (∀ i, badFormat i fmt s = none) → Runs capture s0 k s0 → k.qmode = false → f = fmtQ fmt →
     u = x.toNat % 2 ^ f.bits → v = y.toNat % 2 ^ f.bits → w = z.toNat % 2 ^ f.bits →
     (Runs (do waitOpnds h [a, b] []; rdAll h [a, b]) s0 [(a, x), (b, y)] s1 →
       (Runs (do wrReg d (BitVec.ofNat 64 (addF k f u v).bits); raiseFlags (addF k f u v).flags) s1 () s2 →
         exec (.fadd h d a b fmt) s = retired t h .seq s2) ∧
       (Runs (do wrReg d (BitVec.ofNat 64 (subF k f u v).bits); raiseFlags (subF k f u v).flags) s1 () s2 →
         exec (.fsub h d a b fmt) s = retired t h .seq s2) ∧
       (Runs (do wrReg d (BitVec.ofNat 64 (mulF k f u v).bits); raiseFlags (mulF k f u v).flags) s1 () s2 →
         exec (.fmul h d a b fmt) s = retired t h .seq s2) ∧
       (Runs (do wrReg d (BitVec.ofNat 64 (minMaxF false k f u v).bits); raiseFlags (minMaxF false k f u v).flags) s1 () s2 →
         exec (.fmin h d a b fmt) s = retired t h .seq s2) ∧
       (Runs (do wrReg d (BitVec.ofNat 64 (minMaxF true k f u v).bits); raiseFlags (minMaxF true k f u v).flags) s1 () s2 →
         exec (.fmax h d a b fmt) s = retired t h .seq s2) ∧
       (Runs (enterDiv [(d.val, BitVec.ofNat 64 (divF k f u v).bits)] none (divF k f u v).flags) s1 () s2 →
         exec (.fdiv h d a b fmt) s = retired t h .seq s2)) ∧
     (Runs (do waitOpnds h [a, b, c] []; rdAll h [a, b, c]) s0 [(a, x), (b, y), (c, z)] s1 →
       Runs (do wrReg d (BitVec.ofNat 64 (fmaF k f u v w).bits); raiseFlags (fmaF k f u v w).flags) s1 () s2 →
       exec (.fma h d a b c fmt) s = retired t h .seq s2) ∧
     (Runs (do waitOpnds h [a] []; rdAll h [a]) s0 [(a, x)] s1 →
       Runs (enterDiv [(d.val, BitVec.ofNat 64 (sqrtF k f u).bits)] none (sqrtF k f u).flags) s1 () s2 →
       exec (.fsqrt h d a fmt) s = retired t h .seq s2)) ∧
  (∀ (h : Hdr) (t : ThreadId) (th : Thread) (s s0 s1 s2 : State) (d : Reg) (a b : Opnd) (x y : Word) (fmt op : BitVec 2) (k : Captured)
     (gd : BitVec 3) (cond src dst : BitVec 4) (f : Fmt) (o : Option Ordering) (fl : Nat),
     Issues h t th s s0 → (∀ i, badFormat i fmt s = none) → Runs capture s0 k s0 → f = fmtQ fmt →
     (k.qmode = false → Runs (rd2 h a (.op b)) s0 (x, y) s1 → fcmpBin k f cond.toNat (x.toNat % 2 ^ f.bits) (y.toNat % 2 ^ f.bits) = (o, fl) →
       Runs (do setGuard gd (fcmpHolds cond.toNat o); raiseFlags fl) s1 () s2 → exec (.fcmp h gd a b fmt cond) s = retired t h .seq s2) ∧
     (k.qmode = false → Runs (rd1 h a) s0 x s1 → Runs (wrReg d (BitVec.ofNat 64 (classBin f (x.toNat % 2 ^ f.bits)))) s1 () s2 →
       exec (.fclass h d a fmt) s = retired t h .seq s2) ∧
     (k.qmode = false → op = 0 ∨ op = 3 → Runs (rd2 h a (.op b)) s0 (x, y) s1 → Runs (wrReg d (fsgnW op.toNat f.bits x y)) s1 () s2 →
       exec (.fsgn h d a b op fmt) s = retired t h .seq s2) ∧
     (k.qmode = false → op = 1 ∨ op = 2 → Runs (rd1 h a) s0 x s1 → Runs (wrReg d (fsgnW op.toNat f.bits x x)) s1 () s2 →
       exec (.fsgn h d a b op fmt) s = retired t h .seq s2) ∧
     (src ≠ 6 → dst ≠ 6 → Runs (rd1 h a) s0 x s1 →
       Runs (do wrReg d (BitVec.ofNat 64 (convertF k src.toNat dst.toNat x.toNat).bits); raiseFlags (convertF k src.toNat dst.toNat x.toNat).flags)
         s1 () s2 →
       exec (.fcvt h d a src dst) s = retired t h .seq s2))

/-- R131, R132, R134, R141: in rational mode the instructions of class 3 read slash64 operands whose K is below 57 and enter the GCD unit with the
exact result and the operands' flag. R140, R338, R388: the instructions over slash64 values in either mode: QMAKE, QNUM, QDEN, QCF, and FCVT with
slash64 on one side. R141, R142: the completion of an operation of a core's GCD unit writes its registers, its guard and its flags in the workspace
that issued it, and frees its place in the unit. -/
def Obligations.RationalAndSlashComplete : Prop :=
  (∀ (h : Hdr) (t : ThreadId) (th : Thread) (s s0 s1 s2 : State) (d : Reg) (a b c : Opnd) (x y z : Word) (k : Captured)
   (gd : BitVec 3) (cond : BitVec 4) (op : BitVec 2) (u v w : QV),
     Issues h t th s s0 → Runs capture s0 k s0 → k.qmode = true →
     u = slashValue x.toNat → v = slashValue y.toNat → w = slashValue z.toNat →
     (Runs (do waitOpnds h [a, b] []; rdAll h [a, b]) s0 [(a, x), (b, y)] s1 → Runs (do gcdReady [d.val] 0; checkKs [(a, x), (b, y)]) s1 () s1 →
       (Runs (enterGcd [(d.val, BitVec.ofNat 64 (addQV k u v).bits)] none ((addQV k u v).flags ||| qrAll [(a, x), (b, y)])) s1 () s2 →
         exec (.fadd h d a b 0) s = retired t h .seq s2) ∧
       (Runs (enterGcd [(d.val, BitVec.ofNat 64 (addQV k u v.neg).bits)] none ((addQV k u v.neg).flags ||| qrAll [(a, x), (b, y)])) s1 () s2 →
         exec (.fsub h d a b 0) s = retired t h .seq s2) ∧
       (Runs (enterGcd [(d.val, BitVec.ofNat 64 (mulQV k u v).bits)] none ((mulQV k u v).flags ||| qrAll [(a, x), (b, y)])) s1 () s2 →
         exec (.fmul h d a b 0) s = retired t h .seq s2) ∧
       (Runs (enterGcd [(d.val, BitVec.ofNat 64 (divQV k u v).bits)] none ((divQV k u v).flags ||| qrAll [(a, x), (b, y)])) s1 () s2 →
         exec (.fdiv h d a b 0) s = retired t h .seq s2) ∧
       (Runs (enterGcd [(d.val, BitVec.ofNat 64 (minMaxQV false u v).bits)] none ((minMaxQV false u v).flags ||| qrAll [(a, x), (b, y)])) s1 () s2 →
         exec (.fmin h d a b 0) s = retired t h .seq s2) ∧
       (Runs (enterGcd [(d.val, BitVec.ofNat 64 (minMaxQV true u v).bits)] none ((minMaxQV true u v).flags ||| qrAll [(a, x), (b, y)])) s1 () s2 →
         exec (.fmax h d a b 0) s = retired t h .seq s2)) ∧
     (Runs (do waitOpnds h [a, b, c] []; rdAll h [a, b, c]) s0 [(a, x), (b, y), (c, z)] s1 →
       Runs (do gcdReady [d.val] 0; checkKs [(a, x), (b, y), (c, z)]) s1 () s1 →
       Runs (enterGcd [(d.val, BitVec.ofNat 64 (fmaQV k u v w).bits)] none ((fmaQV k u v w).flags ||| qrAll [(a, x), (b, y), (c, z)])) s1 () s2 →
       exec (.fma h d a b c 0) s = retired t h .seq s2) ∧
     (Runs (do waitOpnds h [a] []; rdAll h [a]) s0 [(a, x)] s1 → Runs (do gcdReady [d.val] 0; checkKs [(a, x)]) s1 () s1 →
       Runs (enterGcd [(d.val, BitVec.ofNat 64 (sqrtQV k u).bits)] none ((sqrtQV k u).flags ||| qrAll [(a, x)])) s1 () s2 →
       exec (.fsqrt h d a 0) s = retired t h .seq s2) ∧
     (Runs (rd2 h a (.op b)) s0 (x, y) s1 → Runs (do gcdReady [] gd.toNat; checkKs [(a, x), (b, y)]) s1 () s1 →
       Runs (enterGcd [] (some (gd.toNat, fcmpHolds cond.toNat (fcmpRat u v))) (qrAll [(a, x), (b, y)])) s1 () s2 →
       exec (.fcmp h gd a b 0 cond) s = retired t h .seq s2) ∧
     (Runs (rd1 h a) s0 x s1 → Runs (do gcdReady [d.val] 0; checkK a x) s1 () s1 →
       Runs (enterGcd [(d.val, BitVec.ofNat 64 (classRat x.toNat))] none (qrOf x.toNat)) s1 () s2 →
       exec (.fclass h d a 0) s = retired t h .seq s2) ∧
     (op = 0 ∨ op = 3 → Runs (rd2 h a (.op b)) s0 (x, y) s1 → Runs (enterGcd [(d.val, fsgnW op.toNat 64 x y)] none 0) s1 () s2 →
       exec (.fsgn h d a b op 0) s = retired t h .seq s2) ∧
     (op = 1 ∨ op = 2 → Runs (rd1 h a) s0 x s1 → Runs (enterGcd [(d.val, fsgnW op.toNat 64 x x)] none 0) s1 () s2 →
       exec (.fsgn h d a b op 0) s = retired t h .seq s2)) ∧
  (∀ (h : Hdr) (t : ThreadId) (th : Thread) (s s0 s1 s2 : State) (d e : Reg) (a b : Opnd) (x y i r : Word) (k : Captured) (sgn g : Bool)
     (gd : BitVec 3) (src dst : BitVec 4) (fl : Nat),
     Issues h t th s s0 →
     (Runs capture s0 k s0 → Runs (rd2 h a (.op b)) s0 (x, y) s1 → Runs (gcdReady [d.val] 0) s1 () s1 →
       Runs (enterGcd [(d.val, BitVec.ofNat 64 (makeQ k (valOf sgn 64 x) (valOf sgn 64 y)).bits)] none (makeQ k (valOf sgn 64 x) (valOf sgn 64 y)).flags)
         s1 () s2 →
       exec (.qmake h d a b sgn) s = retired t h .seq s2) ∧
     (Runs (rd1 h a) s0 x s1 → Runs (do gcdReady [d.val] 0; checkK a x) s1 () s1 →
       (Runs (enterGcd [(d.val, qnumW (slashValue x.toNat))] none (qrOf x.toNat)) s1 () s2 → exec (.qnum h d a) s = retired t h .seq s2) ∧
       (Runs (enterGcd [(d.val, qdenW (slashValue x.toNat))] none (qrOf x.toNat)) s1 () s2 → exec (.qden h d a) s = retired t h .seq s2)) ∧
     (Runs (rd1 h a) s0 x s1 → Runs (do gcdReady [d.val, e.val] gd.toNat; checkK a x) s1 () s1 → qcfStep (slashValue x.toNat) = (i, r, g, fl) →
       Runs (enterGcd [(d.val, i), (e.val, r)] (some (gd.toNat, g)) (fl ||| qrOf x.toNat)) s1 () s2 →
       exec (.qcf h gd d e a) s = retired t h .seq s2) ∧
     (Runs capture s0 k s0 → Runs (rd1 h a) s0 x s1 → Runs (gcdReady [d.val] 0) s1 () s1 → (src = 6 → Runs (checkK a x) s1 () s1) →
       src = 6 ∨ dst = 6 →
       Runs (enterGcd [(d.val, BitVec.ofNat 64 (convertQ k src.toNat dst.toNat x.toNat).bits)] none (convertQ k src.toNat dst.toNat x.toNat).flags)
         s1 () s2 →
       exec (.fcvt h d a src dst) s = retired t h .seq s2)) ∧
  (∀ (s : State) (c : CoreId) (k : Nat) (o : LongOp),
     (s.core c).gcd[k]? = some o →
     exec (.gcdOpComplete c k) s = .next
       (let w := s.modCore c fun r => { r with gcd := dropAt r.gcd k }
        let w := o.regs.foldl (fun s r => putRegAt s o.t o.slice o.wsp r.1 r.2) w
        let w := match o.guard with
          | some (g, b) => putGuardAt w o.t o.slice o.wsp g b
          | none => w
        orFlagsAt w o.t o.slice o.wsp o.flags))

/-- R103, R151, R357, R383, R398: LD at an aligned address with a translation reads SZ bytes and writes them extended; ST enters its bytes in the
store queue, once the thread's provisional roots are confirmed; PF whose operands are read fetches its line where the page allows it, and otherwise
only goes on. -/
def Obligations.PlainMemoryInstructionsComplete : Prop :=
  ∀ (h : Hdr) (t : ThreadId) (th th1 : Thread) (s s0 s1 s2 s3 s4 s5 : State) (d : Reg) (src b : Opnd) (x : Src) (a v : Word) (pa n m : Nat)
    (scope : BitVec 3) (ord sz : BitVec 2) (sgn : Bool),
    Issues h t th s s0 → n = Machine.sizeOf sz →
    (ord ≠ 1 → Runs (baseIndex h b x) s0 a s1 → Runs (plainAddr a n .rd) s1 pa s2 → Runs (fenceHold 0) s2 () s2 → Runs (plainRead h.hint.toNat a pa n) s2 m s3 →
      Runs (wrReg d (extend sgn (8 * n) m)) s3 () s4 → exec (.ld h d b x ord scope sz sgn) s = retired t h .seq s4) ∧
    (Runs (baseIndex h b x) s0 a s1 → Runs (plainAddr a n .rd) s1 pa s2 → Runs (fenceHold 0) s2 () s2 →
      Runs (acquirePlain pa scope.toNat) s2 () s3 → Runs (plainRead h.hint.toNat a pa n) s3 m s4 →
      Runs (wrReg d (extend sgn (8 * n) m)) s4 () s5 → exec (.ld h d b x 1 scope sz sgn) s = retired t h .seq s5) ∧
    (Runs (do waitOpnds h (allSrcs [src, b] x) []; baseIndex h b x) s0 a s1 → Runs (plainAddr a n .wr) s1 pa s2 → Runs waitConfirmed s2 () s2 →
      Runs (rdOpnd h src) s2 v s3 →
      Runs (queueStore pa n (v.toNat % 2 ^ (8 * n)) (if ord = 2 then some scope.toNat else none)) s3 () s4 →
      exec (.st h src b x ord scope sz) s = retired t h .seq s4) ∧
    (Runs (baseIndex h b x) s0 a s1 → s1.cur = .thread t → s1.thread? t = some th1 → prefetchLine s1 t th1.ctl.slice.part a = none →
      exec (.pf h b x) s = retired t h .seq s1) ∧
    (Runs (baseIndex h b x) s0 a s1 → s1.cur = .thread t → s1.thread? t = some th1 → prefetchLine s1 t th1.ctl.slice.part a = some pa →
      exec (.pf h b x) s = retired t h .seq
        (if h.hint = 1 ∨ h.hint = 4 then touchPlain s1 t.core pa else fillL1 (touchPlain s1 t.core pa) t.core (addrHbm t.core.pkg pa)))

/-- R146, R148, R341, R359, R399: LDS and STS in window space and at a bank, FEQRY and FESET, with an address that is aligned and in the thread's
view. The full/empty access of a bank is `access`. R312: ATOM and CAS of 4 or 8 bytes at an aligned local address of SPACE 0 or 1 that no barrier
object types, once the thread's provisional roots are confirmed, do their operation at the bank. -/
def Obligations.LocalMemoryInstructionsComplete : Prop :=
  (∀ (h : Hdr) (t : ThreadId) (th : Thread) (s s0 s1 s2 s3 s4 : State) (d ra rm : Reg) (src b : Opnd) (x : Src) (a v m : Word) (n : Nat)
     (p : Int) (y : Addr) (o : CoreId ⊕ ClusterId) (scope : BitVec 3) (ord sz fe : BitVec 2) (sgn f : Bool) (i : BitVec 16),
     Issues h t th s s0 → n = Machine.sizeOf sz → a.toNat % n = 0 →
     (ord ≠ 1 → Runs (baseIndex h b x) s0 a s1 → Runs (localAt a n false) s1 (.window p y) s2 → Runs (windowLoad y a n sgn d) s2 () s3 →
       exec (.lds h d b x ord scope sz sgn 0) s = retired t h .seq s3) ∧
     (Runs (baseIndex h b x) s0 a s1 → Runs (localAt a n false) s1 (.window p y) s2 →
       Runs (do acquireAt y scope.toNat; windowLoad y a n sgn d) s2 () s3 →
       exec (.lds h d b x 1 scope sz sgn 0) s = retired t h .seq s3) ∧
     (Runs (baseIndex h b x) s0 a s1 → Runs (localAt a n false) s1 (.bank y o) s2 →
       Runs (access h s0 (allSrcs [b] x) y o a (if ord = 1 then some scope.toNat else none) none (.load n sgn fe.toNat d.val)) s2 () s3 →
       exec (.lds h d b x ord scope sz sgn fe) s = retired t h .seq s3) ∧
     (Runs (do waitOpnds h (allSrcs [src, b] x) []; baseIndex h b x) s0 a s1 → Runs (localAt a n true) s1 (.window p y) s2 → Runs (rdOpnd h src) s2 v s3 →
       Runs (do
         markDirty a
         holdRelease y n (if ord = 2 then some scope.toNat else none)
         maskedStore a n (v.toNat % 2 ^ (8 * n)) fun w => do
           bankStore y n w
           leaveTag y n (if ord = 2 then some scope.toNat else none)) s3 () s4 →
       exec (.sts h src b x ord scope sz false) s = retired t h .seq s4) ∧
     (Runs (do waitOpnds h (allSrcs [src, b] x) []; baseIndex h b x) s0 a s1 → Runs (localAt a n true) s1 (.bank y o) s2 → Runs waitConfirmed s2 () s2 →
       Runs (rdOpnd h src) s2 v s3 →
       Runs (maskedStore a n (v.toNat % 2 ^ (8 * n)) fun w =>
         access h s0 (allSrcs [b, src] x) y o a none (if ord = 2 then some scope.toNat else none) (.store n w f)) s3 () s4 →
       exec (.sts h src b x ord scope sz f) s = retired t h .seq s4) ∧
     (Runs (rd1 h (.w ra)) s0 v s1 → Runs (granuleRange v i.toNat) s1 (y, o) s2 →
       Runs (access h s0 [.w ra] y o v none none (.feqry i.toNat d.val)) s2 () s3 → exec (.feqry h d ra i) s = retired t h .seq s3) ∧
     (Runs (rdRegs2 ra rm) s0 (v, 0) s1 → wfield v 54 2 ≠ 3 → v.toNat % 16 = 0 → exec (.feset h ra rm f) s = retired t h .seq s1) ∧
     (Runs (rdRegs2 ra rm) s0 (v, m) s1 → m ≠ 0 → Runs (granuleRange v (bitLen m.toNat)) s1 (y, o) s2 →
       Runs (access h s0 [.w ra, .w rm] y o v none none (.feset m.toNat f)) s2 () s3 → exec (.feset h ra rm f) s = retired t h .seq s3)) ∧
  (∀ (h : Hdr) (t : ThreadId) (th th1 : Thread) (s s0 s1 s2 s3 : State) (d ra : Reg) (v e : Opnd) (a y z : Word) (n : Nat) (x : Addr)
     (o : CoreId ⊕ ClusterId) (scope gd : BitVec 3) (ord : BitVec 2) (op : BitVec 4) (w32 sgn : Bool) (cap : Captured),
     Issues h t th s s0 → n = (if w32 then 4 else 8) → a.toNat % n = 0 →
     (Runs (do waitOpnds h [.w ra, v] []; rdOpnd h (.w ra)) s0 a s1 → s1.cur = .thread t → s1.thread? t = some th1 →
       resolveLocal s1 t.core th1.ctl.slice a = some (x, o) → Runs (rdOpnd h v) s1 y s2 → s2.typedAt x n = false →
       Runs waitConfirmed s2 () s2 → Runs capture s2 cap s2 →
       Runs (access h s0 [.w ra, v] x o a (if ord.getLsbD 0 then some scope.toNat else none)
         (if ord.getLsbD 1 then some scope.toNat else none) (.atom n op.toNat sgn (y.toNat % 2 ^ (8 * n)) d.val cap)) s2 () s3 →
       exec (.atom h d ra v ord scope op w32 sgn) s = retired t h .seq s3) ∧
     (Runs (do waitOpnds h [.w ra, e, v] []; rdOpnd h (.w ra)) s0 a s1 → s1.cur = .thread t → s1.thread? t = some th1 →
       resolveLocal s1 t.core th1.ctl.slice a = some (x, o) → Runs (do let y ← rdOpnd h e; let z ← rdOpnd h v; return (y, z)) s1 (y, z) s2 →
       s2.typedAt x n = false → Runs waitConfirmed s2 () s2 →
       Runs (access h s0 [.w ra, e, v] x o a (if ord.getLsbD 0 then some scope.toNat else none)
         (if ord.getLsbD 1 then some scope.toNat else none) (.cas n (y.toNat % 2 ^ (8 * n)) (z.toNat % 2 ^ (8 * n)) d.val gd.toNat)) s2 () s3 →
       exec (.cas h gd d ra e v ord scope w32) s = retired t h .seq s3))

/-- R170, R374, R377, R380: NALLOC where its block fits and where it does not, NREL, NDROP, NQRY and NABAND, whose request enters path V, and NCONF
and NREVOKE of a root register, in a partition with speculation on, whose decision is sent out. R194, R375, R376: NST, whose bytes and read count
enter path V with the thread's roots; NST.p, which takes a root first; NLD, whose thread waits for its tile. R307, R378, R379: NRED, whose
contribution enters path V beside a Pending future; NSUB, which enters its subscription with the reel of the name's home. `cnt` is the operand with
the index, number and read count, or the count, step and read count. -/
def Obligations.TileInstructionsComplete : Prop :=
  (∀ (h : Hdr) (t : ThreadId) (th th1 : Thread) (s s0 s1 s2 s3 : State) (j : Src) (d r : Reg) (gd : BitVec 3) (w : Word) (n id : Nat) (ok : Bool),
     Issues h t th s s0 →
     (Runs (nallocSize h j) s0 n s1 → Runs (fenceHold 2) s1 () s1 → s1.cur = .thread t → s1.thread? t = some th1 →
       let p := th1.ctl.slice.part
       let base := ((s1.part p).nextName + 2 ^ n - 1) / 2 ^ n * 2 ^ n
       ((s1.part p).nregion.toNat * 4096 < base + 2 ^ n → Runs (setGuard gd false) s1 () s2 → exec (.nalloc h gd d j) s = retired t h .seq s2) ∧
       (base + 2 ^ n ≤ (s1.part p).nregion.toNat * 4096 →
         Runs (wrReg d (refWord base 0)) (s1.modPart p fun q => { q with nextName := base + 2 ^ n }) () s2 →
         Runs (setGuard gd true) s2 () s3 → exec (.nalloc h gd d j) s = retired t h .seq s3)) ∧
     (Runs (refOperand h r) s0 w s1 → Runs (fenceHold 2) s1 () s1 →
       (Runs (sendV h w (.nrel gd.toNat)) s1 id s2 → exec (.nrel h gd r) s = retired t h .seq s2) ∧
       (Runs (sendV h w (.ndrop gd.toNat)) s1 id s2 → exec (.ndrop h gd r) s = retired t h .seq s2) ∧
       (Runs (sendV h w (.nqry d.val)) s1 id s2 → exec (.nqry h d r) s = retired t h .seq s2) ∧
       (Runs (sendV h w (.naband gd.toNat)) s1 id s2 → exec (.naband h gd r) s = retired t h .seq s2)) ∧
     (bitAt (s.part (viewSlice s t).part).mode 4 = true → Runs (rd1 h (.w r)) s0 w s1 → wfield w 8 56 = 0 →
       Runs (do fenceHold 2; waitTiles) s1 () s1 → s1.cur = .thread t → s1.thread? t = some th1 →
       linksUp s1 th1.ctl.slice.part.pkg (rootHome s1 th1.ctl.slice.part).pkg = true →
       (decideRoot s1 th1.ctl.slice.part w.toNat true = (ok, s2) → Runs (setGuard gd ok) s2 () s3 →
         exec (.nconf h gd r) s = retired t h .seq s3) ∧
       (decideRoot s1 th1.ctl.slice.part w.toNat false = (ok, s2) → Runs (setGuard gd ok) s2 () s3 →
         exec (.nrevoke h gd r) s = retired t h .seq s3))) ∧
  (∀ (h : Hdr) (t : ThreadId) (th th1 : Thread) (s s0 s1 s2 s3 s4 s5 s6 : State) (a : Opnd) (c : Src) (d r : Reg) (x : NldDst) (ref av : Word)
     (size maxsz : BitVec 3) (fmt : BitVec 4) (cons ge p : Bool) (sp : Span) (k id data root : Nat) (roots : List Nat) (dest : NldTo),
     Issues h t th s s0 →
     (Runs (do waitOpnds h ([.w r, a] ++ srcOpnds c) []; refOperand h r) s0 ref s1 →
       Runs (do let av ← rd1 h a; return (av, ← localSpan av (tileBytes size.toNat) 16 true)) s1 (av, sp) s2 →
       Runs (countOperand h c) s2 k s3 → Runs (do fenceHold 2; waitRefused) s3 () s3 →
       s3.cur = .thread t → s3.thread? t = some th1 → th1.nsts.length < 8 → Runs (readSpan av sp) s3 data s4 →
       (Runs myRoots s4 roots s4 → Runs (sendV h ref (.nst size.toNat fmt.toNat k data roots none)) s4 id s5 → s5.cur = .thread t →
         exec (.nst h false d r a c size fmt) s =
           retired t h .seq (s5.modThread t fun y => { y with nsts := y.nsts ++ [⟨id, ref, th1.ctl.pc⟩] })) ∧
       (bitAt (s.part (viewSlice s t).part).mode 4 = true → Runs (takeRoot d) s4 root s5 → Runs myRoots s5 roots s5 →
         Runs (sendV h ref (.nst size.toNat fmt.toNat k data roots (some root))) s5 id s6 → s6.cur = .thread t →
         exec (.nst h true d r a c size fmt) s =
           retired t h .seq (s6.modThread t fun y => { y with nsts := y.nsts ++ [⟨id, ref, th1.ctl.pc⟩] }))) ∧
     ((p = true → bitAt (s.part (viewSlice s t).part).mode 4 = true) → Runs (do chkDest x; waitOpnds h (.w r :: nldSrcs x) []; refOperand h r) s0 ref s1 →
       Runs (nldDest h x (tileBytes maxsz.toNat)) s1 dest s2 →
       Runs (do waitRefused; waitStores; fenceHold 2) s2 () s2 → Runs (reserveSlot dest) s2 () s3 →
       Runs (sendV h ref (.nld d.val dest maxsz.toNat p cons ge)) s3 id s4 →
       exec (.nld h d r x maxsz p cons ge) s = .next (setPhase s4 t .home))) ∧
  (∀ (h : Hdr) (t : ThreadId) (th th1 : Thread) (s s0 s1 s2 s3 s4 s5 : State) (a : Opnd) (c d r : Reg) (ref av cnt loc : Word) (fa : Addr)
     (size : BitVec 3) (fmt : BitVec 4) (wb cons : Bool) (sp : Span) (id data : Nat) (roots : List Nat) (f : Fut) (cb : Fin 16) (b : CbState),
     Issues h t th s s0 → Runs (futLocation d) s0 (loc, fa) s0 →
     (Runs (do waitOpnds h [.w r, a, .w c] []; refOperand h r) s0 ref s1 →
       Runs (do let av ← rd1 h a; return (av, ← localSpan av (tileBytes size.toNat) 16 true)) s1 (av, sp) s2 →
       Runs (rd1 h (.w c)) s2 cnt s3 → wfield cnt 40 24 = 0 → wfield cnt 24 16 ≠ 0 → wfield cnt 0 12 ≤ wfield cnt 12 12 →
       ([1, 2, 3, 9].contains fmt.toNat) = true → Runs (do fenceHold 2; readSpan av sp) s3 data s3 → Runs (makeFuture d loc fa) s3 f s4 →
       Runs myRoots s4 roots s4 →
       Runs (sendV h ref (.nred size.toNat fmt.toNat (wfield cnt 24 16) (wfield cnt 0 12) (wfield cnt 12 12) data roots f)) s4 id s5 →
       exec (.nred h d r a c size fmt) s = retired t h .seq s5) ∧
     (Runs (cbBound cb.val) s0 b s0 → Runs (do waitOpnds h [.w r, .w c] []; refOperand h r) s0 ref s1 → s1.cur = .thread t →
       s1.thread? t = some th1 →
       (s1.tl.subs.any fun x => decide (x.slice = th1.ctl.slice ∧ x.core = t.core ∧ x.cb = cb.val)) = false →
       Runs (rd1 h (.w c)) s1 cnt s2 → wfield cnt 0 24 ≠ 0 → refVer ref + wfield cnt 0 24 ≤ 2 ^ 24 → wfield cnt 56 8 = 0 →
       wb = decide (wfield cnt 40 16 ≠ 0) → (wb = true → tileBytes size.toNat ≤ b.slotSz * 16) →
       (wb = true → Runs waitConfirmed s2 () s2) → Runs (fenceHold 2) s2 () s2 → reelRoom s2 th1.ctl.slice.part (refName ref) = true →
       Runs myRoots s2 roots s2 → Runs (makeFuture d loc fa) s2 f s3 →
       exec (.nsub h d r cb c wb cons size fmt) s = retired t h .seq
         { s3 with
           opId := s3.opId + 1
           tl := { s3.tl with subs := s3.tl.subs ++ [
             { id := s3.opId, t := t, gen := slotGen s1 t, slice := th1.ctl.slice, core := t.core, cb := cb.val, part := th1.ctl.slice.part
               name := refName ref, ver := refVer ref, step := wfield cnt 24 16 + 1, left := wfield cnt 0 24, m := wfield cnt 0 24, wb := wb
               cons := cons, size := size.toNat, fmt := fmt.toNat, count := wfield cnt 40 16, fut := f, waiting := false
               refusals := 0, since := 0, stop := false
               roots := roots }] } }))

/-- R344 to R349: the instructions over futures, outside a REP body, with handles of R42: HINIT at a location whose future can be created; HTEST;
HWAIT of a future that is not Pending under the handle's generation; HCANCEL of one that is Pending and of one that is not; HRESOLVE where the resolve
does not meet a resolved future. -/
def Obligations.FutureInstructionsComplete : Prop :=
  ∀ (h : Hdr) (t : ThreadId) (th th1 : Thread) (s s0 s1 s2 s3 s4 : State) (d a : Reg) (v : Opnd) (gd : BitVec 3) (hw loc x : Word) (p : Addr)
    (f : Fut) (flt : Bool),
    Issues h t th s s0 → th.ctl.rep = none →
    (Runs (futLocation d) s0 (loc, p) s0 → Runs (makeFuture d loc p) s0 f s1 → exec (.hinit h d) s = retired t h .seq s1) ∧
    (Runs (handleOperand a) s0 (hw, p) s0 →
      (Runs (watchMine p 8 false) s0 () s1 → Runs (wrReg d (BitVec.ofNat 64 (s0.rd p 8))) s1 () s2 →
        Runs (setGuard gd !(fsState (s0.rd p 8) = 1 && fsGen (s0.rd p 8) = handleGen hw)) s2 () s3 →
        exec (.htest h gd d a) s = retired t h .seq s3) ∧
      (¬ (fsState (s0.rd p 8) = 1 ∧ fsGen (s0.rd p 8) = handleGen hw) →
        Runs (watchMine p 8 false) s0 () s1 → s1.cur = .thread t →
        Runs (setGuard gd (fsState (s0.rd p 8) = 2 && fsGen (s0.rd p 8) = handleGen hw)) (syncP t s1) () s2 →
        exec (.hwait h gd a) s = retired t h .seq s2) ∧
      (Runs (watchMine p 8 true) s0 () s1 →
        (fsState (s0.rd p 8) = 1 → fsGen (s0.rd p 8) = handleGen hw →
          Runs (setGuard gd true)
            (cancelEngines (futWake (s1.wr p 8 (fsWord 4 (handleGen hw) 0 (fsResult (s0.rd p 8)))) p) p (handleGen hw)) () s2 →
          exec (.hcancel h gd a) s = retired t h .seq s2) ∧
        (¬ (fsState (s0.rd p 8) = 1 ∧ fsGen (s0.rd p 8) = handleGen hw) → Runs (setGuard gd false) s1 () s2 →
          exec (.hcancel h gd a) s = retired t h .seq s2)) ∧
      (Runs (rd1 h v) s0 x s1 → (flt = true → 1 ≤ wfield x 0 32 % 256 ∧ wfield x 0 32 % 256 ≤ 20) → s1.cur = .thread t →
        s1.thread? t = some th1 → ((s1.core t.core).storeq.any fun e => decide (e.t = t ∧ e.gen = slotGen s1 t ∨ e.id < th1.seen)) = false →
        Runs waitConfirmed s1 () s1 →
        (futResolve s1 p (handleGen hw) (if flt then 3 else 2) (wfield x 0 32) = (.done, s2) → Runs (watchMine p 8 true) s2 () s3 →
          Runs (setGuard gd true) s3 () s4 → exec (.hresolve h gd a v flt) s = retired t h .seq s4) ∧
        (futResolve s1 p (handleGen hw) (if flt then 3 else 2) (wfield x 0 32) = (.discarded, s2) →
          Runs (watchMine p 8 true) s2 () s3 → Runs (setGuard gd false) s3 () s4 → exec (.hresolve h gd a v flt) s = retired t h .seq s4)))

/-- R36, R342, R350, R351, R355: outside a REP body: FORK where the deque and the join record have room and where one has none; JOIN of a record with
no child pending, and of one whose child stands at the bottom of the deque, which runs inline; LAUNCH of a descriptor that is legal and of one that is
not; HJOIN where the continuation table and the join record have room and where one has none. -/
def Obligations.TaskInstructionsComplete : Prop :=
  ∀ (h : Hdr) (t : ThreadId) (th th0 th1 : Thread) (s s0 s1 s2 s3 s4 s5 : State) (d a h1 : Reg) (pc arg j h2 : Opnd) (gd : BitVec 3) (vp ok : Bool)
    (p x v jv v1 : Word) (y x1 : Addr) (sp : Span) (m k n : Nat) (rc : TaskRec) (fl : Flow) (second : Option (Word × Addr))
    (w1 w2 : Option Addr) (p1 p2 : Bool),
    Issues h t th s s0 → th.ctl.rep = none → s0.thread? t = some th0 →
    (Runs sampleAbort s0 () s0 → Runs (rd3 h pc arg j) s0 (p, x, jv) s1 → Runs (childRoom jv) s1 ok s1 → Runs waitAccesses s1 () s1 → s1.cur = .thread t →
      s1.thread? t = some th1 →
      (ok = true → dequeRoom s1 t.core = true → Runs (addChild jv) s1 () s2 →
        Runs (setGuard gd true) (pushBottom s2 t.core ⟨th1.ctl.slice, p, x, jv, BitVec.ofNat 64 (threadProv s2 t th1.ctl), 0, 0⟩) () s3 →
        exec (.fork h gd pc arg j) s = retired t h .seq s3) ∧
      ((ok && dequeRoom s1 t.core) = false → Runs (setGuard gd false) s1 () s2 → exec (.fork h gd pc arg j) s = retired t h .seq s2)) ∧
    ((th0.sampled = false → Runs sampleAbort s0 () s0) → Runs (rd1 h (.w a)) s0 v s1 → v ≠ 0 → Runs (joinPlace v) s1 y s1 →
      s1.cur = .thread t → s1.thread? t = some th1 → Runs (watchMine y 16 false) s1 () s2 →
      (joinPending (s1.rd y 16) = 0 → Runs (wrReg d (BitVec.ofNat 64 (joinFailed (s1.rd y 16)))) (syncP t s2) () s3 →
        Runs (setGuard gd (joinFailed (s1.rd y 16) != 0)) s3 () s4 → exec (.join h gd d a) s = retired t h .seq s4) ∧
      (joinPending (s1.rd y 16) ≠ 0 → eligibleAt s2 t = some k → (s2.core t.core).deque[k]? = some rc → rc.join = v →
        rc.slice = th1.ctl.slice → recordAborts s2 t.core rc = false → Runs (runInline k rc) s2 fl s3 →
        exec (.join h gd d a) s = retired t h fl s3)) ∧
    (Runs (rd1 h (.w a)) s0 v s1 → Runs (do waitConfirmed; waitAccesses) s1 () s1 →
      (if vp then sp = [] ∧ wfield v 52 12 = 0 ∧ v.toNat % 64 = 0 ∧ Runs (do let pa ← translate v .rd; plainRead h.hint.toNat v pa 64) s1 m s2
       else Runs (localSpan v 64 64 false) s1 sp s1 ∧ Runs (readSpan v sp) s1 m s2) →
      s2.cur = .thread t → s2.thread? t = some th1 →
      (descCode s2 th1.ctl.slice.part (BitVec.ofNat 512 m) = 0 → heldSlices s2 th1.ctl.slice.part < 1024 →
        submit s2 th1.ctl.slice.part (BitVec.ofNat 512 m) ⟨t.core.quad, true, 0, 0⟩ false = (n, s3) →
        Runs (wrReg d (BitVec.ofNat 64 (n * 2 ^ 32))) s3 () s4 → Runs (setGuard gd true) s4 () s5 →
        exec (.launch h gd d a vp) s = retired t h .seq s5) ∧
      (descCode s2 th1.ctl.slice.part (BitVec.ofNat 512 m) = n + 1 → Runs (wrReg d (BitVec.ofNat 64 (n + 1))) s2 () s3 →
        Runs (setGuard gd false) s3 () s4 → exec (.launch h gd d a vp) s = retired t h .seq s4)) ∧
    (Runs (regBits h1.val) s0 v1 s0 → v1 ≠ 0 → Runs (handleAddr v1) s0 x1 s0 → Runs (secondHandle h2) s0 second s0 →
      Runs (rd3 h pc arg j) s0 (p, x, jv) s1 → Runs (childRoom jv) s1 ok s1 → Runs waitAccesses s1 () s1 → s1.cur = .thread t →
      s1.thread? t = some th1 →
      (ok = true → (s1.core t.core).conts.length < 64 → Runs (addChild jv) s1 () s2 → Runs (contRegister v1 x1) s2 (w1, p1) s3 →
        Runs (match second with
          | some (v2, x2) => contRegister v2 x2
          | none => pure (none, false)) s3 (w2, p2) s4 →
        (let v2 := (second.map (·.1)).getD 0
         let c := bit w1.isSome + bit w2.isSome
         let e : Cont := ⟨⟨th1.ctl.slice, p, x, jv, BitVec.ofNat 64 (threadProv s4 t th1.ctl), v1, v2⟩, v1, v2, w1, w2, p1, p2, c, false⟩
         Runs (setGuard gd true) (if c = 0 then pushDue s4 t.core e else s4.modCore t.core fun r => { r with conts := r.conts ++ [e] }) () s5) →
        exec (.hjoin h gd pc arg j h1 h2) s = retired t h .seq s5) ∧
      ((ok && decide ((s1.core t.core).conts.length < 64)) = false → Runs (setGuard gd false) s1 () s2 →
        exec (.hjoin h gd pc arg j h1 h2) s = retired t h .seq s2))

/-- R307, R321 to R323: CPY and CPYR of a legal count, aligned operands and, at a plain address, a canonical one: the operation enters the flyer
beside a Pending future. `recvs` are the receivers of the copy and `bar` the barrier granule of the reduction. R231, R232, R315: the barrier-object
instructions at an aligned granule in the thread's view: BOINIT with a count that fits, BOARR at a typed granule, BOWAIT where DONE has come with the
generation waited for, be it before, of a granule that is not typed or has another generation, and of one that has not completed, where the thread
waits. R311, R313, R314, R318: BAR with a valid register and no store of the thread's outstanding, at which the thread counts and waits; BARSET of a
register at which nobody has arrived, cleared, and set to a legal rectangle; CBSET at a legal descriptor and unbound; ADV of a consumer with that many
slots filled, and of a producer with that many free. -/
def Obligations.EngineAndBarrierInstructionsComplete : Prop :=
  (∀ (h : Hdr) (t : ThreadId) (th th1 : Thread) (s s0 s1 s2 : State) (d dst src c : Reg) (cmask : BitVec 8) (fmt : BitVec 4) (sk dk : Bool)
     (loc dv sv x : Word) (fa : Addr) (source dest : EngAddr) (recvs : List Recv) (bar : Option (Addr × Nat)) (f : Fut),
     Issues h t th s s0 → Runs (futLocation d) s0 (loc, fa) s0 → Runs (rd3 h (.w dst) (.w src) (.w c)) s0 (dv, sv, x) s1 →
     dv.toNat % 16 = 0 → sv.toNat % 16 = 0 → (dk = true → wfield dv 52 12 = 0) → (sk = true → wfield sv 52 12 = 0) →
     s1.cur = .thread t → s1.thread? t = some th1 → Runs flyerRoom s1 () s1 → Runs waitConfirmed s1 () s1 → Runs (fenceHold 3) s1 () s1 →
     Runs (makeFuture d loc fa) s1 f s2 →
     (wfield x 0 32 ≠ 0 → wfield x 0 32 % 16 = 0 → wfield x 51 12 = 0 → ¬ (bitAt x 63 = true ∧ dk = true) →
       ¬ (cmask ≠ 0 ∧ (dk = true ∨ wfield dv 54 2 ≠ 0)) → Runs (engAddr sv (wfield x 0 32) sk) s1 source s1 →
       (cmask ≠ 0 → Runs (multicast dv (wfield x 0 32) (if bitAt x 63 then some (wfield x 32 19 * 16) else none) cmask.toNat 8) s1 recvs s1) →
       (cmask = 0 → dk = true → Runs (engAddr dv (wfield x 0 32) true) s1 dest s1 ∧ recvs = [⟨t.core, dest, true, none, false⟩]) →
       (cmask = 0 → dk = false → ∃ r, Runs (receiver t.core dv (wfield x 0 32) (if bitAt x 63 then some (wfield x 32 19 * 16) else none)) s1 r s1 ∧
         recvs = [r]) →
       exec (.cpy h d dst src c cmask sk dk) s = retired t h .seq (({ s2 with opId := s2.opId + 1 } : State).modCluster t.core.cluster fun r =>
         { r with copies := r.copies ++ [⟨s2.opId, t, slotGen s1 t, f, source, recvs, wfield x 0 32, 0, false⟩] })) ∧
     (wfield x 0 20 ≠ 0 → ([1, 2, 3, 9].contains fmt.toNat) = true → wfield x 20 12 ≤ wfield x 32 12 → ¬ (bitAt x 63 = true ∧ dk = true) →
       (dk = false → wfield dv 54 2 ≠ 0) → Runs (engAddr sv (wfield x 0 20 * 16) sk) s1 source s1 →
       Runs (engAddr dv (wfield x 0 20 * 16) dk) s1 dest s1 →
       Runs (captureBar dv (if bitAt x 63 then some (wfield x 44 19 * 16) else none)) s1 bar s1 →
       cmask = 0 →
       exec (.cpyr h d dst src c sk dk ⟨fmt, cmask⟩) s = retired t h .seq
         { s2 with
           opId := s2.opId + 1
           nt := { s2.nt with contribs := s2.nt.contribs ++ [
             { id := s2.opId, t := t, gen := slotGen s1 t, fut := f, part := th1.ctl.slice.part, dst := dest, fmt := fmt.toNat
               len := wfield x 0 20 * 16, index := wfield x 20 12, nm1 := wfield x 32 12, src := source, data := none, bar := bar
               resolveOff := false, refused := none, refusals := 0, since := 0 }] } })) ∧
  (∀ (h : Hdr) (t : ThreadId) (th th1 : Thread) (s s0 s1 s2 s3 : State) (a : Reg) (o : Opnd) (c : Src) (gd : BitVec 3) (av cv : Word) (x : Addr),
     Issues h t th s s0 →
     (Runs (rd2 h (.w a) (.op o)) s0 (av, cv) s1 → Runs (boPlace av) s1 x s1 → cv ≠ 0 → cv.toNat < 2 ^ 32 → Runs (fenceHold 3) s1 () s1 →
       (let g := x / 16
        let w := (clearTags x 16 (fireWatches (s1.wr x 16 (boWord ((boGenOf (s1.rd x 16) + 1) % 256) false false 0 cv.toNat)) x 16)).setFull g false
        Runs (watchMine x 16 true) { w with st := { w.st with typed := nins w.st.typed g } } () s2) →
       exec (.boinit h a (some o)) s = retired t h .seq s2) ∧
     (Runs (rd1 h (.w a)) s0 av s1 → Runs (boPlace av) s1 x s1 → Runs (fenceHold 3) s1 () s1 →
       (let g := x / 16
        let w := (clearTags x 16 (fireWatches (s1.wr x 16 (boWord ((boGenOf (s1.rd x 16) + 1) % 256) false false 0 0)) x 16)).setFull g false
        Runs (watchMine x 16 true) { w with st := { w.st with typed := ndel w.st.typed g } } () s2) →
       exec (.boinit h a none) s = retired t h .seq s2) ∧
     ((∀ y, c = .op y → Runs (rd2 h (.w a) (.op y)) s0 (av, cv) s1) →
       (∀ i, c = .imm16 i → Runs (rd1 h (.w a)) s0 av s1 ∧ cv = BitVec.ofNat 64 i.toNat) →
       (∀ i, c = .imm32 i → Runs (rd1 h (.w a)) s0 av s1 ∧ cv = BitVec.ofNat 64 i.toNat) →
       Runs (boPlace av) s1 x s1 → cv.toNat < 2 ^ 32 → s1.typedAt x 16 = true → Runs (fenceHold 3) s1 () s1 → s1.cur = .thread t →
       s1.thread? t = some th1 →
       exec (.boarr h a c) s = retired t h .seq
         { s1 with
           opId := s1.opId + 1
           nt := { s1.nt with boarrs := s1.nt.boarrs ++ [⟨s1.opId, t, slotGen s1 t, th1.ctl.slice, x, boGenOf (s1.rd x 16), cv.toNat, th1.seen⟩] } }) ∧
     (Runs (rd1 h (.w a)) s0 av s1 → Runs (boPlace av) s1 x s1 → Runs (fenceHold 3) s1 () s1 → s1.cur = .thread t → s1.thread? t = some th1 →
       Runs (watchMine x 16 false) s1 () s2 → s2.cur = .thread t →
       (let gen := (th1.boWait.map (·.gen)).getD (boGenOf (s1.rd x 16))
        let here := s1.typedAt x 16 && decide (boGenOf (s1.rd x 16) = gen)
        ((th1.boWait.map (·.done)).getD false = true ∨ here = true ∧ (s1.rd x 16).testBit 0 = true →
           Runs (setGuard gd true) (syncP t s2) () s3 → exec (.bowait h gd a) s = retired t h .seq s3) ∧
        ((th1.boWait.map (·.done)).getD false = false → here = false → Runs (setGuard gd false) s2 () s3 →
           exec (.bowait h gd a) s = retired t h .seq s3) ∧
        ((th1.boWait.map (·.done)).getD false = false → here = true → (s1.rd x 16).testBit 0 = false →
           exec (.bowait h gd a) s = .next (setPhase (s2.modThread t fun y => { y with boWait := some ⟨x, gen, false⟩ }) t (.parked .message)))))) ∧
  (∀ (h : Hdr) (t : ThreadId) (th th1 : Thread) (s s0 s1 s2 : State) (n : BitVec 2) (r : Reg) (sl : SliceRec) (b : BarState) (w a : Word)
     (cb : Fin 16) (off : BitVec 16) (x : Addr) (q : Src) (k m : Nat) (hb : CbState),
     Issues h t th s s0 →
     (Runs sampleAbort s0 () s0 → Runs (myBar n.toNat) s0 b s0 → b.v = true →
       ((s0.core t.core).storeq.any fun e => decide (e.t = t ∧ e.gen = slotGen s0 t ∨ e.id < th.seen)) = false →
       (barSlot t th.ctl.slice ∈ b.arrived → exec (.bar h n) s = .next (setPhase s0 t (.barrier n.toNat 1))) ∧
       (barSlot t th.ctl.slice ∉ b.arrived → barSlot t th.ctl.slice ∈ b.next → exec (.bar h n) s = .next (setPhase s0 t (.barrier n.toNat 2))) ∧
       (barSlot t th.ctl.slice ∉ b.arrived → barSlot t th.ctl.slice ∉ b.next → b.arrived.length < b.nthrM1 + 1 →
         exec (.bar h n) s = .next (setPhase (putBar s0 t.core th.ctl.slice n.toNat
           { b with arrived := b.arrived ++ [barSlot t th.ctl.slice] }) t (.barrier n.toNat 1))) ∧
       (barSlot t th.ctl.slice ∉ b.arrived → barSlot t th.ctl.slice ∉ b.next → b.nthrM1 + 1 ≤ b.arrived.length →
         exec (.bar h n) s = .next (setPhase (putBar s0 t.core th.ctl.slice n.toNat
           { b with next := b.next ++ [barSlot t th.ctl.slice] }) t (.barrier n.toNat 2)))) ∧
     (Runs (myBar n.toNat) s0 b s0 → b.arrived = [] →
       exec (.barset h n none) s = retired t h .seq (putBar s0 t.core th.ctl.slice n.toNat { b with v := false })) ∧
     (Runs (rd1 h (.w r)) s0 w s1 → s1.cur = .thread t → s1.thread? t = some th1 → Runs mySlice s1 sl s1 → wfield w 21 35 = 0 →
       (placePhys s1 t.core (16 * wfield w 4 4 + wfield w 12 4)).isSome = true →
       (placePhys s1 t.core (16 * (wfield w 4 4 + wfield w 0 4) + wfield w 12 4 + wfield w 8 4)).isSome = true →
       rectOk sl t.core.core (wfield w 12 4) (wfield w 8 4) (wfield w 4 4) (wfield w 0 4) (wfield w 16 4) = true →
       Runs (myBar n.toNat) s1 b s1 → b.arrived = [] →
       exec (.barset h n (some r)) s = retired t h .seq (putBar s1 t.core th.ctl.slice n.toNat
         { b with v := true, nthrM1 := wfield w 16 4, x0 := wfield w 12 4, wM1 := wfield w 8 4, y0 := wfield w 4 4, hM1 := wfield w 0 4 })) ∧
     (Runs (handleFree cb.val) s0 () s0 →
       exec (.cbset h cb none) s = retired t h .seq (s0.modCore t.core fun y => { y with cbs := tdel y.cbs (th.ctl.slice, cb.val) })) ∧
     (Runs (rd1 h (.w r)) s0 w s1 → a = w + off.signExtend 64 → resolveLocal s1 t.core th.ctl.slice a = some (x, .inl t.core) →
       a.toNat % 8 = 0 → s1.poisoned x 8 = false → Runs (watchMine x 8 false) s1 () s1 → m = s1.rd x 8 → field m 50 14 = 0 → field m 23 7 = 0 →
       1 ≤ field m 30 12 → field m 30 12 ≤ 2048 → field m 0 23 % 16 = 0 → Runs mySlice s1 sl s1 →
       sl.inData (field m 0 23) ((field m 42 8 + 1) * field m 30 12 * 16) = true → Runs (handleFree cb.val) s1 () s1 →
       Runs (setCb cb.val ⟨field m 42 8, field m 30 12, field m 0 23, 0, 0, 0⟩) s1 () s2 →
       exec (.cbset h cb (some (r, off))) s = retired t h .seq s2) ∧
     (Runs (boCount h q) s0 k s1 → Runs (cbBound cb.val) s1 hb s1 → k ≤ hb.slots → s1.cur = .thread t → s1.thread? t = some th1 →
       ((∀ y ∈ handleSubs s1 t.core th1.ctl.slice cb.val, y.wb = false) → k ≤ hb.filled →
         Runs (do claimHold cb.val; setCb cb.val { hb with c := (hb.c + k) % 2 ^ 32 }) s1 () s2 → exec (.adv h cb q false) s = retired t h .seq s2) ∧
       ((∀ y ∈ handleSubs s1 t.core th1.ctl.slice cb.val, y.wb = true) → k ≤ hb.room →
         Runs (do fillSlots hb k hb.p; setCb cb.val { hb with p := (hb.p + k) % 2 ^ 32 }) s1 () s2 →
         exec (.adv h cb q true) s = retired t h .seq s2)))

/-- R402, R403: the element-wise arithmetic of a Float tag and of an Int tag: lane j of the result, written under the mask. `f` is the format of a
Float tag; p, q and r are the bits of the sources. R220, R403, R407: the element-wise bitwise instructions, which are blind to tags; shifts of Int
lanes by the count that the second source gives; and the functions of Float lanes. -/
def Obligations.VectorLanesComplete : Prop :=
  (∀ (h : Hdr) (t : ThreadId) (th : Thread) (s s0 s1 : State) (d : VReg) (a b' x : Opnd) (b : Src) (m : VMask) (sgn sat : Bool) (f : Fmt)
     (tag p q r w : Nat) (c : Captured) (mk : Option Nat),
     Issues h t th s s0 → Runs capture s0 c s0 → Runs (maskOf m) s0 mk s0 → w = laneW tag →
     (Runs (arithTag isNumTag [.op a]) s0 tag s0 → Runs (vecSrcs w [.op a]) s0 [p] s0 →
       (fmtOf tag = some f → sat = false →
         (Runs (wrLanes d w tag mk fun j => lane p w j % 2 ^ (f.bits - 1)) s0 () s1 → exec (.vabs h d a m sgn sat) s = retired t h .seq s1) ∧
         (Runs (wrLanes d w tag mk fun j => lane p w j ^^^ 2 ^ (f.bits - 1)) s0 () s1 → exec (.vneg h d a m sgn sat) s = retired t h .seq s1)) ∧
       (fmtOf tag = none →
         (Runs (wrLanes d w tag mk fun j => laneRes sgn sat w (laneInt sgn w (lane p w j)).natAbs) s0 () s1 →
           exec (.vabs h d a m sgn sat) s = retired t h .seq s1) ∧
         (Runs (wrLanes d w tag mk fun j => laneRes sgn sat w (-laneInt sgn w (lane p w j))) s0 () s1 →
           exec (.vneg h d a m sgn sat) s = retired t h .seq s1))) ∧
     (Runs (arithTag isNumTag [.op a, b]) s0 tag s0 → Runs (vecSrcs w [.op a, b]) s0 [p, q] s0 →
       (fmtOf tag = some f →
         (sat = false → Runs (wrLanes d w tag mk fun j => (addF c f (lane p w j) (lane q w j)).bits) s0 () s1 →
           exec (.vadd h d a b m sgn sat) s = retired t h .seq s1) ∧
         (sat = false → Runs (wrLanes d w tag mk fun j => (subF c f (lane p w j) (lane q w j)).bits) s0 () s1 →
           exec (.vsub h d a b m sgn sat) s = retired t h .seq s1) ∧
         (sat = false → Runs (wrLanes d w tag mk fun j => (mulF c f (lane p w j) (lane q w j)).bits) s0 () s1 →
           exec (.vmul h d a b m sgn sat) s = retired t h .seq s1) ∧
         (Runs (wrLanes d w tag mk fun j => (minMaxF true c f (lane p w j) (lane q w j)).bits) s0 () s1 →
           exec (.vmax h d a b m sgn) s = retired t h .seq s1) ∧
         (Runs (wrLanes d w tag mk fun j => (minMaxF false c f (lane p w j) (lane q w j)).bits) s0 () s1 →
           exec (.vmin h d a b m sgn) s = retired t h .seq s1)) ∧
       (fmtOf tag = none →
         (Runs (wrLanes d w tag mk fun j => laneRes sgn sat w (laneInt sgn w (lane p w j) + laneInt sgn w (lane q w j))) s0 () s1 →
           exec (.vadd h d a b m sgn sat) s = retired t h .seq s1) ∧
         (Runs (wrLanes d w tag mk fun j => laneRes sgn sat w (laneInt sgn w (lane p w j) - laneInt sgn w (lane q w j))) s0 () s1 →
           exec (.vsub h d a b m sgn sat) s = retired t h .seq s1) ∧
         (Runs (wrLanes d w tag mk fun j => laneRes sgn sat w (laneInt sgn w (lane p w j) * laneInt sgn w (lane q w j))) s0 () s1 →
           exec (.vmul h d a b m sgn sat) s = retired t h .seq s1) ∧
         (Runs (wrLanes d w tag mk fun j => laneRes sgn false w (max (laneInt sgn w (lane p w j)) (laneInt sgn w (lane q w j)))) s0 () s1 →
           exec (.vmax h d a b m sgn) s = retired t h .seq s1) ∧
         (Runs (wrLanes d w tag mk fun j => laneRes sgn false w (min (laneInt sgn w (lane p w j)) (laneInt sgn w (lane q w j)))) s0 () s1 →
           exec (.vmin h d a b m sgn) s = retired t h .seq s1))) ∧
     (Runs (arithTag isNumTag [.op a, .op b', .op x]) s0 tag s0 → Runs (vecSrcs w [.op a, .op b', .op x]) s0 [p, q, r] s0 →
       (fmtOf tag = some f → sat = false → Runs (wrLanes d w tag mk fun j => (fmaF c f (lane p w j) (lane q w j) (lane r w j)).bits) s0 () s1 →
         exec (.vfma h d a b' x m sgn sat) s = retired t h .seq s1) ∧
       (fmtOf tag = none →
         Runs (wrLanes d w tag mk fun j =>
           laneRes sgn sat w (laneInt sgn w (lane p w j) * laneInt sgn w (lane q w j) + laneInt sgn w (lane r w j))) s0 () s1 →
         exec (.vfma h d a b' x m sgn sat) s = retired t h .seq s1))) ∧
  (∀ (h : Hdr) (t : ThreadId) (th : Thread) (s s0 s1 : State) (d : VReg) (a : Opnd) (b : Src) (m : VMask) (sgn : Bool) (f : Fmt)
     (tag p q w : Nat) (c : Captured) (mk : Option Nat),
     Issues h t th s s0 → Runs capture s0 c s0 → Runs (maskOf m) s0 mk s0 → w = laneW tag →
     (Runs (blindTag [.op a, b]) s0 tag s0 → Runs (vecSrcs w [.op a, b]) s0 [p, q] s0 →
       (Runs (wrLanes d w tag mk fun j => lane p w j &&& lane q w j) s0 () s1 → exec (.vand h d a b m) s = retired t h .seq s1) ∧
       (Runs (wrLanes d w tag mk fun j => lane p w j ||| lane q w j) s0 () s1 → exec (.vor h d a b m) s = retired t h .seq s1) ∧
       (Runs (wrLanes d w tag mk fun j => lane p w j ^^^ lane q w j) s0 () s1 → exec (.vxor h d a b m) s = retired t h .seq s1)) ∧
     (Runs (arithTag isIntTag [.op a, b]) s0 tag s0 → Runs (vecSrcs w [.op a, b]) s0 [p, q] s0 →
       (Runs (wrLanes d w tag mk fun j => shlLane w (lane p w j) (shiftCount b [lane p w j, lane q w j])) s0 () s1 →
         exec (.vshl h d a b m sgn) s = retired t h .seq s1) ∧
       (Runs (wrLanes d w tag mk fun j => shrLane sgn w (lane p w j) (shiftCount b [lane p w j, lane q w j])) s0 () s1 →
         exec (.vshr h d a b m sgn) s = retired t h .seq s1)) ∧
     (Runs (arithTag isApxTag [.op a]) s0 tag s0 → fmtOf tag = some f → Runs (vecSrcs w [.op a]) s0 [p] s0 →
       (Runs (wrLanes d w tag mk fun j => expLane c f (lane p w j)) s0 () s1 → exec (.vexp h d a m) s = retired t h .seq s1) ∧
       (Runs (wrLanes d w tag mk fun j => logLane c f (lane p w j)) s0 () s1 → exec (.vlog h d a m) s = retired t h .seq s1) ∧
       (Runs (wrLanes d w tag mk fun j => rcpLane c f (lane p w j)) s0 () s1 → exec (.vrcp h d a m) s = retired t h .seq s1) ∧
       (Runs (wrLanes d w tag mk fun j => rsqLane c f (lane p w j)) s0 () s1 → exec (.vrsq h d a m) s = retired t h .seq s1)))

/-- R404 to R406, R411, R412: comparison, selection, permutation and broadcast; the tree of a Float tag and the fold of an Int tag; VCVT of a
converted tag and a segment that exists; VCB at 32 bytes in the thread's view. R254 to R256, R394, R397: SMXM and SMXF of state registers tagged FP32,
and RNG with a key that is aligned and in the thread's view: their lanes, written at once. -/
def Obligations.VectorOthersAndSoftMaximumComplete : Prop :=
  (∀ (h : Hdr) (t : ThreadId) (th : Thread) (s s0 s1 s2 : State) (d va : VReg) (dm sm : Fin 8) (dr : Reg) (a i : Opnd) (b : Src) (m : VMask)
     (sgn : Bool) (cond fmt : BitVec 4) (seg : BitVec 2) (f : Fmt) (tag p q w k old ka kd book src : Nat) (c : Captured) (mk : Option Nat)
     (v : Word) (l : List (Nat × Nat)) (sp : Span),
     Issues h t th s s0 →
     (Runs capture s0 c s0 → Runs (maskOf m) s0 mk s0 → w = laneW tag →
       (Runs (arithTag isCmpTag [.op a, b]) s0 tag s0 → Runs (vecSrcs w [.op a, b]) s0 [p, q] s0 →
         (mk = none → Runs (wrM dm.val (packBits (laneCount w) fun j => fcmpHolds cond.toNat (laneOrder c sgn tag (lane p w j) (lane q w j)))) s0 () s1 →
           exec (.vcmp h dm a b m sgn cond) s = retired t h .seq s1) ∧
         (mk = some k → Runs (mBits dm.val) s0 old s0 →
           Runs (wrM dm.val (packBits 256 fun j => if j < laneCount w && maskBit k w j
             then fcmpHolds cond.toNat (laneOrder c sgn tag (lane p w j) (lane q w j)) else old.testBit j)) s0 () s1 →
           exec (.vcmp h dm a b m sgn cond) s = retired t h .seq s1)) ∧
       (Runs (arithTag isNumTag [.op (.v va)]) s0 tag s0 → Runs (vecSrc w (.op (.v va))) s0 p s0 →
         (fmtOf tag = some f →
           (Runs (wrReg dr (BitVec.ofNat 64 ((treeUp (fun x y => (addF c f x y).bits) 9 (presentLanes mk w p)).getD 0))) s0 () s1 →
             exec (.vsum h dr va m sgn) s = retired t h .seq s1) ∧
           (Runs (wrReg dr (BitVec.ofNat 64 ((treeUp (fun x y => (minMaxF true c f x y).bits) 9 (presentLanes mk w p)).getD (defaultNaN f)))) s0 () s1 →
             exec (.vmaxr h dr va m sgn) s = retired t h .seq s1)) ∧
         (fmtOf tag = none →
           (Runs (wrReg dr (BitVec.ofInt 64 ((((presentLanes mk w p).filterMap id).map (laneInt sgn w)).foldl (· + ·) 0))) s0 () s1 →
             exec (.vsum h dr va m sgn) s = retired t h .seq s1) ∧
           (Runs (wrReg dr (BitVec.ofInt 64 ((((presentLanes mk w p).filterMap id).map (laneInt sgn w)).foldl max (intLo sgn w)))) s0 () s1 →
             exec (.vmaxr h dr va m sgn) s = retired t h .seq s1)))) ∧
     (Runs (blindTag [.op a, .op i]) s0 tag s0 → w = laneW tag → Runs (mBits sm.val) s0 k s0 → Runs (vecSrcs w [.op a, .op i]) s0 [p, q] s0 →
       Runs (wrLanes d w tag none fun j => if maskBit k w j then lane p w j else lane q w j) s0 () s1 →
       exec (.vsel h d a i sm) s = retired t h .seq s1) ∧
     (Runs (vecTags [.op a, .op i]) s0 l s0 → tagBits (headTag l) ≠ 4 → w = laneW (headTag l) → Runs (maskOf m) s0 mk s0 →
       Runs (vecSrcs w [.op a, .op i]) s0 [p, q] s0 →
       Runs (wrLanes d w (headTag l) mk fun j => lane p w (lane q w j % laneCount w)) s0 () s1 →
       exec (.vperm h d a i m) s = retired t h .seq s1) ∧
     (Runs (do chkSrc b; rdSrc h b) s0 v s1 → Runs (maskOf m) s1 mk s1 →
       Runs (wrLanes d (laneW fmt.toNat) fmt.toNat mk fun _ => v.toNat % 2 ^ laneW fmt.toNat) s1 () s2 →
       exec (.vbcast h d b m fmt) s = retired t h .seq s2) ∧
     (Runs (renV va.val) s0 ka s0 → Runs (chkOpnd i) s0 () s0 → Runs (vTag ka) s0 tag s0 → tagBits tag ≠ 0 → seg.toNat < segLimit (laneW tag) (laneW fmt.toNat) →
       Runs (rdOpnd h i) s0 v s1 → Runs capture s1 c s1 → Runs (rdWin offVcb 32) s1 book s1 → Runs (maskOf m) s1 mk s1 →
       Runs (vBits ka) s1 src s1 → Runs (renV d.val) s1 kd s1 → Runs (vBits kd) s1 old s1 →
       Runs (wrV kd (packLanes (laneW fmt.toNat) fun j =>
         match segLane (laneW tag) (laneW fmt.toNat) seg.toNat j with
         | some e => if laneOn mk (laneW fmt.toNat) j
             then convertLane c sgn (laneValue c book sgn tag (lane src (laneW tag) e)) (v.toNat % 2 ^ 32) fmt.toNat
             else lane old (laneW fmt.toNat) j
         | none => lane old (laneW fmt.toNat) j) fmt.toNat) s1 () s2 →
       exec (.vcvt h d va i m sgn fmt seg) s = retired t h .seq s2) ∧
     (Runs (rd1 h (.w dr)) s0 v s1 → Runs (localSpan v 32 32 false) s1 sp s1 → Runs (fenceHold 1) s1 () s1 → Runs (readSpan v sp) s1 p s1 →
       Runs (wrWin offVcb 32 p) s1 () s2 → exec (.vcb h dr) s = retired t h .seq s2)) ∧
  (∀ (h : Hdr) (t : ThreadId) (th : Thread) (s s0 s1 s2 : State) (gd : BitVec 3) (d a b : VReg) (cr kr : Reg)
    (kd ka kb oa ma ob mb key : Nat) (c : Captured) (cv kv : Word) (sp : Span),
     Issues h t th s s0 →
     ((th.ctl.rep = none → d.val % 2 = 0 ∧ a.val % 2 = 0 ∧ b.val % 2 = 0) → Runs (stateReg (illegalOf (.smxm h d a b)) d) s0 kd s0 → Runs (stateReg (illegalOf (.smxm h d a b)) a) s0 ka s0 →
       Runs (stateReg (illegalOf (.smxm h d a b)) b) s0 kb s0 → Runs (do checkState ka; checkState kb) s0 () s0 → Runs capture s0 c s0 →
       Runs (vBits ka) s0 oa s0 → Runs (vBits (ka + 1)) s0 ma s0 → Runs (vBits kb) s0 ob s0 → Runs (vBits (kb + 1)) s0 mb s0 →
       (let m := smxMax c (lane ma 32 0) (lane mb 32 0)
        let wa := smxAlpha c (lane ma 32 0) m
        let wb := smxAlpha c (lane mb 32 0) m
        Runs (do
         wrV kd (packLanes 32 fun k => smxMix c (lane oa 32 k) wa (lane ob 32 k) wb) 1
         wrV (kd + 1) (m + smxMix c (lane ma 32 1) wa (lane mb 32 1) wb * 2 ^ 32) 1) s0 () s1) →
       exec (.smxm h d a b) s = retired t h .seq s1) ∧
     ((th.ctl.rep = none → a.val % 2 = 0) → Runs (stateReg (illegalOf (.smxf h gd d a)) a) s0 ka s0 → Runs (checkState ka) s0 () s0 → Runs capture s0 c s0 → Runs (vBits ka) s0 oa s0 →
       Runs (vBits (ka + 1)) s0 ma s0 → Runs (renV d.val) s0 kd s0 →
       (lane ma 32 0 = fp32NegInf → Runs (do wrV kd 0 1; setGuard gd true) s0 () s1 → exec (.smxf h gd d a) s = retired t h .seq s1) ∧
       (lane ma 32 0 ≠ fp32NegInf →
         Runs (do wrV kd (packLanes 32 fun k => (divF c fp32 (lane oa 32 k) (lane ma 32 1)).bits) 1; setGuard gd false) s0 () s1 →
         exec (.smxf h gd d a) s = retired t h .seq s1)) ∧
     (Runs (do checkHandle cr.val; checkHandle kr.val) s0 () s0 → Runs (rdReg cr.val) s0 cv s0 → Runs (rdReg kr.val) s0 kv s0 →
       Runs (localSpan kv 16 16 false) s0 sp s0 → Runs (readSpan kv sp) s0 key s1 → Runs (renV d.val) s1 kd s1 →
       (let x := pack ((List.range 16).map fun k => (128, mixBlock key cv.toNat k))
        (Runs (do wrV kd (packLanes 32 fun k => unitFloat (lane x 32 k)) 1; wrReg cr (cv + 1)) s1 () s2 →
          exec (.rng h d cr kr true) s = retired t h .seq s2) ∧
        (Runs (do wrV kd x 9; wrReg cr (cv + 1)) s1 () s2 → exec (.rng h d cr kr false) s = retired t h .seq s2))))

/-- R408 to R410: contiguous VLD and VST, VGATH and VSCAT, and one turn of a shaped VLD or VST: its record, a position at a chunk's first element, its
units read or written, and the position written; the thread goes on with the next chunk or, after the last one and at the end of the register group,
to the next instruction. -/
def Obligations.VectorMemoryInstructionsComplete : Prop :=
  ∀ (h : Hdr) (t : ThreadId) (th : Thread) (s s0 s1 s2 s3 : State) (d i : VReg) (b : Opnd) (x : Src) (rec' pos : Reg) (m : VMask)
    (fmt : BitVec 4) (pl : Bool) (nregM1 : BitVec 5) (a v : Word) (mk : Option Nat) (k kd n p new old idx tag : Nat) (r : Shape)
    (lp : List (VRun × Nat)) (ll : List (VRun × Span)) (g : Stage),
    Issues h t th s s0 →
    (Runs (baseIndex h b x) s0 a s1 → Runs (maskOf m) s1 mk s1 → Runs (renV d.val) s1 k s1 →
      (Runs (contiguousCheck a pl (contiguousRuns fmt.toNat mk a)) s1 () s1 →
        Runs (readRuns h.hint.toNat pl (some a) (contiguousRuns fmt.toNat mk a)) s1 new s2 → Runs (vBits k) s2 old s2 →
        Runs (wrV k (mergeLanes (laneW fmt.toNat) mk old new) fmt.toNat) s2 () s3 →
        exec (.vldContiguous h d b x m fmt pl) s = retired t h .seq s3) ∧
      (Runs (vTag k) s1 tag s1 → Runs (contiguousCheck a pl (contiguousRuns tag mk a)) s1 () s1 → Runs (vBits k) s1 new s1 →
        Runs (writeRuns pl (some a) new (contiguousRuns tag mk a)) s1 () s2 →
        exec (.vstContiguous h d b x m pl) s = retired t h .seq s2)) ∧
    (Runs (indexedShape rec' i) s0 (r, idx) s1 → s1.cur = .thread t →
      (Runs (maskOf m) s1 mk s1 → Runs (renV d.val) s1 k s1 →
        (r.kind = 1 → Runs (runPhyses .rd (indexedRuns r mk idx)) s1 lp s1 → Runs (fenceHold 0) s1 () s1 →
          Runs (runPieces (plainLanes lp) ⟨.gather k r.fmt mk, 0, 0, plainLanes lp, h.hint.toNat, h.eog, h.ya⟩) s1 g s2 →
          g.goal = .gather k r.fmt mk → Runs (vBits k) s2 old s2 → Runs (wrV k (mergeLanes (laneW r.fmt) mk old g.a) r.fmt) s2 () s3 →
          exec (.vgath h d i rec' m) s = retired t h .seq s3) ∧
        (r.kind ≠ 1 → Runs (runSpans (indexedRuns r mk idx)) s1 ll s1 →
          Runs (runPieces (localLanes ll) ⟨.gather k r.fmt mk, 0, 0, localLanes ll, h.hint.toNat, h.eog, h.ya⟩) s1 g s2 →
          g.goal = .gather k r.fmt mk → Runs (vBits k) s2 old s2 → Runs (wrV k (mergeLanes (laneW r.fmt) mk old g.a) r.fmt) s2 () s3 →
          exec (.vgath h d i rec' m) s = retired t h .seq s3)) ∧
      (Runs (renV d.val) s1 k s1 → Runs (vTag k) s1 r.fmt s1 →
        (r.count = 0 → exec (.vscat h d i rec' m) s = retired t h .seq s1) ∧
        (r.count ≠ 0 → Runs (maskOf m) s1 mk s1 → Runs (vBits k) s1 new s1 →
          (r.kind = 1 → Runs waitConfirmed s1 () s1 → Runs (runPhyses .wr (indexedRuns r mk idx)) s1 lp s1 → Runs storeRoom s1 () s1 →
            Runs (runPieces (plainLanes lp) ⟨.scatter new, 0, 0, plainLanes lp, h.hint.toNat, h.eog, h.ya⟩) s1 g s2 →
            g.goal = .scatter new → exec (.vscat h d i rec' m) s = retired t h .seq s2) ∧
          (r.kind ≠ 1 → Runs (runSpans (indexedRuns r mk idx)) s1 ll s1 →
            ((ll.any fun e => decide (wfield e.1.a 54 2 ≠ 3)) = true → Runs waitConfirmed s1 () s1) → Runs (checkTyped none ll) s1 () s1 →
            Runs (runPieces (localLanes ll) ⟨.scatter new, 0, 0, localLanes ll, h.hint.toNat, h.eog, h.ya⟩) s1 g s2 →
            g.goal = .scatter new → exec (.vscat h d i rec' m) s = retired t h .seq s2)))) ∧
    (Runs (renV d.val) s0 kd s0 → n = nregM1.toNat + 1 → kd + n ≤ 32 → (th.ctl.rep = none → d.val + n ≤ 32) → Runs (do checkHandle rec'.val; checkHandle pos.val) s0 () s0 →
      Runs (chunkShape rec') s0 r s1 → Runs (rdReg pos.val) s1 v s1 → p = v.toNat → k = p / laneCount (laneW r.fmt) →
      ((r.count = 0 ∨ r.count ≤ p) → exec (.vld h d rec' pos m nregM1) s = retired t h .seq s1 ∧
        exec (.vst h d rec' pos m nregM1) s = retired t h .seq s1) ∧
      (r.count ≠ 0 → p < r.count → p % laneCount (laneW r.fmt) = 0 →
        (Runs (maskOf m) s1 mk s1 → Runs (readRuns h.hint.toNat (r.kind = 1) none (chunkRuns r mk p)) s1 new s2 → Runs (vBits (kd + k % n)) s2 old s2 →
          Runs (do
            wrV (kd + k % n) (mergeLanes (laneW r.fmt) mk old new) r.fmt
            wrReg pos (BitVec.ofNat 64 (min (p + laneCount (laneW r.fmt)) r.count))) s2 () s3 →
          exec (.vld h d rec' pos m nregM1) s =
            if min (p + laneCount (laneW r.fmt)) r.count = r.count ∨ k % n = n - 1 then retired t h .seq s3 else .next (setPhase s3 t .ready)) ∧
        (Runs (renV d.val) s1 kd s1 → Runs (checkSources r kd n p) s1 () s1 → Runs (maskOf m) s1 mk s1 → Runs (vBits (kd + k % n)) s1 new s1 →
          Runs (do
            writeRuns (r.kind = 1) none new (chunkRuns r mk p)
            wrReg pos (BitVec.ofNat 64 (min (p + laneCount (laneW r.fmt)) r.count))) s1 () s3 →
          exec (.vst h d rec' pos m nregM1) s =
            if min (p + laneCount (laneW r.fmt)) r.count = r.count ∨ k % n = n - 1 then retired t h .seq s3 else .next (setPhase s3 t .ready))))

/-- R224, R225, R366 to R372: with room in the matrix engine's queue: MMA from shape records and from handles, whose operands are staged piece by
piece and whose operation is queued with what it captured; MZERO; MRD of a row and of a whole accumulator, queued and as a peek; MST, MLD, MCVT and
MCB. `f32` is the F32 entry of the captured table. R225, R227, R366: a queued operation enters the queue of the core's engine, and the engine executes
the head of the queue once it is staged, or the oldest peek, which goes before every operation queued after it; an operation that writes a vector
register waits until that register's window is resident. -/
def Obligations.MatrixInstructionsComplete : Prop :=
  (∀ (h : Hdr) (t : ThreadId) (th : Thread) (s s0 s1 s2 s3 s4 : State) (acc : Fin 4) (a b x r : Reg) (d : VReg) (fa fb fmt : BitVec 4)
     (ca cb : Fin 16) (k : BitVec 9) (au bu int sgn side : Bool) (id : AccId) (c : Captured) (bookA bookB tag n vd oa ob : Nat)
     (ra rb : Shape) (v sc : Word) (l : Span) (la lb : List (VRun × Span)) (pa pb : List StagePiece) (g : Stage),
     Issues h t th s s0 → matFull s t = false →
     (Runs (accOf acc) s0 id s0 → Runs capture s0 c s0 → Runs (rdWin offMcbA 32) s0 bookA s0 → Runs (rdWin offMcbB 32) s0 bookB s0 →
       (Runs (do checkHandle a.val; checkHandle b.val) s0 () s0 → Runs (readShape a) s0 ra s1 → Runs (readShape b) s1 rb s2 →
         Runs (mmaChecks (illegalOf (.mma h acc (.shape a b) k au bu)) id a.val ra.fmt b.val rb.fmt k.toNat au bu) s2 () s2 →
         mmaShapeOk ra k.toNat 64 = true → mmaShapeOk rb 64 k.toNat = true →
         Runs (matSpans (allRuns ra)) s2 la s2 → Runs (matSpans (allRuns rb)) s2 lb s2 → Runs (matOrder ((la ++ lb).flatMap (·.2))) s2 () s2 →
         s2.cur = .thread t → stagingBefore s2 t.core none = false →
         Runs (runPieces (shapePieces 0 la ++ shapePieces 1 lb)
           ⟨.matrix (.mma id k.toNat ra.fmt rb.fmt 0 0 (c.entry 1) bookA bookB au bu) none [] none, 0, 0, shapePieces 0 la ++ shapePieces 1 lb,
             h.hint.toNat, h.eog, h.ya⟩) s2 g s3 →
         g.goal = .matrix (.mma id k.toNat ra.fmt rb.fmt 0 0 (c.entry 1) bookA bookB au bu) none [] none →
         Runs (enqueueMat (.mma id k.toNat ra.fmt rb.fmt g.a g.b (c.entry 1) bookA bookB au bu)) s3 () s4 →
         exec (.mma h acc (.shape a b) k au bu) s = retired t h .seq s4) ∧
       (mmaStatic (.mma h acc (.cbs ca cb fa fb) k au bu) fa.toNat fb.toNat k.toNat au bu = none →
         Runs (mmaChecks (illegalOf (.mma h acc (.cbs ca cb fa fb) k au bu)) id (0x80 + ca.val) fa.toNat (0x80 + cb.val) fb.toNat k.toNat au bu)
           s0 () s0 →
         (∃ y, Runs (cbBound ca.val) s0 y s0) → (∃ y, Runs (cbBound cb.val) s0 y s0) → Runs (slotFor h ca.val 0) s0 oa s1 →
         Runs (slotFor h cb.val (bit (ca = cb))) s1 ob s2 →
         Runs (slotPieces ca.val 0 oa (64 * k.toNat * tagBits fa.toNat / 8)) s2 pa s2 →
         Runs (slotPieces cb.val 1 ob (64 * k.toNat * tagBits fb.toNat / 8)) s2 pb s2 → s2.cur = .thread t → stagingBefore s2 t.core none = false →
         Runs (runPieces (pa ++ pb)
           ⟨.matrix (.mma id k.toNat fa.toNat fb.toNat 0 0 (c.entry 1) bookA bookB au bu) none [ca.val, cb.val] none, 0, 0, pa ++ pb,
             h.hint.toNat, h.eog, h.ya⟩) s2 g s3 →
         g.goal = .matrix (.mma id k.toNat fa.toNat fb.toNat 0 0 (c.entry 1) bookA bookB au bu) none [ca.val, cb.val] none →
         Runs (do takeSlots [ca.val, cb.val]; enqueueMat (.mma id k.toNat fa.toNat fb.toNat g.a g.b (c.entry 1) bookA bookB au bu)) s3 () s4 →
         exec (.mma h acc (.cbs ca cb fa fb) k au bu) s = retired t h .seq s4)) ∧
     (Runs (accOf acc) s0 id s0 → Runs (do noteTag id (if int then 9 else 1); enqueueMat (.zero id (if int then 9 else 1))) s0 () s1 → exec (.mzero h acc int) s = retired t h .seq s1) ∧
     (Runs (accOf acc) s0 id s0 → Runs (checkHandle r.val) s0 () s0 → Runs (rdReg r.val) s0 v s0 → v.toNat ≤ 63 → Runs (renV d.val) s0 vd s0 →
       Runs (fenceHold 4) s0 () s0 →
       (Runs (checkRead id false) s0 tag s0 → Runs (enqueueMat (.rowOut id v.toNat tag th.ctl.wsp vd)) s0 () s1 →
         exec (.mrd h (.reg d acc r) false) s = retired t h .seq s1) ∧
       (Runs (checkRead id true) s0 tag s0 → Runs newFree s0 n s1 → Runs (enterPeek (.peekRow (liveRow s1 id n v.toNat) tag th.ctl.wsp vd)) s1 () s2 →
         exec (.mrd h (.reg d acc r) true) s = retired t h .seq s2)) ∧
     (Runs (accOf acc) s0 id s0 → Runs (checkHandle a.val) s0 () s0 → Runs (rdReg a.val) s0 v s0 → Runs (matDest v 16384) s0 l s1 →
       (Runs (checkRead id false) s0 tag s0 → Runs (enqueueMat (.memOut id l)) s1 () s2 → exec (.mrd h (.mem a acc) false) s = retired t h .seq s2) ∧
       (Runs (checkRead id true) s0 tag s0 → Runs newFree s1 n s2 →
         Runs (enterPeek (.peekMem (pack ((List.range 64).map fun i => (2048, liveRow s2 id n i))) l)) s2 () s3 →
         exec (.mrd h (.mem a acc) true) s = retired t h .seq s3)) ∧
     (Runs (accOf acc) s0 id s0 → Runs (rd1 h (.w a)) s0 v s1 →
       (Runs (matDest v 16384) s1 l s2 → Runs (enqueueMat (.memOut id l)) s2 () s3 → exec (.mst h a acc) s = retired t h .seq s3) ∧
       (Runs (matSpan v 16384 64) s1 l s1 → Runs (matOrder l) s1 () s1 → s1.cur = .thread t → stagingBefore s1 t.core none = false →
         Runs (runPieces (piecesOf 0 v .buffer 0 l) ⟨.matrix (.load id 0 (if int then 9 else 1)) none [] none, 0, 0, piecesOf 0 v .buffer 0 l,
           h.hint.toNat, h.eog, h.ya⟩) s1 g s2 →
         g.goal = .matrix (.load id 0 (if int then 9 else 1)) none [] none →
         Runs (do noteTag id (if int then 9 else 1); enqueueMat (.load id g.a (if int then 9 else 1))) s2 () s3 →
         exec (.mld h acc a int) s = retired t h .seq s3)) ∧
     (Runs (accOf acc) s0 id s0 → Runs (do checkHandle a.val; checkHandle x.val) s0 () s0 → Runs (accTag id false) s0 tag s0 →
       (tag = 1 ∨ tag = 9) →
       Runs (rdReg a.val) s0 v s0 → Runs (rdReg x.val) s0 sc s0 → Runs (matDest v (512 * laneW fmt.toNat)) s0 l s1 → Runs capture s1 c s1 →
       Runs (enqueueMat (.convert id l tag (sc.toNat % 2 ^ 32) fmt.toNat sgn c)) s1 () s2 → exec (.mcvt h a acc x fmt sgn) s = retired t h .seq s2) ∧
     (Runs (rd1 h (.w a)) s0 v s1 → Runs (matSpan v 32 32) s1 l s1 → Runs (matOrder l) s1 () s1 → s1.cur = .thread t →
       stagingBefore s1 t.core none = false →
       Runs (runPieces (piecesOf 0 v .buffer 0 l) ⟨.matrix .codebook none [] (some side), 0, 0, piecesOf 0 v .buffer 0 l, h.hint.toNat, h.eog, h.ya⟩)
         s1 g s2 →
       g.goal = .matrix .codebook none [] (some side) →
       Runs (do wrWin (if side then offMcbB else offMcbA) 32 g.a; enqueueMat .codebook) s2 () s3 → exec (.mcb h a side) s = retired t h .seq s3)) ∧
  ((∀ (s : State) (t : ThreadId) (op : MatKind), s.cur = .thread t →
     Runs (enqueueMat op) s () (({ s with opId := s.opId + 1 } : State).modCore t.core fun r =>
       { r with mqueue := r.mqueue ++ [⟨s.opId, t, slotGen s t, op, true⟩] })) ∧
   ∀ (s : State) (c : CoreId) (o p : MatOp) (qs ps : List MatOp),
     ((s.core c).mqueue = o :: qs → o.staged = true → rowThere s o = true → (s.core c).peeks = [] →
       exec (.matrixOpExecute c) s = .next (matExecute o (s.modCore c fun r => { r with mqueue := r.mqueue.drop 1 }))) ∧
     ((s.core c).mqueue = [] → (s.core c).peeks = p :: ps → rowThere s p = true →
       exec (.matrixOpExecute c) s = .next (matExecute p (s.modCore c fun r => { r with peeks := r.peeks.drop 1 }))) ∧
     ((s.core c).mqueue = o :: qs → o.staged = true → rowThere s o = true → (s.core c).peeks = p :: ps → rowThere s p = true → p.id < o.id →
       exec (.matrixOpExecute c) s = .next
         { matExecute p (s.modCore c fun r => { r with peeks := r.peeks.drop 1 }) with free := s.free + 1 }) ∧
     ((s.core c).mqueue = o :: qs → o.staged = false → (s.core c).peeks = [] → exec (.matrixOpExecute c) s = .next s))

/-- R243 to R248, R352: the instructions over sequence records at a record that checks: KVMAP of a token that the record maps and of one that it does
not; KVEXT and KVTRUNC with a valid pool, which take or give blocks and store the record, or change nothing but the guard, KVEXT its destination too,
where the pool or the record cannot; KVMATCH of at most 65,536 tokens. R249 to R252, R385, R387: PXLOOK and PXINS in a partition whose index is
enabled, which scan the bucket of the hash: a hit, a miss, an entry that is there already, a reference that is not pinned, and an insertion; PLAN of a
legal geometry, which enters the plan beside a Pending future. -/
def Obligations.AttentionInstructionsComplete : Prop :=
  (∀ (h : Hdr) (t : ThreadId) (th th1 : Thread) (s s0 s1 s2 s3 s4 s5 s6 s7 s8 : State) (gd : BitVec 3) (d : Reg) (a b n : Opnd) (v q y : Word)
     (r r' : SeqRec) (x raw p1 p2 : Nat) (l0 l : Span) (free : List (Nat × Nat)) (taken : Nat),
     Issues h t th s s0 →
     (Runs (rd2 h a (.op n)) s0 (v, q) s1 → Runs (fenceHold 5) s1 () s1 → Runs (readSeq v) s1 raw s2 → Runs (checkedSeq v raw) s2 r s2 →
       (blockAddr r.live (q.toNat / r.tokens) = none → Runs (wrReg d 0) s2 () s3 → Runs (setGuard gd false) s3 () s4 →
         exec (.kvmap h gd d a n) s = retired t h .seq s4) ∧
       (blockAddr r.live (q.toNat / r.tokens) = some x → Runs (wrReg d (BitVec.ofNat 64 (x + q.toNat % r.tokens * r.tokBytes))) s2 () s3 →
         Runs (setGuard gd true) s3 () s4 → exec (.kvmap h gd d a n) s = retired t h .seq s4)) ∧
     (Runs (rd2 h a (.op n)) s0 (v, q) s1 → Runs (fenceHold 5) s1 () s1 → Runs (seqSpan v .rd) s1 l0 s8 → Runs (seqSpan v .wr) s8 l s2 →
       Runs waitConfirmed s2 () s2 →
       Runs (readSpan v l) s2 raw s3 → Runs (checkedSeq v raw) s3 r s3 → s3.cur = .thread t → s3.thread? t = some th1 →
       (let part := th1.ctl.slice.part
        let p := s3.part part
        let pool := poolOf p r.pool
        let out := fun (zero : Bool) (o : Option (SeqRec × List (Nat × Nat) × Nat)) (res : Host.Outcome State Fault Refusal) =>
          (o = none → (zero = true → Runs (wrReg d 0) s3 () s4) → (zero = false → s4 = s3) → Runs (setGuard gd false) s4 () s5 → res = retired t h .seq s5) ∧
          (o = some (r', free, taken) →
            Runs (do watchSpan l true; updateSeqBuffer v (packSeq r'))
              (Span.write (s3.modPart part fun y => { y with wfree := tput y.wfree r.pool free }) (packSeq r') l) () s5 →
            Runs (wrReg d (BitVec.ofNat 64 taken)) s5 () s6 → Runs (setGuard gd true) s6 () s7 → res = retired t h .seq s7)
        pool.v = true →
         out true (if q.toNat > 0xFFFFFFFF then none else kvext pool (freeOf p r.pool) r q.toNat) (exec (.kvext h gd d a n) s) ∧
         (q.toNat > r.ntok → out false none (exec (.kvtrunc h gd d a n) s)) ∧
         (q.toNat = r.ntok → out false (some (r, freeOf p r.pool, 0)) (exec (.kvtrunc h gd d a n) s)) ∧
         (q.toNat < r.ntok → ∀ o, kvtrunc pool (freeOf p r.pool) r q.toNat = some o → out false (some o) (exec (.kvtrunc h gd d a n) s)))) ∧
     (Runs (rd3 h a b n) s0 (v, q, y) s1 → y.toNat ≤ 65536 → Runs (fenceHold 5) s1 () s1 → Runs (readTokens v y.toNat) s1 p1 s2 →
       Runs (readTokens q y.toNat) s2 p2 s3 → Runs (wrReg d (BitVec.ofNat 64 (leadingEqual p1 p2 y.toNat))) s3 () s4 →
       Runs (setGuard gd (decide (leadingEqual p1 p2 y.toNat = y.toNat))) s4 () s5 → exec (.kvmatch h gd d a b n) s = retired t h .seq s5)) ∧
  (∀ (h : Hdr) (t : ThreadId) (th th1 th2 : Thread) (s s0 s1 s2 s3 s4 s5 s6 s7 : State) (gd : BitVec 3) (d b o c : Reg) (hash p tk n r : Opnd)
     (hv pv tv nv rv bv ov cv a loc : Word) (fa : Addr) (tn i raw head x : Nat) (l dst list sp : Span)
     (ways : List PxEnt) (sc : PxScan) (w : Nat) (f : Fut) (recs : List (Nat × Nat × Nat)) (tl : Option (Option Nat)),
     Issues h t th s s0 →
     (Runs pxEnabled s0 () s0 → Runs (waitOpnds h [hash, p, tk, n] []) s0 () s0 →
       Runs (do let hv ← rdOpnd h hash; let pv ← rdOpnd h p; let tv ← rdOpnd h tk; let nv ← rdOpnd h n; return (hv, pv, tv, nv)) s0
         (hv, pv, tv, nv) s1 →
       wfield pv 32 32 = 0 → nv ≠ 0 → nv.toNat ≤ 256 → tv.toNat % 4 = 0 → Runs (fenceHold 5) s1 () s1 → Runs (readTokens tv nv.toNat) s1 tn s2 →
       Runs (do let q ← pxBucket hv .rd; return (q, ← readWays q.2.1 q.2.2)) s2 ((i, a, l), ways) s3 → s3.cur = .thread t →
       s3.thread? t = some th1 →
       scanBucket s3 t.core th1.ctl.slice.part hv.toNat pv.toNat (nv.toNat - 1) (some tn) ways = (sc, s4) →
       (sc.hit = some w → Runs (writeWays l (touchWay sc.ways w)) s4 () s5 →
         Runs (do
           wrReg d (BitVec.ofNat 64 ((sc.ways[w]?).getD (parsePx 0)).value)
           wrReg (Fin.ofNat 64 (d.val + 1)) (pxStatus true false false (pxIdent ((sc.ways[w]?).getD (parsePx 0)).gen i w))
           setGuard gd true) s5 () s6 →
         exec (.pxlook h gd d hash p tk n) s = retired t h .seq s6) ∧
       (sc.hit = none → (sc.ways = ways → s5 = s4) → (sc.ways ≠ ways → Runs (writeWays l sc.ways) s4 () s5) →
         Runs (do
           wrReg d 0
           wrReg (Fin.ofNat 64 (d.val + 1)) (pxStatus false sc.coll false pxNone)
           setGuard gd false) s5 () s6 →
         exec (.pxlook h gd d hash p tk n) s = retired t h .seq s6)) ∧
     (Runs pxEnabled s0 () s0 → Runs (rd1 h r) s0 rv s1 → rv.toNat % 32 = 0 → Runs (localSpan rv 32 32 false) s1 sp s1 →
       Runs (readSpan rv sp) s1 raw s2 → (parsePx raw).res = 0 → Runs (fenceHold 5) s2 () s2 →
       Runs (pxBucket (BitVec.ofNat 64 (parsePx raw).hash) .wr) s2 (i, a, l) s3 → Runs waitConfirmed s3 () s3 → s3.cur = .thread t →
       s3.thread? t = some th1 →
       (isPinned s3 t.core th1.ctl.slice.part (parsePx raw).tref = false →
         Runs (do wrReg d (pxStatus false false true pxNone); setGuard gd false) s3 () s4 → exec (.pxins h gd d r) s = retired t h .seq s4) ∧
       (isPinned s3 t.core th1.ctl.slice.part (parsePx raw).tref = true → Runs (readWays a l) s3 ways s4 →
         tileTokens s4 t.core th1.ctl.slice.part (parsePx raw).tref ((parsePx raw).tokm1 + 1) = (tl, s5) →
         scanBucket s5 t.core th1.ctl.slice.part (parsePx raw).hash (parsePx raw).parent (parsePx raw).tokm1 tl.join ways = (sc, s6) →
         (sc.hit = some w →
           Runs (do
             writeWays l (touchWay sc.ways w)
             wrReg d (pxStatus true false false (pxIdent (((sc.ways[w]?).map (·.gen)).getD 0) i w))
             setGuard gd false) s6 () s7 → exec (.pxins h gd d r) s = retired t h .seq s7) ∧
         (sc.hit = none →
           (let w := victimWay sc.ways
            let old := (sc.ways[w]?).getD (parsePx 0)
            let gen := (old.gen + 1) % 256
            Runs (do
             writeWays l (touchWay (setAt sc.ways w { parsePx raw with v := true, res := 0, age := old.age, gen := gen }) w)
             wrReg d (pxStatus false sc.coll false (pxIdent gen i w))
             setGuard gd true) s6 () s7) → exec (.pxins h gd d r) s = retired t h .seq s7))) ∧
     (Runs (futLocation d) s0 (loc, fa) s0 → Runs (rd3 h (.w b) (.w o) (.w c)) s0 (bv, ov, cv) s1 → wfield cv 8 8 = 0 → wfield cv 20 44 = 0 →
       wfield cv 0 8 + 1 ≤ 192 → 6 ≤ wfield cv 16 4 → wfield cv 16 4 ≤ 12 → bv.toNat % 8 = 0 →
       Runs (do let q ← localSpan bv 8 8 false; readSpan bv q) s1 head s2 → head % 2 ^ 16 ≠ 0 → head % 2 ^ 16 ≤ 1024 → head < 2 ^ 16 →
       Runs (localSpan bv (8 + 8 * (head % 2 ^ 16)) 8 false) s2 list s2 → ov.toNat % 2 ^ wfield cv 16 4 = 0 →
       Runs (localSpan ov ((wfield cv 0 8 + 1) * 2 ^ wfield cv 16 4) 1 false) s2 dst s2 → Runs waitConfirmed s2 () s2 → Runs (fenceHold 5) s2 () s2 →
       Runs (readSpan bv list) s2 x s3 →
       Runs (readBatch ((List.range (head % 2 ^ 16)).map fun k => BitVec.ofNat 64 (field x (64 + 64 * k) 64))) s3 recs s4 → s4.cur = .thread t →
       s4.thread? t = some th2 → Runs (makeFuture d loc fa) s4 f s5 →
       exec (.plan h d b o c) s = retired t h .seq
         { s5 with
           opId := s5.opId + 1
           nt := { s5.nt with plans := s5.nt.plans ++ [⟨s5.opId, t, slotGen s4 t, f, recs, dst, wfield cv 16 4, wfield cv 0 8 + 1, 0⟩] } }))

/-- R279, R325: a Carder word of registers, in the pipeline whose turn it is and in which an event runs: the result is written to the slot's register,
the instruction is charged, and the run goes on. R279 to R283: the Carder words that move the run and those on an object that is valid, of the event's
partition, of the word's kind and within the SRAM: CDEND, CDDROP, CDBF, CDLDS, CDSTS, CDHIST, CDCMS, CDHLL, CDEMIT and CDTRIG. -/
def Obligations.CarderWordsComplete : Prop :=
  (∀ (s : State) (d : DieId) (p : Nat) (r : CdRun) (a b c : BitVec 4) (i : BitVec 13) (j : BitVec 22) (n : Fin 8),
     s.cur = .carder d p → (s.pipe d p).run = some r →
     (let x := cdReg s d r a
      let y := cdReg s d r b
      let z : BitVec 32 := i.setWidth 32
      let out := fun (v : BitVec 32) => (.next (cdGo d p { r with used := r.used + 1 } .next (cdSetReg s d r c v)) : Host.Outcome State Fault Refusal)
      exec (.cdmov c a) s = out x ∧ exec (.cdli c j) s = out (j.signExtend 32) ∧ exec (.cdlde c n) s = out (r.ev.e[n.val]?.getD 0) ∧
      exec (.cdadd c a b) s = out (x + y) ∧ exec (.cdaddImm c a i) s = out (x + z) ∧
      exec (.cdsub c a b) s = out (x - y) ∧ exec (.cdsubImm c a i) s = out (x - z) ∧
      exec (.cdand c a b) s = out (x &&& y) ∧ exec (.cdandImm c a i) s = out (x &&& z) ∧
      exec (.cdor c a b) s = out (x ||| y) ∧ exec (.cdorImm c a i) s = out (x ||| z) ∧
      exec (.cdxor c a b) s = out (x ^^^ y) ∧ exec (.cdxorImm c a i) s = out (x ^^^ z) ∧
      exec (.cdshl c a b) s = out (x <<< (y.toNat % 32)) ∧ exec (.cdshlImm c a i) s = out (x <<< (z.toNat % 32)) ∧
      exec (.cdshr c a b) s = out (x >>> (y.toNat % 32)) ∧ exec (.cdshrImm c a i) s = out (x >>> (z.toNat % 32)) ∧
      exec (.cdmin c a b) s = out (if x.toNat ≤ y.toNat then x else y) ∧ exec (.cdminImm c a i) s = out (if x.toNat ≤ z.toNat then x else z) ∧
      exec (.cdmax c a b) s = out (if x.toNat ≤ y.toNat then y else x) ∧ exec (.cdmaxImm c a i) s = out (if x.toNat ≤ z.toNat then z else x) ∧
      exec (.cdhash c a b) s = out (hash32 x y) ∧ exec (.cdhashImm c a i) s = out (hash32 x z))) ∧
  (∀ (s : State) (d : DieId) (p : Nat) (r : CdRun) (cond a b c : BitVec 4) (off : BitVec 6) (obj : BitVec 8),
     s.cur = .carder d p → (s.pipe d p).run = some r →
     (let go := fun (n : CdNext) (s' : State) => (.next (cdGo d p { r with used := r.used + 1 } n s') : Host.Outcome State Fault Refusal)
      let x := cdReg s d r a
      let y := cdReg s d r b
      let o := (s.obj d obj.toNat).word
      let has := fun (kind : Nat) =>
        bitAt o 63 = true ∧ objPart o = r.ev.part.num ∧ objKind o = kind ∧ objBase o + objBytes o ≤ 2 ^ 22
      exec .cdend s = go .stop s ∧ exec .cddrop s = go .drop s ∧
      (cdCond cond x y = true → exec (.cdbf cond a b off) s = go (.skip off.toNat) s) ∧
      (cdCond cond x y = false → exec (.cdbf cond a b off) s = go .next s) ∧
      (has 4 → exec (.cdlds c obj a) s = go .next (cdSetReg s d r c (BitVec.ofNat 32 (objWord s d o (x.toNat % objSize o)))) ∧
        exec (.cdsts obj a b) s = go .next (setObjWord s d o (x.toNat % objSize o) y.toNat)) ∧
      (has 1 → exec (.cdhist obj a) s = go .next
        (setObjWord s d o (min x.toNat (objSize o - 1)) (sat32 (objWord s d o (min x.toNat (objSize o - 1)) + 1)))) ∧
      (has 2 → exec (.cdcms c obj a) s = go .next
        (let q := (List.range 4).foldl (cmsRow d o x) (0xFFFFFFFF, s)
         cdSetReg q.2 d r c (BitVec.ofNat 32 q.1))) ∧
      (has 3 → exec (.cdhll obj a) s = go .next
        (let v := min (clz22 ((hash32 x 0x5A5A).toNat / 1024) + 1) 23
         let k := 6 * ((hash32 x 0x5A5A).toNat % 1024)
         let m := if k % 8 ≤ 2 then 1 else 2
         let w := s.rd (addrCarder d (objBase o + k / 8)) m
         if field w (k % 8) 6 < v then s.wr (addrCarder d (objBase o + k / 8)) m (w + (v - field w (k % 8) 6) * 2 ^ (k % 8)) else s)) ∧
      (has 5 → exec (.cdemit obj a b) s = go .next (cdEmit d { r with used := r.used + 1 } obj.toNat o x y s)) ∧
      (has 6 → exec (.cdtrig obj a) s =
        (let q := cdTrigger d { r with used := r.used + 1 } obj.toNat (s.rd (addrCarder d (objBase o)) 8) (s.rd (addrCarder d (objBase o + 8)) 8) x s
         go q.1 q.2))))

/-- R33, R58, R60, R64, R65, R226: the steps that admit, end and kill slices, and those of an accumulator's save and load, each where it is enabled.
R57, R67, R68, R416: budgets and deadlines: a draw into a core's allotment, the recall of allotments, an exhausted budget, an extension and a requeue
of a halted slice, a yield's message, a missed deadline and a stall, each where it is enabled. R30, R55, R294, R296: the event ring takes its oldest
held record when it has room; a doorbell write within the ring moves the tail and another is counted; the next launch record of the queue whose turn
it is, is taken, and submits a legal descriptor or posts the code of an illegal one. -/
def Obligations.SliceEventsTakeEffect : Prop :=
  (∀ (s : State) (i : SliceId) (r r2 : SliceRec) (p : PartId) (c : CoreId) (a : Nat) (o : SaveOp) (places : List Nat) (tag phys : Nat),
     ((s.part p).resetBusy = false → exec (.admissionEvaluation p) s = .next (evaluate p (4 * s.wk.slices.length) s)) ∧
     (s.slice? i = some r →
       (completes s i r = true → eventRoom s i.part = true → exec (.sliceCompletion i) s = .next (complete s i r)) ∧
       ((completes s i r && eventRoom s i.part) = false → exec (.sliceCompletion i) s = .next (endKill s i r)) ∧
       (r.st ≠ .completed → r.killed = true → exec (.kill i) s = .next (endKill s i r)) ∧
       (r.st ≠ .completed → r.killed = false → (killSlice s i false).slice? i = some r2 →
         exec (.kill i) s = .next (endKill (killSlice s i false) i r2)) ∧
       (s.nt.saving.find? (fun x => decide (x.acc = ⟨c, i, a⟩)) = some o →
         s.nt.saving.find? (fun x => decide (x.acc.core = c ∧ x.phys = o.phys)) = some o →
         ((s.core c).mqueue.any fun m => m.op.names fun x => decide (x = o.acc)) = false → savePlaces s i r c a .wr = .ok places →
         exec (.accumulatorSave i c a) s = .next
           (let v := tget (s.core c).accs o.phys ⟨0, 0⟩
            let w := places.zipIdx.foldl (fun s (pa, k) => s.wr pa 4096 (field v.bits.toNat (32768 * k) 32768)) s
            let w := w.modCore c fun r => { r with accs := tput r.accs o.phys { v with tag := 0 } }
            syncOut { w with nt := { w.nt with saving := w.nt.saving.filter (· ≠ o), savedAccs := tput w.nt.savedAccs o.acc v.tag } })) ∧
       (tfind s.nt.savedAccs ⟨c, i, a⟩ = some tag → ((r.grant? c).bind (·.accs[a]?)).join = some phys →
         (s.nt.saving.any fun x => decide (x.acc.core = c ∧ x.phys = phys)) = false → savePlaces s i r c a .rd = .ok places →
         exec (.accumulatorLoad i c a) s = .next
           (let x := match places.zipIdx.find? fun e => s.poisoned e.1 4096 with
              | some (_, k) => saveFault s i c (mkTrap 11 (r.saveBase + (r.groupIndex c.core * r.accNum + a) * 16384 + 4096 * k) 0)
              | none => s
            let w := x.modCore c fun r =>
              { r with accs := tput r.accs phys ⟨BitVec.ofNat _ (pack (places.map fun pa => (32768, s.rd pa 4096))), tag⟩ }
            syncOut { w with nt := { w.nt with savedAccs := tdel w.nt.savedAccs ⟨c, i, a⟩ } })))) ∧
  (∀ (s : State) (i : SliceId) (r : SliceRec) (c : CoreId) (n deadline : Word) (k : Nat) (y : YieldMsg),
     (s.slice? i = some r →
       (r.st = .running → r.central ≠ 0 → tget r.allot c 0 = 0 →
         exec (.allotmentDraw i c) s = .next
           (let r' := { r with central := r.central - min 4096 r.central, allot := tput r.allot c (min 4096 r.central) }
            syncOut (budgetEvent (s.modSlice i fun _ => r') i r' c.core 1 (r.central - min 4096 r.central + min 4096 r.central)))) ∧
       (r.st = .running → r.central = 0 →
         exec (.allotmentRecall i) s = .next (syncOut (s.modSlice i fun r => { r with central := r.left, allot := [] }))) ∧
       (r.st = .running → r.left = 0 → completes s i r = false → eventRoom s i.part = true →
         exec (.budgetExhausted i) s = .next
           (syncOut (budgetEvent (postSlice (s.modSlice i fun r => { r with st := .halted, central := 0, allot := [] }) i r 3) i r 0xFF 2 0))) ∧
       (r.st = .halted → r.killed = false → n ≠ 0 → slotsLeave s i = true → holdsAll s i r = true →
         exec (.budgetExtension i n) s = .next
           (syncOut (s.modSlice i fun r => { r with st := .running, central := r.central + n.toNat }))) ∧
       (r.st = .halted → r.killed = false → n ≠ 0 → slotsLeave s i = true → holdsAll s i r = false →
         exec (.budgetExtension i n) s = .next
           (syncOut ((dropSlots s i).modSlice i fun r => { r with st := .suspended, central := r.central + n.toNat }))) ∧
       (r.st ≠ .halted → r.st ≠ .completed → r.killed = false → n ≠ 0 →
         exec (.budgetExtension i n) s = .next (syncOut (s.modSlice i fun q => { q with st := r.st, central := q.central + n.toNat }))) ∧
       (r.st = .halted → slotsLeave s i = true → exec (.requeue i deadline n) s = .next (syncOut ((dropSlots s i).modSlice i fun r =>
         { r with st := .suspended, deadline := deadline, central := r.central + n.toNat }))) ∧
       (r.st ≠ .completed → r.missed = false → ownDeadline r < s.dtime.toNat →
         exec (.deadlineMissed i) s = .next
           (let w := if eventRoom s i.part then postSlice s i r 4
              else s.modSlice i fun r => { r with pend := { r.pend with missed := true } }
            budgetEvent (w.modSlice i fun r => { r with missed := true }) i r 0xFF 3 r.left)) ∧
       (r.st = .running → r.stallReported = false → (s.wk.slots.all fun (t, x) => decide (t.slice ≠ i) || slotQuiet x) = true →
         engineBusy s i = false → max (ownDeadline r) r.lastBusy + 100000000 ≤ s.dtime.toNat →
         exec (.stalled i) s = .next
           (let w := if eventRoom s i.part then postSlice s i r 7
              else s.modSlice i fun r => { r with pend := { r.pend with stalled := true } }
            w.modSlice i fun r => { r with stallReported := true }))) ∧
     (s.nt.yields[k]? = some y → s.slice? y.slice = some r → r.st = .running → slotsLeave s y.slice = true →
       (let w : State := { s with nt := { s.nt with yields := dropAt s.nt.yields k } }
        let w := match y.deadline with
          | some d => w.modSlice y.slice fun r => { r with deadline := d }
          | none => w
        (r.left ≠ 0 → exec (.sliceYieldMessage k) s = .next
          (syncOut ((dropSlots w y.slice).modSlice y.slice fun r => { r with st := .suspended, central := r.left, allot := [] }))) ∧
        (r.left = 0 → eventRoom s y.slice.part = true → exec (.sliceYieldMessage k) s = .next (syncOut (haltSlice w y.slice r)))))) ∧
  (∀ (s : State) (q : QuadId) (x : PartId) (e : BitVec 256) (rest : List (PartId × BitVec 256)) (pkg vf n code : Nat) (tail : BitVec 32),
     ((s.quad q).held = (x, e) :: rest → (s.quad q).ring.length < 1024 →
       exec (.heldEventAppend q) s = .next
         (let w := s.modQuad q fun r => { r with ring := r.ring ++ [e], held := rest }
          (sortBy (fun a b => decide (a.seq < b.seq)) ((w.wk.slices.filter fun (i, _) => decide (i.part = x)).map (·.1))).foldl flushFlags w)) ∧
     (vf < 512 → n < 8 → (tail.toNat + 2 ^ 32 - (hostQueue s pkg vf n).head) % 2 ^ 32 ≤ 2 ^ (hostQueue s pkg vf n).log2n →
       exec (.doorbell pkg vf n tail) s = .next (modQueue s pkg vf n fun r => { r with tail := tail.toNat })) ∧
     (vf < 512 → n < 8 → 2 ^ (hostQueue s pkg vf n).log2n < (tail.toNat + 2 ^ 32 - (hostQueue s pkg vf n).head) % 2 ^ 32 →
       exec (.doorbell pkg vf n tail) s = .next (modQueue s pkg vf n fun r => { r with ignored := r.ignored + 1 })) ∧
     (nextQueue s q = some (vf, n) → (s.quad q).ring.length < 1024 → (s.quad q).swapSt ≠ 1 →
       (let r := hostQueue s q.pkg vf n
        let p := vfPart s q.pkg vf
        let d := BitVec.ofNat 512 (s.rd (addrHbm q.pkg (wfield r.ctl 16 48 * 2 ^ 16 + 64 * (r.head % 2 ^ r.log2n))) 64)
        let w := (modQueue s q.pkg vf n fun r => { r with head := (r.head + 1) % 2 ^ 32 }).modQuad q fun c => c.serve vf n
        (descCode w p d = 0 → exec (.launchRecord q vf n) s = .next (submit w p d ⟨q, false, vf, n⟩ false).2) ∧
        (descCode w p d = code + 1 →
          exec (.launchRecord q vf n) s = .next (postEvent w q p (eventRecord w.dtime.toNat 0 0 (code + 1) ⟨q, false, vf, n⟩ p.num 2))))))

/-- R25, R76, R305: a core's way into power gating: the write-back of a dirty line, the opening of the commit window once none is dirty, and the
gating two ac later; entry is abandoned where the core may no longer gate or a wake has arrived; a wake ends gating and reloads the place table, or
abandons entry; the two clocks of a Boost partition; and the throttle and the overtemperature shutdown of a package. -/
def Obligations.PowerEventsTakeEffect : Prop :=
  ∀ (s : State) (t : ThreadId) (th : Thread) (c : CoreId) (p : PartId) (line : Nat) (a : Addr) (e since pkg : Nat),
    ((s.core c).gated = false →
      (mayGate s c = false ∨ wakeDue s c = true →
        exec (.powerGateEntry c) s = .next (s.modCore c fun r => { r with gating := false, commit := none })) ∧
      (mayGate s c = true → wakeDue s c = false →
        (nextUnsaved s c = some (t, th, line) →
          lineHome (s.modCore c fun r => { r with gating := true, commit := none }) t th line .wr = .ok a →
          exec (.powerGateEntry c) s = .next
            (let w := s.modCore c fun r => { r with gating := true, commit := none }
             setLine t line (.clean (w.rd (addrWindow t (lineAddr line)) 64)) (moveLine w a (addrWindow t (lineAddr line))))) ∧
        (nextUnsaved s c = none → anyUnsaved s c = false →
          ((s.core c).commit = none →
            exec (.powerGateEntry c) s = .next (s.modCore c fun r => { r with gating := true, commit := some s.ac })) ∧
          ((s.core c).commit = some e → e + 2 ≤ s.ac →
            exec (.powerGateEntry c) s = .next (noteHalf (corePart s c) ((loseLines c s).modCore c fun r =>
              { r with gated := true, gating := false, commit := none, l1 := [], tlb := [], operandBuf := [], ext := [], place := [] })))))) ∧
    (wakeDue s c = true →
      ((s.core c).gated = true →
        exec (.powerGateWake c) s = .next (noteHalf (corePart s c) (({ s with free := s.free + 192 } : State).modCore c fun r =>
          { r with gated := false, quietSince := s.ac, place := placeImage s c }))) ∧
      ((s.core c).gated = false →
        exec (.powerGateWake c) s = .next (s.modCore c fun r => { r with gating := false, commit := none, quietSince := s.ac }))) ∧
    (isBoost s p = true → (s.part p).clockLow = false → overHalf s p = true → exec (.boostClockDown p) s = .next (changeClock p true s)) ∧
    (isBoost s p = true → (s.part p).clockLow = true → overHalf s p = false → (s.part p).halfSince = some since →
      since + 100000 ≤ s.dtime.toNat → exec (.boostClockRestore p) s = .next (changeClock p false s)) ∧
    exec (.throttleStart pkg) s = .next (s.modPkg pkg fun r => { r with throttled := true }) ∧
    exec (.throttleEnd pkg) s = .next (s.modPkg pkg fun r => { r with throttled := false }) ∧
    exec (.overtempShutdown pkg) s = .next (packageReset pkg (s.modPkg pkg fun r => { r with hostMsgs := r.hostMsgs + 1 }))

/-- R203, R228 to R233, R239, R240, R252, R264: the steps of the flyer, of barrier objects, of rectangle barriers and of the drafter, each where it is
enabled: a copy's next chunk, a contribution that is merged or answered with a retry, an arrival that counts, an arrival sent on toward the corner, a
release that goes on along the reverse path, and a plan's segment or the fault of a record that does not check. R35, R37, R39, R45, R46, R75: an idle
slot starts the eligible record nearest the bottom; an idle slot without one asks the nearest victim, has its reply, and may ask again after 64 ac; a
wake and a poll end the registrations they satisfy; a continuation that waits is pushed. R267, R413: a thread that ends by a fault leaves its slot
once its tile stores have been acknowledged, unless it is out; a wait for an event ends when a write has touched its word, and when device time
reaches its limit. -/
def Obligations.EngineAndTaskEventsTakeEffect : Prop :=
  (∀ (s s1 s2 : State) (c : ClusterId) (k data : Nat) (x : Copy) (y : Contribution) (z : BoArr) (i : SliceId) (l : CoreId) (n : BitVec 2)
     (m : MergeSite) (dst : Span) (r : MergeRec) (pl : PlanOp),
     ((s.cluster c).copies[k]? = some x → (s.cluster c).dm.stopped = false →
       (x.stop = true → exec (.flyerChunk c k) s = .next (dropCopy s c x.id)) ∧
       (x.stop = false → afterPathC s x.t x.gen x.id (x.reads s x.t.core.quad) (x.writes s x.t.core.quad) false = false →
         exec (.flyerChunk c k) s = .next (moveChunk s c x))) ∧
     (s.nt.contribs[k]? = some y → ((s.cluster y.t.core.cluster).dm.stopped = false ∨ y.data.isNone = false) → contribBackOff s y = false →
       afterPathC s y.t y.gen y.id (y.reads s y.t.core.quad) (y.writes s y.t.core.quad) true = false → contribData s y = .ok (data, s1) →
       y.dst.span s1 y.t.core.quad y.part 0 y.len .wr = .ok dst → Span.typed s1 dst = false → barStale s1 y.bar = false →
       Span.poisoned s1 dst = false → mergeSite s1 y dst = (m, s2) →
       (s2.nt.merges.find? (sameMerge m y.part) = none → siteRoom s2 y m = true →
         exec (.cpyrMerge k) s = .next (mergeInto s2 y m dst data ⟨m.addr, m.home, m.cluster, y.part, y.fmt, y.len, y.nm1, [], 0, [], []⟩)) ∧
       (s2.nt.merges.find? (sameMerge m y.part) = none → siteRoom s2 y m = false →
         exec (.cpyrMerge k) s = .next (retryContrib s2 y m data)) ∧
       (s2.nt.merges.find? (sameMerge m y.part) = some r → r.nm1 = y.nm1 → r.len = y.len → r.fmt = y.fmt → r.received.contains y.index = false →
         exec (.cpyrMerge k) s = .next (mergeInto s2 y m dst data r))) ∧
     (s.nt.boarrs[k]? = some z →
       ((s.core z.t.core).storeq.any fun e => decide (e.t = z.t ∧ e.gen = z.tgen ∧ e.id < z.id ∨ e.id < z.after)) = false →
       (let w : State := { s with nt := { s.nt with boarrs := dropAt s.nt.boarrs k } }
        (barStale w (some (z.addr, z.gen)) = true → exec (.boarrArrival k) s = .next w) ∧
        (barStale w (some (z.addr, z.gen)) = false →
          exec (.boarrArrival k) s = .next (boArrive w z.t.core z.slice.part z.addr z.count)))) ∧
     (let b := barOf s i l n.toNat
      barComplete l b = true → b.forwarded = false →
      (atCorner l b = true → exec (.barrierArrivalForward i l n) s = .next
        (putBar s l i n.toNat { b with forwarded := true, east := none, south := none, due := true })) ∧
      (atCorner l b = false → exec (.barrierArrivalForward i l n) s = .next
        (sendArrival (putBar s l i n.toNat { b with forwarded := true, east := none, south := none, due := false }) i l n.toNat b))) ∧
     (let b := barOf s i l n.toNat
      b.due = true →
      exec (.barrierRelease i l n) s = .next
        (let w := putBar s l i n.toNat { b with gen := (b.gen + 1) % 256, arrived := b.next, next := [], forwarded := false, due := false }
         let w := passRelease i n.toNat w ({ l with core := l.core + 1 }, decide (coreX l.core < b.x0 + b.wM1))
         let w := passRelease i n.toNat w ({ l with core := l.core + 16 }, decide (coreX l.core = b.x0 ∧ coreY l.core < b.y0 + b.hM1))
         ((w.wk.slots.filter fun e => decide (e.1.core = l)).map (·.1)).foldl (releaseThread i n.toNat) w)) ∧
     (s.nt.plans[k]? = some pl → planWaits s pl = false →
       (pl.refused ≠ 0 → exec (.planExecute k) s = .next (engResolve (dropPlan s k) pl.fut 3 (faultResult (mkTrap 5 0 pl.refused)))) ∧
       (pl.refused = 0 →
         (let total := pl.blocks.foldl (· + ·) 0
          let share := shareOf total pl.cores pl.next
          let chains := chainsOf pl.blocks 0 share.1 share.2
          let off := pl.next * 2 ^ pl.segLog2
          let w := planWrite pl pl.fut.slice.part (off + 16) (16 * chains.length)
            (pack (chains.map fun (i, b, n) => (128, i + b * 2 ^ 16 + n * 2 ^ 64))) s
          let w := planWrite pl pl.fut.slice.part off 16 (chains.length + share.2 * 2 ^ 16) w
          chains.length ≤ 2 ^ pl.segLog2 / 16 - 1 → Span.typed s (subSpan pl.dst off (16 + 16 * chains.length)) = false →
          (pl.next + 1 < pl.cores → exec (.planExecute k) s = .next (setPlan w k { pl with next := pl.next + 1 })) ∧
          (pl.cores ≤ pl.next + 1 → exec (.planExecute k) s = .next (engResolve (dropPlan w k) pl.fut 2 (total % 2 ^ 32))))))) ∧
  (∀ (s : State) (t : ThreadId) (r : SlotRec) (k j since : Nat) (rc : TaskRec) (x : SliceRec) (vc c : CoreId) (w : WakeMsg) (q : Cont),
     (s.slot? t = some r →
       (eligibleAt s t = some k → slotIdle s t r = true → r.steal ≠ .sent → r.steal ≠ .empty → slotDraining s t = false →
         (s.core t.core).deque[k]? = some rc → s.slice? rc.slice = some x → x.st = .running →
         (recordAborts (takeRecord s t.core k) t.core rc = false →
           exec (.idleSlotPop t) s = .next (syncOut (startTask (dropL1 t.core (takeRecord s t.core k)) t rc (recordRegs rc) (recordMarks rc)))) ∧
         (recordAborts (takeRecord s t.core k) t.core rc = true →
           exec (.idleSlotPop t) s = .next ((discardRecord (takeRecord s t.core k) t rc).modSlot t fun r => { r with gen := (r.gen + 1) % 256 }))) ∧
       (slotIdle s t r = true → r.steal = .none → eligibleAt s t = none → dequeRoom s t.core = true →
         (let u := s.modCore t.core fun r => { r with reserved := r.reserved + 1 }
          (pickVictim u t = some vc → topTakeable u t vc = some j → (u.core vc).deque[j]? = some rc →
            exec (.stealRequest t) s = .next ((takeRecord u vc j).modSlot t fun r => { r with steal := .sent, carried := some rc })) ∧
          (pickVictim u t = none → exec (.stealRequest t) s = .next (u.modSlot t fun r => { r with steal := .empty, carried := none })))) ∧
       (r.steal = .sent → r.carried = some rc →
         (let u := (releaseEntry s t.core).modSlot t fun r => { r with steal := .none, carried := none }
          (recordAborts u t.core rc = true →
            exec (.stealReply t) s = .next ((discardRecord u t rc).modSlot t fun r => { r with gen := (r.gen + 1) % 256 })) ∧
          (recordAborts u t.core rc = false → exec (.stealReply t) s = .next (pushBottom u t.core rc)))) ∧
       (r.steal = .empty → exec (.stealReply t) s = .next ((releaseEntry s t.core).modSlot t fun r => { r with steal := .wait s.ac, carried := none })) ∧
       (r.steal = .wait since → since + 64 ≤ s.ac → exec (.stealRetry t) s = .next (s.modSlot t fun r => { r with steal := .none }))) ∧
     (s.nt.wakes[k]? = some w → exec (.futureWake k) s = .next
       (let u : State := { s with nt := { s.nt with wakes := dropAt s.nt.wakes k } }
        let u : State := { u with wk := { u.wk with slots := u.wk.slots.map fun (t, r) =>
          (t, if t.core = w.core then { r with thread := r.thread.map fun th =>
            match th.phase with
            | .future a g p => if a = w.addr && regOver u a g && !p then { th with phase := .ready } else th
            | _ => th } else r) } }
        settleConts u w.core fun a p => decide (a = w.addr) && !p)) ∧
     ((polled s)[k]? = some (.inl t) → exec (.registrationPoll k) s = .next (s.modThread t fun th => match th.phase with
       | .future a g _ => if regOver s a g then { th with phase := .ready } else th
       | _ => th)) ∧
     ((polled s)[k]? = some (.inr c) → exec (.registrationPoll k) s = .next (settleConts s c fun _ p => p)) ∧
     ((s.core c).conts.findIdx? (·.due) = some k → dequeRoom s c = true → (s.core c).conts[k]? = some q →
       exec (.waitingContinuationPush c) s = .next (pushBottom (s.modCore c fun r => { r with conts := dropAt r.conts k }) c q.task))) ∧
  (∀ (s : State) (t : ThreadId) (th : Thread) (e : EndRec) (w : WatchRec),
     s.thread? t = some th →
     (th.phase = .ending → th.nsts = [] → th.endCause = some e → th.outPre = false → th.outBudget = false → th.outDebug = false →
       exec (.taskEndByFault t) s = .next (leaveTask (failTask (s.modThread t fun th =>
         { th with due := { th.due with violations := [], kept := [] } }) t th.ctl.slice th.ctl.joinRec e) t)) ∧
     (th.phase = .watch → th.watch = some w →
       (w.fired = true → exec (.waitevWake t) s = .next (s.modThread t fun th => { th with phase := .ready, watch := some { w with fired := true } })) ∧
       (w.limit ≤ s.dtime.toNat →
         exec (.waitevTimeout t) s = .next (s.modThread t fun th => { th with phase := .ready, watch := some { w with fired := true } }))))

/-- R235 to R238: a word for a neighbour's port, a far message and a port's reply, each the oldest of its path, reach a slot that exists, is of the
generation meant, and has room; one that carries a revoked root is dropped and counted. R150, R155, R157 to R159, R204, R213, R214: the steps of the
memory system: a store that its queue may write; a walk of the page tables, whose translation wakes the threads that wait, or whose failure they trap
on; the retry of a thread that the miss table could not hold; a region's tier read from its map; an access to a remote bank; and a load withheld by a
release of a wider scope, promoted and answered. R73, R74, R81: a fetch that is read again issues its slot where the parity now matches, traps as the
walk says where the line no longer translates, and enters the machine-check log and traps where it mismatches again; the moves of a thread's window
lines, each where it may happen. -/
def Obligations.MessageAndMemoryEventsTakeEffect : Prop :=
  (∀ (s : State) (k : Nat) (m : NbrMsg) (f : FarMsg) (p : ReplyMsg) (r : SlotRec),
     (s.nt.nbrs[k]? = some m → ((s.nt.nbrs.take k).any fun x => decide (x.src = m.src ∧ x.dst = m.dst ∧ x.dir = m.dir)) = false →
       (let w : State := { s with nt := { s.nt with nbrs := dropAt s.nt.nbrs k } }
        (revokedMsg w m.dst.slice.part m.w.roots = true → exec (.neighbourWordArrival k) s = .next (countDropped m.dst.core 1 w)) ∧
        (revokedMsg w m.dst.slice.part m.w.roots = false → w.slot? m.dst = some r →
          exec (.neighbourWordArrival k) s = .next (w.modSlot m.dst fun r => r.setPort m.dir (r.port m.dir ++ [m.w]))) ∧
        (revokedMsg w m.dst.slice.part m.w.roots = false → w.slot? m.dst = none → exec (.neighbourWordArrival k) s = .next (countDropped m.dst.core 1 w)))) ∧
     (s.nt.fars[k]? = some f →
       ((s.nt.fars.take k).any fun x => decide (x.src.t = f.src.t ∧ x.dstCore = f.dstCore ∧ x.slot = f.slot ∧ x.dstSlice = f.dstSlice)) = false →
       (let w : State := { s with nt := { s.nt with fars := dropAt s.nt.fars k } }
        (revokedMsg s f.dstSlice.part f.roots = true → exec (.farMessageDelivery k) s = .next (countDropped f.dstCore 1 w)) ∧
        (revokedMsg s f.dstSlice.part f.roots = false → s.slot? ⟨f.dstCore, f.dstSlice, f.slot⟩ = some r → (wfield f.header 56 8 = r.gen ∨ bitAt f.header 16 = true) →
          r.far.length + f.words.length ≤ 16 →
          exec (.farMessageDelivery k) s = .next (w.modSlot ⟨f.dstCore, f.dstSlice, f.slot⟩ fun r =>
            { r with far := r.far ++ (f.words.zipIdx.map fun (x, i) => ⟨x, f.src, i == 0, f.roots⟩) })) ∧
        (revokedMsg s f.dstSlice.part f.roots = false → s.slot? ⟨f.dstCore, f.dstSlice, f.slot⟩ = some r → wfield f.header 56 8 ≠ r.gen → bitAt f.header 16 = false →
          exec (.farMessageDelivery k) s = .next (dropFar f r.gen w)))) ∧
     (s.nt.replies[k]? = some p → ((s.nt.replies.take k).any fun x => decide (x.src = p.src ∧ x.dst = p.dst)) = false →
       (let w : State := { s with nt := { s.nt with replies := dropAt s.nt.replies k } }
        (revokedMsg s p.dst.slice.part p.w.roots = true → exec (.portReplyArrival k) s = .next (countDropped p.dst.core 1 w)) ∧
        (revokedMsg s p.dst.slice.part p.w.roots = false → s.slot? p.dst = some r → r.gen = p.gen → r.replies.length < 8 →
          exec (.portReplyArrival k) s = .next (w.modSlot p.dst fun r => { r with replies := r.replies ++ [p.w] })) ∧
        (revokedMsg s p.dst.slice.part p.w.roots = false → s.slot? p.dst = some r → r.gen ≠ p.gen → exec (.portReplyArrival k) s = .next (countDropped p.dst.core 1 w))))) ∧
  (∀ (s s2 : State) (c : CoreId) (q : QuadId) (t : ThreadId) (th : Thread) (k pa log2 code level : Nat) (rd wr ex : Bool) (e : StoreEnt) (m : MissEnt)
     (key : RegionKey) (w : Withheld) (b : BankReq),
     ((s.core c).storeq[k]? = some e → storeReady s ((s.core c).storeq.take k) e = true →
       exec (.storeQueueWrite c k) s = .next
         (let u := touchPlain (s.modCore c fun r => { r with storeq := dropAt r.storeq k }) c (e.pa % 2 ^ 128)
          leaveTagOf (updateL1 (storeAt u c e.slice.part e.pc e.pa e.n e.val) c e)
            (e.rel.map fun sc => ⟨e.pa, e.n, sc, c, e.t, e.gen, e.id⟩))) ∧
     ((s.quad q).miss[k]? = some m →
       (let m1 := s.modQuad q fun r => { r with miss := dropAt r.miss k }
        let a := walkVia m1 m.part m.va 3 1 (wfield (m1.part m.part).ptroot 15 33 * 2 ^ 15) (m1.quad q).walks
        let u := m1.modQuad q fun r => { r with walks := a.2 }
        (a.1 = .ok pa log2 rd wr ex →
          exec (.pageWalk q k) s = .next (m.waiters.foldl (fun s t => wakeFrom s t .walk) (u.modQuad q fun r =>
            { r with stlb := ((⟨m.part, m.va / 2 ^ log2, log2, pa / 2 ^ log2, rd, wr, ex⟩ : TlbEnt) :: r.stlb).take 16384 }))) ∧
        (a.1 = .fail code level →
          exec (.pageWalk q k) s = .next (m.waiters.foldl (fun s t => wakeFrom (s.modThread t fun th =>
            if th.phase = .walk then { th with due := { th.due with walkFail := some ⟨m.va / 2 ^ 16, code, level⟩ } } else th) t .walk) u)))) ∧
     (((s.quad t.core.quad).miss.any fun m => m.waiters.contains t) = false → exec (.missTableRetry t) s = .next (wakeFrom s t .walk)) ∧
     ((s.quad q).regionMiss[k]? = some key →
       exec (.regionCacheFill q k) s = .next (s.modQuad q fun r =>
         { r with regionMiss := dropAt r.regionMiss k
                  regionCache := if (regionEntry s key).testBit 31 then (tput r.regionCache key (regionEntry s key)).take 65536
                    else r.regionCache })) ∧
     (s.nt.withheld[k]? = some w →
       (((s.core w.tag.core).storeq.any fun e => decide (e.t = w.tag.t ∧ e.gen = w.tag.gen ∧ e.id < w.tag.before)) = false →
         exec (.scopeMiss k) s = .next { s with nt := { s.nt with withheld := setAt s.nt.withheld k { w with promoted := true } } }) ∧
       (w.promoted = true → exec (.promotedReply k) s = .next
         (let mine := fun (x : Withheld) => decide (x.tag = w.tag)
          (s.nt.withheld.filter mine).foldl answerWithheld
            { s with nt := { s.nt with withheld := s.nt.withheld.filter (fun x => !mine x), relTags := s.nt.relTags.filter (· ≠ w.tag) } }))) ∧
     (s.nt.bankNet[k]? = some b → s.thread? b.t = some th →
       Runs (do readAll b.hdr b.srcs; writeResolved b.marked; bankDo b.addr b.taddr b.acq b.rel b.op)
         { s with cur := .thread b.t, nt := { s.nt with bankNet := dropAt s.nt.bankNet k } } () s2 →
       exec (.remoteBankAccess k) s = .next (saveOut (markIssue (retire b.t b.hdr.eog .seq s2) b.t b.hdr.ya) b.t))) ∧
  (∀ (s : State) (t : ThreadId) (th : Thread) (pa line : Nat) (x : TrapRec) (l : LineSt),
     s.thread? t = some th →
     (th.phase = .refetch →
       (walkTo s th.ctl.slice.part th.ctl.pc.toNat .ex = .error x → exec (.fetchRefetch t) s = .next (takeTrap t x s)) ∧
       (walkTo s th.ctl.slice.part th.ctl.pc.toNat .ex = .ok pa →
         (let line := s.rd (addrHbm th.ctl.slice.part.pkg (pa / 64 * 64)) 64
          let j := wfield th.ctl.pc 0 3
          (parity96 (lineSlot line j) = linePar (lineWord line) j →
            exec (.fetchRefetch t) s = .next (s.modThread t fun th => { th with phase := .ready })) ∧
          (parity96 (lineSlot line j) ≠ linePar (lineWord line) j →
            exec (.fetchRefetch t) s = .next (takeTrap t (mkTrap 3 th.ctl.pc.toNat 0)
              (mcLog s t.core.dieId (mcCore t.core th.ctl.slice.part 7 3 pa th.ctl.pc.toNat))))))) ∧
     (residentLines s t.core < 2304 →
       (tfind th.lines line = none → mayCreate s t th line = true →
         exec (.bobbinLineMove t line .create) s = .next (createLine s t th line)) ∧
       (tfind th.lines line = some .home → exec (.bobbinLineMove t line .load) s = .next (loadLine s t th line))) ∧
     (tfind th.lines line = some l → l.resident = true → mayEvict s t th line = true →
       exec (.bobbinLineMove t line .evict) s = .next (evictLine s t th line l)))

/-- R175 to R177, R179 to R182, R185, R189, R191, R192: a request of path V that may be served, taken with its home h, takes effect there: a store, a
load, one of the four short requests, a contribution; then what follows it: a refused store offered again, an acknowledgement, a notice, a resend, an
answer, and a tile that reaches its slot. R180, R184, R376: a load served at its home, for the thread that still waits in its slot: a version that can
be delivered is, and the thread goes on; a poisoned one traps; one that is not there yet takes a waiter record, or is answered "retry" when the home
holds 8,192. R162, R187, R197, R198, R360: a root decision takes effect at its place; a thread that leaves the rotation withdraws its request; a reel
writes the next version into a free slot, stores the next filled slot as a version, waits or faults where it cannot, or goes when it was stopped. -/
def Obligations.TileEventsTakeEffect : Prop :=
  (∀ (s s1 s2 : State) (k : Nat) (m : VMsg) (h : HomeId) (a : NstAck) (x : SlotTile) (o : LongOp) (size fmt count data idx nm1 res : Nat) (roots : List Nat)
  (root : Option Nat) (v : Bool) (fut : Fut) (regs : List (Nat × Word)) (g : Option (Nat × Bool)),
     (takeV s k = some (m, h, s1) →
       (m.kind = .nst size fmt count data roots root →
         (storeVer s1 h (verPart h m.part) (refusedAhead s1 h (verPart h m.part) s1.tl.refused (s.ac + 1)) m size fmt count data roots = (.done v, s2) →
           exec (.nstArrival k) s = .next (ackStore s2 h m v)) ∧
         (storeVer s1 h (verPart h m.part) (refusedAhead s1 h (verPart h m.part) s1.tl.refused (s.ac + 1)) m size fmt count data roots = (.refused, s2) →
           exec (.nstArrival k) s = .next (verEvent { s2 with tl := { s2.tl with refused := s2.tl.refused ++ [{ m with firstRefused := s.ac }] } }
             h (verPart h m.part) (!roots.isEmpty) 1 m.name m.ver 0))) ∧
       exec (.nldRequest k) s = serveNld s s1 h m ∧
       (isSimple m.kind = true →
         (serveSimple s1 h (verPart h m.part) m = some (regs, g, s2) →
           exec (.homeRequest k) s = .next { s2 with tl := { s2.tl with answers := s2.tl.answers ++ [⟨m.id, m.t, m.slice, m.wsp, regs, g, 0, h.pkg⟩] } }) ∧
         (serveSimple s1 h (verPart h m.part) m = none →
           exec (.homeRequest k) s = .next (verEvent { s1 with tl := { s1.tl with retries := s1.tl.retries ++ [refuseV s m] } }
             h (verPart h m.part) m.prov 1 m.name m.ver 0))) ∧
       (m.kind = .nred size fmt count idx nm1 data roots fut →
         (contribute s1 h (verPart h m.part) m size fmt count idx nm1 data roots = (.resolved, s2) → m.refusals = 0 →
           exec (.nredContributionArrival k) s = .next (engResolve s2 fut 2 idx)) ∧
         (contribute s1 h (verPart h m.part) m size fmt count idx nm1 data roots = (.faulted res, s2) →
           exec (.nredContributionArrival k) s = .next (engResolve s2 fut 3 res)) ∧
         (contribute s1 h (verPart h m.part) m size fmt count idx nm1 data roots = (.retry, s2) →
           exec (.nredContributionArrival k) s = .next (verEvent { s2 with tl := { s2.tl with retries := s2.tl.retries ++ [refuseV s m] } }
             h (verPart h m.part) (!roots.isEmpty) 1 m.name m.ver 0)))) ∧
     (s.tl.refused[k]? = some m → m.kind = .nst size fmt count data roots root → nameHome s m.t.core m.part m.name = (h, s1) →
       linksUp s m.part.pkg h.pkg = true →
       storeVer s1 h (verPart h m.part) (refusedAhead s1 h (verPart h m.part) (s.tl.refused.take k) m.firstRefused) m size fmt count data roots = (.done v, s2) →
       exec (.refusedStoreRetry k) s = .next (ackStore
         (verEvent { s2 with tl := { s2.tl with refused := dropAt s2.tl.refused k } } h (verPart h m.part) (!roots.isEmpty) 2 m.name m.ver
           (s.ac - m.firstRefused)) h m v)) ∧
     (s.tl.acks[k]? = some a → linksUp s a.home a.t.core.pkg = true →
       (let w : State := { s with tl := { s.tl with acks := dropAt s.tl.acks k } }
        (msgLive w a.t a.gen = false → exec (.nstAcknowledge k) s = .next w) ∧
        (msgLive w a.t a.gen = true → exec (.nstAcknowledge k) s = .next (w.modThread a.t fun th =>
          match th.nsts.find? fun n => decide (n.id = a.id) with
          | none => th
          | some n =>
            let th := { th with nsts := th.nsts.filter fun n => n.id ≠ a.id }
            if a.violation ∧ th.phase ≠ .ending then { th with due := { th.due with violations := insertViolation th.due.violations n } }
            else th)))) ∧
     (s.tl.notices[k]? = some (.load m h) → linksUp s m.part.pkg h.pkg = true →
       exec (.arrivalNotice k) s = serveNld s { s with tl := { s.tl with notices := dropAt s.tl.notices k } } h m) ∧
     (s.tl.retries[k]? = some m → m.since + min 8192 (256 * 2 ^ (m.refusals - 1)) ≤ s.ac →
       exec (.retryResend k) s = .next { s with tl := { s.tl with retries := dropAt s.tl.retries k, vnet := s.tl.vnet ++ [m] } }) ∧
     (s.tl.answers[k]? = some o → linksUp s o.home o.t.core.pkg = true → windowThere s o.t o.wsp = true →
       exec (.homeAnswer k) s = .next (completeOp { s with tl := { s.tl with answers := dropAt s.tl.answers k } } o)) ∧
     (s.tl.slotTiles[k]? = some x → msgLive s x.t x.gen = true →
       exec (.nldSlotArrival k) s = answerThread x.t x.eog s { s with tl := { s.tl with slotTiles := dropAt s.tl.slotTiles k } } (fillSlot x))) ∧
  (∀ (orig s s1 : State) (h : HomeId) (m : VMsg) (d maxsz : Nat) (dest : NldTo) (p cons ge : Bool) (th : Thread) (v : Version) (f : Flow),
     m.kind = .nld d dest maxsz p cons ge → s.thread? m.t = some th → slotGen s m.t = m.gen →
     (serveLoad s h (verPart h m.part) m.name m.ver p ge (heldRoots s m.t th) = .tile v → windowThere s m.t th.ctl.wsp = true →
       Runs (deliver m v d dest maxsz cons) { s with cur := .thread m.t } f s1 →
       serveNld orig s h m = .next (markIssue (retire m.t m.eog f s1) m.t false)) ∧
     (serveLoad s h (verPart h m.part) m.name m.ver p ge (heldRoots s m.t th) = .poisoned →
       serveNld orig s h m = .next (takeTrap m.t (mkTrap 9 (refWord m.name m.ver).toNat 0) (releaseSlot s m))) ∧
     (serveLoad s h (verPart h m.part) m.name m.ver p ge (heldRoots s m.t th) = .wait → waitersAt s h < 8192 →
       serveNld orig s h m = .next { s with tl := { s.tl with waiters := s.tl.waiters ++ [.load m h] } }) ∧
     (serveLoad s h (verPart h m.part) m.name m.ver p ge (heldRoots s m.t th) = .wait → 8192 ≤ waitersAt s h →
       serveNld orig s h m = .next (verEvent
         { s with tl := { s.tl with retries := s.tl.retries ++ [{ m with refusals := m.refusals + 1, since := s.ac }] } } h (verPart h m.part)
         (!(heldRoots s m.t th).isEmpty) 5 m.name m.ver 0))) ∧
  (∀ (s s1 : State) (k : Nat) (d : Decision) (c : CoreId) (h : HomeId) (t : ThreadId) (th : Thread) (x : SubRec) (v : Version) (b : CbState) (a : Addr),
     (s.tl.decisions[k]? = some d → linksUp s d.part.pkg d.place.pkg = true →
       (let w : State := { s with tl := { s.tl with decisions := dropAt s.tl.decisions k } }
        (d.place = .core c → exec (.rootDecisionArrival k) s = .next (decideAtCore w c)) ∧
        (d.place = .home h → exec (.rootDecisionArrival k) s = .next
          (let hit := if d.confirm then [] else revokedWaiters w d h
           let u := decideAtHome w d h
           let gone := fun (y : Waiter) => match y with
             | .load m _ => hit.any fun z => decide (z.id = m.id)
             | _ => false
           let u := { u with tl := { u.tl with waiters := u.tl.waiters.filter fun y => !gone y } }
           hit.foldl (fun s m => takeTrap m.t (mkTrap 10 0 (d.root * 256)) (releaseSlot s m)) u)))) ∧
     (s.thread? t = some th → (th.outPre || th.outBudget || th.outDebug) = true → withdrawable s t th = true →
       exec (.withdrawal t) s = .next ((withdraw s t).modThread t fun th => { th with phase := .ready, watch := none, shape := none })) ∧
     (s.tl.subs[k]? = some x → x.wb = false → x.waiting = false →
       (x.stop = true → exec (.reelSlotFill k) s = .next (dropSub s x)) ∧
       (x.stop = false → subHome s x = (h, s1) → subNames x = true → subBackOff s x = false → linksUp s x.part.pkg h.pkg = true →
         (serveLoad s1 h (verPart h x.part) x.name x.ver false false [] = .tile v → subCb s1 x = some b → b.room ≠ 0 →
           tileBytes v.size ≤ b.slotSz * 16 → subAddr s1 x b b.p = some a → s1.typedAt a (tileBytes v.size) = false → v.poison = [] →
           exec (.reelSlotFill k) s = .next
             (let n := tileBytes v.size
              let w := if x.cons then consumeVer s1 (!x.roots.isEmpty) v else s1
              let w := engWatch ((Span.write w v.data [(a, n)]).fillGranules a (b.slotSz * 16)) x.part a n true false
              advanceSub (setSubCb w x { b with p := (b.p + 1) % 2 ^ 32 }) x)) ∧
         (serveLoad s1 h (verPart h x.part) x.name x.ver false false [] = .poisoned → exec (.reelSlotFill k) s = .next (faultSub s1 x 9)) ∧
         (serveLoad s1 h (verPart h x.part) x.name x.ver false false [] = .wait → waitersAt s1 h < 8192 →
           exec (.reelSlotFill k) s = .next (putSub
             { s1 with tl := { s1.tl with waiters := s1.tl.waiters ++ [.reel x.id x.part h x.name x.ver] } } { x with waiting := true })) ∧
         (serveLoad s1 h (verPart h x.part) x.name x.ver false false [] = .wait → 8192 ≤ waitersAt s1 h →
           exec (.reelSlotFill k) s = .next (verEvent (putSub s1 { x with refusals := x.refusals + 1, since := s1.ac }) h (verPart h x.part)
             (!x.roots.isEmpty) 5 x.name x.ver 0)))) ∧
     (s.tl.subs[k]? = some x → x.wb = true →
       (x.stop = true → exec (.reelWritebackDrain k) s = .next (dropSub s x)) ∧
       (x.stop = false → subCb s x = some b → subAddr s x b b.c = some a → b.filled ≠ 0 → subHome s x = (h, s1) → subNames x = true →
         linksUp s x.part.pkg h.pkg = true →
         (findVer s1 h (verPart h x.part) x.name x.ver = some v → exec (.reelWritebackDrain k) s = .next (faultSub s1 x 8)) ∧
         (findVer s1 h (verPart h x.part) x.name x.ver = none → x.refusals = 0 →
           refusedAhead s1 h (verPart h x.part) (s1.tl.refused.filter fun m => decide (m.firstRefused < s.ac + 1)) (s.ac + 1) = false →
           homeRoom s1 h (verPart h x.part) (tileBytes x.size) = true → poisonIn s1 a (tileBytes x.size) = [] →
           exec (.reelWritebackDrain k) s = .next
             (let n := tileBytes x.size
              let w := createVer s1 h (verPart h x.part) x.name x.ver x.size x.fmt x.count (s1.rd a n) []
              let w := engWatch w x.part a n false false
              advanceSub (setSubCb w x { b with c := (b.c + 1) % 2 ^ 32 }) x)) ∧
         (findVer s1 h (verPart h x.part) x.name x.ver = none → x.refusals = 0 → homeRoom s1 h (verPart h x.part) (tileBytes x.size) = false →
           exec (.reelWritebackDrain k) s = .next
             (verEvent (putSub s1 { x with refusals := 1, since := s.ac }) h (verPart h x.part) false 1 x.name x.ver 0)))))

/-- R274 to R277, R280, R284: an event reaches its pipeline after the earlier ones of its source; a window begins; firmware loads and detaches a
filter slot, and clears an object; a core logs a change of its state, and an escape 4,096 ac after the last record. R166, R269, R286 to R290: a
cluster's stop, requested and taken, its resume and a step of one thread; an uncorrectable error in a line of a buffer, a granule, a version's tile, a
thread's or a handle's state and a shared structure, and a corrected error. -/
def Obligations.CarderDebugAndErrorEventsTakeEffect : Prop :=
  (∀ (s : State) (d : DieId) (k p slot obj : Nat) (e : CdEvent) (c : CoreId) (desc : Word) (words : List (BitVec 32)),
     ((s.die d).taps[k]? = some e → ((s.die d).taps.take k).any (fun x => decide (x.src = e.src)) = false →
       (let w := syncWindow d (s.modDie d fun r => { r with taps := dropAt r.taps k })
        (cdPipe w d e.part = none → exec (.carderEvent d k) s = .next w) ∧
        (cdPipe w d e.part = some p → 1024 ≤ (w.pipe d p).queue.length → exec (.carderEvent d k) s = .next (countOverload w d e.part)) ∧
        (cdPipe w d e.part = some p → (w.pipe d p).queue.length < 1024 → (w.pipe d p).run.isSome = true →
          exec (.carderEvent d k) s = .next (w.setPipe d p { w.pipe d p with queue := (w.pipe d p).queue ++ [e] })) ∧
        (cdPipe w d e.part = some p → (w.pipe d p).queue.length < 1024 → (w.pipe d p).run.isSome = false →
          exec (.carderEvent d k) s = .next (cdTake d p ((w.pipe d p).queue ++ [e]) w)))) ∧
     exec (.carderWindowStart d) s = .next (syncWindow d s) ∧
     (slot < 64 → bitAt desc 63 = true → cdLoads s d desc words = true →
       exec (.filterSlotLoad d slot desc words) s = .next (fslotLoad d slot desc words s)) ∧
     (slot < 64 → bitAt desc 63 = false → exec (.filterSlotDetach d slot desc) s = .next (fslotLoad d slot desc [] s)) ∧
     (obj < 256 → exec (.objectClear d obj) s = .next
       (let o := (s.obj d obj).word
        (s.wr (addrCarder d (objBase o)) (min (objBytes o) (2 ^ 22 - objBase o)) 0).modObj d obj fun x =>
          { x with cons := x.prod, drops := 0, seq := 0 })) ∧
     ((s.log c).lastAc + 4096 ≤ s.ac → exec (.stateLogEscape c) s = .next (s.modLog c fun l =>
       { logAppend l [0x1000, wfield s.dtime 0 16, wfield s.dtime 16 16, wfield s.dtime 32 16] with lastAc := s.ac })) ∧
     (coreState s c ≠ (s.log c).last → s.ac < (s.log c).lastAc + 4096 → exec (.stateChangeRecord c) s = .next
       (let seqs := (s.wk.slots.filterMap fun e => if e.1.core = c then some e.1.slice.seq else none).eraseDups
        let seq := if seqs.length = 0 then Config.stateSlice s.free else seqs[Config.stateSlice s.free % seqs.length]?.getD 0
        let u := s.modLog c fun l =>
          { logAppend l [coreState s c * 2 ^ 14 + (s.ac - l.lastAc)] with last := coreState s c, lastAc := s.ac, enteredAc := s.ac }
        raiseEvent { u with free := u.free + 1 } c.dieId c.core 0xF ⟨c.pkg, unitOwner u c.pkg c.cluster.unit⟩ 0 false
          [coreState s c, (s.log c).last, sat32 (s.ac - (s.log c).enteredAc), seq % 2 ^ 32]))) ∧
  (∀ (s : State) (c : ClusterId) (core slot line ver g : Nat) (l : CoreId) (a : Addr) (t : ThreadId) (p : PartId) (d : DieId)
     (h : HomeId) (n : Nat) (w : SharedUnit),
     ((s.cluster c).dm.req = true → ((clusterThreads s c).all fun t => (s.thread? t).all fun th => th.isOut || mayLeave s t th) = true →
       exec (.debugStop c) s = .next (takeStop c s)) ∧
     ((s.cluster c).dm.req = false → exec (.debugStop c) s = .next (requestStop s c)) ∧
     ((s.cluster c).dm.stopped = true →
       exec (.debugResume c) s = .next (((clusterThreads s c).foldl debugBack s).modCluster c fun r =>
         { r with dm := { r.dm with stopped := false, step := none } })) ∧
     (let u := selectSlot c core slot s
      ((u.cluster c).dm.stopped = true → stepTarget u (c.core (u.cluster c).dm.selCore) (u.cluster c).dm.selSlot = some t →
        exec (.debugStep c core slot) s = .next (u.modCluster c fun r => { r with dm := { r.dm with step := some t } })) ∧
      ((u.cluster c).dm.stopped = false →
        exec (.debugStep c core slot) s = .next (u.modCluster c fun r => { r with dm := { r.dm with step := none, stepRes := 4 } }))) ∧
     ((s.core l).l1.any (fun x => decide (x.addr = line)) = true → exec (.uncorrectableError (.l1 l line)) s = .next (lostL1 l line s)) ∧
     exec (.uncorrectableError (.granule a)) s = .next (poisonGranule a s) ∧
     exec (.uncorrectableError (.threadState t true)) s = .next (machineCheck t true (some offPcsave) (loseControl t s)) ∧
     exec (.uncorrectableError (.threadState t false)) s = .next (machineCheck t false (some offPcsave) s) ∧
     exec (.uncorrectableError (.handleState t true)) s = .next (machineCheck t true none (loseHandles t s)) ∧
     exec (.uncorrectableError (.handleState t false)) s = .next (machineCheck t false none s) ∧
     exec (.uncorrectableError (.corrected d)) s = .next (countCorrected d s) ∧
     exec (.uncorrectableError (.version h p n ver g)) s = .next (poisonVersion h p n ver g s) ∧
     exec (.uncorrectableError (.shared p w)) s = .next (lostStructure p w s) ∧
     lostStructure p (.core l) s = startReset p (mcLog s l.dieId (mcCore l p 10 5 0 0)))

/-- R270, R271, R302, R303: the resets of a partition, a die and a package; each step of the watchdog's ladder, once it is due and no partition reset
is under way; a kick, from machine mode alone; and the live swap's request and end. R21, R22, R61, R119, R156, R157, R171, R172, R244, R249, R295: the
writes of a partition's registers: most take effect only while the partition is idle, and one of a value that the register does not take is ignored.
-/
def Obligations.ResetsAndRegisterWritesTakeEffect : Prop :=
  (∀ (s : State) (p : PartId) (d : DieId) (n : Nat) (q : QuadId) (addr : Word),
     exec (.reset p 1) s = .next (startReset p s) ∧
     ((s.part p).resetBusy = true → exec (.partitionResetComplete p) s = .next (finishReset p s)) ∧
     exec (.dieReset d) s = .next (dieReset d s) ∧
     exec (.packageReset n) s = .next (packageReset n s) ∧
     (anyReset s q.pkg = false →
       (wdDue s q 0 10 = true → exec (.watchdogSoftRestart q) s = .next
         (enterImage q (s.quad q).cp.image ((wdTake q 1 s).modQuad q fun r => { r with restarts := r.restarts + 1 }))) ∧
       (wdDue s q 1 30 = true →
         (let u := wdTake q 2 s
          let a := (u.quad q).cp.image
          (imagePasses u q.pkg a = true →
            exec (.watchdogFirmwareReload q) s = .next (enterImage q a (u.modQuad q fun r => { r with restarts := r.restarts + 1 }))) ∧
          (imagePasses u q.pkg a = false → exec (.watchdogFirmwareReload q) s = .next u))) ∧
       (wdDue s q 2 80 = true → exec (.watchdogPartitionReset q) s = .next ((onlyServed s q).foldl (fun s p => startReset p s) (wdTake q 3 s))) ∧
       (wdDue s q 3 180 = true → exec (.watchdogDieReset q) s = .next (dieReset ⟨q.pkg, q.die⟩ (wdTake q 4 s))) ∧
       (wdDue s q 4 380 = true → exec (.watchdogPackageReset q false) s = .next (ladderReset q.pkg s)) ∧
       exec (.watchdogPackageReset q true) s = .next (ladderReset q.pkg s)) ∧
     ((s.quad q).cp.mode = 3 →
       (let went := fun (u : State) => u.modQuad q fun r => { r with cp := { r.cp with pc := r.cp.pc + 4 } }
        exec (.wdkick q) s = .next (went (s.modQuad q fun r => { r with kick := s.dtime.toNat, wdStep := 0 })) ∧
        ((s.quad q).swapSt ≠ 1 → exec (.swapreq q addr) s = .next (went (s.modQuad q fun r =>
          { r with swapSt := 1, swapAddr := addr, suspended := some s.dtime.toNat }))))) ∧
     ((s.quad q).cp.mode < 3 → exec (.wdkick q) s = .next (cpIllegal q s) ∧
       ((s.quad q).swapSt ≠ 1 → exec (.swapreq q addr) s = .next (cpIllegal q s))) ∧
     ((s.quad q).swapSt = 1 →
       (let k := max (s.quad q).kick (s.pkg q.pkg).resetAt
        (imagePasses s q.pkg (s.quad q).swapAddr = true → exec (.swapVerifyDone q true) s = .next
          (enterImage q (s.quad q).swapAddr (s.modQuad q fun r => { r with swapSt := 2, suspended := none, kick := k + wdHeld s q k }))) ∧
        (imagePasses s q.pkg (s.quad q).swapAddr = false → exec (.swapVerifyDone q false) s = .next
          (s.modQuad q fun r => { r with swapSt := 3, suspended := none, kick := k + wdHeld s q k }))))) ∧
  (∀ (s : State) (p : PartId) (v : Word) (d : Fin 4) (n : Fin 8),
     (partIdle s p = true →
       (wfield v 0 2 ≠ 3 → exec (.mode p v) s = .next (noteHalf p ((listBudgets p s).modPart p fun r =>
         { r with mode := v &&& (0xFFFF001F : Word), clockLow := false, halfSince := none }))) ∧
       (wfield v 0 2 = 3 → exec (.mode p v) s = .next s) ∧
       ((∀ i < 7, wfield v (2 * i) 2 ≠ 3) → exec (.ovdef p v) s = .next (s.modPart p fun r => { r with ovdef := v &&& (0x3FFF : Word) })) ∧
       ((∃ i < 7, wfield v (2 * i) 2 = 3) → exec (.ovdef p v) s = .next s) ∧
       (1 ≤ wfield v 0 16 → wfield v 0 16 ≤ 0x8000 → 1 ≤ wfield v 32 8 → wfield v 32 8 ≤ 64 →
         exec (.vquota p v) s = .next (s.modPart p fun r => { r with vquota := v &&& (0xFF0000FFFF : Word) })) ∧
       (v.toNat ≤ 2 ^ 20 → exec (.nregion p v) s = .next (s.modPart p fun r => { r with nregion := v })) ∧
       exec (.roothome p v) s = .next (s.modPart p fun r => { r with roothome := v &&& (0x80000000000000FF : Word) }) ∧
       (v.toNat % 2 ^ 16 = 0 → v.toNat < 2 ^ 39 → v.toNat / 2 ^ 30 % 64 = 63 → v.toNat % 2 ^ 30 + 2 ^ 22 ≤ 2 ^ 30 →
         exec (.nrmbase p v) s = .next (s.modPart p fun r => { r with nrmbase := v })) ∧
       ((wfield v 16 16 = 0 ∨ (128 * d.val ≤ wfield v 0 16 ∧ wfield v 0 16 + wfield v 16 16 ≤ 128 * (d.val + 1) ∧
           (nrange (wfield v 0 16) (wfield v 16 16)).all (ownsGranule s p) = true)) →
         exec (.arena p d v) s = .next (s.modPart p fun r =>
           { r with arenas := tput r.arenas d.val (BitVec.ofNat 64 (wfield v 0 16 + wfield v 16 16 * 2 ^ 16)) })) ∧
       (wfield v 48 10 ≠ 0 → wfield v 58 5 ≤ 20 → wfield v 36 12 = 0 → exec (.wpool p n v) s = .next (s.modPart p fun r =>
         { r with wpools := tput r.wpools n.val v
                  wfree := if bitAt v 63 && decide (tget r.wpools n.val 0 = v) then r.wfree else tdel r.wfree n.val })) ∧
       exec (.pxctl p v) s = .next (s.modPart p fun r => { r with pxctl := v &&& (0x81FFFFFFFFFFFF80 : Word) })) ∧
     (partIdle s p = false →
       exec (.mode p v) s = .next s ∧ exec (.ovdef p v) s = .next s ∧ exec (.vquota p v) s = .next s ∧ exec (.nregion p v) s = .next s ∧
       exec (.roothome p v) s = .next s ∧ exec (.nrmbase p v) s = .next s ∧ exec (.arena p d v) s = .next s ∧ exec (.wpool p n v) s = .next s ∧
       exec (.pxctl p v) s = .next s) ∧
     (wfield v 0 8 ≠ 0 → exec (.dctl p v) s = .next (s.modPart p fun r => { r with ageLimit := wfield v 0 8 })) ∧
     (wfield v 0 8 = 0 → exec (.dctl p v) s = .next s))

/-- R156, R159, R293, R296, R300, R429: the translation buffers' invalidation and a region's release, begun and completed; a granule's owner; a
partition created and destroyed; a slice that firmware submits; and the tails that firmware moves. R5, R6, R26, R280, R294, R297, R298, R328: plain
registers take what their fields allow; host DMA in device or host memory writes and reads bytes; and the links' events. -/
def Obligations.FirmwareAndLinkEventsTakeEffect : Prop :=
  (∀ (s : State) (p : PartId) (v addr : Word) (pkg g : Nat) (units : List Nat) (q : QuadId) (d : DieId),
     exec (.tlbInvalidate p v) s = .next (s.modPart p fun r => { r with tlbInv := v &&& (0x000FFFFFFFFF003F : Word), tlbBusy := true }) ∧
     ((s.part p).tlbBusy = false → exec (.tlbInvalidateComplete p) s = .next s) ∧
     ((s.part p).tlbBusy = true → exec (.tlbInvalidateComplete p) s = .next
       (let v := (s.part p).tlbInv
        let gone := fun (e : TlbEnt) => decide (e.part = p) && invalidates v (e.vbase * 2 ^ e.log2) e.log2
        let walk := fun (e : WalkEnt) => decide (e.part = p) && invalidates v (e.vbase * 2 ^ (52 - 12 * e.level)) (52 - 12 * e.level)
        let miss := fun (e : MissEnt) => decide (e.part = p) && invalidates v (e.va / 2 ^ 16 * 2 ^ 16) 16
        let again := s.un.quads.flatMap fun e => (e.2.miss.filter miss).flatMap (·.waiters)
        let u := { s with un := { s.un with
          cores := tall s.un.cores fun r => { r with tlb := r.tlb.filter fun e => !gone e }
          quads := tall s.un.quads fun r => { r with stlb := r.stlb.filter (fun e => !gone e), miss := r.miss.filter (fun e => !miss e)
                                                     walks := r.walks.filter fun e => !walk e } } }
        (again.foldl (fun s t => s.modThread t fun th => if th.phase = .walk then { th with phase := .ready } else th) u).modPart p fun r =>
          { r with tlbBusy := false, tlbInv := r.tlbInv ||| (0x8000000000000000 : Word) })) ∧
     (bitAt (s.part p).regrel 62 = false →
       exec (.regrel p v) s = .next (s.modPart p fun r => { r with regrel := (v &&& (0x80000000007FFFFF : Word)) |||
         (if regionHeld s (regionOf p v) then (0x2000000000000000 : Word) else (0x4000000000000000 : Word)) })) ∧
     (bitAt (s.part p).regrel 62 = true →
       exec (.regrel p v) s = .next s ∧
       exec (.regionReleaseComplete p) s = .next
         (let k := regionOf p (s.part p).regrel
          let u := if (regionEntry s k).testBit 31 then setRegionEntry s k (regionEntry s k - 2 ^ 31) else s
          let u : State := { u with un := { u.un with quads := tall u.un.quads fun r => { r with regionCache := tdel r.regionCache k } } }
          u.modPart p fun r => { r with regrel := (s.part p).regrel &&& (0x80000000007FFFFF : Word) })) ∧
     (g < 512 → g % 64 ≠ 63 → wfield v 6 57 = 0 →
       (bitAt v 63 = false ∨ ((s.part ⟨pkg, wfield v 0 6⟩).dies.contains (g / 128) = true ∧ holdsAdmitted s ⟨pkg, wfield v 0 6⟩ = false)) →
       (bitAt (tget (s.pkg pkg).gown g 0) 63 = false ∨ holdsAdmitted s ⟨pkg, wfield (tget (s.pkg pkg).gown g 0) 0 6⟩ = false) →
       exec (.gown pkg g v) s = .next (s.modPkg pkg fun r => { r with gown := tput r.gown g v })) ∧
     (p.num < 48 → partIdle s p = true →
       exec (.partitionCreateDestroy p []) s = .next (s.modPart p fun _ => PartRec.reset) ∧
       (units ≠ [] → units.Nodup → (∀ u ∈ units, u < 48 ∧ unitOwner s p.pkg u = 0xFF) → (s.part p).units = [] →
         exec (.partitionCreateDestroy p units) s = .next (s.modPart p fun _ => { PartRec.reset with units := units }))) ∧
     (servesPart s q p = true → heldSlices s p < 1024 → (s.part p).resetBusy = false → (s.quad q).cp.mode = 3 →
       exec (.fwsubmit q p addr) s = .next
         (let desc := BitVec.ofNat 512 (s.rd (addrCp q addr.toNat) 64)
          let u := if descCode s p desc = 0 then (submit s p desc ⟨q, true, 0, 0⟩ true).2 else s
          (u.modQuad q fun r => { r with subSt := descCode s p desc }).modQuad q fun r => { r with cp := { r.cp with pc := r.cp.pc + 4 } })) ∧
     (servesPart s q p = true → heldSlices s p < 1024 → (s.part p).resetBusy = false → (s.quad q).cp.mode < 3 →
       exec (.fwsubmit q p addr) s = .next (cpIllegal q s)) ∧
     ((s.quad q).cp.mode = 3 → (v.toNat + 2 ^ 64 - (s.quad q).ringHead) % 2 ^ 64 ≤ (s.quad q).ring.length →
       exec (.cpevthead q v) s = .next ((s.modQuad q fun r =>
         { r with ring := r.ring.drop ((v.toNat + 2 ^ 64 - (s.quad q).ringHead) % 2 ^ 64), ringHead := v.toNat }).modQuad q fun r =>
           { r with cp := { r.cp with pc := r.cp.pc + 4 } })) ∧
     ((s.quad q).cp.mode = 3 → (s.quad q).ring.length < (v.toNat + 2 ^ 64 - (s.quad q).ringHead) % 2 ^ 64 →
       exec (.cpevthead q v) s = .next (s.modQuad q fun r => { r with cp := { r.cp with pc := r.cp.pc + 4 } })) ∧
     ((s.quad q).cp.mode < 3 → exec (.cpevthead q v) s = .next (cpIllegal q s)) ∧
     (v.toNat ≤ (s.die d).mcHead → exec (.mctail d v) s = .next (s.modDie d fun r => { r with mcTail := v.toNat })) ∧
     ((s.die d).mcHead < v.toNat → exec (.mctail d v) s = .next s)) ∧
  (∀ (s : State) (p : PartId) (v : Word) (pkg vf n off : Nat) (q : QuadId) (d : DieId) (c : ClusterId) (l : CoreId) (pa len dst link b : Nat)
     (bytes : List Byte),
     (vf < 512 → exec (.registerWrite (.vfbind pkg vf) v) s = .next (s.modPkg pkg fun x => { x with vfbind := tput x.vfbind vf (v &&& (0x800000000000003F : Word)) })) ∧
     (vf < 512 → n < 8 → exec (.registerWrite (.qctl pkg vf n) v) s = .next (modQueue s pkg vf n fun x => { x with ctl := v &&& (0xFFFFFFFFFFFFF0F1 : Word) })) ∧
     exec (.registerWrite (.ptroot p) v) s = .next (s.modPart p fun x => { x with ptroot := v &&& (0x0000FFFFFFFF8000 : Word) }) ∧
     exec (.registerWrite (.dmdbg c) v) s = .next (s.modCluster c fun x => { x with dm := { x.dm with dbg := writeDmdbg v x.dm.dbg } }) ∧
     (n < 256 → exec (.registerWrite (.object d n) v) s = .next (s.modObj d n fun x => { x with word := v &&& (0xFFFFFFF00000FFFF : Word) })) ∧
     exec (.registerWrite (.logEnable l) v) s = .next (s.modLog l fun x => { x with on := bitAt v 0 }) ∧
     (off + 8 ≤ 2 ^ 22 → exec (.registerWrite (.carderSram d off) v) s = .next (s.wr (addrCarder d off) 8 v.toNat)) ∧
     exec (.registerWrite (.cpSram q off) v) s = .next (s.wr (addrCp q off) 8 v.toNat) ∧
     (dmaRange pa bytes.length = true → s.poisoned (addrHbm q.pkg pa) bytes.length = false →
       (let w := clearTags (addrHbm q.pkg pa) bytes.length (fireWatches
          ((hostTouch q.pkg pa bytes.length s).wr (addrHbm q.pkg pa) bytes.length (bytesNat bytes)) (addrHbm q.pkg pa) bytes.length)
        w.poisoned (addrHbm q.pkg pa) bytes.length = false → exec (.hostDma q (.write pa bytes)) s = .next w)) ∧
     (dmaRange pa len = true → 2 ^ 47 ≤ dst → dst + len ≤ 2 ^ 48 → (∀ i < len, s.poisoned (addrHbm q.pkg pa + i) 1 = false) →
       exec (.hostDma q (.read pa len dst)) s = .next
         ((hostTouch q.pkg pa len s).wr (addrHbm q.pkg dst) len (s.rd (addrHbm q.pkg pa) len))) ∧
     exec (.flitCrcRetry d b) s = .next s ∧
     (link < 6 →
       (Config.creditStall s.free = false → exec (.corramFlitRetry d link) s = .next (linkEvent d link 2 { s with free := s.free + 1 })) ∧
       (Config.creditStall s.free = true →
         exec (.corramFlitRetry d link) s = .next (linkEvent d link 2 (linkEvent d link 3 { s with free := s.free + 1 })))) ∧
     (link < 6 → (tget (s.die d).links link (0, false)).2 = false →
       exec (.linkRetrain d link true) s = .next ((linkEvent d link 1 s).modDie d fun r =>
         { r with links := tput r.links link ((tget (s.die d).links link (0, false)).1, decide (3 ≤ (tget (s.die d).links link (0, false)).1)) }) ∧
       exec (.linkRetrain d link false) s = .next ((linkEvent d link 1 s).modDie d fun r =>
         { r with links := tput r.links link ((tget (s.die d).links link (0, false)).1 + 1, decide (3 ≤ (tget (s.die d).links link (0, false)).1 + 1)) })) ∧
     exec (.ucieRetrain d b) s = .next (s.modDie d fun r => { r with uciePhase := tupd r.uciePhase b 0 (· + 1) }))

/-- R88, R90, R91: a scalar source is the register's value, an immediate extended by its sign, a constant, the thread's identifier or the time of the
device; reading it changes nothing. -/
def Obligations.ScalarSourcesRead : Prop :=
  ∀ (h : Hdr) (t : ThreadId) (th : Thread) (s : State) (n m : Reg) (v w : Word) (i : BitVec 16) (j : BitVec 32),
    (RegHolds s t th n.val v →
      Runs (rd1 h (.w n)) s v s ∧ Runs (rd2 h (.w n) (.imm16 i)) s (v, i.signExtend 64) s ∧
      Runs (rd2 h (.w n) (.imm32 j)) s (v, j.signExtend 64) s) ∧
    (RegHolds s t th n.val v → RegHolds s t th m.val w → Runs (rd2 h (.w n) (.op (.w m))) s (v, w) s) ∧
    (s.cur = .thread t → s.thread? t = some th →
      Runs (rd1 h .zero) s 0 s ∧ Runs (rd1 h .ones) s (BitVec.allOnes 64) s ∧ Runs (rd1 h .dtime) s s.dtime s ∧
      Runs (rd1 h .tid) s (BitVec.ofNat 64 (tidNat s t)) s)

/-- R44: a marked register whose future is Pending parks the instruction on it; Resolved, it becomes the result and its mark is cleared; Faulted, the
instruction traps with the future's cause; Cancelled, Empty or of another generation, it becomes all ones. -/
def Obligations.MarkedSourcesResolve : Prop :=
  ∀ (t : ThreadId) (th : Thread) (s s1 : State) (n : Reg) (v : Word) (a : Addr) (w : Nat),
    s.cur = .thread t → s.thread? t = some th → regPending s t th.ctl.wsp n.val = false →
    winPoisoned s t th.ctl.slice th.ctl.wsp (offW n.val) 8 = false → winPoisoned s t th.ctl.slice th.ctl.wsp offMarks 8 = false →
    (threadRead s t th.ctl th.ctl.wsp offMarks 8).testBit n.val = true →
    v = BitVec.ofNat 64 (threadRead s t th.ctl th.ctl.wsp (offW n.val) 8) →
    resolveHandle s t.core th.ctl.slice v = some a → w = s.rd a 8 →
    (fsGen w = handleGen v → fsState w = 1 → (rdReg n.val).run s = .error (.register v) s) ∧
    (fsGen w = handleGen v → fsState w = 2 →
      Runs (do watchMine a 8 false; wrWin (offW n.val) 8 (fsResult w % 2 ^ 64); setMark n.val false) (syncP t s) () s1 →
      Runs (rdReg n.val) s (BitVec.ofNat 64 (fsResult w)) s1) ∧
    (fsGen w = handleGen v → fsState w = 3 → (rdReg n.val).run s = .error (.trap (mkTrap (fsResult w % 256) 0 v.toNat)) s) ∧
    (fsGen w ≠ handleGen v ∨ fsState w = 0 ∨ fsState w = 4 →
      Runs (do watchMine a 8 false; wrWin (offW n.val) 8 (2 ^ 64 - 1); setMark n.val false) s () s1 → Runs (rdReg n.val) s (BitVec.allOnes 64) s1)

/-- R42, R92: a write to a general register is read back and clears its mark; every other register, mark and byte keeps its value. -/
def Obligations.RegisterWritesStand : Prop :=
  ∀ (t : ThreadId) (th : Thread) (s : State) (n : Reg) (v : Word),
    s.cur = .thread t → s.thread? t = some th → WindowStands s t th.ctl.slice th.ctl.wsp →
    ∃ s', Runs (wrReg n v) s () s' ∧ UnitsKept s s' ∧ s'.wk = s.wk ∧
      threadRead s' t th.ctl th.ctl.wsp (offW n.val) 8 = v.toNat ∧
      (∀ m : Reg, m ≠ n → threadRead s' t th.ctl th.ctl.wsp (offW m.val) 8 = threadRead s t th.ctl th.ctl.wsp (offW m.val) 8) ∧
      (∀ m : Reg, (threadRead s' t th.ctl th.ctl.wsp offMarks 8).testBit m.val =
        (decide (m ≠ n) && (threadRead s t th.ctl th.ctl.wsp offMarks 8).testBit m.val)) ∧
      (∀ o k, 0 < k → o % 64 + k ≤ 64 → o + k ≤ 0x2400 → o + k ≤ offW n.val ∨ offW n.val + 8 ≤ o → o + k ≤ offMarks ∨ offMarks + 8 ≤ o →
        threadRead s' t th.ctl th.ctl.wsp o k = threadRead s t th.ctl th.ctl.wsp o k) ∧
      bytesKept [(winByte s t th.ctl.slice th.ctl.wsp (offW n.val), 8), (winByte s t th.ctl.slice th.ctl.wsp offMarks, 8)] s s'

/-- R73, R92: a window in window space, or in the data range of a slice that holds a grant there, stands in storage line by line without overlap.
Where window space stands is the model's choice (log entry 12). -/
def Obligations.WindowsStand : Prop :=
  ∀ (s : State) (t : ThreadId) (sl : SliceId) (r r' : SliceRec) (g g' : Grant) (w : Word),
    (wfield w 54 2 = 3 → waddrOf w % 64 = 0 → waddrOf w ≤ slotBase t.ridx → t.core.die < 4 → t.core.core < 256 →
      s.slice? t.slice = some r → r.grant? t.core = some g → t.ridx < r.nslots → g.work + r.nslots * 0x2400 ≤ 2 ^ 19 →
      WindowStands s t sl w) ∧
    (wfield w 54 2 ≠ 3 → s.slice? sl = some r' → r'.grant? t.core = some g' → WindowStands s t sl w)

/-- R259: a precise trap outside a handler, with the handler workspace H enabled and in the data range and the target at H's w62 legal, writes the
trap record and PCSAVE of the interrupted window and H's chain header, copies PROVSET, sets OVTAB to OVDEF, sets INTRAP, and goes on at the PC in w62
of H; the registers of both windows keep their values. The two windows stand in storage without overlap. -/
def Obligations.TrapEntryTaken : Prop :=
  ∀ (t : ThreadId) (th : Thread) (r : TrapRec) (s : State) (h : Nat) (w pc : Word),
    s.thread? t = some th → th.ctl.intrap = false → handlerAt s th.ctl = some h → w = space0 t.core h → r.code < 256 →
    WindowStands s t th.ctl.slice th.ctl.wsp → WindowStands s t th.ctl.slice w → th.ctl.wsp ≠ w → LinesApart s t th.ctl.slice th.ctl.wsp w →
    LinesApart s t th.ctl.slice w th.ctl.wsp →
    pc = BitVec.ofNat 64 (threadRead s t th.ctl w (offW 62) 8) →
    targetCheck (writeTrapRecord s t th.ctl w r) th.ctl.slice.part pc = .ok () →
    ∃ s', takeTrap t r s = s' ∧ UnitsKept s s' ∧
      s'.thread? t = some { th.settled with
        due := { th.settled.due with violations := [], kept := th.due.kept ++ th.due.violations, after := none }
        ctl := { th.ctl with
        wsp := w, hwsp := w, pc := pc, intrap := true, rep := none, repBnd := false, first := false } } ∧
      threadRead s' t th.ctl th.ctl.wsp offTpc 8 = th.ctl.pc.toNat ∧
      threadRead s' t th.ctl th.ctl.wsp offTcause 8 = r.code + bit r.deferred * 2 ^ 8 ∧
      threadRead s' t th.ctl th.ctl.wsp offTaddr 8 = r.taddr.toNat ∧
      threadRead s' t th.ctl th.ctl.wsp offTinfo 8 = r.tinfo.toNat ∧
      threadRead s' t th.ctl th.ctl.wsp offPcsave 8 = th.ctl.pc.toNat ∧
      threadRead s' t th.ctl w offCaller 8 = th.ctl.wsp.toNat ∧
      threadRead s' t th.ctl w offFrame 8 = 0 ∧
      threadRead s' t th.ctl w offProv 8 = threadRead s t th.ctl th.ctl.wsp offProv 8 % 2 ^ 64 ∧
      threadRead s' t th.ctl w offBook 8 = (s.part th.ctl.slice.part).ovdef.toNat ∧
      (∀ n : Reg, threadRead s' t th.ctl th.ctl.wsp (offW n.val) 8 = threadRead s t th.ctl th.ctl.wsp (offW n.val) 8 ∧
        threadRead s' t th.ctl w (offW n.val) 8 = threadRead s t th.ctl w (offW n.val) 8)

/-- R260: a trap is unhandled where TWSP.EN is 0, where the 9,216 bytes at H do not lie wholly in the slice's data range, where the target at H's w62
fails its check, and in a handler. No handler is entered: the task ends by fault (R267), with the record of its fault, whose NESTED says that the
thread was in a handler. -/
def Obligations.UnhandledTrapEnds : Prop :=
  ∀ (t : ThreadId) (th : Thread) (r e : TrapRec) (s : State) (h : Nat) (sr : SliceRec),
    s.thread? t = some th →
    (th.ctl.intrap = true ∨ bitAt th.ctl.twsp 63 = false ∨
      (s.slice? th.ctl.slice = some sr ∧ sr.inData (wfield th.ctl.twsp 6 17 * 64) 9216 = false) ∨
      (handlerAt s th.ctl = some h ∧
        targetCheck (writeTrapRecord s t th.ctl (space0 t.core h) r) th.ctl.slice.part
          (BitVec.ofNat 64 (threadRead (writeTrapRecord s t th.ctl (space0 t.core h) r) t th.ctl (space0 t.core h) (offW 62) 8)) = .error e)) →
    ∃ s', takeTrap t r s = s' ∧ UnitsKept s s' ∧
      s'.thread? t = some { th.settled with
        phase := .ending
        endCause := some ⟨th.ctl.pc, BitVec.ofNat 64 (r.code + bit r.deferred * 2 ^ 8 + bit th.ctl.intrap * 2 ^ 9), r.taddr, r.tinfo⟩ }

/-- R100, R382, R384: in user mode OVFT, PLACEW and a CSRW of PLACEBASE take a permission trap and change nothing else. -/
def Obligations.UserModeTraps : Prop :=
  ∀ (h : Hdr) (t : ThreadId) (th : Thread) (s s0 : State) (a b : Opnd) (x : Src),
    Issues h t th s s0 → th.ctl.priv = false →
    exec (.ovft h x) s = .next (takeTrap t (mkTrap 5 0 0) s0) ∧
    exec (.placew h a b) s = .next (takeTrap t (mkTrap 5 0 0) s0) ∧
    (th.ctl.rep = none → exec (.csrw h a 0x080) s = .next (takeTrap t (mkTrap 5 0 0) s0))

/-- R357, R398: an LD or ST whose address is not a multiple of its size takes an alignment trap, and one whose address has a bit of <63:52> set a
translation trap, with the address in TADDR; neither reads nor writes. -/
def Obligations.PlainAddressTraps : Prop :=
  ∀ (h : Hdr) (t : ThreadId) (th : Thread) (s s0 s1 : State) (d : Reg) (src b : Opnd) (x : Src) (a : Word) (ord sz : BitVec 2) (scope : BitVec 3)
    (sgn : Bool),
    Issues h t th s s0 →
    (Runs (baseIndex h b x) s0 a s1 →
      (wfield a 52 12 ≠ 0 → exec (.ld h d b x ord scope sz sgn) s = .next (takeTrap t (mkTrap 4 a.toNat 4) s0)) ∧
      (wfield a 52 12 = 0 → a.toNat % Machine.sizeOf sz ≠ 0 → exec (.ld h d b x ord scope sz sgn) s = .next (takeTrap t (mkTrap 6 a.toNat 0) s0))) ∧
    (Runs (do waitOpnds h (allSrcs [src, b] x) []; baseIndex h b x) s0 a s1 →
      (wfield a 52 12 ≠ 0 → exec (.st h src b x ord scope sz) s = .next (takeTrap t (mkTrap 4 a.toNat 4) s0)) ∧
      (wfield a 52 12 = 0 → a.toNat % Machine.sizeOf sz ≠ 0 → exec (.st h src b x ord scope sz) s = .next (takeTrap t (mkTrap 6 a.toNat 0) s0)))

/-- R86: the guard of an instruction is (gA xor GA<3>) op (gB xor GB<3>), op being and when GC = 0 and or when GC = 1, with g0 true. When it is false
the instruction completes without effect, whatever it is: it takes no trap and does not park, and the thread goes on as after any completed
instruction. Its turn is one issue cycle of the budget. What makes an instruction illegal whatever its guard is checked before it (R102, R103), and
then its trap is taken; class 12 is not ready while its queue is full (R225). -/
def Obligations.GuardedOffDoesNothing : Prop :=
  ∀ (i : Instr) (h : Hdr) (t : ThreadId) (th : Thread) (s s0 : State) (r : SliceRec) (g : Nat → Bool),
    i.hdr? = some h → s.cur = .thread t → s.thread? t = some th → s0 = chargeTurn s t →
    (∀ n, g n = (decide (n = 0) || (threadRead s0 t th.ctl th.ctl.wsp offGuards 1).testBit n)) →
    (winPoisoned s0 t th.ctl.slice th.ctl.wsp offGuards 1 = false → guardPending s0 t th.ctl.wsp (h.ga.toNat % 8) = false →
      guardPending s0 t th.ctl.wsp (h.gb.toNat % 8) = false →
      Runs (guardTrue h) s0 (if h.gc then (g (h.ga.toNat % 8) ^^ h.ga.getLsbD 3) || (g (h.gb.toNat % 8) ^^ h.gb.getLsbD 3)
        else (g (h.ga.toNat % 8) ^^ h.ga.getLsbD 3) && (g (h.gb.toNat % 8) ^^ h.gb.getLsbD 3)) s0) ∧
    (Runs (checkWait h) s0 () s0 → Runs (guardTrue h) s0 false s0 → illegalNow i s = none → (classTwelve i = true → matFull s t = false) →
      exec i s = retired t h .seq s0) ∧
    (∀ r, Runs (checkWait h) s0 () s0 → illegalNow i s = some r → (classTwelve i = true → matFull s t = false) →
      exec i s = .next (takeTrap t r s0)) ∧
    ((th.charged && !th.again) = false → s.slice? th.ctl.slice = some r →
      ∃ r', s0.slice? th.ctl.slice = some r' ∧ tget r'.allot t.core 0 = tget r.allot t.core 0 - 1)

/-- R84: while more than WCNT operations of class WCLS of the thread are outstanding, no instruction with that wait issues: the state is as it was,
and nothing is charged. -/
def Obligations.WaitHoldsIssue : Prop :=
  ∀ (i : Instr) (h : Hdr) (w : Wait) (t : ThreadId) (th : Thread) (s : State),
    i.hdr? = some h → h.wait = some w → s.cur = .thread t → s.thread? t = some th →
    w.cnt.toNat < outstanding (chargeTurn s t) t (slotGen (chargeTurn s t) t) w.cls.toNat →
    exec i s = .next s

/-- R79: the slot index of a PC is pc<63:6> × 5 + pc<2:0>; slot_add(pc, n) is ((i div 5) << 6) | (i mod 5) with i that of pc plus n, so its index is
i, its bits <5:3> are zero and its slot is at most 4; the next instruction in sequence has an index one higher, and slot 4 is followed by slot 0 of
the next line. -/
def Obligations.SlotAddMovesTheIndex : Prop :=
  ∀ (pc : Word) (n i : Int), wfield pc 3 3 = 0 → wfield pc 0 3 ≤ 4 → i = wfield pc 6 58 * 5 + wfield pc 0 3 + n → 0 ≤ i → i < 2 ^ 58 * 5 →
    slotIndex pc = wfield pc 6 58 * 5 + wfield pc 0 3 ∧
    slotAdd pc n = (BitVec.ofNat 64 (i / 5).toNat <<< 6) ||| BitVec.ofNat 64 (i % 5).toNat ∧
    (slotIndex (slotAdd pc n) : Int) = i ∧ wfield (slotAdd pc n) 3 3 = 0 ∧ wfield (slotAdd pc n) 0 3 ≤ 4 ∧
    (n = 1 → wfield pc 0 3 < 4 → slotAdd pc n = pc + 1) ∧
    (n = 1 → wfield pc 0 3 = 4 → wfield (slotAdd pc n) 0 3 = 0 ∧ wfield (slotAdd pc n) 6 58 = wfield pc 6 58 + 1)

/-- R79, R84: an instruction that completes with nothing due leaves the thread at the next slot, or at its target, ready; it changes no byte, no unit,
no slice and no other thread. -/
def Obligations.CompletionMovesThePc : Prop :=
  ∀ (t : ThreadId) (h : Hdr) (th : Thread) (s : State) (pc : Word),
    s.thread? t = some th → NothingDue th →
    (∃ s' k, retired t h .seq s = .next s' ∧ UnitsKept s s' ∧ s'.st = s.st ∧ s'.wk.slices = s.wk.slices ∧
      (∀ u, u ≠ t → s'.slot? u = s.slot? u) ∧
      s'.thread? t = some { th.settled with ctl := { th.ctl with pc := slotAdd th.ctl.pc 1, first := false }, skid := k, yielded := h.ya }) ∧
    (∃ s' k, retired t h (.goto pc) s = .next s' ∧ UnitsKept s s' ∧ s'.st = s.st ∧ s'.wk.slices = s.wk.slices ∧
      (∀ u, u ≠ t → s'.slot? u = s.slot? u) ∧
      s'.thread? t = some { th.settled with ctl := { th.ctl with pc := pc, first := false }, skid := k, yielded := h.ya })

/-- R80: a target is legal when its bits <5:3> are zero, its slot is at most 4, its page translates for execution and its TGT bit is set; else the
check gives an illegal-branch-target trap, or the page's translation or permission trap, with the target in TADDR. -/
def Obligations.TargetsAreChecked : Prop :=
  ∀ (s : State) (p : PartId) (pc : Word) (pa : Nat) (r : TrapRec),
    (wfield pc 3 3 ≠ 0 ∨ 4 < wfield pc 0 3 → targetCheck s p pc = .error (mkTrap 2 pc.toNat 0)) ∧
    (wfield pc 3 3 = 0 → wfield pc 0 3 ≤ 4 →
      (walkTo s p pc.toNat .ex = .error r → targetCheck s p pc = .error r) ∧
      (walkTo s p pc.toNat .ex = .ok pa → (s.rd (addrHbm p.pkg (pa / 64 * 64 + 60)) 4).testBit (wfield pc 0 3) = true →
        targetCheck s p pc = .ok ()) ∧
      (walkTo s p pc.toNat .ex = .ok pa → (s.rd (addrHbm p.pkg (pa / 64 * 64 + 60)) 4).testBit (wfield pc 0 3) = false →
        targetCheck s p pc = .error (mkTrap 2 pc.toNat 0)))

/-- R72, R77 to R79, R81, R82, R102, R103: a turn of a ready thread with nothing due, at a mapped PC whose line is sound, is the step of the
instruction that the slot's word decodes to, and of the next slot's where the two pair and the first has completed; one whose word does not decode
takes an illegal-instruction trap with the opcode and form in TINFO<47:32>; a slot whose parity fails is fetched again. -/
def Obligations.StepRunsDecoded : Prop :=
  ∀ (s s1 : State) (t : ThreadId) (th : Thread) (rest : List Turn) (e : TlbEnt) (pa a : Nat) (w : IWord) (i : Instr) (err : DecodeError),
    s.agenda = .thread t :: rest → s1 = { s with agenda := rest, cur := .thread t } → s1.thread? t = some th → canIssue s1 t th = true →
    th.phase = .ready → th.due = Due.none → th.ctl.repBnd = false → th.ctl.first = false → abandonRefused s1 t = false →
    wfield th.ctl.pc 3 3 = 0 → wfield th.ctl.pc 0 3 ≤ 4 → th.ctl.pc.toNat < 2 ^ 52 →
    tlbFind (s1.core t.core).tlb th.ctl.slice.part th.ctl.pc.toNat = some e → e.ex = true →
    pa = e.pbase * 2 ^ e.log2 + th.ctl.pc.toNat % 2 ^ e.log2 → a = addrHbm th.ctl.slice.part.pkg (pa / 64 * 64) →
    s1.poisoned (a + 12 * wfield th.ctl.pc 0 3) 12 = false → s1.poisoned (a + 60) 4 = false →
    w = lineSlot (s1.rd a 64) (wfield th.ctl.pc 0 3) →
    (parity96 w ≠ linePar (lineWord (s1.rd a 64)) (wfield th.ctl.pc 0 3) →
      step s = .next (endStep s1 (s1.modThread t fun th => { th with phase := .refetch }) t)) ∧
    (parity96 w = linePar (lineWord (s1.rd a 64)) (wfield th.ctl.pc 0 3) → lineRes0 (lineWord (s1.rd a 64)) = true →
      step s = .next (endStep s1 (takeTrap t (mkTrap 1 0 (w.toNat % 2 ^ 13 * 2 ^ 32 + 1)) (chargeTurn s1 t)) t)) ∧
    (parity96 w = linePar (lineWord (s1.rd a 64)) (wfield th.ctl.pc 0 3) → lineRes0 (lineWord (s1.rd a 64)) = false →
      (decode w = .ok i →
        (let u := touchPlain s1 t.core pa
         let j := secondOf u t.core.pkg pa th.ctl.pc (linePair (lineWord (s1.rd a 64)) (wfield th.ctl.pc 0 3)) i
         (j = none → step s = (match exec i u with
           | .next s' => .next (endStep s1 s' t)
           | o => o)) ∧
         (∀ x s2 s3, j = some x → exec i u = .next s2 → goesOn t th s2 = true → runSecond t x s2 = .next s3 →
           step s = .next (endStep s1 s3 t)) ∧
         (∀ x s2, j = some x → exec i u = .next s2 → goesOn t th s2 = false → step s = .next (endStep s1 s2 t)))) ∧
      (decode w = .bad err → step s = .next (endStep s1 (takeTrap t (mkTrap 1 0 (w.toNat % 2 ^ 13 * 2 ^ 32)) (chargeTurn s1 t)) t)))

/-- R276, R325: a turn of a Carder pipeline in a run is the step of the program word at its index; a step of another unit is its step; and a turn that
only passes time moves the two clocks. -/
def Obligations.StepRunsCarderAndUnits : Prop :=
  ∀ (s : State) (d : DieId) (pipe : Nat) (rest : List Turn) (r : CdRun) (w : BitVec 32) (i ev : Instr) (ac ns : Nat),
    (s.agenda = .carder d pipe :: rest → (tget (s.die d).pipes pipe .reset).run = some r →
      (tget (s.die d).fslots r.slot .reset).prog[r.idx]? = some w → decodeCarder w = some i →
      step s = exec i { s with agenda := rest, cur := .carder d pipe }) ∧
    (s.agenda = .unit ev :: rest → step s = exec ev { s with agenda := rest, cur := .none }) ∧
    (s.agenda = .pass ac ns :: rest → ∃ s', step s = .next s' ∧ s'.ac = s.ac + ac ∧ s'.dtime = s.dtime + BitVec.ofNat 64 ns ∧
      s'.st = s.st ∧ s'.wk.slots = s.wk.slots ∧ s'.tl = s.tl ∧ s'.nt = s.nt ∧ s'.agenda = rest ∧
      s'.wk.slices = s.wk.slices.map (fun (i, r) =>
        if s.wk.slots.any fun (t, x) => decide (t.slice = i) && !slotQuiet x then (i, { r with lastBusy := s'.dtime.toNat }) else (i, r)) ∧
      s'.un.cores = s.un.cores.map fun (c, r) =>
        if anyReady { s with agenda := rest } c then (c, { r with quietSince := s'.ac }) else (c, r))

/-- R310, R362, R381, R395: the results of class 0, by fixed-width arithmetic: with a and b the low W bits of the sources, ADD, SUB, MUL, the bitwise
instructions, MIN, MAX and the shifts write the W-bit result extended by SGN; .sat clamps the exact sum, difference or product; .hi takes its high
half. -/
def Obligations.IntegerResults : Prop :=
  ∀ (wid : BitVec 2) (sgn : Bool) (x y : Word),
    let W := widBits wid
    let a := x.setWidth W
    let b := y.setWidth W
    let k := y.toNat % 256
    let val := fun (r : BitVec W) => if sgn then r.toInt else (r.toNat : Int)
    let ext := fun (r : BitVec W) => if sgn then r.signExtend 64 else r.setWidth 64
    let fit := fun (r : Int) => if sgn then BitVec.ofInt W (max (-2 ^ (W - 1)) (min (2 ^ (W - 1) - 1) r)) else BitVec.ofInt W (max 0 (min (2 ^ W - 1) r))
    addW wid sgn false x y = ext (a + b) ∧ addW wid sgn true x y = ext (fit (val a + val b)) ∧
    subW wid sgn false x y = ext (a - b) ∧ subW wid sgn true x y = ext (fit (val a - val b)) ∧
    mulW wid sgn false false x y = ext (a * b) ∧ mulW wid sgn true false x y = ext (fit (val a * val b)) ∧
    mulW wid sgn false true x y = ext (BitVec.ofInt W (val a * val b / 2 ^ W)) ∧
    bitwiseW (· &&& ·) wid sgn x y = ext (a &&& b) ∧ bitwiseW (fun p q => p &&& ~~~q) wid sgn x y = ext (a &&& ~~~b) ∧
    bitwiseW (· ||| ·) wid sgn x y = ext (a ||| b) ∧ bitwiseW (· ^^^ ·) wid sgn x y = ext (a ^^^ b) ∧
    minW wid sgn x y = ext (if val a ≤ val b then a else b) ∧ maxW wid sgn x y = ext (if val b ≤ val a then a else b) ∧
    shlW wid sgn x y = ext (a <<< k) ∧ shrW wid sgn x y = ext (if sgn then a.sshiftRight k else a >>> k) ∧
    rotW wid x y = (a.rotateLeft k).setWidth 64

/-- R319, R386: CLZ, CTZ and POPC count in the low W bits of the source. -/
def Obligations.BitCounts : Prop :=
  ∀ (wid : BitVec 2) (x : Word),
    let W := widBits wid
    let v := x.toNat % 2 ^ W
    (clzW wid x).toNat ≤ W ∧ v < 2 ^ (W - (clzW wid x).toNat) ∧ ((clzW wid x).toNat < W → 2 ^ (W - 1 - (clzW wid x).toNat) ≤ v) ∧
    (ctzW wid x).toNat ≤ W ∧ v % 2 ^ (ctzW wid x).toNat = 0 ∧ ((ctzW wid x).toNat < W → v.testBit (ctzW wid x).toNat = true) ∧
    (popW wid x).toNat = ((List.range W).filter fun i => x.getLsbD i).length

/-- R320, R329, R389: CMP's guard, and the quotient, remainder and guard of DIV and REM, by fixed-width arithmetic. -/
def Obligations.CompareAndDivideResults : Prop :=
  ∀ (wid : BitVec 2) (sgn : Bool) (x y : Word),
    let W := widBits wid
    let a := x.setWidth W
    let b := y.setWidth W
    let lt := fun (p q : BitVec W) => if sgn then p.slt q else p.ult q
    let ext := fun (r : BitVec W) => if sgn then r.signExtend 64 else r.setWidth 64
    let ok := b != 0 && !(sgn && decide (a.toInt = -2 ^ (W - 1)) && b == BitVec.allOnes W)
    cmpHolds 0 sgn W x y = (a == b) ∧ cmpHolds 1 sgn W x y = (a != b) ∧ cmpHolds 2 sgn W x y = lt a b ∧ cmpHolds 3 sgn W x y = !lt b a ∧
    cmpHolds 4 sgn W x y = lt b a ∧ cmpHolds 5 sgn W x y = !lt a b ∧ cmpHolds 6 sgn W x y = (a &&& b == 0) ∧
    cmpHolds 7 sgn W x y = (a &&& b != 0) ∧
    divide sgn W x y = (ext (if sgn then a.sdiv b else a / b), ok) ∧
    remainder sgn W x y = (ext (if sgn then a.srem b else a % b), ok)

/-- R332, R361: EXT takes LENM1 + 1 bits from POS up, extended by SGN; INS puts them there and keeps the other bits; LEA adds the shifted index, in
OFFSET alone under .loc. -/
def Obligations.FieldResults : Prop :=
  ∀ (d a pl : Word) (sgn : Bool) (sh : BitVec 2) (i : Nat),
    let p := wfield pl 0 6
    let n := wfield pl 6 6 + 1
    (i < 64 → (extW sgn a pl).getLsbD i = if i < n then a.getLsbD (p + i) else sgn && a.getLsbD (p + n - 1)) ∧
    (i < 64 → (insW d a pl).getLsbD i = if p ≤ i ∧ i < p + n then a.getLsbD (i - p) else d.getLsbD i) ∧
    leaW sh false d a = d + (a <<< sh.toNat) ∧
    leaW sh true d a = (d.extractLsb' 23 41 ++ (d + (a <<< sh.toNat)).extractLsb' 0 23 : BitVec 64)

/-- R42, R86, R92, R122, R306: what writing a result changes: a register and its mark, a guard but for g0, a vector register and its tag, a mask, or
FPSR, whose flags only rise; no other byte, and nothing else. -/
def Obligations.ResultStagesFrame : Prop :=
  ∀ (t : ThreadId) (th : Thread) (s s' : State) (n : Reg) (v : Word) (gd : BitVec 3) (b : Bool) (vn : VReg) (mn : Fin 8) (bits tag fl : Nat),
    s.cur = .thread t → s.thread? t = some th →
    (Runs (wrReg n v) s () s' → OnlyBytes (winRange s t th.ctl (offW n.val) 8 ++ winRange s t th.ctl offMarks 8) s s') ∧
    (Runs (setGuard gd b) s () s' → OnlyBytes (if gd = 0 then [] else winRange s t th.ctl offGuards 1) s s') ∧
    (Runs (wrV vn.val bits tag) s () s' → OnlyBytes (winRange s t th.ctl (offV vn.val) 256 ++ winRange s t th.ctl offVtags 16) s s') ∧
    (Runs (wrM mn.val bits) s () s' → OnlyBytes (winRange s t th.ctl (offM mn.val) 32) s s') ∧
    (Runs (raiseFlags fl) s () s' → OnlyBytes (if fl = 0 then [] else winRange s t th.ctl offFpsr 4) s s')

/-- R42, R310, R319, R332, R361 to R364, R381, R386, R395: ADD, SUB, MUL, AND, ANDN, OR, XOR, SHL, SHR, ROT, MIN, MAX, EXT, LEA, CLZ, CTZ, POPC, MOV
and MOVI from general registers to a general register complete from every state in which those registers hold values, and change their destination and
its mark alone. -/
def Obligations.RegisterFormsComplete : Prop :=
  ∀ (h : Hdr) (t : ThreadId) (th : Thread) (s s0 : State) (d a b : Reg) (x y : Word) (wid sh : BitVec 2) (sgn sat hi loc : Bool) (imm : BitVec 48),
    Issues h t th s s0 → NothingDue th → RegHolds s0 t th a.val x → RegHolds s0 t th b.val y →
    ∀ i ∈ [Instr.add h (.w d) (.w a) (.op (.w b)) wid sgn sat, .sub h (.w d) (.w a) (.op (.w b)) wid sgn sat,
        .mul h (.w d) (.w a) (.op (.w b)) wid sgn sat hi, .and h (.w d) (.w a) (.op (.w b)) wid sgn, .andn h (.w d) (.w a) (.op (.w b)) wid sgn,
        .or h (.w d) (.w a) (.op (.w b)) wid sgn, .xor h (.w d) (.w a) (.op (.w b)) wid sgn, .shl h (.w d) (.w a) (.op (.w b)) wid sgn,
        .shr h (.w d) (.w a) (.op (.w b)) wid sgn, .rot h (.w d) (.w a) (.op (.w b)) wid, .min h (.w d) (.w a) (.op (.w b)) wid sgn,
        .max h (.w d) (.w a) (.op (.w b)) wid sgn, .ext h d (.w a) (.op (.w b)) sgn, .lea h (.w d) (.w a) (.op (.w b)) sh loc,
        .clz h (.w d) (.w a) wid, .ctz h (.w d) (.w a) wid, .popc h (.w d) (.w a) wid, .mov h (.w d) (.w a), .movi h d imm false],
      ∃ s', exec i s = .next s' ∧ Completed t th h (winRange s0 t th.ctl (offW d.val) 8 ++ winRange s0 t th.ctl offMarks 8) s0 s'

/-- R79, R86, R320, R343, R365: CMP of general registers and GSET complete from every state in which those registers hold values and the control
block's guards are sound, and change their guard alone; NOP, and BR to a legal target, change no byte. -/
def Obligations.GuardFormsComplete : Prop :=
  ∀ (h : Hdr) (t : ThreadId) (th : Thread) (s s0 : State) (a b : Reg) (x y : Word) (gd : BitVec 3) (wid : BitVec 2) (sgn : Bool) (cond : BitVec 4)
    (disp : BitVec 40),
    Issues h t th s s0 → NothingDue th →
    (RegHolds s0 t th a.val x → RegHolds s0 t th b.val y → winPoisoned s0 t th.ctl.slice th.ctl.wsp offGuards 1 = false →
      ∀ i ∈ [Instr.cmp h gd (.w a) (.op (.w b)) wid sgn cond, .gset h gd (.reg (.w a)), .gset h gd .t, .gset h gd .f],
        ∃ s', exec i s = .next s' ∧ Completed t th h (if gd = 0 then [] else winRange s0 t th.ctl offGuards 1) s0 s') ∧
    (∃ s', exec (.nop h) s = .next s' ∧ Completed t th h [] s0 s') ∧
    (targetCheck s0 th.ctl.slice.part (slotAdd th.ctl.pc disp.toInt) = .ok () →
      ∃ s', exec (.br h disp) s = .next s' ∧ UnitsKept s0 s' ∧ bytesKept [] s0 s' ∧
        ∃ u, s'.thread? t = some u ∧ u.ctl = { th.ctl with pc := slotAdd th.ctl.pc disp.toInt, first := false })

/-- R204, R398: an ST from general registers to an aligned address that the core's TLB maps for writing enters its bytes in the store queue and
changes no byte of memory; STORE_QUEUE_WRITE of an entry that is ready writes its bytes at its address and no other byte, but for the four of its
region's entry at a first touch (R154, R156) and, where the granule stays poisoned, the 32 of an entry of the machine-check log (R167, R268). -/
def Obligations.StoresGoWhereTheyPoint : Prop :=
  ∀ (h : Hdr) (t : ThreadId) (th : Thread) (s s0 : State) (r b : Reg) (v w a : Word) (i : BitVec 16) (ord sz : BitVec 2) (scope : BitVec 3) (e : TlbEnt)
    (pa n k : Nat) (c : CoreId) (q : StoreEnt),
    (Issues h t th s s0 → NothingDue th → RegHolds s0 t th r.val v → RegHolds s0 t th b.val w → a = w + i.signExtend 64 → n = Machine.sizeOf sz →
      a.toNat < 2 ^ 52 → a.toNat % n = 0 → tlbFind (s0.core t.core).tlb th.ctl.slice.part a.toNat = some e → e.wr = true →
      pa = e.pbase * 2 ^ e.log2 + a.toNat % 2 ^ e.log2 → Runs waitConfirmed s0 () s0 → (s0.core t.core).storeq.length < 32 →
      ∃ s' x, exec (.st h (.w r) (.w b) (.imm16 i) ord scope sz) s = .next s' ∧ bytesKept [] s0 s' ∧
        (s'.core t.core).storeq = (s0.core t.core).storeq ++ [x] ∧ x.t = t ∧ x.pa = addrHbm t.core.pkg pa ∧ x.n = n ∧
        x.val = v.toNat % 2 ^ (8 * n) ∧ x.rel = (if ord = 2 then some scope.toNat else none)) ∧
    ((s.core c).storeq[k]? = some q → storeReady s ((s.core c).storeq.take k) q = true →
      (let region := RegionKey.plain c.pkg (q.pa % 2 ^ 128 / 2 ^ 16)
       let touched := if q.pa % 2 ^ 128 < 2 ^ 39 ∧ (regionEntry s region).testBit 31 = false then [(regionPlace s region, 4)] else []
       let d := (siteInfo s c.dieId q.pa 2).1
       ((s.wr q.pa q.n q.val).poisoned q.pa q.n = false →
         ∃ s', exec (.storeQueueWrite c k) s = .next s' ∧ bytesKept ((q.pa, q.n) :: touched) s s' ∧ s'.rd q.pa q.n = q.val % 256 ^ q.n ∧
           (s'.core c).storeq = dropAt (s.core c).storeq k ∧ s'.wk.slices = s.wk.slices) ∧
       ((s.wr q.pa q.n q.val).poisoned q.pa q.n = true →
         ∃ s', exec (.storeQueueWrite c k) s = .next s' ∧ bytesKept ((q.pa, q.n) :: (mcPlace s d (s.die d).mcHead, 32) :: touched) s s' ∧
           (s'.core c).storeq = dropAt (s.core c).storeq k ∧ s'.wk.slices = s.wk.slices)))

/-- R83, R87, R101, R102: the decoder reads every legal core instruction back from its word, whatever its operands. -/
def Obligations.CoreDecodeOfEncode : Prop :=
  ∀ i : Instr, i.wellFormed = true → i.toRaw?.isSome = true → encode i < 2 ^ 96 ∧ decode (BitVec.ofNat 96 (encode i)) = .ok i

/-- R278, R279: the Carder's decoder reads every legal filter instruction back from its word. -/
def Obligations.CarderDecodeOfEncode : Prop :=
  ∀ i : Instr, i.wellFormed = true → i.carderFields?.isSome = true →
    encode i < 2 ^ 32 ∧ decodeCarder (BitVec.ofNat 32 (encode i)) = some i

/-- R102: what the decoders read is a legal instruction whose word, in every bit, is the one read; so two words never name one instruction. -/
def Obligations.DecodedWordsAreLegal : Prop :=
  (∀ (w : IWord) (i : Instr), decode w = .ok i → i.wellFormed = true ∧ encode i = w.toNat) ∧
  (∀ (w : BitVec 32) (i : Instr), decodeCarder w = some i → i.wellFormed = true ∧ encode i = w.toNat) ∧
  (∀ (w w' : IWord) (i : Instr), decode w = .ok i → decode w' = .ok i → w = w')

/-- R78, R83, R87: The words that the spec's examples write out decode to the instructions that they stand for, with the parity the spec gives (R78):
an ADD under a guard, an ADD of an immediate, a CSRR that waits, FADD.f32, MOVI, REP, XFENCE, two NST forms, HJOIN, ATOM, LDS.fe.keep and FMA. -/
def Obligations.ListedWordsDecode : Prop :=
  let p := Hdr.plain
  (decode 0x000000000014100C00004001#96 = .ok (.add { p with ga := 2 } (.w 3) (.w 4) (.op (.w 5)) 0 false false) ∧ parity96 0x14100C00004001#96 = true) ∧
  (decode 0x000000004000080800000401#96 = .ok (.add p (.w 2) (.w 2) (.imm16 16) 0 false false) ∧ parity96 0x4000080800000401#96 = true) ∧
  (decode 0x000000000400001407000484#96 = .ok (.csrr { p with wait := some ⟨3, 0⟩ } 5 1) ∧ parity96 0x0400001407000484#96 = true) ∧
  (decode 0x000004000014100C000000C0#96 = .ok (.fadd p 3 (.w 4) (.w 5) 1) ∧ parity96 0x4000014100C000000C0#96 = false) ∧
  (decode 0x000000000048D00C00000C18#96 = .ok (.movi p 3 0x1234 false) ∧ parity96 0x0048D00C00000C18#96 = true) ∧
  (decode 0x0011A0000014100000000045#96 = .ok (.rep p 4 5 8 3 1 0) ∧ parity96 0x0011A0000014100000000045#96 = false) ∧
  (decode 0x02041000000000000000008E#96 = .ok (.xfence p 1 0x08 0x10) ∧ parity96 0x02041000000000000000008E#96 = true) ∧
  (decode 0x000123FFFC1C0000000005C1#96 = .ok (.nst p false 0 0 (.w 7) (.imm16 0xFFFF) 0 9) ∧ parity96 0x000123FFFC1C0000000005C1#96 = false) ∧
  (decode 0x1000002C2BC0343800000208#96 = .ok (.hjoin p 4 (.w 14) (.w 13) .zero 10 (.w 11)) ∧ parity96 0x1000002C2BC0343800000208#96 = false) ∧
  (decode 0x0002200004304C68000065C1#96 = .ok (.nst { p with ga := 3 } true 26 19 (.w 12) (.imm16 1) 0 1) ∧
    parity96 0x0002200004304C68000065C1#96 = false) ∧
  (decode 0x000AC8000040305400000180#96 = .ok (.atom p 21 12 (.w 16) 2 4 5 true false) ∧ parity96 0x000AC8000040305400000180#96 = true) ∧
  (decode 0x000400000000202400000540#96 = .ok (.lds p 9 (.w 8) (.imm16 0) 0 0 0 false 1) ∧ parity96 0x000400000000202400000540#96 = true) ∧
  (decode 0x0000000034302C34000000C4#96 = .ok (.fma p 13 (.w 11) (.w 12) (.w 13) 0) ∧ parity96 0x34302C34000000C4#96 = false)

/-- R365: NOP is opcode 0x080 in form 0, with nothing but GA, GB, GC, WEN, WCLS, WCNT, YA and EOG beside it: no other word of that opcode decodes. It
takes one issue turn and has no other effect; with WEN = 1 it waits on a class of outstanding operations with nothing else to do; with EOG = 1 it ends
a REP body; and it never pairs. -/
def Obligations.NopTakesItsTurn : Prop :=
  (∀ (w : IWord) (i : Instr), w.toNat % 2 ^ 10 = 0x080 → decode w = .ok i → wfield (w.extractLsb' 10 64) 0 3 = 0 ∧ w.toNat / 2 ^ 30 = 0 ∧ ∃ h, i = .nop h) ∧
  (∀ (g g' : BitVec 4) (gc ya eog : Bool) (wt : Option Wait),
    decode (BitVec.ofNat 96 (encode (.nop ⟨g, g', gc, ya, eog, wt, 0, 0⟩))) = .ok (.nop ⟨g, g', gc, ya, eog, wt, 0, 0⟩)) ∧
  (∀ (h : Hdr) (t : ThreadId) (th : Thread) (s s0 : State), Issues h t th s s0 → exec (.nop h) s = retired t h .seq s0) ∧
  (∀ (h : Hdr) (w : Wait) (t : ThreadId) (th : Thread) (s : State), h.wait = some w → s.cur = .thread t → s.thread? t = some th →
    w.cnt.toNat < outstanding (chargeTurn s t) t (slotGen (chargeTurn s t) t) w.cls.toNat → exec (.nop h) s = .next s) ∧
  (∀ (h : Hdr) (t : ThreadId) (th : Thread) (s s0 : State) (r : RepState), Issues h t th s s0 → h.eog = true → th.ctl.rep = some r →
    th.due.after = none → exec (.nop h) s = .next (markIssue (boundary (countSkid s0 t) t) t h.ya)) ∧
  (∀ (h : Hdr) (j : Instr), pairs (.nop h) j = false ∧ pairs j (.nop h) = false)

/-- R320: CMP's guard, with a and b the W-bit values of its sources, for every COND; it is illegal with a COND of 8 to 15, and with SGN where COND is
not 2 to 5; and it writes no register, but its guard alone. -/
def Obligations.CompareSetsItsGuard : Prop :=
  ∀ (h : Hdr) (gd : BitVec 3) (o : Opnd) (src : Src) (wid : BitVec 2) (sgn : Bool) (cond : BitVec 4),
    ((Instr.cmp h gd o src wid sgn cond).wellFormed = true → cond.toNat < 8 ∧ (sgn = true → 2 ≤ cond.toNat ∧ cond.toNat ≤ 5)) ∧
    (∀ (t : ThreadId) (th th1 : Thread) (s s0 s1 s2 : State) (x y : Word) (g : Bool),
      let a := x.setWidth (widBits wid)
      let b := y.setWidth (widBits wid)
      let val := fun (r : BitVec (widBits wid)) => if sgn then r.toInt else (r.toNat : Int)
      cond.toNat < 8 →
      g = (match cond.toNat with
        | 0 => decide (a = b) | 1 => decide (a ≠ b) | 2 => decide (val a < val b) | 3 => decide (val a ≤ val b) | 4 => decide (val b < val a)
        | 5 => decide (val b ≤ val a) | 6 => decide (a &&& b = 0) | _ => decide (a &&& b ≠ 0)) →
      Issues h t th s s0 → Runs (rd2 h o src) s0 (x, y) s1 → s1.cur = .thread t → s1.thread? t = some th1 → Runs (setGuard gd g) s1 () s2 →
      exec (.cmp h gd o src wid sgn cond) s = retired t h .seq s2 ∧ OnlyBytes (if gd = 0 then [] else winRange s1 t th1.ctl offGuards 1) s1 s2 ∧
      (gd ≠ 0 → WindowStands s1 t th1.ctl.slice th1.ctl.wsp →
        threadRead s2 t th1.ctl th1.ctl.wsp offGuards 1 = putBit (threadRead s1 t th1.ctl th1.ctl.wsp offGuards 1) gd.toNat g % 256))

/-- R48, R221: at a REP's iteration boundary the abort line is sampled, and a raised line that is not masked traps; else wC falls by one, wI rises by
one, both as plain values, and the body begins again with no target check, or the slot after it follows where wC is zero. While a result is on its way
to either register the boundary waits (R71). -/
def Obligations.RepBoundaryCounts : Prop :=
  ∀ (t : ThreadId) (th : Thread) (s : State) (r : RepState),
    s.thread? t = some th → th.ctl.rep = some r →
    ((regPending s t th.ctl.wsp r.wc.val || regPending s t th.ctl.wsp r.wi.val) = true →
      boundary s t = s.modThread t fun th => { th.settled with ctl := { th.ctl with repBnd := true } }) ∧
    ((regPending s t th.ctl.wsp r.wc.val || regPending s t th.ctl.wsp r.wi.val) = false → (abortRaised s t th.ctl && !th.ctl.abmask) = true →
      boundary s t = takeTrap t (mkTrap 17 0 0) (s.modThread t fun th => { th with ctl := { th.ctl with repBnd := true } })) ∧
    ((regPending s t th.ctl.wsp r.wc.val || regPending s t th.ctl.wsp r.wi.val) = false → (abortRaised s t th.ctl && !th.ctl.abmask) = false →
      WindowStands s t th.ctl.slice th.ctl.wsp → r.wc ≠ r.wi →
      ∃ s' c, boundary s t = s' ∧ UnitsKept s s' ∧ s'.wk.slices = s.wk.slices ∧
        c = BitVec.ofNat 64 (threadRead s t th.ctl th.ctl.wsp (offW r.wc.val) 8) - 1 ∧
        threadRead s' t th.ctl th.ctl.wsp (offW r.wc.val) 8 = c.toNat ∧
        threadRead s' t th.ctl th.ctl.wsp (offW r.wi.val) 8 = (threadRead s t th.ctl th.ctl.wsp (offW r.wi.val) 8 + 1) % 2 ^ 64 ∧
        (∀ n : Reg, n ≠ r.wc → n ≠ r.wi →
          threadRead s' t th.ctl th.ctl.wsp (offW n.val) 8 = threadRead s t th.ctl th.ctl.wsp (offW n.val) 8) ∧
        (∀ n : Reg, (threadRead s' t th.ctl th.ctl.wsp offMarks 8).testBit n.val =
          (decide (n ≠ r.wc ∧ n ≠ r.wi) && (threadRead s t th.ctl th.ctl.wsp offMarks 8).testBit n.val)) ∧
        (c ≠ 0 → s'.thread? t = some { th.settled with ctl := { th.ctl with pc := slotAdd r.pc 1, rep := some { r with idx := 0 }, repBnd := false } }) ∧
        (c = 0 → s'.thread? t = some { th.settled with ctl := { th.ctl with pc := slotAdd r.pc (r.len + 1), rep := none, repBnd := false } }))

/-- R7, R21, R51, R61, R119, R157, R172, R249, R277, R292, R296, R302: what the spec says that reset leaves: the clocks at zero, no slice and no
thread, every place table invalid, the partitions' registers at their reset values, the submission rings empty, and the watchpoints off. Where nothing
is listed, memory reads 0 (the model's choice, log entry 2). -/
def Obligations.ResetLeaves : Prop :=
  State.reset.sound ∧ State.reset.ac = 0 ∧ State.reset.dtime = 0 ∧ State.reset.wk.slices = [] ∧ State.reset.wk.slots = [] ∧
  (∀ c : CoreId, (State.reset.core c).placeBase = 0 ∧ (∀ n, tget (State.reset.core c).place n 0 = 0) ∧ (State.reset.core c).deque = [] ∧
    (State.reset.core c).wps = List.replicate 4 ⟨0, 0, none⟩) ∧
  (∀ p : PartId, (State.reset.part p).mode = 0x01000000 ∧ (State.reset.part p).ovdef = 0x1555 ∧ (State.reset.part p).vquota = 0x0800008000 ∧
    (State.reset.part p).ageLimit = 0x10 ∧ (State.reset.part p).nregion = 0 ∧ (State.reset.part p).ptroot = 0 ∧
    (State.reset.part p).pxctl = 0 ∧ (State.reset.part p).roothome = 0) ∧
  (∀ q : QuadId, (State.reset.quad q).ring = [] ∧ (State.reset.quad q).sqsel = 0 ∧ (State.reset.quad q).satp = 0 ∧ (State.reset.quad q).swapSt = 0) ∧
  (∀ (d : DieId) (n : Nat), (tget (State.reset.die d).fslots n .reset).v = false) ∧ (∀ (a : Addr) (n : Nat), State.reset.rd a n = 0)

/-- R148, R167: Log entry 2, R147, R167: every step keeps the storage in its one form: the bytes listed by rising address, none of them 0, and the
sets of full, poisoned and typed granules rising. -/
def Obligations.StepKeepsStorageSound : Prop :=
  ∀ s : State, s.sound → holdsNext State.sound (step s)
end

