-- ==== Sys2Proof/Laws/State.lean ====
section
/-!
SUPPORT. Sys2Proof/Laws/State.lean: what each update of the state leaves as it was, one lemma per field, and what it makes of the
field that it changes; so that no later proof unfolds an update of a record.
-/
namespace Sys2Proof.Machine

/-! ### State.modCore -/

@[simp] theorem State.modCore_cur (s : State) (c : CoreId) (f : CoreRec → CoreRec) : (s.modCore c f).cur = s.cur := rfl
@[simp] theorem State.modCore_agenda (s : State) (c : CoreId) (f : CoreRec → CoreRec) : (s.modCore c f).agenda = s.agenda := rfl
@[simp] theorem State.modCore_ac (s : State) (c : CoreId) (f : CoreRec → CoreRec) : (s.modCore c f).ac = s.ac := rfl
@[simp] theorem State.modCore_dtime (s : State) (c : CoreId) (f : CoreRec → CoreRec) : (s.modCore c f).dtime = s.dtime := rfl
@[simp] theorem State.modCore_free (s : State) (c : CoreId) (f : CoreRec → CoreRec) : (s.modCore c f).free = s.free := rfl
@[simp] theorem State.modCore_opId (s : State) (c : CoreId) (f : CoreRec → CoreRec) : (s.modCore c f).opId = s.opId := rfl
@[simp] theorem State.modCore_st (s : State) (c : CoreId) (f : CoreRec → CoreRec) : (s.modCore c f).st = s.st := rfl
@[simp] theorem State.modCore_wk (s : State) (c : CoreId) (f : CoreRec → CoreRec) : (s.modCore c f).wk = s.wk := rfl
@[simp] theorem State.modCore_tl (s : State) (c : CoreId) (f : CoreRec → CoreRec) : (s.modCore c f).tl = s.tl := rfl
@[simp] theorem State.modCore_nt (s : State) (c : CoreId) (f : CoreRec → CoreRec) : (s.modCore c f).nt = s.nt := rfl
@[simp] theorem State.modCore_un_logs (s : State) (c : CoreId) (f : CoreRec → CoreRec) : (s.modCore c f).un.logs = s.un.logs := rfl
@[simp] theorem State.modCore_un_clusters (s : State) (c : CoreId) (f : CoreRec → CoreRec) : (s.modCore c f).un.clusters = s.un.clusters := rfl
@[simp] theorem State.modCore_un_quads (s : State) (c : CoreId) (f : CoreRec → CoreRec) : (s.modCore c f).un.quads = s.un.quads := rfl
@[simp] theorem State.modCore_un_dies (s : State) (c : CoreId) (f : CoreRec → CoreRec) : (s.modCore c f).un.dies = s.un.dies := rfl
@[simp] theorem State.modCore_un_parts (s : State) (c : CoreId) (f : CoreRec → CoreRec) : (s.modCore c f).un.parts = s.un.parts := rfl
@[simp] theorem State.modCore_un_pkgs (s : State) (c : CoreId) (f : CoreRec → CoreRec) : (s.modCore c f).un.pkgs = s.un.pkgs := rfl

/-! ### State.modLog -/

@[simp] theorem State.modLog_cur (s : State) (c : CoreId) (f : LogRec → LogRec) : (s.modLog c f).cur = s.cur := rfl
@[simp] theorem State.modLog_agenda (s : State) (c : CoreId) (f : LogRec → LogRec) : (s.modLog c f).agenda = s.agenda := rfl
@[simp] theorem State.modLog_ac (s : State) (c : CoreId) (f : LogRec → LogRec) : (s.modLog c f).ac = s.ac := rfl
@[simp] theorem State.modLog_dtime (s : State) (c : CoreId) (f : LogRec → LogRec) : (s.modLog c f).dtime = s.dtime := rfl
@[simp] theorem State.modLog_free (s : State) (c : CoreId) (f : LogRec → LogRec) : (s.modLog c f).free = s.free := rfl
@[simp] theorem State.modLog_opId (s : State) (c : CoreId) (f : LogRec → LogRec) : (s.modLog c f).opId = s.opId := rfl
@[simp] theorem State.modLog_st (s : State) (c : CoreId) (f : LogRec → LogRec) : (s.modLog c f).st = s.st := rfl
@[simp] theorem State.modLog_wk (s : State) (c : CoreId) (f : LogRec → LogRec) : (s.modLog c f).wk = s.wk := rfl
@[simp] theorem State.modLog_tl (s : State) (c : CoreId) (f : LogRec → LogRec) : (s.modLog c f).tl = s.tl := rfl
@[simp] theorem State.modLog_nt (s : State) (c : CoreId) (f : LogRec → LogRec) : (s.modLog c f).nt = s.nt := rfl
@[simp] theorem State.modLog_un_cores (s : State) (c : CoreId) (f : LogRec → LogRec) : (s.modLog c f).un.cores = s.un.cores := rfl
@[simp] theorem State.modLog_un_clusters (s : State) (c : CoreId) (f : LogRec → LogRec) : (s.modLog c f).un.clusters = s.un.clusters := rfl
@[simp] theorem State.modLog_un_quads (s : State) (c : CoreId) (f : LogRec → LogRec) : (s.modLog c f).un.quads = s.un.quads := rfl
@[simp] theorem State.modLog_un_dies (s : State) (c : CoreId) (f : LogRec → LogRec) : (s.modLog c f).un.dies = s.un.dies := rfl
@[simp] theorem State.modLog_un_parts (s : State) (c : CoreId) (f : LogRec → LogRec) : (s.modLog c f).un.parts = s.un.parts := rfl
@[simp] theorem State.modLog_un_pkgs (s : State) (c : CoreId) (f : LogRec → LogRec) : (s.modLog c f).un.pkgs = s.un.pkgs := rfl

/-! ### State.modCluster -/

@[simp] theorem State.modCluster_cur (s : State) (c : ClusterId) (f : ClusterRec → ClusterRec) : (s.modCluster c f).cur = s.cur := rfl
@[simp] theorem State.modCluster_agenda (s : State) (c : ClusterId) (f : ClusterRec → ClusterRec) : (s.modCluster c f).agenda = s.agenda := rfl
@[simp] theorem State.modCluster_ac (s : State) (c : ClusterId) (f : ClusterRec → ClusterRec) : (s.modCluster c f).ac = s.ac := rfl
@[simp] theorem State.modCluster_dtime (s : State) (c : ClusterId) (f : ClusterRec → ClusterRec) : (s.modCluster c f).dtime = s.dtime := rfl
@[simp] theorem State.modCluster_free (s : State) (c : ClusterId) (f : ClusterRec → ClusterRec) : (s.modCluster c f).free = s.free := rfl
@[simp] theorem State.modCluster_opId (s : State) (c : ClusterId) (f : ClusterRec → ClusterRec) : (s.modCluster c f).opId = s.opId := rfl
@[simp] theorem State.modCluster_st (s : State) (c : ClusterId) (f : ClusterRec → ClusterRec) : (s.modCluster c f).st = s.st := rfl
@[simp] theorem State.modCluster_wk (s : State) (c : ClusterId) (f : ClusterRec → ClusterRec) : (s.modCluster c f).wk = s.wk := rfl
@[simp] theorem State.modCluster_tl (s : State) (c : ClusterId) (f : ClusterRec → ClusterRec) : (s.modCluster c f).tl = s.tl := rfl
@[simp] theorem State.modCluster_nt (s : State) (c : ClusterId) (f : ClusterRec → ClusterRec) : (s.modCluster c f).nt = s.nt := rfl
@[simp] theorem State.modCluster_un_cores (s : State) (c : ClusterId) (f : ClusterRec → ClusterRec) : (s.modCluster c f).un.cores = s.un.cores := rfl
@[simp] theorem State.modCluster_un_logs (s : State) (c : ClusterId) (f : ClusterRec → ClusterRec) : (s.modCluster c f).un.logs = s.un.logs := rfl
@[simp] theorem State.modCluster_un_quads (s : State) (c : ClusterId) (f : ClusterRec → ClusterRec) : (s.modCluster c f).un.quads = s.un.quads := rfl
@[simp] theorem State.modCluster_un_dies (s : State) (c : ClusterId) (f : ClusterRec → ClusterRec) : (s.modCluster c f).un.dies = s.un.dies := rfl
@[simp] theorem State.modCluster_un_parts (s : State) (c : ClusterId) (f : ClusterRec → ClusterRec) : (s.modCluster c f).un.parts = s.un.parts := rfl
@[simp] theorem State.modCluster_un_pkgs (s : State) (c : ClusterId) (f : ClusterRec → ClusterRec) : (s.modCluster c f).un.pkgs = s.un.pkgs := rfl

/-! ### State.modQuad -/

@[simp] theorem State.modQuad_cur (s : State) (q : QuadId) (f : QuadRec → QuadRec) : (s.modQuad q f).cur = s.cur := rfl
@[simp] theorem State.modQuad_agenda (s : State) (q : QuadId) (f : QuadRec → QuadRec) : (s.modQuad q f).agenda = s.agenda := rfl
@[simp] theorem State.modQuad_ac (s : State) (q : QuadId) (f : QuadRec → QuadRec) : (s.modQuad q f).ac = s.ac := rfl
@[simp] theorem State.modQuad_dtime (s : State) (q : QuadId) (f : QuadRec → QuadRec) : (s.modQuad q f).dtime = s.dtime := rfl
@[simp] theorem State.modQuad_free (s : State) (q : QuadId) (f : QuadRec → QuadRec) : (s.modQuad q f).free = s.free := rfl
@[simp] theorem State.modQuad_opId (s : State) (q : QuadId) (f : QuadRec → QuadRec) : (s.modQuad q f).opId = s.opId := rfl
@[simp] theorem State.modQuad_st (s : State) (q : QuadId) (f : QuadRec → QuadRec) : (s.modQuad q f).st = s.st := rfl
@[simp] theorem State.modQuad_wk (s : State) (q : QuadId) (f : QuadRec → QuadRec) : (s.modQuad q f).wk = s.wk := rfl
@[simp] theorem State.modQuad_tl (s : State) (q : QuadId) (f : QuadRec → QuadRec) : (s.modQuad q f).tl = s.tl := rfl
@[simp] theorem State.modQuad_nt (s : State) (q : QuadId) (f : QuadRec → QuadRec) : (s.modQuad q f).nt = s.nt := rfl
@[simp] theorem State.modQuad_un_cores (s : State) (q : QuadId) (f : QuadRec → QuadRec) : (s.modQuad q f).un.cores = s.un.cores := rfl
@[simp] theorem State.modQuad_un_logs (s : State) (q : QuadId) (f : QuadRec → QuadRec) : (s.modQuad q f).un.logs = s.un.logs := rfl
@[simp] theorem State.modQuad_un_clusters (s : State) (q : QuadId) (f : QuadRec → QuadRec) : (s.modQuad q f).un.clusters = s.un.clusters := rfl
@[simp] theorem State.modQuad_un_dies (s : State) (q : QuadId) (f : QuadRec → QuadRec) : (s.modQuad q f).un.dies = s.un.dies := rfl
@[simp] theorem State.modQuad_un_parts (s : State) (q : QuadId) (f : QuadRec → QuadRec) : (s.modQuad q f).un.parts = s.un.parts := rfl
@[simp] theorem State.modQuad_un_pkgs (s : State) (q : QuadId) (f : QuadRec → QuadRec) : (s.modQuad q f).un.pkgs = s.un.pkgs := rfl

/-! ### State.modDie -/

@[simp] theorem State.modDie_cur (s : State) (d : DieId) (f : DieRec → DieRec) : (s.modDie d f).cur = s.cur := rfl
@[simp] theorem State.modDie_agenda (s : State) (d : DieId) (f : DieRec → DieRec) : (s.modDie d f).agenda = s.agenda := rfl
@[simp] theorem State.modDie_ac (s : State) (d : DieId) (f : DieRec → DieRec) : (s.modDie d f).ac = s.ac := rfl
@[simp] theorem State.modDie_dtime (s : State) (d : DieId) (f : DieRec → DieRec) : (s.modDie d f).dtime = s.dtime := rfl
@[simp] theorem State.modDie_free (s : State) (d : DieId) (f : DieRec → DieRec) : (s.modDie d f).free = s.free := rfl
@[simp] theorem State.modDie_opId (s : State) (d : DieId) (f : DieRec → DieRec) : (s.modDie d f).opId = s.opId := rfl
@[simp] theorem State.modDie_st (s : State) (d : DieId) (f : DieRec → DieRec) : (s.modDie d f).st = s.st := rfl
@[simp] theorem State.modDie_wk (s : State) (d : DieId) (f : DieRec → DieRec) : (s.modDie d f).wk = s.wk := rfl
@[simp] theorem State.modDie_tl (s : State) (d : DieId) (f : DieRec → DieRec) : (s.modDie d f).tl = s.tl := rfl
@[simp] theorem State.modDie_nt (s : State) (d : DieId) (f : DieRec → DieRec) : (s.modDie d f).nt = s.nt := rfl
@[simp] theorem State.modDie_un_cores (s : State) (d : DieId) (f : DieRec → DieRec) : (s.modDie d f).un.cores = s.un.cores := rfl
@[simp] theorem State.modDie_un_logs (s : State) (d : DieId) (f : DieRec → DieRec) : (s.modDie d f).un.logs = s.un.logs := rfl
@[simp] theorem State.modDie_un_clusters (s : State) (d : DieId) (f : DieRec → DieRec) : (s.modDie d f).un.clusters = s.un.clusters := rfl
@[simp] theorem State.modDie_un_quads (s : State) (d : DieId) (f : DieRec → DieRec) : (s.modDie d f).un.quads = s.un.quads := rfl
@[simp] theorem State.modDie_un_parts (s : State) (d : DieId) (f : DieRec → DieRec) : (s.modDie d f).un.parts = s.un.parts := rfl
@[simp] theorem State.modDie_un_pkgs (s : State) (d : DieId) (f : DieRec → DieRec) : (s.modDie d f).un.pkgs = s.un.pkgs := rfl

/-! ### State.modPart -/

@[simp] theorem State.modPart_cur (s : State) (p : PartId) (f : PartRec → PartRec) : (s.modPart p f).cur = s.cur := rfl
@[simp] theorem State.modPart_agenda (s : State) (p : PartId) (f : PartRec → PartRec) : (s.modPart p f).agenda = s.agenda := rfl
@[simp] theorem State.modPart_ac (s : State) (p : PartId) (f : PartRec → PartRec) : (s.modPart p f).ac = s.ac := rfl
@[simp] theorem State.modPart_dtime (s : State) (p : PartId) (f : PartRec → PartRec) : (s.modPart p f).dtime = s.dtime := rfl
@[simp] theorem State.modPart_free (s : State) (p : PartId) (f : PartRec → PartRec) : (s.modPart p f).free = s.free := rfl
@[simp] theorem State.modPart_opId (s : State) (p : PartId) (f : PartRec → PartRec) : (s.modPart p f).opId = s.opId := rfl
@[simp] theorem State.modPart_st (s : State) (p : PartId) (f : PartRec → PartRec) : (s.modPart p f).st = s.st := rfl
@[simp] theorem State.modPart_wk (s : State) (p : PartId) (f : PartRec → PartRec) : (s.modPart p f).wk = s.wk := rfl
@[simp] theorem State.modPart_tl (s : State) (p : PartId) (f : PartRec → PartRec) : (s.modPart p f).tl = s.tl := rfl
@[simp] theorem State.modPart_nt (s : State) (p : PartId) (f : PartRec → PartRec) : (s.modPart p f).nt = s.nt := rfl
@[simp] theorem State.modPart_un_cores (s : State) (p : PartId) (f : PartRec → PartRec) : (s.modPart p f).un.cores = s.un.cores := rfl
@[simp] theorem State.modPart_un_logs (s : State) (p : PartId) (f : PartRec → PartRec) : (s.modPart p f).un.logs = s.un.logs := rfl
@[simp] theorem State.modPart_un_clusters (s : State) (p : PartId) (f : PartRec → PartRec) : (s.modPart p f).un.clusters = s.un.clusters := rfl
@[simp] theorem State.modPart_un_quads (s : State) (p : PartId) (f : PartRec → PartRec) : (s.modPart p f).un.quads = s.un.quads := rfl
@[simp] theorem State.modPart_un_dies (s : State) (p : PartId) (f : PartRec → PartRec) : (s.modPart p f).un.dies = s.un.dies := rfl
@[simp] theorem State.modPart_un_pkgs (s : State) (p : PartId) (f : PartRec → PartRec) : (s.modPart p f).un.pkgs = s.un.pkgs := rfl

/-! ### State.modPkg -/

@[simp] theorem State.modPkg_cur (s : State) (n : Nat) (f : PkgRec → PkgRec) : (s.modPkg n f).cur = s.cur := rfl
@[simp] theorem State.modPkg_agenda (s : State) (n : Nat) (f : PkgRec → PkgRec) : (s.modPkg n f).agenda = s.agenda := rfl
@[simp] theorem State.modPkg_ac (s : State) (n : Nat) (f : PkgRec → PkgRec) : (s.modPkg n f).ac = s.ac := rfl
@[simp] theorem State.modPkg_dtime (s : State) (n : Nat) (f : PkgRec → PkgRec) : (s.modPkg n f).dtime = s.dtime := rfl
@[simp] theorem State.modPkg_free (s : State) (n : Nat) (f : PkgRec → PkgRec) : (s.modPkg n f).free = s.free := rfl
@[simp] theorem State.modPkg_opId (s : State) (n : Nat) (f : PkgRec → PkgRec) : (s.modPkg n f).opId = s.opId := rfl
@[simp] theorem State.modPkg_st (s : State) (n : Nat) (f : PkgRec → PkgRec) : (s.modPkg n f).st = s.st := rfl
@[simp] theorem State.modPkg_wk (s : State) (n : Nat) (f : PkgRec → PkgRec) : (s.modPkg n f).wk = s.wk := rfl
@[simp] theorem State.modPkg_tl (s : State) (n : Nat) (f : PkgRec → PkgRec) : (s.modPkg n f).tl = s.tl := rfl
@[simp] theorem State.modPkg_nt (s : State) (n : Nat) (f : PkgRec → PkgRec) : (s.modPkg n f).nt = s.nt := rfl
@[simp] theorem State.modPkg_un_cores (s : State) (n : Nat) (f : PkgRec → PkgRec) : (s.modPkg n f).un.cores = s.un.cores := rfl
@[simp] theorem State.modPkg_un_logs (s : State) (n : Nat) (f : PkgRec → PkgRec) : (s.modPkg n f).un.logs = s.un.logs := rfl
@[simp] theorem State.modPkg_un_clusters (s : State) (n : Nat) (f : PkgRec → PkgRec) : (s.modPkg n f).un.clusters = s.un.clusters := rfl
@[simp] theorem State.modPkg_un_quads (s : State) (n : Nat) (f : PkgRec → PkgRec) : (s.modPkg n f).un.quads = s.un.quads := rfl
@[simp] theorem State.modPkg_un_dies (s : State) (n : Nat) (f : PkgRec → PkgRec) : (s.modPkg n f).un.dies = s.un.dies := rfl
@[simp] theorem State.modPkg_un_parts (s : State) (n : Nat) (f : PkgRec → PkgRec) : (s.modPkg n f).un.parts = s.un.parts := rfl

/-! ### State.modSlot -/

@[simp] theorem State.modSlot_cur (s : State) (t : ThreadId) (f : SlotRec → SlotRec) : (s.modSlot t f).cur = s.cur := rfl
@[simp] theorem State.modSlot_agenda (s : State) (t : ThreadId) (f : SlotRec → SlotRec) : (s.modSlot t f).agenda = s.agenda := rfl
@[simp] theorem State.modSlot_ac (s : State) (t : ThreadId) (f : SlotRec → SlotRec) : (s.modSlot t f).ac = s.ac := rfl
@[simp] theorem State.modSlot_dtime (s : State) (t : ThreadId) (f : SlotRec → SlotRec) : (s.modSlot t f).dtime = s.dtime := rfl
@[simp] theorem State.modSlot_free (s : State) (t : ThreadId) (f : SlotRec → SlotRec) : (s.modSlot t f).free = s.free := rfl
@[simp] theorem State.modSlot_opId (s : State) (t : ThreadId) (f : SlotRec → SlotRec) : (s.modSlot t f).opId = s.opId := rfl
@[simp] theorem State.modSlot_st (s : State) (t : ThreadId) (f : SlotRec → SlotRec) : (s.modSlot t f).st = s.st := rfl
@[simp] theorem State.modSlot_un (s : State) (t : ThreadId) (f : SlotRec → SlotRec) : (s.modSlot t f).un = s.un := rfl
@[simp] theorem State.modSlot_tl (s : State) (t : ThreadId) (f : SlotRec → SlotRec) : (s.modSlot t f).tl = s.tl := rfl
@[simp] theorem State.modSlot_nt (s : State) (t : ThreadId) (f : SlotRec → SlotRec) : (s.modSlot t f).nt = s.nt := rfl
@[simp] theorem State.modSlot_wk_slices (s : State) (t : ThreadId) (f : SlotRec → SlotRec) : (s.modSlot t f).wk.slices = s.wk.slices := rfl

/-! ### State.modSlice -/

@[simp] theorem State.modSlice_cur (s : State) (i : SliceId) (f : SliceRec → SliceRec) : (s.modSlice i f).cur = s.cur := rfl
@[simp] theorem State.modSlice_agenda (s : State) (i : SliceId) (f : SliceRec → SliceRec) : (s.modSlice i f).agenda = s.agenda := rfl
@[simp] theorem State.modSlice_ac (s : State) (i : SliceId) (f : SliceRec → SliceRec) : (s.modSlice i f).ac = s.ac := rfl
@[simp] theorem State.modSlice_dtime (s : State) (i : SliceId) (f : SliceRec → SliceRec) : (s.modSlice i f).dtime = s.dtime := rfl
@[simp] theorem State.modSlice_free (s : State) (i : SliceId) (f : SliceRec → SliceRec) : (s.modSlice i f).free = s.free := rfl
@[simp] theorem State.modSlice_opId (s : State) (i : SliceId) (f : SliceRec → SliceRec) : (s.modSlice i f).opId = s.opId := rfl
@[simp] theorem State.modSlice_st (s : State) (i : SliceId) (f : SliceRec → SliceRec) : (s.modSlice i f).st = s.st := rfl
@[simp] theorem State.modSlice_un (s : State) (i : SliceId) (f : SliceRec → SliceRec) : (s.modSlice i f).un = s.un := rfl
@[simp] theorem State.modSlice_tl (s : State) (i : SliceId) (f : SliceRec → SliceRec) : (s.modSlice i f).tl = s.tl := rfl
@[simp] theorem State.modSlice_nt (s : State) (i : SliceId) (f : SliceRec → SliceRec) : (s.modSlice i f).nt = s.nt := rfl
@[simp] theorem State.modSlice_wk_slots (s : State) (i : SliceId) (f : SliceRec → SliceRec) : (s.modSlice i f).wk.slots = s.wk.slots := rfl

/-! ### State.modThread -/

@[simp] theorem State.modThread_cur (s : State) (t : ThreadId) (f : Thread → Thread) : (s.modThread t f).cur = s.cur := rfl
@[simp] theorem State.modThread_agenda (s : State) (t : ThreadId) (f : Thread → Thread) : (s.modThread t f).agenda = s.agenda := rfl
@[simp] theorem State.modThread_ac (s : State) (t : ThreadId) (f : Thread → Thread) : (s.modThread t f).ac = s.ac := rfl
@[simp] theorem State.modThread_dtime (s : State) (t : ThreadId) (f : Thread → Thread) : (s.modThread t f).dtime = s.dtime := rfl
@[simp] theorem State.modThread_free (s : State) (t : ThreadId) (f : Thread → Thread) : (s.modThread t f).free = s.free := rfl
@[simp] theorem State.modThread_opId (s : State) (t : ThreadId) (f : Thread → Thread) : (s.modThread t f).opId = s.opId := rfl
@[simp] theorem State.modThread_st (s : State) (t : ThreadId) (f : Thread → Thread) : (s.modThread t f).st = s.st := rfl
@[simp] theorem State.modThread_un (s : State) (t : ThreadId) (f : Thread → Thread) : (s.modThread t f).un = s.un := rfl
@[simp] theorem State.modThread_tl (s : State) (t : ThreadId) (f : Thread → Thread) : (s.modThread t f).tl = s.tl := rfl
@[simp] theorem State.modThread_nt (s : State) (t : ThreadId) (f : Thread → Thread) : (s.modThread t f).nt = s.nt := rfl
@[simp] theorem State.modThread_wk_slices (s : State) (t : ThreadId) (f : Thread → Thread) : (s.modThread t f).wk.slices = s.wk.slices := rfl

/-! ### State.put -/

@[simp] theorem State.put_cur (s : State) (a : Addr) (n v : Nat) : (s.put a n v).cur = s.cur := rfl
@[simp] theorem State.put_agenda (s : State) (a : Addr) (n v : Nat) : (s.put a n v).agenda = s.agenda := rfl
@[simp] theorem State.put_ac (s : State) (a : Addr) (n v : Nat) : (s.put a n v).ac = s.ac := rfl
@[simp] theorem State.put_dtime (s : State) (a : Addr) (n v : Nat) : (s.put a n v).dtime = s.dtime := rfl
@[simp] theorem State.put_free (s : State) (a : Addr) (n v : Nat) : (s.put a n v).free = s.free := rfl
@[simp] theorem State.put_opId (s : State) (a : Addr) (n v : Nat) : (s.put a n v).opId = s.opId := rfl
@[simp] theorem State.put_wk (s : State) (a : Addr) (n v : Nat) : (s.put a n v).wk = s.wk := rfl
@[simp] theorem State.put_un (s : State) (a : Addr) (n v : Nat) : (s.put a n v).un = s.un := rfl
@[simp] theorem State.put_tl (s : State) (a : Addr) (n v : Nat) : (s.put a n v).tl = s.tl := rfl
@[simp] theorem State.put_nt (s : State) (a : Addr) (n v : Nat) : (s.put a n v).nt = s.nt := rfl
@[simp] theorem State.put_st_full (s : State) (a : Addr) (n v : Nat) : (s.put a n v).st.full = s.st.full := rfl
@[simp] theorem State.put_st_poison (s : State) (a : Addr) (n v : Nat) : (s.put a n v).st.poison = s.st.poison := rfl
@[simp] theorem State.put_st_typed (s : State) (a : Addr) (n v : Nat) : (s.put a n v).st.typed = s.st.typed := rfl

/-! ### State.wr -/

@[simp] theorem State.wr_cur (s : State) (a : Addr) (n v : Nat) : (s.wr a n v).cur = s.cur := rfl
@[simp] theorem State.wr_agenda (s : State) (a : Addr) (n v : Nat) : (s.wr a n v).agenda = s.agenda := rfl
@[simp] theorem State.wr_ac (s : State) (a : Addr) (n v : Nat) : (s.wr a n v).ac = s.ac := rfl
@[simp] theorem State.wr_dtime (s : State) (a : Addr) (n v : Nat) : (s.wr a n v).dtime = s.dtime := rfl
@[simp] theorem State.wr_free (s : State) (a : Addr) (n v : Nat) : (s.wr a n v).free = s.free := rfl
@[simp] theorem State.wr_opId (s : State) (a : Addr) (n v : Nat) : (s.wr a n v).opId = s.opId := rfl
@[simp] theorem State.wr_wk (s : State) (a : Addr) (n v : Nat) : (s.wr a n v).wk = s.wk := rfl
@[simp] theorem State.wr_un (s : State) (a : Addr) (n v : Nat) : (s.wr a n v).un = s.un := rfl
@[simp] theorem State.wr_tl (s : State) (a : Addr) (n v : Nat) : (s.wr a n v).tl = s.tl := rfl
@[simp] theorem State.wr_nt (s : State) (a : Addr) (n v : Nat) : (s.wr a n v).nt = s.nt := rfl
@[simp] theorem State.wr_st_full (s : State) (a : Addr) (n v : Nat) : (s.wr a n v).st.full = s.st.full := rfl
@[simp] theorem State.wr_st_typed (s : State) (a : Addr) (n v : Nat) : (s.wr a n v).st.typed = s.st.typed := rfl

/-! ### State.fillGranules -/

@[simp] theorem State.fillGranules_cur (s : State) (a n : Nat) : (s.fillGranules a n).cur = s.cur := rfl
@[simp] theorem State.fillGranules_agenda (s : State) (a n : Nat) : (s.fillGranules a n).agenda = s.agenda := rfl
@[simp] theorem State.fillGranules_ac (s : State) (a n : Nat) : (s.fillGranules a n).ac = s.ac := rfl
@[simp] theorem State.fillGranules_dtime (s : State) (a n : Nat) : (s.fillGranules a n).dtime = s.dtime := rfl
@[simp] theorem State.fillGranules_free (s : State) (a n : Nat) : (s.fillGranules a n).free = s.free := rfl
@[simp] theorem State.fillGranules_opId (s : State) (a n : Nat) : (s.fillGranules a n).opId = s.opId := rfl
@[simp] theorem State.fillGranules_wk (s : State) (a n : Nat) : (s.fillGranules a n).wk = s.wk := rfl
@[simp] theorem State.fillGranules_un (s : State) (a n : Nat) : (s.fillGranules a n).un = s.un := rfl
@[simp] theorem State.fillGranules_tl (s : State) (a n : Nat) : (s.fillGranules a n).tl = s.tl := rfl
@[simp] theorem State.fillGranules_nt (s : State) (a n : Nat) : (s.fillGranules a n).nt = s.nt := rfl
@[simp] theorem State.fillGranules_st_mem (s : State) (a n : Nat) : (s.fillGranules a n).st.mem = s.st.mem := rfl
@[simp] theorem State.fillGranules_st_poison (s : State) (a n : Nat) : (s.fillGranules a n).st.poison = s.st.poison := rfl
@[simp] theorem State.fillGranules_st_typed (s : State) (a n : Nat) : (s.fillGranules a n).st.typed = s.st.typed := rfl

/-! ### State.setFull -/

@[simp] theorem State.setFull_cur (s : State) (g : Nat) (b : Bool) : (s.setFull g b).cur = s.cur := rfl
@[simp] theorem State.setFull_agenda (s : State) (g : Nat) (b : Bool) : (s.setFull g b).agenda = s.agenda := rfl
@[simp] theorem State.setFull_ac (s : State) (g : Nat) (b : Bool) : (s.setFull g b).ac = s.ac := rfl
@[simp] theorem State.setFull_dtime (s : State) (g : Nat) (b : Bool) : (s.setFull g b).dtime = s.dtime := rfl
@[simp] theorem State.setFull_free (s : State) (g : Nat) (b : Bool) : (s.setFull g b).free = s.free := rfl
@[simp] theorem State.setFull_opId (s : State) (g : Nat) (b : Bool) : (s.setFull g b).opId = s.opId := rfl
@[simp] theorem State.setFull_wk (s : State) (g : Nat) (b : Bool) : (s.setFull g b).wk = s.wk := rfl
@[simp] theorem State.setFull_un (s : State) (g : Nat) (b : Bool) : (s.setFull g b).un = s.un := rfl
@[simp] theorem State.setFull_tl (s : State) (g : Nat) (b : Bool) : (s.setFull g b).tl = s.tl := rfl
@[simp] theorem State.setFull_nt (s : State) (g : Nat) (b : Bool) : (s.setFull g b).nt = s.nt := rfl
@[simp] theorem State.setFull_st_mem (s : State) (g : Nat) (b : Bool) : (s.setFull g b).st.mem = s.st.mem := rfl
@[simp] theorem State.setFull_st_poison (s : State) (g : Nat) (b : Bool) : (s.setFull g b).st.poison = s.st.poison := rfl
@[simp] theorem State.setFull_st_typed (s : State) (g : Nat) (b : Bool) : (s.setFull g b).st.typed = s.st.typed := rfl

/-! ### State.clear -/

@[simp] theorem State.clear_cur (s : State) (a : Addr) (n : Nat) : (s.clear a n).cur = s.cur := rfl
@[simp] theorem State.clear_agenda (s : State) (a : Addr) (n : Nat) : (s.clear a n).agenda = s.agenda := rfl
@[simp] theorem State.clear_ac (s : State) (a : Addr) (n : Nat) : (s.clear a n).ac = s.ac := rfl
@[simp] theorem State.clear_dtime (s : State) (a : Addr) (n : Nat) : (s.clear a n).dtime = s.dtime := rfl
@[simp] theorem State.clear_free (s : State) (a : Addr) (n : Nat) : (s.clear a n).free = s.free := rfl
@[simp] theorem State.clear_opId (s : State) (a : Addr) (n : Nat) : (s.clear a n).opId = s.opId := rfl
@[simp] theorem State.clear_wk (s : State) (a : Addr) (n : Nat) : (s.clear a n).wk = s.wk := rfl
@[simp] theorem State.clear_un (s : State) (a : Addr) (n : Nat) : (s.clear a n).un = s.un := rfl
@[simp] theorem State.clear_tl (s : State) (a : Addr) (n : Nat) : (s.clear a n).tl = s.tl := rfl
@[simp] theorem State.clear_nt (s : State) (a : Addr) (n : Nat) : (s.clear a n).nt = s.nt := rfl

/-! ### What an update changes -/

@[simp] theorem State.put_st_mem (s : State) (a : Addr) (n v : Nat) : (s.put a n v).st.mem = memWrite s.st.mem a n v := rfl
@[simp] theorem State.wr_st_mem (s : State) (a : Addr) (n v : Nat) : (s.wr a n v).st.mem = memWrite s.st.mem a n v := rfl
@[simp] theorem State.fillGranules_st_full (s : State) (a n : Nat) :
    (s.fillGranules a n).st.full = ninsAll s.st.full (wholeLo a) (wholeHi a n - wholeLo a) := rfl
@[simp] theorem State.setFull_st_full (s : State) (g : Nat) (b : Bool) :
    (s.setFull g b).st.full = if b then nins s.st.full g else ndel s.st.full g := rfl

theorem tget_tput {κ ν : Type} [DecidableEq κ] (l : Tab κ ν) (k k' : κ) (v d : ν) :
    tget (tput l k v) k' d = if k' = k then v else tget l k' d := by
  induction l with
  | nil => simp [tput, tget]
  | cons e r ih =>
    obtain ⟨x, y⟩ := e
    simp only [tput]
    by_cases h : k = x
    · subst h
      simp only [if_true, tget]
      split <;> rfl
    · simp only [h, if_false, tget, ih]
      by_cases h2 : k' = x
      · subst h2
        have : k' ≠ k := fun e => h e.symm
        simp [this]
      · simp [h2]

theorem tfind_tput {κ ν : Type} [DecidableEq κ] (l : Tab κ ν) (k k' : κ) (v : ν) :
    tfind (tput l k v) k' = if k' = k then some v else tfind l k' := by
  induction l with
  | nil => simp [tput, tfind]
  | cons e r ih =>
    obtain ⟨x, y⟩ := e
    simp only [tput]
    by_cases h : k = x
    · subst h
      simp only [if_true, tfind]
      split <;> rfl
    · simp only [h, if_false, tfind, ih]
      by_cases h2 : k' = x
      · subst h2
        have : k' ≠ k := fun e => h e.symm
        simp [this]
      · simp [h2]

theorem tfind_tmod {κ ν : Type} [DecidableEq κ] (l : Tab κ ν) (k k' : κ) (f : ν → ν) :
    tfind (tmod l k f) k' = if k' = k then (tfind l k').map f else tfind l k' := by
  induction l with
  | nil => simp [tmod, tfind]
  | cons e r ih =>
    obtain ⟨x, y⟩ := e
    have ih' : tfind (List.map (fun e => if e.1 = k then (e.1, f e.2) else e) r) k' =
        if k' = k then (tfind r k').map f else tfind r k' := ih
    simp only [tmod, List.map_cons]
    by_cases h : x = k
    · subst h
      simp only [if_true, tfind, ih']
      split <;> simp_all
    · simp only [h, if_false, tfind, ih']
      by_cases h2 : k' = x
      · subst h2; simp [h]
      · simp [h2]

/-- The record of a unit after an update is that of the update, and every other unit's is as it was. -/
theorem State.modCore_core (s : State) (c c' : CoreId) (f : CoreRec → CoreRec) :
    (s.modCore c f).core c' = if c' = c then f (s.core c) else s.core c' := tget_tput _ _ _ _ _
theorem State.modCluster_cluster (s : State) (c c' : ClusterId) (f : ClusterRec → ClusterRec) :
    (s.modCluster c f).cluster c' = if c' = c then f (s.cluster c) else s.cluster c' := tget_tput _ _ _ _ _
theorem State.modQuad_quad (s : State) (c c' : QuadId) (f : QuadRec → QuadRec) :
    (s.modQuad c f).quad c' = if c' = c then f (s.quad c) else s.quad c' := tget_tput _ _ _ _ _
theorem State.modDie_die (s : State) (c c' : DieId) (f : DieRec → DieRec) :
    (s.modDie c f).die c' = if c' = c then f (s.die c) else s.die c' := tget_tput _ _ _ _ _
theorem State.modPart_part (s : State) (c c' : PartId) (f : PartRec → PartRec) :
    (s.modPart c f).part c' = if c' = c then f (s.part c) else s.part c' := tget_tput _ _ _ _ _
theorem State.modPkg_pkg (s : State) (c c' : Nat) (f : PkgRec → PkgRec) :
    (s.modPkg c f).pkg c' = if c' = c then f (s.pkg c) else s.pkg c' := tget_tput _ _ _ _ _

/-- The slice of an update is changed by it, and every other is as it was. -/
theorem State.modSlice_slice? (s : State) (i j : SliceId) (f : SliceRec → SliceRec) :
    (s.modSlice i f).slice? j = if j = i then (s.slice? j).map f else s.slice? j := tfind_tmod _ _ _ _

theorem State.modSlot_slot? (s : State) (t u : ThreadId) (f : SlotRec → SlotRec) :
    (s.modSlot t f).slot? u = if u = t then (s.slot? u).map f else s.slot? u := tfind_tmod _ _ _ _

/-- The thread of an update is changed by it, and every other is as it was. -/
theorem State.modThread_thread? (s : State) (t u : ThreadId) (f : Thread → Thread) :
    (s.modThread t f).thread? u = if u = t then (s.thread? u).map f else s.thread? u := by
  unfold State.thread? State.modThread
  rw [State.modSlot_slot?]
  split
  · cases s.slot? u <;> rfl
  · rfl

/-- An update of another kind keeps every thread and every slice. -/
theorem State.thread?_of_wk {s s' : State} (h : s'.wk = s.wk) (t : ThreadId) : s'.thread? t = s.thread? t := by
  simp [State.thread?, State.slot?, h]

theorem State.slice?_of_wk {s s' : State} (h : s'.wk = s.wk) (i : SliceId) : s'.slice? i = s.slice? i := by
  simp [State.slice?, h]

end Sys2Proof.Machine
end

