-- ==== Sys2Proof/Laws/Runs.lean ====
section
/-!
SUPPORT. Sys2Proof/Laws/Runs.lean: what a run of a meaning does, stage by stage; and what issue answers when every stage completes.
-/
namespace Sys2Proof.Machine

theorem Runs.pure {α : Type} (a : α) (s : State) : Runs (pure a) s a s := rfl

theorem Runs.get (s : State) : Runs get s s s := rfl

theorem Runs.set (s s' : State) : Runs (set s') s () s' := rfl

theorem Runs.modify (f : State → State) (s : State) : Runs (modify f) s () (f s) := rfl

theorem Runs.bind {α β : Type} {m : Exec α} {f : α → Exec β} {s s1 s2 : State} {a : α} {b : β}
    (hm : Runs m s a s1) (hf : Runs (f a) s1 b s2) : Runs (m >>= f) s b s2 := by
  simp only [Runs, EStateM.run] at *
  simp only [Bind.bind, EStateM.bind, hm, hf]

theorem Runs.map {α β : Type} {m : Exec α} {f : α → β} {s s1 : State} {a : α} (hm : Runs m s a s1) : Runs (f <$> m) s (f a) s1 := by
  simp only [Runs, EStateM.run] at *
  simp only [Functor.map, EStateM.map, hm]

/-- A run has one end. -/
theorem Runs.unique {α : Type} {m : Exec α} {s s1 s2 : State} {a b : α} (h1 : Runs m s a s1) (h2 : Runs m s b s2) : a = b ∧ s1 = s2 := by
  simp only [Runs] at *
  rw [h1] at h2
  cases h2
  exact ⟨rfl, rfl⟩

/-- The stages of a run of two meanings in a row. -/
theorem Runs.split {α β : Type} {m : Exec α} {f : α → Exec β} {s s2 : State} {b : β} (h : Runs (m >>= f) s b s2) :
    ∃ a s1, Runs m s a s1 ∧ Runs (f a) s1 b s2 := by
  simp only [Runs, EStateM.run] at *
  simp only [Bind.bind, EStateM.bind] at h
  split at h
  · next a s1 hm => exact ⟨a, s1, hm, h⟩
  · cases h

theorem Runs.need {b : Bool} (e : Stop) (s : State) (hb : b = true) : Runs (need b e) s () s := by
  subst hb; rfl

/-! ### Runs that stop -/

/-- m, run from s, stops with e in s'. -/
def Fails {α : Type} (m : Exec α) (s : State) (e : Stop) (s' : State) : Prop := m.run s = .error e s'

theorem Fails.throw {α : Type} (e : Stop) (s : State) : Fails (throw e : Exec α) s e s := rfl

/-- A run that stops after its first stage. -/
theorem Fails.bind {α β : Type} {m : Exec α} {f : α → Exec β} {s s1 s2 : State} {a : α} {e : Stop}
    (hm : Runs m s a s1) (hf : Fails (f a) s1 e s2) : Fails (m >>= f) s e s2 := by
  simp only [Runs, Fails, EStateM.run] at *
  simp only [Bind.bind, EStateM.bind, hm, hf]

/-- A run whose first stage stops. -/
theorem Fails.first {α β : Type} {m : Exec α} {f : α → Exec β} {s s1 : State} {e : Stop} (hm : Fails m s e s1) : Fails (m >>= f) s e s1 := by
  simp only [Fails, EStateM.run] at *
  simp only [Bind.bind, EStateM.bind, hm]

/-! ### The executing thread -/

theorem Runs.me {s : State} {t : ThreadId} (h : s.cur = .thread t) : Runs me s t s := by
  refine Runs.bind (Runs.get s) ?_
  simp only [h]
  exact Runs.pure _ _

theorem Runs.thr {s : State} {t : ThreadId} {th : Thread} (h : s.cur = .thread t) (ht : s.thread? t = some th) : Runs thr s th s := by
  refine Runs.bind (Runs.get s) (Runs.bind (Runs.me h) ?_)
  simp only [ht]
  exact Runs.pure _ _

theorem Runs.ctl {s : State} {t : ThreadId} {th : Thread} (h : s.cur = .thread t) (ht : s.thread? t = some th) : Runs ctl s th.ctl s :=
  Runs.bind (Runs.thr h ht) (Runs.pure _ _)

theorem Runs.myCore {s : State} {t : ThreadId} (h : s.cur = .thread t) : Runs myCore s t.core s := Runs.bind (Runs.me h) (Runs.pure _ _)

theorem Runs.myPart {s : State} {t : ThreadId} {th : Thread} (h : s.cur = .thread t) (ht : s.thread? t = some th) :
    Runs myPart s th.ctl.slice.part s := Runs.bind (Runs.ctl h ht) (Runs.pure _ _)

theorem Runs.mySlice {s : State} {t : ThreadId} {th : Thread} {r : SliceRec} (h : s.cur = .thread t) (ht : s.thread? t = some th)
    (hr : s.slice? th.ctl.slice = some r) : Runs mySlice s r s := by
  refine Runs.bind (Runs.get s) (Runs.bind (Runs.ctl h ht) ?_)
  simp only [hr]
  exact Runs.pure _ _

theorem Runs.modT {s : State} {t : ThreadId} (f : Thread → Thread) (h : s.cur = .thread t) : Runs (modT f) s () (s.modThread t f) :=
  Runs.bind (Runs.me h) (Runs.modify _ _)

theorem Runs.notInBody {i : Instr} {s : State} {t : ThreadId} {th : Thread} (h : s.cur = .thread t) (ht : s.thread? t = some th)
    (hr : th.ctl.rep = none) : Runs (notInBody i) s () s := by
  refine Runs.bind (Runs.ctl h ht) ?_
  simp only [hr]
  exact Runs.pure _ _

/-! ### Issuing -/

theorem noteTurn_cur (s : State) (t : ThreadId) : (noteTurn s t).cur = s.cur := by
  unfold noteTurn; split <;> rfl

theorem chargeTurn_cur (s : State) (t : ThreadId) : (chargeTurn s t).cur = s.cur := by
  unfold chargeTurn
  split
  · rfl
  · split
    · exact noteTurn_cur s t
    · simp [noteTurn_cur]

theorem Issues.cur {h : Hdr} {t : ThreadId} {th : Thread} {s s0 : State} (hi : Issues h t th s s0) : s0.cur = .thread t := by
  rw [hi.turn, chargeTurn_cur, hi.actor]

theorem Issues.present {h : Hdr} {t : ThreadId} {th : Thread} {s s0 : State} (hi : Issues h t th s s0) : ∃ th', s.thread? t = some th' := by
  cases hs : s.thread? t with
  | some x => exact ⟨x, rfl⟩
  | none =>
    have hl := hi.live
    rw [hi.turn] at hl
    simp [chargeTurn, hs] at hl

/-- An issued instruction whose meaning completes is retired. -/
theorem issue_runs {h : Hdr} {t : ThreadId} {th : Thread} {s s0 s1 : State} {body : Exec Flow} {f : Flow}
    (hi : Issues h t th s s0) (hb : Runs body s0 f s1) : issue h body s = retired t h f s1 := by
  obtain ⟨th', hth⟩ := hi.present
  obtain ⟨hc, ht, _, hw, hg⟩ := hi
  subst ht
  have hrun : Runs (do checkWait h; if ← guardTrue h then body else return .seq : Exec Flow) (chargeTurn s t) f s1 :=
    Runs.bind hw (Runs.bind hg (by simpa using hb))
  simp only [issue, hc, hth]
  simp only [Runs] at hrun
  rw [hrun]
  rfl

/-- An issued instruction whose meaning stops is settled by its stop. -/
theorem issue_fails {h : Hdr} {t : ThreadId} {th : Thread} {s s0 s1 : State} {body : Exec Flow} {e : Stop}
    (hi : Issues h t th s s0) (hb : Fails body s0 e s1) : issue h body s = settle t h s s0 (.error e s1) := by
  obtain ⟨th', hth⟩ := hi.present
  obtain ⟨hc, ht, _, hw, hg⟩ := hi
  subst ht
  have hrun : Fails (do checkWait h; if ← guardTrue h then body else return .seq : Exec Flow) (chargeTurn s t) e s1 :=
    Fails.bind hw (Fails.bind hg (by simpa using hb))
  simp only [issue, hc, hth]
  simp only [Fails] at hrun
  rw [hrun]

theorem issueSeq_fails {h : Hdr} {t : ThreadId} {th : Thread} {s s0 s1 : State} {body : Exec Unit} {e : Stop}
    (hi : Issues h t th s s0) (hb : Fails body s0 e s1) : issueSeq h body s = settle t h s s0 (.error e s1) :=
  issue_fails hi (Fails.first hb)

theorem issueSeq_runs {h : Hdr} {t : ThreadId} {th : Thread} {s s0 s1 : State} {body : Exec Unit}
    (hi : Issues h t th s s0) (hb : Runs body s0 () s1) : issueSeq h body s = retired t h .seq s1 :=
  issue_runs hi (Runs.bind hb (Runs.pure _ _))

/-! ### Further stages -/

theorem Runs.tryCatch {α : Type} {m : Exec α} {f : Stop → Exec α} {s s1 : State} {a : α} (h : Runs m s a s1) : Runs (tryCatch m f) s a s1 := by
  simp only [Runs, EStateM.run] at *
  simp only [MonadExcept.tryCatch, tryCatchThe, MonadExceptOf.tryCatch, EStateM.tryCatch, h]

theorem Runs.orStop_some {α : Type} {o : Option α} {e : Stop} {a : α} (s : State) (h : o = some a) : Runs (orStop o e) s a s := by
  subst h; rfl

theorem Runs.orTrap_ok {α : Type} {e : Except TrapRec α} {a : α} (s : State) (he : e = .ok a) : Runs (orTrap e) s a s := by
  subst he; rfl

theorem Runs.myGen {s : State} {t : ThreadId} (h : s.cur = .thread t) : Runs myGen s (slotGen s t) s :=
  Runs.bind (Runs.get _) (Runs.bind (Runs.me h) (Runs.pure _ _))

theorem Runs.newOp (s : State) : Runs newOp s s.opId { s with opId := s.opId + 1 } :=
  Runs.bind (Runs.get _) (Runs.bind (Runs.modify _ _) (Runs.pure _ _))

end Sys2Proof.Machine
end

