-- ==== Sys2Proof/Laws/Reads.lean ====
section
/-!
SUPPORT. Sys2Proof/Laws/Reads.lean: stages that change nothing when they complete.
-/
namespace Sys2Proof.Machine

/-- Where m completes, the state is the one it began in. -/
def ReadsOnly {α : Type} (m : Exec α) : Prop := ∀ s a s', Runs m s a s' → s' = s

theorem ReadsOnly.pure {α : Type} (a : α) : ReadsOnly (pure a : Exec α) := by
  intro s b s' h; cases h; rfl

theorem ReadsOnly.get : ReadsOnly (get : Exec State) := by
  intro s b s' h; cases h; rfl

theorem ReadsOnly.throw {α : Type} (e : Stop) : ReadsOnly (throw e : Exec α) := by
  intro s b s' h; cases h

theorem ReadsOnly.bind {α β : Type} {m : Exec α} {f : α → Exec β} (hm : ReadsOnly m) (hf : ∀ a, ReadsOnly (f a)) : ReadsOnly (m >>= f) := by
  intro s b s' h
  obtain ⟨a, s1, h1, h2⟩ := Runs.split h
  rw [hf a _ _ _ h2, hm _ _ _ h1]

theorem ReadsOnly.ite {α : Type} {p : Prop} [Decidable p] {m n : Exec α} (hm : ReadsOnly m) (hn : ReadsOnly n) :
    ReadsOnly (if p then m else n) := by
  split <;> assumption

theorem ReadsOnly.me : ReadsOnly me := by
  refine ReadsOnly.bind ReadsOnly.get fun s => ?_
  split
  · exact ReadsOnly.pure _
  · exact ReadsOnly.throw _

theorem ReadsOnly.thr : ReadsOnly thr := by
  refine ReadsOnly.bind ReadsOnly.get fun s => ReadsOnly.bind ReadsOnly.me fun t => ?_
  split
  · exact ReadsOnly.pure _
  · exact ReadsOnly.throw _

theorem ReadsOnly.ctl : ReadsOnly ctl := ReadsOnly.bind ReadsOnly.thr fun _ => ReadsOnly.pure _

theorem ReadsOnly.trapAt {α : Type} (a b c : Nat) : ReadsOnly (trapAt a b c : Exec α) := ReadsOnly.throw _

theorem ReadsOnly.rdWin (off n : Nat) : ReadsOnly (rdWin off n) :=
  ReadsOnly.bind ReadsOnly.me fun _ => ReadsOnly.bind ReadsOnly.ctl fun _ => ReadsOnly.bind ReadsOnly.get fun _ =>
    ReadsOnly.ite (ReadsOnly.bind (ReadsOnly.trapAt _ _ _) fun _ => ReadsOnly.pure _) (ReadsOnly.pure _)

theorem ReadsOnly.regBits (n : Nat) : ReadsOnly (regBits n) :=
  ReadsOnly.bind ReadsOnly.me fun _ => ReadsOnly.bind ReadsOnly.ctl fun _ => ReadsOnly.bind ReadsOnly.get fun _ =>
    ReadsOnly.ite (ReadsOnly.bind (ReadsOnly.throw _) fun _ => ReadsOnly.bind (ReadsOnly.rdWin _ _) fun _ => ReadsOnly.pure _)
      (ReadsOnly.bind (ReadsOnly.rdWin _ _) fun _ => ReadsOnly.pure _)

theorem ReadsOnly.repIndex (r : RepState) : ReadsOnly (repIndex r) := ReadsOnly.bind (ReadsOnly.regBits _) fun _ => ReadsOnly.pure _

theorem ReadsOnly.renV (b : Nat) : ReadsOnly (renV b) := by
  refine ReadsOnly.bind ReadsOnly.ctl fun c => ?_
  split
  · exact ReadsOnly.pure _
  · exact ReadsOnly.ite (ReadsOnly.bind (ReadsOnly.repIndex _) fun _ => ReadsOnly.pure _) (ReadsOnly.pure _)

theorem ReadsOnly.vTag (n : Nat) : ReadsOnly (vTag n) :=
  ReadsOnly.bind ReadsOnly.me fun _ => ReadsOnly.bind ReadsOnly.ctl fun _ => ReadsOnly.bind ReadsOnly.get fun _ =>
    ReadsOnly.ite (ReadsOnly.bind (ReadsOnly.throw _) fun _ => ReadsOnly.bind (ReadsOnly.rdWin _ _) fun _ => ReadsOnly.pure _)
      (ReadsOnly.bind (ReadsOnly.rdWin _ _) fun _ => ReadsOnly.pure _)

theorem ReadsOnly.vecTags (l : List Src) : ReadsOnly (vecTags l) := by
  induction l with
  | nil => exact ReadsOnly.pure _
  | cons x r ih =>
    cases x with
    | op o =>
      cases o <;> first
        | exact ih
        | exact ReadsOnly.bind (ReadsOnly.renV _) fun _ => ReadsOnly.bind (ReadsOnly.vTag _) fun _ => ReadsOnly.bind ih fun _ => ReadsOnly.pure _
    | imm16 i => exact ih
    | imm32 i => exact ih

theorem ReadsOnly.checkTags (ok : Nat → Bool) (k : Nat) (l : List (Nat × Nat)) : ReadsOnly (checkTags ok k l) := by
  induction l with
  | nil => exact ReadsOnly.pure _
  | cons x r ih => exact ReadsOnly.ite (ReadsOnly.bind (ReadsOnly.trapAt _ _ _) fun _ => ih) ih

/-- A run of a stage that only reads, with its end state rewritten. -/
theorem ReadsOnly.split {α β : Type} {m : Exec α} {f : α → Exec β} {s s2 : State} {b : β} (hm : ReadsOnly m) (h : Runs (m >>= f) s b s2) :
    ∃ a, Runs m s a s ∧ Runs (f a) s b s2 := by
  obtain ⟨a, s1, h1, h2⟩ := Runs.split h
  have e := hm _ _ _ h1
  subst e
  exact ⟨a, h1, h2⟩

/-- The tag of an element-wise instruction is that of its first vector register. -/
theorem arithTag_head {ok : Nat → Bool} {srcs : List Src} {s s' : State} {tag : Nat} (h : Runs (arithTag ok srcs) s tag s') :
    ∃ l, Runs (vecTags srcs) s l s ∧ headTag l = tag ∧ s' = s := by
  unfold arithTag at h
  obtain ⟨l, h1, h⟩ := ReadsOnly.split (ReadsOnly.vecTags _) h
  obtain ⟨_, h2, h⟩ := ReadsOnly.split (ReadsOnly.checkTags _ _ _) h
  refine ⟨l, h1, ?_⟩
  split at h
  · cases h
  · cases h
    exact ⟨rfl, rfl⟩

theorem satTag_runs {bad : TrapRec} {sat : Bool} {srcs : List Src} {s : State} {tag : Nat} (h : Runs (arithTag isNumTag srcs) s tag s)
    (hs : (sat && isFloatTag tag) = false) : Runs (satTag bad sat srcs) s tag s := by
  obtain ⟨l, h1, h2, _⟩ := arithTag_head h
  refine Runs.bind h1 ?_
  rw [h2]
  simp only [hs, Bool.false_eq_true, if_false]
  exact h

theorem elementwise_runs {h : Hdr} {d : VReg} {srcs : List Src} {m : VMask} {tg : Exec Nat} {f : Captured → Nat → List Nat → Nat}
    {t : ThreadId} {th : Thread} {s s0 s1 : State} {tag : Nat} {c : Captured} {mk : Option Nat} {xs : List Nat}
    (hi : Issues h t th s s0) (h1 : Runs tg s0 tag s0) (h2 : Runs capture s0 c s0) (h3 : Runs (maskOf m) s0 mk s0)
    (h4 : Runs (vecSrcs (laneW tag) srcs) s0 xs s0)
    (h5 : Runs (wrLanes d (laneW tag) tag mk fun j => f c tag (xs.map fun x => lane x (laneW tag) j)) s0 () s1) :
    elementwise h d srcs m tg f s = retired t h .seq s1 :=
  issueSeq_runs hi (Runs.bind h1 (Runs.bind h2 (Runs.bind h3 (Runs.bind h4 h5))))

end Sys2Proof.Machine
end

