-- ==== Sys2Proof/Laws/Memory.lean ====
section
/-!
SUPPORT. Sys2Proof/Laws/Memory.lean: the one memory keeps its canonical form under every operation on it, the granule sets too; a read
after a write to the same bytes gives what was written, and a write leaves every other byte alone.
-/
namespace Sys2Proof.Machine

/-! ### Rising lists of cells -/

theorem risingFrom_mono {lo lo' : Nat} {m : List Host.Cell} (h : risingFrom lo m = true) (hl : lo' ≤ lo) : risingFrom lo' m = true := by
  cases m with
  | nil => rfl
  | cons c r =>
    simp only [risingFrom, Bool.and_eq_true, decide_eq_true_eq] at *
    exact ⟨by omega, h.2⟩

theorem risingFrom_filter {lo : Nat} {m : List Host.Cell} (p : Host.Cell → Bool) (h : risingFrom lo m = true) :
    risingFrom lo (m.filter p) = true := by
  induction m generalizing lo with
  | nil => rfl
  | cons c r ih =>
    obtain ⟨a, b⟩ := c
    simp only [risingFrom, Bool.and_eq_true, decide_eq_true_eq] at h
    simp only [List.filter_cons]
    split
    · simp only [risingFrom, Bool.and_eq_true, decide_eq_true_eq]
      exact ⟨h.1, ih h.2⟩
    · exact risingFrom_mono (ih h.2) (by omega)

/-- Two rising lists in a row, where the first ends below the second's start. -/
theorem risingFrom_append {lo mid : Nat} {m1 m2 : List Host.Cell} (h1 : risingFrom lo m1 = true) (hm : ∀ c ∈ m1, c.1 < mid)
    (h2 : risingFrom mid m2 = true) (hl : lo ≤ mid) : risingFrom lo (m1 ++ m2) = true := by
  induction m1 generalizing lo with
  | nil => exact risingFrom_mono h2 hl
  | cons c r ih =>
    obtain ⟨a, b⟩ := c
    simp only [risingFrom, Bool.and_eq_true, decide_eq_true_eq, List.cons_append] at *
    have ha : a < mid := hm (a, b) (by simp)
    exact ⟨h1.1, ih h1.2 (fun c hc => hm c (List.mem_cons_of_mem _ hc)) (by omega)⟩

theorem risingFrom_from {lo lo' : Nat} {m : List Host.Cell} (h : risingFrom lo m = true) (hm : ∀ c ∈ m, lo' ≤ c.1) : risingFrom lo' m = true := by
  cases m with
  | nil => rfl
  | cons c r =>
    simp only [risingFrom, Bool.and_eq_true, decide_eq_true_eq] at *
    exact ⟨hm c (by simp), h.2⟩

theorem cellsOf_bounds (a n v : Nat) : ∀ c ∈ cellsOf a n v, a ≤ c.1 ∧ c.1 < a + n := by
  induction n generalizing a v with
  | zero => simp [cellsOf]
  | succ k ih =>
    intro c hc
    simp only [cellsOf] at hc
    split at hc
    · have := ih (a + 1) (v / 256) c hc; omega
    · simp only [List.mem_cons] at hc
      rcases hc with rfl | hc
      · simp
      · have := ih (a + 1) (v / 256) c hc; omega

theorem cellsOf_rising (a n v : Nat) : risingFrom a (cellsOf a n v) = true := by
  induction n generalizing a v with
  | zero => rfl
  | succ k ih =>
    simp only [cellsOf]
    split
    · exact risingFrom_mono (ih (a + 1) (v / 256)) (by omega)
    · simp [risingFrom, ih (a + 1) (v / 256)]

theorem cellsOf_nonzero (a n v : Nat) : (cellsOf a n v).all (fun c => c.2 ≠ 0) = true := by
  induction n generalizing a v with
  | zero => rfl
  | succ k ih =>
    simp only [cellsOf]
    split
    · exact ih _ _
    · next h =>
      simp only [List.all_cons, ih, Bool.and_true, decide_eq_true_eq]
      intro h0
      apply h
      have := congrArg BitVec.toNat h0
      simpa using this

/-- A write keeps the canonical form. -/
theorem memWrite_wf {m : List Host.Cell} (a n v : Nat) (h : Memory.wf m = true) : Memory.wf (memWrite m a n v) = true := by
  simp only [Memory.wf, Bool.and_eq_true] at *
  obtain ⟨hr, hz⟩ := h
  constructor
  · unfold memWrite
    rw [List.append_assoc]
    refine risingFrom_append (mid := a) (risingFrom_filter _ hr) ?_ ?_ (Nat.zero_le _)
    · intro c hc; simpa using (List.mem_filter.mp hc).2
    · refine risingFrom_append (mid := a + n) (cellsOf_rising _ _ _) (fun c hc => (cellsOf_bounds a n v c hc).2) ?_ (by omega)
      exact risingFrom_from (risingFrom_filter _ hr) (fun c hc => by simpa using (List.mem_filter.mp hc).2)
  · have hf : ∀ p : Host.Cell → Bool, (m.filter p).all (fun c => c.2 ≠ 0) = true := by
      intro p
      simp only [List.all_eq_true] at *
      exact fun c hc => hz c (List.mem_filter.mp hc).1
    simp only [memWrite, List.all_append, hf, cellsOf_nonzero, Bool.and_true]

/-- Taking cells out keeps the canonical form. -/
theorem memFilter_wf {m : List Host.Cell} (p : Host.Cell → Bool) (h : Memory.wf m = true) : Memory.wf (m.filter p) = true := by
  simp only [Memory.wf, Bool.and_eq_true] at *
  refine ⟨risingFrom_filter p h.1, ?_⟩
  simp only [List.all_eq_true] at *
  exact fun c hc => h.2 c (List.mem_filter.mp hc).1

/-! ### Rising sets of granules -/

theorem risingNat_mono {lo lo' : Nat} {l : List Nat} (h : risingNat lo l = true) (hl : lo' ≤ lo) : risingNat lo' l = true := by
  cases l with
  | nil => rfl
  | cons a r =>
    simp only [risingNat, Bool.and_eq_true, decide_eq_true_eq] at *
    exact ⟨by omega, h.2⟩

theorem risingNat_filter {lo : Nat} {l : List Nat} (p : Nat → Bool) (h : risingNat lo l = true) : risingNat lo (l.filter p) = true := by
  induction l generalizing lo with
  | nil => rfl
  | cons a r ih =>
    simp only [risingNat, Bool.and_eq_true, decide_eq_true_eq] at h
    simp only [List.filter_cons]
    split
    · simp only [risingNat, Bool.and_eq_true, decide_eq_true_eq]
      exact ⟨h.1, ih h.2⟩
    · exact risingNat_mono (ih h.2) (by omega)

theorem nins_rising {lo : Nat} {l : List Nat} (x : Nat) (h : risingNat lo l = true) (hx : lo ≤ x) : risingNat lo (nins l x) = true := by
  induction l generalizing lo with
  | nil => simp [nins, risingNat, hx]
  | cons a r ih =>
    simp only [risingNat, Bool.and_eq_true, decide_eq_true_eq] at h
    simp only [nins]
    split
    · next hlt =>
      simp only [risingNat, Bool.and_eq_true, decide_eq_true_eq]
      exact ⟨hx, by omega, h.2⟩
    · split
      · simp only [risingNat, Bool.and_eq_true, decide_eq_true_eq]
        exact h
      · simp only [risingNat, Bool.and_eq_true, decide_eq_true_eq]
        exact ⟨h.1, ih h.2 (by omega)⟩

theorem foldl_nins_rising (xs : List Nat) {l : List Nat} (h : risingNat 0 l = true) : risingNat 0 (xs.foldl nins l) = true := by
  induction xs generalizing l with
  | nil => exact h
  | cons x r ih => exact ih (nins_rising x h (Nat.zero_le _))

theorem ninsAll_rising {l : List Nat} (a n : Nat) (h : risingNat 0 l = true) : risingNat 0 (ninsAll l a n) = true := foldl_nins_rising _ h

theorem ndel_rising {l : List Nat} (x : Nat) (h : risingNat 0 l = true) : risingNat 0 (ndel l x) = true := risingNat_filter _ h

theorem ndelAll_rising {l : List Nat} (a n : Nat) (h : risingNat 0 l = true) : risingNat 0 (ndelAll l a n) = true := risingNat_filter _ h

/-! ### The storage under its operations -/

theorem Store.wf_iff (st : Store) : Store.wf st = true ↔
    Memory.wf st.mem = true ∧ risingNat 0 st.full = true ∧ risingNat 0 st.poison = true ∧ risingNat 0 st.typed = true := by
  simp [Store.wf, Bool.and_eq_true, and_assoc]

theorem State.put_sound {s : State} (a n v : Nat) (h : s.sound) : (s.put a n v).sound := by
  simp only [State.sound, Store.wf_iff] at *
  exact ⟨memWrite_wf _ _ _ h.1, h.2⟩

theorem State.wr_sound {s : State} (a n v : Nat) (h : s.sound) : (s.wr a n v).sound := by
  simp only [State.sound, Store.wf_iff] at *
  exact ⟨memWrite_wf _ _ _ h.1, h.2.1, risingNat_filter _ h.2.2.1, h.2.2.2⟩

theorem State.fillGranules_sound {s : State} (a n : Nat) (h : s.sound) : (s.fillGranules a n).sound := by
  simp only [State.sound, Store.wf_iff] at *
  exact ⟨h.1, ninsAll_rising _ _ h.2.1, h.2.2⟩

theorem State.setFull_sound {s : State} (g : Nat) (b : Bool) (h : s.sound) : (s.setFull g b).sound := by
  simp only [State.sound, Store.wf_iff] at *
  refine ⟨h.1, ?_, h.2.2⟩
  simp only [State.setFull_st_full]
  split
  · exact nins_rising _ h.2.1 (Nat.zero_le _)
  · exact ndel_rising _ h.2.1

theorem State.clear_sound {s : State} (a n : Nat) (h : s.sound) : (s.clear a n).sound := by
  simp only [State.sound, Store.wf_iff] at *
  exact ⟨memFilter_wf _ h.1, ndelAll_rising _ _ h.2.1, ndelAll_rising _ _ h.2.2.1, ndelAll_rising _ _ h.2.2.2⟩

/-- Whatever leaves the storage alone keeps it sound. -/
theorem State.sound_of_st {s s' : State} (he : s'.st = s.st) (h : s.sound) : s'.sound := by simpa only [State.sound, he] using h

theorem winWrite_sound {s : State} (t : ThreadId) (sl : SliceId) (wsp : Word) (off n v : Nat) (h : s.sound) :
    (winWrite s t sl wsp off n v).sound := by
  have hf : ∀ (l : List (Nat × Nat)) (s' : State), s'.sound →
      (l.foldl (fun s p => s.wr (winByte s t sl wsp p.1) p.2 (field v (8 * (p.1 - off)) (8 * p.2))) s').sound := by
    intro l
    induction l with
    | nil => exact fun _ h => h
    | cons p r ih => exact fun s' h => ih _ (State.wr_sound _ _ _ h)
  unfold winWrite
  split
  · exact State.wr_sound _ _ _ h
  · exact hf _ _ h

/-! ### Reading after writing -/

theorem memRead_append (m1 m2 : List Host.Cell) (a n : Nat) : memRead (m1 ++ m2) a n = memRead m1 a n + memRead m2 a n := by
  induction m1 with
  | nil => simp [memRead]
  | cons c r ih =>
    obtain ⟨x, b⟩ := c
    simp only [List.cons_append, memRead, ih]
    omega

/-- Cells outside the bytes read do not matter. -/
theorem memRead_outside {m : List Host.Cell} {a n : Nat} (h : ∀ c ∈ m, c.1 < a ∨ a + n ≤ c.1) : memRead m a n = 0 := by
  induction m with
  | nil => rfl
  | cons c r ih =>
    obtain ⟨x, b⟩ := c
    have hx : x < a ∨ a + n ≤ x := h (x, b) (by simp)
    simp only [memRead]
    rw [if_neg (by omega), ih (fun c hc => h c (List.mem_cons_of_mem _ hc))]

theorem memRead_cellsOf (a n v : Nat) (k : Nat) (hk : k ≤ a) (e : Nat) (he : a + n ≤ e) :
    memRead (cellsOf a n v) k (e - k) = v % 256 ^ n * 256 ^ (a - k) := by
  induction n generalizing a v with
  | zero => simp [cellsOf, memRead, Nat.mod_one]
  | succ n ih =>
    have hstep := ih (a + 1) (v / 256) (by omega) (by omega)
    have hpow : (256 : Nat) ^ (a + 1 - k) = 256 * 256 ^ (a - k) := by
      rw [show a + 1 - k = (a - k) + 1 by omega, Nat.pow_succ, Nat.mul_comm]
    have hmod : v % 256 ^ (n + 1) = v % 256 + 256 * (v / 256 % 256 ^ n) := by
      rw [Nat.pow_succ, Nat.mul_comm, Nat.mod_mul]
    have hval : v % 256 ^ (n + 1) * 256 ^ (a - k) = v % 256 * 256 ^ (a - k) + v / 256 % 256 ^ n * 256 ^ (a + 1 - k) := by
      rw [hmod, hpow, Nat.add_mul, Nat.mul_comm 256 (v / 256 % 256 ^ n), Nat.mul_assoc]
    simp only [cellsOf]
    split
    · next h0 => rw [hstep, hval, h0]; omega
    · simp only [memRead]
      rw [if_pos (by omega), hstep, hval]
      have h8 : (2 : Nat) ^ (8 * (a - k)) = 256 ^ (a - k) := by rw [show (256 : Nat) = 2 ^ 8 by rfl, ← Nat.pow_mul]
      rw [h8]
      simp only [BitVec.toNat_ofNat]

/-- A read of the bytes that a write wrote gives what it wrote. -/
theorem memRead_memWrite_same (m : List Host.Cell) (a n v : Nat) : memRead (memWrite m a n v) a n = v % 256 ^ n := by
  unfold memWrite
  rw [memRead_append, memRead_append]
  have h1 : memRead (m.filter fun c => decide (c.1 < a)) a n = 0 :=
    memRead_outside fun c hc => Or.inl (by simpa using (List.mem_filter.mp hc).2)
  have h2 : memRead (m.filter fun c => decide (a + n ≤ c.1)) a n = 0 :=
    memRead_outside fun c hc => Or.inr (by simpa using (List.mem_filter.mp hc).2)
  have h3 := memRead_cellsOf a n v a (Nat.le_refl _) (a + n) (Nat.le_refl _)
  rw [Nat.add_sub_cancel_left, Nat.sub_self, Nat.pow_zero, Nat.mul_one] at h3
  rw [h1, h2, h3]
  omega

/-- A list's cells split by an address test. -/
theorem memRead_filter_split (m : List Host.Cell) (p : Host.Cell → Bool) (a n : Nat) :
    memRead (m.filter p) a n + memRead (m.filter fun c => !p c) a n = memRead m a n := by
  induction m with
  | nil => rfl
  | cons c r ih =>
    obtain ⟨x, b⟩ := c
    cases hp : p (x, b) with
    | true => simp only [List.filter_cons, hp, if_true, Bool.not_true, Bool.false_eq_true, if_false, memRead]; omega
    | false => simp only [List.filter_cons, hp, if_true, Bool.not_false, Bool.false_eq_true, if_false, memRead]; omega

/-- A read of other bytes gives what it gave. -/
theorem memRead_memWrite_other (m : List Host.Cell) {a n v b k : Nat} (h : b + k ≤ a ∨ a + n ≤ b) :
    memRead (memWrite m a n v) b k = memRead m b k := by
  have hmid : ∀ p : Host.Cell → Bool, (∀ c, p c = true → a ≤ c.1 ∧ c.1 < a + n) → memRead (m.filter p) b k = 0 := by
    intro p hp
    refine memRead_outside fun c hc => ?_
    have := hp c (List.mem_filter.mp hc).2
    omega
  have hcells : memRead (cellsOf a n v) b k = 0 := by
    refine memRead_outside fun c hc => ?_
    have := cellsOf_bounds a n v c hc
    omega
  unfold memWrite
  rw [memRead_append, memRead_append, hcells]
  have s1 := memRead_filter_split m (fun c => decide (c.1 < a)) b k
  have s2 := memRead_filter_split (m.filter fun c => !decide (c.1 < a)) (fun c => decide (a + n ≤ c.1)) b k
  have e1 : (m.filter fun c => !decide (c.1 < a)).filter (fun c => decide (a + n ≤ c.1)) = m.filter fun c => decide (a + n ≤ c.1) := by
    rw [List.filter_filter]
    congr 1
    funext c
    by_cases hc : a + n ≤ c.1
    · have : ¬ c.1 < a := by omega
      simp [hc, this]
    · simp [hc]
  have e2 : memRead ((m.filter fun c => !decide (c.1 < a)).filter fun c => !decide (a + n ≤ c.1)) b k = 0 := by
    rw [List.filter_filter]
    refine hmid _ fun c hc => ?_
    simp only [Bool.and_eq_true, Bool.not_eq_true', decide_eq_false_iff_not] at hc
    omega
  rw [e1, e2] at s2
  omega

theorem memByte_eq_memRead {m : List Host.Cell} (h : Memory.wf m = true) (x : Nat) : (memByte m x).toNat = memRead m x 1 := by
  have key : ∀ (lo : Nat) (m : List Host.Cell), risingFrom lo m = true → (memByte m x).toNat = memRead m x 1 := by
    intro lo m
    induction m generalizing lo with
    | nil => intro _; rfl
    | cons c r ih =>
      obtain ⟨a, b⟩ := c
      intro hr
      simp only [risingFrom, Bool.and_eq_true, decide_eq_true_eq] at hr
      simp only [memByte, memRead]
      by_cases hx : x = a
      · subst hx
        rw [if_pos rfl, if_pos (by omega)]
        have : memRead r x 1 = 0 := by
          refine memRead_outside fun c hc => ?_
          have hge : ∀ (lo : Nat) (l : List Host.Cell), risingFrom lo l = true → ∀ c ∈ l, lo ≤ c.1 := by
            intro lo l
            induction l generalizing lo with
            | nil => intro _ c hc; cases hc
            | cons d q ihq =>
              intro hl c hc
              simp only [risingFrom, Bool.and_eq_true, decide_eq_true_eq] at hl
              rcases List.mem_cons.mp hc with rfl | hc
              · exact hl.1
              · have := ihq _ hl.2 c hc; omega
          have := hge _ r hr.2 c hc
          omega
        simp [this]
      · rw [if_neg hx, if_neg (by omega), ih _ hr.2]
        omega
  simp only [Memory.wf, Bool.and_eq_true] at h
  exact key 0 m h.1

theorem State.rd_put_same (s : State) (a n v : Nat) : (s.put a n v).rd a n = v % 256 ^ n := memRead_memWrite_same _ _ _ _
theorem State.rd_put_other (s : State) {a n v b k : Nat} (h : b + k ≤ a ∨ a + n ≤ b) : (s.put a n v).rd b k = s.rd b k :=
  memRead_memWrite_other _ h
theorem State.rd_wr_same (s : State) (a n v : Nat) : (s.wr a n v).rd a n = v % 256 ^ n := memRead_memWrite_same _ _ _ _
theorem State.rd_wr_other (s : State) {a n v b k : Nat} (h : b + k ≤ a ∨ a + n ≤ b) : (s.wr a n v).rd b k = s.rd b k :=
  memRead_memWrite_other _ h

end Sys2Proof.Machine
end

