-- ==== Sys2Proof/Laws/Retire.lean ====
section
/-!
SUPPORT. Sys2Proof/Laws/Retire.lean: what charging a turn, taking a trap and completing an instruction leave as it was: units, tiles,
messages, clocks and counters.
-/
namespace Sys2Proof.Machine

theorem UnitsKept.refl (s : State) : UnitsKept s s := ⟨rfl, rfl, rfl, rfl, rfl, rfl, rfl, rfl, rfl⟩

theorem UnitsKept.trans {a b c : State} (h1 : UnitsKept a b) (h2 : UnitsKept b c) : UnitsKept a c :=
  ⟨h2.cur.trans h1.cur, h2.agenda.trans h1.agenda, h2.ac.trans h1.ac, h2.dtime.trans h1.dtime, h2.free.trans h1.free,
   h2.opId.trans h1.opId, h2.un.trans h1.un, h2.tl.trans h1.tl, h2.nt.trans h1.nt⟩

theorem State.modThread_kept (s : State) (t : ThreadId) (f : Thread → Thread) : UnitsKept s (s.modThread t f) :=
  ⟨rfl, rfl, rfl, rfl, rfl, rfl, rfl, rfl, rfl⟩

theorem State.modSlice_kept (s : State) (i : SliceId) (f : SliceRec → SliceRec) : UnitsKept s (s.modSlice i f) :=
  ⟨rfl, rfl, rfl, rfl, rfl, rfl, rfl, rfl, rfl⟩

theorem State.wr_kept (s : State) (a : Addr) (n v : Nat) : UnitsKept s (s.wr a n v) := ⟨rfl, rfl, rfl, rfl, rfl, rfl, rfl, rfl, rfl⟩

theorem winWrite_kept (s : State) (t : ThreadId) (sl : SliceId) (wsp : Word) (off n v : Nat) : UnitsKept s (winWrite s t sl wsp off n v) := by
  have hf : ∀ (l : List (Nat × Nat)) (s' : State), UnitsKept s s' →
      UnitsKept s (l.foldl (fun s p => s.wr (winByte s t sl wsp p.1) p.2 (field v (8 * (p.1 - off)) (8 * p.2))) s') := by
    intro l
    induction l with
    | nil => exact fun _ h => h
    | cons p r ih => exact fun s' h => ih _ (h.trans (State.wr_kept _ _ _ _))
  unfold winWrite
  split
  · exact State.wr_kept _ _ _ _
  · exact hf _ _ (UnitsKept.refl s)

theorem threadWrite_kept (s : State) (t : ThreadId) (c : Ctl) (wsp : Word) (off n v : Nat) : UnitsKept s (threadWrite s t c wsp off n v) :=
  winWrite_kept _ _ _ _ _ _ _

theorem saveControl_kept (s : State) (t : ThreadId) : UnitsKept s (saveControl s t) := by
  unfold saveControl
  split
  · exact UnitsKept.refl s
  · exact ((threadWrite_kept _ _ _ _ _ _ _).trans (threadWrite_kept _ _ _ _ _ _ _)).trans (threadWrite_kept _ _ _ _ _ _ _)

theorem endByFault_kept (s : State) (t : ThreadId) (r : TrapRec) : UnitsKept s (endByFault s t r) :=
  (saveControl_kept s t).trans (State.modThread_kept _ _ _)

theorem writeTrapRecord_kept (s : State) (t : ThreadId) (c : Ctl) (w : Word) (r : TrapRec) : UnitsKept s (writeTrapRecord s t c w r) := by
  unfold writeTrapRecord
  exact (saveControl_kept s t).trans <| (threadWrite_kept _ _ _ _ _ _ _).trans <| (threadWrite_kept _ _ _ _ _ _ _).trans <|
    (threadWrite_kept _ _ _ _ _ _ _).trans <| (threadWrite_kept _ _ _ _ _ _ _).trans <| (threadWrite_kept _ _ _ _ _ _ _).trans <|
    (threadWrite_kept _ _ _ _ _ _ _).trans <| (threadWrite_kept _ _ _ _ _ _ _).trans <| threadWrite_kept _ _ _ _ _ _ _

/-- Taking a trap changes threads and storage only. -/
theorem takeTrap_kept (t : ThreadId) (r : TrapRec) (s : State) : UnitsKept s (takeTrap t r s) := by
  unfold takeTrap
  split
  · exact UnitsKept.refl s
  · dsimp only
    split
    · exact endByFault_kept _ _ _
    · split
      · exact endByFault_kept _ _ _
      · split
        · exact endByFault_kept _ _ _
        · exact (writeTrapRecord_kept _ _ _ _ _).trans (State.modThread_kept _ _ _)

theorem boundaryStep_kept (s : State) (t : ThreadId) (c : Ctl) (r : RepState) : UnitsKept s (boundaryStep s t c r) := by
  have hu : ∀ (s : State) (n : Nat), UnitsKept s (if (threadRead s t c c.wsp offMarks 8).testBit n then
      threadWrite s t c c.wsp offMarks 8 (putBit (threadRead s t c c.wsp offMarks 8) n false) else s) := by
    intro s n
    split
    · exact threadWrite_kept _ _ _ _ _ _ _
    · exact UnitsKept.refl s
  unfold boundaryStep
  dsimp only
  split
  · exact (threadWrite_kept _ _ _ _ _ _ _).trans <| (hu _ _).trans <| (threadWrite_kept _ _ _ _ _ _ _).trans <| (hu _ _).trans (State.modThread_kept _ _ _)
  · exact (threadWrite_kept _ _ _ _ _ _ _).trans <| (hu _ _).trans <| (threadWrite_kept _ _ _ _ _ _ _).trans <| (hu _ _).trans (State.modThread_kept _ _ _)

theorem boundary_kept (s : State) (t : ThreadId) : UnitsKept s (boundary s t) := by
  unfold boundary
  split
  · exact UnitsKept.refl s
  · split
    · exact UnitsKept.refl s
    · split
      · exact State.modThread_kept _ _ _
      · split
        · exact (State.modThread_kept _ _ _).trans (takeTrap_kept _ _ _)
        · exact boundaryStep_kept _ _ _ _

theorem takeAfter_kept (s : State) (t : ThreadId) : UnitsKept s (takeAfter s t) := by
  unfold takeAfter
  split
  · exact UnitsKept.refl s
  · exact (State.modThread_kept _ _ _).trans (takeTrap_kept _ _ _)

theorem countSkid_kept (s : State) (t : ThreadId) : UnitsKept s (countSkid s t) := by
  unfold countSkid
  split
  · exact State.modThread_kept _ _ _
  · exact UnitsKept.refl s

/-- Completing an instruction changes threads and storage only. -/
theorem retire_kept (t : ThreadId) (e : Bool) (f : Flow) (s : State) : UnitsKept s (retire t e f s) := by
  unfold retire
  split
  · exact UnitsKept.refl s
  · dsimp only
    split
    · exact countSkid_kept s t
    · exact (countSkid_kept s t).trans ((State.modThread_kept _ _ _).trans (takeAfter_kept _ _))
    · split
      · exact (countSkid_kept s t).trans ((State.modThread_kept _ _ _).trans (takeAfter_kept _ _))
      · split
        · split
          · exact (countSkid_kept s t).trans ((State.modThread_kept _ _ _).trans (takeAfter_kept _ _))
          · exact (countSkid_kept s t).trans (boundary_kept _ _)
        · exact (countSkid_kept s t).trans ((State.modThread_kept _ _ _).trans (takeAfter_kept _ _))

theorem markIssue_kept (s : State) (t : ThreadId) (ya : Bool) : UnitsKept s (markIssue s t ya) := State.modThread_kept _ _ _

/-- A charged turn changes the slot that issued last and the allotment: no tile, message, clock, counter or byte. -/
theorem chargeTurn_tl (s : State) (t : ThreadId) : (chargeTurn s t).tl = s.tl := by
  unfold chargeTurn noteTurn; split <;> (try split) <;> (try split) <;> rfl

theorem chargeTurn_nt (s : State) (t : ThreadId) : (chargeTurn s t).nt = s.nt := by
  unfold chargeTurn noteTurn; split <;> (try split) <;> (try split) <;> rfl

theorem chargeTurn_st (s : State) (t : ThreadId) : (chargeTurn s t).st = s.st := by
  unfold chargeTurn noteTurn; split <;> (try split) <;> (try split) <;> rfl

theorem chargeTurn_opId (s : State) (t : ThreadId) : (chargeTurn s t).opId = s.opId := by
  unfold chargeTurn noteTurn; split <;> (try split) <;> (try split) <;> rfl

theorem chargeTurn_free (s : State) (t : ThreadId) : (chargeTurn s t).free = s.free := by
  unfold chargeTurn noteTurn; split <;> (try split) <;> (try split) <;> rfl

end Sys2Proof.Machine
end

