-- ==== Sys2Proof/Laws/Windows.lean ====
section
/-!
SUPPORT. Sys2Proof/Laws/Windows.lean: reading a window after a write to it or to another window.
-/
namespace Sys2Proof.Machine

/-- Where a window's bytes stand depends on the slices alone. -/
theorem winByte_wk {s s' : State} (h : s'.wk.slices = s.wk.slices) (t : ThreadId) (sl : SliceId) (w : Word) (off : Nat) :
    winByte s' t sl w off = winByte s t sl w off := by
  simp only [winByte, windowByte, State.slice?, h]

/-- The stores of a write to a window, piece by piece. -/
def winPieces (s0 : State) (t : ThreadId) (sl : SliceId) (w : Word) (off v : Nat) (l : List (Nat × Nat)) (s : State) : State :=
  l.foldl (fun s p => s.wr (winByte s0 t sl w p.1) p.2 (field v (8 * (p.1 - off)) (8 * p.2))) s

theorem winPieces_wk (s0 : State) (t : ThreadId) (sl : SliceId) (w : Word) (off v : Nat) (l : List (Nat × Nat)) (s : State) :
    (winPieces s0 t sl w off v l s).wk = s.wk := by
  induction l generalizing s with
  | nil => rfl
  | cons p r ih => exact (ih _).trans rfl

theorem foldl_pieces (s0 : State) (t : ThreadId) (sl : SliceId) (w : Word) (off v : Nat) (l : List (Nat × Nat)) (s : State) (h : s.wk.slices = s0.wk.slices) :
    l.foldl (fun s p => s.wr (winByte s t sl w p.1) p.2 (field v (8 * (p.1 - off)) (8 * p.2))) s = winPieces s0 t sl w off v l s := by
  induction l generalizing s with
  | nil => rfl
  | cons p r ih =>
    simp only [List.foldl_cons, winPieces]
    rw [winByte_wk h]
    exact ih _ h

theorem winWrite_wk (s : State) (t : ThreadId) (sl : SliceId) (w : Word) (off n v : Nat) : (winWrite s t sl w off n v).wk = s.wk := by
  unfold winWrite
  split
  · rfl
  · rw [foldl_pieces s t sl w off v _ s rfl, winPieces_wk]

theorem threadWrite_wk (s : State) (t : ThreadId) (c : Ctl) (w : Word) (off n v : Nat) : (threadWrite s t c w off n v).wk = s.wk :=
  winWrite_wk _ _ _ _ _ _ _

/-- The pieces of a run of bytes lie in it, one line each. -/
theorem linePieces_mem {off n : Nat} {p : Nat × Nat} (h : p ∈ linePieces off n) (hn : 0 < n) :
    0 < p.2 ∧ off ≤ p.1 ∧ p.1 + p.2 ≤ off + n ∧ p.1 + p.2 ≤ 64 * (p.1 / 64) + 64 := by
  obtain ⟨a, k⟩ := p
  simp only [linePieces, List.mem_map, List.mem_range, Prod.mk.injEq] at h
  obtain ⟨i, hi, ha, hk⟩ := h
  simp only
  omega

theorem lines_apart {x y a b o o' n n' : Nat} (e1 : x = a + o) (e2 : y = b + o') (h : a + 64 ≤ b ∨ b + 64 ≤ a) (hn : o + n ≤ 64) (hn' : o' + n' ≤ 64) :
    x + n ≤ y ∨ y + n' ≤ x := by omega

theorem same_line {x y a o o' n n' : Nat} (e1 : x = a + o) (e2 : y = a + o') (h : o + n ≤ o' ∨ o' + n' ≤ o) (_ : 0 < n) :
    x + n ≤ y ∨ y + n' ≤ x := by omega

/-- Two runs of bytes that lie in one line each share no byte where they are apart in the window, or in windows apart. -/
theorem runs_apart {s : State} {t : ThreadId} {sl : SliceId} {w1 w2 : Word} (h1 : WindowStands s t sl w1) (h2 : WindowStands s t sl w2)
    (ha : w1 ≠ w2 → LinesApart s t sl w1 w2) {o n o' n' : Nat} (hn : 0 < n) (hn' : 0 < n')
    (hi : o + n ≤ 64 * (o / 64) + 64) (hi' : o' + n' ≤ 64 * (o' / 64) + 64) (hl : o + n ≤ 0x2400) (hl' : o' + n' ≤ 0x2400)
    (hd : w1 ≠ w2 ∨ o + n ≤ o' ∨ o' + n' ≤ o) :
    winByte s t sl w1 o + n ≤ winByte s t sl w2 o' ∨ winByte s t sl w2 o' + n' ≤ winByte s t sl w1 o := by
  have b1 : o / 64 < winLines := by unfold winLines; omega
  have b2 : o' / 64 < winLines := by unfold winLines; omega
  have e1 := h1.whole (o / 64) (o % 64) b1 (by omega)
  have e2 := h2.whole (o' / 64) (o' % 64) b2 (by omega)
  rw [show 64 * (o / 64) + o % 64 = o by omega] at e1
  rw [show 64 * (o' / 64) + o' % 64 = o' by omega] at e2
  by_cases hw : w1 = w2
  · subst hw
    by_cases he : o / 64 = o' / 64
    · rw [← he] at e2
      have hd := hd.resolve_left (fun h => h rfl)
      exact same_line e1 e2 (by omega) hn
    · exact lines_apart e1 e2 (h1.apart _ _ b1 b2 (.inr he)) (by omega) (by omega)
  · exact lines_apart e1 e2 (ha hw _ _ b1 b2 (.inl hw)) (by omega) (by omega)

/-- Stores apart from a run of bytes leave it as it was. -/
theorem winPieces_other {s0 : State} {t : ThreadId} {sl : SliceId} {w : Word} {off v b k : Nat} (l : List (Nat × Nat)) (s : State)
    (h : ∀ p ∈ l, b + k ≤ winByte s0 t sl w p.1 ∨ winByte s0 t sl w p.1 + p.2 ≤ b) : (winPieces s0 t sl w off v l s).rd b k = s.rd b k := by
  induction l generalizing s with
  | nil => rfl
  | cons p r ih =>
    have hp := h p List.mem_cons_self
    have hr := ih (s.wr (winByte s0 t sl w p.1) p.2 (field v (8 * (p.1 - off)) (8 * p.2))) fun q hq => h q (List.mem_cons_of_mem _ hq)
    exact hr.trans (State.rd_wr_other _ hp)

/-- A write to a window leaves other bytes of it, and of windows apart from it, as they were. -/
theorem winWrite_other {s s1 : State} {t : ThreadId} {sl : SliceId} {w1 w2 : Word} (hw : s1.wk.slices = s.wk.slices) (h1 : WindowStands s t sl w1)
    (h2 : WindowStands s t sl w2) (ha : w1 ≠ w2 → LinesApart s t sl w1 w2) {o n o' n' : Nat} (v : Nat) (hn : 0 < n) (hn' : 0 < n')
    (hr : o + n ≤ 0x2400) (hi' : o' + n' ≤ 64 * (o' / 64) + 64) (hr' : o' + n' ≤ 0x2400) (hd : w1 ≠ w2 ∨ o + n ≤ o' ∨ o' + n' ≤ o) :
    (winWrite s1 t sl w1 o n v).rd (winByte s t sl w2 o') n' = s1.rd (winByte s t sl w2 o') n' := by
  unfold winWrite
  split
  · rw [winByte_wk hw]
    exact State.rd_wr_other _ (runs_apart h1 h2 ha hn hn' (by omega) hi' hr hr' hd).symm
  · rw [foldl_pieces s1 t sl w1 o v _ s1 rfl]
    refine winPieces_other _ _ fun p hp => ?_
    obtain ⟨a1, a2, a3, a4⟩ := linePieces_mem hp hn
    rw [winByte_wk hw]
    exact (runs_apart h1 h2 ha a1 hn' a4 hi' (by omega) hr' (hd.imp id fun h => by omega)).symm

/-- A write of a run of bytes in one line is read back. -/
theorem winWrite_same {s s1 : State} {t : ThreadId} {sl : SliceId} {w : Word} (hw : s1.wk.slices = s.wk.slices) {o n : Nat} (v : Nat) (hi : o % 64 + n ≤ 64) :
    (winWrite s1 t sl w o n v).rd (winByte s t sl w o) n = v % 256 ^ n := by
  unfold winWrite
  rw [if_pos hi, winByte_wk hw]
  exact State.rd_wr_same _ _ _ _

theorem winRead_line {s s0 : State} (hw : s.wk.slices = s0.wk.slices) (t : ThreadId) (sl : SliceId) (w : Word) {o n : Nat} (hi : o % 64 + n ≤ 64) :
    winRead s t sl w o n = s.rd (winByte s0 t sl w o) n := by
  unfold winRead
  rw [if_pos hi, winByte_wk hw]

/-! ### A thread's reads of its windows -/

/-- A run of bytes of a window in one line. -/
abbrev inLine (o n : Nat) : Prop := 0 < n ∧ o % 64 + n ≤ 64 ∧ o + n ≤ 0x2400

theorem threadRead_other {s s1 : State} {t : ThreadId} {c : Ctl} {w1 w2 : Word} (hw : s1.wk.slices = s.wk.slices)
    (h1 : WindowStands s t c.slice w1) (h2 : WindowStands s t c.slice w2) (ha : w1 ≠ w2 → LinesApart s t c.slice w1 w2) {o n o' n' : Nat} (v : Nat)
    (hn : 0 < n) (hr : o + n ≤ 0x2400) (hi : inLine o' n') (hd : w1 ≠ w2 ∨ o + n ≤ o' ∨ o' + n' ≤ o) :
    threadRead (threadWrite s1 t c w1 o n v) t c w2 o' n' = threadRead s1 t c w2 o' n' := by
  obtain ⟨a1, a2, a3⟩ := hi
  simp only [threadRead]
  rw [winRead_line (s0 := s) ((congrArg Work.slices (threadWrite_wk _ _ _ _ _ _ _)).trans hw) _ _ _ a2, winRead_line hw _ _ _ a2]
  exact winWrite_other hw h1 h2 ha v hn a1 hr (by omega) a3 hd

theorem threadRead_same {s s1 : State} {t : ThreadId} {c : Ctl} {w : Word} (hw : s1.wk.slices = s.wk.slices) {o n : Nat} (v : Nat) (hi : inLine o n) :
    threadRead (threadWrite s1 t c w o n v) t c w o n = v % 256 ^ n := by
  obtain ⟨a1, a2, a3⟩ := hi
  simp only [threadRead]
  rw [winRead_line (s0 := s) ((congrArg Work.slices (threadWrite_wk _ _ _ _ _ _ _)).trans hw) _ _ _ a2]
  exact winWrite_same hw v a2

/-- A change of a thread's record changes no byte. -/
theorem threadRead_modThread (s : State) (u : ThreadId) (f : Thread → Thread) (t : ThreadId) (c : Ctl) (w : Word) (o n : Nat) :
    threadRead (s.modThread u f) t c w o n = threadRead s t c w o n := rfl

/-! ### Setting a register to a plain value -/

theorem putBit_false_testBit (x n m : Nat) (hx : x.testBit n = true) : (putBit x n false).testBit m = (decide (m ≠ n) && x.testBit m) := by
  have hb : x / 2 ^ n % 2 = 1 := by
    have := Nat.testBit_eq_decide_div_mod_eq (x := x) (i := n)
    simpa [hx] using this.symm
  have e : putBit x n false = 2 ^ n * (2 * (x / 2 ^ n / 2)) + x % 2 ^ n := by
    simp only [putBit, bit, hb]
    have h1 := Nat.div_add_mod x (2 ^ n)
    have h2 : x / 2 ^ n = 2 * (x / 2 ^ n / 2) + 1 := by omega
    have h3 : 2 ^ n * (x / 2 ^ n) = 2 ^ n * (2 * (x / 2 ^ n / 2)) + 2 ^ n := by
      have := congrArg (2 ^ n * ·) h2
      simp only [Nat.mul_add, Nat.mul_one] at this
      exact this
    simp only [Bool.false_eq_true, if_false, Nat.one_mul, Nat.zero_mul]
    omega
  have e' : x = 2 ^ n * (x / 2 ^ n) + x % 2 ^ n := (Nat.div_add_mod x (2 ^ n)).symm
  have hl : x % 2 ^ n < 2 ^ n := Nat.mod_lt _ (Nat.two_pow_pos _)
  rw [e, Nat.testBit_two_pow_mul_add _ hl]
  have hx2 := Nat.testBit_two_pow_mul_add (x / 2 ^ n) hl m
  rw [Nat.div_add_mod] at hx2
  rw [hx2]
  by_cases h1 : m < n
  · simp [h1]; omega
  · simp only [h1, if_false]
    by_cases h2 : m = n
    · subst h2; simp
    · obtain ⟨k, hk⟩ : ∃ k, m - n = k + 1 := ⟨m - n - 1, by omega⟩
      simp only [hk, Nat.testBit_succ]
      simp [h2]

/-- A register takes a plain value: its mark, if set, is cleared. -/
abbrev setPlain (s : State) (t : ThreadId) (c : Ctl) (n v : Nat) : State :=
  let s1 := threadWrite s t c c.wsp (offW n) 8 v
  let m := threadRead s1 t c c.wsp offMarks 8
  if m.testBit n then threadWrite s1 t c c.wsp offMarks 8 (putBit m n false) else s1

theorem setPlain_wk (s : State) (t : ThreadId) (c : Ctl) (n v : Nat) : (setPlain s t c n v).wk = s.wk := by
  unfold setPlain
  simp only
  split
  · exact (threadWrite_wk _ _ _ _ _ _ _).trans (threadWrite_wk _ _ _ _ _ _ _)
  · exact threadWrite_wk _ _ _ _ _ _ _

theorem setPlain_kept (s : State) (t : ThreadId) (c : Ctl) (n v : Nat) : UnitsKept s (setPlain s t c n v) := by
  unfold setPlain
  simp only
  split
  · exact (threadWrite_kept _ _ _ _ _ _ _).trans (threadWrite_kept _ _ _ _ _ _ _)
  · exact threadWrite_kept _ _ _ _ _ _ _

/-- What stands in the window after a register took a plain value: that value, its mark clear, and every other register and mark as before. -/
theorem setPlain_reads {s s0 : State} {t : ThreadId} {c : Ctl} (hw : s0.wk = s.wk) (hs : WindowStands s t c.slice c.wsp) (n : Reg) (v : Nat) :
    threadRead (setPlain s0 t c n.val v) t c c.wsp (offW n.val) 8 = v % 256 ^ 8 ∧
    (∀ m : Reg, m ≠ n → threadRead (setPlain s0 t c n.val v) t c c.wsp (offW m.val) 8 = threadRead s0 t c c.wsp (offW m.val) 8) ∧
    (∀ m : Reg, (threadRead (setPlain s0 t c n.val v) t c c.wsp offMarks 8).testBit m.val =
      (decide (m ≠ n) && (threadRead s0 t c c.wsp offMarks 8).testBit m.val)) := by
  have ho : ∀ r : Reg, inLine (offW r.val) 8 ∧ offW r.val + 8 ≤ offMarks := fun r => by
    have hk : offMarks = 0x208 := rfl
    rw [hk]
    unfold inLine offW
    omega
  have hm : inLine offMarks 8 := by decide
  let s1 := threadWrite s0 t c c.wsp (offW n.val) 8 v
  have w0 : s0.wk.slices = s.wk.slices := congrArg Work.slices hw
  have w1 : s1.wk.slices = s.wk.slices := (congrArg Work.slices (threadWrite_wk _ _ _ _ _ _ _)).trans w0
  have keep : ∀ {o k : Nat}, inLine o k → offW n.val + 8 ≤ o ∨ o + k ≤ offW n.val → threadRead s1 t c c.wsp o k = threadRead s0 t c c.wsp o k :=
    fun ha hd => threadRead_other w0 hs hs (fun h => absurd rfl h) v (by omega) (ho n).1.2.2 ha (.inr hd)
  have low : ∀ r : Reg, threadRead (setPlain s0 t c n.val v) t c c.wsp (offW r.val) 8 = threadRead s1 t c c.wsp (offW r.val) 8 := fun r => by
    unfold setPlain
    simp only
    split
    · exact threadRead_other w1 hs hs (fun h => absurd rfl h) _ (by omega) (by decide) (ho r).1 (.inr (.inr (ho r).2))
    · rfl
  refine ⟨(low n).trans (threadRead_same w0 v (ho n).1), fun m hmn => (low m).trans (keep (ho m).1 ?_), fun m => ?_⟩
  · have : m.val ≠ n.val := fun h => hmn (Fin.ext h)
    unfold offW
    omega
  · have hd : decide (m ≠ n) = decide (m.val ≠ n.val) := by
      by_cases h : m = n
      · subst h; simp
      · have : m.val ≠ n.val := fun e => h (Fin.ext e)
        simp [h, this]
    have e1 : threadRead s1 t c c.wsp offMarks 8 = threadRead s0 t c c.wsp offMarks 8 := keep hm (.inl (ho n).2)
    rw [hd, ← e1]
    by_cases hb : (threadRead s1 t c c.wsp offMarks 8).testBit n.val = true
    · have : setPlain s0 t c n.val v = threadWrite s1 t c c.wsp offMarks 8 (putBit (threadRead s1 t c c.wsp offMarks 8) n.val false) := by
        unfold setPlain
        exact if_pos hb
      rw [this, threadRead_same w1 _ hm, Nat.pow_mul 2 8 8 |>.symm, Nat.testBit_mod_two_pow, putBit_false_testBit _ _ _ hb]
      have : m.val < 8 * 8 := m.isLt
      simp [this]
    · have : setPlain s0 t c n.val v = s1 := by
        unfold setPlain
        exact if_neg hb
      rw [this]
      by_cases h : m.val = n.val
      · rw [h]; simpa using hb
      · simp [h]

end Sys2Proof.Machine
end

