-- ==== Sys2Proof/Laws/Frames.lean ====
section
/-!
SUPPORT. Sys2Proof/Laws/Frames.lean: what reading and writing registers, guards and windows does and leaves, and what a completed instruction
leaves of its thread.
-/
namespace Sys2Proof.Machine

/-! ### Reading registers -/

theorem Runs.rdWin {s : State} {t : ThreadId} {th : Thread} (hc : s.cur = .thread t) (ht : s.thread? t = some th) {off n : Nat}
    (hp : winPoisoned s t th.ctl.slice th.ctl.wsp off n = false) : Runs (rdWin off n) s (threadRead s t th.ctl th.ctl.wsp off n) s := by
  refine Runs.bind (Runs.me hc) (Runs.bind (Runs.ctl hc ht) (Runs.bind (Runs.get _) ?_))
  simp only [hp]
  exact Runs.pure _ _

theorem Runs.regBits {s : State} {t : ThreadId} {th : Thread} (hc : s.cur = .thread t) (ht : s.thread? t = some th) {n : Nat}
    (hs : regPending s t th.ctl.wsp n = false) (hp : winPoisoned s t th.ctl.slice th.ctl.wsp (offW n) 8 = false) :
    Runs (regBits n) s (BitVec.ofNat 64 (threadRead s t th.ctl th.ctl.wsp (offW n) 8)) s := by
  refine Runs.bind (Runs.me hc) (Runs.bind (Runs.ctl hc ht) (Runs.bind (Runs.get _) ?_))
  simp only [hs]
  exact Runs.bind (Runs.rdWin hc ht hp) (Runs.pure _ _)

theorem Runs.regMark {s : State} {t : ThreadId} {th : Thread} (hc : s.cur = .thread t) (ht : s.thread? t = some th) {n : Nat}
    (hp : winPoisoned s t th.ctl.slice th.ctl.wsp offMarks 8 = false) :
    Runs (regMark n) s ((threadRead s t th.ctl th.ctl.wsp offMarks 8).testBit n) s :=
  Runs.bind (Runs.rdWin hc ht hp) (Runs.pure _ _)

theorem RegHolds.chk {s : State} {t : ThreadId} {th : Thread} {n : Reg} {v : Word} (h : RegHolds s t th n.val v) : Runs (chkOpnd (.w n)) s () s := by
  refine Runs.bind (Runs.regMark h.actor h.live h.cleanMarks) ?_
  rw [h.plain]
  exact Runs.pure _ _

theorem RegHolds.read {s : State} {t : ThreadId} {th : Thread} {n : Reg} {v : Word} (h : RegHolds s t th n.val v) : Runs (rdReg n.val) s v s := by
  obtain rfl := h.value
  refine Runs.bind (Runs.regBits h.actor h.live h.settled h.clean) (Runs.bind (Runs.regMark h.actor h.live h.cleanMarks) ?_)
  rw [h.plain]
  exact Runs.pure _ _

/-! ### Bytes that are kept -/

theorem bytesKept.refl (l : List (Addr × Nat)) (s : State) : bytesKept l s s := fun _ _ => rfl

theorem bytesKept.trans {l : List (Addr × Nat)} {s s1 s2 : State} (h1 : bytesKept l s s1) (h2 : bytesKept l s1 s2) : bytesKept l s s2 :=
  fun a h => (h2 a h).trans (h1 a h)

theorem bytesKept.mono {l l' : List (Addr × Nat)} {s s1 : State} (h : bytesKept l s s1) (hs : ∀ r ∈ l, r ∈ l') : bytesKept l' s s1 :=
  fun a ha => h a fun r hr => ha r (hs r hr)

theorem bytesKept.of_st {l : List (Addr × Nat)} {s s1 : State} (h : s1.st = s.st) : bytesKept l s s1 := by
  intro a _
  simp only [State.rd, h]

theorem bytesKept_wr {l : List (Addr × Nat)} {s s1 : State} {a : Addr} {n v : Nat} (h : bytesKept l s s1) (hm : (a, n) ∈ l) :
    bytesKept l s (s1.wr a n v) := by
  intro x hx
  rw [← h x hx]
  have := hx _ hm
  simp only at this
  refine State.rd_wr_other _ ?_
  rcases Nat.lt_or_ge x a with h1 | h1
  · exact .inl h1
  · refine .inr (Nat.le_of_not_lt fun h2 => this ⟨h1, h2⟩)

theorem OnlyBytes.refl (l : List (Addr × Nat)) (s : State) : OnlyBytes l s s := ⟨UnitsKept.refl s, rfl, bytesKept.refl l s⟩

theorem OnlyBytes.trans {l : List (Addr × Nat)} {s s1 s2 : State} (h1 : OnlyBytes l s s1) (h2 : OnlyBytes l s1 s2) : OnlyBytes l s s2 :=
  ⟨h1.units.trans h2.units, h2.work.trans h1.work, h1.bytes.trans h2.bytes⟩
theorem OnlyBytes.mono {l l' : List (Addr × Nat)} {s s1 : State} (h : OnlyBytes l s s1) (hs : ∀ r ∈ l, r ∈ l') : OnlyBytes l' s s1 :=
  ⟨h.units, h.work, h.bytes.mono hs⟩

theorem linePieces_one {off n : Nat} (h : off % 64 + n ≤ 64) (hn : 0 < n) : linePieces off n = [(off, n)] := by
  unfold linePieces
  have : (off + n + 63) / 64 - off / 64 = 1 := by omega
  rw [this]
  simp only [List.range_one, List.map_cons, List.map_nil, List.cons.injEq, Prod.mk.injEq, and_true]
  omega

theorem winPieces_kept {s0 : State} {t : ThreadId} {sl : SliceId} {w : Word} {off v : Nat} (l : List (Nat × Nat)) (s : State) {L : List (Addr × Nat)}
    (h : ∀ p ∈ l, (winByte s0 t sl w p.1, p.2) ∈ L) : bytesKept L s (winPieces s0 t sl w off v l s) := by
  induction l generalizing s with
  | nil => exact bytesKept.refl _ _
  | cons p r ih =>
    have hr := ih (s.wr (winByte s0 t sl w p.1) p.2 (field v (8 * (p.1 - off)) (8 * p.2))) fun q hq => h q (List.mem_cons_of_mem _ hq)
    exact (bytesKept_wr (bytesKept.refl _ _) (h p List.mem_cons_self)).trans hr

theorem winWrite_bytes {s s1 : State} (hw : s1.wk = s.wk) (t : ThreadId) (c : Ctl) (off n v : Nat) (hn : 0 < n) :
    bytesKept (winRange s t c off n) s1 (threadWrite s1 t c c.wsp off n v) := by
  unfold threadWrite winWrite winRange
  split
  · next h =>
    rw [linePieces_one h hn, winByte_wk (congrArg Work.slices hw)]
    exact bytesKept_wr (bytesKept.refl _ _) (by simp)
  · rw [foldl_pieces s1 t _ _ off v _ s1 rfl]
    refine winPieces_kept _ _ fun p hp => ?_
    rw [winByte_wk (congrArg Work.slices hw)]
    exact List.mem_map_of_mem (f := fun p => (winByte s t c.slice c.wsp p.1, p.2)) hp

theorem threadWrite_only {s s1 : State} (hw : s1.wk = s.wk) (t : ThreadId) (c : Ctl) (off n v : Nat) (hn : 0 < n) :
    OnlyBytes (winRange s t c off n) s1 (threadWrite s1 t c c.wsp off n v) :=
  ⟨threadWrite_kept _ _ _ _ _ _ _, threadWrite_wk _ _ _ _ _ _ _, winWrite_bytes hw t c off n v hn⟩

theorem Runs.wrWin {s : State} {t : ThreadId} {th : Thread} (hc : s.cur = .thread t) (ht : s.thread? t = some th) (off n v : Nat) :
    Runs (wrWin off n v) s () (threadWrite s t th.ctl th.ctl.wsp off n v) :=
  Runs.bind (Runs.me hc) (Runs.bind (Runs.ctl hc ht) (Runs.modify _ _))

theorem Runs.setMark {s : State} {t : ThreadId} {th : Thread} (hc : s.cur = .thread t) (ht : s.thread? t = some th) (n : Nat) (b : Bool) :
    Runs (setMark n b) s () (if (threadRead s t th.ctl th.ctl.wsp offMarks 8).testBit n = b then s else
      threadWrite s t th.ctl th.ctl.wsp offMarks 8 (putBit (threadRead s t th.ctl th.ctl.wsp offMarks 8) n b)) :=
  Runs.bind (Runs.me hc) (Runs.bind (Runs.ctl hc ht) (Runs.modify _ _))

theorem OnlyBytes.acts {l : List (Addr × Nat)} {s s1 : State} {t : ThreadId} {th : Thread} (h : OnlyBytes l s s1) (hc : s.cur = .thread t)
    (ht : s.thread? t = some th) : s1.cur = .thread t ∧ s1.thread? t = some th :=
  ⟨h.units.cur.trans hc, by simpa only [State.thread?, State.slot?, h.work] using ht⟩

theorem wrReg_only {s : State} {t : ThreadId} {th : Thread} (hc : s.cur = .thread t) (ht : s.thread? t = some th) (n : Reg) (v : Word) :
    ∃ s', Runs (wrReg n v) s () s' ∧ OnlyBytes (winRange s t th.ctl (offW n.val) 8 ++ winRange s t th.ctl offMarks 8) s s' := by
  have o1 := threadWrite_only (s := s) rfl t th.ctl (offW n.val) 8 v.toNat (by omega)
  obtain ⟨c1, t1⟩ := o1.acts hc ht
  refine ⟨_, Runs.bind (Runs.wrWin hc ht _ _ _) (Runs.setMark c1 t1 _ _), ?_⟩
  refine (o1.mono fun r hr => List.mem_append_left _ hr).trans ?_
  split
  · exact OnlyBytes.refl _ _
  · exact (threadWrite_only (s := s) o1.work t th.ctl offMarks 8 _ (by omega)).mono fun r hr => List.mem_append_right _ hr

theorem setGuard_only {s : State} {t : ThreadId} {th : Thread} (hc : s.cur = .thread t) (ht : s.thread? t = some th)
    (hp : winPoisoned s t th.ctl.slice th.ctl.wsp offGuards 1 = false) (gd : BitVec 3) (b : Bool) :
    ∃ s', Runs (setGuard gd b) s () s' ∧ OnlyBytes (if gd = 0 then [] else winRange s t th.ctl offGuards 1) s s' := by
  by_cases hg : gd = 0
  · subst hg
    exact ⟨s, Runs.pure _ _, OnlyBytes.refl _ _⟩
  · have hn : gd.toNat ≠ 0 := fun h => hg (BitVec.eq_of_toNat_eq (by simpa using h))
    rw [if_neg hg]
    refine ⟨threadWrite s t th.ctl th.ctl.wsp offGuards 1 (putBit (threadRead s t th.ctl th.ctl.wsp offGuards 1) gd.toNat b), ?_,
      threadWrite_only (s := s) rfl t th.ctl offGuards 1 _ (by omega)⟩
    unfold setGuard wrGuard
    rw [if_neg hn]
    exact Runs.bind (Runs.rdWin hc ht hp) (Runs.wrWin hc ht _ _ _)

/-! ### A completed instruction -/

theorem countSkid_thread (s : State) (t : ThreadId) (th : Thread) (ht : s.thread? t = some th) :
    ∃ k, (countSkid s t).thread? t = some { th with skid := k } ∧ (countSkid s t).wk.slices = s.wk.slices ∧ (countSkid s t).st = s.st ∧
      (∀ u, u ≠ t → (countSkid s t).slot? u = s.slot? u) := by
  unfold countSkid
  split
  · refine ⟨if bitAt th.skid 2 = true ∧ wfield th.skid 0 2 < 3 then th.skid + 1 else th.skid, ?_, rfl, rfl, fun u hu => ?_⟩
    rotate_left
    · rw [State.modThread, State.modSlot_slot?, if_neg hu]
    · rw [State.modThread_thread?, if_pos rfl, ht]
      simp only [Option.map_some]
      split <;> rfl
  · exact ⟨th.skid, ht, rfl, rfl, fun _ _ => rfl⟩

theorem moved (s : State) (t : ThreadId) (th : Thread) (f : Thread → Thread) (ya : Bool) (ht : s.thread? t = some th)
    (hn : (f th).due.after = none) :
    (markIssue (takeAfter (s.modThread t f) t) t ya).st = s.st ∧ (markIssue (takeAfter (s.modThread t f) t) t ya).wk.slices = s.wk.slices ∧
    (∀ u, u ≠ t → (markIssue (takeAfter (s.modThread t f) t) t ya).slot? u = s.slot? u) ∧
    (markIssue (takeAfter (s.modThread t f) t) t ya).thread? t = some { f th with yielded := ya } := by
  have h1 : (s.modThread t f).thread? t = some (f th) := by
    rw [State.modThread_thread?, if_pos rfl, ht]; rfl
  have h2 : takeAfter (s.modThread t f) t = s.modThread t f := by
    unfold takeAfter
    rw [h1]
    simp only [Option.bind_some, hn]
  rw [h2]
  refine ⟨rfl, rfl, fun u hu => ?_, ?_⟩
  · rw [markIssue, State.modThread, State.modSlot_slot?, if_neg hu, State.modThread, State.modSlot_slot?, if_neg hu]
  · rw [markIssue, State.modThread_thread?, if_pos rfl, h1]; rfl

theorem noteTurn_thread {s : State} {t : ThreadId} {th : Thread} (ht : s.thread? t = some th) :
    ∃ x, (noteTurn s t).thread? t = some x ∧ x.ctl = th.ctl := by
  unfold noteTurn
  refine ⟨{ th with lastIssue := some s.ac, used := tput th.used th.ctl.wsp s.ac }, ?_, rfl⟩
  simp only [State.modThread_thread?, if_pos]
  split <;> exact congrArg (Option.map _) ht

/-- A charged turn leaves the thread's control state as it was. -/
theorem chargeTurn_thread {s : State} {t : ThreadId} {th : Thread} (ht : s.thread? t = some th) :
    ∃ x, (chargeTurn s t).thread? t = some x ∧ x.ctl = th.ctl := by
  obtain ⟨x, hx, hc⟩ := noteTurn_thread ht
  unfold chargeTurn
  simp only [ht]
  split
  · exact ⟨x, hx, hc⟩
  · refine ⟨{ x with charged := true, again := false }, ?_, hc⟩
    rw [State.modThread_thread?, if_pos rfl]
    exact congrArg (Option.map _) hx

/-- The slice of a thread whose turn is charged. -/
theorem chargeTurn_slice {s : State} {t : ThreadId} {th : Thread} {r : SliceRec} (ht : s.thread? t = some th)
    (hc : (th.charged && !th.again) = false) (hr : s.slice? th.ctl.slice = some r) : (chargeTurn s t).slice? th.ctl.slice =
      some { r with allot := tmod r.allot t.core (· - 1), stallReported := false } := by
  have e : (noteTurn s t).slice? th.ctl.slice = some r := by rw [← hr]; unfold noteTurn; split <;> rfl
  unfold chargeTurn
  simp only [ht, hc, Bool.false_eq_true, if_false]
  have k := State.modSlice_slice? (noteTurn s t) th.ctl.slice th.ctl.slice fun r =>
    { r with allot := tmod r.allot t.core (· - 1), stallReported := false }
  rw [if_pos rfl, e] at k
  simp only [State.slice?, State.modThread_wk_slices] at k ⊢
  exact k

theorem mod_toNat (v : Word) : v.toNat % 256 ^ 8 = v.toNat := Nat.mod_eq_of_lt v.isLt

theorem issue_off {h : Hdr} {t : ThreadId} {th : Thread} {s s0 : State} {body : Exec Flow} (hc : s.cur = .thread t) (ht : s.thread? t = some th)
    (h0 : s0 = chargeTurn s t) (hw : Runs (checkWait h) s0 () s0) (hg : Runs (guardTrue h) s0 false s0) : issue h body s = retired t h .seq s0 := by
  subst h0
  have hrun : Runs (do checkWait h; if ← guardTrue h then body else return .seq : Exec Flow) (chargeTurn s t) .seq (chargeTurn s t) :=
    Runs.bind hw (Runs.bind hg (Runs.pure _ _))
  simp only [issue, hc, ht]
  simp only [Runs] at hrun
  rw [hrun]
  rfl

theorem issue_held {h : Hdr} {w : Wait} {t : ThreadId} {th : Thread} {s : State} {body : Exec Flow} (hc : s.cur = .thread t) (ht : s.thread? t = some th)
    (hh : h.wait = some w) (ho : w.cnt.toNat < outstanding (chargeTurn s t) t (slotGen (chargeTurn s t) t) w.cls.toNat) : issue h body s = .next s := by
  have hcur := (chargeTurn_cur s t).trans hc
  have hcw : Fails (checkWait h) (chargeTurn s t) .hold (chargeTurn s t) := by
    unfold checkWait
    rw [hh]
    refine Fails.bind (Runs.me hcur) (Fails.bind (Runs.get _) ?_)
    rw [if_pos ho]
    exact Fails.throw _ _
  have hrun : Fails (do checkWait h; if ← guardTrue h then body else return .seq : Exec Flow) (chargeTurn s t) .hold (chargeTurn s t) :=
    Fails.first hcw
  simp only [issue, hc, ht]
  simp only [Fails] at hrun
  rw [hrun]
  rfl

theorem issueSeq_traps {h : Hdr} {t : ThreadId} {th : Thread} {s s0 s1 : State} {body : Exec Unit} {r : TrapRec}
    (hi : Issues h t th s s0) (hb : Fails body s0 (.trap r) s1) : issueSeq h body s = .next (takeTrap t r s0) := issueSeq_fails hi hb

/-- An instruction that changed only bytes, and has nothing due, completes at the next slot. -/
theorem completed_seq {l : List (Addr × Nat)} {t : ThreadId} {th : Thread} {h : Hdr} {s0 s2 : State} (ho : OnlyBytes l s0 s2)
    (ht : s0.thread? t = some th) (hd : NothingDue th) : ∃ s', retired t h .seq s2 = .next s' ∧ Completed t th h l s0 s' := by
  have ht2 : s2.thread? t = some th := by simpa only [State.thread?, State.slot?, ho.work] using ht
  obtain ⟨k, k1, k2, k3, k4⟩ := countSkid_thread s2 t th ht2
  have e : retire t h.eog .seq s2 = takeAfter ((countSkid s2 t).modThread t fun th =>
        { th.settled with ctl := { th.ctl with pc := slotAdd th.ctl.pc 1, first := false } }) t := by
    unfold retire
    simp only [ht2, hd.rep]
  obtain ⟨m1, m2, m3, m4⟩ := moved (countSkid s2 t) t _ (fun th =>
        { th.settled with ctl := { th.ctl with pc := slotAdd th.ctl.pc 1, first := false } }) h.ya k1 hd.after
  rw [← e] at m1 m2 m3 m4
  refine ⟨_, rfl, (ho.units.trans (retire_kept _ _ _ _)).trans (markIssue_kept _ _ _), ?_, fun u hu => ?_, ⟨k, m4⟩, ?_⟩
  · rw [m2, k2, ho.work]
  · rw [m3 u hu, k4 u hu]
    simp only [State.slot?, ho.work]
  · exact ho.bytes.trans (bytesKept.of_st (m1.trans k3))

end Sys2Proof.Machine
end

