-- ==== Sys2Proof/Laws/Issue.lean ====
section
/-!
SUPPORT. Sys2Proof/Laws/Issue.lean: how the shared ways of issuing an instruction run (class 3, speculative forms, class 12, the Carder), and what
stores, watches, traps and logs leave unchanged.
-/
namespace Sys2Proof.Machine

theorem Issues.guardHolds {h : Hdr} {t : ThreadId} {th : Thread} {s s0 : State} (hi : Issues h t th s s0) : guardHolds h s = true := by
  have hg := hi.guarded
  rw [hi.turn] at hg
  unfold Sys2Proof.Machine.guardHolds
  simp only [hi.actor]
  simp only [Runs] at hg
  rw [hg]

theorem issueCheck_on {h : Hdr} {body : Exec Flow} {s : State} : issueCheck none h body s = issue h body s := rfl

/-- Outside a REP body only a refused register number stops the issue. -/
theorem badNumbers_none {h : Hdr} {t : ThreadId} {th : Thread} {s s0 : State} {bad : TrapRec} {refused : Bool} (hi : Issues h t th s s0)
    (hr : th.ctl.rep = none → refused = false) : badNumbers bad refused s = none := by
  obtain ⟨th', ht⟩ := hi.present
  obtain ⟨x, hx, hc⟩ := chargeTurn_thread ht
  have hl := hi.live
  rw [hi.turn, hx] at hl
  obtain rfl := Option.some.inj hl
  unfold badNumbers
  simp only [hi.actor, ht]
  rw [hc] at hr
  cases e : th'.ctl.rep with
  | none => simp [hr e]
  | some y => simp

theorem floatOp_binary {i : Instr} {h : Hdr} {d : Reg} {srcs : List Opnd} {fmt : BitVec 2} {slow : Bool}
    {bin : Captured → Fmt → List Nat → FRes} {rat : Captured → List QV → FRes} {s s0 s1 s2 : State} {t : ThreadId} {th : Thread}
    {k : Captured} {l : List (Opnd × Word)}
    (hi : Issues h t th s s0) (hb : badFormat i fmt s = none) (hk : Runs capture s0 k s0) (hq : k.qmode = false)
    (hr : Runs (do waitOpnds h srcs []; rdAll h srcs) s0 l s1)
    (hw : Runs (if slow then enterDiv [(d.val, BitVec.ofNat 64 (bin k (fmtQ fmt) (l.map fun x => x.2.toNat % 2 ^ (fmtQ fmt).bits)).bits)] none
        (bin k (fmtQ fmt) (l.map fun x => x.2.toNat % 2 ^ (fmtQ fmt).bits)).flags
      else do
        wrReg d (BitVec.ofNat 64 (bin k (fmtQ fmt) (l.map fun x => x.2.toNat % 2 ^ (fmtQ fmt).bits)).bits)
        raiseFlags (bin k (fmtQ fmt) (l.map fun x => x.2.toNat % 2 ^ (fmtQ fmt).bits)).flags) s1 () s2) :
    floatOp i h d srcs fmt slow bin rat s = retired t h .seq s2 := by
  obtain ⟨_, a1, p1, p2⟩ := Runs.split hr
  unfold floatOp
  rw [hb, issueCheck_on]
  refine issue_runs hi (Runs.bind hk (Runs.bind p1 (Runs.bind p2 ?_)))
  simp only [hq, Bool.false_eq_true, if_false]
  cases slow
  · obtain ⟨_, a3, p3, p4⟩ := Runs.split hw
    exact Runs.bind p3 (Runs.bind p4 (Runs.pure _ _))
  · exact Runs.bind hw (Runs.pure _ _)

theorem floatOp_rational {i : Instr} {h : Hdr} {d : Reg} {srcs : List Opnd} {slow : Bool}
    {bin : Captured → Fmt → List Nat → FRes} {rat : Captured → List QV → FRes} {s s0 s1 s2 : State} {t : ThreadId} {th : Thread}
    {k : Captured} {l : List (Opnd × Word)}
    (hi : Issues h t th s s0) (hk : Runs capture s0 k s0) (hq : k.qmode = true) (hr : Runs (do waitOpnds h srcs []; rdAll h srcs) s0 l s1)
    (hg : Runs (do gcdReady [d.val] 0; checkKs l) s1 () s1)
    (hw : Runs (enterGcd [(d.val, BitVec.ofNat 64 (rat k (l.map fun x => slashValue x.2.toNat)).bits)] none
      ((rat k (l.map fun x => slashValue x.2.toNat)).flags ||| qrAll l)) s1 () s2) :
    floatOp i h d srcs 0 slow bin rat s = retired t h .seq s2 := by
  obtain ⟨_, a1, p1, p2⟩ := Runs.split hr
  obtain ⟨_, a2, p3, p4⟩ := Runs.split hg
  have hb : badFormat i 0 s = none := by
    unfold badFormat
    split
    · split <;> simp
    · rfl
  unfold floatOp
  rw [hb, issueCheck_on]
  refine issue_runs hi (Runs.bind hk (Runs.bind p1 (Runs.bind p2 ?_)))
  simp only [hq, if_true]
  exact Runs.bind (Runs.bind p3 (Runs.bind p4 hw)) (Runs.pure _ _)

theorem issueSpec_on {i : Instr} {h : Hdr} {spec : Bool} {body : Exec Flow} {s : State} {t : ThreadId} (hc : s.cur = .thread t)
    (hs : spec = true → bitAt (s.part (viewSlice s t).part).mode 4 = true) : issueSpec i h spec body s = issue h body s := by
  unfold issueSpec badSpec
  cases spec with
  | false => simp [issueCheck_on]
  | true => simp [hc, hs rfl, issueCheck_on]

theorem and_off {p : Bool} {n : Nat} (h : p = true → n = 0) : (p && decide (n ≠ 0)) = false := by
  cases p
  · rfl
  · simpa using h rfl

theorem Runs.chkEngAlign {a : Word} (s : State) (h : a.toNat % 16 = 0) : Runs (chkEngAlign a) s () s := by
  simp only [Machine.chkEngAlign, h, ne_eq, not_true_eq_false, if_false]
  exact Runs.pure _ _

theorem Runs.chkEngPlain {a : Word} {p : Bool} (s : State) (h : p = true → wfield a 52 12 = 0) : Runs (chkEngPlain a p) s () s := by
  simp only [Machine.chkEngPlain, and_off h, Bool.false_eq_true, if_false]
  exact Runs.pure _ _

theorem float_off {tag : Nat} {sat : Bool} (h : sat = false) : (sat && isFloatTag tag) = false := by subst h; rfl

theorem int_off {tag : Nat} {sat : Bool} (h : fmtOf tag = none) : (sat && isFloatTag tag) = false := by simp [isFloatTag, h]

theorem matCheck_on {h : Hdr} {t : ThreadId} {th : Thread} {s s0 : State} {body : Exec Unit} (hi : Issues h t th s s0) (hf : matFull s t = false) :
    matCheck none h body s = issueSeq h body s := by
  unfold matCheck
  rw [hi.actor]
  simp only [hf, Bool.false_and, Bool.false_eq_true, if_false, issueCheck_on]
  rfl

theorem matIssue_on {h : Hdr} {t : ThreadId} {th : Thread} {s s0 : State} {body : Exec Unit} (hi : Issues h t th s s0) (hf : matFull s t = false) :
    matIssue h body s = issueSeq h body s := matCheck_on hi hf

theorem Runs.join2 {α β : Type} {m : Exec α} {f : α → Exec β} {s s2 : State} {b : β} (h : Runs (m >>= f) s b s2) :
    ∃ a s1, Runs m s a s1 ∧ Runs (f a) s1 b s2 := Runs.split h

theorem exec_kvext (h : Hdr) (gd : BitVec 3) (d : Reg) (a n : Opnd) (s : State) : exec (.kvext h gd d a n) s =
    updateSeq h gd d a n true (fun _ r p free n => return if n > 0xFFFFFFFF then none else kvext p free r n) s := by
  simp only [exec, execKvext]

theorem exec_kvtrunc (h : Hdr) (gd : BitVec 3) (d : Reg) (a n : Opnd) (s : State) : exec (.kvtrunc h gd d a n) s =
    updateSeq h gd d a n false (fun v r p free n => do
      if n > r.ntok then return none
      if n = r.ntok then return some (r, free, 0)
      let x ← orStop (kvtrunc p free r n) (.trap (mkTrap 5 v.toNat 7))
      return some x) s := by
  simp only [exec, execKvtrunc]

theorem cdIssue_on {body : DieId → CdRun → State → CdNext × State} {s : State} {d : DieId} {p : Nat} {r : CdRun} (hc : s.cur = .carder d p)
    (hr : (s.pipe d p).run = some r) : cdIssue body s =
      .next (cdGo d p { r with used := r.used + 1 } (body d { r with used := r.used + 1 } s).1 (body d { r with used := r.used + 1 } s).2) := by
  simp [cdIssue, hc, hr]

theorem cdObj_on {kind : Nat} {obj : BitVec 8} {body : DieId → CdRun → Word → State → CdNext × State} {s : State} {d : DieId} {p : Nat}
    {r : CdRun} (hc : s.cur = .carder d p) (hr : (s.pipe d p).run = some r)
    (ho : bitAt (s.obj d obj.toNat).word 63 = true ∧ objPart (s.obj d obj.toNat).word = r.ev.part.num ∧
      objKind (s.obj d obj.toNat).word = kind ∧ objBase (s.obj d obj.toNat).word + objBytes (s.obj d obj.toNat).word ≤ 2 ^ 22) :
    cdObj kind obj body s =
      .next (cdGo d p { r with used := r.used + 1 } (body d { r with used := r.used + 1 } (s.obj d obj.toNat).word s).1
        (body d { r with used := r.used + 1 } (s.obj d obj.toNat).word s).2) := by
  unfold cdObj
  rw [cdIssue_on hc hr]
  simp only [ho, and_self, if_true]

theorem foldl_modThread_un (f : Thread → Thread) (l : List ThreadId) (s : State) :
    (l.foldl (fun s t => s.modThread t f) s).un = s.un := by
  induction l generalizing s with
  | nil => rfl
  | cons a r ih => exact ih _

theorem trapRecord_writes {t : ThreadId} {th : Thread} {r : TrapRec} {s : State} {c : Ctl} {a w : Word} (ht : s.thread? t = some th) (hc : th.ctl = c)
    (ha : c.wsp = a) : ∃ v1 v3 vp vb, writeTrapRecord s t c w r = threadWrite (threadWrite (threadWrite (threadWrite
      (threadWrite (threadWrite (threadWrite (threadWrite (threadWrite (threadWrite (threadWrite s t c a offAtags 2 v1) t c a offPcsave 8 c.pc.toNat)
        t c a offStatus 8 v3) t c a offTpc 8 c.pc.toNat) t c a offTcause 8 (causeWord r false)) t c a offTaddr 8 r.taddr.toNat)
        t c a offTinfo 8 r.tinfo.toNat) t c w offCaller 8 a.toNat) t c w offFrame 8 0)
        t c w offProv 8 vp) t c w offBook 8 vb ∧
      vp = threadRead (threadWrite (threadWrite (threadWrite (threadWrite (threadWrite (threadWrite (threadWrite (threadWrite (threadWrite
        s t c a offAtags 2 v1) t c a offPcsave 8 c.pc.toNat) t c a offStatus 8 v3) t c a offTpc 8 c.pc.toNat) t c a offTcause 8 (causeWord r false))
        t c a offTaddr 8 r.taddr.toNat) t c a offTinfo 8 r.tinfo.toNat) t c w offCaller 8 a.toNat) t c w offFrame 8 0) t c a offProv 8 ∧
      vb = (State.part (threadWrite (threadWrite (threadWrite (threadWrite (threadWrite (threadWrite (threadWrite (threadWrite (threadWrite (threadWrite
        s t c a offAtags 2 v1) t c a offPcsave 8 c.pc.toNat) t c a offStatus 8 v3) t c a offTpc 8 c.pc.toNat) t c a offTcause 8 (causeWord r false))
        t c a offTaddr 8 r.taddr.toNat) t c a offTinfo 8 r.tinfo.toNat) t c w offCaller 8 a.toNat) t c w offFrame 8 0) t c w offProv 8 vp)
        c.slice.part).ovdef.toNat := by
  subst hc ha
  have hs : saveControl s t = threadWrite (threadWrite (threadWrite s t th.ctl th.ctl.wsp offAtags 2 (tagsOf s t th.ctl)) t th.ctl th.ctl.wsp offPcsave 8
      th.ctl.pc.toNat) t th.ctl th.ctl.wsp offStatus 8 (statusWord th) := by
    unfold saveControl
    rw [ht]
  unfold writeTrapRecord
  rw [hs]
  exact ⟨_, _, _, _, rfl, rfl, rfl⟩

theorem State.slot?_of_thread {s : State} {t : ThreadId} {th : Thread} (h : s.thread? t = some th) : ∃ r, s.slot? t = some r := by
  unfold State.thread? at h
  cases hs : s.slot? t with
  | some r => exact ⟨r, rfl⟩
  | none => rw [hs] at h; cases h

theorem Runs.mySlot {s : State} {t : ThreadId} {r : SlotRec} (hc : s.cur = .thread t) (hr : s.slot? t = some r) : Runs mySlot s r s := by
  refine Runs.bind (Runs.get _) (Runs.bind (Runs.me hc) ?_)
  rw [hr]
  exact Runs.pure _ _

theorem Runs.forM {α : Type} {f : α → Exec Unit} {s : State} (l : List α) (h : ∀ x ∈ l, Runs (f x) s () s) : Runs (l.forM f) s () s := by
  induction l with
  | nil => exact Runs.pure _ _
  | cons x r ih => exact Runs.bind (h x List.mem_cons_self) (ih fun y hy => h y (List.mem_cons_of_mem _ hy))

/-- Plain registers keep nothing waiting: their handles pass, they are no ports, and no future stands behind them. -/
theorem waitOpnds_regs {h : Hdr} {t : ThreadId} {th : Thread} {s : State} (hc : s.cur = .thread t) (ht : s.thread? t = some th) (l : List Opnd)
    (hl : ∀ o ∈ l, ∃ (n : Reg) (v : Word), o = .w n ∧ RegHolds s t th n.val v) : Runs (waitOpnds h l []) s () s := by
  obtain ⟨r, hr⟩ := State.slot?_of_thread ht
  refine Runs.bind (Runs.forM _ fun o ho => ?_) (Runs.bind (Runs.pure _ _) (Runs.bind (Runs.forM _ fun o ho => ?_) (Runs.bind (Runs.pure _ _)
    (Runs.forM _ fun o ho => ?_)))) <;> obtain ⟨n, v, rfl, hn⟩ := hl o ho
  · exact hn.chk
  · exact Runs.bind (Runs.bind (Runs.mySlot hc hr) (Runs.pure _ _)) (Runs.pure _ _)
  · refine Runs.bind (Runs.regMark hn.actor hn.live hn.cleanMarks) ?_
    rw [hn.plain]
    exact Runs.pure _ _

theorem rd1_reg {h : Hdr} {t : ThreadId} {th : Thread} {s : State} {a : Reg} {x : Word} (ha : RegHolds s t th a.val x) : Runs (rd1 h (.w a)) s x s :=
  Runs.bind (waitOpnds_regs ha.actor ha.live _ (fun o ho => ⟨a, x, List.mem_singleton.1 ho, ha⟩)) ha.read

theorem rd2_regs {h : Hdr} {t : ThreadId} {th : Thread} {s : State} {a b : Reg} {x y : Word} (ha : RegHolds s t th a.val x) (hb : RegHolds s t th b.val y) :
    Runs (rd2 h (.w a) (.op (.w b))) s (x, y) s := by
  refine Runs.bind (waitOpnds_regs ha.actor ha.live _ fun o ho => ?_) (Runs.bind ha.read (Runs.bind hb.read (Runs.pure _ _)))
  rcases List.mem_cons.1 ho with rfl | ho
  · exact ⟨a, x, rfl, ha⟩
  · obtain rfl := List.mem_singleton.1 ho
    exact ⟨b, y, rfl, hb⟩

/-- A first touch changes at most the four bytes of its region's entry, and no core, thread or slice. -/
theorem touchPlain_st (s : State) (c : CoreId) (pa : Nat) :
    (touchPlain s c pa).wk = s.wk ∧ (touchPlain s c pa).un.cores = s.un.cores ∧ (touchPlain s c pa).st.poison = s.st.poison ∧
    bytesKept [(regionPlace s (.plain c.pkg (pa / 2 ^ 16)), 4)] s (touchPlain s c pa) := by
  have hput : ∀ (s' : State) (a : Addr) (v : Nat), s'.st = s.st → bytesKept [(a, 4)] s (s'.put a 4 v) := by
    intro s' a v h
    refine (bytesKept.of_st h).trans fun x hx => ?_
    have := hx _ (List.mem_singleton.2 rfl)
    simp only at this
    refine State.rd_put_other s' ?_
    rcases Nat.lt_or_ge x a with h1 | h1
    · exact .inl h1
    · exact .inr (Nat.le_of_not_lt fun h2 => this ⟨h1, h2⟩)
  unfold touchPlain
  split
  · unfold homeOf
    split
    · exact ⟨rfl, rfl, rfl, bytesKept.refl _ _⟩
    · simp only
      split <;> split
      · exact ⟨rfl, rfl, rfl, bytesKept.refl _ _⟩
      · exact ⟨rfl, rfl, rfl, hput s _ _ rfl⟩
      · exact ⟨rfl, rfl, rfl, bytesKept.of_st rfl⟩
      · exact ⟨rfl, rfl, rfl, hput (s.modQuad _ _) _ _ rfl⟩
  · exact ⟨rfl, rfl, rfl, bytesKept.refl _ _⟩

theorem fireWatches_st (s : State) (a n : Nat) :
    (fireWatches s a n).st = s.st ∧ (fireWatches s a n).un = s.un ∧ (fireWatches s a n).wk.slices = s.wk.slices := by
  unfold fireWatches
  split <;> exact ⟨rfl, rfl, rfl⟩

theorem foldl_quads (l : List QuadId) : ∀ (s : State) (f : QuadRec → QuadRec),
    (l.foldl (fun s q => s.modQuad q f) s).st = s.st ∧ (l.foldl (fun s q => s.modQuad q f) s).wk = s.wk ∧
    (l.foldl (fun s q => s.modQuad q f) s).un.cores = s.un.cores := by
  induction l with
  | nil => exact fun _ _ => ⟨rfl, rfl, rfl⟩
  | cons q l ih => exact fun s f => ih (s.modQuad q f) f

/-- An entry of the machine-check log changes at most its own 32 bytes, and no core, thread or slice. -/
theorem mcLog_st (s : State) (d : DieId) (m : McInfo) :
    (mcLog s d m).wk = s.wk ∧ (mcLog s d m).un.cores = s.un.cores ∧ (mcLog s d m).st.poison = s.st.poison ∧
    bytesKept [(mcPlace s d (s.die d).mcHead, 32)] s (mcLog s d m) := by
  unfold mcLog
  simp only
  split
  · exact ⟨rfl, rfl, rfl, bytesKept.refl _ _⟩
  · refine ⟨?_, ?_, ?_, ?_⟩
    · exact (foldl_quads _ _ _).2.1
    · exact (foldl_quads _ _ _).2.2
    · rw [(foldl_quads _ _ _).1]
      rfl
    · intro a ha
      have := ha _ (List.mem_singleton.2 rfl)
      simp only [State.rd, (foldl_quads _ _ _).1]
      refine State.rd_put_other s ?_
      rcases Nat.lt_or_ge a (mcPlace s d (s.die d).mcHead) with h1 | h1
      · exact .inl h1
      · exact .inr (Nat.le_of_not_lt fun h2 => this ⟨h1, h2⟩)

theorem clearTags_st (s : State) (a n : Nat) :
    (clearTags a n s).st = s.st ∧ (clearTags a n s).wk = s.wk ∧ (clearTags a n s).un = s.un := by
  unfold clearTags
  split <;> exact ⟨rfl, rfl, rfl⟩

/-- A store that leaves no poison changes its own bytes alone, and no core and no slice. -/
theorem storeAt_st {s : State} {c : CoreId} {p : PartId} {pc : Word} {a n v : Nat} (hp : (s.wr a n v).poisoned a n = false) :
    (storeAt s c p pc a n v).st = (s.wr a n v).st ∧ (storeAt s c p pc a n v).wk.slices = s.wk.slices ∧
    (storeAt s c p pc a n v).un = s.un := by
  obtain ⟨f1, f2, f3⟩ := fireWatches_st (s.wr a n v) a n
  obtain ⟨g1, g2, g3⟩ := clearTags_st (fireWatches (s.wr a n v) a n) a n
  have h : (clearTags a n (fireWatches (s.wr a n v) a n)).poisoned a n = false := by
    rw [← hp]
    simp only [State.poisoned, State.poisonAt, g1, f1]
  unfold storeAt
  simp only [h, Bool.false_eq_true, if_false]
  exact ⟨g1.trans f1, by rw [g2, f3]; rfl, by rw [g3, f2]; rfl⟩

/-- Staging that moves every piece at once. -/
theorem startStage_runs {h : Hdr} {t : ThreadId} {goal : StageGoal} {l : List StagePiece} {g : Stage} {s s1 s2 : State} (hc : s.cur = .thread t)
    (hb : goal.isMatrix = true → stagingBefore s t.core none = false)
    (hp : Runs (runPieces l ⟨goal, 0, 0, l, h.hint.toNat, h.eog, h.ya⟩) s g s1) (hf : Runs (finishStage g) s1 () s2) :
    Runs (startStage h goal l) s () s2 := by
  have e : (goal.isMatrix && stagingBefore s t.core none) = false := by
    cases hg : goal.isMatrix with
    | false => rfl
    | true => simp [hb hg]
  unfold startStage
  refine Runs.bind (Runs.get _) (Runs.bind (Runs.myCore hc) ?_)
  simp only [e, Bool.false_eq_true, if_false]
  exact Runs.bind hp hf

/-- The lanes of a VGATH that have been read go to their register. -/
theorem finishGather_runs {v fmt old : Nat} {mk : Option Nat} {g : Stage} {s s1 : State} (hg : g.goal = .gather v fmt mk)
    (ho : Runs (vBits v) s old s) (hw : Runs (wrV v (mergeLanes (laneW fmt) mk old g.a) fmt) s () s1) : Runs (finishStage g) s () s1 := by
  unfold finishStage
  rw [hg]
  exact Runs.bind ho hw

theorem finishScatter_runs {data : Nat} {g : Stage} {s : State} (hg : g.goal = .scatter data) : Runs (finishStage g) s () s := by
  unfold finishStage
  rw [hg]
  exact Runs.pure _ _

/-- The staged operands of a matrix operation: its slots are consumed, a load notes its accumulator's tag, a codebook is written, and the
operation enters the queue. -/
theorem finishMatrix_runs {op : MatKind} {cbs : List Nat} {book : Option Bool} {g : Stage} {s s1 : State}
    (hg : g.goal = .matrix op none cbs book)
    (hr : Runs (do
      takeSlots cbs
      match op with
      | .load acc _ tag => noteTag acc tag
      | _ => pure ()
      match book with
      | some side => wrWin (if side then offMcbB else offMcbA) 32 g.a
      | none => pure ()
      enqueueMat (op.withData g.a g.b)) s () s1) : Runs (finishStage g) s () s1 := by
  unfold finishStage
  rw [hg]
  exact hr

end Sys2Proof.Machine
end

