-- ==== Sys2Proof/Machine/Registers.lean ====
section
/-!
DEFINITION. Sys2Proof/Machine/Registers.lean: what firmware and the management core read from the registers of the control pages, the
command processors, the debug modules, the Carder and the machine-check log. A res0 field reads zero (R6), a WO field too (R5).
-/
namespace Sys2Proof.Machine

def word (l : List (Nat × Nat)) : Word := BitVec.ofNat 64 (pack l)

/-- DCTL (R61): HEADPASS, the pass count of the head slice and zero with none, HELD and AGELIMIT. -/
def readDctl (s : State) (p : PartId) : Word :=
  let r := s.part p
  word [(8, r.ageLimit), (24, 0), (11, heldSlices s p), (5, 0), (16, match candidates s p with | [] => 0 | (_, h) :: _ => h.pass)]

/-- A read of a partition's control page; any other offset reads zero (R295). -/
def readPage (s : State) (p : PartId) (off : Nat) : Word :=
  let r := s.part p
  if off = 0 then r.mode
  else if off = 0x8 then readDctl s p
  else if off = 0x10 then r.ovdef
  else if off = 0x18 then r.vquota
  else if off = 0x20 then r.nregion
  else if off = 0x28 then r.ptroot
  else if off = 0x30 then r.tlbInv
  else if 0x40 ≤ off ∧ off ≤ 0x58 ∧ off % 8 = 0 then tget r.arenas ((off - 0x40) / 8) 0
  else if 0x80 ≤ off ∧ off ≤ 0xB8 ∧ off % 8 = 0 then tget r.wpools ((off - 0x80) / 8) 0
  else if off = 0xC0 then r.pxctl
  else if off = 0xC8 then word [(1, bit r.resetBusy)]
  else if off = 0xD0 then r.nrmbase
  else if off = 0xD8 then r.regrel
  else if off = 0xE0 then r.roothome
  else 0

/-- GOWNg (R429): a reserved granule has none, and its number reads zero. -/
def readGown (s : State) (pkg g : Nat) : Word := if g < 512 ∧ g % 64 ≠ 63 then tget (s.pkg pkg).gown g 0 else 0

/-- DMCTL and DMSTAT (R285), and DMDBG (R328). -/
def readDmctl (s : State) (c : ClusterId) : Word :=
  let r := (s.cluster c).dm
  word [(9, 0), (3, r.selCore), (4, r.selSlot)]

def readDmstat (s : State) (c : ClusterId) : Word :=
  let r := (s.cluster c).dm
  word [(1, bit r.stopped), (1, bit r.trigIgn), (3, 0), (3, r.stepRes), (40, 0), (16, r.stopSeq)]

def readDmdbg (s : State) (c : ClusterId) : Word := (s.cluster c).dm.dbg

/-- An entry of the in-flight table (R291). -/
def inflightEntry (s : State) (t : ThreadId) (gen kind remain : Nat) (handle : Word) : BitVec 128 :=
  BitVec.ofNat 128 (pack [(8, gen), (8, t.core.core), (4, slotNo s t), (4, kind), (8, 0), (32, remain), (64, handle.toNat)])

/-- The in-flight table of a cluster (R291): its copies, copy-reductions, subscriptions, NREDs, PLANs and unacknowledged NSTs. -/
def readInflight (s : State) (c : ClusterId) : List (BitVec 128) :=
  let mine := fun (t : ThreadId) => decide (t.core.cluster = c)
  ((s.cluster c).copies.map fun x => inflightEntry s x.t x.gen 1 (x.len - x.done) x.fut.handle) ++
  ((s.nt.contribs.filter fun x => mine x.t).map fun x => inflightEntry s x.t x.gen 2 x.len x.fut.handle) ++
  ((s.tl.subs.filter fun x => mine x.t).map fun x => inflightEntry s x.t x.gen 3 0 x.fut.handle) ++
  (s.tl.vnet ++ s.tl.retries).filterMap (fun m =>
    match m.kind with
    | .nred _ _ _ _ _ _ _ f => if mine m.t then some (inflightEntry s m.t m.gen 4 0 f.handle) else none
    | _ => none) ++
  ((s.nt.plans.filter fun x => mine x.t).map fun x => inflightEntry s x.t x.gen 5 0 x.fut.handle) ++
  s.wk.slots.flatMap fun (t, r) =>
    if mine t then
      match r.thread with
      | some th => th.nsts.map fun n => inflightEntry s t r.gen 6 0 n.ref
      | none => []
    else []

/-- MCHEAD and MCTAIL (R304). -/
def readMchead (s : State) (d : DieId) : Word := BitVec.ofNat 64 (s.die d).mcHead
def readMctail (s : State) (d : DieId) : Word := BitVec.ofNat 64 (s.die d).mcTail

/-- A filter slot's descriptor (R277) and an object entry (R280). -/
def readFilter (s : State) (d : DieId) (n : Nat) : Word :=
  let r := s.fslot d n
  word [(32, r.faults), (10, 0), (6, r.lenM1), (4, r.cls), (6, r.part), (5, 0), (1, bit r.v)]

def readObject (s : State) (d : DieId) (n : Nat) : Word := (s.obj d n).word

/-- The units of a die that a quadrant's command processor serves, one bit each: those of its quadrant that a partition owns (R300). -/
def servedUnits (s : State) (q : QuadId) : Nat :=
  pack ((List.range 12).map fun k => (1, bit (decide (k / 3 = q.quad ∧ unitOwner s q.pkg (12 * q.die + k) ≠ 0xFF))))

/-- A read of a command processor's register by its number (R300); an unassigned custom number raises the illegal-instruction exception
of the privileged architecture. The standard numbers are those of that architecture. -/
def readCp (s : State) (q : QuadId) (n : Nat) : Option Word :=
  let r := s.quad q
  if n = 0x301 then some 0x8000000000141105
  else if n = 0xF14 then some (BitVec.ofNat 64 (4 * q.die + q.quad))
  else if n = 0xF11 ∨ n = 0xF12 then some 0
  else if n = 0xF13 then some 0x4810
  else if n = 0x180 then some r.satp
  else if n = 0x7C0 then some (BitVec.ofNat 64 r.ringHead)
  else if n = 0x7C1 then some (BitVec.ofNat 64 (servedUnits s q))
  else if n = 0x7C2 ∨ n = 0x7C4 ∨ n = 0x7C5 then some 0
  else if n = 0x7C3 then some (BitVec.ofNat 64 r.subSt)
  else if n = 0x7C6 then some (BitVec.ofNat 64 r.swapSt)
  else if n = 0x5C0 then some (BitVec.ofNat 64 r.ring.length)
  else if n = 0x5C1 then some (BitVec.ofNat 64 r.sqsel)
  else if cpStandard n then some (tget r.cp.csrs n 0)
  else none

/-- A read by a command processor of a register that its mode may not read, or that is not there, is illegal (R300). -/
def readCpStep (q : QuadId) (n : Nat) (s : State) : State := if (readCp s q n).isSome then cpWrite q (n / 2 ^ 8 % 4) id s else cpIllegal q s

/-- The queue window of a command processor (R300): SQSEL selects queue n of virtual function vf as 8·vf + n, and the window shows its
unread records, oldest first. -/
def readQueueWindow (s : State) (q : QuadId) : List (BitVec 512) :=
  let r := hostQueue s q.pkg ((s.quad q).sqsel / 8) ((s.quad q).sqsel % 8)
  (List.range ((r.tail + 2 ^ 32 - r.head) % 2 ^ 32)).map fun i =>
    BitVec.ofNat 512 (s.rd (addrHbm q.pkg (wfield r.ctl 16 48 * 2 ^ 16 + 64 * ((r.head + i) % 2 ^ r.log2n))) 64)

/-- The event window: the unread event records (R296, R300). -/
def readEventWindow (s : State) (q : QuadId) : List (BitVec 256) := (s.quad q).ring

end Sys2Proof.Machine
end

