-- ==== Sys2Proof/Tests/Slice0.lean ====
section
/-!
SUPPORT. Sys2Proof/Tests/Slice0.lean: ill-formed terms that the checks refuse, words written out bit by bit, and for every statement with hypotheses a
state and operands that meet them, clause by clause.
-/
namespace Sys2Proof.Tests
set_option Elab.async false
open Sys2Proof Sys2Proof.Machine

/-! ### States for the tests -/

/-- The thread, core, slice and header of the tests. -/
abbrev T : ThreadId := loadThread
abbrev P : PartId := loadPart
abbrev H : Hdr := Hdr.plain

def die0 : DieId := ⟨0, 0⟩
def quad0 : QuadId := ⟨0, 0, 0⟩

/-- A thread at its first slot, outside any turn's agenda, with its core and the next one in the core's place table, and the page of the PC in the
partition's tables, read, written and executed, in a granule that the partition owns. -/
def base : State :=
  let s := { placeCore State.reset 0x80 with agenda := [], cur := .thread T }
  let s := (((s.put 0x20000 8 0x28001).put 0x28000 8 0x30001).put 0x30008 8 0x1003B)
  let s := s.modCore loadCore fun r => { r with place := [(0, 0x8000), (1, 0x8001)] }
  (s.modPart P fun r => { r with ptroot := 0x20000 }).modPkg 0 fun r => { r with gown := [(0, 2 ^ 63)] }

def thd (s : State) : Thread := (s.thread? T).getD (Thread.start (Ctl.start loadSlice 0 0 false))

/-- A general register set to a value, or bytes of the window. -/
def win (off n v : Nat) (s : State) : State := threadWrite s T (thd s).ctl (thd s).ctl.wsp off n v
def w (n v : Nat) (s : State) : State := win (offW n) 8 v s

/-- The record of the thread whose turn it is. -/
def now (t : ThreadId) (s : State) : Bool := decide (s.cur = .thread t) && (s.thread? t).isSome

def mapThr (f : Thread → Thread) (s : State) : State := s.modThread T f
def mapCtl (f : Ctl → Ctl) (s : State) : State := mapThr (fun th => { th with ctl := f th.ctl }) s

/-- Bytes of the core's scratchpad, at an offset of the data range. -/
def sp (off n v : Nat) (s : State) : State := s.put (addrSpad loadCore off) n v

/-- Masks: none, and register 1. -/
def m0 : VMask := { on := false, reg := 0 }
def m1 : VMask := { on := true, reg := 1 }

/-- m completes from s, and k holds of what it gives and leaves. -/
def okThen {α : Type} (m : Exec α) (s : State) (k : α → State → Bool) : Bool :=
  match m.run s with
  | .ok a s' => k a s'
  | .error _ _ => false

/-- m completes from s and leaves it as it is. -/
def okSame {α : Type} (m : Exec α) (s : State) (k : α → Bool) : Bool := okThen m s fun a s' => k a && decide (s' = s)

abbrev same (m : Exec Unit) (s : State) : Bool := okSame m s fun _ => true

theorem okThen_runs {α : Type} {m : Exec α} {s : State} {k : α → State → Bool} (h : okThen m s k = true) : ∃ a s', Runs m s a s' ∧ k a s' = true := by
  unfold okThen at h
  split at h
  · rename_i a s' e
    exact ⟨a, s', e, h⟩
  · cases h

/-- The thread issues an instruction with header h from s: k holds of its record and of the state with the turn charged. -/
def issues (h : Hdr) (s : State) (k : Thread → State → Bool) : Bool :=
  decide (s.cur = .thread T) && okSame (checkWait h) (chargeTurn s T) (fun _ => true) && okSame (guardTrue h) (chargeTurn s T) id &&
    (match (chargeTurn s T).thread? T with
     | some th => k th (chargeTurn s T)
     | none => false)

theorem issues_sound {h : Hdr} {s : State} {k : Thread → State → Bool} (hi : issues h s k = true) :
    ∃ th, Issues h T th s (chargeTurn s T) ∧ k th (chargeTurn s T) = true := by
  simp only [issues, okSame, Bool.and_eq_true, decide_eq_true_eq] at hi
  obtain ⟨⟨⟨h1, h2⟩, h3⟩, h4⟩ := hi
  obtain ⟨_, s2, r2, e2⟩ := okThen_runs h2
  obtain ⟨b, s3, r3, e3⟩ := okThen_runs h3
  simp only [Bool.and_eq_true, decide_eq_true_eq, Bool.true_and, id] at e2 e3
  obtain rfl := e2
  obtain ⟨rfl, rfl⟩ := e3
  split at h4
  · rename_i th e
    exact ⟨th, ⟨h1, rfl, e, r2, r3⟩, h4⟩
  · cases h4

/-- m completes from s, whatever it leaves. -/
def runs {α : Type} (m : Exec α) (s : State) : Bool := okThen m s fun _ _ => true


/-! ### Class 0 and control flow -/

theorem test_IntegerInstructionsComplete : issues H (w 4 7 (w 5 9 base)) (fun _ s0 =>
    okThen (rd2 H (.w 4) (.op (.w 5)) [.w 3]) s0 (fun p s1 => decide (p = (7, 9)) &&
      runs (wrOpnd (.w 3) (addW 0 false false p.1 p.2)) s1 && runs (wrReg 3 (extW false p.1 p.2)) s1) &&
    okThen (rd1 H (.w 4) [.w 3]) s0 (fun x s1 => runs (wrOpnd (.w 3) (clzW 0 x)) s1) &&
    okThen (rd2 H (.w 4) (.imm16 0x8000)) s0 (fun p s1 => runs (setGuard 7 (cmpHolds 2 true 64 p.1 p.2)) s1) &&
    okThen (rdGuard 0) s0 (fun g s1 => okThen (rd2 H (.w 4) (.op .zero) [.w 63]) s1 fun p s2 => runs (wrOpnd (.w 63) (if g then p.1 else p.2)) s2) &&
    okThen (do checkHandle 5; rd2 H (.w 4) (.imm16 0)) s0 (fun p s1 => okThen (rdReg 5) s1 fun z s2 => runs (wrReg 5 (insW z p.1 p.2)) s2) &&
    runs (wrReg 0 (BitVec.signExtend 64 (0x800000000000 : BitVec 48))) s0 &&
    okThen (do checkHandle 5; rdReg 5) s0 (fun x s1 => runs (wrReg 5 (x &&& 0x0000FFFFFFFFFFFF ||| 0x7000000000000)) s1)) = true := by decide +kernel

theorem test_DivisionAndMovComplete : issues H (w 4 7 (w 5 9 base)) (fun _ s0 =>
    okThen (rd2 H (.w 4) (.op (.w 5))) s0 (fun _ s1 => decide (s1.cur = .thread T) && decide ((s1.core T.core).div.length < 2) &&
      !unitBusyFor s1 T (thd s1).ctl.wsp [3] 1) &&
    okThen (rd1 H (.w 4) [.w 3]) s0 (fun x s1 => runs (wrOpnd (.w 3) x) s1) &&
    okSame (renV 1) s0 (fun k => okSame (vTag k) s0 fun tag => okSame (vBits k) s0 fun bits => okSame (renV 2) s0 fun j => runs (wrV j bits tag) s0) &&
    okSame (renV 31) s0 (fun j => runs (wrV j (2 ^ 2048 - 1) 0) s0 && runs (wrV j 0 0) s0) &&
    okSame (mBits 7) s0 (fun bits => runs (wrM 0 bits) s0 && runs (wrM 0 (2 ^ 256 - 1)) s0 && runs (wrM 0 0) s0) &&
    okSame (accOf 3) s0 (fun i1 => okSame (accOf 0) s0 fun i2 => !matFull s0 T && okSame (accTag i2 false) s0 fun tag =>
      runs (do noteTag i1 tag; enqueueMat (.copy i1 i2)) s0)) =
  true := by decide +kernel

/-- The second slot of the line at the PC ends a REP's body. -/
def withBody : State := base.put (addrHbm 0 0x10000) 64
  (0x80 + (2 ^ 23 + 0x80) * 2 ^ 96 + (1 + 2 ^ 2 + (bit (parity96 0x80) + 2 * bit (parity96 (BitVec.ofNat 96 (2 ^ 23 + 0x80)))) * 2 ^ 16) * 2 ^ 480)

/-- The lines of the window below the base window are resident too. -/
def withBelow : State := mapThr (fun th =>
  { th with lines := th.lines ++ (List.range 64).map fun k => (winLine (windowBelow th.ctl.wsp 0x1000) + k, LineSt.dirty) }) base

theorem test_BranchesComplete : issues H (w 4 0x10000 (w 5 3 withBody)) (fun th s0 =>
    decide (th.ctl.rep = none) && (targetCheck s0 th.ctl.slice.part (slotAdd th.ctl.pc 0)).isOk &&
    !(targetCheck s0 th.ctl.slice.part (slotAdd th.ctl.pc 1)).isOk &&
    okThen (rd1 H (.w 4)) s0 (fun x s1 => decide (s1.cur = .thread T) && (targetCheck s1 (thd s1).ctl.slice.part x).isOk) &&
    okThen (callTarget H (.reg 4)) s0 (fun pc s1 => decide (s1.cur = .thread T) && (targetCheck s1 (thd s1).ctl.slice.part pc).isOk &&
      runs (wrReg 63 (slotAdd (thd s1).ctl.pc 1)) s1) &&
    okSame (orTrap (bodyLen s0 th.ctl.slice.part (slotAdd th.ctl.pc 1) 16 0)) s0 (fun n => decide (n = some 1)) &&
    okThen (rd1 H (.w 5)) s0 (fun x s1 => decide (x ≠ 0) && decide (s1.cur = .thread T)) && okThen (rd1 H (.w 6)) s0 (fun x _ => decide (x = 0))) =
  true := by decide +kernel

theorem test_FramesComplete : issues H (w 4 0x10000 withBelow) (fun _ s0 =>
    okThen (callTarget H (.reg 4)) s0 (fun pc s1 => (targetCheck s1 (thd s1).ctl.slice.part pc).isOk && same (waitClass 3) s1 &&
      same (checkWindow (windowBelow (thd s1).ctl.wsp 0x1000)) s1 &&
      same (needLines (windowBelow (thd s1).ctl.wsp 0x1000)) s1 &&
      okThen (enterWindow (windowBelow (thd s1).ctl.wsp 0x1000) 0x1000) s1 fun _ s2 => decide (s2.cur = .thread T) &&
        runs (wrReg 63 (slotAdd (thd s1).ctl.pc 1))
          (s2.modThread T fun u => { u with ctl := { u.ctl with wsp := windowBelow (thd s1).ctl.wsp 0x1000 } }))) = true := by decide +kernel

/-- The thread is in the callee of a CALL.f, whose caller is the base window. -/
def inCallee : State :=
  win offFrame 8 0x1000 (win offCaller 8 (thd base).ctl.wsp.toNat (mapCtl (fun c => { c with wsp := windowBelow c.wsp 0x1000 }) withBelow))

theorem test_RetFrameCompletes : issues H inCallee (fun th s0 => decide (th.ctl.rep = none) &&
    okThen (rd1 H (.w 63)) s0 (fun _ s1 => okSame (rdWin offFrame 2) s1 (fun fr => decide (fr ≠ 0)) && same (waitClass 3) s1 &&
      okSame (rdWin offCaller 8) s1 (fun w =>
        let w := BitVec.ofNat 64 w
        same (checkWindow w) s1 && same (needLines w) s1 && decide (s1.cur = .thread T) &&
        okThen (do putAt w offAtags 2 (tagsOf s1 T (thd s1).ctl); copyTo w offGuards 6; copyTo w offProv 8; copyBook w) s1 fun _ s2 =>
          okThen (putAt w offStatus 8 (putBit (threadRead s2 T (thd s1).ctl w offStatus 8) 0 (thd s1).ctl.abmask)) s2 fun _ s3 =>
            decide (s3.cur = .thread T)))) = true := by decide +kernel

/-- The thread is in a handler whose workspace lies in the data range and whose interrupted window is the base window. -/
def inHandler : State :=
  win offCaller 8 (thd base).ctl.wsp.toNat (mapCtl (fun c => { c with wsp := space0 loadCore 0x4000, hwsp := space0 loadCore 0x4000, intrap := true }) base)

theorem test_ReturnsComplete : issues H inHandler (fun th s0 => decide (th.ctl.rep = none) && th.ctl.intrap &&
    (let w := BitVec.ofNat 64 (threadRead s0 T th.ctl th.ctl.hwsp offCaller 8)
     same (checkWindow w) s0 && same (needLines w) s0 &&
     okThen (do putAt w offProv 8 (threadRead s0 T th.ctl th.ctl.hwsp offProv 8); installExtension w) s0 fun _ s1 => decide (s1.cur = .thread T)) &&
    same (do sampleAbort; waitStores; waitClass 3; waitAccesses) s0) = true := by decide +kernel

theorem test_EndsComplete : issues H (w 4 5 base) (fun th s0 => decide (th.ctl.rep = none) && !th.ctl.intrap &&
    issues { H with ya := true } (w 4 5 base) (fun _ s0' => decide (s0' = s0)) &&
    okThen (rd1 H (.w 4)) s0 (fun _ s1 => same waitAccesses s1 && decide (s1.cur = .thread T)) &&
    same (do sampleAbort; waitStores; waitClass 3; waitAccesses) s0 && same sampleAbort s0 &&
    same waitAccesses s0) = true := by decide +kernel

/-! ### System, floating point and memory -/

theorem test_GuardsAndControlRegistersComplete : issues H (w 4 7 base) (fun th s0 =>
    okThen (rd1 H (.w 4)) s0 (fun x s1 => runs (setGuard 0 (x != 0)) s1 && runs (wrWin offGuards 1 (x.toNat % 256 / 2 * 2 + 1)) s1) &&
    runs (setGuard 7 false) s0 && runs (setGuard 1 true) s0 &&
    same guardsSettled s0 && okSame guardBits s0 (fun n => runs (wrReg 63 (BitVec.ofNat 64 (n / 2 * 2 + 1))) s0) &&
    okSame (rdGuard 0) s0 (fun p => okSame (rdGuard 7) s0 fun q => runs (setGuard 3 (glogOp 2 (p != true) (q != false))) s0) &&
    okThen (readCsr 0x001) s0 (fun x s1 => runs (wrReg 3 x) s1) && decide (th.ctl.rep = none) && mayWriteCsr th.ctl 0x001 &&
    okThen (rd1 H (.w 4)) s0 (fun x s1 => runs (writeCsr 0x001 x) s1)) = true := by decide +kernel

theorem test_SystemInstructionsComplete : issues H (w 5 191 (w 6 0x80CB (w 7 0x4000 (mapCtl (fun c => { c with priv := true }) base)))) (fun th s0 =>
    th.ctl.priv && decide (th.ctl.rep = none) && !th.ctl.intrap &&
    okThen (ovftTable H (.imm16 0x1555)) s0 (fun x s1 => ovTableOk x && runs (wrWin offBook 8 x.toNat) s1) &&
    okThen (rd2 H (.w 5) (.op (.w 6))) s0 (fun p s1 => decide (p.1.toNat ≤ 191 ∧ wfield p.2 16 48 = 0 ∧ wfield p.2 8 7 = 0 ∧ bitAt p.2 15 = true ∧
      wfield p.2 0 8 ≤ 203 ∧ s1.cur = .thread T)) &&
    runs (setGuard 1 (abortRaised s0 T th.ctl)) s0 &&
    same waitStores s0 && (nrange 0 6).all (fun p => !pathBusy s0 T (slotGen s0 T) p 4 s0.opId) &&
    okThen (rd1 H (.w 7)) s0 (fun w s1 => same (checkPlacement w) s1 && same (waitClass 2) s1 &&
      same (waitClass 3) s1 && same (needLines w) s1 && okThen (freshLines w) s1 fun _ s2 =>
        decide (s2.cur = .thread T) && okThen (do putAt w offStatus 8 (statusWord (thd s2)); copyTo w offProv 8; copyTo w offBook 24) s2 fun _ s3 =>
          decide (s3.cur = .thread T) && okThen (putAt th.ctl.wsp offAtags 2 (tagsOf s3 T th.ctl)) s3 fun _ s4 => decide (s4.cur = .thread T) &&
            (let s5 := s4.modThread T fun u => { u with ctl := { u.ctl with wsp := w } }
             runs (wrReg 3 th.ctl.wsp) (setAccTags s5 T.core th.ctl.slice (threadRead s5 T th.ctl w offAtags 2)))) &&
    okThen (waitOpnds H [.w 7, .w 5, .zero] []) s0 (fun _ s1 => okThen (rdOpnd H (.w 7)) s1 fun av s2 =>
      okSame (bankAddr av 8) s2 (fun x => okThen (rdOpnd H (.w 5)) s2 fun ev s3 => okThen (rdOpnd H .zero) s3 fun tv s4 =>
        okThen (bankRead av x 8) s4 fun v s5 => decide (s5.cur = .thread T) && decide (BitVec.ofNat 64 v ≠ ev) && decide (tv.toNat ≤ s5.dtime.toNat) &&
          runs (do wrReg 3 (BitVec.ofNat 64 v); setGuard 1 (BitVec.ofNat 64 v != ev)) s5))) = true := by decide +kernel

/-- w4 and w5 hold 1.5 and 2.0 in FP64. -/
def floats : State := w 4 0x3FF8000000000000 (w 5 0x4000000000000000 base)

theorem test_BinaryFloatInstructionsComplete : (badFormat (.nop H) 0 floats).isNone && issues H floats (fun _ s0 =>
    okSame capture s0 (fun k => !k.qmode &&
      okThen (do waitOpnds H [.w 4, .w 5] []; rdAll H [.w 4, .w 5]) s0 (fun l s1 => decide (l = [(.w 4, 0x3FF8000000000000), (.w 5, 0x4000000000000000)]) &&
        (let r := addF k (fmtQ 0) 0x3FF8000000000000 0x4000000000000000
         runs (do wrReg 3 (BitVec.ofNat 64 r.bits); raiseFlags r.flags) s1) &&
        (let r := divF k (fmtQ 0) 0x3FF8000000000000 0x4000000000000000
         runs (enterDiv [(3, BitVec.ofNat 64 r.bits)] none r.flags) s1)) &&
      okThen (do waitOpnds H [.w 4, .w 5, .w 4] []; rdAll H [.w 4, .w 5, .w 4]) s0 (fun l s1 => decide (l.length = 3) &&
        (let r := fmaF k (fmtQ 0) 0x3FF8000000000000 0x4000000000000000 0x3FF8000000000000
         runs (do wrReg 3 (BitVec.ofNat 64 r.bits); raiseFlags r.flags) s1)) &&
      okThen (do waitOpnds H [.w 5] []; rdAll H [.w 5]) s0 (fun l s1 => decide (l = [(.w 5, 0x4000000000000000)]) &&
        (let r := sqrtF k (fmtQ 0) 0x4000000000000000
         runs (enterDiv [(3, BitVec.ofNat 64 r.bits)] none r.flags) s1)) &&
      okThen (rd2 H (.w 4) (.op (.w 5))) s0 (fun p s1 =>
        (let r := fcmpBin k (fmtQ 0) 2 p.1.toNat p.2.toNat
         runs (do setGuard 1 (fcmpHolds 2 r.1); raiseFlags r.2) s1) && runs (wrReg 3 (fsgnW 0 64 p.1 p.2)) s1) &&
      okThen (rd1 H (.w 4)) s0 (fun x s1 => runs (wrReg 3 (BitVec.ofNat 64 (classBin (fmtQ 0) x.toNat))) s1 && runs (wrReg 3 (fsgnW 1 64 x x)) s1 &&
        (let r := convertF k 0 1 x.toNat
         runs (do wrReg 3 (BitVec.ofNat 64 r.bits); raiseFlags r.flags) s1)))) = true := by decide +kernel

/-- w4 and w5 hold 1 and 2 in slash64, with QMODE set. -/
def rationals : State := win offFpcr 1 0x10 (w 4 0x0200000000000003 (w 5 0x0200000000000005 base))

theorem test_RationalAndSlashComplete : (badFormat (.nop H) 0 rationals).isNone && issues H rationals (fun _ s0 =>
    okSame capture s0 (fun k => k.qmode &&
      okThen (do waitOpnds H [.w 4, .w 5] []; rdAll H [.w 4, .w 5]) s0 (fun l s1 => decide (l = [(.w 4, 0x0200000000000003), (.w 5, 0x0200000000000005)]) &&
        same (do gcdReady [3] 0; checkKs l) s1 &&
        (let r := addQV k (slashValue 0x0200000000000003) (slashValue 0x0200000000000005)
         runs (enterGcd [(3, BitVec.ofNat 64 r.bits)] none (r.flags ||| qrAll l)) s1)) &&
      okThen (do waitOpnds H [.w 4, .w 5, .w 4] []; rdAll H [.w 4, .w 5, .w 4]) s0 (fun l s1 => same (do gcdReady [3] 0; checkKs l) s1 &&
        (let r := fmaQV k (slashValue 0x0200000000000003) (slashValue 0x0200000000000005) (slashValue 0x0200000000000003)
         runs (enterGcd [(3, BitVec.ofNat 64 r.bits)] none (r.flags ||| qrAll l)) s1)) &&
      okThen (do waitOpnds H [.w 5] []; rdAll H [.w 5]) s0 (fun l s1 => same (do gcdReady [3] 0; checkKs l) s1 &&
        (let r := sqrtQV k (slashValue 0x0200000000000005)
         runs (enterGcd [(3, BitVec.ofNat 64 r.bits)] none (r.flags ||| qrAll l)) s1)) &&
      okThen (rd2 H (.w 4) (.op (.w 5))) s0 (fun p s1 => same (do gcdReady [] 1; checkKs [(.w 4, p.1), (.w 5, p.2)]) s1 &&
        same (gcdReady [3] 0) s1 &&
        runs (enterGcd [] (some (1, fcmpHolds 2 (fcmpRat (slashValue p.1.toNat) (slashValue p.2.toNat)))) (qrAll [(.w 4, p.1), (.w 5, p.2)])) s1 &&
        runs (enterGcd [(3, fsgnW 3 64 p.1 p.2)] none 0) s1 &&
        (let r := makeQ k (valOf true 64 p.1) (valOf true 64 p.2)
         runs (enterGcd [(3, BitVec.ofNat 64 r.bits)] none r.flags) s1)) &&
      okThen (rd1 H (.w 4)) s0 (fun x s1 => same (do gcdReady [3, 6] 1; checkK (.w 4) x) s1 &&
        same (do gcdReady [3] 0; checkK (.w 4) x) s1 && same (checkK (.w 4) x) s1 &&
        runs (enterGcd [(3, BitVec.ofNat 64 (classRat x.toNat))] none (qrOf x.toNat)) s1 &&
        runs (enterGcd [(3, qnumW (slashValue x.toNat))] none (qrOf x.toNat)) s1 &&
        (match qcfStep (slashValue x.toNat) with
         | (i, r, g, fl) => runs (enterGcd [(3, i), (6, r)] (some (1, g)) (fl ||| qrOf x.toNat)) s1) &&
        (let r := convertQ k 6 0 x.toNat
         runs (enterGcd [(3, BitVec.ofNat 64 r.bits)] none r.flags) s1)))) = true := by decide +kernel

theorem test_PlainMemoryInstructionsComplete : issues H (w 4 0x10008 base) (fun th s0 =>
    okThen (baseIndex H (.w 4) (.imm16 0)) s0 (fun a s1 => okThen (plainAddr a 8 .rd) s1 (fun pa s2 => same (fenceHold 0) s2 &&
        okThen (plainRead 0 a pa 8) s2 (fun m s3 => runs (wrReg 3 (extend false 64 m)) s3) &&
        okThen (acquirePlain pa 4) s2 fun _ s3 => okThen (plainRead 0 a pa 8) s3 fun m s4 => runs (wrReg 3 (extend false 64 m)) s4) &&
      decide (s1.cur = .thread T) && decide ((prefetchLine s1 T th.ctl.slice.part a).isSome)) &&
    okThen (baseIndex H .ones (.imm16 0)) s0 (fun a s1 => decide (prefetchLine s1 T th.ctl.slice.part a = none)) &&
    okThen (do waitOpnds H (allSrcs [.w 4, .w 4] (.imm16 0)) []; baseIndex H (.w 4) (.imm16 0)) s0 fun a s1 => okThen (plainAddr a 8 .wr) s1 fun pa s2 =>
      same waitConfirmed s2 && okThen (rdOpnd H (.w 4)) s2 fun v s3 => runs (queueStore pa 8 (v.toNat % 2 ^ 64) (some 4)) s3) =
  true := by decide +kernel

/-- w4 names the data range, w5 the base window through SPACE 3. -/
def locals : State := w 4 0x4000 (w 5 ((thd base).ctl.wsp.toNat - 64) (w 6 1 withBelow'))
where withBelow' : State := mapThr (fun th =>
  { th with lines := th.lines ++ (List.range 64).map fun k => (winLine (windowBelow th.ctl.wsp 0x1000) + k, LineSt.dirty) }) base

theorem test_LocalMemoryInstructionsComplete : issues H locals (fun th s0 =>
    okThen (baseIndex H (.w 5) (.imm16 0)) s0 (fun a s1 => decide (a.toNat % 8 = 0) && okThen (localAt a 8 false) s1 fun l s2 =>
      match l with
      | .window _ y => runs (windowLoad y a 8 true 3) s2 && runs (do acquireAt y 4; windowLoad y a 8 true 3) s2
      | .bank _ _ => false) &&
    okThen (baseIndex H (.w 4) (.imm16 8)) s0 (fun a s1 => decide (a.toNat % 8 = 0) && okThen (localAt a 8 false) s1 fun l s2 =>
      match l with
      | .window _ _ => false
      | .bank y o => runs (access H s0 (allSrcs [.w 4] (.imm16 8)) y o a (some 4) none (.load 8 true 0 3)) s2) &&
    okThen (do waitOpnds H (allSrcs [.w 6, .w 5] (.imm16 0)) []; baseIndex H (.w 5) (.imm16 0)) s0 (fun a s1 => okThen (localAt a 8 true) s1 fun l s2 =>
      match l with
      | .window _ y => okThen (rdOpnd H (.w 6)) s2 fun v s3 => runs (do
          markDirty a
          holdRelease y 8 (some 4)
          maskedStore a 8 (v.toNat % 2 ^ 64) fun w => do
            bankStore y 8 w
            leaveTag y 8 (some 4)) s3
      | .bank _ _ => false) &&
    okThen (do waitOpnds H (allSrcs [.w 6, .w 4] (.imm16 0)) []; baseIndex H (.w 4) (.imm16 0)) s0 (fun a s1 => okThen (localAt a 8 true) s1 fun l s2 =>
      match l with
      | .window _ _ => false
      | .bank y o => same waitConfirmed s2 && okThen (rdOpnd H (.w 6)) s2 fun v s3 =>
          runs (maskedStore a 8 (v.toNat % 2 ^ 64) fun w => access H s0 (allSrcs [.w 4, .w 6] (.imm16 0)) y o a none none (.store 8 w true)) s3) &&
    okThen (rd1 H (.w 4)) s0 (fun v s1 => okThen (granuleRange v 3) s1 fun p s2 => runs (access H s0 [.w 4] p.1 p.2 v none none (.feqry 3 3)) s2) &&
    okThen (rdRegs2 4 7) s0 (fun p _ => decide (p = (0x4000, 0)) && decide (wfield p.1 54 2 ≠ 3) && decide (p.1.toNat % 16 = 0)) &&
    okThen (rdRegs2 4 6) s0 (fun p s1 => decide (p.2 ≠ 0) && okThen (granuleRange p.1 (bitLen p.2.toNat)) s1 fun q s2 =>
      runs (access H s0 [.w 4, .w 6] q.1 q.2 p.1 none none (.feset p.2.toNat true)) s2) &&
    okThen (do waitOpnds H [.w 4, .w 6, .w 6] []; rdOpnd H (.w 4)) s0 (fun a s1 => decide (a = 0x4000) && decide (s1 = s0)) &&
    okThen (do waitOpnds H [.w 4, .w 6] []; rdOpnd H (.w 4)) s0 (fun a s1 => decide (s1.cur = .thread T) && decide (a.toNat % 8 = 0) &&
      match resolveLocal s1 T.core th.ctl.slice a with
      | none => false
      | some (x, o) => okThen (rdOpnd H (.w 6)) s1 fun y s2 => !s2.typedAt x 8 && same waitConfirmed s2 && okSame capture s2 (fun cap =>
          runs (access H s0 [.w 4, .w 6] x o a (some 4) (some 4) (.atom 8 5 true (y.toNat % 2 ^ 64) 3 cap)) s2) &&
          runs (access H s0 [.w 4, .w 6, .w 6] x o a none none (.cas 8 (y.toNat % 2 ^ 64) (y.toNat % 2 ^ 64) 3 1)) s2)) =
  true := by decide +kernel

/-! ### Tiles, futures and tasks -/

/-- A partition of 16 name blocks with speculation on; w4 names tile 5, version 2; w5 the data range; w6 holds a count word; w8 a future location;
handle 1 is bound. -/
def tiles : State :=
  (w 4 (refWord 5 2).toNat (w 5 0x4000 (w 6 (1 + 2 ^ 24) (w 8 0x5000 base)))).modPart P (fun r => { r with nregion := 16, mode := 0x01000010 })
    |>.modCore loadCore fun r => { r with cbs := [((loadSlice, 1), ⟨3, 8, 0x6000, 0, 0, 0⟩)] }

theorem test_TileInstructionsComplete : issues H tiles (fun _ s0 =>
    okThen (nallocSize H (.imm16 12)) s0 (fun n s1 => same (fenceHold 2) s1 && now T s1 &&
      decide (((s1.part P).nextName + 2 ^ n - 1) / 2 ^ n * 2 ^ n + 2 ^ n ≤ (s1.part P).nregion.toNat * 4096) &&
      okThen (wrReg 3 (refWord 0 0)) (s1.modPart P fun q => { q with nextName := 4096 }) fun _ s2 => runs (setGuard 1 true) s2) &&
    okThen (refOperand H 4) s0 (fun x s1 => same (fenceHold 2) s1 && runs (sendV H x (.nrel 1)) s1 && runs (sendV H x (.nqry 3)) s1) &&
    bitAt (s0.part P).mode 4 &&
    okThen (rd1 H .zero) s0 (fun x s1 => decide (wfield x 8 56 = 0) && same (do fenceHold 2; waitTiles) s1 && now T s1 && linksUp s1 P.pkg (rootHome s1 P).pkg && runs (setGuard 1 (decideRoot s1 P x.toNat true).1) s1) &&
    okThen (do waitOpnds H ([.w 4, .w 5] ++ srcOpnds (.imm16 0xFFFF)) []; refOperand H 4) s0 (fun ref s1 =>
      okThen (do let av ← rd1 H (.w 5); return (av, ← localSpan av (tileBytes 0) 16 true)) s1 fun p s2 =>
      okThen (countOperand H (.imm16 0xFFFF)) s2 fun k s3 => same (do fenceHold 2; waitRefused) s3 && now T s3 && decide ((thd s3).nsts.length < 8) &&
        okThen (readSpan p.1 p.2) s3 fun data s4 =>
          okSame myRoots s4 (fun roots => okThen (sendV H ref (.nst 0 9 k data roots none)) s4 fun _ s5 => decide (s5.cur = .thread T)) &&
          okThen (takeRoot 3) s4 fun root s5 => okSame myRoots s5 (fun roots =>
            okThen (sendV H ref (.nst 0 9 k data roots (some root))) s5 fun _ s6 => decide (s6.cur = .thread T))) &&
    okThen (do chkDest (.cb 1); waitOpnds H (.w 4 :: nldSrcs (.cb 1)) []; refOperand H 4) s0 (fun ref s1 => okThen (nldDest H (.cb 1) (tileBytes 0)) s1 fun dest s2 =>
      same (do waitRefused; waitStores; fenceHold 2) s2 && okThen (reserveSlot dest) s2 fun _ s3 =>
        runs (sendV H ref (.nld 3 dest 0 false true false)) s3)) = true := by decide +kernel

theorem test_NallocOfABlockThatDoesNotFit : issues H (tiles.modPart P fun r => { r with nregion := 0 }) (fun _ s0 =>
    okThen (nallocSize H (.imm16 12)) s0 (fun n s1 => decide ((s1.part P).nregion.toNat * 4096 < ((s1.part P).nextName + 2 ^ n - 1) / 2 ^ n * 2 ^ n + 2 ^ n) &&
      runs (setGuard 1 false) s1)) = true := by decide +kernel

theorem test_ReductionsAndSubscriptionsComplete : issues H tiles (fun _ s0 =>
    okSame (futLocation 8) s0 (fun p =>
    okThen (do waitOpnds H [.w 4, .w 5, .w 6] []; refOperand H 4) s0 (fun ref s1 =>
      okThen (do let av ← rd1 H (.w 5); return (av, ← localSpan av (tileBytes 0) 16 true)) s1 fun q s2 =>
      okThen (rd1 H (.w 6)) s2 fun cnt s3 => decide (wfield cnt 40 24 = 0 ∧ wfield cnt 24 16 ≠ 0 ∧ wfield cnt 12 12 = 0) &&
        okSame (do fenceHold 2; readSpan q.1 q.2) s3 (fun data => okThen (makeFuture 8 p.1 p.2) s3 fun f s4 => okSame myRoots s4 fun roots =>
          runs (sendV H ref (.nred 0 1 (wfield cnt 24 16) (wfield cnt 0 12) 1 data roots f)) s4)) &&
    okSame (cbBound 1) s0 (fun _ => true) && okThen (do waitOpnds H [.w 4, .w 6] []; refOperand H 4) s0 (fun ref s1 => now T s1 &&
      okThen (rd1 H (.w 6)) s1 fun cnt s2 => decide (wfield cnt 0 24 ≠ 0 ∧ refVer ref + wfield cnt 0 24 ≤ 2 ^ 24 ∧ wfield cnt 40 16 = 0 ∧ wfield cnt 56 8 = 0) &&
        same (fenceHold 2) s2 && reelRoom s2 P (refName ref) && okSame myRoots s2 (fun _ => runs (makeFuture 8 p.1 p.2) s2)))) = true := by
  decide +kernel

/-- k holds of a state whether or not the count of a discarded word raises its event (counterEvent; log entry 104 leaves open when it does). -/
def eitherWay (s : State) (cl : ClusterId) (core which : Nat) (k : State → Bool) : Bool :=
  let u := s.modCluster cl fun r => { r with discarded := r.discarded + 1 }
  k u && k (raiseEvent u cl.dieId core 0xF ⟨cl.pkg, unitOwner u cl.pkg cl.unit⟩ 1 false [Config.counterNumber which])

/-- w8 is a handle, of generation 1, of a future in state st. -/
def future (st : Nat) : State := sp 0x5000 8 (fsWord st 1 0 7) (w 8 (0x5000 + 2 ^ 56) (w 4 5 base))

theorem test_FutureInstructionsComplete : (issues H (future 1) (fun th s0 => decide (th.ctl.rep = none) &&
    okSame (handleOperand 8) s0 (fun p => decide (fsState (s0.rd p.2 8) = 1) && decide (fsGen (s0.rd p.2 8) = handleGen p.1) &&
      okThen (watchMine p.2 8 false) s0 (fun _ s1 => okThen (wrReg 3 (BitVec.ofNat 64 (s0.rd p.2 8))) s1 fun _ s2 => runs (setGuard 1 false) s2) &&
      okThen (watchMine p.2 8 true) s0 (fun _ s1 => runs (setGuard 1 true) (cancelEngines (futWake (s1.wr p.2 8 (fsWord 4 1 0 7)) p.2) p.2 1)) &&
      okThen (rd1 H (.w 4)) s0 (fun x s1 => decide (1 ≤ wfield x 0 32 % 256 ∧ wfield x 0 32 % 256 ≤ 20) && now T s1 &&
        !((s1.core T.core).storeq.any fun e => decide (e.t = T ∧ e.gen = slotGen s1 T ∨ e.id < (thd s1).seen)) && same waitConfirmed s1 &&
        decide ((futResolve s1 p.2 (handleGen p.1) 3 (wfield x 0 32)).1 = .done) &&
        okThen (watchMine p.2 8 true) (futResolve s1 p.2 (handleGen p.1) 3 (wfield x 0 32)).2 fun _ s3 => runs (setGuard 1 true) s3))) &&
   issues H (future 2) (fun th s0 => decide (th.ctl.rep = none) &&
      okSame (futLocation 8) s0 (fun p => runs (makeFuture 8 p.1 p.2) s0) && okSame (handleOperand 8) s0 (fun p => decide (fsState (s0.rd p.2 8) = 2) &&
      okThen (watchMine p.2 8 false) s0 (fun _ s1 => decide (s1.cur = .thread T) && runs (setGuard 7 true) (syncP T s1)) &&
      okThen (watchMine p.2 8 true) s0 (fun _ s1 => runs (setGuard 0 false) s1))) &&
   issues H (future 4) (fun _ s0 => okSame (handleOperand 8) s0 (fun p =>
      okThen (rd1 H (.w 4)) s0 (fun x s1 => decide ((futResolve s1 p.2 (handleGen p.1) 2 (wfield x 0 32)).1 = .discarded) &&
        eitherWay s1 (wordCluster p.2) 0xFF 1 fun u => okThen (watchMine p.2 8 true) u fun _ s3 => runs (setGuard 1 false) s3)))) = true := by decide +kernel

/-- w4 names a join record with `n` children pending, w5 a PC; with a record of the thread's at the bottom of the deque. -/
def tasks (n : Nat) : State := mapThr (fun th =>
  { th with lines := th.lines ++ (List.range 144).map fun k => (winLine (windowBelow th.ctl.wsp 0x2400) + k, LineSt.dirty) })
  (sp 0x6000 16 n (w 4 0x6000 (w 5 0x10000 (w 8 (0x5000 + 2 ^ 56) (sp 0x5000 8 (fsWord 1 1 0 7) base)))))
    |>.modSlice loadSlice (fun r => { r with desc := r.desc ||| BitVec.ofNat 512 (2 ^ 385) })
    |>.modCore loadCore fun r => { r with deque := [⟨loadSlice, 0x10000, 7, 0x6000, 0, 0, 0⟩] }

theorem test_TaskInstructionsComplete : (issues H (tasks 1) (fun th s0 => decide (th.ctl.rep = none) && same sampleAbort s0 &&
    okThen (rd3 H (.w 5) (.w 5) (.w 4)) s0 (fun p s1 => okSame (childRoom p.2.2) s1 id && same waitAccesses s1 && now T s1 && dequeRoom s1 T.core &&
      okThen (addChild p.2.2) s1 (fun _ s2 => runs (setGuard 1 true) (pushBottom s2 T.core ⟨loadSlice, p.1, p.2.1, p.2.2, 0, 0, 0⟩)) &&
      decide ((s1.core T.core).conts.length < 64)) &&
    okThen (rd1 H (.w 4)) s0 (fun v s1 => decide (v ≠ 0) && okSame (joinPlace v) s1 (fun y => decide (joinPending (s1.rd y 16) ≠ 0) && now T s1 &&
      okThen (watchMine y 16 false) s1 fun _ s2 => decide (eligibleAt s2 T = some 0) && !recordAborts s2 T.core ⟨loadSlice, 0x10000, 7, 0x6000, 0, 0, 0⟩ &&
        runs (runInline 0 ⟨loadSlice, 0x10000, 7, 0x6000, 0, 0, 0⟩) s2)) &&
    okSame (regBits 8) s0 (fun v1 => decide (v1 ≠ 0) && okSame (handleAddr v1) s0 fun x1 => okSame (secondHandle .zero) s0 fun second =>
      decide (second = none) && okThen (rd3 H (.w 5) (.w 5) (.w 4)) s0 fun p s1 => okThen (addChild p.2.2) s1 fun _ s2 =>
        okThen (contRegister v1 x1) s2 fun r s3 => decide (r.1.isSome) && runs (setGuard 1 true) s3)) &&
   issues H (tasks 0) (fun _ s0 => okThen (rd1 H (.w 4)) s0 fun v s1 => okSame (joinPlace v) s1 fun y => decide (joinPending (s1.rd y 16) = 0) && now T s1 && okThen (watchMine y 16 false) s1 fun _ s2 =>
      okThen (wrReg 3 (BitVec.ofNat 64 (joinFailed (s1.rd y 16)))) (syncP T s2) fun _ s3 => runs (setGuard 1 false) s3) &&
   issues H (sp 0x6000 16 0xFFFFFFFF (tasks 0)) (fun _ s0 => okThen (rd3 H (.w 5) (.w 5) (.w 4)) s0 fun p s1 =>
      okSame (childRoom p.2.2) s1 (fun ok => !ok) && same waitAccesses s1 && runs (setGuard 1 false) s1)) = true := by decide +kernel

/-- w4 names a descriptor of one core with one task, and w5 the bytes behind it, which are no legal one. -/
def launches : State := (sp 0x6000 64 (loadDesc.toNat % 2 ^ 448) (sp 0x6040 64 (2 ^ 449) (w 4 0x6000 (w 5 0x6040 base)))).modPart P fun r =>
  { r with units := [0, 1, 2, 3, 4, 5, 6, 7, 8, 9, 10, 11] }

theorem test_LaunchesComplete : issues H launches (fun _ s0 =>
    okThen (rd1 H (.w 4)) s0 (fun v s1 => same (do waitConfirmed; waitAccesses) s1 && okSame (localSpan v 64 64 false) s1 (fun q =>
      okThen (readSpan v q) s1 fun m s2 => now T s2 && decide (descCode s2 P (BitVec.ofNat 512 m) = 0) && decide (heldSlices s2 P < 1024) &&
        (match submit s2 P (BitVec.ofNat 512 m) ⟨T.core.quad, true, 0, 0⟩ false with
         | (n, s3) => okThen (wrReg 3 (BitVec.ofNat 64 (n * 2 ^ 32))) s3 fun _ s4 => runs (setGuard 1 true) s4))) &&
    okThen (rd1 H (.w 5)) s0 (fun v s1 => okSame (localSpan v 64 64 false) s1 (fun q => okThen (readSpan v q) s1 fun m s2 =>
      decide (descCode s2 P (BitVec.ofNat 512 m) = 1) && okThen (wrReg 3 1) s2 fun _ s3 => runs (setGuard 1 false) s3))) = true := by decide +kernel

/-! ### Engines, barriers and vectors -/

/-- w8 names a free future location, w4 and w5 granules of the data range, w6 is 32 and w7 is 1; w9 is a plain address; the granule of w4 is typed when
`ty`. -/
def engines (ty : Bool) : State :=
  let s := w 4 0x4000 (w 5 0x6000 (w 6 32 (w 7 1 (w 9 0x10000 (w 10 0x7000 (sp 0x7000 8 (2 ^ 30 + 0x6000) (sp 0x5000 8 (fsWord 2 1 0 7) (w 8 0x5000 base))))))))
  let s := if ty then { s with st := { s.st with typed := nins s.st.typed (addrSpad loadCore 0x4000 / 16) } } else s
  s.modCore loadCore fun r => { r with cbs := [((loadSlice, 1), ⟨3, 8, 0x6000, 2, 0, 0⟩)] }

theorem test_CopyAndReduceComplete : issues H (engines false) (fun _ s0 => okSame (futLocation 8) s0 (fun p =>
    okThen (rd3 H (.w 4) (.w 5) (.w 6)) s0 (fun v s1 => decide (v.1.toNat % 16 = 0 ∧ v.2.1.toNat % 16 = 0) && now T s1 &&
      same (do flyerRoom; waitConfirmed; fenceHold 3) s1 && runs (makeFuture 8 p.1 p.2) s1 &&
      decide (wfield v.2.2 0 32 = 32 ∧ wfield v.2.2 51 12 = 0 ∧ bitAt v.2.2 63 = false ∧ wfield v.1 54 2 = 0) &&
      okSame (engAddr v.2.1 32 false) s1 (fun _ => true) && okSame (multicast v.1 32 none 1 8) s1 (fun l => l.length == 1) &&
      okSame (receiver T.core v.1 32 none) s1 (fun _ => true)) &&
    okThen (rd3 H (.w 9) (.w 9) (.w 7)) s0 (fun v s1 => decide (wfield v.1 52 12 = 0 ∧ v.1.toNat % 16 = 0 ∧ wfield v.2.2 0 20 = 1 ∧
        wfield v.2.2 20 12 ≤ wfield v.2.2 32 12 ∧ bitAt v.2.2 63 = false) && okSame (engAddr v.1 16 true) s1 (fun _ => true) &&
      okSame (captureBar v.1 none) s1 (fun o => o.isNone) && runs (makeFuture 8 p.1 p.2) s1))) = true := by decide +kernel

theorem test_BarrierObjectsComplete : issues H (engines false) (fun th s0 =>
    okThen (rd2 H (.w 4) (.op (.w 7))) s0 (fun v s1 => decide (v.2 ≠ 0 ∧ v.2.toNat < 2 ^ 32) && okSame (boPlace v.1) s1 fun x =>
      same (fenceHold 3) s1 && runs (watchMine x 16 true) s1 && runs (setGuard 1 false) s1 && !s1.typedAt x 16 && now T s1) &&
    okThen (rd1 H (.w 4)) s0 (fun v s1 => okSame (boPlace v) s1 fun x => okThen (watchMine x 16 false) s1 fun _ s2 => now T s2 &&
      th.boWait.isNone && !s1.typedAt x 16 && runs (setGuard 1 false) s2)) = true := by decide +kernel

/-- BOWAIT at a typed granule with the word `b`, whose wait of generation 0, where there is one, has seen DONE or not. -/
def waitsAt (b : Nat) (seen : Option Bool) : Bool :=
  issues H (mapThr (fun th => { th with boWait := seen.map fun d => ⟨0x100, 0, d⟩ }) (sp 0x4000 16 b (engines true))) fun th s0 =>
    decide (th.boWait = seen.map fun d => ⟨0x100, 0, d⟩) &&
    okThen (rd1 H (.w 4)) s0 fun v s1 => okSame (boPlace v) s1 fun x => s1.typedAt x 16 && decide (s1.rd x 16 = b ∧ boGenOf b = 0) && same (fenceHold 3) s1 &&
      okThen (watchMine x 16 false) s1 fun _ s2 => now T s2 && runs (setGuard 1 true) (syncP T s2)

theorem test_BarrierWaitsComplete : (waitsAt 0 none && waitsAt 1 none && waitsAt 0 (some true) && waitsAt 0 (some false)) = true := by decide +kernel

/-- The core's hardware barrier 0, armed for `n + 1` threads, with the thread marked in the current generation or the next. -/
def armed (n : Nat) (a b : List Nat) : State :=
  (engines false).modCore loadCore fun r => { r with bars := [((loadSlice, 0), { BarState.reset with v := true, nthrM1 := n, arrived := a, next := b })] }
def slot0 : Nat := barSlot T loadSlice

theorem test_BarComplete : [armed 0 [] [], armed 1 [slot0] [], armed 0 [slot0 + 1] [slot0], armed 0 [slot0 + 1] []].all (fun s => issues H s fun th s0 =>
    same sampleAbort s0 && !((s0.core T.core).storeq.any fun e => decide (e.t = T ∧ e.gen = slotGen s0 T ∨ e.id < th.seen)) && okSame (myBar 0) s0 fun b => b.v) = true := by
  decide +kernel

theorem test_BarriersAndHandlesComplete : issues H (engines false) (fun th s0 => okSame (myBar 0) s0 (fun b => b.arrived.isEmpty) &&
    okThen (rd1 H (.w 11)) s0 (fun v s1 => now T s1 && okSame mySlice s1 (fun sl => decide (wfield v 21 35 = 0) && (placePhys s1 T.core 0).isSome &&
      rectOk sl T.core.core 0 0 0 0 0) && okSame (myBar 0) s1 (fun b => b.arrived.isEmpty)) &&
    same (handleFree 2) s0 &&
    okThen (rd1 H (.w 10)) s0 (fun v s1 => (match resolveLocal s1 T.core th.ctl.slice (v + (0 : BitVec 16).signExtend 64) with
      | some (x, .inl c) => decide (c = T.core) && decide (v.toNat % 8 = 0) && !s1.poisoned x 8 && same (watchMine x 8 false) s1 &&
        decide (field (s1.rd x 8) 50 14 = 0 ∧ field (s1.rd x 8) 23 7 = 0 ∧ 1 ≤ field (s1.rd x 8) 30 12 ∧ field (s1.rd x 8) 30 12 ≤ 2048 ∧
          field (s1.rd x 8) 0 23 % 16 = 0) &&
        okSame mySlice s1 (fun sl => sl.inData (field (s1.rd x 8) 0 23) ((field (s1.rd x 8) 42 8 + 1) * field (s1.rd x 8) 30 12 * 16)) &&
        runs (setCb 2 ⟨field (s1.rd x 8) 42 8, field (s1.rd x 8) 30 12, field (s1.rd x 8) 0 23, 0, 0, 0⟩) s1
      | _ => false)) &&
    okThen (boCount H (.imm16 1)) s0 (fun k s1 => now T s1 && okSame (cbBound 1) s1 fun hb => decide (k ≤ hb.slots ∧ k ≤ hb.filled ∧ k ≤ hb.room) &&
      (handleSubs s1 T.core th.ctl.slice 1).isEmpty && runs (do claimHold 1; setCb 1 { hb with c := (hb.c + k) % 2 ^ 32 }) s1 &&
      runs (do fillSlots hb k hb.p; setCb 1 { hb with p := (hb.p + k) % 2 ^ 32 }) s1)) = true := by decide +kernel

/-- v0 and v1 are tagged FP32, v2 and v3 INT32, v4 INT8 and v5 INT4; m1 has its first lanes on; w4 is the data range, w5 a count. -/
def vectors : State := win offVtags 16 0x879911 (win (offM 1) 32 5 (w 4 0x4000 (w 5 3 base)))

/-- The tag, the sources and a write of their lanes under mask register 1. -/
def lanes (s0 : State) (tagOf : Exec Nat) (n : Nat) (srcs : List Src) : Bool :=
  okSame tagOf s0 fun tag => decide (tag = n) && okSame (vecSrcs (laneW tag) srcs) s0 fun l => decide (l.length = srcs.length) &&
    okSame (Machine.maskOf m1) s0 fun mk => mk.isSome && runs (wrLanes 6 (laneW tag) tag mk fun j => lane (l.headD 0) (laneW tag) j) s0

theorem test_VectorLanesComplete : issues H vectors (fun _ s0 => runs capture s0 && okSame capture s0 (fun _ => true) &&
    lanes s0 (arithTag isNumTag [.op (.v 0)]) 1 [.op (.v 0)] && (fmtOf 1).isSome && lanes s0 (arithTag isNumTag [.op (.v 2)]) 9 [.op (.v 2)] &&
    (fmtOf 9).isNone &&
    lanes s0 (arithTag isNumTag [.op (.v 0), .op (.v 1)]) 1 [.op (.v 0), .op (.v 1)] &&
    lanes s0 (arithTag isNumTag [.op (.v 2), .imm16 7]) 9 [.op (.v 2), .imm16 7] &&
    lanes s0 (arithTag isNumTag [.op (.v 0), .op (.v 1), .op (.v 0)]) 1 [.op (.v 0), .op (.v 1), .op (.v 0)] &&
    lanes s0 (arithTag isNumTag [.op (.v 2), .op (.v 3), .op .lane]) 9 [.op (.v 2), .op (.v 3), .op .lane] &&
    lanes s0 (blindTag [.op (.v 4), .op .ones]) 7 [.op (.v 4), .op .ones] && lanes s0 (arithTag isIntTag [.op (.v 2), .imm16 3]) 9 [.op (.v 2), .imm16 3] &&
    lanes s0 (arithTag isApxTag [.op (.v 1)]) 1 [.op (.v 1)]) = true := by decide +kernel

theorem test_VectorOthersComplete : issues H vectors (fun _ s0 => okSame capture s0 (fun _ => true) &&
    lanes s0 (arithTag isCmpTag [.op (.v 2), .op (.v 3)]) 9 [.op (.v 2), .op (.v 3)] && okSame (mBits 2) s0 (fun o => runs (wrM 2 (o + 1)) s0) &&
    okSame (arithTag isNumTag [.op (.v 0)]) s0 (fun tag => okSame (vecSrc (laneW tag) (.op (.v 0))) s0 fun p =>
      runs (wrReg 3 (BitVec.ofNat 64 ((treeUp (fun x y => (addF ⟨0, 0⟩ fp32 x y).bits) 9 (presentLanes none 32 p)).getD 0))) s0) &&
    lanes s0 (blindTag [.op (.v 4), .op (.v 4)]) 7 [.op (.v 4), .op (.v 4)] &&
    okSame (vecTags [.op (.v 2), .op (.v 3)]) s0 (fun l => decide (tagBits (headTag l) = 32)) &&
    okThen (do chkSrc (.op (.w 5)); rdSrc H (.op (.w 5))) s0 (fun _ s1 => okSame (Machine.maskOf m1) s1 fun mk => runs (wrLanes 6 32 9 mk fun _ => 3) s1) &&
    okSame (renV 2) s0 (fun ka => okSame (vTag ka) s0 fun tag => decide (tag = 9 ∧ 0 < segLimit (laneW tag) (laneW 1)) &&
      same (chkOpnd (.w 5)) s0 && okThen (rdOpnd H (.w 5)) s0 fun _ s1 => okSame capture s1 (fun _ => true) && okSame (rdWin offVcb 32) s1 (fun _ => true) &&
        okSame (Machine.maskOf m0) s1 (fun _ => true) && okSame (vBits ka) s1 (fun _ => true) &&
        okSame (renV 6) s1 (fun kd => okSame (vBits kd) s1 fun _ => runs (wrV kd 0 1) s1)) &&
    okThen (rd1 H (.w 4)) s0 (fun v s1 => okSame (localSpan v 32 32 false) s1 fun sp => same (fenceHold 1) s1 && okSame (readSpan v sp) s1 fun p =>
      runs (wrWin offVcb 32 p) s1)) = true := by decide +kernel

/-- Two state registers, v0 with v1 and v2 with v3, and v4, all tagged FP32; v2's running maximum is `m`; w4 names a key and w5 is a counter. -/
def states (m : Nat) : State := win offVtags 16 0x11111 (win (offV 3) 4 m (w 4 0x4000 (w 5 3 base)))

theorem test_SoftMaximumComplete : [0xFF800000, 0x3F800000].all (fun m => issues H (states m) fun _ s0 => okSame capture s0 (fun _ => true) &&
    okSame (stateReg (illegalOf (.smxm H 4 0 2)) 0) s0 (fun ka => okSame (stateReg (illegalOf (.smxm H 4 0 2)) 2) s0 fun kb =>
      same (do checkState ka; checkState kb) s0 && okSame (vBits (kb + 1)) s0 (fun mb => decide (lane mb 32 0 = m)) &&
      okSame (stateReg (illegalOf (.smxm H 4 0 2)) 4) s0 (fun kd => runs (do wrV kd 0 1; wrV (kd + 1) 0 1) s0)) &&
    okSame (stateReg (illegalOf (.smxf H 1 6 2)) 2) s0 (fun ka => same (checkState ka) s0) && runs (do wrV 6 0 1; setGuard 1 true) s0 &&
    same (do checkHandle 5; checkHandle 4) s0 && okSame (rdReg 5) s0 (fun _ => true) &&
    okSame (rdReg 4) s0 (fun kv => okSame (localSpan kv 16 16 false) s0 fun sp => okThen (readSpan kv sp) s0 fun _ s1 =>
      okSame (renV 6) s1 fun kd => runs (do wrV kd 0 9; wrReg 5 4) s1)) = true := by decide +kernel

/-! ### Vector memory, matrices, attention and Carder words -/

/-- A shape record's 64 bytes: its base, format, and two dimensions with their byte strides. -/
def shape2 (b fmt e0 s0 e1 s1 : Nat) : Nat := pack [(64, b), (4, fmt), (4, 0), (2, 1), (54, 0), (32, e0), (64, s0), (32, e1), (64, s1)]

/-- w4 and w7 name records at 0x6000 and 0x6040, w5 is a count, w6 is 0x4000, w8 names a future location and w9 is a plain address; mask register 1 has
lanes 0 and 2, and lane 2 of v2 is 1; v0 and v1 are tagged
FP32 and v2 INT32. -/
def shaped (r q : Nat) : State :=
  win (offM 1) 32 5 <| win (offV 2 + 8) 4 1 <| win offVtags 16 0x911 (sp 0x6000 64 r (sp 0x6040 64 q (w 4 0x6000 (w 7 0x6040 (w 6 0x4000 (w 8 0x5000 (w 9 0x10400 base)))))))

/-- 70 FP32 elements in 2 rows, and none. -/
def rows : Nat := shape2 0x4000 1 35 4 2 256
def norows : Nat := shape2 0x4000 1 0 4 2 256

theorem test_ContiguousVectorsComplete : issues H (shaped 0 0) (fun _ s0 =>
    [false, true].all fun pl =>
      okThen (baseIndex H (if pl then .w 9 else .w 6) (.imm16 16)) s0 (fun a s1 => okSame (Machine.maskOf m0) s1 fun mk =>
        okSame (renV 1) s1 fun k =>
        same (contiguousCheck a pl (contiguousRuns 1 mk a)) s1 && okThen (readRuns 0 pl (some a) (contiguousRuns 1 mk a)) s1 (fun _ s2 =>
          okSame (vBits k) s2 fun _ => runs (wrV k 0 1) s2) &&
        okSame (vTag k) s1 fun tag => same (contiguousCheck a pl (contiguousRuns tag mk a)) s1 && okSame (vBits k) s1 fun new =>
          runs (writeRuns pl (some a) new (contiguousRuns tag mk a)) s1)) = true := by decide +kernel

/-- VGATH and VSCAT of a record, plain or local, under mask register 1, from `s1` on. -/
def indexed (r : Shape) (idx : Nat) (s1 : State) : Bool :=
  okSame (Machine.maskOf m1) s1 fun mk => okSame (vTag 0) s1 (fun tag => decide (tag = r.fmt)) && okSame (vBits 0) s1 fun new =>
    if r.kind = 1 then
      okSame (runPhyses .rd (indexedRuns r mk idx)) s1 (fun lp => same (fenceHold 0) s1 &&
        okThen (runPieces (plainLanes lp) ⟨.gather 0 r.fmt mk, 0, 0, plainLanes lp, 0, false, false⟩) s1 fun g s2 =>
          decide (g.goal = .gather 0 r.fmt mk) && okSame (vBits 0) s2 fun _ => runs (wrV 0 g.a r.fmt) s2) &&
      same waitConfirmed s1 && okSame (runPhyses .wr (indexedRuns r mk idx)) s1 fun lp => same storeRoom s1 &&
        okThen (runPieces (plainLanes lp) ⟨.scatter new, 0, 0, plainLanes lp, 0, false, false⟩) s1 fun g _ => decide (g.goal = .scatter new)
    else okSame (runSpans (indexedRuns r mk idx)) s1 fun ll =>
      okThen (runPieces (localLanes ll) ⟨.gather 0 r.fmt mk, 0, 0, localLanes ll, 0, false, false⟩) s1 (fun g s2 =>
        decide (g.goal = .gather 0 r.fmt mk) && okSame (vBits 0) s2 fun _ => runs (wrV 0 g.a r.fmt) s2) &&
      same waitConfirmed s1 && same (checkTyped none ll) s1 &&
        okThen (runPieces (localLanes ll) ⟨.scatter new, 0, 0, localLanes ll, 0, false, false⟩) s1 fun g _ => decide (g.goal = .scatter new)

/-- 3 FP32 elements of plain memory, 64 bytes apart, from 0x10400. -/
def plainRow : Nat := shape2 0x10400 1 3 64 1 256 + 2 ^ 68

theorem test_IndexedVectorsComplete : issues H (shaped rows norows) (fun _ s0 =>
    okThen (indexedShape 7 2) s0 (fun p _ => decide (p.1.count = 0)) &&
    okThen (indexedShape 4 2) s0 (fun p s1 => now T s1 && decide (p.1.count = 70 ∧ p.1.kind ≠ 1) && indexed p.1 p.2 s1)) = true ∧
  issues H (shaped plainRow 0) (fun _ s0 =>
    okThen (indexedShape 4 2) s0 (fun p s1 => now T s1 && decide (p.1.count = 3 ∧ p.1.kind = 1) && indexed p.1 p.2 s1)) = true := by decide +kernel

theorem test_ShapedVectorsComplete : [0, 64, 70].all (fun at' => issues H (w 5 at' (shaped rows norows)) fun _ s0 =>
    same (do checkHandle 4; checkHandle 5) s0 && okThen (chunkShape 4) s0 (fun r s1 => okSame (rdReg 5) s1 fun v => decide (v.toNat = at') &&
      (decide (at' = 70) || decide (at' % laneCount (laneW r.fmt) = 0) &&
        okThen (readRuns 0 (r.kind = 1) none (chunkRuns r none at')) s1 (fun _ s2 => okSame (vBits (at' / 64)) s2 fun _ =>
          runs (do wrV (at' / 64) 0 1; wrReg 5 70) s2) &&
        same (checkSources r 0 2 at') s1 && okSame (vBits (at' / 64)) s1 (fun new =>
          runs (do writeRuns (r.kind = 1) none new (chunkRuns r none at'); wrReg 5 70) s1)))) = true := by decide +kernel

/-- Accumulator 0 of the slice is tagged FP32, handles 1 and 2 are bound with one slot filled of 128 units, and the records are of 8 by 64 and 64 by 8
BF16 elements. w5 is 63. -/
def matrices : State :=
  (setAcc ⟨loadCore, loadSlice, 0⟩ ⟨0, 1⟩ (w 5 63 (shaped (shape2 0x4000 2 8 2 64 16) (shape2 0x4400 2 64 2 8 128)))).modCore loadCore fun r =>
    { r with cbs := [((loadSlice, 1), ⟨0, 128, 0x4000, 1, 0, 0⟩), ((loadSlice, 2), ⟨0, 128, 0x5000, 1, 0, 0⟩)] }

/-- The pieces of a staging, its goal kept, and what follows it. -/
def staged (goal : StageGoal) (l : List StagePiece) (s1 : State) (k : Stage → State → Bool) : Bool :=
  now T s1 && !stagingBefore s1 T.core none &&
    okThen (runPieces l ⟨goal, 0, 0, l, 0, false, false⟩) s1 fun g s2 => decide (g.goal = goal) && k g s2

theorem test_MatrixOperandsComplete : issues H matrices (fun th s0 => !matFull matrices T && decide (th.ctl.rep = none) && okSame (accOf 0) s0 (fun id =>
    okSame capture s0 (fun _ => true) && okSame (do let x ← rdWin offMcbA 32; return x + (← rdWin offMcbB 32)) s0 (fun _ => true) &&
    same (do checkHandle 4; checkHandle 7) s0 && okThen (readShape 4) s0 (fun ra s1 => okThen (readShape 7) s1 fun rb s2 =>
      same (mmaChecks (illegalOf (.mma H 0 (.shape 4 7) 8 false false)) id 4 ra.fmt 7 rb.fmt 8 false false) s2 && mmaShapeOk ra 8 64 && mmaShapeOk rb 64 8 &&
      okSame (matSpans (allRuns ra)) s2 fun la => okSame (matSpans (allRuns rb)) s2 fun lb => same (matOrder ((la ++ lb).flatMap (·.2))) s2 &&
        staged (.matrix (.mma id 8 ra.fmt rb.fmt 0 0 0 0 0 false false) none [] none) (shapePieces 0 la ++ shapePieces 1 lb) s2 fun g s3 =>
          runs (enqueueMat (.mma id 8 2 2 g.a g.b 0 0 0 false false)) s3) &&
    decide (mmaStatic (.mma H 0 (.cbs 1 2 2 2) 8 false false) 2 2 8 false false = none) &&
    same (mmaChecks (illegalOf (.mma H 0 (.cbs 1 2 2 2) 8 false false)) id 0x81 2 0x82 2 8 false false) s0 &&
    okSame (cbBound 1) s0 (fun _ => true) && okSame (cbBound 2) s0 (fun _ => true) && okThen (slotFor H 1 0) s0 fun oa s1 => okThen (slotFor H 2 0) s1 fun ob s2 =>
      okThen (slotPieces 1 0 oa 1024) s2 fun pa _ => okThen (slotPieces 2 1 ob 1024) s2 fun pb _ =>
        staged (.matrix (.mma id 8 2 2 0 0 0 0 0 false false) none [1, 2] none) (pa ++ pb) s2 fun g s3 =>
          runs (do takeSlots [1, 2]; enqueueMat (.mma id 8 2 2 g.a g.b 0 0 0 false false)) s3)) = true := by decide +kernel

theorem test_MatrixOthersComplete : issues H matrices (fun th s0 => okSame (accOf 0) s0 (fun id => runs (do noteTag id 1; enqueueMat (.zero id 1)) s0 &&
    okSame (rdReg 5) s0 (fun v => decide (v.toNat ≤ 63)) && same (do checkHandle 5; checkHandle 6; fenceHold 4) s0 &&
    okSame (checkRead id false) s0 (fun tag => runs (enqueueMat (.rowOut id 63 tag th.ctl.wsp 0)) s0) && okSame (checkRead id true) s0 (fun _ => true) &&
    okThen newFree s0 (fun _ s1 => runs (enterPeek (.peekRow 0 1 0 0)) s1) &&
    okSame (rdReg 6) s0 (fun v => okThen (matDest v 16384) s0 fun l s1 => runs (enqueueMat (.memOut id l)) s1 &&
      okThen newFree s1 fun _ s2 => runs (enterPeek (.peekMem 0 l)) s2) &&
    okSame (accTag id false) s0 (fun tag => decide (tag = 1)) &&
    okThen (rd1 H (.w 6)) s0 (fun v s1 => okSame (matSpan v 16384 64) s1 (fun l => same (matOrder l) s1 &&
        staged (.matrix (.load id 0 1) none [] none) (piecesOf 0 v .buffer 0 l) s1 fun g s2 => runs (do noteTag id 1; enqueueMat (.load id g.a 1)) s2) &&
      okThen (matDest v (512 * laneW 1)) s1 (fun l s2 => okSame capture s2 fun c => runs (enqueueMat (.convert id l 1 0 1 false c)) s2) &&
      okSame (matSpan v 32 32) s1 (fun l => same (matOrder l) s1 &&
        staged (.matrix .codebook none [] (some true)) (piecesOf 0 v .buffer 0 l) s1 fun g s2 =>
          runs (do wrWin offMcbB 32 g.a; enqueueMat .codebook) s2)))) = true := by decide +kernel

/-- A sequence record of one extent of two blocks of 16 tokens, 20 tokens in use, at w9; pool 0 has blocks 2 and up free. w5 is n. -/
def sequences (n : Nat) : State :=
  ((w 5 n (shaped 0 0)).put 0x10400 320 (packSeq ⟨20, 0, 1, 0, 1, ⟨0x40000, 2, 1⟩ :: List.replicate 15 ⟨0, 0, 0⟩⟩)).modPart P fun r =>
    { r with wpools := [(0, BitVec.ofNat 64 (2 ^ 63 + 4 * 2 ^ 58 + 2 ^ 48 + 4))], wfree := [(0, [(1, 2), (2, 4), (3, 8)])] }

/-- What KVEXT and KVTRUNC do with one of their results. -/
def winds (zero : Bool) (s3 : State) (o : Option (SeqRec × List (Nat × Nat) × Nat)) (l : Span) (v : Word) : Bool :=
  match o with
  | none => okThen (if zero then wrReg 3 0 else pure ()) s3 fun _ s4 => runs (setGuard 1 false) s4
  | some (r', free, n) =>
    okThen (do watchSpan l true; updateSeqBuffer v (packSeq r')) (Span.write (s3.modPart P fun y => { y with wfree := tput y.wfree 0 free }) (packSeq r') l)
      fun _ s5 => okThen (wrReg 3 (BitVec.ofNat 64 n)) s5 fun _ s6 => runs (setGuard 1 true) s6

theorem test_SequencesComplete : [(5, 0, 3), (20, 3, 2), (40, 3, 1), (2 ^ 32, 1, 1)].all (fun q => issues H (sequences q.1) fun _ s0 =>
    okThen (rd2 H (.w 9) (.op (.w 5))) s0 (fun p s1 => same (fenceHold 5) s1 &&
      okThen (readSeq p.1) s1 (fun raw s2 => okSame (checkedSeq p.1 raw) s2 fun r => decide ((blockAddr r.live (p.2.toNat / r.tokens)).isSome = (q.1 < 32)) &&
        okThen (wrReg 3 0) s2 fun _ s3 => runs (setGuard 1 true) s3) &&
      okThen (do let _ ← seqSpan p.1 .rd; seqSpan p.1 .wr) s1 (fun l s2 => same waitConfirmed s2 && okThen (readSpan p.1 l) s2 fun raw s3 => okSame (checkedSeq p.1 raw) s3 fun r =>
        now T s3 && (poolOf (s3.part P) r.pool).v &&
        (let o := if p.2.toNat > 0xFFFFFFFF then none else kvext (poolOf (s3.part P) r.pool) (freeOf (s3.part P) r.pool) r p.2.toNat
         decide (o.isSome = (q.1 < 2 ^ 32)) && winds true s3 o l p.1) &&
        (let o := if p.2.toNat > r.ntok then none else if p.2.toNat = r.ntok then some (r, freeOf (s3.part P) r.pool, 0)
           else kvtrunc (poolOf (s3.part P) r.pool) (freeOf (s3.part P) r.pool) r p.2.toNat
         decide (o.isSome = (q.1 ≤ 20)) && winds false s3 o l p.1)))) = true := by decide +kernel

theorem test_MatchCompletes : issues H (w 5 8 (shaped 0 0)) (fun _ s0 => okThen (rd3 H (.w 6) (.w 6) (.w 5)) s0 fun p s1 =>
    decide (p.2.2.toNat ≤ 65536) && same (fenceHold 5) s1 && okThen (readTokens p.1 8) s1 fun x s2 => okThen (readTokens p.2.1 8) s2 fun y s3 =>
      okThen (wrReg 3 (BitVec.ofNat 64 (leadingEqual x y 8))) s3 fun _ s4 => runs (setGuard 1 true) s4) = true := by decide +kernel

/-- The prefix index has one bucket at 0x11000; tile 5, version 2, is present and pinned, its first token 7, as at 0x4000; an entry of hash 9 names it
when `full`. w4 is a hash, w5 one token, w6 names the tokens and w7 an entry at 0x6040. -/
def prefixes (full : Bool) (ref : Nat) : State :=
  let e : PxEnt := ⟨true, 0, 0, 3, 0, 0, 0x1234, (refWord 5 2).toNat, 9⟩
  let s := (w 4 9 (w 5 1 (sp 0x4000 4 7 (shaped 0 (packPx { e with tref := ref }))))).modPart P fun r =>
    { r with pxctl := BitVec.ofNat 64 (2 ^ 63 + 0x11000), nregion := 16, mode := 0x01000010 }
  let s := if full then s.put 0x11000 32 (packPx e) else s
  let (h, s) := nameHome s loadCore P 5
  putVer s ⟨h, verPart h P, 5, 2, .present, 0xFFFF, 0, 9, 7, [], [], 0, 0, [], 0, []⟩

/-- What PXLOOK and PXINS find. -/
def scanned (s0 : State) (hash : Word) (nd : Need) (look : Bool) (k : Option Nat → State → Bool) : Bool :=
  okThen (do let q ← pxBucket hash nd; return (q, ← readWays q.2.1 q.2.2)) s0 fun q s3 => now T s3 &&
    (let (sc, s4) := scanBucket s3 T.core P hash.toNat 0 0 (some 7) q.2
     (!look || sc.hit.isSome || decide (sc.ways = q.2)) && runs (writeWays q.1.2.2 sc.ways) s4 && k sc.hit s4)

theorem test_PrefixLookupCompletes : [false, true].all (fun full => issues H (prefixes full 0) fun _ s0 => same pxEnabled s0 &&
    same (waitOpnds H [.w 4, .zero, .w 6, .w 5] []) s0 &&
    okThen (do let hv ← rdOpnd H (.w 4); let pv ← rdOpnd H .zero; let tv ← rdOpnd H (.w 6); let nv ← rdOpnd H (.w 5); return (hv, pv, tv, nv)) s0
      (fun p s1 => decide (p = (9, 0, 0x4000, 1)) && same (fenceHold 5) s1 && okThen (readTokens p.2.2.1 1) s1 fun tn s2 => decide (tn = 7) &&
        scanned s2 9 .rd true fun hit s4 => decide (hit = if full then some 0 else none) &&
          runs (do wrReg 3 0x1234; wrReg 4 (pxStatus true false false 0); setGuard 1 true) s4)) = true := by decide +kernel

theorem test_PrefixInsertionCompletes : [(false, 0), (false, (refWord 5 2).toNat), (true, (refWord 5 2).toNat)].all (fun q =>
    issues H (prefixes q.1 q.2) fun _ s0 => same pxEnabled s0 && okThen (rd1 H (.w 7)) s0 fun rv s1 => decide (rv.toNat % 32 = 0) &&
      okSame (localSpan rv 32 32 false) s1 fun l => okThen (readSpan rv l) s1 fun raw s2 => decide ((parsePx raw).res = 0) && same (fenceHold 5) s2 &&
        okThen (pxBucket (BitVec.ofNat 64 (parsePx raw).hash) .wr) s2 fun _ s3 => same waitConfirmed s3 && now T s3 &&
          decide (isPinned s3 T.core P (parsePx raw).tref = (q.2 != 0)) &&
          okThen (do wrReg 3 (pxStatus false false true pxNone); setGuard 1 false) s3 (fun _ _ => true) &&
          (q.2 == 0 || decide ((tileTokens s3 T.core P (parsePx raw).tref 1).1 = some (some 7)) &&
            scanned (tileTokens s3 T.core P (parsePx raw).tref 1).2 9 .wr false fun hit s4 => decide (hit = if q.1 then some 0 else none) &&
              runs (do wrReg 3 0; setGuard 1 true) s4)) = true := by decide +kernel

/-- A batch of one sequence at 0x6000; w4 names it, w6 the segments, w5 asks for one core and segments of 64 bytes. -/
def batch : State := sp 0x6008 8 0x10400 (sp 0x6000 8 1 (w 5 0x60000 (sequences 0)))

theorem test_PlanCompletes : issues H batch (fun _ s0 => okSame (futLocation 8) s0 fun p => okThen (rd3 H (.w 4) (.w 6) (.w 5)) s0 fun v s1 =>
    decide (wfield v.2.2 8 8 = 0 ∧ wfield v.2.2 20 44 = 0 ∧ wfield v.2.2 0 8 + 1 ≤ 192 ∧ wfield v.2.2 16 4 = 6 ∧ v.1.toNat % 8 = 0) &&
    okThen (do let q ← localSpan v.1 8 8 false; readSpan v.1 q) s1 fun head s2 => decide (head = 1) && okSame (localSpan v.1 16 8 false) s2 fun l =>
      decide (v.2.1.toNat % 64 = 0) && okSame (localSpan v.2.1 64 1 false) s2 (fun _ => true) && same (do waitConfirmed; fenceHold 5) s2 &&
      okThen (readSpan v.1 l) s2 fun x s3 => okThen (readBatch [BitVec.ofNat 64 (field x 64 64)]) s3 fun recs s4 => decide (recs = [(0, 20, 16)]) &&
        now T s4 && runs (makeFuture 8 p.1 p.2) s4) = true := by decide +kernel

/-- The Carder of die 0 at its turn with an event in a run, and object 5 of kind k at the start of the SRAM. -/
def carders (k : Nat) : State :=
  ({ placeCarder State.reset 0 with agenda := [], cur := .carder ⟨0, 0⟩ 0 } : State).modObj ⟨0, 0⟩ 5 fun o =>
    { o with word := BitVec.ofNat 64 (2 ^ 63 + k * 2 ^ 59 + P.num * 2 ^ 53 + 15 * 2 ^ 36) }

theorem test_CarderWordsComplete : (List.range 7).all (fun k => decide ((carders k).cur = .carder ⟨0, 0⟩ 0) &&
    (match ((carders k).pipe ⟨0, 0⟩ 0).run with
     | some r =>
       let o := ((carders k).obj ⟨0, 0⟩ 5).word
       decide (bitAt o 63 = true ∧ objPart o = r.ev.part.num ∧ objKind o = k ∧ objBase o + objBytes o ≤ 2 ^ 22)
     | none => false)) = true ∧ cdCond 0 1 2 = true ∧ cdCond 1 1 2 = false := by decide +kernel

/-! ### Events -/

/-- The slice's record. -/
def sl (s : State) (k : SliceRec → Bool) : Bool := (s.slice? loadSlice).any k
def modSl (f : SliceRec → SliceRec) (s : State) : State := s.modSlice loadSlice f
/-- The slice with no slot reserved. -/
def quiet : State := { base with wk := { base.wk with slots := [] } }

theorem test_SliceLifeEventsTakeEffect : (decide ((base.part P).resetBusy = false) &&
    sl quiet (fun r => completes quiet loadSlice r && eventRoom quiet P) && sl base (fun r => !(completes base loadSlice r)) &&
    sl (modSl (fun r => { r with killed := true }) base) (fun r => decide (r.st ≠ .completed) && r.killed) &&
    sl base (fun r => decide (r.st ≠ .completed) && !r.killed) && sl (killSlice base loadSlice false) fun _ => true) = true := by decide +kernel

/-- Accumulator 0 of the slice is being saved, or has been, in a page that is mapped. -/
def saving : State :=
  let a : AccId := ⟨loadCore, loadSlice, 0⟩
  let s := (base.put 0x30000 8 0x1003B)
  { s with nt := { s.nt with saving := [⟨a, 1, loadSlice⟩], savedAccs := [(a, 9)] } }

theorem test_AccumulatorMovesTakeEffect : sl saving (fun r =>
    let a : AccId := ⟨loadCore, loadSlice, 0⟩
    (saving.nt.saving.find? (fun x => decide (x.acc = a))).any (fun o =>
      decide (saving.nt.saving.find? (fun x => decide (x.acc.core = loadCore ∧ x.phys = o.phys)) = some o)) &&
    !((saving.core loadCore).mqueue.any fun m => m.op.names fun x => decide (x = a)) &&
    (savePlaces saving loadSlice r loadCore 0 .wr).toOption.isSome && (savePlaces saving loadSlice r loadCore 0 .rd).toOption.isSome &&
    decide (tfind saving.nt.savedAccs a = some 9) && decide (((r.grant? loadCore).bind (·.accs[0]?)).join = some 0) &&
    !(saving.nt.saving.any fun x => decide (x.acc.core = loadCore ∧ x.phys = 0))) = true := by decide +kernel

theorem test_BudgetEventsTakeEffect : (
    sl (modSl (fun r => { r with central := 1, allot := [] }) base) (fun r => decide (r.st = .running ∧ r.central ≠ 0 ∧ tget r.allot loadCore 0 = 0)) &&
    sl base (fun r => decide (r.st = .running ∧ r.central = 0)) &&
    (let s := modSl (fun r => { r with allot := [] }) base
     sl s (fun r => decide (r.st = .running ∧ r.left = 0) && !completes s loadSlice r && eventRoom s P)) &&
    (let s := modSl (fun r => { r with st := .halted }) base
     sl s (fun r => decide (r.st = .halted ∧ r.killed = false) && slotsLeave s loadSlice && holdsAll s loadSlice r) &&
     (let u := s.modSlot T fun r => { r with phys := none }
      sl u (fun r => slotsLeave u loadSlice && !holdsAll u loadSlice r))) &&
    sl base (fun r => decide (r.st ≠ .halted ∧ r.st ≠ .completed ∧ r.killed = false)) &&
    (let s := { quiet with dtime := 100000001 }
     sl s (fun r => decide (r.st ≠ .completed ∧ r.missed = false ∧ ownDeadline r < s.dtime.toNat) &&
       decide (r.st = .running ∧ r.stallReported = false) && (s.wk.slots.all fun (t, x) => decide (t.slice ≠ loadSlice) || slotQuiet x) &&
       !engineBusy s loadSlice && decide (max (ownDeadline r) r.lastBusy + 100000000 ≤ s.dtime.toNat))) &&
    (let s : State := { base with nt := { base.nt with yields := [⟨T, loadSlice, some 5⟩] } }
     decide (s.nt.yields[0]?.isSome) && slotsLeave s loadSlice && eventRoom s P && sl s (fun r => decide (r.st = .running ∧ r.left ≠ 0)) &&
       sl (modSl (fun r => { r with allot := [] }) s) fun r => decide (r.st = .running ∧ r.left = 0))) = true := by decide +kernel

/-- A host queue of function 1, served at the quadrant, with the descriptor `d` in its ring at 0x20000000. -/
def hosted (d : BitVec 512) : State :=
  let s := (base.modPkg 0 fun r => { r with queues := [((1, 0), { QueueRec.reset with ctl := 0x20004001, tail := 1 })],
                                            vfbind := [(1, 2 ^ 63 + BitVec.ofNat 64 P.num)] })
  (s.put 0x20000000 64 d.toNat).modPart P fun r => { r with units := [0, 1, 2] }

theorem test_QueueEventsTakeEffect : (
    (let s := base.modQuad ⟨0, 0, 0⟩ fun r => { r with held := [(P, 5)] }
     decide ((s.quad ⟨0, 0, 0⟩).held = [(P, 5)] ∧ (s.quad ⟨0, 0, 0⟩).ring.length < 1024)) &&
    (let r := hostQueue (hosted 0) 0 1 0
     decide ((1 + 2 ^ 32 - r.head) % 2 ^ 32 ≤ 2 ^ r.log2n) && decide (2 ^ r.log2n < (17 + 2 ^ 32 - r.head) % 2 ^ 32)) &&
    [loadDesc, 0].all fun d =>
      let s := hosted d
      let q : QuadId := ⟨0, 0, 0⟩
      let r := hostQueue s 0 1 0
      let w := (modQueue s 0 1 0 fun r => { r with head := (r.head + 1) % 2 ^ 32 }).modQuad q fun c => c.serve 1 0
      decide (nextQueue s q = some (1, 0) ∧ (s.quad q).ring.length < 1024 ∧ (s.quad q).swapSt ≠ 1 ∧ vfPart s 0 1 = P) &&
        decide (s.rd (addrHbm 0 (wfield r.ctl 16 48 * 2 ^ 16 + 64 * (r.head % 2 ^ r.log2n))) 64 = d.toNat) &&
        decide (descCode w P d = 0 ↔ d ≠ 0)) = true := by decide +kernel

theorem test_UnitsTakeEffect : (
    let o : LongOp := ⟨1, T, loadSlice, (thd base).ctl.wsp, [(3, 5)], some (1, true), 0, 0⟩
    let s := base.modCore loadCore fun r => { r with gcd := [o], div := [o] }
    decide ((s.core loadCore).gcd[0]? = some o ∧ (s.core loadCore).div[0]? = some o)) = true := by decide +kernel

theorem test_ThreadEventsTakeEffect : (
    (let s := mapThr (fun th => { th with phase := .ending, endCause := some ⟨0, 3, 0, 0⟩ }) base
     (s.thread? T).any fun th => decide (th.phase = .ending) && th.nsts.isEmpty && th.endCause.isSome && !th.isOut) &&
    [true, false].all fun b =>
      let w : WatchRec := ⟨0, 0, b⟩
      let s := mapThr (fun th => { th with phase := .watch, watch := some w }) base
      (s.thread? T).any fun th => decide (th.phase = .watch ∧ th.watch = some w ∧ w.fired = b ∧ w.limit ≤ s.dtime.toNat)) = true := by decide +kernel

theorem test_FetchRefetchTakesEffect : (
    let s := mapThr (fun th => { th with phase := .refetch }) base
    let parity := fun (s : State) (pa : Nat) => decide (parity96 (lineSlot (s.rd (addrHbm 0 (pa / 64 * 64)) 64) 0) =
      linePar (lineWord (s.rd (addrHbm 0 (pa / 64 * 64)) 64)) 0)
    (s.thread? T).any fun th => decide (th.phase = .refetch) &&
      (match walkTo s P th.ctl.pc.toNat .ex with
       | .ok pa => parity s pa && !parity (s.put (addrHbm 0 0x10000) 1 0x81) pa
       | .error _ => false) &&
      (match walkTo (s.put 0x30008 8 0) P th.ctl.pc.toNat .ex with
       | .ok _ => false
       | .error _ => true)) = true := by decide +kernel

theorem test_LineMovesTakeEffect : (
    (let l := winLine (space3 (slotBase 0))
     let s := mapThr (fun th => { th with lines := [(l, .dirty), (l + 1, .home)], outPre := true }) base
     (s.thread? T).any fun th => decide (residentLines s T.core < 2304) && decide (tfind th.lines (l + 2) = none) && mayCreate s T th (l + 2) &&
       decide (tfind th.lines (l + 1) = some .home)) &&
    (let s := base.modSlot T fun r => { r with thread := r.thread.map fun th => { th with lines := (List.range 2304).map fun i => (winLine (space3 (slotBase 0)) + i, .dirty), used := [] } }
     (s.thread? T).any fun th =>
       let l := winLine (space3 (slotBase 0)) + 2000
       decide (tfind th.lines l = some .dirty) && LineSt.dirty.resident && mayEvict s T th l)) = true := by
  decide +kernel

theorem test_PowerEventsTakeEffect : (
    decide ((base.core loadCore).gated = false) && !mayGate base loadCore && wakeDue base loadCore &&
    (let s := { quiet with ac := 1000 }
     decide ((s.core loadCore).gated = false) && mayGate s loadCore && !wakeDue s loadCore && (nextUnsaved s loadCore).isNone && !anyUnsaved s loadCore &&
       decide ((s.core loadCore).commit = none) && decide (((s.modCore loadCore fun r => { r with commit := some 990 }).core loadCore).commit = some 990)) &&
    (let s := mapThr (fun th => { th with phase := .parked .message, lines := [(winLine (space3 (slotBase 0)) - 1, .dirty)], outDebug := true }) { base.put 0x30000 8 0x1003B with ac := 1000 }
     mayGate s loadCore && !wakeDue s loadCore && (match nextUnsaved s loadCore with
       | some (t, th, line) => decide (t = T) &&
         (lineHome (s.modCore loadCore fun r => { r with gating := true, commit := none }) t th line .wr).toOption.isSome
       | none => false)) &&
    wakeDue (base.modCore loadCore fun r => { r with gated := true }) loadCore &&
    (let s := base.modPart P fun r => { r with mode := 1, units := [0], clockLow := false }
     isBoost s P && decide ((s.part P).clockLow = false) && overHalf s P) &&
    (let s := ({ base with dtime := 100000 } : State).modPart P fun r => { r with mode := 1, units := [], clockLow := true, halfSince := some 0 }
     isBoost s P && decide ((s.part P).clockLow = true) && !overHalf s P && decide ((s.part P).halfSince = some 0 ∧ 0 + 100000 ≤ s.dtime.toNat))) = true := by
  decide +kernel

/-- A future of the slice at 0x5000, and storage of 64 bytes at 0x4000. -/
def fut0 : Fut := ⟨addrSpad loadCore 0x5000, 1, 0x5000, loadSlice⟩
def data0 : Span := [(addrSpad loadCore 0x4000, 64)]

/-- A contribution that brings its data. -/
def contrib (i : Nat) : Contribution :=
  ⟨3, T, 0, fut0, P, .local_ data0, 1, 64, i, 1, .local_ data0, some 5, none, false, none, 0, 0⟩

def merging : State :=
  { base with nt := { base.nt with contribs := [contrib 0], boarrs := [⟨4, T, 0, loadSlice, addrSpad loadCore 0x4000, 0, 1, 0⟩] } }

/-- Barrier 0 of the core, its `v` set, with the one arrival that it waits for or the release that is due. -/
def barrier (x y : Nat) (forwarded due : Bool) : State :=
  base.modCore ⟨0, 0, 16 * y + x⟩ fun r => { r with bars := [((loadSlice, 0), { BarState.reset with v := true, x0 := 0, y0 := 0, arrived := [0], forwarded := forwarded, due := due })] }

theorem test_EngineEventsTakeEffect : (
    [false, true].all (fun b =>
      let x : Copy := ⟨5, T, 0, fut0, .local_ data0, [], 64, 0, b⟩
      let s := base.modCluster loadCore.cluster fun r => { r with copies := [x] }
      decide ((s.cluster loadCore.cluster).copies[0]? = some x ∧ x.stop = b) && !(s.cluster loadCore.cluster).dm.stopped &&
        !afterPathC s T 0 x.id (x.reads s quad0) (x.writes s quad0) false) &&
    (let s := merging
     s.nt.contribs[0]?.isSome && !(s.cluster T.core.cluster).dm.stopped && !contribBackOff s (contrib 0) &&
     !afterPathC s T 0 3 ((contrib 0).reads s quad0) ((contrib 0).writes s quad0) true &&
     (match contribData s (contrib 0), (contrib 0).dst.span s quad0 P 0 64 .wr with
      | .ok (_, s1), .ok dst => !Span.typed s1 dst && !barStale s1 none && !Span.poisoned s1 dst &&
        (let (m, s2) := mergeSite s1 (contrib 0) dst
         let r : MergeRec := ⟨m.addr, m.home, m.cluster, P, 1, 64, 1, [1], 0, [], []⟩
         let s3 : State := { s2 with nt := { s2.nt with merges := [r] } }
         let s4 : State := { s2 with nt := { s2.nt with merges := List.replicate 64 { r with addr := m.addr + 64 } } }
         (s2.nt.merges.find? (sameMerge m P)).isNone && siteRoom s2 (contrib 0) m && (s4.nt.merges.find? (sameMerge m P)).isNone &&
         !siteRoom s4 (contrib 0) m && (s3.nt.merges.find? (sameMerge m P)).any fun r => !r.received.contains 0)
      | _, _ => false)) &&
    (let s := merging
     let z : Addr × Nat := (addrSpad loadCore 0x4000, 0)
     s.nt.boarrs[0]?.isSome && (s.core T.core).storeq.isEmpty && barStale s (some z) &&
       !barStale { s with st := { s.st with typed := [z.1 / 16] } } (some z)) &&
    [0, 1].all (fun x =>
      let c : CoreId := ⟨0, 0, x⟩
      let b := barOf ((barrier x 0 false false).modCore c fun r => { r with bars := r.bars.map fun e => (e.1, { e.2 with wM1 := x }) }) loadSlice c 0
      barComplete c b && !b.forwarded && decide (atCorner c b = (x = 0))) &&
    (barOf (barrier 0 0 false true) loadSlice loadCore 0).due) = true := by decide +kernel

/-- A plan of one sequence over n cores, at segment 0. -/
def plan0 (r : Nat × Nat × Nat) (n : Nat) : PlanOp := ⟨6, T, 0, fut0, [r], [(addrSpad loadCore 0x4000, 64 * n)], 6, n, 0⟩

theorem test_PlanEventsTakeEffect : (decide ((plan0 (3, 0, 0) 1).refused ≠ 0) && [1, 2].all fun n =>
    let pl := plan0 (0, 20, 16) n
    let s : State := { base with nt := { base.nt with plans := [pl] } }
    let share := shareOf (pl.blocks.foldl (· + ·) 0) pl.cores pl.next
    let chains := chainsOf pl.blocks 0 share.1 share.2
    decide (s.nt.plans[0]? = some pl ∧ pl.refused = 0) && !planWaits s pl && decide (chains.length ≤ 2 ^ pl.segLog2 / 16 - 1) &&
      !Span.typed s (subSpan pl.dst 0 (16 + 16 * chains.length)) && decide ((pl.next + 1 < pl.cores) = (n = 2))) = true := by decide +kernel

/-- The slot is idle, with a record in its core's deque or the next core's, and a steal under way or not. -/
def rec0 : TaskRec := ⟨loadSlice, 0x10000, 7, 0, 0, 0, 0⟩
def idle (here there : Bool) (st : StealSt) (rc : Option TaskRec) : State :=
  let s := base.modSlot T fun r => { r with thread := none, steal := st, carried := rc }
  let s := s.modCore loadCore fun r => { r with deque := if here then [rec0] else [] }
  s.modCore ⟨0, 0, 1⟩ fun r => { r with deque := if there then [rec0] else [] }

/-- The abort bit of the record's slice, at its core's cluster. -/
def aborted (s : State) : State := s.modSlice loadSlice fun r => { r with abort := [loadCore.cluster], desc := r.desc }

theorem test_IdleSlotEventsTakeEffect : (
    [idle true false .none none, aborted (idle true false .none none)].all (fun s =>
      (s.slot? T).any fun r => decide (eligibleAt s T = some 0 ∧ r.steal ≠ .sent ∧ r.steal ≠ .empty) && slotIdle s T r && !slotDraining s T &&
        decide ((s.core T.core).deque[0]? = some rec0) && sl s (fun x => decide (x.st = .running))) &&
    !recordAborts (takeRecord (idle true false .none none) T.core 0) T.core rec0 &&
    recordAborts (takeRecord (aborted (idle true false .none none)) T.core 0) T.core rec0 &&
    [false, true].all (fun there =>
      let s := idle false there .none none
      let u := s.modCore T.core fun r => { r with reserved := r.reserved + 1 }
      (s.slot? T).any (fun r => slotIdle s T r && decide (r.steal = .none ∧ eligibleAt s T = none)) && dequeRoom s T.core &&
        (if there then decide (pickVictim u T = some ⟨0, 0, 1⟩ ∧ topTakeable u T ⟨0, 0, 1⟩ = some 0 ∧ (u.core ⟨0, 0, 1⟩).deque[0]? = some rec0)
         else decide (pickVictim u T = none))) &&
    ((idle false false .sent (some rec0)).slot? T).any (fun r => decide (r.steal = .sent ∧ r.carried = some rec0)) &&
    [(idle false false .sent (some rec0), false), (aborted (idle false false .sent (some rec0)), true)].all (fun q =>
      recordAborts ((releaseEntry q.1 T.core).modSlot T fun r => { r with steal := .none, carried := none }) T.core rec0 == q.2) &&
    ((idle false false .empty none).slot? T).any (fun r => decide (r.steal = .empty)) &&
    (({ idle false false (.wait 0) none with ac := 64 } : State).slot? T).any (fun r => decide (r.steal = .wait 0))) = true := by decide +kernel

theorem test_WakeEventsTakeEffect : (
    (let s : State := { base with nt := { base.nt with wakes := [⟨loadCore, 0⟩] } }
     s.nt.wakes[0]?.isSome) &&
    (let k : Cont := ⟨rec0, 0, 0, some 0, none, true, false, 1, false⟩
     let s := (mapThr (fun th => { th with phase := .future 0 1 true }) base).modCore loadCore fun r => { r with conts := [k, { k with due := true }] }
     decide ((polled s)[0]? = some (.inl T) ∧ (polled s)[1]? = some (.inr loadCore)) && decide ((s.core loadCore).conts.findIdx? (·.due) = some 1) &&
       dequeRoom s loadCore && (s.core loadCore).conts[1]?.isSome)) = true := by decide +kernel

/-- Messages on their way to the slot's ports, its far queue and its reply queue, each with root 1. -/
def mesh (gen : Nat) (broad : Bool) : State :=
  { base with nt := { base.nt with
      nbrs := [⟨T, T, 1, ⟨5, [1]⟩⟩, ⟨T, ⟨⟨0, 0, 9⟩, loadSlice, 3⟩, 2, ⟨5, []⟩⟩]
      fars := [⟨⟨T, 0⟩, loadCore, loadSlice, 0, BitVec.ofNat 64 (gen * 2 ^ 56 + if broad then 2 ^ 16 else 0), [1, 2], [1]⟩]
      replies := [⟨T, T, gen, ⟨5, [1]⟩, false⟩] } }

theorem test_MessageEventsTakeEffect : (
    !revokedMsg (mesh 0 false) P [1] && revokedMsg ((mesh 0 false).modPart P fun r => { r with roots := [(1, .revoked)] }) P [1] &&
    !revokedMsg (mesh 0 false) P [] &&
    [0, 1].all (fun g => [false, true].all fun b =>
      let s := mesh g b
      decide (s.nt.nbrs[0]?.isSome ∧ s.nt.nbrs[1]?.isSome) && !((s.nt.nbrs.take 1).any fun x => decide (x.dst = ⟨⟨0, 0, 9⟩, loadSlice, 3⟩)) &&
      (s.slot? T).isSome && (s.slot? ⟨⟨0, 0, 9⟩, loadSlice, 3⟩).isNone &&
      s.nt.fars[0]?.any (fun f => decide (wfield f.header 56 8 = g ∧ bitAt f.header 16 = b) && (s.slot? ⟨f.dstCore, f.dstSlice, f.slot⟩).any fun r =>
        decide (r.gen = 0 ∧ r.far.length + f.words.length ≤ 16)) &&
      s.nt.replies[0]?.any (fun p => (s.slot? p.dst).any fun r => decide (p.gen = g ∧ r.gen = 0 ∧ r.replies.length < 8)))) = true := by decide +kernel

/-- A store in the core's queue; a miss in the quadrant's table on a mapped page or not; a region without an entry; a withheld load; an access to a bank. -/
def served (va : Nat) (pr : Bool) : State :=
  let s := (w 4 0x4000 base).modCore loadCore fun r => { r with storeq := [⟨1, T, 0, loadSlice, 0x10000, addrHbm 0 0x10400, 8, 5, none, 0⟩] }
  let s := s.modQuad ⟨0, 0, 0⟩ fun r => { r with miss := [⟨P, va, [T]⟩], regionMiss := [.plain 0 1] }
  { s with nt := { s.nt with withheld := [⟨T, 2, ⟨addrHbm 0 0x10400, 8, 2, ⟨0, 0, 1⟩, T, 0, 7⟩, pr, 0⟩],
                             bankNet := [⟨T, addrSpad ⟨0, 0, 1⟩ 0x4000, .load 8 false 0 3, 0x4000, H, none, none, [], [(5, 7)]⟩] } }

theorem test_MemoryEventsTakeEffect : (
    (let s := served 0x10000 false
     let m1 := s.modQuad quad0 fun r => { r with miss := dropAt r.miss 0 }
     let a := fun va => (walkVia m1 P va 3 1 (wfield (m1.part P).ptroot 15 33 * 2 ^ 15) (m1.quad quad0).walks).1
     (s.core loadCore).storeq[0]?.any (fun e => storeReady s [] e) &&
     (match a 0x10000 with
      | .ok .. => true
      | .fail .. => false) &&
     (match a 0x90000 with
      | .ok .. => false
      | .fail .. => true) && (s.quad quad0).miss[0]?.isSome && (s.quad quad0).regionMiss[0]?.isSome) &&
    !((base.quad T.core.quad).miss.any fun m => m.waiters.contains T) &&
    (served 0 false).nt.withheld[0]?.any (fun x => !(((served 0 false).core x.tag.core).storeq.any fun e =>
      decide (e.t = x.tag.t ∧ e.gen = x.tag.gen ∧ e.id < x.tag.before))) &&
    (served 0 true).nt.withheld[0]?.any (fun x => x.promoted) &&
    (served 0 false).nt.bankNet[0]?.any (fun b => ((served 0 false).thread? b.t).isSome &&
      runs (do readAll b.hdr b.srcs; writeResolved b.marked; bankDo b.addr b.taddr b.acq b.rel b.op)
        { served 0 false with cur := .thread b.t, nt := { (served 0 false).nt with bankNet := dropAt (served 0 false).nt.bankNet 0 } })) = true := by decide +kernel

/-- A request on path V for tile 5, version 2. -/
def vmsg (k : VKind) (n : Nat) : VMsg := ⟨9, T, 0, loadSlice, space3 (slotBase 0), 0x10000, P, 5, 2, k, n, false, 0, false, 0, 0⟩

/-- A partition with names, an arena and quotas, with the request on path V, the versions of tile 5, and no arena where `full`. -/
def tiled (k : VKind) (full : Bool) (vs : List (VerSt × Nat × Nat)) : State :=
  let s := base.modPart P fun r =>
    { r with nregion := 16, mode := 0x01000010, units := [0], vquota := if full then 0 else 0x4000000100, arenas := if full then [] else [(0, 4 * 2 ^ 16)] }
  let (h, s) := nameHome s loadCore P 5
  let s := vs.foldl (fun s (st, idx, size) => putVer s ⟨h, P, 5, 2, st, 1, size, 1, 7, [], [], 0, 1, [idx], 0, []⟩) s
  { s with tl := { s.tl with vnet := [vmsg k 0] } }

def home5 : HomeId := (nameHome (base.modPart P fun r => { r with nregion := 16, mode := 0x01000010, units := [0] }) loadCore P 5).1

/-- What takes the request from path V. -/
def tookV (s : State) (k : VMsg → HomeId → State → Bool) : Bool :=
  match takeV s 0 with
  | some (m, h, s1) => k m h s1
  | none => false

def storeKind : VKind := .nst 0 1 1 7 [] none
def sumKind : VKind := .nred 0 1 1 0 1 7 [] fut0

theorem test_TileRequestsTakeEffect : (
    [(tiled storeKind false [], 0), (tiled storeKind false [(.present, 0, 0)], 1), (tiled storeKind true [], 2)].all (fun q => tookV q.1 fun m h s1 =>
      decide (m.kind = storeKind) && decide ((storeVer s1 h (verPart h m.part) (refusedAhead s1 h (verPart h m.part) s1.tl.refused (q.1.ac + 1)) m 0 1 1 7 []).1 =
        if q.2 = 0 then .done false else if q.2 = 1 then .done true else .refused)) &&
    [(tiled (.nqry 3) false [], true), (tiled (.naband 1) true [], false)].all (fun q => tookV q.1 fun m h s1 => isSimple m.kind &&
      decide ((serveSimple s1 h (verPart h m.part) m).isSome = q.2)) &&
    [(tiled sumKind false [], 0), (tiled sumKind false [(.present, 0, 0)], 1), (tiled sumKind true [], 2)].all (fun q => tookV q.1 fun m h s1 =>
      decide (m.kind = sumKind ∧ m.refusals = 0) && (match (contribute s1 h (verPart h m.part) m 0 1 1 0 1 7 []).1 with
        | .resolved => q.2 == 0
        | .faulted _ => q.2 == 1
        | .retry => q.2 == 2)) &&
    (let s := { tiled storeKind false [] with tl := { (tiled storeKind false []).tl with refused := [vmsg storeKind 1] } }
     (s.tl.refused[0]?.any fun m => decide (m.kind = storeKind)) &&
     (let (h, s1) := nameHome s loadCore P 5
      linksUp s P.pkg h.pkg && decide ((storeVer s1 h (verPart h P) (refusedAhead s1 h (verPart h P) [] 0) (vmsg storeKind 1) 0 1 1 7 []).1 = .done false)))) = true := by
  decide +kernel

theorem test_TileAnswersTakeEffect : (
    [0, 1].all (fun g =>
      let s : State := { base with tl := { base.tl with
        acks := [⟨1, T, g, true, 0⟩], notices := [.load (vmsg (.nld 3 (.loc 0x4000) 0 false true false) 1) home5], retries := [vmsg (.nqry 3) 1],
        answers := [⟨9, T, loadSlice, (thd base).ctl.wsp, [], none, 0, 0⟩], slotTiles := [⟨T, g, loadSlice, 1, 3, 0, 0, 64, 64, [], false⟩] }, ac := 256 }
      s.tl.acks[0]?.any (fun a => linksUp s a.home a.t.core.pkg && decide (msgLive { s with tl := { s.tl with acks := [] } } a.t a.gen = (g = 0))) &&
      linksUp s P.pkg home5.pkg && s.tl.notices[0]?.isSome && s.tl.retries[0]?.any (fun m => decide (m.since + min 8192 (256 * 2 ^ (m.refusals - 1)) ≤ s.ac)) &&
      s.tl.answers[0]?.any (fun o => linksUp s o.home o.t.core.pkg && windowThere s o.t o.wsp) &&
      s.tl.slotTiles[0]?.any (fun x => decide (msgLive s x.t x.gen = (g = 0))))) = true := by decide +kernel

/-- A load of tile 5 to the data range, or none that the home can serve yet. -/
def loadKind : VKind := .nld 3 (.loc 0x4000) 0 false true false

theorem test_TileLoadsTakeEffect : (
    [(tiled loadKind false [(.present, 0, 0)], 0), (tiled loadKind false [(.abandoned, 0, 0)], 1), (tiled loadKind false [], 2)].all (fun q =>
      decide (slotGen q.1 T = 0) && (q.1.thread? T).any fun th =>
        match serveLoad q.1 home5 (verPart home5 P) 5 2 false false (heldRoots q.1 T th) with
        | .tile v => q.2 == 0 && windowThere q.1 T th.ctl.wsp && runs (deliver (vmsg loadKind 0) v 3 (.loc 0x4000) 0 true) { q.1 with cur := .thread T }
        | .poisoned => q.2 == 1
        | .wait => q.2 == 2) &&
    decide (waitersAt (tiled loadKind false []) home5 < 8192) &&
    (let s := tiled loadKind false []
     decide (8192 ≤ waitersAt { s with tl := { s.tl with waiters := List.replicate 8192 (.load (vmsg loadKind 0) home5) } } home5))) = true := by decide +kernel

/-- A subscription of handle 1, one slot of it filled, to tile 5. -/
def sub0 (wb stop : Bool) : SubRec :=
  ⟨3, T, 0, loadSlice, loadCore, 1, P, 5, 2, 1, 1, 0, wb, false, 0, 1, 1, fut0, false, 0, 0, stop, []⟩
def subbed (wb stop full : Bool) (vs : List (VerSt × Nat × Nat)) : State :=
  let s := tiled loadKind full vs
  let s := s.modCore loadCore fun r => { r with cbs := [((loadSlice, 1), ⟨3, 64, 0x6000, 1, 0, 0⟩)] }
  { s with tl := { s.tl with subs := [sub0 wb stop], decisions := [⟨P, 3, false, .core loadCore⟩, ⟨P, 3, false, .home home5⟩] } }

theorem test_RootsTakeEffect : (
    [DecPlace.core loadCore, .home home5].zipIdx.all (fun q => (subbed false false false []).tl.decisions[q.2]?.any fun d =>
      decide (d.place = q.1) && linksUp (subbed false false false []) d.part.pkg d.place.pkg) &&
    (let s := mapThr (fun th => { th with phase := .home, outPre := true }) (tiled loadKind false [])
     (s.thread? T).any fun th => (th.outPre || th.outBudget || th.outDebug) && withdrawable s T th)) = true := by decide +kernel

/-- What a reel finds at the home of its next version. -/
def reels (wb full : Bool) (vs : List (VerSt × Nat × Nat)) (k : SubRec → HomeId → State → Bool) : Bool :=
  let s := subbed wb false full vs
  let x := sub0 wb false
  let (h, s1) := subHome s x
  decide (s.tl.subs[0]? = some x) && !x.waiting && subNames x && !subBackOff s x && linksUp s P.pkg h.pkg && k x h s1

theorem test_ReelsTakeEffect : (
    [false, true].all (fun wb => (subbed wb true false []).tl.subs[0]?.any fun x => x.wb == wb && !x.waiting && x.stop) &&
    reels false false [(.present, 0, 0)] (fun x h s1 => match serveLoad s1 h (verPart h P) 5 2 false false [], subCb s1 x with
      | .tile v, some b => decide (b.room ≠ 0 ∧ tileBytes v.size ≤ b.slotSz * 16 ∧ v.poison = []) &&
        (subAddr s1 x b b.p).any fun a => !s1.typedAt a (tileBytes v.size)
      | _, _ => false) &&
    reels false false [(.abandoned, 0, 0)] (fun _ h s1 => match serveLoad s1 h (verPart h P) 5 2 false false [] with
      | .poisoned => true
      | _ => false) &&
    reels false false [] (fun _ h s1 => (match serveLoad s1 h (verPart h P) 5 2 false false [] with
      | .wait => true
      | _ => false) && decide (waitersAt s1 h < 8192) &&
      decide (8192 ≤ waitersAt { s1 with tl := { s1.tl with waiters := List.replicate 8192 (.load (vmsg loadKind 0) h) } } h)) &&
    [(false, []), (false, [(.present, 0, 0)]), (true, [])].all (fun q => reels true q.1 q.2 fun x h s1 =>
      (subCb s1 x).any (fun b => decide (b.filled ≠ 0) && (subAddr s1 x b b.c).any fun a => decide (poisonIn s1 a (tileBytes 0) = [])) &&
      (findVer s1 h (verPart h P) 5 2).isSome == !q.2.isEmpty && decide (x.refusals = 0) &&
      !refusedAhead s1 h (verPart h P) (s1.tl.refused.filter fun m => decide (m.firstRefused < s1.ac + 1)) (s1.ac + 1) &&
      (!q.2.isEmpty || homeRoom s1 h (verPart h P) (tileBytes 0) == !q.1))) = true := by decide +kernel


/-! ### Carder, debug, errors, resets, registers and firmware -/

/-- An event at the head of its source, with the queue of its pipeline and an event in a run there or not; the partition's unit is 0 or none. -/
def tapped (units : List Nat) (n : Nat) (run : Bool) : State :=
  let ev : CdEvent := ⟨die0, 0xFFF, P, 0, List.replicate 8 0, 0⟩
  let s := (base.modPart P fun r => { r with units := units }).modDie die0 fun r => { r with taps := [ev] }
  s.setPipe die0 0 ⟨List.replicate n ev, if run then some ⟨ev, 0, 0, 0⟩ else none⟩

theorem test_CarderEventsTakeEffect : (
    [tapped [] 0 false, tapped [0] 1024 true, tapped [0] 1 true, tapped [0] 0 false].zipIdx.all (fun (s, i) =>
      (s.die die0).taps[0]?.any fun e => !((s.die die0).taps.take 0).any (fun x => decide (x.src = e.src)) &&
        (let w := syncWindow die0 (s.modDie die0 fun r => { r with taps := dropAt r.taps 0 })
         if i = 0 then decide (cdPipe w die0 e.part = none) else decide (cdPipe w die0 e.part = some 0) &&
           decide (1024 ≤ (w.pipe die0 0).queue.length ↔ i = 1) && (i == 1 || decide ((w.pipe die0 0).run.isSome = (i = 2))))) &&
    (let s := tapped [0] 0 false
     cdLoads s die0 (BitVec.ofNat 64 (2 ^ 63 + P.num * 2 ^ 52)) [BitVec.ofNat 32 (encode .cdend)] && bitAt (BitVec.ofNat 64 (2 ^ 63 + P.num * 2 ^ 52)) 63) &&
    (let s := { base with ac := 5000 }
     decide ((s.log loadCore).lastAc + 4096 ≤ s.ac)) &&
    (let s := base.modLog loadCore fun l => { l with last := 3 }
     decide (coreState s loadCore ≠ (s.log loadCore).last ∧ s.ac < (s.log loadCore).lastAc + 4096))) = true := by decide +kernel

/-- The cluster stopped, with a request of a stop. -/
def halted (b : Bool) : State := base.modCluster loadCore.cluster fun r => { r with dm := { r.dm with req := b, stopped := b } }

theorem test_DebugEventsTakeEffect : (
    [false, true].all (fun b =>
      let s := halted b
      let u := selectSlot loadCore.cluster 0 0 s
      decide ((s.cluster loadCore.cluster).dm.req = b ∧ (s.cluster loadCore.cluster).dm.stopped = b ∧ (u.cluster loadCore.cluster).dm.stopped = b) &&
        ((clusterThreads s loadCore.cluster).all fun t => (s.thread? t).all fun th => th.isOut || mayLeave s t th) &&
        (!b || decide (stepTarget u (loadCore.cluster.core (u.cluster loadCore.cluster).dm.selCore) (u.cluster loadCore.cluster).dm.selSlot = some T))) &&
    (let s := base.modCore loadCore fun r => { r with l1 := [⟨5, 0, none⟩] }
     (s.core loadCore).l1.any (fun x => decide (x.addr = 5)))) = true := by decide +kernel

/-- The command processor in a mode. -/
def cpIn (mode : Nat) : State := base.modQuad quad0 fun r => { r with cp := { r.cp with mode := mode } }

theorem test_ResetsTakeEffect : (
    (let s := base.modPart P fun r => { r with resetBusy := true }
     (s.part P).resetBusy) &&
    !anyReset base 0 &&
    [(0, 10), (1, 30), (2, 80), (3, 180), (4, 380)].all (fun p =>
      let s := ({ base with dtime := 400000000 } : State).modQuad quad0 fun r => { r with wdStep := p.1 }
      !anyReset s 0 && wdDue s quad0 p.1 p.2) &&
    [0, 1, 3].all (fun m => decide (((cpIn m).quad quad0).cp.mode = m ∧ ((cpIn m).quad quad0).swapSt ≠ 1)) &&
    decide (((base.modQuad quad0 fun r => { r with swapSt := 1 }).quad quad0).swapSt = 1)) = true := by decide +kernel

/-- An image passes or fails: one of the two cases of a reload or a live swap always holds. -/
theorem test_ImagesPassOrFail (a : Word) : imagePasses base 0 a = true ∨ imagePasses base 0 a = false := by cases imagePasses base 0 a <;> simp

/-- A retried flit stalls its link's credits or does not. -/
theorem test_CreditsStallOrNot : Config.creditStall base.free = true ∨ Config.creditStall base.free = false := by
  cases Config.creditStall base.free <;> simp

theorem test_PartitionWritesTakeEffect : (
    partIdle State.reset P && !partIdle base P && decide (wfield 1 0 2 ≠ 3 ∧ wfield 3 0 2 = 3) && ((List.range 7).all fun i => decide (wfield 0x1555 (2 * i) 2 ≠ 3)) &&
    ((List.range 7).any fun i => decide (wfield 0x3000 (2 * i) 2 = 3)) && decide (1 ≤ wfield 0x4000008000 0 16 ∧ wfield 0x4000008000 0 16 ≤ 0x8000) &&
    decide (1 ≤ wfield 0x4000008000 32 8 ∧ wfield 0x4000008000 32 8 ≤ 64) && decide ((0x100000 : Word).toNat ≤ 2 ^ 20) &&
    decide ((0xFC0000000 : Word).toNat % 2 ^ 16 = 0 ∧ (0xFC0000000 : Word).toNat < 2 ^ 39 ∧ (0xFC0000000 : Word).toNat / 2 ^ 30 % 64 = 63 ∧
      (0xFC0000000 : Word).toNat % 2 ^ 30 + 2 ^ 22 ≤ 2 ^ 30) &&
    (let s := State.reset.modPkg 0 fun r => { r with gown := [(0, 2 ^ 63), (127, 2 ^ 63)] }
     decide (128 * 0 ≤ wfield (0x10000 : Word) 0 16 ∧ wfield (0x10000 : Word) 0 16 + wfield (0x10000 : Word) 16 16 ≤ 128 * (0 + 1)) &&
       (nrange 0 1).all (ownsGranule s P)) &&
    (let v : Word := 0x5001000000000004
     decide (wfield v 48 10 ≠ 0 ∧ wfield v 58 5 ≤ 20 ∧ wfield v 36 12 = 0)) && decide (wfield (3 : Word) 0 8 ≠ 0 ∧ wfield (0x100 : Word) 0 8 = 0)) = true := by
  decide +kernel

theorem test_FirmwareEventsTakeEffect : (
    decide ((base.part P).tlbBusy = false) && decide (((base.modPart P fun r => { r with tlbBusy := true }).part P).tlbBusy = true) &&
    decide (bitAt (base.part P).regrel 62 = false) && decide (bitAt ((base.modPart P fun r => { r with regrel := 2 ^ 62 }).part P).regrel 62 = true) &&
    (let s := State.reset.modPart P fun r => { r with units := [0] }
     let v : Word := 0x8000000000000000
     decide (wfield v 6 57 = 0) && (s.part ⟨0, wfield v 0 6⟩).dies.contains 0 && !holdsAdmitted s P && decide (bitAt (tget (s.pkg 0).gown 0 0) 63 = false)) &&
    partIdle State.reset P && decide (P.num < 48) && decide ([0, 1].Nodup) && ([0, 1].all fun u => decide (u < 48 ∧ unitOwner State.reset 0 u = 0xFF)) &&
    decide ((State.reset.part P).units = []) &&
    (let s := base.modPart P fun r => { r with units := [0] }
     servesPart s quad0 P && decide (heldSlices s P < 1024 ∧ (s.part P).resetBusy = false ∧ (s.quad quad0).cp.mode = 3) &&
       decide ((((cpIn 1).modPart P fun r => { r with units := [0] }).quad quad0).cp.mode < 3) && servesPart ((cpIn 1).modPart P fun r => { r with units := [0] }) quad0 P) &&
    (let s := base.modQuad quad0 fun r => { r with ring := [5] }
     decide ((s.quad quad0).cp.mode = 3) && decide (((1 : Word).toNat + 2 ^ 64 - (s.quad quad0).ringHead) % 2 ^ 64 ≤ (s.quad quad0).ring.length) &&
       decide ((s.quad quad0).ring.length < ((2 : Word).toNat + 2 ^ 64 - (s.quad quad0).ringHead) % 2 ^ 64)) &&
    (let s := base.modDie die0 fun r => { r with mcHead := 2 }
     decide ((1 : Word).toNat ≤ (s.die die0).mcHead ∧ (s.die die0).mcHead < (3 : Word).toNat)) &&
    dmaRange 0x20000 4 && !base.poisoned (addrHbm 0 0x20000) 4 &&
    (let w := clearTags (addrHbm 0 0x20000) 2 (fireWatches ((hostTouch 0 0x20000 2 base).wr (addrHbm 0 0x20000) 2 (bytesNat [1, 2])) (addrHbm 0 0x20000) 2)
     !w.poisoned (addrHbm 0 0x20000) 2) &&
    decide (2 ^ 47 ≤ 2 ^ 47 + 64 ∧ 2 ^ 47 + 64 + 4 ≤ 2 ^ 48) && ((List.range 4).all fun i => !base.poisoned (addrHbm 0 0x20000 + i) 1) &&
    decide ((tget (base.die die0).links 0 (0, false)).2 = false)) = true := by decide +kernel

/-! ### Sources, results and traps -/

/-- Register n of the thread holds v as a plain value. -/
def holds (s : State) (n v : Nat) : Bool :=
  decide (s.cur = .thread T) && (s.thread? T).any fun th => !regPending s T th.ctl.wsp n && !winPoisoned s T th.ctl.slice th.ctl.wsp (offW n) 8 &&
    !winPoisoned s T th.ctl.slice th.ctl.wsp offMarks 8 && !(threadRead s T th.ctl th.ctl.wsp offMarks 8).testBit n &&
    decide (BitVec.ofNat 64 (threadRead s T th.ctl th.ctl.wsp (offW n) 8) = BitVec.ofNat 64 v)

theorem holds_sound {s : State} {n v : Nat} (h : holds s n v = true) : ∃ th, RegHolds s T th n (BitVec.ofNat 64 v) := by
  simp only [holds, Bool.and_eq_true, decide_eq_true_eq, Option.any_eq_true, Bool.not_eq_true'] at h
  obtain ⟨h1, th, h2, ⟨⟨⟨h3, h4⟩, h5⟩, h6⟩, h7⟩ := h
  exact ⟨th, h1, h2, h3, h4, h5, h6, h7⟩

theorem test_ScalarSourcesRead : (holds (w 4 7 (w 5 9 base)) 4 7 && holds (w 4 7 (w 5 9 base)) 5 9 && holds base 6 0) = true := by decide +kernel

/-- w8 is marked, a handle of generation 1 of a future in state st and of generation g. -/
def marked (st g : Nat) : State := win offMarks 8 (2 ^ 8) (sp 0x5000 8 (fsWord st g 0 7) (w 8 (0x5000 + 2 ^ 56) base))

theorem test_MarkedSourcesResolve : [(0, 1), (1, 1), (2, 1), (3, 1), (4, 1), (1, 2)].all (fun p =>
    let s := marked p.1 p.2
    now T s && (s.thread? T).any fun th => !regPending s T th.ctl.wsp 8 && !winPoisoned s T th.ctl.slice th.ctl.wsp (offW 8) 8 &&
      !winPoisoned s T th.ctl.slice th.ctl.wsp offMarks 8 && (threadRead s T th.ctl th.ctl.wsp offMarks 8).testBit 8 &&
      (let v := BitVec.ofNat 64 (threadRead s T th.ctl th.ctl.wsp (offW 8) 8)
       (resolveHandle s T.core th.ctl.slice v).any fun a => decide (fsState (s.rd a 8) = p.1) && decide ((fsGen (s.rd a 8) = handleGen v) = (p.2 = 1))) &&
      runs (do watchMine (addrSpad loadCore 0x5000) 8 false; wrWin (offW 8) 8 7; setMark 8 false) (syncP T s) &&
      runs (do watchMine (addrSpad loadCore 0x5000) 8 false; wrWin (offW 8) 8 (2 ^ 64 - 1); setMark 8 false) s) = true := by decide +kernel

/-- The thread's window at 0x8000 of the data range, with its lines resident, and a handler workspace at 0x18000, enabled when `en`, whose w62 is `pc`. -/
def away : Word := space0 loadCore 0x8000
def handler : Word := space0 loadCore 0x18000
def inData (en : Bool) (pc : Nat) : State :=
  sp (0x18000 + offW 62) 8 pc (mapThr (fun th =>
    { th with ctl := { th.ctl with wsp := away, twsp := BitVec.ofNat 64 (if en then 2 ^ 63 + 0x18000 else 0) }
              lines := (List.range 144).map fun k => (winLine away + k, LineSt.dirty) }) base)

theorem granted_bytes {s : State} (hg : ((s.slice? loadSlice).bind (·.grant? T.core)).map (·.data) = some 0) (o : Nat) :
    (winByte s T loadSlice away o : Nat) = 2 ^ 56 + (0x8000 + o) ∧ (winByte s T loadSlice handler o : Nat) = 2 ^ 56 + (0x18000 + o) := by
  have ha : wfield away 54 2 = 0 ∧ wfield away 0 23 = 0x8000 ∧ wfield handler 54 2 = 0 ∧ wfield handler 0 23 = 0x18000 := by decide
  obtain ⟨h1, h2, h3, h4⟩ := ha
  obtain ⟨g, hb, hd⟩ := Option.map_eq_some_iff.mp hg
  have e := fun x : Nat => show (addrSpad T.core x : Nat) = 2 ^ 56 + x from
    (by omega : (0 * 2 ^ 128 + 2 ^ 56 + (0 * 256 + 0) * 2 ^ 19 + x : Nat) = 2 ^ 56 + x)
  constructor
  · simp only [winByte, h1, h2, hb, hd, if_neg (show ¬ (0 : Nat) = 3 by omega), e]
  · simp only [winByte, h3, h4, hb, hd, if_neg (show ¬ (0 : Nat) = 3 by omega), e]

theorem granted_stands {s : State} (hg : ((s.slice? loadSlice).bind (·.grant? T.core)).map (·.data) = some 0) :
    WindowStands s T loadSlice away ∧ WindowStands s T loadSlice handler ∧ LinesApart s T loadSlice away handler ∧
      LinesApart s T loadSlice handler away := by
  have h1 := fun o => (granted_bytes hg o).1
  have h2 := fun o => (granted_bytes hg o).2
  have apart : ∀ b i j : Nat, i ≠ j → 2 ^ 56 + (b + 64 * i) + 64 ≤ 2 ^ 56 + (b + 64 * j) ∨ 2 ^ 56 + (b + 64 * j) + 64 ≤ 2 ^ 56 + (b + 64 * i) := by omega
  refine ⟨⟨fun i k _ _ => ?_, fun i j hi hj hn => ?_⟩, ⟨fun i k _ _ => ?_, fun i j hi hj hn => ?_⟩, fun i j hi hj hn => ?_, fun i j hi hj hn => ?_⟩
  · rw [h1, h1]; exact (by omega : (2 ^ 56 + (0x8000 + (64 * i + k)) : Nat) = 2 ^ 56 + (0x8000 + 64 * i) + k)
  · rw [h1, h1]; exact apart _ i j (hn.resolve_left (by simp))
  · rw [h2, h2]; exact (by omega : (2 ^ 56 + (0x18000 + (64 * i + k)) : Nat) = 2 ^ 56 + (0x18000 + 64 * i) + k)
  · rw [h2, h2]; exact apart _ i j (hn.resolve_left (by simp))
  · rw [h1, h2]; simp only [winLines] at hi hj
    exact .inl (by omega : (2 ^ 56 + (0x8000 + 64 * i) + 64 : Nat) ≤ 2 ^ 56 + (0x18000 + 64 * j))
  · rw [h1, h2]; simp only [winLines] at hi hj
    exact .inr (by omega : (2 ^ 56 + (0x8000 + 64 * j) + 64 : Nat) ≤ 2 ^ 56 + (0x18000 + 64 * i))

theorem test_RegisterWritesStand : now T (inData true 0x10000) = true ∧ WindowStands (inData true 0x10000) T loadSlice away ∧
    LinesApart (inData true 0x10000) T loadSlice away handler :=
  have h := granted_stands (s := inData true 0x10000) (by decide +kernel)
  ⟨by decide +kernel, h.1, h.2.2.1⟩

theorem test_WindowsStand : ((base.slice? T.slice).any (fun r => (r.grant? T.core).any fun g => decide (g.work + r.nslots * 0x2400 ≤ 2 ^ 19) &&
      decide (T.ridx < r.nslots)) && decide (wfield (space3 (slotBase 0)) 54 2 = 3 ∧ waddrOf (space3 (slotBase 0)) % 64 = 0 ∧
      waddrOf (space3 (slotBase 0)) ≤ slotBase T.ridx ∧ T.core.die < 4 ∧ T.core.core < 256) && decide (wfield away 54 2 ≠ 3)) = true := by decide +kernel

/-- Whether a target is legal. -/
def legal (s : State) (pc : Word) : Bool :=
  match targetCheck s P pc with
  | .ok _ => true
  | .error _ => false

theorem test_TrapEntryTaken : ((inData true 0x10000).thread? T).any (fun th =>
    let s := inData true 0x10000
    !th.ctl.intrap && decide (handlerAt s th.ctl = some 0x18000) && decide (handler = space0 T.core 0x18000) && decide (th.ctl.wsp = away ∧ away ≠ handler) &&
      legal (writeTrapRecord s T th.ctl handler (mkTrap 16 0 0)) (BitVec.ofNat 64 (threadRead s T th.ctl handler (offW 62) 8))) = true := by decide +kernel

theorem test_UnhandledTrapEnds : (((mapCtl (fun c => { c with intrap := true }) (inData true 0x10000)).thread? T).any (fun th => th.ctl.intrap) &&
    ((inData false 0).thread? T).any (fun th => !bitAt th.ctl.twsp 63) &&
    (let s := mapCtl (fun c => { c with twsp := 0x7FFFC0 }) (inData true 0)
     (s.thread? T).any fun th => (s.slice? th.ctl.slice).any fun r => !r.inData (wfield th.ctl.twsp 6 17 * 64) 9216) &&
    (let s := inData true 0x10001
     (s.thread? T).any fun th => decide (handlerAt s th.ctl = some 0x18000) &&
       (let u := writeTrapRecord s T th.ctl (space0 T.core 0x18000) (mkTrap 16 0 0)
        !legal u (BitVec.ofNat 64 (threadRead u T th.ctl (space0 T.core 0x18000) (offW 62) 8))))) = true := by decide +kernel

theorem test_UserModeTraps : issues H base (fun th _ => !th.ctl.priv && decide (th.ctl.rep = none)) = true := by decide +kernel

theorem test_PlainAddressTraps : [2 ^ 52, 0x10404].all (fun a => issues H (w 4 a base) fun _ s0 =>
    okThen (baseIndex H (.w 4) (.imm16 0)) s0 (fun v _ => decide (v.toNat = a) && decide (wfield v 52 12 ≠ 0 ↔ a = 2 ^ 52) &&
      decide (a = 2 ^ 52 ∨ v.toNat % Machine.sizeOf 0 ≠ 0)) &&
    runs (do waitOpnds H (allSrcs [.w 5, .w 4] (.imm16 0)) []; baseIndex H (.w 4) (.imm16 0)) s0) = true := by decide +kernel

/-- A header whose guard is the negation of g0, and one that waits for an operation of the GCD unit. -/
def offHdr : Hdr := { H with ga := 8 }
def waitHdr : Hdr := { H with wait := some ⟨3, 0⟩ }

theorem test_GuardedOffDoesNothing : (let s := win offFpcr 1 0x10 base
    let s0 := chargeTurn s T
    now T s && (s0.thread? T).any (fun th => !winPoisoned s0 T th.ctl.slice th.ctl.wsp offGuards 1 && !guardPending s0 T th.ctl.wsp 0) &&
      same (checkWait offHdr) s0 && okSame (guardTrue offHdr) s0 (fun b => !b) && (s.thread? T).any (fun th => !th.charged && (s.slice? th.ctl.slice).isSome) &&
      (illegalNow (.nop offHdr) s).isNone && (illegalNow (.nconf offHdr 1 4) s).isSome && (illegalNow (.fadd offHdr 3 (.w 4) (.w 5) 1) s).isSome &&
      (illegalNow (.vld offHdr 31 4 5 m0 7) s).isSome && !matFull s T) = true := by decide +kernel

theorem test_WaitHoldsIssue : (let s := base.modCore loadCore fun r => { r with gcd := [⟨1, T, loadSlice, 0, [], none, 0, 0⟩] }
    now T s && decide (0 < outstanding (chargeTurn s T) T (slotGen (chargeTurn s T) T) 3)) = true := by decide +kernel

theorem test_SlotAddMovesTheIndex : (slotAdd 0x10004 1 = 0x10040 ∧ slotAdd 0x10004 (-5) = 0xFFC4 ∧ slotAdd 0x10001 1 = 0x10002) ∧
    wfield (0x10004 : Word) 3 3 = 0 ∧ wfield (0x10004 : Word) 0 3 = 4 := by decide +kernel

theorem test_CompletionMovesThePc : (base.thread? T).any (fun th => decide (th.ctl.rep = none) && decide (th.due.after = none)) = true := by decide +kernel

theorem test_TargetsAreChecked : (legal base 0x10000 && !legal base 0x10008 && !legal base 0x10005 && !legal base 0x90000 && !legal base 0x10001) = true := by
  decide +kernel

/-- A turn of the thread at a line that holds a word. -/
def turned (x : Nat) : State := { base.put (addrHbm 0 0x10000) 64 (lineOf x) with agenda := [.thread T], cur := .none }

theorem test_StepRunsDecoded : [0x80, 0x3FF].all (fun x =>
    let s1 : State := { turned x with agenda := [], cur := .thread T }
    (s1.thread? T).any fun th => canIssue s1 T th && decide (th.phase = .ready ∧ th.due = Due.none ∧ th.ctl.repBnd = false ∧ th.ctl.first = false) &&
      !abandonRefused s1 T && decide (wfield th.ctl.pc 3 3 = 0 ∧ wfield th.ctl.pc 0 3 ≤ 4 ∧ th.ctl.pc.toNat < 2 ^ 52) &&
      (tlbFind (s1.core T.core).tlb P th.ctl.pc.toNat).any (fun e => e.ex &&
        (let pa := e.pbase * 2 ^ e.log2 + th.ctl.pc.toNat % 2 ^ e.log2
         let a := addrHbm 0 (pa / 64 * 64)
         let v := lineSlot (s1.rd a 64) 0
         !s1.poisoned a 12 && !s1.poisoned (a + 60) 4 && decide (parity96 v = linePar (lineWord (s1.rd a 64)) 0) && !lineRes0 (lineWord (s1.rd a 64)) &&
           decide (v = BitVec.ofNat 96 x) && (match decode v with
             | .ok i => x == 0x80 && (secondOf (touchPlain s1 T.core pa) 0 pa th.ctl.pc (linePair (lineWord (s1.rd a 64)) 0) i).isNone
             | .bad _ => x == 0x3FF)))) = true := by decide +kernel

theorem test_StepMeetsBadLines : (let a := addrHbm 0 0x10000
    let line := fun (b : Nat) => { turned 0x80 with agenda := [], cur := .thread T }.put a 64 (lineOf 0x80 ^^^ 2 ^ b)
    let par := fun (s : State) => decide (parity96 (lineSlot (s.rd a 64) 0) = linePar (lineWord (s.rd a 64)) 0)
    [(line 496, false, false), (line 489, true, true)].all fun (s, p, r) => par s == p && lineRes0 (lineWord (s.rd a 64)) == r &&
      (s.thread? T).any fun th => canIssue s T th && !abandonRefused s T) = true := by decide +kernel

/-- Two instructions that pair, of the scalar float unit and of the integer unit. -/
def first : Instr := .fadd H 6 (.w 7) (.w 8) 0
def added : Instr := .add H (.w 3) (.w 4) (.op (.w 5)) 0 false false

/-- A line whose first two slots hold them and pair, with the thread's window resident. -/
def paired : State :=
  let s := mapThr (fun th => { th with lines := (List.range winLines).map fun i => (winLine (space3 (slotBase 0)) + i, LineSt.dirty) }) base
  let par := bit (parity96 (BitVec.ofNat 96 (encode first))) * 2 ^ 16 + bit (parity96 (BitVec.ofNat 96 (encode added))) * 2 ^ 17
  { s.put (addrHbm 0 0x10000) 64 (encode first + encode added * 2 ^ 96 + (1 + 2 ^ 5 + par) * 2 ^ 480) with agenda := [], cur := .thread T }

theorem test_StepFindsPairs : (paired.thread? T).any (fun th => canIssue paired T th && !abandonRefused paired T &&
    decide (secondOf (touchPlain paired T.core 0x10000) 0 0x10000 th.ctl.pc (linePair (lineWord (paired.rd (addrHbm 0 0x10000) 64)) 0) first =
      some added)) = true := by decide +kernel

/-- Whether a line's first instruction completes, so that the second one's turn comes, and what that turn answers. -/
def seconds (i : Instr) (s : State) : Bool × Bool :=
  match s.thread? T, exec i s with
  | some th, .next s2 => (goesOn T th s2, match runSecond T added s2 with
    | .next _ => true
    | _ => false)
  | _, _ => (false, false)

theorem test_StepRunsPairs : seconds first (touchPlain paired T.core 0x10000) = (true, true) := by decide +kernel

theorem test_StepHoldsPairs : (seconds (.fadd { H with wait := some ⟨3, 0⟩ } 6 (.w 7) (.w 8) 0)
    (touchPlain (paired.modCore loadCore fun r => { r with gcd := [⟨1, T, loadSlice, 0, [], none, 0, 0⟩] }) T.core 0x10000)).1 = false := by decide +kernel

theorem test_StepRunsCarder : (let s := placeCarder State.reset (encode .cdend)
    decide (s.agenda = [.carder die0 0]) && (tget (s.die die0).pipes 0 .reset).run.any fun r =>
      (tget (s.die die0).fslots r.slot .reset).prog[r.idx]?.any fun x => (decodeCarder x).isSome) = true := by decide +kernel

theorem test_ResultStagesFrame : now T base = true ∧ runs (wrReg 3 7) base = true ∧ runs (setGuard 0 true) base = true ∧ runs (setGuard 1 true) base = true ∧
    runs (wrV 3 5 1) base = true ∧ runs (wrM 3 5) base = true ∧ runs (raiseFlags 0) base = true ∧ runs (raiseFlags 4) base = true := by decide +kernel

theorem test_RegisterForms : issues H (w 4 7 (w 5 9 base)) (fun th s0 => holds s0 4 7 && holds s0 5 9 && decide (th.ctl.rep = none) && decide (th.due.after = none) &&
    !winPoisoned s0 T th.ctl.slice th.ctl.wsp offGuards 1 && legal s0 (slotAdd th.ctl.pc 0)) = true := by decide +kernel

theorem test_StoresGoWhereTheyPoint : issues H (w 4 7 (w 5 0x10400 base)) (fun th s0 => holds s0 4 7 && holds s0 5 0x10400 && decide (th.ctl.rep = none) &&
    decide (th.due.after = none) && (tlbFind (s0.core T.core).tlb P 0x10408).any (fun e => e.wr) && same waitConfirmed s0 &&
    decide ((s0.core T.core).storeq.length < 32)) = true := by decide +kernel

theorem test_StoreQueueWrites : (let q : StoreEnt := ⟨1, T, 0, loadSlice, 0x10000, 0x10400, 8, 5, none, 0⟩
    let s := base.modCore loadCore fun r => { r with storeq := [q] }
    [s, { s with st := { s.st with poison := [0x1040] } }].zipIdx.all fun (s, i) =>
      (s.core loadCore).storeq[0]?.any (fun q => storeReady s [] q) && (s.wr q.pa q.n q.val).poisoned q.pa q.n == (i == 1)) = true := by decide +kernel

theorem test_CompareSetsItsGuard : issues H (inData true 0x10000) (fun th s0 => okSame (rd2 H (.w 4) (.imm16 3)) s0 (fun _ => true) && now T s0 &&
    decide (th.ctl.wsp = away) && runs (setGuard 3 true) s0) = true ∧ WindowStands (chargeTurn (inData true 0x10000) T) T loadSlice away :=
  ⟨by decide +kernel, (granted_stands (by decide +kernel)).1⟩

/-- A REP whose count is w4 and whose index is w5. -/
def looping (b : Bool) : State :=
  (mapCtl (fun c => { c with rep := some ⟨0x10000, 0, 1, 4, 5, 0, 32, 0, 0⟩ }) (inData true 0x10000)).modSlice loadSlice fun r =>
    { r with abort := if b then [loadCore.cluster] else [] }

theorem test_RepBoundaryCounts : [false, true].all (fun b => ((looping b).thread? T).any fun th => th.ctl.rep.any (fun r => r.wc != r.wi &&
      !regPending (looping b) T th.ctl.wsp r.wc.val && !regPending (looping b) T th.ctl.wsp r.wi.val &&
      regPending ((looping b).modCore loadCore fun x => { x with gcd := [⟨1, T, loadSlice, th.ctl.wsp, [(r.wi.val, 5)], none, 0, 0⟩] }) T th.ctl.wsp r.wi.val) &&
    decide ((abortRaised (looping b) T th.ctl && !th.ctl.abmask) = b)) = true ∧ WindowStands (looping false) T loadSlice away :=
  ⟨by decide +kernel, (granted_stands (by decide +kernel)).1⟩

theorem test_NopAtABoundary : issues { H with eog := true } (looping false) (fun th _ => th.ctl.rep.isSome && decide (th.due.after = none)) = true := by decide +kernel

theorem test_ResetIsSound : Store.wf State.reset.st = true := by decide +kernel

/-! ### Decoding: words written out from the field tables of the spec -/

/-- The bits of a word: opcode, form (R83), and fields by their lowest bit and value (R87): O1 34, O2 42, O3 50, O4 58, O5 66; IMM16 58, IMM32 50, IMM48
and DISP40 42; CMASK 66; SHA 50, SHB 58, POS 66; Q 74, but 82 in forms 2, 4 and 5 and 90 in form 3; GD 90 (R306). -/
def bitsOf (op form : Nat) (l : List (Nat × Nat)) : IWord :=
  BitVec.ofNat 96 (op + form * 2 ^ 10 + (l.map fun p => p.2 * 2 ^ p.1).sum)

/-- Every row's word decodes to its instruction. -/
def reads (l : List (Nat × Nat × List (Nat × Nat) × Instr)) : Bool := l.all fun (op, form, f, i) => decide (decode (bitsOf op form f) = .ok i)

theorem test_decodeInteger : reads [
    (0x001, 2, [(34, 3), (42, 0x70), (50, 0xFFFFFFFE), (82, 12)], .add H (.w 3) .pn (.imm32 0xFFFFFFFE) 0 true true),
    (0x002, 0, [(34, 3), (42, 4), (50, 0xF3), (74, 1)], .sub H (.w 3) (.w 4) (.op .ones) 1 false false),
    (0x003, 0, [(34, 3), (42, 4), (50, 5), (74, 0x104)], .mul H (.w 3) (.w 4) (.op (.w 5)) 0 true false true),
    (0x004, 1, [(34, 3), (42, 4), (58, 9), (74, 6), (90, 5)], .div H 5 3 (.w 4) (.imm16 9) 2 true),
    (0x005, 0, [(34, 3), (42, 4), (50, 5), (74, 3), (90, 1)], .rem H 1 3 (.w 4) (.op (.w 5)) 3 false),
    (0x006, 0, [(34, 3), (42, 4), (50, 5)], .and H (.w 3) (.w 4) (.op (.w 5)) 0 false),
    (0x007, 1, [(34, 3), (42, 4), (58, 0xF0)], .andn H (.w 3) (.w 4) (.imm16 0xF0) 0 false),
    (0x008, 0, [(34, 3), (42, 4), (50, 0xF0)], .or H (.w 3) (.w 4) (.op .zero) 0 false),
    (0x009, 0, [(34, 3), (42, 4), (50, 5), (74, 4)], .xor H (.w 3) (.w 4) (.op (.w 5)) 0 true),
    (0x00A, 1, [(34, 3), (42, 4), (58, 255)], .shl H (.w 3) (.w 4) (.imm16 255) 0 false),
    (0x00B, 0, [(34, 3), (42, 4), (50, 5), (74, 5)], .shr H (.w 3) (.w 4) (.op (.w 5)) 1 true),
    (0x00C, 1, [(34, 3), (42, 4), (58, 8)], .rot H (.w 3) (.w 4) (.imm16 8) 0),
    (0x00D, 0, [(34, 3), (42, 4), (74, 3)], .clz H (.w 3) (.w 4) 3), (0x00E, 0, [(34, 3), (42, 4)], .ctz H (.w 3) (.w 4) 0),
    (0x00F, 0, [(34, 3), (42, 4)], .popc H (.w 3) (.w 4) 0),
    (0x010, 0, [(42, 4), (50, 5), (74, 0x24), (90, 7)], .cmp H 7 (.w 4) (.op (.w 5)) 0 true 2),
    (0x011, 0, [(34, 3), (42, 4), (50, 5)], .min H (.w 3) (.w 4) (.op (.w 5)) 0 false),
    (0x012, 0, [(34, 3), (42, 4), (50, 5)], .max H (.w 3) (.w 4) (.op (.w 5)) 0 false),
    (0x013, 1, [(34, 3), (42, 4), (58, 6), (74, 0xD00)], .sel H (.w 3) (.w 4) (.imm16 6) 5 true),
    (0x014, 1, [(34, 3), (42, 4), (58, 0xC8), (74, 4)], .ext H 3 (.w 4) (.imm16 0xC8) true),
    (0x015, 0, [(34, 3), (42, 4), (50, 5)], .ins H 3 (.w 4) (.op (.w 5))),
    (0x016, 0, [(34, 3), (42, 4), (50, 5), (74, 0x700)], .lea H (.w 3) (.w 4) (.op (.w 5)) 3 true),
    (0x017, 0, [(34, 0x43), (42, 0xF3)], .mov H (.v 3) .ones), (0x017, 0, [(34, 0x61), (42, 0x60)], .mov H (.acc 1) (.acc 0)),
    (0x018, 3, [(34, 3), (42, 0x1234), (90, 1)], .movi H 3 0x1234 true)] = true := by decide +kernel

theorem test_decodeControl : reads [
    (0x040, 4, [(42, 2 ^ 40 - 4)], .br H (2 ^ 40 - 4)), (0x041, 0, [(42, 7)], .bri H 7), (0x042, 4, [(42, 9), (82, 12)], .call H (.disp 9) 12),
    (0x042, 0, [(42, 7)], .call H (.reg 7) 0), (0x043, 0, [(42, 63), (74, 1)], .ret H 63 true), (0x044, 0, [], .reti H),
    (0x046, 1, [(42, 0xF0), (58, 5)], .trap H .zero 5), (0x047, 0, [], .exit H), (0x048, 0, [(42, 7), (74, 1)], .yield H true 7),
    (0x080, 0, [(22, 1), (23, 1), (24, 1), (25, 3), (27, 7)], .nop { H with ya := true, eog := true, wait := some ⟨3, 7⟩ }),
    (0x081, 0, [(74, 2), (90, 3)], .gset H 3 .t), (0x082, 0, [(34, 3)], .gmov H (.r 3)), (0x082, 0, [(42, 3), (74, 1)], .gmov H (.w (.w 3))),
    (0x083, 0, [(74, 0x25A), (90, 1)], .glog H 1 2 5 true false 2), (0x085, 1, [(42, 3), (58, 1)], .csrw H (.w 3) 1),
    (0x086, 0, [(34, 9), (42, 8)], .wspsw H 9 8), (0x087, 1, [(58, 0xBEEF)], .dbg H 0xBEEF),
    (0x088, 0, [(34, 3), (42, 4), (50, 5), (58, 0xF3), (90, 2)], .waitev H 2 3 4 (.w 5) .ones), (0x089, 1, [(58, 0x1555)], .ovft H (.imm16 0x1555)),
    (0x08A, 0, [(42, 4), (50, 5)], .placew H (.w 4) (.w 5)), (0x08B, 0, [(74, 1)], .abort H true), (0x08C, 0, [(90, 3)], .abchk H 3),
    (0x08D, 0, [(76, 5)], .fence H 5)] = true := by decide +kernel

theorem test_decodeFloat : reads [
    (0x0C1, 0, [(34, 3), (42, 4), (50, 5)], .fsub H 3 (.w 4) (.w 5) 0), (0x0C2, 0, [(34, 3), (42, 4), (50, 5), (74, 2)], .fmul H 3 (.w 4) (.w 5) 2),
    (0x0C3, 0, [(34, 3), (42, 4), (50, 5), (74, 3)], .fdiv H 3 (.w 4) (.w 5) 3), (0x0C5, 0, [(34, 3), (42, 4)], .fsqrt H 3 (.w 4) 0),
    (0x0C6, 0, [(34, 3), (42, 4), (50, 5)], .fmin H 3 (.w 4) (.w 5) 0), (0x0C7, 0, [(34, 3), (42, 4), (50, 5)], .fmax H 3 (.w 4) (.w 5) 0),
    (0x0C8, 0, [(42, 4), (50, 5), (74, 0x19), (90, 4)], .fcmp H 4 (.w 4) (.w 5) 1 6), (0x0C9, 0, [(34, 3), (42, 4), (74, 1)], .fclass H 3 (.w 4) 1),
    (0x0CA, 0, [(34, 3), (42, 4), (74, 0x64)], .fcvt H 3 (.w 4) 4 6), (0x0CB, 0, [(34, 3), (42, 4), (50, 5), (74, 13)], .fsgn H 3 (.w 4) (.w 5) 3 1),
    (0x0CC, 0, [(34, 3), (42, 4), (50, 5), (74, 4)], .qmake H 3 (.w 4) (.w 5) true), (0x0CD, 0, [(34, 3), (42, 4)], .qnum H 3 (.w 4)),
    (0x0CE, 0, [(34, 3), (42, 4)], .qden H 3 (.w 4)), (0x0CF, 0, [(34, 3), (42, 4), (50, 5), (90, 2)], .qcf H 2 3 4 (.w 5))] = true := by decide +kernel

theorem test_decodeMemory : reads [
    (0x100, 1, [(30, 4), (34, 3), (42, 4), (58, 16), (74, 0xAD)], .ld { H with hint := 4 } 3 (.w 4) (.imm16 16) 1 3 1 true),
    (0x101, 2, [(34, 0xF0), (42, 4), (50, 0x80000000), (82, 0x4E)], .st H .zero (.w 4) (.imm32 0x80000000) 2 3 2),
    (0x102, 0, [(42, 4), (50, 5)], .pf H (.w 4) (.op (.w 5))),
    (0x140, 0, [(34, 3), (42, 4), (50, 5), (74, 0x2E0)], .lds H 3 (.w 4) (.op (.w 5)) 0 0 3 true 2),
    (0x141, 1, [(34, 3), (42, 4), (58, 8), (74, 0x100)], .sts H (.w 3) (.w 4) (.imm16 8) 0 0 0 true),
    (0x142, 1, [(34, 3), (42, 4), (58, 64)], .feqry H 3 4 64), (0x143, 0, [(42, 4), (50, 5), (74, 1)], .feset H 4 5 true),
    (0x180, 0, [(34, 3), (42, 4), (50, 5), (74, 0x480)], .atom H 3 4 (.w 5) 0 0 4 false true),
    (0x181, 0, [(34, 3), (42, 4), (50, 5), (58, 6), (74, 0x20B), (90, 1)], .cas H 1 3 4 (.w 5) (.w 6) 3 2 true)] = true := by decide +kernel

theorem test_decodeTiles : reads [
    (0x1C0, 1, [(34, 3), (58, 12), (90, 1)], .nalloc H 1 3 (.imm16 12)),
    (0x1C1, 0, [(34, 3), (42, 4), (50, 5), (58, 6), (74, 0x8C)], .nst H true 3 4 (.w 5) (.op (.w 6)) 4 1),
    (0x1C2, 0, [(34, 3), (42, 4), (50, 0x81), (74, 0x382)], .nld H 3 4 (.cb 1) 2 true true true), (0x1C2, 0, [(34, 3), (42, 4), (50, 0x45)], .nld H 3 4 (.v 5) 0 false false false),
    (0x1C3, 0, [(42, 4), (90, 1)], .nrel H 1 4), (0x1C4, 0, [(42, 4), (90, 2)], .ndrop H 2 4), (0x1C5, 0, [(34, 3), (42, 4)], .nqry H 3 4),
    (0x1C6, 5, [(34, 3), (42, 4), (50, 5), (58, 6), (82, 0x4B)], .nred H 3 4 (.w 5) 6 3 9), (0x1C7, 5, [(34, 3), (42, 4), (50, 0x81), (58, 6), (82, 0x100)], .nsub H 3 4 1 6 false true 0 0),
    (0x1C7, 5, [(34, 3), (42, 4), (50, 0x8F), (58, 6), (82, 0x411)], .nsub H 3 4 15 6 true false 1 2),
    (0x1C8, 0, [(42, 4), (90, 1)], .naband H 1 4), (0x1C9, 0, [(42, 4), (90, 1)], .nconf H 1 4), (0x1CA, 0, [(42, 4), (90, 1)], .nrevoke H 1 4)] = true := by decide +kernel

theorem test_decodeTasks : reads [
    (0x200, 0, [(42, 4), (50, 5), (58, 0xF0), (90, 1)], .fork H 1 (.w 4) (.w 5) .zero), (0x201, 0, [(34, 3), (42, 4), (90, 1)], .join H 1 3 4),
    (0x202, 0, [(34, 3), (42, 4), (74, 1), (90, 1)], .launch H 1 3 4 true), (0x203, 5, [(34, 3)], .hinit H 3), (0x204, 0, [(34, 3), (42, 4), (90, 1)], .htest H 1 3 4),
    (0x205, 0, [(42, 4), (90, 1)], .hwait H 1 4), (0x206, 0, [(42, 4), (90, 1)], .hcancel H 1 4), (0x207, 0, [(42, 4), (50, 5), (74, 1), (90, 1)], .hresolve H 1 4 (.w 5) true),
    (0x240, 5, [(34, 3), (42, 4), (50, 5), (58, 6), (66, 0x81), (82, 1)], .cpy H 3 4 5 6 0x81 true false),
    (0x241, 5, [(34, 3), (42, 4), (50, 5), (58, 6), (82, 0x26)], .cpyr H 3 4 5 6 false true ⟨9, 0⟩), (0x241, 5, [(34, 3), (42, 4), (50, 5), (58, 6), (66, 0x81), (82, 0x26)],
      .cpyr H 3 4 5 6 false true ⟨9, 0x81⟩), (0x242, 0, [(74, 3)], .bar H 3),
    (0x243, 0, [(42, 4), (74, 1)], .barset H 1 (some 4)), (0x243, 0, [(74, 6)], .barset H 2 none), (0x244, 0, [(42, 4), (50, 5)], .boinit H 4 (some (.w 5))),
    (0x244, 0, [(42, 4), (74, 1)], .boinit H 4 none), (0x245, 1, [(42, 4), (58, 64)], .boarr H 4 (.imm16 64)), (0x246, 0, [(42, 4), (90, 1)], .bowait H 1 4),
    (0x247, 1, [(34, 0x81), (42, 4), (58, 8)], .cbset H 1 (some (4, 8))), (0x247, 1, [(34, 0x81), (74, 1)], .cbset H 1 none),
    (0x248, 1, [(34, 0x81), (58, 2), (74, 1)], .adv H 1 (.imm16 2) true)] = true := by decide +kernel

theorem test_decodeVector : reads [
    (0x280, 0, [(34, 0x43), (42, 0x44), (74, 0x21)], .vabs H 3 (.v 4) m0 true true), (0x281, 0, [(34, 0x43), (42, 0x44), (50, 0x45), (74, 0x13)], .vadd H 3 (.v 4) (.op (.v 5)) m1 true false),
    (0x282, 1, [(34, 0x43), (42, 0x44), (58, 9)], .vand H 3 (.v 4) (.imm16 9) m0), (0x283, 0, [(34, 0x43), (42, 4), (74, 0x200)], .vbcast H 3 (.op (.w 4)) m0 1),
    (0x284, 0, [(34, 0x65), (42, 0x44), (50, 0x45), (74, 0x60)], .vcmp H 1 (.v 4) (.op (.v 5)) m0 false 3), (0x285, 0, [(34, 0x43), (42, 0x44)], .vexp H 3 (.v 4) m0),
    (0x286, 0, [(34, 0x43), (42, 0x44), (50, 0x45), (58, 0xF0), (74, 0x12)], .vfma H 3 (.v 4) (.v 5) .zero m1 false false), (0x287, 0, [(34, 0x43), (42, 0x44)], .vlog H 3 (.v 4) m0),
    (0x288, 0, [(34, 0x43), (42, 0x44), (50, 0xF2)], .vmax H 3 (.v 4) (.op .lane) m0 false), (0x289, 0, [(34, 3), (42, 0x44), (74, 1)], .vmaxr H 3 4 m0 true),
    (0x28A, 0, [(34, 0x43), (42, 0x44), (50, 0x45)], .vmin H 3 (.v 4) (.op (.v 5)) m0 false), (0x28B, 0, [(34, 0x43), (42, 0x44), (50, 0x45)], .vmul H 3 (.v 4) (.op (.v 5)) m0 false false),
    (0x28C, 0, [(34, 0x43), (42, 0x44)], .vneg H 3 (.v 4) m0 false false), (0x28D, 0, [(34, 0x43), (42, 0x44), (50, 0x45)], .vor H 3 (.v 4) (.op (.v 5)) m0),
    (0x28E, 0, [(34, 0x43), (42, 0x44), (50, 0x45)], .vperm H 3 (.v 4) (.v 5) m0), (0x28F, 0, [(34, 0x43), (42, 0x44)], .vrcp H 3 (.v 4) m0),
    (0x290, 0, [(34, 0x43), (42, 0x44)], .vrsq H 3 (.v 4) m0), (0x291, 0, [(34, 0x43), (42, 0x44), (50, 0x45), (58, 0x66)], .vsel H 3 (.v 4) (.v 5) 2),
    (0x292, 1, [(34, 0x43), (42, 0x44), (58, 4)], .vshl H 3 (.v 4) (.imm16 4) m0 false), (0x293, 0, [(34, 0x43), (42, 0x44), (50, 0x45), (74, 1)], .vshr H 3 (.v 4) (.op (.v 5)) m0 true),
    (0x294, 0, [(34, 0x43), (42, 0x44), (50, 0x45), (74, 0x20)], .vsub H 3 (.v 4) (.op (.v 5)) m0 false true), (0x295, 0, [(34, 3), (42, 0x44)], .vsum H 3 4 m0 false),
    (0x296, 0, [(34, 0x43), (42, 0x44), (50, 0x45)], .vxor H 3 (.v 4) (.op (.v 5)) m0),
    (0x2C0, 6, [(34, 0x43), (50, 4), (66, 5), (74, 0x1C000)], .vld H 3 4 5 m0 7), (0x2C1, 6, [(34, 0x43), (50, 4), (66, 5), (74, 0x12)], .vst H 3 4 5 m1 0),
    (0x2C0, 0, [(34, 0x43), (42, 4), (50, 5), (74, 0x2200)], .vldContiguous H 3 (.w 4) (.op (.w 5)) m0 1 true),
    (0x2C1, 1, [(34, 0x43), (42, 4), (58, 16)], .vstContiguous H 3 (.w 4) (.imm16 16) m0 false),
    (0x2C2, 6, [(34, 0x43), (42, 0x46), (50, 4), (66, 0xF0)], .vgath H 3 6 4 m0), (0x2C3, 6, [(34, 0x43), (42, 0x46), (50, 4), (66, 0xF0), (74, 0x12)], .vscat H 3 6 4 m1),
    (0x2C4, 0, [(34, 0x43), (42, 0x44), (50, 5), (74, 0xE61)], .vcvt H 3 4 (.w 5) m0 true 7 3), (0x2C5, 0, [(42, 4)], .vcb H 4)] = true := by decide +kernel

theorem test_decodeMatrixAndAttention : reads [
    (0x300, 6, [(34, 0x60), (50, 10), (58, 11), (66, 0xF0), (74, 64)], .mma H 0 (.shape 10 11) 64 false false),
    (0x300, 0, [(34, 0x62), (42, 0x81), (50, 0x82), (74, 128 + 4 * 2 ^ 9 + 5 * 2 ^ 13)], .mma H 2 (.cbs 1 2 4 5) 128 false false),
    (0x301, 0, [(34, 0x61), (74, 1)], .mzero H 1 true), (0x302, 0, [(34, 0x43), (42, 0x61), (50, 5), (74, 1)], .mrd H (.reg 3 1 5) true),
    (0x302, 0, [(42, 5), (50, 0x61), (74, 2)], .mrd H (.mem 5 1) false), (0x303, 0, [(42, 5), (50, 0x61)], .mst H 5 1), (0x304, 0, [(34, 0x61), (42, 5), (74, 1)], .mld H 1 5 true),
    (0x305, 0, [(42, 5), (50, 0x61), (58, 6), (74, 0x17)], .mcvt H 5 1 6 7 true), (0x306, 0, [(42, 5), (74, 1)], .mcb H 5 true),
    (0x340, 0, [(34, 3), (42, 4), (50, 5), (90, 1)], .kvmap H 1 3 (.w 4) (.w 5)), (0x341, 0, [(34, 3), (42, 4), (50, 5), (90, 1)], .kvext H 1 3 (.w 4) (.w 5)),
    (0x342, 0, [(34, 3), (42, 4), (50, 5), (90, 1)], .kvtrunc H 1 3 (.w 4) (.w 5)), (0x343, 0, [(34, 3), (42, 8), (50, 9), (58, 10), (90, 2)], .kvmatch H 2 3 (.w 8) (.w 9) (.w 10)),
    (0x344, 0, [(34, 4), (42, 8), (50, 9), (58, 10), (66, 11), (90, 1)], .pxlook H 1 4 (.w 8) (.w 9) (.w 10) (.w 11)), (0x345, 0, [(34, 4), (42, 8), (90, 1)], .pxins H 1 4 (.w 8)),
    (0x346, 5, [(34, 3), (42, 4), (50, 5), (58, 6)], .plan H 3 4 5 6), (0x347, 0, [(34, 0x44), (42, 0x40), (50, 0x42)], .smxm H 4 0 2),
    (0x348, 0, [(34, 0x45), (42, 0x42), (90, 1)], .smxf H 1 5 2), (0x349, 0, [(34, 0x43), (42, 4), (50, 5), (74, 1)], .rng H 3 4 5 true)] = true := by decide +kernel

/-- Carder words: those of the spec's listings, and the opcodes of R279 with the fields of R278. -/
theorem test_decodeCarder : ([(0x0C402003, Instr.cdlde 1 3), (0x08800001, .cdli 2 1), (0x40848009, .cdbf 2 1 2 9), (0x40CD0006, .cdbf 3 3 4 6), (0x314C2005, .cdshrImm 5 3 5),
    (0x44140000, .cdhist 0 5), (0x540C0040, .cdtrig 1 3), (0x00000000, .cdend),
    (0x01 * 2 ^ 26 + 3 * 2 ^ 22 + 4 * 2 ^ 18, .cdmov 3 4), (0x04 * 2 ^ 26 + 3 * 2 ^ 22 + 4 * 2 ^ 18 + 0xFF * 2 ^ 6, .cdlds 3 0xFF 4),
    (0x05 * 2 ^ 26 + 4 * 2 ^ 18 + 5 * 2 ^ 14 + 6 * 2 ^ 6, .cdsts 6 4 5), (0x12 * 2 ^ 26 + 3 * 2 ^ 22 + 4 * 2 ^ 18 + 6 * 2 ^ 6, .cdcms 3 6 4),
    (0x13 * 2 ^ 26 + 4 * 2 ^ 18 + 6 * 2 ^ 6, .cdhll 6 4), (0x14 * 2 ^ 26 + 4 * 2 ^ 18 + 5 * 2 ^ 14 + 6 * 2 ^ 6, .cdemit 6 4 5), (0x16 * 2 ^ 26, .cddrop)].all fun p =>
    decide (decodeCarder (BitVec.ofNat 32 p.1) = some p.2)) = true ∧
  ([(0x06, Instr.cdadd 3 4 5, Instr.cdaddImm 3 4 5), (0x07, .cdsub 3 4 5, .cdsubImm 3 4 5), (0x08, .cdand 3 4 5, .cdandImm 3 4 5), (0x09, .cdor 3 4 5, .cdorImm 3 4 5),
    (0x0A, .cdxor 3 4 5, .cdxorImm 3 4 5), (0x0B, .cdshl 3 4 5, .cdshlImm 3 4 5), (0x0C, .cdshr 3 4 5, .cdshrImm 3 4 5), (0x0D, .cdmin 3 4 5, .cdminImm 3 4 5),
    (0x0E, .cdmax 3 4 5, .cdmaxImm 3 4 5), (0x0F, .cdhash 3 4 5, .cdhashImm 3 4 5)].all fun p =>
    decide (decodeCarder (BitVec.ofNat 32 (p.1 * 2 ^ 26 + 3 * 2 ^ 22 + 4 * 2 ^ 18 + 5 * 2 ^ 14)) = some p.2.1 ∧
      decodeCarder (BitVec.ofNat 32 (p.1 * 2 ^ 26 + 3 * 2 ^ 22 + 4 * 2 ^ 18 + 2 ^ 13 + 5)) = some p.2.2)) = true := by decide +kernel

/-! ### Words and terms that the checks refuse (R102) -/

theorem test_refusedWords : decode 0 = .bad (.opcode 0) ∧ decode (bitsOf 0x380 0 []) = .bad (.opcode 0x380) ∧ decode (bitsOf 0x080 7 []) = .bad (.form 0x080 7) ∧
    decode (bitsOf 0x080 1 []) = .bad (.form 0x080 1) ∧ decode (bitsOf 0x080 0 [(34, 1)]) = .bad (.fields 0x080 0) ∧ decode (bitsOf 0x00A 1 [(58, 256)]) = .bad (.fields 0x00A 1) ∧
    decode (bitsOf 0x080 0 [(25, 1)]) = .bad (.fields 0x080 0) ∧ decodeCarder 0x5C000000 = none ∧ decodeCarder 0x00000001 = none ∧ decodeCarder 0x40000000 = none := by
  decide +kernel

/-- One ill-formed term for each check. -/
theorem test_illFormedTerms : ([Instr.add H (.v 1) (.w 4) (.op (.w 5)) 0 false false, .add H (.w 3) .lane (.op (.w 5)) 0 false false, .add H (.w 3) (.w 4) (.op (.m 1)) 0 false false,
    .mul H (.w 3) (.w 4) (.op (.w 5)) 0 false true true, .shl H (.w 3) (.w 4) (.imm16 256) 0 false, .rot H (.w 3) (.w 4) (.imm32 1) 0, .cmp H 1 (.w 4) (.op (.w 5)) 0 false 8,
    .cmp H 1 (.w 4) (.op (.w 5)) 0 true 0, .sel H (.w 3) (.w 4) (.imm32 1) 1 false, .ext H 3 (.w 4) (.imm16 0x1000) false, .ext H 3 (.w 4) (.imm16 0xFFF) false, .ins H 3 (.w 4) (.op .zero),
    .mov H (.v 3) (.w 4), .mov H (.acc 0) .zero, .call H (.reg 3) 11, .call H (.reg 3) 145, .rep H 4 4 0 0 0 0, .rep H 4 5 31 1 0 0, .trap H .ones 5, .trap H .zero 13,
    .csrw H (.w 3) 2, .csrw H .pn 1, .waitev H 1 3 4 (.w 5) .tid, .xfence H 6 1 1, .xfence H 0 0 1, .xfence H 0 1 0, .fadd H 3 (.v 4) (.w 5) 0, .fcmp H 1 (.w 4) (.w 5) 0 8,
    .fcvt H 3 (.w 4) 7 0, .fcvt H 3 (.w 4) 2 2, .fcvt H 3 (.w 4) 4 5, .fsgn H 3 (.w 4) (.w 5) 1 0, .qcf H 1 3 3 (.w 4), .ld H 3 (.w 4) (.imm16 0) 2 0 0 false,
    .ld H 3 (.w 4) (.imm16 0) 1 6 0 false, .ld H 3 (.w 4) (.imm16 0) 0 1 0 false, .st H .tid (.w 4) (.imm16 0) 0 0 0, .st H (.w 3) (.w 4) (.imm16 0) 1 0 0,
    .lds H 3 (.w 4) (.imm16 0) 0 0 0 false 3, .feqry H 3 4 0, .feqry H 3 4 65, .atom H 3 4 (.w 5) 0 0 10 false false, .atom H 3 4 (.w 5) 0 0 0 false true, .cas H 1 3 4 (.v 5) (.w 6) 0 0 false,
    .nst H false 3 4 (.w 5) (.imm16 1) 0 1, .nst H true 3 4 (.w 5) (.imm16 0) 0 1, .nst H true 3 4 (.w 5) (.imm16 1) 5 1, .nst H true 3 4 (.w 5) (.imm16 1) 0 0, .nld H 3 4 (.v 1) 1 false false false,
    .nred H 3 4 (.w 5) 6 0 12, .nsub H 3 4 1 6 true true 0 1, .nsub H 3 4 1 6 false false 1 0, .fork H 1 (.v 4) (.w 5) .zero, .hjoin H 1 (.w 4) (.w 5) .zero 6 .ones,
    .vabs H 3 (.v 4) m0 false true, .vadd H 3 .zero (.op .ones) m0 false false, .vadd H 3 (.w 4) (.op (.v 5)) m0 false false, .vbcast H 3 (.op (.w 4)) m0 0, .vcmp H 1 (.v 4) (.op (.v 5)) m0 false 8,
    .vshl H 3 (.v 4) (.imm16 256) m0 false, .vldContiguous H 3 (.w 4) (.imm16 0) m0 12 false, .vcvt H 3 4 .ones m0 false 1 0, .vcvt H 3 4 .zero m0 false 6 0,
    .mma H 0 (.cbs 1 2 2 2) 8 true false, .mcvt H 5 1 6 6 false, .mcvt H 5 1 6 1 true, .kvmap H 1 3 (.v 4) (.w 5), .pxlook H 1 3 (.w 4) (.w 5) (.w 6) (.w 7), .pxins H 1 62 (.w 4),
    .cdbf 7 1 2 3, .cdbf 1 1 2 0, .cdbf 0 1 2 3, .add { H with hint := 1 } (.w 3) (.w 4) (.op (.w 5)) 0 false false, .pf { H with hint := 5 } (.w 4) (.imm16 0),
    .add { H with cbf := 1 } (.w 3) (.w 4) (.op (.w 5)) 0 false false].all fun i => !i.wellFormed) = true ∧
  (Instr.add { H with cbf := 1 } (.w 3) (.cb 4) (.op (.w 5)) 0 false false).wellFormed = true ∧ (Instr.pf { H with hint := 4 } (.w 4) (.imm16 0)).wellFormed = true := by decide +kernel

end Sys2Proof.Tests
end

section
/-!
The state after package reset: what each unit's record is there, and what the storage reads as.
-/
namespace Sys2Proof.Machine

/-! ### Every unit of the reset state stands as its own reset record does -/

@[simp] theorem tget_nil {κ ν : Type} [DecidableEq κ] (k : κ) (d : ν) : tget ([] : Tab κ ν) k d = d := rfl

@[simp] theorem State.reset_core (c : CoreId) : State.reset.core c = CoreRec.reset := tget_nil _ _
@[simp] theorem State.reset_part (p : PartId) : State.reset.part p = PartRec.reset := tget_nil _ _
@[simp] theorem State.reset_quad (q : QuadId) : State.reset.quad q = QuadRec.reset := tget_nil _ _
@[simp] theorem State.reset_die (d : DieId) : State.reset.die d = DieRec.reset := tget_nil _ _

/-! ### What the reset records hold, and the storage -/

/-- R51: no entry of the place table is listed after reset, so each reads 0, whose V is 0. -/
theorem CoreRec.reset_place_entry (n : Nat) : tget CoreRec.reset.place n 0 = 0 := tget_nil _ _

/-- R277: no filter slot is listed after die reset, so each is the slot that is not valid. -/
theorem DieRec.reset_fslot_invalid (n : Nat) : (tget DieRec.reset.fslots n .reset).v = false := congrArg FSlot.v (tget_nil _ _)

/-- Storage that lists no byte reads 0 everywhere (the model's choice, log entry 2). -/
theorem State.rd_of_mem_nil {s : State} (h : s.st.mem = []) (a : Addr) (n : Nat) : s.rd a n = 0 := by
  have hout : ∀ c ∈ s.st.mem, c.1 < a ∨ a + n ≤ c.1 := by simp [h]
  exact memRead_outside hout

/-- With no byte and no granule listed, every list of the storage rises. -/
theorem State.reset_sound : State.reset.sound := by
  simp [State.sound, Store.wf, Memory.wf, risingFrom, risingNat, State.reset]

/-- Settles O59: each unit's record is its reset record, whose fields are those listed. That PLACEBASE, the watchpoints' addresses and
ptroot are 0 is the model's choice (log entry 4), that satp is 0 is presumed (log entry 120), and that memory reads 0 is log entry 2. -/
theorem resetLeaves : Obligations.ResetLeaves := by
  unfold Obligations.ResetLeaves
  simp only [State.reset_core, State.reset_part, State.reset_quad, State.reset_die]
  refine ⟨State.reset_sound, rfl, rfl, rfl, rfl, ?cores, ?partitions, ?quadrants, ?slots, ?memory⟩
  case cores => exact fun _ => ⟨rfl, CoreRec.reset_place_entry, rfl, rfl⟩
  case partitions => exact fun _ => ⟨rfl, rfl, rfl, rfl, rfl, rfl, rfl, rfl⟩
  case quadrants => exact fun _ => ⟨rfl, rfl, rfl, rfl⟩
  case slots => exact fun _ => DieRec.reset_fslot_invalid
  case memory => exact State.rd_of_mem_nil rfl

end Sys2Proof.Machine
end

section
/-!
The steps of power: a core's way into gating and out of it (R76), the clock of a Boost partition (R25), and what heat does to a package
(R305).
-/
namespace Sys2Proof.Machine

/-! ### Power gating: one equation per act of entry, and the two wakes -/

section Gating
variable {s : State} {c : CoreId}

theorem exec_powerGateEntry (c : CoreId) (s : State) : exec (.powerGateEntry c) s = execPowerGateEntry c s := rfl
theorem exec_powerGateWake (c : CoreId) (s : State) : exec (.powerGateWake c) s = execPowerGateWake c s := rfl

/-- Log entry 90: either cause alone abandons entry. -/
theorem powerGateEntry_abandons (hup : (s.core c).gated = false) (hstay : mayGate s c = false ∨ wakeDue s c = true) :
    exec (.powerGateEntry c) s = .next (abandonGating c s) := by
  rw [exec_powerGateEntry, execPowerGateEntry]
  cases hstay with
  | inl hmay => simp [hup, hmay]
  | inr hwake => simp [hup, hwake]

/-- Log entry 90: while a line is dirty, an act writes that one line back. -/
theorem powerGateEntry_writesBack {t : ThreadId} {th : Thread} {line : Nat} {a : Addr} (hup : (s.core c).gated = false)
    (hmay : mayGate s c = true) (hwake : wakeDue s c = false) (hdirty : nextUnsaved s c = some (t, th, line))
    (hhome : lineHome (s.modCore c fun r => { r with gating := true, commit := none }) t th line .wr = .ok a) :
    exec (.powerGateEntry c) s = .next
      (let w := s.modCore c fun r => { r with gating := true, commit := none }
       setLine t line (.clean (w.rd (addrWindow t (lineAddr line)) 64)) (moveLine w a (addrWindow t (lineAddr line)))) := by
  simp only [exec_powerGateEntry, execPowerGateEntry, hup, hmay, hwake, hdirty, hhome, Bool.not_true, Bool.or_false, Bool.false_eq_true, if_false]

/-- Log entry 90: with every line saved, the first act opens the commit window. -/
theorem powerGateEntry_opensWindow (hup : (s.core c).gated = false) (hmay : mayGate s c = true) (hwake : wakeDue s c = false)
    (hnext : nextUnsaved s c = none) (hsaved : anyUnsaved s c = false) (hshut : (s.core c).commit = none) :
    exec (.powerGateEntry c) s = .next (s.modCore c fun r => { r with gating := true, commit := some s.ac }) := by
  simp [exec_powerGateEntry, execPowerGateEntry, hup, hmay, hwake, hnext, hsaved, hshut]

/-- R76: the core gates two ac after the window opened; a gating core counts in its partition's half (log entry 92). -/
theorem powerGateEntry_gates {e : Nat} (hup : (s.core c).gated = false) (hmay : mayGate s c = true) (hwake : wakeDue s c = false)
    (hnext : nextUnsaved s c = none) (hsaved : anyUnsaved s c = false) (hopen : (s.core c).commit = some e) (hdue : e + 2 ≤ s.ac) :
    exec (.powerGateEntry c) s = .next (noteHalf (corePart s c) ((loseLines c s).modCore c fun r =>
      { r with gated := true, gating := false, commit := none, l1 := [], tlb := [], operandBuf := [], ext := [], place := [] })) := by
  have hpast : ¬ s.ac < e + 2 := Nat.not_lt.mpr hdue
  simp [exec_powerGateEntry, execPowerGateEntry, hup, hmay, hwake, hnext, hsaved, hopen, hpast]

/-- R51, R76: a gated core comes back with the place table that its image gives (log entry 91), and counts in the half again (log
entry 92). -/
theorem powerGateWake_ends (hwake : wakeDue s c = true) (hgated : (s.core c).gated = true) :
    exec (.powerGateWake c) s = .next (noteHalf (corePart s c) (({ s with free := s.free + 192 } : State).modCore c fun r =>
      { r with gated := false, quietSince := s.ac, place := placeImage s c })) := by
  simp [exec_powerGateWake, execPowerGateWake, hwake, hgated]

/-- R76: a core that is not gated stays up, and its quiet time begins again. -/
theorem powerGateWake_abandons (hwake : wakeDue s c = true) (hup : (s.core c).gated = false) :
    exec (.powerGateWake c) s = .next (s.modCore c fun r => { r with gating := false, commit := none, quietSince := s.ac }) := by
  simp [exec_powerGateWake, execPowerGateWake, hwake, hup]

end Gating

/-! ### The two clocks of a Boost partition -/

section Boost
variable {s : State} {p : PartId}

theorem exec_boostClockDown (p : PartId) (s : State) : exec (.boostClockDown p) s = execBoostClockDown p s := rfl
theorem exec_boostClockRestore (p : PartId) (s : State) : exec (.boostClockRestore p) s = execBoostClockRestore p s := rfl

/-- R25: above half of the cores active, the clock goes down. -/
theorem boostClockDown_changes (hboost : isBoost s p = true) (hhigh : (s.part p).clockLow = false) (hover : overHalf s p = true) :
    exec (.boostClockDown p) s = .next (changeClock p true s) := by
  rw [exec_boostClockDown, execBoostClockDown, if_pos ⟨hboost, hhigh, hover⟩]

/-- R25: at half or below for 100 microseconds, the clock comes back. -/
theorem boostClockRestore_changes {since : Nat} (hboost : isBoost s p = true) (hlow : (s.part p).clockLow = true)
    (hhalf : overHalf s p = false) (hsince : (s.part p).halfSince = some since) (hdue : since + 100000 ≤ s.dtime.toNat) :
    exec (.boostClockRestore p) s = .next (changeClock p false s) := by
  simp only [exec_boostClockRestore, execBoostClockRestore, hsince]
  rw [if_pos ⟨hboost, hlow, hhalf, hdue⟩]

end Boost

/-! ### Throttling and the overtemperature shutdown -/

theorem exec_throttleStart (pkg : Nat) (s : State) :
    exec (.throttleStart pkg) s = .next (s.modPkg pkg fun r => { r with throttled := true }) := rfl
theorem exec_throttleEnd (pkg : Nat) (s : State) :
    exec (.throttleEnd pkg) s = .next (s.modPkg pkg fun r => { r with throttled := false }) := rfl

/-- R303, R305: the shutdown is the last step of the watchdog's ladder, the host told first. -/
theorem exec_overtempShutdown (pkg : Nat) (s : State) : exec (.overtempShutdown pkg) s = .next (ladderReset pkg s) := rfl

/-- Settles O22: each clause is the equation of its step where the step is enabled. The acts of entry and their order are deduced (log
entry 90), the form of the image that a wake reloads is presumed (log entry 91), and when the active count is noted is the model's
choice (log entry 92). -/
theorem powerEventsTakeEffect : Obligations.PowerEventsTakeEffect := by
  unfold Obligations.PowerEventsTakeEffect
  intro s t th c p line a e since pkg
  refine ⟨fun hup => ⟨?abandoned, fun hmay hwake => ⟨?writeBack, fun hnext hsaved => ⟨?window, ?gated⟩⟩⟩, fun hwake => ⟨?wakes, ?staysUp⟩,
    ?clockDown, ?clockRestored, exec_throttleStart pkg s, exec_throttleEnd pkg s, exec_overtempShutdown pkg s⟩
  case abandoned => exact powerGateEntry_abandons hup
  case writeBack => exact powerGateEntry_writesBack hup hmay hwake
  case window => exact powerGateEntry_opensWindow hup hmay hwake hnext hsaved
  case gated => exact powerGateEntry_gates hup hmay hwake hnext hsaved
  case wakes => exact powerGateWake_ends hwake
  case staysUp => exact powerGateWake_abandons hwake
  case clockDown => exact boostClockDown_changes
  case clockRestored => exact boostClockRestore_changes

end Sys2Proof.Machine
end

section
/-!
What a write to a register, a guard, a vector register, a mask or the flags leaves (R42, R92, R122, R306), and what a REP's iteration
boundary makes of its count and its index (R221).
-/
namespace Sys2Proof.Machine

/-! ### Where the bytes of a register stand -/

theorem offMarks_inLine : inLine offMarks 8 := by decide

theorem offW_inLine (n : Reg) : inLine (offW n.val) 8 := by
  unfold inLine offW
  omega

/-- The general registers stand below the handle marks (R92, R93). -/
theorem offW_below_marks (n : Reg) : offW n.val + 8 ≤ offMarks := by
  have hmarks : offMarks = 0x208 := rfl
  unfold offW
  omega

theorem winRange_inLine {off n : Nat} (h : inLine off n) (s : State) (t : ThreadId) (c : Ctl) :
    winRange s t c off n = [(winByte s t c.slice c.wsp off, n)] := by
  obtain ⟨hpos, hline, _⟩ := h
  rw [winRange, linePieces_one hline hpos, List.map_singleton]

theorem winRange_wk {s s1 : State} (hw : s1.wk = s.wk) (t : ThreadId) (c : Ctl) (off n : Nat) :
    winRange s1 t c off n = winRange s t c off n := by
  simp only [winRange, winByte_wk (congrArg Work.slices hw)]

/-! ### A general register -/

section Registers
variable {s : State} {t : ThreadId} {th : Thread}

theorem Runs.wrReg (hc : s.cur = .thread t) (ht : s.thread? t = some th) (n : Reg) (v : Word) :
    Runs (wrReg n v) s () (setPlain s t th.ctl n.val v.toNat) := by
  obtain ⟨hc1, ht1⟩ := (threadWrite_only (s := s) rfl t th.ctl (offW n.val) 8 v.toNat (by omega)).acts hc ht
  refine Runs.bind (Runs.wrWin hc ht _ _ _) ?_
  have hmark := Runs.setMark hc1 ht1 n.val false
  unfold setPlain
  cases hb : (threadRead (threadWrite s t th.ctl th.ctl.wsp (offW n.val) 8 v.toNat) t th.ctl th.ctl.wsp offMarks 8).testBit n.val
  · simpa only [hb, if_true, Bool.false_eq_true, if_false] using hmark
  · simpa only [hb, Bool.true_eq_false, if_true, if_false] using hmark

/-- A register that takes a plain value changes its own bytes and those of the marks. -/
theorem setPlain_bytes (hc : s.cur = .thread t) (ht : s.thread? t = some th) (n : Reg) (v : Word) :
    bytesKept [(winByte s t th.ctl.slice th.ctl.wsp (offW n.val), 8), (winByte s t th.ctl.slice th.ctl.wsp offMarks, 8)] s
      (setPlain s t th.ctl n.val v.toNat) := by
  obtain ⟨s', hrun, honly⟩ := wrReg_only hc ht n v
  obtain rfl := (hrun.unique (Runs.wrReg hc ht n v)).2
  have hbytes := honly.bytes
  rwa [winRange_inLine (offW_inLine n), winRange_inLine offMarks_inLine] at hbytes

/-- Bytes of the window apart from the register and from the marks stand. -/
theorem setPlain_other {c : Ctl} (hs : WindowStands s t c.slice c.wsp) (n : Reg) (v : Nat) {o k : Nat} (hl : inLine o k)
    (hreg : o + k ≤ offW n.val ∨ offW n.val + 8 ≤ o) (hmarks : o + k ≤ offMarks ∨ offMarks + 8 ≤ o) :
    threadRead (setPlain s t c n.val v) t c c.wsp o k = threadRead s t c c.wsp o k := by
  have hvalue : threadRead (threadWrite s t c c.wsp (offW n.val) 8 v) t c c.wsp o k = threadRead s t c c.wsp o k :=
    threadRead_other rfl hs hs (absurd rfl) v (by omega) (offW_inLine n).2.2 hl (.inr hreg.symm)
  unfold setPlain
  simp only
  split
  · exact (threadRead_other (congrArg Work.slices (threadWrite_wk _ _ _ _ _ _ _)) hs hs (absurd rfl) _ (by omega) offMarks_inLine.2.2 hl
      (.inr hmarks.symm)).trans hvalue
  · exact hvalue

end Registers

/-- Settles O31: the state after the write is the one in which the register took a plain value. -/
theorem registerWritesStand : Obligations.RegisterWritesStand := by
  unfold Obligations.RegisterWritesStand
  intro t th s n v hc ht hs
  obtain ⟨hsame, hothers, hmarks⟩ := setPlain_reads (s := s) rfl hs n v.toNat
  refine ⟨_, Runs.wrReg hc ht n v, setPlain_kept _ _ _ _ _, setPlain_wk _ _ _ _ _, hsame.trans (mod_toNat v), hothers, hmarks, ?_,
    setPlain_bytes hc ht n v⟩
  intro o k hpos hline hend hreg hmark
  exact setPlain_other hs n v.toNat ⟨hpos, hline, hend⟩ hreg hmark

/-! ### The other results: each is a write to the active window, of a value that may be made of what stood there -/

section Stages
variable {s s' : State} {t : ThreadId} {th : Thread}

theorem wrWin_only (hc : s.cur = .thread t) (ht : s.thread? t = some th) {off n v : Nat} (hn : 0 < n) (hr : Runs (wrWin off n v) s () s') :
    OnlyBytes (winRange s t th.ctl off n) s s' := by
  obtain rfl := (hr.unique (Runs.wrWin hc ht off n v)).2
  exact threadWrite_only rfl t th.ctl off n v hn

theorem rdWin_wrWin_only (hc : s.cur = .thread t) (ht : s.thread? t = some th) {off n : Nat} {f : Nat → Nat} (hn : 0 < n)
    (hr : Runs (do wrWin off n (f (← rdWin off n))) s () s') : OnlyBytes (winRange s t th.ctl off n) s s' := by
  obtain ⟨_, _, hwrite⟩ := ReadsOnly.split (ReadsOnly.rdWin off n) hr
  exact wrWin_only hc ht hn hwrite

/-- R86, R306: g0 is no guard to write. -/
theorem setGuard_changes (hc : s.cur = .thread t) (ht : s.thread? t = some th) {gd : BitVec 3} {b : Bool} (hr : Runs (setGuard gd b) s () s') :
    OnlyBytes (if gd = 0 then [] else winRange s t th.ctl offGuards 1) s s' := by
  unfold setGuard wrGuard at hr
  by_cases hg : gd = 0
  · subst hg
    obtain rfl := (hr.unique (Runs.pure () s)).2
    exact OnlyBytes.refl _ _
  · have hn : gd.toNat ≠ 0 := fun h => hg (BitVec.eq_of_toNat_eq (by simpa using h))
    rw [if_neg hn] at hr
    rw [if_neg hg]
    exact rdWin_wrWin_only (f := fun x => putBit x gd.toNat b) hc ht (by omega) hr

theorem wrV_changes (hc : s.cur = .thread t) (ht : s.thread? t = some th) {n bits tag : Nat} (hr : Runs (wrV n bits tag) s () s') :
    OnlyBytes (winRange s t th.ctl (offV n) 256 ++ winRange s t th.ctl offVtags 16) s s' := by
  obtain ⟨_, s1, hbits, htag⟩ := Runs.split hr
  have honly := wrWin_only hc ht (by omega) hbits
  obtain ⟨hc1, ht1⟩ := honly.acts hc ht
  have htags := rdWin_wrWin_only (f := fun x => x - field x (4 * n) 4 * 2 ^ (4 * n) + tag % 16 * 2 ^ (4 * n)) hc1 ht1 (by omega) htag
  rw [winRange_wk honly.work] at htags
  exact (honly.mono fun _ => List.mem_append_left _).trans (htags.mono fun _ => List.mem_append_right _)

/-- R122: no flag, no write. -/
theorem raiseFlags_changes (hc : s.cur = .thread t) (ht : s.thread? t = some th) {fl : Nat} (hr : Runs (raiseFlags fl) s () s') :
    OnlyBytes (if fl = 0 then [] else winRange s t th.ctl offFpsr 4) s s' := by
  unfold raiseFlags at hr
  by_cases hf : fl = 0
  · rw [if_pos hf] at hr
    obtain rfl := (hr.unique (Runs.pure () s)).2
    exact OnlyBytes.refl _ _
  · rw [if_neg hf] at hr
    rw [if_neg hf]
    exact rdWin_wrWin_only (f := (· ||| fl)) hc ht (by omega) hr

end Stages

/-- Settles O48: each stage is a write to the active window, which changes no more than the bytes it names. -/
theorem resultStagesFrame : Obligations.ResultStagesFrame := by
  unfold Obligations.ResultStagesFrame
  intro t th s s' n v gd b vn mn bits tag fl hc ht
  refine ⟨fun hr => ?register, setGuard_changes hc ht, wrV_changes hc ht, wrWin_only hc ht (by omega), raiseFlags_changes hc ht⟩
  case register =>
    obtain ⟨s1, hrun, honly⟩ := wrReg_only hc ht n v
    obtain rfl := (hr.unique hrun).2
    exact honly

/-! ### The iteration boundary of a REP -/

section Boundary
variable {s : State} {t : ThreadId} {c : Ctl} {r : RepState}

/-- The count after a boundary. -/
abbrev countLeft (s : State) (t : ThreadId) (c : Ctl) (r : RepState) : Word := BitVec.ofNat 64 (threadRead s t c c.wsp (offW r.wc.val) 8) - 1

/-- The storage after a boundary: the count takes one less, and then the index one more, each as a plain value. -/
def countedDown (s : State) (t : ThreadId) (c : Ctl) (r : RepState) : State :=
  let s1 := setPlain s t c r.wc.val (countLeft s t c r).toNat
  setPlain s1 t c r.wi.val ((threadRead s1 t c c.wsp (offW r.wi.val) 8 + 1) % 2 ^ 64)

theorem wrap_pred (x : Nat) : wrap 64 ((x : Int) - 1) = (BitVec.ofNat 64 x - 1).toNat := by
  have hone : (1 : Word).toNat = 1 := rfl
  unfold wrap
  simp only [BitVec.toNat_sub, BitVec.toNat_ofNat, hone]
  omega

/-- The thread after a boundary: at the body's start again, or behind the body. -/
def pastBoundary (r : RepState) (left : Word) (th : Thread) : Thread :=
  if left ≠ 0 then { th.settled with ctl := { th.ctl with pc := slotAdd r.pc 1, rep := some { r with idx := 0 }, repBnd := false } }
  else { th.settled with ctl := { th.ctl with pc := slotAdd r.pc (r.len + 1), rep := none, repBnd := false } }

theorem boundaryStep_eq (s : State) (t : ThreadId) (c : Ctl) (r : RepState) :
    boundaryStep s t c r = (countedDown s t c r).modThread t (pastBoundary r (countLeft s t c r)) := by
  have hzero : wrap 64 ((threadRead s t c c.wsp (offW r.wc.val) 8 : Int) - 1) ≠ 0 ↔ countLeft s t c r ≠ 0 := by
    rw [wrap_pred]
    exact not_congr (BitVec.toNat_eq (y := 0)).symm
  unfold boundaryStep
  simp only [hzero]
  rw [wrap_pred]
  unfold pastBoundary
  split <;> rfl

theorem countedDown_wk : (countedDown s t c r).wk = s.wk := (setPlain_wk _ _ _ _ _).trans (setPlain_wk _ _ _ _ _)

/-- What the window holds after a boundary whose count and index are two registers. -/
theorem countedDown_reads (hs : WindowStands s t c.slice c.wsp) (hne : r.wc ≠ r.wi) :
    threadRead (countedDown s t c r) t c c.wsp (offW r.wc.val) 8 = (countLeft s t c r).toNat ∧
    threadRead (countedDown s t c r) t c c.wsp (offW r.wi.val) 8 = (threadRead s t c c.wsp (offW r.wi.val) 8 + 1) % 2 ^ 64 ∧
    (∀ n : Reg, n ≠ r.wc → n ≠ r.wi →
      threadRead (countedDown s t c r) t c c.wsp (offW n.val) 8 = threadRead s t c c.wsp (offW n.val) 8) ∧
    (∀ n : Reg, (threadRead (countedDown s t c r) t c c.wsp offMarks 8).testBit n.val =
      (decide (n ≠ r.wc ∧ n ≠ r.wi) && (threadRead s t c c.wsp offMarks 8).testBit n.val)) := by
  obtain ⟨hcount, hrest, hmark⟩ := setPlain_reads (s := s) (s0 := s) rfl hs r.wc (countLeft s t c r).toNat
  obtain ⟨hindex, hrest', hmark'⟩ := setPlain_reads (setPlain_wk s t c r.wc.val (countLeft s t c r).toNat) hs r.wi
    ((threadRead (setPlain s t c r.wc.val (countLeft s t c r).toNat) t c c.wsp (offW r.wi.val) 8 + 1) % 2 ^ 64)
  refine ⟨(hrest' _ hne).trans (hcount.trans (mod_toNat _)), hindex.trans ?_, fun n hwc hwi => (hrest' n hwi).trans (hrest n hwc), fun n => ?_⟩
  · rw [hrest _ hne.symm]
    exact Nat.mod_mod _ _
  · refine (hmark' n).trans ?_
    rw [hmark n, ← Bool.and_assoc, Bool.decide_and, Bool.and_comm (decide (n ≠ r.wi))]

end Boundary

/-- Settles O58: where nothing stops the boundary, it is two registers taking plain values and a change of the thread's record. -/
theorem repBoundaryCounts : Obligations.RepBoundaryCounts := by
  unfold Obligations.RepBoundaryCounts
  intro t th s r ht hr
  have hb : boundary s t = if regPending s t th.ctl.wsp r.wc.val || regPending s t th.ctl.wsp r.wi.val then
        s.modThread t fun th => { th.settled with ctl := { th.ctl with repBnd := true } }
      else if abortRaised s t th.ctl && !th.ctl.abmask then
        takeTrap t (mkTrap 17 0 0) (s.modThread t fun th => { th with ctl := { th.ctl with repBnd := true } })
      else boundaryStep s t th.ctl r := by
    simp only [boundary, ht, hr]
  refine ⟨fun hwaits => ?waits, fun hready habort => ?traps, fun hready hgo hs hne => ?counts⟩
  case waits => rw [hb, if_pos hwaits]
  case traps => rw [hb, hready, if_neg Bool.false_ne_true, if_pos habort]
  case counts =>
    rw [hready, if_neg Bool.false_ne_true, hgo, if_neg Bool.false_ne_true, boundaryStep_eq] at hb
    obtain ⟨hcount, hindex, hrest, hmarks⟩ := countedDown_reads (r := r) hs hne
    have hthread := State.modThread_thread? (countedDown s t th.ctl r) t t (pastBoundary r (countLeft s t th.ctl r))
    rw [if_pos rfl, State.thread?_of_wk countedDown_wk, ht] at hthread
    refine ⟨_, countLeft s t th.ctl r, hb, hb ▸ boundary_kept s t, ?slices, rfl, hcount, hindex, hrest, hmarks,
      fun hmore => ?again, fun hdone => ?leaves⟩
    case slices => rw [State.modThread_wk_slices, countedDown_wk]
    case again => exact hthread.trans (congrArg some (if_pos hmore))
    case leaves => exact hthread.trans (congrArg some (if_neg (not_not_intro hdone)))

end Sys2Proof.Machine
end

section
/-!
A marked register as a source (R44): what a read of it answers for each state of the future that its handle names.
-/
namespace Sys2Proof.Machine

/-- The rest of a run, once its first stage has completed. -/
theorem Runs.run_bind {α β : Type} {m : Exec α} {f : α → Exec β} {s s1 : State} {a : α} (hm : Runs m s a s1) : (m >>= f).run s = (f a).run s1 := by
  simp only [Runs, EStateM.run] at *
  simp only [Bind.bind, EStateM.bind, hm]

theorem Runs.handleAddr {s : State} {t : ThreadId} {th : Thread} {v : Word} {a : Addr} (hc : s.cur = .thread t) (ht : s.thread? t = some th)
    (ha : resolveHandle s t.core th.ctl.slice v = some a) : Runs (handleAddr v) s a s :=
  Runs.bind (Runs.ctl hc ht) (Runs.bind (Runs.get s) (Runs.bind (Runs.myCore hc) (Runs.orStop_some s ha)))

/-- Register n takes the plain value that its future at a has answered. -/
def takeResult (a : Addr) (n : Nat) (r : Word) : Exec Unit := do
  watchMine a 8 false
  wrWin (offW n) 8 r.toNat
  setMark n false

/-- What a read of register n makes of the state word w at a that its handle v names (R44). -/
def readFuture (a : Addr) (n : Nat) (v : Word) (w : Nat) : Exec Word :=
  if fsGen w ≠ handleGen v then do takeResult a n (BitVec.allOnes 64); return BitVec.allOnes 64
  else match fsState w with
  | 1 => throw (.register v)
  | 2 => do modify (syncP (← me)); takeResult a n (BitVec.ofNat 64 (fsResult w)); return BitVec.ofNat 64 (fsResult w)
  | 3 => throw (.trap (mkTrap (fsResult w % 256) 0 v.toNat))
  | _ => do takeResult a n (BitVec.allOnes 64); return BitVec.allOnes 64

section Marked
variable {s s1 : State} {t : ThreadId} {th : Thread} {a : Addr} {n w : Nat} {v r : Word}

theorem takeResult_runs (hr : Runs (takeResult a n r) s () s1) : Runs (do takeResult a n r; return r) s r s1 := Runs.bind hr (Runs.pure r s1)

theorem rdReg_marked (hc : s.cur = .thread t) (ht : s.thread? t = some th) (hs : regPending s t th.ctl.wsp n = false)
    (hp : winPoisoned s t th.ctl.slice th.ctl.wsp (offW n) 8 = false) (hpm : winPoisoned s t th.ctl.slice th.ctl.wsp offMarks 8 = false)
    (hm : (threadRead s t th.ctl th.ctl.wsp offMarks 8).testBit n = true)
    (hv : v = BitVec.ofNat 64 (threadRead s t th.ctl th.ctl.wsp (offW n) 8)) (ha : resolveHandle s t.core th.ctl.slice v = some a)
    (hw : w = s.rd a 8) : (rdReg n).run s = (readFuture a n v w).run s := by
  have hmark := Runs.regMark hc ht hpm (n := n)
  rw [hm] at hmark
  subst hw
  unfold rdReg
  rw [(hv ▸ Runs.regBits hc ht hs hp : Runs (regBits n) s v s).run_bind, hmark.run_bind]
  simp only [Bool.not_true, Bool.false_eq_true, if_false]
  rw [(Runs.handleAddr hc ht ha).run_bind, (Runs.get s).run_bind]
  unfold readFuture takeResult
  simp only [pure_bind, bind_assoc]
  split
  · rfl
  · rcases fsState (s.rd a 8) with _ | _ | _ | _ | st <;> rfl

theorem readFuture_pending (hg : fsGen w = handleGen v) (hst : fsState w = 1) : (readFuture a n v w).run s = .error (.register v) s := by
  simp only [readFuture, hg, hst, ne_eq, not_true_eq_false, if_false]
  rfl

theorem readFuture_resolved (hc : s.cur = .thread t) (hg : fsGen w = handleGen v) (hst : fsState w = 2)
    (hr : Runs (takeResult a n (BitVec.ofNat 64 (fsResult w))) (syncP t s) () s1) :
    Runs (readFuture a n v w) s (BitVec.ofNat 64 (fsResult w)) s1 := by
  simp only [readFuture, hg, hst, ne_eq, not_true_eq_false, if_false]
  exact Runs.bind (Runs.me hc) (Runs.bind (Runs.modify _ _) (takeResult_runs hr))

theorem readFuture_faulted (hg : fsGen w = handleGen v) (hst : fsState w = 3) :
    (readFuture a n v w).run s = .error (.trap (mkTrap (fsResult w % 256) 0 v.toNat)) s := by
  simp only [readFuture, hg, hst, ne_eq, not_true_eq_false, if_false]
  rfl

theorem readFuture_gone (hst : fsGen w ≠ handleGen v ∨ fsState w = 0 ∨ fsState w = 4)
    (hr : Runs (takeResult a n (BitVec.allOnes 64)) s () s1) : Runs (readFuture a n v w) s (BitVec.allOnes 64) s1 := by
  unfold readFuture
  split
  · exact takeResult_runs hr
  · next hg =>
    rcases hst.resolve_left hg with hempty | hcancelled
    · simpa only [hempty] using takeResult_runs hr
    · simpa only [hcancelled] using takeResult_runs hr

end Marked

/-- Settles O30: a read of a marked register is what readFuture makes of its future's state word. What becomes visible with a Resolved one is
the model's choice (log entry 139) and deduced (log entry 110); no clause speaks of a STATE of 5 to 7 (log entry 134). -/
theorem markedSourcesResolve : Obligations.MarkedSourcesResolve := by
  unfold Obligations.MarkedSourcesResolve
  intro t th s s1 n v a w hc ht hs hp hpm hm hv ha hw
  have hread := rdReg_marked hc ht hs hp hpm hm hv ha hw
  refine ⟨fun hg hst => hread.trans (readFuture_pending hg hst), fun hg hst hr => hread.trans (readFuture_resolved hc hg hst ?resolved),
    fun hg hst => hread.trans (readFuture_faulted hg hst), fun hst hr => hread.trans (readFuture_gone hst ?gone)⟩
  case resolved => simpa only [takeResult, BitVec.toNat_ofNat] using hr
  case gone => simpa only [takeResult, BitVec.toNat_allOnes] using hr

end Sys2Proof.Machine
end

section
/-!
The register forms of class 0 (R310, R319, R332, R361 to R364, R381, R386, R395): what each issues, and its completion from registers that
hold values.
-/
namespace Sys2Proof.Machine

/-! ### Sources that are registers with values, and a destination that is a register: nothing to wait for -/

section RegisterForms
variable {h : Hdr} {t : ThreadId} {th : Thread} {s s0 : State} {d a b : Reg} {x y : Word}

/-- A general register is no port or handle (R91): it never holds too little. -/
theorem waitSource_reg (hc : s.cur = .thread t) (ht : s.thread? t = some th) (l : List Opnd) (n : Reg) :
    Runs (waitSource h l (.w n)) s () s := by
  obtain ⟨_, hslot⟩ := State.slot?_of_thread ht
  exact Runs.bind (Runs.bind (Runs.mySlot hc hslot) (Runs.pure none s)) (Runs.pure () s)

theorem waitSink_reg (hc : s.cur = .thread t) (d : Reg) : Runs (waitSink (.w d)) s () s :=
  Runs.bind (Runs.bind (Runs.me hc) (Runs.bind (Runs.get s) (Runs.pure true s))) (Runs.pure () s)

theorem RegHolds.noFuture {n : Reg} {v : Word} (hn : RegHolds s t th n.val v) : Runs (waitFuture (.w n)) s () s := by
  refine Runs.bind (Runs.regMark hn.actor hn.live hn.cleanMarks) ?_
  rw [hn.plain]
  exact Runs.pure () s

theorem waitOpnds_toReg (hc : s.cur = .thread t) (ht : s.thread? t = some th) {l : List Opnd}
    (hl : ∀ o ∈ l, ∃ (n : Reg) (v : Word), o = .w n ∧ RegHolds s t th n.val v) : Runs (waitOpnds h l [.w d]) s () s := by
  refine Runs.bind (Runs.forM l fun o ho => ?checked) (Runs.bind (Runs.forM _ fun _ ho => ?sinkChecked)
    (Runs.bind (Runs.forM l fun o ho => ?ready) (Runs.bind (Runs.forM _ fun _ ho => ?room) (Runs.forM l fun o ho => ?resolved))))
  case checked => obtain ⟨n, v, rfl, hn⟩ := hl o ho; exact hn.chk
  case sinkChecked => obtain rfl := List.mem_singleton.1 ho; exact Runs.pure () s
  case ready => obtain ⟨n, v, rfl, hn⟩ := hl o ho; exact waitSource_reg hc ht _ n
  case room => obtain rfl := List.mem_singleton.1 ho; exact waitSink_reg hc d
  case resolved => obtain ⟨n, v, rfl, hn⟩ := hl o ho; exact hn.noFuture

theorem rd1_toReg (ha : RegHolds s t th a.val x) : Runs (rd1 h (.w a) [.w d]) s x s :=
  Runs.bind (waitOpnds_toReg ha.actor ha.live fun _ ho => ⟨a, x, List.mem_singleton.1 ho, ha⟩) ha.read

theorem rd2_toReg (ha : RegHolds s t th a.val x) (hb : RegHolds s t th b.val y) : Runs (rd2 h (.w a) (.op (.w b)) [.w d]) s (x, y) s := by
  refine Runs.bind (waitOpnds_toReg ha.actor ha.live fun o ho => ?_) (Runs.bind ha.read (Runs.bind hb.read (Runs.pure _ _)))
  rcases List.mem_cons.1 ho with rfl | ho
  · exact ⟨a, x, rfl, ha⟩
  · exact ⟨b, y, List.mem_singleton.1 ho, hb⟩

/-! ### Completion -/

/-- An instruction whose meaning, from the state it issues in, comes to one register write completes. -/
theorem issueSeq_wrReg {body : Exec Unit} {v : Word} (hi : Issues h t th s s0) (hd : NothingDue th)
    (hbody : ∀ s1, Runs (wrReg d v) s0 () s1 → Runs body s0 () s1) : ∃ s', issueSeq h body s = .next s' ∧
      Completed t th h (winRange s0 t th.ctl (offW d.val) 8 ++ winRange s0 t th.ctl offMarks 8) s0 s' := by
  obtain ⟨s1, hrun, honly⟩ := wrReg_only hi.cur hi.live d v
  rw [issueSeq_runs hi (hbody s1 hrun)]
  exact completed_seq honly hi.live hd

theorem alu2_completes (f : Word → Word → Word) (hi : Issues h t th s s0) (hd : NothingDue th) (ha : RegHolds s0 t th a.val x)
    (hb : RegHolds s0 t th b.val y) : ∃ s', alu2 h (.w d) (.w a) (.op (.w b)) f s = .next s' ∧
      Completed t th h (winRange s0 t th.ctl (offW d.val) 8 ++ winRange s0 t th.ctl offMarks 8) s0 s' :=
  issueSeq_wrReg (v := f x y) hi hd fun _ hw => Runs.bind (rd2_toReg ha hb) hw

theorem alu1_completes (f : Word → Word) (hi : Issues h t th s s0) (hd : NothingDue th) (ha : RegHolds s0 t th a.val x) :
    ∃ s', alu1 h (.w d) (.w a) f s = .next s' ∧
      Completed t th h (winRange s0 t th.ctl (offW d.val) 8 ++ winRange s0 t th.ctl offMarks 8) s0 s' :=
  issueSeq_wrReg (v := f x) hi hd fun _ hw => Runs.bind (rd1_toReg ha) hw

theorem mov_completes (hi : Issues h t th s s0) (hd : NothingDue th) (ha : RegHolds s0 t th a.val x) :
    ∃ s', exec (.mov h (.w d) (.w a)) s = .next s' ∧
      Completed t th h (winRange s0 t th.ctl (offW d.val) 8 ++ winRange s0 t th.ctl offMarks 8) s0 s' :=
  issueSeq_wrReg (v := x) hi hd fun _ hw => Runs.bind (rd1_toReg ha) hw

theorem movi_completes (imm : BitVec 48) (hi : Issues h t th s s0) (hd : NothingDue th) :
    ∃ s', exec (.movi h d imm false) s = .next s' ∧
      Completed t th h (winRange s0 t th.ctl (offW d.val) 8 ++ winRange s0 t th.ctl offMarks 8) s0 s' :=
  issueSeq_wrReg (v := imm.signExtend 64) hi hd fun _ => id

end RegisterForms

/-- Settles O49: each of these issues as a function of two words, as one of one word, as MOV or as MOVI. -/
theorem registerFormsComplete : Obligations.RegisterFormsComplete := by
  unfold Obligations.RegisterFormsComplete
  intro h t th s s0 d a b x y wid sh sgn sat hi loc imm hissues hdue ha hb
  have two := fun f => alu2_completes (d := d) f hissues hdue ha hb
  have one := fun f => alu1_completes (d := d) f hissues hdue ha
  simp only [List.forall_mem_cons]
  exact ⟨two (addW wid sgn sat), two (subW wid sgn sat), two (mulW wid sgn sat hi), two (bitwiseW (· &&& ·) wid sgn),
    two (bitwiseW (fun x y => x &&& ~~~y) wid sgn), two (bitwiseW (· ||| ·) wid sgn), two (bitwiseW (· ^^^ ·) wid sgn),
    two (shlW wid sgn), two (shrW wid sgn), two (rotW wid), two (minW wid sgn), two (maxW wid sgn), two (extW sgn), two (leaW sh loc),
    one (clzW wid), one (ctzW wid), one (popW wid), mov_completes hissues hdue ha, movi_completes imm hissues hdue,
    List.forall_mem_nil _⟩

end Sys2Proof.Machine
end

section
/-!
FORK, JOIN, LAUNCH and HJOIN (R36, R342, R350, R351, R355), outside a REP body: what each issues where its operands are read and it does not
have to wait.
-/
namespace Sys2Proof.Machine

/-! ### FORK -/

section Fork
variable {h : Hdr} {t : ThreadId} {th th1 : Thread} {s s0 s1 s2 s3 : State} {pc arg j : Opnd} {gd : BitVec 3} {ok : Bool} {p x jv : Word}
  (hi : Issues h t th s s0) (hrep : th.ctl.rep = none) (habort : Runs sampleAbort s0 () s0) (hread : Runs (rd3 h pc arg j) s0 (p, x, jv) s1)
  (hchild : Runs (childRoom jv) s1 ok s1) (hacc : Runs waitAccesses s1 () s1) (hc : s1.cur = .thread t) (ht : s1.thread? t = some th1)
include hi hrep habort hread hchild hacc hc ht

theorem fork_pushes (hok : ok = true) (hroom : dequeRoom s1 t.core = true) (hadd : Runs (addChild jv) s1 () s2)
    (hset : Runs (setGuard gd true) (pushBottom s2 t.core ⟨th1.ctl.slice, p, x, jv, BitVec.ofNat 64 (threadProv s2 t th1.ctl), 0, 0⟩) () s3) :
    exec (.fork h gd pc arg j) s = retired t h .seq s3 := by
  refine issueSeq_runs hi (Runs.bind (Runs.notInBody hi.cur hi.live hrep) (Runs.bind habort (Runs.bind hread (Runs.bind hchild
    (Runs.bind hacc (Runs.bind (Runs.me hc) (Runs.bind (Runs.ctl hc ht) (Runs.bind (Runs.get s1) ?_))))))))
  rw [hok, hroom, Bool.and_self, if_pos rfl]
  exact Runs.bind hadd (Runs.bind (Runs.get s2) (Runs.bind (Runs.modify _ s2) hset))

theorem fork_full (hfull : (ok && dequeRoom s1 t.core) = false) (hset : Runs (setGuard gd false) s1 () s2) :
    exec (.fork h gd pc arg j) s = retired t h .seq s2 := by
  refine issueSeq_runs hi (Runs.bind (Runs.notInBody hi.cur hi.live hrep) (Runs.bind habort (Runs.bind hread (Runs.bind hchild
    (Runs.bind hacc (Runs.bind (Runs.me hc) (Runs.bind (Runs.ctl hc ht) (Runs.bind (Runs.get s1) ?_))))))))
  rwa [hfull, if_neg Bool.false_ne_true]

end Fork

/-! ### JOIN -/

/-- A thread that has sampled the abort line at its JOIN goes on without sampling it again (log entry 115). -/
theorem sampledOnce_runs {t : ThreadId} {th : Thread} {s s' : State} {α : Type} {a : α} {rest : Unit → Exec α} (hc : s.cur = .thread t)
    (ht : s.thread? t = some th) (hsample : th.sampled = false → Runs sampleAbort s () s) (hrest : Runs (rest ()) s a s') :
    Runs (do let th ← thr; if !th.sampled then do { let r ← sampleAbort; rest r } else rest ()) s a s' := by
  refine Runs.bind (Runs.thr hc ht) ?_
  cases hs : th.sampled with
  | false => exact Runs.bind (hsample hs) hrest
  | true => exact hrest

section Join
variable {h : Hdr} {t : ThreadId} {th th1 : Thread} {s s0 s1 s2 s3 s4 : State} {d a : Reg} {gd : BitVec 3} {v : Word} {y : Addr}
  (hi : Issues h t th s s0) (hrep : th.ctl.rep = none) (hsample : th.sampled = false → Runs sampleAbort s0 () s0)
  (hread : Runs (rd1 h (.w a)) s0 v s1) (hv : v ≠ 0) (hplace : Runs (joinPlace v) s1 y s1) (hc : s1.cur = .thread t)
  (ht : s1.thread? t = some th1) (hwatch : Runs (watchMine y 16 false) s1 () s2)
include hi hrep hsample hread hv hplace hc ht hwatch

theorem join_returns (hdone : joinPending (s1.rd y 16) = 0)
    (hwrite : Runs (wrReg d (BitVec.ofNat 64 (joinFailed (s1.rd y 16)))) (syncP t s2) () s3)
    (hset : Runs (setGuard gd (joinFailed (s1.rd y 16) != 0)) s3 () s4) : exec (.join h gd d a) s = retired t h .seq s4 := by
  refine issue_runs hi (Runs.bind (Runs.notInBody hi.cur hi.live hrep) (sampledOnce_runs hi.cur hi.live hsample (Runs.bind hread ?_)))
  rw [if_neg hv]
  refine Runs.bind hplace (Runs.bind (Runs.get s1) (Runs.bind (Runs.me hc) (Runs.bind (Runs.ctl hc ht) (Runs.bind hwatch ?_))))
  rw [if_pos hdone]
  exact Runs.bind (Runs.modify _ s2) (Runs.bind hwrite (Runs.bind hset (Runs.pure _ s4)))

theorem join_inline {k : Nat} {rc : TaskRec} {fl : Flow} (hpending : joinPending (s1.rd y 16) ≠ 0) (hat : eligibleAt s2 t = some k)
    (hrec : (s2.core t.core).deque[k]? = some rc) (hjoin : rc.join = v) (hslice : rc.slice = th1.ctl.slice)
    (hruns : recordAborts s2 t.core rc = false) (hchild : Runs (runInline k rc) s2 fl s3) :
    exec (.join h gd d a) s = retired t h fl s3 := by
  refine issue_runs hi (Runs.bind (Runs.notInBody hi.cur hi.live hrep) (sampledOnce_runs hi.cur hi.live hsample (Runs.bind hread ?_)))
  rw [if_neg hv]
  refine Runs.bind hplace (Runs.bind (Runs.get s1) (Runs.bind (Runs.me hc) (Runs.bind (Runs.ctl hc ht) (Runs.bind hwatch ?_))))
  rw [if_neg hpending]
  refine Runs.bind (Runs.get s2) ?_
  simp only [hat, hrec, Option.bind_some, Option.map_some, hjoin, hslice, and_self, if_true, hruns, Bool.false_eq_true, if_false]
  exact hchild

end Join

/-! ### LAUNCH -/

/-- What LAUNCH does with the descriptor that it has read. -/
def launchDescriptor (gd : BitVec 3) (d : Reg) (m : Nat) : Exec Unit := do
  let t ← me; let p ← myPart
  match descCode (← get) p (BitVec.ofNat 512 m) with
  | 0 =>
    if 1024 ≤ heldSlices (← get) p then parkMessage
    let (n, s) := submit (← get) p (BitVec.ofNat 512 m) ⟨t.core.quad, true, 0, 0⟩ false
    set s
    wrReg d (BitVec.ofNat 64 (n * 2 ^ 32))
    setGuard gd true
  | c =>
    wrReg d (BitVec.ofNat 64 c)
    setGuard gd false

section Launch
variable {h : Hdr} {t : ThreadId} {th th1 : Thread} {s s0 s1 s2 s3 s4 s5 : State} {d a : Reg} {gd : BitVec 3} {v : Word} {sp : Span} {m n : Nat}

theorem launchDescriptor_legal (hc : s2.cur = .thread t) (ht : s2.thread? t = some th1)
    (hlegal : descCode s2 th1.ctl.slice.part (BitVec.ofNat 512 m) = 0) (hheld : heldSlices s2 th1.ctl.slice.part < 1024)
    (hsubmit : submit s2 th1.ctl.slice.part (BitVec.ofNat 512 m) ⟨t.core.quad, true, 0, 0⟩ false = (n, s3))
    (hwrite : Runs (wrReg d (BitVec.ofNat 64 (n * 2 ^ 32))) s3 () s4) (hset : Runs (setGuard gd true) s4 () s5) :
    Runs (launchDescriptor gd d m) s2 () s5 := by
  refine Runs.bind (Runs.me hc) (Runs.bind (Runs.myPart hc ht) (Runs.bind (Runs.get s2) ?_))
  simp only [hlegal]
  refine Runs.bind (Runs.get s2) ?_
  rw [if_neg (Nat.not_le.2 hheld)]
  refine Runs.bind (Runs.get s2) ?_
  simp only [hsubmit]
  exact Runs.bind (Runs.set s2 s3) (Runs.bind hwrite hset)

theorem launchDescriptor_illegal (hc : s2.cur = .thread t) (ht : s2.thread? t = some th1)
    (hcode : descCode s2 th1.ctl.slice.part (BitVec.ofNat 512 m) = n + 1) (hwrite : Runs (wrReg d (BitVec.ofNat 64 (n + 1))) s2 () s3)
    (hset : Runs (setGuard gd false) s3 () s4) : Runs (launchDescriptor gd d m) s2 () s4 := by
  refine Runs.bind (Runs.me hc) (Runs.bind (Runs.myPart hc ht) (Runs.bind (Runs.get s2) ?_))
  simp only [hcode]
  exact Runs.bind hwrite hset

/-- A descriptor at a plain address, aligned to 64. -/
theorem launch_plain (hi : Issues h t th s s0) (hrep : th.ctl.rep = none) (hread : Runs (rd1 h (.w a)) s0 v s1)
    (hwait : Runs (do waitConfirmed; waitAccesses) s1 () s1) (hplain : wfield v 52 12 = 0) (haligned : v.toNat % 64 = 0)
    (hdesc : Runs (do let pa ← translate v .rd; plainRead h.hint.toNat v pa 64) s1 m s2)
    (hend : Runs (launchDescriptor gd d m) s2 () s3) : exec (.launch h gd d a true) s = retired t h .seq s3 := by
  obtain ⟨_, _, hconfirmed, hacc⟩ := Runs.split hwait
  obtain ⟨_, _, hpa, hbytes⟩ := Runs.split hdesc
  refine issueSeq_runs hi (Runs.bind (Runs.notInBody hi.cur hi.live hrep) (Runs.bind hread ?_))
  simp only [hplain, haligned, ne_eq, not_true_eq_false, decide_false, Bool.and_false, Bool.false_eq_true, if_true, if_false]
  exact Runs.bind (Runs.pure [] s1) (Runs.bind hconfirmed (Runs.bind hacc (Runs.bind hpa (Runs.bind hbytes hend))))

/-- A descriptor at a local address. -/
theorem launch_local (hi : Issues h t th s s0) (hrep : th.ctl.rep = none) (hread : Runs (rd1 h (.w a)) s0 v s1)
    (hwait : Runs (do waitConfirmed; waitAccesses) s1 () s1) (hspan : Runs (localSpan v 64 64 false) s1 sp s1)
    (hdesc : Runs (readSpan v sp) s1 m s2) (hend : Runs (launchDescriptor gd d m) s2 () s3) :
    exec (.launch h gd d a false) s = retired t h .seq s3 := by
  obtain ⟨_, _, hconfirmed, hacc⟩ := Runs.split hwait
  refine issueSeq_runs hi (Runs.bind (Runs.notInBody hi.cur hi.live hrep) (Runs.bind hread ?_))
  simp only [Bool.false_and, Bool.false_eq_true, if_false]
  exact Runs.bind hspan (Runs.bind hconfirmed (Runs.bind hacc (Runs.bind hdesc hend)))

end Launch

/-! ### HJOIN -/

section Hjoin
variable {h : Hdr} {t : ThreadId} {th th1 : Thread} {s s0 s1 s2 s3 s4 s5 : State} {h1 : Reg} {pc arg j h2 : Opnd} {gd : BitVec 3} {ok : Bool}
  {p x jv v1 : Word} {x1 : Addr} {second : Option (Word × Addr)}
  (hi : Issues h t th s s0) (hrep : th.ctl.rep = none) (hbits : Runs (regBits h1.val) s0 v1 s0) (hv : v1 ≠ 0)
  (haddr : Runs (handleAddr v1) s0 x1 s0) (hsecond : Runs (secondHandle h2) s0 second s0) (hread : Runs (rd3 h pc arg j) s0 (p, x, jv) s1)
  (hchild : Runs (childRoom jv) s1 ok s1) (hacc : Runs waitAccesses s1 () s1) (hc : s1.cur = .thread t) (ht : s1.thread? t = some th1)
include hi hrep hbits hv haddr hsecond hread hchild hacc hc ht

/-- Where the continuation table and the join record have room: the continuation stands until its words have left Pending, and is pushed at
once where neither is Pending. -/
theorem hjoin_enters {w1 w2 : Option Addr} {p1 p2 : Bool} (hok : ok = true) (hroom : (s1.core t.core).conts.length < 64)
    (hadd : Runs (addChild jv) s1 () s2) (hreg1 : Runs (contRegister v1 x1) s2 (w1, p1) s3)
    (hreg2 : Runs (match second with
      | some (v2, x2) => contRegister v2 x2
      | none => pure (none, false)) s3 (w2, p2) s4)
    (hset : let v2 := (second.map (·.1)).getD 0
      let c := bit w1.isSome + bit w2.isSome
      let e : Cont := ⟨⟨th1.ctl.slice, p, x, jv, BitVec.ofNat 64 (threadProv s4 t th1.ctl), v1, v2⟩, v1, v2, w1, w2, p1, p2, c, false⟩
      Runs (setGuard gd true) (if c = 0 then pushDue s4 t.core e else s4.modCore t.core fun r => { r with conts := r.conts ++ [e] }) () s5) :
    exec (.hjoin h gd pc arg j h1 h2) s = retired t h .seq s5 := by
  refine issueSeq_runs hi (Runs.bind (Runs.notInBody hi.cur hi.live hrep) (Runs.bind hbits ?_))
  rw [if_neg hv]
  refine Runs.bind haddr (Runs.bind hsecond (Runs.bind hread (Runs.bind hchild (Runs.bind hacc (Runs.bind (Runs.me hc)
    (Runs.bind (Runs.ctl hc ht) (Runs.bind (Runs.get s1) ?_)))))))
  rw [hok, decide_eq_true hroom, Bool.and_self, if_pos rfl]
  refine Runs.bind hadd (Runs.bind hreg1 ?_)
  cases second <;> exact Runs.bind hreg2 (Runs.bind (Runs.get s4) (Runs.bind (Runs.modify _ s4) hset))

theorem hjoin_full (hfull : (ok && decide ((s1.core t.core).conts.length < 64)) = false) (hset : Runs (setGuard gd false) s1 () s2) :
    exec (.hjoin h gd pc arg j h1 h2) s = retired t h .seq s2 := by
  refine issueSeq_runs hi (Runs.bind (Runs.notInBody hi.cur hi.live hrep) (Runs.bind hbits ?_))
  rw [if_neg hv]
  refine Runs.bind haddr (Runs.bind hsecond (Runs.bind hread (Runs.bind hchild (Runs.bind hacc (Runs.bind (Runs.me hc)
    (Runs.bind (Runs.ctl hc ht) (Runs.bind (Runs.get s1) ?_)))))))
  rwa [hfull, if_neg Bool.false_ne_true]

end Hjoin

/-- Settles O13: each instruction's stages in a row. What becomes visible to a JOIN that completes is the model's choice (log entry 139) and
deduced (log entry 110), as is that it samples the abort line once (log entry 115). -/
theorem taskInstructionsComplete : Obligations.TaskInstructionsComplete := by
  unfold Obligations.TaskInstructionsComplete
  intro h t th th0 th1 s s0 s1 s2 s3 s4 s5 d a h1 pc arg j h2 gd vp ok p x v jv v1 y x1 sp m k n rc fl second w1 w2 p1 p2 hi hrep hlive
  obtain rfl := Option.some.inj (hi.live.symm.trans hlive)
  refine ⟨fun habort hread hchild hacc hc ht => ⟨?forked, ?forkFull⟩, fun hsample hread hv hplace hc ht hwatch => ⟨?returned, ?inlined⟩,
    fun hread hwait hdesc hc ht => ?launched, fun hbits hv haddr hsecond hread hchild hacc hc ht => ⟨?entered, ?hjoinFull⟩⟩
  case forked => exact fork_pushes hi hrep habort hread hchild hacc hc ht
  case forkFull => exact fork_full hi hrep habort hread hchild hacc hc ht
  case returned => exact join_returns hi hrep hsample hread hv hplace hc ht hwatch
  case inlined => exact join_inline hi hrep hsample hread hv hplace hc ht hwatch
  case launched =>
    have hlaunch : ∀ s', Runs (launchDescriptor gd d m) s2 () s' → exec (.launch h gd d a vp) s = retired t h .seq s' := by
      intro s' hend
      cases vp with
      | true =>
        obtain ⟨_, hplain, haligned, hbytes⟩ := hdesc
        exact launch_plain hi hrep hread hwait hplain haligned hbytes hend
      | false =>
        obtain ⟨hspan, hbytes⟩ := hdesc
        exact launch_local hi hrep hread hwait hspan hbytes hend
    exact ⟨fun hlegal hheld hsubmit hwrite hset => hlaunch s5 (launchDescriptor_legal hc ht hlegal hheld hsubmit hwrite hset),
      fun hcode hwrite hset => hlaunch s4 (launchDescriptor_illegal hc ht hcode hwrite hset)⟩
  case entered => exact hjoin_enters hi hrep hbits hv haddr hsecond hread hchild hacc hc ht
  case hjoinFull => exact hjoin_full hi hrep hbits hv haddr hsecond hread hchild hacc hc ht

end Sys2Proof.Machine
end

section
/-!
The steps of slices, budgets, deadlines and host queues (R30, R33, R55, R57, R58, R60, R64, R65, R67, R68, R226, R294, R296, R416), each where
it is enabled.
-/
namespace Sys2Proof.Machine

/-! ### Admission, completion and kill -/

section Slices
variable {s : State} {i : SliceId} {r r2 : SliceRec} {p : PartId}

theorem admissionEvaluation_evaluates (h : (s.part p).resetBusy = false) :
    exec (.admissionEvaluation p) s = .next (evaluate p (4 * s.wk.slices.length) s) := by
  change execAdmissionEvaluation p s = _
  rw [execAdmissionEvaluation, h, if_neg Bool.false_ne_true]

theorem exec_sliceCompletion (hr : s.slice? i = some r) : exec (.sliceCompletion i) s =
    if completes s i r && eventRoom s i.part then .next (complete s i r) else .next (endKill s i r) := by
  change execSliceCompletion i s = _
  simp only [execSliceCompletion, hr]

theorem sliceCompletion_completes (hr : s.slice? i = some r) (hdone : completes s i r = true) (hroom : eventRoom s i.part = true) :
    exec (.sliceCompletion i) s = .next (complete s i r) := by
  rw [exec_sliceCompletion hr, hdone, hroom, Bool.and_self, if_pos rfl]

theorem sliceCompletion_endsKill (hr : s.slice? i = some r) (hnot : (completes s i r && eventRoom s i.part) = false) :
    exec (.sliceCompletion i) s = .next (endKill s i r) := by
  rw [exec_sliceCompletion hr, hnot, if_neg Bool.false_ne_true]

theorem kill_again (hr : s.slice? i = some r) (hst : r.st ≠ .completed) (hkilled : r.killed = true) :
    exec (.kill i) s = .next (endKill s i r) := by
  change execKill i s = _
  simp only [execKill, hr, hst, hkilled, if_false, if_true]

theorem kill_first (hr : s.slice? i = some r) (hst : r.st ≠ .completed) (hlive : r.killed = false)
    (hr2 : (killSlice s i false).slice? i = some r2) : exec (.kill i) s = .next (endKill (killSlice s i false) i r2) := by
  change execKill i s = _
  simp only [execKill, hr, hst, hlive, hr2, Bool.false_eq_true, if_false]

end Slices

/-! ### An accumulator's save and load -/

section Accumulators
variable {s : State} {i : SliceId} {r : SliceRec} {c : CoreId} {a : Nat} {places : List Nat}

/-- Log entry 126: the accumulator becomes RAW at its save, and the tag that it had is saved. -/
theorem accumulatorSave_saves {o : SaveOp} (hr : s.slice? i = some r) (hop : s.nt.saving.find? (fun x => decide (x.acc = ⟨c, i, a⟩)) = some o)
    (hfirst : s.nt.saving.find? (fun x => decide (x.acc.core = c ∧ x.phys = o.phys)) = some o)
    (hfree : ((s.core c).mqueue.any fun m => m.op.names fun x => decide (x = o.acc)) = false) (hplaces : savePlaces s i r c a .wr = .ok places) :
    exec (.accumulatorSave i c a) s = .next
      (let v := tget (s.core c).accs o.phys ⟨0, 0⟩
       let w := places.zipIdx.foldl (fun s (pa, k) => s.wr pa 4096 (field v.bits.toNat (32768 * k) 32768)) s
       let w := w.modCore c fun r => { r with accs := tput r.accs o.phys { v with tag := 0 } }
       syncOut { w with nt := { w.nt with saving := w.nt.saving.filter (· ≠ o), savedAccs := tput w.nt.savedAccs o.acc v.tag } }) := by
  change execAccumulatorSave i c a s = _
  simp only [execAccumulatorSave, hr, hop, hfirst, hfree, hplaces, decide_true, Bool.not_true, Bool.or_self, Bool.false_eq_true, if_false]

/-- Log entries 37 and 144: poison in the save area is owed to the lowest reserved thread, and what was read is loaded. -/
theorem accumulatorLoad_loads {tag phys : Nat} (hr : s.slice? i = some r) (htag : tfind s.nt.savedAccs ⟨c, i, a⟩ = some tag)
    (hphys : ((r.grant? c).bind (·.accs[a]?)).join = some phys)
    (hsaved : (s.nt.saving.any fun x => decide (x.acc.core = c ∧ x.phys = phys)) = false) (hplaces : savePlaces s i r c a .rd = .ok places) :
    exec (.accumulatorLoad i c a) s = .next
      (let x := match places.zipIdx.find? fun e => s.poisoned e.1 4096 with
         | some (_, k) => saveFault s i c (mkTrap 11 (r.saveBase + (r.groupIndex c.core * r.accNum + a) * 16384 + 4096 * k) 0)
         | none => s
       let w := x.modCore c fun r =>
         { r with accs := tput r.accs phys ⟨BitVec.ofNat _ (pack (places.map fun pa => (32768, s.rd pa 4096))), tag⟩ }
       syncOut { w with nt := { w.nt with savedAccs := tdel w.nt.savedAccs ⟨c, i, a⟩ } }) := by
  change execAccumulatorLoad i c a s = _
  simp only [execAccumulatorLoad, hr, htag, hphys, hsaved, hplaces, Bool.false_eq_true, if_false] <;> rfl

end Accumulators

/-! ### Budgets -/

section Budgets
variable {s : State} {i : SliceId} {r : SliceRec} {c : CoreId} {n deadline : Word}

theorem allotmentDraw_draws (hr : s.slice? i = some r) (hst : r.st = .running) (hleft : r.central ≠ 0) (hspent : tget r.allot c 0 = 0) :
    exec (.allotmentDraw i c) s = .next
      (let r' := { r with central := r.central - min 4096 r.central, allot := tput r.allot c (min 4096 r.central) }
       syncOut (budgetEvent (s.modSlice i fun _ => r') i r' c.core 1 (r.central - min 4096 r.central + min 4096 r.central))) := by
  change execAllotmentDraw i c s = _
  simp only [execAllotmentDraw, hr, hst, hleft, hspent, ne_eq, not_true_eq_false, or_self, if_false]

/-- Log entry 32: unspent allotments return to the central count. -/
theorem allotmentRecall_recalls (hr : s.slice? i = some r) (hst : r.st = .running) (hzero : r.central = 0) :
    exec (.allotmentRecall i) s = .next (syncOut (s.modSlice i fun r => { r with central := r.left, allot := [] })) := by
  change execAllotmentRecall i s = _
  simp only [execAllotmentRecall, hr, hst, hzero, and_self, if_true]

theorem budgetExhausted_halts (hr : s.slice? i = some r) (hst : r.st = .running) (hleft : r.left = 0) (hnot : completes s i r = false)
    (hroom : eventRoom s i.part = true) : exec (.budgetExhausted i) s = .next (syncOut (haltSlice s i r)) := by
  change execBudgetExhausted i s = _
  simp only [execBudgetExhausted, hr, hst, hleft, hnot, hroom, ne_eq, not_true_eq_false, Bool.false_eq_true, Bool.not_true, or_self, if_false]

/-- A Halted slice that holds all it held goes on in place. -/
theorem budgetExtension_resumes (hr : s.slice? i = some r) (hst : r.st = .halted) (hlive : r.killed = false) (hn : n ≠ 0)
    (hleave : slotsLeave s i = true) (hall : holdsAll s i r = true) : exec (.budgetExtension i n) s = .next
      (syncOut (s.modSlice i fun r => { r with st := .running, central := r.central + n.toNat })) := by
  change execBudgetExtension i n s = _
  simp only [execBudgetExtension, hr, hst, hlive, hn, hleave, hall, reduceCtorEq, ne_eq, not_true_eq_false, Bool.not_true, Bool.false_eq_true,
    and_false, or_self, if_true, if_false]

/-- One that something was taken from waits for it as Suspended. -/
theorem budgetExtension_suspends (hr : s.slice? i = some r) (hst : r.st = .halted) (hlive : r.killed = false) (hn : n ≠ 0)
    (hleave : slotsLeave s i = true) (hall : holdsAll s i r = false) : exec (.budgetExtension i n) s = .next
      (syncOut ((dropSlots s i).modSlice i fun r => { r with st := .suspended, central := r.central + n.toNat })) := by
  change execBudgetExtension i n s = _
  simp only [execBudgetExtension, hr, hst, hlive, hn, hleave, hall, reduceCtorEq, ne_eq, not_true_eq_false, Bool.not_true, Bool.false_eq_true,
    and_false, and_self, or_self, if_true, if_false]

theorem budgetExtension_adds (hr : s.slice? i = some r) (hst : r.st ≠ .halted) (hopen : r.st ≠ .completed) (hlive : r.killed = false)
    (hn : n ≠ 0) : exec (.budgetExtension i n) s = .next
      (syncOut (s.modSlice i fun q => { q with st := r.st, central := q.central + n.toNat })) := by
  change execBudgetExtension i n s = _
  simp only [execBudgetExtension, hr, hst, hopen, hlive, hn, ne_eq, not_false_eq_true, Bool.false_eq_true, false_and, or_self, if_true, if_false]

theorem requeue_suspends (hr : s.slice? i = some r) (hst : r.st = .halted) (hleave : slotsLeave s i = true) :
    exec (.requeue i deadline n) s = .next (syncOut ((dropSlots s i).modSlice i fun r =>
      { r with st := .suspended, deadline := deadline, central := r.central + n.toNat })) := by
  change execRequeue i deadline n s = _
  simp only [execRequeue, hr, hst, hleave, ne_eq, not_true_eq_false, Bool.not_true, Bool.false_eq_true, or_self, if_false]

end Budgets

/-! ### Deadlines and stalls -/

section Reports
variable {s : State} {i : SliceId} {r : SliceRec}

theorem deadlineMissed_reports (hr : s.slice? i = some r) (hopen : r.st ≠ .completed) (hfirst : r.missed = false)
    (hpast : ownDeadline r < s.dtime.toNat) : exec (.deadlineMissed i) s = .next
      (let w := if eventRoom s i.part then postSlice s i r 4
         else s.modSlice i fun r => { r with pend := { r.pend with missed := true } }
       budgetEvent (w.modSlice i fun r => { r with missed := true }) i r 0xFF 3 r.left) := by
  change execDeadlineMissed i s = _
  simp only [execDeadlineMissed, hr, hopen, hfirst, Nat.not_le.2 hpast, Bool.false_eq_true, or_self, if_false]

theorem stalled_reports (hr : s.slice? i = some r) (hst : r.st = .running) (hfirst : r.stallReported = false)
    (hquiet : (s.wk.slots.all fun (t, x) => decide (t.slice ≠ i) || slotQuiet x) = true) (hidle : engineBusy s i = false)
    (hdue : max (ownDeadline r) r.lastBusy + 100000000 ≤ s.dtime.toNat) : exec (.stalled i) s = .next
      (let w := if eventRoom s i.part then postSlice s i r 7
         else s.modSlice i fun r => { r with pend := { r.pend with stalled := true } }
       w.modSlice i fun r => { r with stallReported := true }) := by
  change execStalled i s = _
  simp only [execStalled, hr, hst, hfirst, hquiet, hidle, Nat.not_lt.2 hdue, ne_eq, not_true_eq_false, Bool.not_true, Bool.false_eq_true,
    or_self, if_false]

end Reports

/-! ### A slice's yield -/

section Yields
variable {s : State} {k : Nat} {y : YieldMsg} {r : SliceRec}

/-- The state with the k-th yield taken off its way. -/
def dropYield (s : State) (k : Nat) : State := { s with nt := { s.nt with yields := dropAt s.nt.yields k } }

theorem dropYield_slice? (s : State) (k : Nat) (i : SliceId) : (dropYield s k).slice? i = s.slice? i := rfl
theorem slotsLeave_dropYield (s : State) (k : Nat) (i : SliceId) : slotsLeave (dropYield s k) i = slotsLeave s i := rfl
theorem eventRoom_dropYield (s : State) (k : Nat) (p : PartId) : eventRoom (dropYield s k) p = eventRoom s p := rfl

/-- The same, with the deadline that the yield carries. -/
def takeYield (s : State) (k : Nat) (y : YieldMsg) : State :=
  match y.deadline with
  | some d => (dropYield s k).modSlice y.slice fun r => { r with deadline := d }
  | none => dropYield s k

/-- A yield reaches a Running slice whose threads may all leave and which, with no budget left, has room for its event. -/
theorem exec_sliceYieldMessage (hy : s.nt.yields[k]? = some y) (hr : s.slice? y.slice = some r) (hst : r.st = .running)
    (hleave : slotsLeave s y.slice = true) (hroom : r.left = 0 → eventRoom s y.slice.part = true) : exec (.sliceYieldMessage k) s =
      if r.left = 0 then .next (syncOut (haltSlice (takeYield s k y) y.slice r))
      else .next (syncOut ((dropSlots (takeYield s k y) y.slice).modSlice y.slice fun r =>
        { r with st := .suspended, central := r.left, allot := [] })) := by
  have hfold : ({ s with nt := { s.nt with yields := dropAt s.nt.yields k } } : State) = dropYield s k := rfl
  have hgo : ¬ (r.left = 0 ∧ (!eventRoom s y.slice.part) = true) := fun ⟨hzero, hfull⟩ => by simp [hroom hzero] at hfull
  change execSliceYieldMessage k s = _
  simp only [execSliceYieldMessage, hy, hfold, dropYield_slice?, hr, slotsLeave_dropYield, eventRoom_dropYield, hleave, hgo, hst, takeYield,
    reduceCtorEq, Bool.not_true, Bool.false_eq_true, and_false, or_self, true_and, if_true, if_false] <;> rfl

end Yields

/-! ### Held events, doorbells and launch records -/

section HostQueues
variable {s : State} {q : QuadId} {pkg vf n : Nat} {tail : BitVec 32}

theorem heldEventAppend_appends {x : PartId} {e : BitVec 256} {rest : List (PartId × BitVec 256)} (hheld : (s.quad q).held = (x, e) :: rest)
    (hroom : (s.quad q).ring.length < 1024) : exec (.heldEventAppend q) s = .next
      (let w := s.modQuad q fun r => { r with ring := r.ring ++ [e], held := rest }
       (sortBy (fun a b => decide (a.seq < b.seq)) ((w.wk.slices.filter fun (i, _) => decide (i.part = x)).map (·.1))).foldl flushFlags w) := by
  change execHeldEventAppend q s = _
  simp only [execHeldEventAppend, hheld, hroom, if_true]

theorem exec_doorbell (hvf : vf < 512) (hn : n < 8) : exec (.doorbell pkg vf n tail) s =
    if (tail.toNat + 2 ^ 32 - (hostQueue s pkg vf n).head) % 2 ^ 32 > 2 ^ (hostQueue s pkg vf n).log2n then
      .next (modQueue s pkg vf n fun r => { r with ignored := r.ignored + 1 })
    else .next (modQueue s pkg vf n fun r => { r with tail := tail.toNat }) := by
  change execDoorbell pkg vf n tail s = _
  rw [execDoorbell, if_neg (by omega)]

theorem launchRecord_taken (hnext : nextQueue s q = some (vf, n)) (hroom : (s.quad q).ring.length < 1024) (hswap : (s.quad q).swapSt ≠ 1) :
    exec (.launchRecord q vf n) s =
      (let r := hostQueue s q.pkg vf n
       let p := vfPart s q.pkg vf
       let d := BitVec.ofNat 512 (s.rd (addrHbm q.pkg (wfield r.ctl 16 48 * 2 ^ 16 + 64 * (r.head % 2 ^ r.log2n))) 64)
       let w := (modQueue s q.pkg vf n fun r => { r with head := (r.head + 1) % 2 ^ 32 }).modQuad q fun c => c.serve vf n
       if descCode w p d = 0 then .next (submit w p d ⟨q, false, vf, n⟩ false).2
       else .next (postEvent w q p (eventRecord w.dtime.toNat 0 0 (descCode w p d) ⟨q, false, vf, n⟩ p.num 2))) := by
  change execLaunchRecord q vf n s = _
  simp only [execLaunchRecord, hnext, hswap, Nat.not_le.2 hroom, ne_eq, not_true_eq_false, or_self, if_false]
  split
  · next hlegal => rw [if_pos hlegal]
  · next code hillegal => rw [if_neg hillegal]

end HostQueues

/-- Settles O21: each clause is the equation of its step where the step is enabled. That unspent allotments return to the central count (log
entry 32), to whom a fault of a save area is owed (log entries 37 and 144) and what tag a save leaves (log entry 126) are deduced. -/
theorem sliceEventsTakeEffect : Obligations.SliceEventsTakeEffect := by
  unfold Obligations.SliceEventsTakeEffect
  refine ⟨fun s i r r2 p c a o places tag phys => ⟨admissionEvaluation_evaluates,
      fun hr => ⟨?completes, ?endsKill, ?killAgain, ?killFirst, ?save, ?load⟩⟩,
    fun s i r c n deadline k y => ⟨fun hr => ⟨?draw, ?recalled, ?exhausted, ?resumes, ?suspends, ?adds, ?requeue, ?missed, ?stalled⟩,
      fun hy hr hst hleave => ⟨fun hleft => ?yields, fun hzero hroom => ?yieldHalts⟩⟩,
    fun s q x e rest pkg vf n code tail => ⟨heldEventAppend_appends, fun hvf hn hfits => ?rings, fun hvf hn hbeyond => ?ignored,
      fun hnext hroom hswap => ⟨fun hlegal => ?submits, fun hcode => ?reports⟩⟩⟩
  case completes => exact sliceCompletion_completes hr
  case endsKill => exact sliceCompletion_endsKill hr
  case killAgain => exact kill_again hr
  case killFirst => exact kill_first hr
  case save => exact accumulatorSave_saves hr
  case load => exact accumulatorLoad_loads hr
  case draw => exact allotmentDraw_draws hr
  case recalled => exact allotmentRecall_recalls hr
  case exhausted => exact budgetExhausted_halts hr
  case resumes => exact budgetExtension_resumes hr
  case suspends => exact budgetExtension_suspends hr
  case adds => exact budgetExtension_adds hr
  case requeue => exact requeue_suspends hr
  case missed => exact deadlineMissed_reports hr
  case stalled => exact stalled_reports hr
  case yields => exact (exec_sliceYieldMessage hy hr hst hleave fun h => absurd h hleft).trans (if_neg hleft)
  case yieldHalts => exact (exec_sliceYieldMessage hy hr hst hleave fun _ => hroom).trans (if_pos hzero)
  case rings => exact (exec_doorbell hvf hn).trans (if_neg (Nat.not_lt.2 hfits))
  case ignored => exact (exec_doorbell hvf hn).trans (if_pos hbeyond)
  case submits => exact (launchRecord_taken hnext hroom hswap).trans (if_pos hlegal)
  case reports => simp only [launchRecord_taken hnext hroom hswap, hcode, Nat.add_one_ne_zero, if_false]

end Sys2Proof.Machine
end

section
/-!
Where the lines of a window stand: in a thread's window space, below its base workspace and in it (R73, R29), and in the data range of a
slice's grant (R97). Where window space stands is the model's choice (log entry 12).
-/
namespace Sys2Proof.Machine

/-- Lines that stand whole are apart from one another as soon as each is apart from those after it. -/
theorem WindowStands.of_lines {s : State} {t : ThreadId} {sl : SliceId} {w : Word}
    (hwhole : ∀ i k, i < winLines → k < 64 → winByte s t sl w (64 * i + k) = winByte s t sl w (64 * i) + k)
    (hapart : ∀ i j, i < j → j < winLines → winByte s t sl w (64 * i) + 64 ≤ winByte s t sl w (64 * j) ∨
      winByte s t sl w (64 * j) + 64 ≤ winByte s t sl w (64 * i)) : WindowStands s t sl w := by
  refine ⟨hwhole, fun i j hi hj hne => ?_⟩
  rcases Nat.lt_or_gt_of_ne (hne.resolve_left (absurd rfl)) with hij | hij
  · exact hapart i j hij hj
  · exact (hapart j i hij hi).symm

/-! ### Bytes of a scratchpad and of window space -/

theorem addrSpad_add (c : CoreId) (off k : Nat) : addrSpad c (off + k) = addrSpad c off + k := (Nat.add_assoc _ _ _).symm

theorem addrSpad_line_le {off off' : Nat} (c : CoreId) (h : off + 64 ≤ off') : addrSpad c off + 64 ≤ addrSpad c off' :=
  Nat.le_trans (Nat.le_of_eq (addrSpad_add c off 64).symm) (Nat.add_le_add_left h _)

theorem addrWindow_add {a : Int} (t : ThreadId) (ha : -2 ^ 53 ≤ a) (k : Nat) : addrWindow t (a + k) = addrWindow t a + k := by
  have hoff : (a + k + 2 ^ 53).toNat = (a + 2 ^ 53).toNat + k := by omega
  unfold addrWindow
  rw [hoff]
  exact (Nat.add_assoc _ _ _).symm

theorem addrWindow_line_le {a b : Int} (t : ThreadId) (ha : -2 ^ 53 ≤ a) (hb : a + 64 ≤ b) : addrWindow t a + 64 ≤ addrWindow t b :=
  Nat.le_trans (Nat.le_of_eq (addrWindow_add t ha 64).symm) (Nat.add_le_add_left (by omega) _)

/-- A die's scratchpads end below every thread's window space. -/
theorem addrSpad_line_le_addrWindow {t : ThreadId} {off : Nat} (hdie : t.core.die < 4) (hcore : t.core.core < 256) (hoff : off + 64 ≤ 2 ^ 19)
    (a : Int) : addrSpad t.core off + 64 ≤ addrWindow t a := by
  unfold addrSpad addrWindow
  change (_ : Nat) ≤ _
  omega

/-! ### The data range -/

theorem winByte_data {s : State} {t : ThreadId} {sl : SliceId} {w : Word} {r : SliceRec} {g : Grant} (hw : wfield w 54 2 ≠ 3)
    (hr : s.slice? sl = some r) (hg : r.grant? t.core = some g) (off : Nat) :
    winByte s t sl w off = addrSpad t.core (g.data + wfield w 0 23 + off) := by
  simp only [winByte, hw, if_false, hr, Option.bind_some, hg]

theorem windowStands_of_data {s : State} {t : ThreadId} {sl : SliceId} {w : Word} {r : SliceRec} {g : Grant} (hw : wfield w 54 2 ≠ 3)
    (hr : s.slice? sl = some r) (hg : r.grant? t.core = some g) : WindowStands s t sl w := by
  have hbyte := winByte_data hw hr hg
  refine .of_lines (fun i k _ _ => ?whole) fun i j hij _ => .inl ?apart
  case whole => rw [hbyte, hbyte, ← addrSpad_add, ← Nat.add_assoc]
  case apart =>
    rw [hbyte, hbyte]
    exact addrSpad_line_le _ (by omega)

/-! ### Window space -/

/-- The base workspace of a slot begins at a line's first byte. -/
theorem slotBase_mod_line (n : Nat) : slotBase n % 64 = 0 := by
  unfold slotBase
  omega

/-- The base workspaces of a slice's slots lie in the work area, which ends with the view (R29). -/
theorem work_le_slotBase {n nslots : Nat} (hslot : n < nslots) : 0x80000 - nslots * 0x2400 ≤ slotBase n := by
  unfold slotBase
  omega

theorem slotBase_line_end {n : Nat} (hfits : (n + 1) * 0x2400 ≤ 0x80000) : slotBase n + 64 * winLines ≤ 0x80000 := by
  unfold slotBase winLines
  omega

/-- A window address has 54 bits, the sign among them (R143). -/
theorem neg_le_waddrOf (w : Word) : -2 ^ 53 ≤ waddrOf w := by
  simp only [waddrOf, signed]
  split <;> omega

section WindowSpace
variable {s : State} {t : ThreadId} {sl : SliceId} {w : Word} {r : SliceRec} {g : Grant}

theorem winByte_below (hw : wfield w 54 2 = 3) {off : Nat} (hoff : waddrOf w + off < slotBase t.ridx) :
    winByte s t sl w off = addrWindow t (waddrOf w + off) := (if_pos hw).trans (if_pos hoff)

/-- The work area of a grant holds the last bytes of the view, where the base workspaces are (R29). -/
theorem winByte_base (hw : wfield w 54 2 = 3) (hr : s.slice? t.slice = some r) (hg : r.grant? t.core = some g) {off : Nat}
    (hoff : slotBase t.ridx ≤ waddrOf w + off) :
    winByte s t sl w off = addrSpad t.core (g.work + ((waddrOf w + off).toNat - (0x80000 - r.nslots * 0x2400))) := by
  simp only [winByte, windowByte, if_pos hw, if_neg (Int.not_lt.2 hoff), hr, hg]

/-- A line does not cross the start of the base workspace: it stands wholly below it or wholly in the scratchpad. -/
theorem windowSpace_line_whole (hw : wfield w 54 2 = 3) (hline : waddrOf w % 64 = 0) (hr : s.slice? t.slice = some r)
    (hg : r.grant? t.core = some g) (hslot : t.ridx < r.nslots) (i : Nat) {k : Nat} (hk : k < 64) :
    winByte s t sl w (64 * i + k) = winByte s t sl w (64 * i) + k := by
  have hbase := slotBase_mod_line t.ridx
  have hmin := neg_le_waddrOf w
  rcases Int.lt_or_le (waddrOf w + (64 * i : Nat)) (slotBase t.ridx) with hi | hi
  · rw [winByte_below hw hi, winByte_below hw (by omega), Int.natCast_add, ← Int.add_assoc, addrWindow_add t (by omega)]
  · have hwork := work_le_slotBase hslot
    have hoff : g.work + ((waddrOf w + (64 * i + k : Nat)).toNat - (0x80000 - r.nslots * 0x2400)) =
        g.work + ((waddrOf w + (64 * i : Nat)).toNat - (0x80000 - r.nslots * 0x2400)) + k := by omega
    rw [winByte_base hw hr hg hi, winByte_base hw hr hg (by omega), hoff, addrSpad_add]

/-- The later of two lines stands above the earlier one, or in the scratchpad below window space. -/
theorem windowSpace_lines_apart (hw : wfield w 54 2 = 3) (hstart : waddrOf w ≤ slotBase t.ridx)
    (hdie : t.core.die < 4) (hcore : t.core.core < 256) (hr : s.slice? t.slice = some r) (hg : r.grant? t.core = some g)
    (hslot : t.ridx < r.nslots) (hwork : g.work + r.nslots * 0x2400 ≤ 2 ^ 19) {i j : Nat} (hij : i < j) (hj : j < winLines) :
    winByte s t sl w (64 * i) + 64 ≤ winByte s t sl w (64 * j) ∨ winByte s t sl w (64 * j) + 64 ≤ winByte s t sl w (64 * i) := by
  have hmin := neg_le_waddrOf w
  have hlow := work_le_slotBase hslot
  have hbase : slotBase t.ridx + 64 * winLines ≤ 0x80000 := slotBase_line_end (by omega)
  have hend := Int.add_le_add_right hstart (64 * winLines)
  rcases Int.lt_or_le (waddrOf w + (64 * j : Nat)) (slotBase t.ridx) with hjb | hjb
  · rw [winByte_below hw (by omega), winByte_below hw hjb]
    exact .inl (addrWindow_line_le t (by omega) (by omega))
  · rw [winByte_base hw hr hg hjb]
    rcases Int.lt_or_le (waddrOf w + (64 * i : Nat)) (slotBase t.ridx) with hib | hib
    · rw [winByte_below hw hib]
      exact .inr (addrSpad_line_le_addrWindow hdie hcore (by omega) _)
    · rw [winByte_base hw hr hg hib]
      exact .inl (addrSpad_line_le _ (by omega))

end WindowSpace

/-- Settles O32: in window space a line stands on one side of the start of the base workspace, and in the data range the bytes are
consecutive. Where window space stands is the model's choice (log entry 12). -/
theorem windowsStand : Obligations.WindowsStand := by
  unfold Obligations.WindowsStand
  refine fun s t sl r r' g g' w => ⟨fun hw hline hstart hdie hcore hr hg hslot hwork => ?windowSpace, windowStands_of_data⟩
  case windowSpace =>
    exact .of_lines (fun i k _ hk => windowSpace_line_whole hw hline hr hg hslot i hk) fun i j hij hj =>
      windowSpace_lines_apart hw hstart hdie hcore hr hg hslot hwork hij hj

end Sys2Proof.Machine
end

section
/-!
A turn of a ready thread with nothing due: the slot at its PC is fetched (R77 to R79) and checked (R81, R103), and what it decodes to runs,
with the instruction that pairs with it (R72).
-/
namespace Sys2Proof.Machine

/-! ### The fetched slot -/

/-- The line at a physical address stands at a, where the slot that a PC names and the line word are free of poison, and the slot holds w. -/
structure SlotHolds (s : State) (pkg pa : Nat) (pc : Word) (a : Addr) (w : IWord) : Prop where
  place : a = addrHbm pkg (pa / 64 * 64)
  slotClean : s.poisoned (a + 12 * wfield pc 0 3) 12 = false
  wordClean : s.poisoned (a + 60) 4 = false
  word : w = lineSlot (s.rd a 64) (wfield pc 0 3)

section Slot
variable {s : State} {pkg pa : Nat} {pc : Word} {a : Addr} {w : IWord}

theorem fetchAt_parity (h : SlotHolds s pkg pa pc a w) (hpar : parity96 w ≠ linePar (lineWord (s.rd a 64)) (wfield pc 0 3)) :
    fetchAt s pkg pa pc = .parity := by
  obtain ⟨rfl, hslot, hword, rfl⟩ := h
  simp only [fetchAt, hslot, hword, bne_iff_ne.2 hpar, Bool.or_self, Bool.false_eq_true, if_false, if_true]

variable (h : SlotHolds s pkg pa pc a w) (hpar : parity96 w = linePar (lineWord (s.rd a 64)) (wfield pc 0 3))
include h hpar

theorem fetchAt_reserved (hres : lineRes0 (lineWord (s.rd a 64)) = true) :
    fetchAt s pkg pa pc = .trap (mkTrap 1 0 (w.toNat % 2 ^ 13 * 2 ^ 32 + 1)) := by
  obtain ⟨rfl, hslot, hword, rfl⟩ := h
  simp only [fetchAt, hslot, hword, hpar, hres, bne_self_eq_false, Bool.or_self, Bool.false_eq_true, if_false, if_true]

variable (hres : lineRes0 (lineWord (s.rd a 64)) = false)
include hres

theorem fetchAt_ok {i : Instr} (hi : decode w = .ok i) :
    fetchAt s pkg pa pc = .instr i (linePair (lineWord (s.rd a 64)) (wfield pc 0 3)) pa := by
  obtain ⟨rfl, hslot, hword, rfl⟩ := h
  simp only [fetchAt, hslot, hword, hpar, hres, hi, bne_self_eq_false, Bool.or_self, Bool.false_eq_true, if_false]

theorem fetchAt_bad {err : DecodeError} (he : decode w = .bad err) :
    fetchAt s pkg pa pc = .trap (mkTrap 1 0 (w.toNat % 2 ^ 13 * 2 ^ 32)) := by
  obtain ⟨rfl, hslot, hword, rfl⟩ := h
  simp only [fetchAt, hslot, hword, hpar, hres, he, bne_self_eq_false, Bool.or_self, Bool.false_eq_true, if_false]

end Slot

/-- A PC that is legal and canonical, of an executable page that the core's TLB holds, is fetched from that page (R79, R80). -/
theorem fetch_of_tlb {s : State} {t : ThreadId} {th : Thread} {e : TlbEnt} (hline : wfield th.ctl.pc 3 3 = 0) (hslot : wfield th.ctl.pc 0 3 ≤ 4)
    (hcanon : th.ctl.pc.toNat < 2 ^ 52) (he : tlbFind (s.core t.core).tlb th.ctl.slice.part th.ctl.pc.toNat = some e) (hex : e.ex = true) :
    fetch s t th = fetchAt s th.ctl.slice.part.pkg (e.pbase * 2 ^ e.log2 + th.ctl.pc.toNat % 2 ^ e.log2) th.ctl.pc := by
  have hlegal : ¬ (wfield th.ctl.pc 3 3 ≠ 0 ∨ wfield th.ctl.pc 0 3 > 4) := by omega
  unfold fetch
  simp only [hlegal, Nat.not_le.2 hcanon, he, hex, if_true, if_false]

/-! ### The instruction and its pair -/

section Runs
variable {s : State} {t : ThreadId} {th : Thread}

/-- Where no entry has its target checked first (R80), the fetch decides. -/
theorem runAt_of_trap (hfirst : th.ctl.first = false) {r : TrapRec} (hf : fetch s t th = .trap r) :
    runAt s t th = .next (takeTrap t r (chargeTurn s t)) := by
  simp only [runAt, hfirst, hf, trapTurn, Bool.false_eq_true, if_false]

theorem runAt_of_parity (hfirst : th.ctl.first = false) (hf : fetch s t th = .parity) :
    runAt s t th = .next (s.modThread t fun th => { th with phase := .refetch }) := by
  simp only [runAt, hfirst, hf, Bool.false_eq_true, if_false]

theorem runAt_of_instr (hfirst : th.ctl.first = false) {i : Instr} {pair : Bool} {pa : Nat} (hf : fetch s t th = .instr i pair pa) :
    runAt s t th = runPair t th (secondOf (touchPlain s t.core pa) t.core.pkg pa th.ctl.pc pair i) (exec i (touchPlain s t.core pa)) := by
  simp only [runAt, hfirst, hf, Bool.false_eq_true, if_false]

theorem runPair_none (r : Host.Outcome State Fault Refusal) : runPair t th none r = r := rfl

theorem runPair_goesOn {j : Instr} (hgo : goesOn t th s = true) : runPair t th (some j) (.next s) = runSecond t j s := if_pos hgo

theorem runPair_stays {j : Instr} (hstay : goesOn t th s = false) : runPair t th (some j) (.next s) = .next s := by
  simp only [runPair, hstay, Bool.false_eq_true, if_false]

end Runs

/-! ### The turn -/

/-- A thread that takes a turn between two instructions, and to which nothing is due there. -/
structure TurnIsPlain (s : State) (t : ThreadId) (th : Thread) : Prop where
  live : s.thread? t = some th
  issues : canIssue s t th = true
  ready : th.phase = .ready
  nothingDue : th.due = Due.none
  offBoundary : th.ctl.repBnd = false
  accepted : abandonRefused s t = false

/-- The end of a turn that began in the state before: where it was a debugger's step, the thread is stopped again (R290). -/
def endTurn (before : State) (t : ThreadId) : Host.Outcome State Fault Refusal → Host.Outcome State Fault Refusal
  | .next s => .next (endStep before s t)
  | o => o

theorem endTurn_next (before s : State) (t : ThreadId) : endTurn before t (.next s) = .next (endStep before s t) := rfl

theorem dueNow_of_none {th : Thread} (h : th.due = Due.none) (s : State) (t : ThreadId) : dueNow s t th = none := by
  simp only [dueNow, h, Due.none]

theorem turnOf_plain {s : State} {t : ThreadId} {th : Thread} (h : TurnIsPlain s t th) : turnOf s t th = runAt s t th := by
  obtain ⟨_, _, hready, hdue, hbody, haccepted⟩ := h
  have hfault : th.due.fault = none := congrArg Due.fault hdue
  simp only [turnOf, dueNow_of_none hdue, hready, hbody, hfault, haccepted, ne_eq, not_true_eq_false, Bool.false_and, Bool.false_eq_true, if_false]

/-- The step of a thread's turn is that turn in the state where the thread is the actor and its turn is off the agenda. -/
theorem step_of_plain {s : State} {t : ThreadId} {th : Thread} {rest : List Turn} (hagenda : s.agenda = .thread t :: rest)
    (h : TurnIsPlain { s with agenda := rest, cur := .thread t } t th) :
    step s = endTurn { s with agenda := rest, cur := .thread t } t (runAt { s with agenda := rest, cur := .thread t } t th) := by
  have hturn := turnOf_plain h
  obtain ⟨hlive, hissues, hready, _⟩ := h
  simp only [step, hagenda, runTurn, turnThread, hlive, hready, hissues, hturn, reduceCtorEq, if_false, if_true]
  rfl

/-- Settles O42: the step is the end of the turn, whose outcome the fetched slot decides. -/
theorem stepRunsDecoded : Obligations.StepRunsDecoded := by
  unfold Obligations.StepRunsDecoded
  rintro s _ t th rest e _ a w i err hagenda rfl hlive hissues hready hdue hbody hfirst haccepted hline hslot hcanon he hex rfl ha hslotClean
    hwordClean hw
  have hstep := step_of_plain hagenda ⟨hlive, hissues, hready, hdue, hbody, haccepted⟩
  have hfetch := fetch_of_tlb hline hslot hcanon he hex
  have hword := SlotHolds.mk ha hslotClean hwordClean hw
  refine ⟨fun hpar => ?parity, fun hpar hres => ?reserved, fun hpar hres => ⟨fun hi => ⟨fun hj => ?single, fun j s2 s3 hj h2 hgo h3 => ?pair,
    fun j s2 hj h2 hstay => ?first⟩, fun he => ?bad⟩⟩
  case parity => rw [hstep, runAt_of_parity hfirst (hfetch.trans (fetchAt_parity hword hpar)), endTurn_next]
  case reserved => rw [hstep, runAt_of_trap hfirst (hfetch.trans (fetchAt_reserved hword hpar hres)), endTurn_next]
  case bad => rw [hstep, runAt_of_trap hfirst (hfetch.trans (fetchAt_bad hword hpar hres he)), endTurn_next]
  all_goals rw [hstep, runAt_of_instr hfirst (hfetch.trans (fetchAt_ok hword hpar hres hi)), hj]
  case single => rw [runPair_none]; rfl
  case pair => rw [h2, runPair_goesOn hgo, h3, endTurn_next]
  case first => rw [h2, runPair_stays hstay, endTurn_next]

end Sys2Proof.Machine
end

section
/-!
Class 3 in binary mode (R131, R330, R333 to R337) and the conversions that name no slash64 (R338), each from operands that are read; FSGN reads
the same sources in either mode.
-/
namespace Sys2Proof.Machine

/-! ### Issue past the check of the format, and FSGN -/

section Modes
variable {h : Hdr} {t : ThreadId} {th : Thread} {s s0 s1 s2 : State} {k : Captured}

/-- An instruction whose encoding the state leaves legal is retired when its meaning completes (R102). -/
theorem issueCheck_runs {bad : Option TrapRec} {body : Exec Flow} {f : Flow} (hi : Issues h t th s s0) (hlegal : bad = none)
    (hbody : Runs body s0 f s1) : issueCheck bad h body s = retired t h f s1 := by
  subst hlegal
  exact issue_runs hi hbody

/-- What both branches of a choice go on with follows the choice. -/
theorem Runs.branch {α β : Type} {p : Prop} [Decidable p] {m n : Exec α} {f : α → Exec β} {a : α} {b : β}
    (hchoice : Runs (if p then m else n) s a s1) (hrest : Runs (f a) s1 b s2) : Runs (if p then m >>= f else n >>= f) s b s2 := by
  by_cases hp : p
  · rw [if_pos hp] at hchoice ⊢
    exact Runs.bind hchoice hrest
  · rw [if_neg hp] at hchoice ⊢
    exact Runs.bind hchoice hrest

/-- How FSGN ends once it has its operands: in the GCD unit in rational mode (R141), at its register in binary mode (R337). -/
def fsgnEnd (q : Bool) (d : Reg) (op fmt : BitVec 2) (x y : Word) : Exec Unit :=
  if q then enterGcd [(d.val, fsgnW op.toNat 64 x y)] none 0 else wrReg d (fsgnW op.toNat (fmtQ fmt).bits x y)

section Fsgn
variable {d : Reg} {a b : Opnd} {op fmt : BitVec 2} {x y : Word}
  (hi : Issues h t th s s0) (hlegal : badFormat (.fsgn h d a b op fmt) fmt s = none) (hk : Runs capture s0 k s0)
include hi hlegal hk

/-- OP 0 and 3 read both operands. -/
theorem fsgn_ofTwo (hop : op = 0 ∨ op = 3) (hread : Runs (rd2 h a (.op b)) s0 (x, y) s1)
    (hend : Runs (fsgnEnd k.qmode d op fmt x y) s1 () s2) : exec (.fsgn h d a b op fmt) s = retired t h .seq s2 := by
  refine issueCheck_runs hi hlegal (Runs.bind hk ?_)
  simp only [if_pos hop]
  exact Runs.bind hread (Runs.branch hend (Runs.pure _ s2))

/-- OP 1 and 2 read the first operand alone. -/
theorem fsgn_ofOne (hop : op = 1 ∨ op = 2) (hread : Runs (rd1 h a) s0 x s1)
    (hend : Runs (fsgnEnd k.qmode d op fmt x x) s1 () s2) : exec (.fsgn h d a b op fmt) s = retired t h .seq s2 := by
  have hone : ¬ (op = 0 ∨ op = 3) := by rcases hop with rfl | rfl <;> decide
  refine issueCheck_runs hi hlegal (Runs.bind hk ?_)
  simp only [if_neg hone]
  exact Runs.bind hread (Runs.bind (Runs.pure _ s1) (Runs.branch hend (Runs.pure _ s2)))

end Fsgn

end Modes

/-! ### Arithmetic: one equation per instruction, in both modes -/

section Equations
variable (h : Hdr) (d : Reg) (a b c : Opnd) (fmt : BitVec 2) (s : State)

theorem exec_fadd : exec (.fadd h d a b fmt) s =
    floatOp (.fadd h d a b fmt) h d [a, b] fmt false (fun k f => on2 (addF k f)) (fun k => onQ2 (addQV k)) s := rfl
theorem exec_fsub : exec (.fsub h d a b fmt) s =
    floatOp (.fsub h d a b fmt) h d [a, b] fmt false (fun k f => on2 (subF k f)) (fun k => onQ2 fun x y => addQV k x y.neg) s := rfl
theorem exec_fmul : exec (.fmul h d a b fmt) s =
    floatOp (.fmul h d a b fmt) h d [a, b] fmt false (fun k f => on2 (mulF k f)) (fun k => onQ2 (mulQV k)) s := rfl
theorem exec_fdiv : exec (.fdiv h d a b fmt) s =
    floatOp (.fdiv h d a b fmt) h d [a, b] fmt true (fun k f => on2 (divF k f)) (fun k => onQ2 (divQV k)) s := rfl
theorem exec_fma : exec (.fma h d a b c fmt) s =
    floatOp (.fma h d a b c fmt) h d [a, b, c] fmt false (fun k f => on3 (fmaF k f)) (fun k => onQ3 (fmaQV k)) s := rfl
theorem exec_fsqrt : exec (.fsqrt h d a fmt) s =
    floatOp (.fsqrt h d a fmt) h d [a] fmt true (fun k f => on1 (sqrtF k f)) (fun k => onQ1 (sqrtQV k)) s := rfl
theorem exec_fmin : exec (.fmin h d a b fmt) s =
    floatOp (.fmin h d a b fmt) h d [a, b] fmt false (fun k f => on2 (minMaxF false k f)) (fun _ => onQ2 (minMaxQV false)) s := rfl
theorem exec_fmax : exec (.fmax h d a b fmt) s =
    floatOp (.fmax h d a b fmt) h d [a, b] fmt false (fun k f => on2 (minMaxF true k f)) (fun _ => onQ2 (minMaxQV true)) s := rfl

end Equations

/-! ### Arithmetic, by the number of operands -/

/-- How an arithmetic instruction ends in binary mode: in the divider where it is slow (R330), at its register otherwise. -/
def floatEnd (slow : Bool) (d : Reg) (r : FRes) : Exec Unit :=
  if slow then enterDiv [(d.val, BitVec.ofNat 64 r.bits)] none r.flags
  else do
    wrReg d (BitVec.ofNat 64 r.bits)
    raiseFlags r.flags

section Arithmetic
variable {i : Instr} {h : Hdr} {t : ThreadId} {th : Thread} {s s0 s1 s2 : State} {k : Captured} {d : Reg} {a b c : Opnd} {x y z : Word}
  {fmt : BitVec 2} {slow : Bool} {rat : Captured → List QV → FRes}
  (hi : Issues h t th s s0) (hlegal : badFormat i fmt s = none) (hk : Runs capture s0 k s0) (hq : k.qmode = false)
include hi hlegal hk hq

theorem floatOp_binary1 {op : Captured → Fmt → Nat → FRes} (hread : Runs (do waitOpnds h [a] []; rdAll h [a]) s0 [(a, x)] s1)
    (hend : Runs (floatEnd slow d (op k (fmtQ fmt) (x.toNat % 2 ^ (fmtQ fmt).bits))) s1 () s2) :
    floatOp i h d [a] fmt slow (fun k f => on1 (op k f)) rat s = retired t h .seq s2 :=
  floatOp_binary hi hlegal hk hq hread hend

theorem floatOp_binary2 {op : Captured → Fmt → Nat → Nat → FRes}
    (hread : Runs (do waitOpnds h [a, b] []; rdAll h [a, b]) s0 [(a, x), (b, y)] s1)
    (hend : Runs (floatEnd slow d (op k (fmtQ fmt) (x.toNat % 2 ^ (fmtQ fmt).bits) (y.toNat % 2 ^ (fmtQ fmt).bits))) s1 () s2) :
    floatOp i h d [a, b] fmt slow (fun k f => on2 (op k f)) rat s = retired t h .seq s2 :=
  floatOp_binary hi hlegal hk hq hread hend

theorem floatOp_binary3 {op : Captured → Fmt → Nat → Nat → Nat → FRes}
    (hread : Runs (do waitOpnds h [a, b, c] []; rdAll h [a, b, c]) s0 [(a, x), (b, y), (c, z)] s1)
    (hend : Runs (floatEnd slow d (op k (fmtQ fmt) (x.toNat % 2 ^ (fmtQ fmt).bits) (y.toNat % 2 ^ (fmtQ fmt).bits)
      (z.toNat % 2 ^ (fmtQ fmt).bits))) s1 () s2) :
    floatOp i h d [a, b, c] fmt slow (fun k f => on3 (op k f)) rat s = retired t h .seq s2 :=
  floatOp_binary hi hlegal hk hq hread hend

end Arithmetic

/-! ### Comparison, class and conversion -/

section Binary
variable {h : Hdr} {t : ThreadId} {th : Thread} {s s0 s1 s2 : State} {k : Captured} {d : Reg} {gd : BitVec 3} {a b : Opnd} {x y : Word}
  {fmt : BitVec 2} {cond src dst : BitVec 4} {o : Option Ordering} {fl : Nat}

theorem fcmp_binary (hi : Issues h t th s s0) (hlegal : badFormat (.fcmp h gd a b fmt cond) fmt s = none) (hk : Runs capture s0 k s0)
    (hq : k.qmode = false) (hread : Runs (rd2 h a (.op b)) s0 (x, y) s1)
    (hcmp : fcmpBin k (fmtQ fmt) cond.toNat (x.toNat % 2 ^ (fmtQ fmt).bits) (y.toNat % 2 ^ (fmtQ fmt).bits) = (o, fl))
    (hend : Runs (do setGuard gd (fcmpHolds cond.toNat o); raiseFlags fl) s1 () s2) :
    exec (.fcmp h gd a b fmt cond) s = retired t h .seq s2 := by
  obtain ⟨_, _, hguard, hflags⟩ := Runs.split hend
  refine issueCheck_runs hi hlegal (Runs.bind hk (Runs.bind hread ?_))
  simp only [hq, Bool.false_eq_true, if_false, hcmp]
  exact Runs.bind hguard (Runs.bind hflags (Runs.pure _ s2))

/-- FCLASS raises no flag. -/
theorem fclass_binary (hi : Issues h t th s s0) (hlegal : badFormat (.fclass h d a fmt) fmt s = none) (hk : Runs capture s0 k s0)
    (hq : k.qmode = false) (hread : Runs (rd1 h a) s0 x s1)
    (hend : Runs (wrReg d (BitVec.ofNat 64 (classBin (fmtQ fmt) (x.toNat % 2 ^ (fmtQ fmt).bits)))) s1 () s2) :
    exec (.fclass h d a fmt) s = retired t h .seq s2 := by
  refine issueCheck_runs hi hlegal (Runs.bind hk (Runs.bind hread ?_))
  rw [if_neg (Bool.eq_false_iff.1 hq)]
  exact Runs.bind hend (Runs.pure _ s2)

/-- A conversion that names no slash64 asks for no mode. -/
theorem fcvt_binary (hi : Issues h t th s s0) (hk : Runs capture s0 k s0) (hsrc : src ≠ 6) (hdst : dst ≠ 6) (hread : Runs (rd1 h a) s0 x s1)
    (hend : Runs (do
      wrReg d (BitVec.ofNat 64 (convertF k src.toNat dst.toNat x.toNat).bits)
      raiseFlags (convertF k src.toNat dst.toNat x.toNat).flags) s1 () s2) : exec (.fcvt h d a src dst) s = retired t h .seq s2 := by
  refine issueSeq_runs hi (Runs.bind hk (Runs.bind hread ?_))
  rw [if_neg (not_or.2 ⟨hsrc, hdst⟩)]
  exact hend

end Binary

/-- Settles O7: the arithmetic is a floatOp in binary mode, and each other instruction goes on from its operands to its result. -/
theorem binaryFloatInstructionsComplete : Obligations.BinaryFloatInstructionsComplete := by
  unfold Obligations.BinaryFloatInstructionsComplete
  refine ⟨?arithmetic, ?others⟩
  case arithmetic =>
    rintro h t th s s0 s1 s2 d a b c x y z fmt k _ _ _ _ hi hlegal hk hq rfl rfl rfl rfl
    simp only [exec_fadd, exec_fsub, exec_fmul, exec_fdiv, exec_fma, exec_fsqrt, exec_fmin, exec_fmax]
    refine ⟨fun hread => ⟨?add, ?sub, ?mul, ?min, ?max, ?div⟩, ?fma, ?sqrt⟩
    case fma => exact fun hread hend => floatOp_binary3 hi (hlegal _) hk hq hread hend
    case sqrt => exact fun hread hend => floatOp_binary1 hi (hlegal _) hk hq hread hend
    all_goals exact fun hend => floatOp_binary2 hi (hlegal _) hk hq hread hend
  case others =>
    rintro h t th s s0 s1 s2 d a b x y fmt op k gd cond src dst _ o fl hi hlegal hk rfl
    refine ⟨fcmp_binary hi (hlegal _) hk, fclass_binary hi (hlegal _) hk, fun hq hop hread hend => fsgn_ofTwo hi (hlegal _) hk hop hread ?signOfTwo,
      fun hq hop hread hend => fsgn_ofOne hi (hlegal _) hk hop hread ?signOfOne, fcvt_binary hi hk⟩
    all_goals rwa [fsgnEnd, if_neg (Bool.eq_false_iff.1 hq)]

end Sys2Proof.Machine
end

section
/-!
Class 3 in rational mode (R131, R132, R134), the instructions over slash64 values in either mode (R140, R338, R388), and the completion of an
operation of the GCD unit (R141, R142).
-/
namespace Sys2Proof.Machine

/-! ### Rational mode: arithmetic, by the number of operands -/

section Arithmetic
variable {i : Instr} {h : Hdr} {t : ThreadId} {th : Thread} {s s0 s1 s2 : State} {k : Captured} {d : Reg} {a b c : Opnd} {x y z : Word}
  {slow : Bool} {bin : Captured → Fmt → List Nat → FRes} (hi : Issues h t th s s0) (hk : Runs capture s0 k s0) (hq : k.qmode = true)
include hi hk hq

theorem floatOp_rational1 {op : Captured → QV → FRes} (hread : Runs (do waitOpnds h [a] []; rdAll h [a]) s0 [(a, x)] s1)
    (hcheck : Runs (do gcdReady [d.val] 0; checkKs [(a, x)]) s1 () s1)
    (hend : Runs (enterGcd [(d.val, BitVec.ofNat 64 (op k (slashValue x.toNat)).bits)] none
      ((op k (slashValue x.toNat)).flags ||| qrAll [(a, x)])) s1 () s2) :
    floatOp i h d [a] 0 slow bin (fun k => onQ1 (op k)) s = retired t h .seq s2 :=
  floatOp_rational hi hk hq hread hcheck hend

theorem floatOp_rational2 {op : Captured → QV → QV → FRes}
    (hread : Runs (do waitOpnds h [a, b] []; rdAll h [a, b]) s0 [(a, x), (b, y)] s1)
    (hcheck : Runs (do gcdReady [d.val] 0; checkKs [(a, x), (b, y)]) s1 () s1)
    (hend : Runs (enterGcd [(d.val, BitVec.ofNat 64 (op k (slashValue x.toNat) (slashValue y.toNat)).bits)] none
      ((op k (slashValue x.toNat) (slashValue y.toNat)).flags ||| qrAll [(a, x), (b, y)])) s1 () s2) :
    floatOp i h d [a, b] 0 slow bin (fun k => onQ2 (op k)) s = retired t h .seq s2 :=
  floatOp_rational hi hk hq hread hcheck hend

theorem floatOp_rational3 {op : Captured → QV → QV → QV → FRes}
    (hread : Runs (do waitOpnds h [a, b, c] []; rdAll h [a, b, c]) s0 [(a, x), (b, y), (c, z)] s1)
    (hcheck : Runs (do gcdReady [d.val] 0; checkKs [(a, x), (b, y), (c, z)]) s1 () s1)
    (hend : Runs (enterGcd [(d.val, BitVec.ofNat 64 (op k (slashValue x.toNat) (slashValue y.toNat) (slashValue z.toNat)).bits)] none
      ((op k (slashValue x.toNat) (slashValue y.toNat) (slashValue z.toNat)).flags ||| qrAll [(a, x), (b, y), (c, z)])) s1 () s2) :
    floatOp i h d [a, b, c] 0 slow bin (fun k => onQ3 (op k)) s = retired t h .seq s2 :=
  floatOp_rational hi hk hq hread hcheck hend

end Arithmetic

/-! ### Rational mode: comparison and class -/

/-- The one FMT that rational mode assigns is assigned in binary mode too (R131). -/
theorem badFormat_zero (i : Instr) (s : State) : badFormat i 0 s = none := by
  unfold badFormat
  split
  · split
    · rw [decide_eq_false (not_not_intro rfl), Bool.and_false, if_neg Bool.false_ne_true]
    · rfl
  · rfl

section Rational
variable {h : Hdr} {t : ThreadId} {th : Thread} {s s0 s1 s2 : State} {k : Captured} {d : Reg} {gd : BitVec 3} {a b : Opnd} {x y : Word}
  {cond : BitVec 4} (hi : Issues h t th s s0) (hk : Runs capture s0 k s0) (hq : k.qmode = true)
include hi hk hq

theorem fcmp_rational (hread : Runs (rd2 h a (.op b)) s0 (x, y) s1)
    (hcheck : Runs (do gcdReady [] gd.toNat; checkKs [(a, x), (b, y)]) s1 () s1)
    (hend : Runs (enterGcd [] (some (gd.toNat, fcmpHolds cond.toNat (fcmpRat (slashValue x.toNat) (slashValue y.toNat))))
      (qrAll [(a, x), (b, y)])) s1 () s2) : exec (.fcmp h gd a b 0 cond) s = retired t h .seq s2 := by
  obtain ⟨_, _, hready, hks⟩ := Runs.split hcheck
  refine issueCheck_runs hi (badFormat_zero _ s) (Runs.bind hk (Runs.bind hread ?_))
  simp only [if_pos hq]
  exact Runs.bind hready (Runs.bind hks (Runs.bind hend (Runs.pure _ s2)))

theorem fclass_rational (hread : Runs (rd1 h a) s0 x s1) (hcheck : Runs (do gcdReady [d.val] 0; checkK a x) s1 () s1)
    (hend : Runs (enterGcd [(d.val, BitVec.ofNat 64 (classRat x.toNat))] none (qrOf x.toNat)) s1 () s2) :
    exec (.fclass h d a 0) s = retired t h .seq s2 := by
  obtain ⟨_, _, hready, hcheckK⟩ := Runs.split hcheck
  refine issueCheck_runs hi (badFormat_zero _ s) (Runs.bind hk (Runs.bind hread ?_))
  rw [if_pos hq]
  exact Runs.bind hready (Runs.bind hcheckK (Runs.bind hend (Runs.pure _ s2)))

end Rational

/-! ### Slash64 values in either mode -/

section Slash
variable {h : Hdr} {t : ThreadId} {th : Thread} {s s0 s1 s2 : State} {k : Captured} {d e : Reg} {gd : BitVec 3} {a b : Opnd} {x y i r : Word}
  {src dst : BitVec 4} {g sgn : Bool} {fl : Nat} (hi : Issues h t th s s0)
include hi

/-- QMAKE reads integers, so it checks no K. -/
theorem qmake_runs (hk : Runs capture s0 k s0) (hread : Runs (rd2 h a (.op b)) s0 (x, y) s1) (hready : Runs (gcdReady [d.val] 0) s1 () s1)
    (hend : Runs (enterGcd [(d.val, BitVec.ofNat 64 (makeQ k (valOf sgn 64 x) (valOf sgn 64 y)).bits)] none
      (makeQ k (valOf sgn 64 x) (valOf sgn 64 y)).flags) s1 () s2) : exec (.qmake h d a b sgn) s = retired t h .seq s2 :=
  issueSeq_runs hi (Runs.bind hk (Runs.bind hread (Runs.bind hready hend)))

theorem qUnary_runs {f : QV → Word} (hread : Runs (rd1 h a) s0 x s1) (hcheck : Runs (do gcdReady [d.val] 0; checkK a x) s1 () s1)
    (hend : Runs (enterGcd [(d.val, f (slashValue x.toNat))] none (qrOf x.toNat)) s1 () s2) : qUnary h d a f s = retired t h .seq s2 := by
  obtain ⟨_, _, hready, hcheckK⟩ := Runs.split hcheck
  exact issueSeq_runs hi (Runs.bind hread (Runs.bind hready (Runs.bind hcheckK hend)))

theorem qcf_runs (hread : Runs (rd1 h a) s0 x s1) (hcheck : Runs (do gcdReady [d.val, e.val] gd.toNat; checkK a x) s1 () s1)
    (hstep : qcfStep (slashValue x.toNat) = (i, r, g, fl))
    (hend : Runs (enterGcd [(d.val, i), (e.val, r)] (some (gd.toNat, g)) (fl ||| qrOf x.toNat)) s1 () s2) :
    exec (.qcf h gd d e a) s = retired t h .seq s2 := by
  obtain ⟨_, _, hready, hcheckK⟩ := Runs.split hcheck
  refine issueSeq_runs hi (Runs.bind hread (Runs.bind hready (Runs.bind hcheckK ?_)))
  simp only [hstep]
  exact hend

/-- A conversion checks K where its source is slash64. -/
theorem fcvt_slash (hk : Runs capture s0 k s0) (hread : Runs (rd1 h a) s0 x s1) (hready : Runs (gcdReady [d.val] 0) s1 () s1)
    (hcheckK : src = 6 → Runs (checkK a x) s1 () s1) (hslash : src = 6 ∨ dst = 6)
    (hend : Runs (enterGcd [(d.val, BitVec.ofNat 64 (convertQ k src.toNat dst.toNat x.toNat).bits)] none
      (convertQ k src.toNat dst.toNat x.toNat).flags) s1 () s2) : exec (.fcvt h d a src dst) s = retired t h .seq s2 := by
  refine issueSeq_runs hi (Runs.bind hk (Runs.bind hread ?_))
  rw [if_pos hslash]
  refine Runs.bind hready ?_
  by_cases hsrc : src = 6
  · rw [if_pos hsrc]
    exact Runs.bind (hcheckK hsrc) hend
  · rw [if_neg hsrc]
    exact hend

end Slash

/-! ### Completion -/

theorem gcdOpComplete_completes {s : State} {c : CoreId} {k : Nat} {o : LongOp} (ho : (s.core c).gcd[k]? = some o) :
    exec (.gcdOpComplete c k) s = .next (completeOp (s.modCore c fun r => { r with gcd := dropAt r.gcd k }) o) := by
  change execGcdOpComplete c k s = _
  simp only [execGcdOpComplete, ho]

/-- Settles O8: the arithmetic is a floatOp in rational mode, each other instruction goes on from its operands to the GCD unit, and what
completes there is completeOp. -/
theorem rationalAndSlashComplete : Obligations.RationalAndSlashComplete := by
  unfold Obligations.RationalAndSlashComplete
  refine ⟨?rational, ?slash, ?completion⟩
  case rational =>
    rintro h t th s s0 s1 s2 d a b c x y z k gd cond op _ _ _ hi hk hq rfl rfl rfl
    simp only [exec_fadd, exec_fsub, exec_fmul, exec_fdiv, exec_fma, exec_fsqrt, exec_fmin, exec_fmax]
    refine ⟨fun hread hcheck => ⟨?add, ?sub, ?mul, ?div, ?min, ?max⟩, ?fma, ?sqrt, fcmp_rational hi hk hq, fclass_rational hi hk hq,
      fun hop hread hend => fsgn_ofTwo hi (badFormat_zero _ s) hk hop hread ?signOfTwo,
      fun hop hread hend => fsgn_ofOne hi (badFormat_zero _ s) hk hop hread ?signOfOne⟩
    case fma => exact fun hread hcheck hend => floatOp_rational3 hi hk hq hread hcheck hend
    case sqrt => exact fun hread hcheck hend => floatOp_rational1 hi hk hq hread hcheck hend
    case signOfTwo | signOfOne => rwa [fsgnEnd, if_pos hq]
    all_goals exact fun hend => floatOp_rational2 hi hk hq hread hcheck hend
  case slash =>
    intro h t th s s0 s1 s2 d e a b x y i r k sgn g gd src dst fl hi
    exact ⟨qmake_runs hi, fun hread hcheck => ⟨qUnary_runs hi hread hcheck, qUnary_runs hi hread hcheck⟩, qcf_runs hi, fcvt_slash hi⟩
  case completion =>
    intro s c k o ho
    exact gcdOpComplete_completes ho

end Sys2Proof.Machine
end

section
/-!
Class 7 (R170, R187, R373 to R380): what each instruction over named tiles enters or sends, where its operands are read and it does not have
to wait.
-/
namespace Sys2Proof.Machine

/-- The stages of a run that answers two values in a row. -/
theorem Runs.split_pair {α β : Type} {m : Exec α} {f : α → Exec β} {s s2 : State} {a : α} {b : β}
    (h : Runs (do let a ← m; return (a, ← f a)) s (a, b) s2) : ∃ s1, Runs m s a s1 ∧ Runs (f a) s1 b s2 := by
  obtain ⟨a', s1, hm, hrest⟩ := Runs.split h
  obtain ⟨b', s3, hf, hend⟩ := Runs.split hrest
  obtain ⟨hpair, rfl⟩ := hend.unique (Runs.pure (a', b') s3)
  obtain ⟨rfl, rfl⟩ := Prod.mk.inj hpair
  exact ⟨s1, hm, hf⟩

/-! ### NALLOC -/

/-- Where the next block of 2^n names of a partition begins: at a multiple of its size (R170). -/
abbrev blockBase (s : State) (p : PartId) (n : Nat) : Nat := ((s.part p).nextName + 2 ^ n - 1) / 2 ^ n * 2 ^ n

section Nalloc
variable {h : Hdr} {t : ThreadId} {th th1 : Thread} {s s0 s1 s2 s3 : State} {j : Src} {d : Reg} {gd : BitVec 3} {n : Nat}
  (hi : Issues h t th s s0) (hsize : Runs (nallocSize h j) s0 n s1) (hfence : Runs (fenceHold 2) s1 () s1) (hc : s1.cur = .thread t)
  (ht : s1.thread? t = some th1)
include hi hsize hfence hc ht

theorem nalloc_full
    (hbeyond : (s1.part th1.ctl.slice.part).nregion.toNat * 4096 < blockBase s1 th1.ctl.slice.part n + 2 ^ n)
    (hset : Runs (setGuard gd false) s1 () s2) : exec (.nalloc h gd d j) s = retired t h .seq s2 := by
  refine issueSeq_runs hi (Runs.bind hsize (Runs.bind hfence (Runs.bind (Runs.myPart hc ht) (Runs.bind (Runs.get s1) ?_))))
  rwa [if_pos hbeyond]

/-- A block that ends at the region's end is granted (log entry 119). -/
theorem nalloc_grants
    (hfits : blockBase s1 th1.ctl.slice.part n + 2 ^ n ≤ (s1.part th1.ctl.slice.part).nregion.toNat * 4096)
    (hwrite : Runs (wrReg d (refWord (blockBase s1 th1.ctl.slice.part n) 0))
      (s1.modPart th1.ctl.slice.part fun q => { q with nextName := blockBase s1 th1.ctl.slice.part n + 2 ^ n }) () s2)
    (hset : Runs (setGuard gd true) s2 () s3) : exec (.nalloc h gd d j) s = retired t h .seq s3 := by
  refine issueSeq_runs hi (Runs.bind hsize (Runs.bind hfence (Runs.bind (Runs.myPart hc ht) (Runs.bind (Runs.get s1) ?_))))
  rw [if_neg (Nat.not_lt.2 hfits)]
  exact Runs.bind (Runs.modify _ s1) (Runs.bind hwrite hset)

end Nalloc

/-! ### NREL, NDROP, NQRY, NABAND -/

theorem simpleV_sends {h : Hdr} {t : ThreadId} {th : Thread} {s s0 s1 s2 : State} {r : Reg} {ref : Word} {kind : VKind} {id : Nat}
    (hi : Issues h t th s s0) (href : Runs (refOperand h r) s0 ref s1) (hfence : Runs (fenceHold 2) s1 () s1)
    (hsend : Runs (sendV h ref kind) s1 id s2) : simpleV h r kind s = retired t h .seq s2 :=
  issueSeq_runs hi (Runs.bind href (Runs.bind hfence (Runs.bind hsend (Runs.pure () s2))))

/-! ### NCONF, NREVOKE -/

/-- The decision is taken where the root's home is reached, and the guard tells whether the root was Open. -/
theorem decide_retires {i : Instr} {h : Hdr} {t : ThreadId} {th th1 : Thread} {s s0 s1 s2 s3 : State} {gd : BitVec 3} {r : Reg} {w : Word}
    {confirm ok : Bool} (hi : Issues h t th s s0) (hspec : bitAt (s.part (viewSlice s t).part).mode 4 = true)
    (hread : Runs (rd1 h (.w r)) s0 w s1) (hroot : wfield w 8 56 = 0) (hwait : Runs (do fenceHold 2; waitTiles) s1 () s1)
    (hc : s1.cur = .thread t) (ht : s1.thread? t = some th1)
    (hlinks : linksUp s1 th1.ctl.slice.part.pkg (rootHome s1 th1.ctl.slice.part).pkg = true)
    (hdecide : decideRoot s1 th1.ctl.slice.part w.toNat confirm = (ok, s2)) (hset : Runs (setGuard gd ok) s2 () s3) :
    issueSpec i h true (decide' h gd r confirm) s = retired t h .seq s3 := by
  obtain ⟨_, _, hfence, htiles⟩ := Runs.split hwait
  refine (issueSpec_on hi.actor fun _ => hspec).trans (issue_runs hi (Runs.bind hread ?_))
  rw [if_neg (not_not_intro hroot)]
  refine Runs.bind hfence (Runs.bind htiles (Runs.bind (Runs.myPart hc ht) (Runs.bind (Runs.get s1) (Runs.bind (Runs.get s1) ?_))))
  rw [hlinks, Bool.not_true, if_neg Bool.false_ne_true]
  refine Runs.bind (Runs.get s1) ?_
  simp only [hdecide]
  exact Runs.bind (Runs.set s1 s2) (Runs.bind hset (Runs.pure _ s3))

/-! ### NST and NLD -/

section Transfers
variable {h : Hdr} {t : ThreadId} {th th1 : Thread} {s s0 s1 s2 s3 s4 s5 s6 : State} {a : Opnd} {c : Src} {d r : Reg} {x : NldDst}
  {ref av : Word} {size maxsz : BitVec 3} {fmt : BitVec 4} {cons ge p : Bool} {sp : Span} {k id data : Nat} {root : Option Nat}
  {roots : List Nat} {dest : NldTo}
  (hi : Issues h t th s s0) (hspec : p = true → bitAt (s.part (viewSlice s t).part).mode 4 = true)
include hi hspec

theorem nst_enters (hread : Runs (do waitOpnds h ([.w r, a] ++ srcOpnds c) []; refOperand h r) s0 ref s1)
    (hspan : Runs (do let av ← rd1 h a; return (av, ← localSpan av (tileBytes size.toNat) 16 true)) s1 (av, sp) s2)
    (hcount : Runs (countOperand h c) s2 k s3) (hwait : Runs (do fenceHold 2; waitRefused) s3 () s3) (hc : s3.cur = .thread t)
    (ht : s3.thread? t = some th1) (hroom : th1.nsts.length < 8) (hdata : Runs (readSpan av sp) s3 data s4)
    (hroot : Runs (if p then some <$> takeRoot d else pure none) s4 root s5) (hroots : Runs myRoots s5 roots s5)
    (hsend : Runs (sendV h ref (.nst size.toNat fmt.toNat k data roots root)) s5 id s6) (hc6 : s6.cur = .thread t) :
    exec (.nst h p d r a c size fmt) s =
      retired t h .seq (s6.modThread t fun y => { y with nsts := y.nsts ++ [⟨id, ref, th1.ctl.pc⟩] }) := by
  obtain ⟨_, _, hopnds, href⟩ := Runs.split hread
  obtain ⟨_, haddr, hplace⟩ := Runs.split_pair hspan
  obtain ⟨_, _, hfence, hrefused⟩ := Runs.split hwait
  refine (issueSpec_on hi.actor hspec).trans (issue_runs hi (Runs.bind hopnds (Runs.bind href (Runs.bind haddr (Runs.bind hplace
    (Runs.bind hcount (Runs.bind hfence (Runs.bind hrefused (Runs.bind (Runs.thr hc ht) ?_)))))))))
  rw [if_neg (Nat.not_le.2 hroom)]
  exact Runs.bind hdata (Runs.branch hroot (Runs.bind hroots (Runs.bind hsend (Runs.bind (Runs.modT _ hc6) (Runs.pure _ _)))))

/-- The thread waits for its home's answer with what it has reserved and sent. -/
theorem nld_waits (hread : Runs (do chkDest x; waitOpnds h (.w r :: nldSrcs x) []; refOperand h r) s0 ref s1)
    (hdest : Runs (nldDest h x (tileBytes maxsz.toNat)) s1 dest s2) (hwait : Runs (do waitRefused; waitStores; fenceHold 2) s2 () s2)
    (hslot : Runs (reserveSlot dest) s2 () s3) (hsend : Runs (sendV h ref (.nld d.val dest maxsz.toNat p cons ge)) s3 id s4) :
    exec (.nld h d r x maxsz p cons ge) s = .next (setPhase s4 t .home) := by
  obtain ⟨_, _, hchecked, hread⟩ := Runs.split hread
  obtain ⟨_, _, hopnds, href⟩ := Runs.split hread
  obtain ⟨_, _, hrefused, hwait⟩ := Runs.split hwait
  obtain ⟨_, _, hstores, hfence⟩ := Runs.split hwait
  exact (issueSpec_on hi.actor hspec).trans (issue_fails (e := .wait .home) hi (Fails.bind hchecked (Fails.bind hopnds (Fails.bind href
    (Fails.bind hdest (Fails.bind hrefused (Fails.bind hstores (Fails.bind hfence (Fails.bind hslot (Fails.bind hsend (Fails.throw _ s4)))))))))))

end Transfers

/-! ### NRED and NSUB -/

/-- The subscription of an NSUB that has read its count word at s1, whose future is f. -/
def newSub (s1 : State) (id : Nat) (t : ThreadId) (sl : SliceId) (cb : Fin 16) (ref cnt : Word) (wb cons : Bool) (size : BitVec 3) (fmt : BitVec 4)
    (f : Fut) (roots : List Nat) : SubRec :=
  { id := id, t := t, gen := slotGen s1 t, slice := sl, core := t.core, cb := cb.val, part := sl.part, name := refName ref, ver := refVer ref
    step := wfield cnt 24 16 + 1, left := wfield cnt 0 24, m := wfield cnt 0 24, wb := wb, cons := cons, size := size.toNat, fmt := fmt.toNat
    count := wfield cnt 40 16, fut := f, waiting := false, refusals := 0, since := 0, stop := false, roots := roots }

section Engines
variable {h : Hdr} {t : ThreadId} {th th1 : Thread} {s s0 s1 s2 s3 s4 s5 : State} {a : Opnd} {c d r : Reg} {ref av cnt loc : Word} {fa : Addr}
  {size : BitVec 3} {fmt : BitVec 4} {wb cons : Bool} {sp : Span} {id data : Nat} {roots : List Nat} {f : Fut} {cb : Fin 16} {b : CbState}
  (hi : Issues h t th s s0) (hloc : Runs (futLocation d) s0 (loc, fa) s0)
include hi hloc

theorem nred_enters (hread : Runs (do waitOpnds h [.w r, a, .w c] []; refOperand h r) s0 ref s1)
    (hspan : Runs (do let av ← rd1 h a; return (av, ← localSpan av (tileBytes size.toNat) 16 true)) s1 (av, sp) s2)
    (hcnt : Runs (rd1 h (.w c)) s2 cnt s3) (hreserved : wfield cnt 40 24 = 0) (hcount : wfield cnt 24 16 ≠ 0)
    (hidx : wfield cnt 0 12 ≤ wfield cnt 12 12) (hfmt : ([1, 2, 3, 9].contains fmt.toNat) = true)
    (hdata : Runs (do fenceHold 2; readSpan av sp) s3 data s3) (hfut : Runs (makeFuture d loc fa) s3 f s4)
    (hroots : Runs myRoots s4 roots s4)
    (hsend : Runs (sendV h ref (.nred size.toNat fmt.toNat (wfield cnt 24 16) (wfield cnt 0 12) (wfield cnt 12 12) data roots f)) s4 id s5) :
    exec (.nred h d r a c size fmt) s = retired t h .seq s5 := by
  obtain ⟨_, _, hopnds, href⟩ := Runs.split hread
  obtain ⟨_, haddr, hplace⟩ := Runs.split_pair hspan
  obtain ⟨_, _, hfence, hbytes⟩ := Runs.split hdata
  have hlegal : ¬ (wfield cnt 40 24 ≠ 0 ∨ wfield cnt 24 16 = 0 ∨ wfield cnt 0 12 > wfield cnt 12 12) := by omega
  refine issueSeq_runs hi (Runs.bind hloc (Runs.bind hopnds (Runs.bind href (Runs.bind haddr (Runs.bind hplace (Runs.bind hcnt ?_))))))
  simp only [if_neg hlegal, hfmt, Bool.not_true, Bool.false_eq_true, if_false]
  exact Runs.bind hfence (Runs.bind hbytes (Runs.bind hfut (Runs.bind hroots (Runs.bind hsend (Runs.pure () s5)))))

theorem nsub_enters (hbound : Runs (cbBound cb.val) s0 b s0) (hread : Runs (do waitOpnds h [.w r, .w c] []; refOperand h r) s0 ref s1)
    (hc : s1.cur = .thread t) (ht : s1.thread? t = some th1)
    (hfirst : (s1.tl.subs.any fun x => decide (x.slice = th1.ctl.slice ∧ x.core = t.core ∧ x.cb = cb.val)) = false)
    (hcnt : Runs (rd1 h (.w c)) s1 cnt s2) (hm : wfield cnt 0 24 ≠ 0) (hlast : refVer ref + wfield cnt 0 24 ≤ 2 ^ 24)
    (hreserved : wfield cnt 56 8 = 0) (hwb : wb = decide (wfield cnt 40 16 ≠ 0)) (hfits : wb = true → tileBytes size.toNat ≤ b.slotSz * 16)
    (hconf : wb = true → Runs waitConfirmed s2 () s2) (hfence : Runs (fenceHold 2) s2 () s2)
    (hreel : reelRoom s2 th1.ctl.slice.part (refName ref) = true) (hroots : Runs myRoots s2 roots s2)
    (hfut : Runs (makeFuture d loc fa) s2 f s3) :
    exec (.nsub h d r cb c wb cons size fmt) s = retired t h .seq
      { s3 with
        opId := s3.opId + 1
        tl := { s3.tl with subs := s3.tl.subs ++ [newSub s1 s3.opId t th1.ctl.slice cb ref cnt wb cons size fmt f roots] } } := by
  obtain ⟨_, _, hopnds, href⟩ := Runs.split hread
  have hlegal : ¬ (wfield cnt 0 24 = 0 ∨ refVer ref + wfield cnt 0 24 > 2 ^ 24 ∨ wfield cnt 56 8 ≠ 0) := by omega
  have hform : ¬ wb = decide (wfield cnt 40 16 = 0) := by
    rw [hwb, decide_eq_decide]
    exact not_iff_self
  have hsmall : ¬ (wb && decide (b.slotSz * 16 < tileBytes size.toNat)) = true := by simpa using hfits
  refine issueSeq_runs hi (Runs.bind hloc (Runs.bind hbound (Runs.bind hopnds (Runs.bind href (Runs.bind (Runs.me hc) (Runs.bind (Runs.ctl hc ht)
    (Runs.bind (Runs.myGen hc) (Runs.bind (Runs.get s1) ?_))))))))
  rw [hfirst, if_neg Bool.false_ne_true]
  refine Runs.bind hcnt ?_
  rw [if_neg hlegal, if_neg hform, if_neg hsmall]
  refine Runs.branch (m := waitConfirmed) (n := pure ()) (a := ()) (s1 := s2) ?waited ?_
  case waited => cases wb with
    | true => exact hconf rfl
    | false => exact Runs.pure () s2
  refine Runs.bind hfence (Runs.bind (Runs.get s2) ?_)
  rw [hreel, Bool.not_true, if_neg Bool.false_ne_true]
  exact Runs.bind hroots (Runs.bind hfut (Runs.bind (Runs.newOp s3) (Runs.modify _ _)))

end Engines

/-- Settles O11: each instruction's stages in a row. That a block which ends at the region's end is granted is deduced (log entry 119). -/
theorem tileInstructionsComplete : Obligations.TileInstructionsComplete := by
  unfold Obligations.TileInstructionsComplete
  refine ⟨?names, ?transfers, ?engines⟩
  case names =>
    intro h t th th1 s s0 s1 s2 s3 j d r gd w n id ok hi
    refine ⟨fun hsize hfence hc ht => ⟨nalloc_full hi hsize hfence hc ht, nalloc_grants hi hsize hfence hc ht⟩,
      fun href hfence => ⟨simpleV_sends hi href hfence, simpleV_sends hi href hfence, simpleV_sends hi href hfence,
        simpleV_sends hi href hfence⟩,
      fun hspec hread hroot hwait hc ht hlinks => ⟨?confirmed, ?revoked⟩⟩
    case confirmed => exact decide_retires hi hspec hread hroot hwait hc ht hlinks
    case revoked => exact decide_retires hi hspec hread hroot hwait hc ht hlinks
  case transfers =>
    intro h t th th1 s s0 s1 s2 s3 s4 s5 s6 a c d r x ref av size maxsz fmt cons ge p sp k id data root roots dest hi
    refine ⟨fun hread hspan hcount hwait hc ht hroom hdata => ⟨fun hroots hsend hc5 => ?stored,
      fun hspec htake hroots hsend hc6 => ?provisional⟩, nld_waits hi⟩
    case stored =>
      exact nst_enters hi (fun h => absurd h Bool.false_ne_true) hread hspan hcount hwait hc ht hroom hdata (Runs.pure none s4) hroots hsend hc5
    case provisional =>
      exact nst_enters hi (fun _ => hspec) hread hspan hcount hwait hc ht hroom hdata (Runs.map htake) hroots hsend hc6
  case engines =>
    intro h t th th1 s s0 s1 s2 s3 s4 s5 a c d r ref av cnt loc fa size fmt wb cons sp id data roots f cb b hi hloc
    exact ⟨nred_enters hi hloc, nsub_enters hi hloc⟩

end Sys2Proof.Machine
end

section
/-!
The steps of path V (R162, R175 to R187, R197, R198, R360, R376, R379): what a request, an answer, a root decision, a withdrawal and a reel do
where each is enabled.
-/
namespace Sys2Proof.Machine

/-! ### Requests that reach their home -/

section Arrivals
variable {s s1 s2 : State} {k : Nat} {m : VMsg} {h : HomeId} {size fmt count data idx nm1 res : Nat} {roots : List Nat} {root : Option Nat}
  {v : Bool} {fut : Fut} {regs : List (Nat × Word)} {g : Option (Nat × Bool)}

section Taken
variable (hv : takeV s k = some (m, h, s1))
include hv

theorem nstArrival_stored (hk : m.kind = .nst size fmt count data roots root)
    (hstore : storeVer s1 h (verPart h m.part) (refusedAhead s1 h (verPart h m.part) s1.tl.refused (s.ac + 1)) m size fmt count data roots =
      (.done v, s2)) : exec (.nstArrival k) s = .next (ackStore s2 h m v) := by
  change execNstArrival k s = _
  simp only [execNstArrival, hv, hk, hstore]

theorem nstArrival_refused (hk : m.kind = .nst size fmt count data roots root)
    (hstore : storeVer s1 h (verPart h m.part) (refusedAhead s1 h (verPart h m.part) s1.tl.refused (s.ac + 1)) m size fmt count data roots =
      (.refused, s2)) : exec (.nstArrival k) s =
      .next (verEvent { s2 with tl := { s2.tl with refused := s2.tl.refused ++ [{ m with firstRefused := s.ac }] } }
        h (verPart h m.part) (!roots.isEmpty) 1 m.name m.ver 0) := by
  change execNstArrival k s = _
  simp only [execNstArrival, hv, hk, hstore]

theorem nldRequest_served : exec (.nldRequest k) s = serveNld s s1 h m := by
  change execNldRequest k s = _
  simp only [execNldRequest, hv]

theorem homeRequest_answered (hsimple : isSimple m.kind = true) (hserve : serveSimple s1 h (verPart h m.part) m = some (regs, g, s2)) :
    exec (.homeRequest k) s =
      .next { s2 with tl := { s2.tl with answers := s2.tl.answers ++ [⟨m.id, m.t, m.slice, m.wsp, regs, g, 0, h.pkg⟩] } } := by
  change execHomeRequest k s = _
  simp only [execHomeRequest, hv, hsimple, hserve, Bool.not_true, Bool.false_eq_true, if_false]

theorem homeRequest_refused (hsimple : isSimple m.kind = true) (hserve : serveSimple s1 h (verPart h m.part) m = none) :
    exec (.homeRequest k) s = .next (verEvent { s1 with tl := { s1.tl with retries := s1.tl.retries ++ [refuseV s m] } }
      h (verPart h m.part) m.prov 1 m.name m.ver 0) := by
  change execHomeRequest k s = _
  simp only [execHomeRequest, hv, hsimple, hserve, Bool.not_true, Bool.false_eq_true, if_false]

section Contributions
variable (hk : m.kind = .nred size fmt count idx nm1 data roots fut)
include hk

theorem nredArrival_resolved (hmerge : contribute s1 h (verPart h m.part) m size fmt count idx nm1 data roots = (.resolved, s2))
    (hfirst : m.refusals = 0) : exec (.nredContributionArrival k) s = .next (engResolve s2 fut 2 idx) := by
  change execNredContributionArrival k s = _
  simp only [execNredContributionArrival, hv, hk, hmerge, hfirst, ne_eq, not_true_eq_false, if_false]

theorem nredArrival_faulted (hmerge : contribute s1 h (verPart h m.part) m size fmt count idx nm1 data roots = (.faulted res, s2)) :
    exec (.nredContributionArrival k) s = .next (engResolve s2 fut 3 res) := by
  change execNredContributionArrival k s = _
  simp only [execNredContributionArrival, hv, hk, hmerge]

theorem nredArrival_refused (hmerge : contribute s1 h (verPart h m.part) m size fmt count idx nm1 data roots = (.retry, s2)) :
    exec (.nredContributionArrival k) s = .next (verEvent { s2 with tl := { s2.tl with retries := s2.tl.retries ++ [refuseV s m] } }
      h (verPart h m.part) (!roots.isEmpty) 1 m.name m.ver 0) := by
  change execNredContributionArrival k s = _
  simp only [execNredContributionArrival, hv, hk, hmerge]

end Contributions

end Taken

/-- R179: a refused store is offered behind those refused before it. -/
theorem refusedStoreRetry_stored (hm : s.tl.refused[k]? = some m) (hk : m.kind = .nst size fmt count data roots root)
    (hhome : nameHome s m.t.core m.part m.name = (h, s1)) (hlinks : linksUp s m.part.pkg h.pkg = true)
    (hstore : storeVer s1 h (verPart h m.part) (refusedAhead s1 h (verPart h m.part) (s.tl.refused.take k) m.firstRefused)
      m size fmt count data roots = (.done v, s2)) : exec (.refusedStoreRetry k) s =
      .next (ackStore (verEvent { s2 with tl := { s2.tl with refused := dropAt s2.tl.refused k } } h (verPart h m.part) (!roots.isEmpty) 2
        m.name m.ver (s.ac - m.firstRefused)) h m v) := by
  change execRefusedStoreRetry k s = _
  simp only [execRefusedStoreRetry, hm, hk, hhome, hlinks, hstore, Bool.not_true, Bool.false_eq_true, if_false]

/-- R184: the back-off is over. -/
theorem retryResend_resends (hm : s.tl.retries[k]? = some m) (hdue : m.since + min 8192 (256 * 2 ^ (m.refusals - 1)) ≤ s.ac) :
    exec (.retryResend k) s = .next { s with tl := { s.tl with retries := dropAt s.tl.retries k, vnet := s.tl.vnet ++ [m] } } := by
  change execRetryResend k s = _
  simp only [execRetryResend, hm, Nat.not_lt.2 hdue, if_false]

end Arrivals

/-! ### What travels back to a core -/

section Answers
variable {s : State} {k : Nat} {a : NstAck} {m : VMsg} {h : HomeId} {o : LongOp} {x : SlotTile}

/-- The state with the k-th acknowledgement taken off its way. -/
def dropAck (s : State) (k : Nat) : State := { s with tl := { s.tl with acks := dropAt s.tl.acks k } }

/-- What an acknowledgement makes of its thread: the store is no longer outstanding, and a violation is due where the task has not begun to
end (R177). -/
def settleAck (a : NstAck) (th : Thread) : Thread :=
  match th.nsts.find? fun n => decide (n.id = a.id) with
  | none => th
  | some n =>
    let th := { th with nsts := th.nsts.filter fun n => n.id ≠ a.id }
    if a.violation ∧ th.phase ≠ .ending then { th with due := { th.due with violations := insertViolation th.due.violations n } } else th

theorem nstAcknowledge_discarded (ha : s.tl.acks[k]? = some a) (hlinks : linksUp s a.home a.t.core.pkg = true)
    (hgone : msgLive (dropAck s k) a.t a.gen = false) : exec (.nstAcknowledge k) s = .next (dropAck s k) := by
  change execNstAcknowledge k s = _
  simp only [execNstAcknowledge, ha, hlinks, Bool.not_true, Bool.false_eq_true, if_false]
  exact if_pos (congrArg not hgone)

theorem nstAcknowledge_settles (ha : s.tl.acks[k]? = some a) (hlinks : linksUp s a.home a.t.core.pkg = true)
    (hlive : msgLive (dropAck s k) a.t a.gen = true) :
    exec (.nstAcknowledge k) s = .next ((dropAck s k).modThread a.t (settleAck a)) := by
  change execNstAcknowledge k s = _
  simp only [execNstAcknowledge, ha, hlinks, Bool.not_true, Bool.false_eq_true, if_false]
  exact if_neg (ne_true_of_eq_false (congrArg not hlive))

theorem arrivalNotice_serves (hw : s.tl.notices[k]? = some (.load m h)) (hlinks : linksUp s m.part.pkg h.pkg = true) :
    exec (.arrivalNotice k) s = serveNld s { s with tl := { s.tl with notices := dropAt s.tl.notices k } } h m := by
  change execArrivalNotice k s = _
  simp only [execArrivalNotice, hw, hlinks, if_true]

theorem homeAnswer_writes (ho : s.tl.answers[k]? = some o) (hlinks : linksUp s o.home o.t.core.pkg = true)
    (hthere : windowThere s o.t o.wsp = true) :
    exec (.homeAnswer k) s = .next (completeOp { s with tl := { s.tl with answers := dropAt s.tl.answers k } } o) := by
  change execHomeAnswer k s = _
  simp only [execHomeAnswer, ho, hlinks, hthere, Bool.not_true, Bool.or_self, Bool.false_eq_true, if_false]

theorem nldSlotArrival_fills (hx : s.tl.slotTiles[k]? = some x) (hlive : msgLive s x.t x.gen = true) : exec (.nldSlotArrival k) s =
    answerThread x.t x.eog s { s with tl := { s.tl with slotTiles := dropAt s.tl.slotTiles k } } (fillSlot x) := by
  change execNldSlotArrival k s = _
  simp only [execNldSlotArrival, hx, hlive, Bool.not_true, Bool.false_eq_true, if_false]

end Answers

/-! ### A load at its home -/

/-- An answered thread whose window is there goes on once what its answer brings has completed. -/
theorem answerThread_runs {t : ThreadId} {th : Thread} {eog : Bool} {orig s s1 : State} {body : Exec Flow} {f : Flow}
    (ht : s.thread? t = some th) (hthere : windowThere s t th.ctl.wsp = true) (hrun : Runs body { s with cur := .thread t } f s1) :
    answerThread t eog orig s body = .next (markIssue (retire t eog f s1) t false) := by
  simp only [answerThread, ht, hthere, if_true]
  exact congrArg (settle t { Hdr.plain with eog := eog } orig { s with cur := .thread t }) hrun

section Loads
variable {orig s s1 : State} {h : HomeId} {m : VMsg} {d maxsz : Nat} {dest : NldTo} {p cons ge : Bool} {th : Thread} {v : Version} {f : Flow}
  (hk : m.kind = .nld d dest maxsz p cons ge) (ht : s.thread? m.t = some th) (hgen : slotGen s m.t = m.gen)
include hk ht hgen

theorem serveNld_delivers (hserve : serveLoad s h (verPart h m.part) m.name m.ver p ge (heldRoots s m.t th) = .tile v)
    (hthere : windowThere s m.t th.ctl.wsp = true) (hrun : Runs (deliver m v d dest maxsz cons) { s with cur := .thread m.t } f s1) :
    serveNld orig s h m = .next (markIssue (retire m.t m.eog f s1) m.t false) := by
  simp only [serveNld, hk, ht, hgen, hserve, ne_eq, not_true_eq_false, if_false]
  exact answerThread_runs ht hthere hrun

theorem serveNld_poisoned (hserve : serveLoad s h (verPart h m.part) m.name m.ver p ge (heldRoots s m.t th) = .poisoned) :
    serveNld orig s h m = .next (takeTrap m.t (mkTrap 9 (refWord m.name m.ver).toNat 0) (releaseSlot s m)) := by
  simp only [serveNld, hk, ht, hgen, hserve, ne_eq, not_true_eq_false, if_false]

theorem serveNld_waits (hserve : serveLoad s h (verPart h m.part) m.name m.ver p ge (heldRoots s m.t th) = .wait)
    (hroom : waitersAt s h < 8192) :
    serveNld orig s h m = .next { s with tl := { s.tl with waiters := s.tl.waiters ++ [.load m h] } } := by
  simp only [serveNld, hk, ht, hgen, hserve, hroom, ne_eq, not_true_eq_false, if_true, if_false]

theorem serveNld_retries (hserve : serveLoad s h (verPart h m.part) m.name m.ver p ge (heldRoots s m.t th) = .wait)
    (hfull : 8192 ≤ waitersAt s h) : serveNld orig s h m = .next (verEvent
      { s with tl := { s.tl with retries := s.tl.retries ++ [{ m with refusals := m.refusals + 1, since := s.ac }] } } h (verPart h m.part)
      (!(heldRoots s m.t th).isEmpty) 5 m.name m.ver 0) := by
  simp only [serveNld, hk, ht, hgen, hserve, Nat.not_lt.2 hfull, ne_eq, not_true_eq_false, if_false]

end Loads

/-! ### Root decisions and withdrawals -/

section Decisions
variable {s : State} {k : Nat} {d : Decision} {c : CoreId} {h : HomeId} {t : ThreadId} {th : Thread}

/-- The state with the k-th decision taken off its way. -/
def dropDecision (s : State) (k : Nat) : State := { s with tl := { s.tl with decisions := dropAt s.tl.decisions k } }

/-- What a decision makes of its home: versions settle, and the loads that waited for a revoked one trap (R197, R198). -/
def settleHome (s : State) (d : Decision) (h : HomeId) : State :=
  let hit := if d.confirm then [] else revokedWaiters s d h
  let u := decideAtHome s d h
  let gone := fun (y : Waiter) => match y with
    | .load m _ => hit.any fun z => decide (z.id = m.id)
    | _ => false
  let u := { u with tl := { u.tl with waiters := u.tl.waiters.filter fun y => !gone y } }
  hit.foldl (fun s m => takeTrap m.t (mkTrap 10 0 (d.root * 256)) (releaseSlot s m)) u

section Arrived
variable (hd : s.tl.decisions[k]? = some d) (hlinks : linksUp s d.part.pkg d.place.pkg = true)
include hd hlinks

theorem rootDecision_atCore (hplace : d.place = .core c) :
    exec (.rootDecisionArrival k) s = .next (decideAtCore (dropDecision s k) c) := by
  change execRootDecisionArrival k s = _
  rw [hplace] at hlinks
  simp only [execRootDecisionArrival, hd, hplace]
  exact if_neg (ne_true_of_eq_false (congrArg not hlinks))

theorem rootDecision_atHome (hplace : d.place = .home h) :
    exec (.rootDecisionArrival k) s = .next (settleHome (dropDecision s k) d h) := by
  change execRootDecisionArrival k s = _
  rw [hplace] at hlinks
  simp only [execRootDecisionArrival, hd, hplace]
  exact if_neg (ne_true_of_eq_false (congrArg not hlinks))

end Arrived

theorem withdrawal_withdraws (ht : s.thread? t = some th) (hout : (th.outPre || th.outBudget || th.outDebug) = true)
    (hwaits : withdrawable s t th = true) : exec (.withdrawal t) s =
      .next ((withdraw s t).modThread t fun th => { th with phase := .ready, watch := none, shape := none }) := by
  change execWithdrawal t s = _
  simp only [execWithdrawal, ht, hout, hwaits, Bool.and_self, if_true]

end Decisions

/-! ### Reels -/

section Reels
variable {s s1 : State} {k : Nat} {h : HomeId} {x : SubRec} {v : Version} {b : CbState} {a : Addr}

/-- A version without poison fills its slot whole, and the subscription goes on. -/
theorem fillReel_clean (hclean : v.poison = []) : fillReel s x b a v =
    (let n := tileBytes v.size
     let w := if x.cons then consumeVer s (!x.roots.isEmpty) v else s
     let w := engWatch ((Span.write w v.data [(a, n)]).fillGranules a (b.slotSz * 16)) x.part a n true false
     advanceSub (setSubCb w x { b with p := (b.p + 1) % 2 ^ 32 }) x) := by
  rw [fillReel, hclean]
  rfl

/-- A slot without poison becomes its version at the first offer, and the subscription goes on. -/
theorem drainReel_clean (hfirst : x.refusals = 0) (hclean : poisonIn s a (tileBytes x.size) = []) : drainReel s h x b a =
    (let n := tileBytes x.size
     let w := createVer s h (verPart h x.part) x.name x.ver x.size x.fmt x.count (s.rd a n) []
     let w := engWatch w x.part a n false false
     advanceSub (setSubCb w x { b with c := (b.c + 1) % 2 ^ 32 }) x) := by
  simp only [drainReel, hfirst, hclean, ne_eq, not_true_eq_false, if_false, List.isEmpty_nil, if_true]

section Fill
variable (hx : s.tl.subs[k]? = some x) (hwb : x.wb = false) (hwait : x.waiting = false)
include hx hwb hwait

theorem reelSlotFill_stops (hstop : x.stop = true) : exec (.reelSlotFill k) s = .next (dropSub s x) := by
  change execReelSlotFill k s = _
  simp only [execReelSlotFill, hx, hwb, hwait, hstop, Bool.false_eq_true, or_self, if_true, if_false]

section Served
variable (hgoes : x.stop = false) (hhome : subHome s x = (h, s1)) (hnames : subNames x = true) (hback : subBackOff s x = false)
  (hlinks : linksUp s x.part.pkg h.pkg = true)
include hgoes hhome hnames hback hlinks

theorem reelSlotFill_fills (hserve : serveLoad s1 h (verPart h x.part) x.name x.ver false false [] = .tile v) (hcb : subCb s1 x = some b)
    (hroom : b.room ≠ 0) (hfits : tileBytes v.size ≤ b.slotSz * 16) (haddr : subAddr s1 x b b.p = some a)
    (huntyped : s1.typedAt a (tileBytes v.size) = false) : exec (.reelSlotFill k) s = .next (fillReel s1 x b a v) := by
  change execReelSlotFill k s = _
  simp only [execReelSlotFill, hx, hwb, hwait, hgoes, hhome, hnames, hback, hlinks, hserve, hcb, hroom, Nat.not_lt.2 hfits, haddr, huntyped,
    Bool.not_true, Bool.or_self, Bool.false_eq_true, or_self, if_false]

theorem reelSlotFill_poisoned (hserve : serveLoad s1 h (verPart h x.part) x.name x.ver false false [] = .poisoned) :
    exec (.reelSlotFill k) s = .next (faultSub s1 x 9) := by
  change execReelSlotFill k s = _
  simp only [execReelSlotFill, hx, hwb, hwait, hgoes, hhome, hnames, hback, hlinks, hserve, Bool.not_true, Bool.or_self, Bool.false_eq_true,
    or_self, if_false]

theorem reelSlotFill_waits (hserve : serveLoad s1 h (verPart h x.part) x.name x.ver false false [] = .wait) (hroom : waitersAt s1 h < 8192) :
    exec (.reelSlotFill k) s = .next (putSub
      { s1 with tl := { s1.tl with waiters := s1.tl.waiters ++ [.reel x.id x.part h x.name x.ver] } } { x with waiting := true }) := by
  change execReelSlotFill k s = _
  simp only [execReelSlotFill, hx, hwb, hwait, hgoes, hhome, hnames, hback, hlinks, hserve, hroom, Bool.not_true, Bool.or_self,
    Bool.false_eq_true, or_self, if_true, if_false]

theorem reelSlotFill_retries (hserve : serveLoad s1 h (verPart h x.part) x.name x.ver false false [] = .wait)
    (hfull : 8192 ≤ waitersAt s1 h) : exec (.reelSlotFill k) s = .next (refuseSub s1 h x) := by
  change execReelSlotFill k s = _
  simp only [execReelSlotFill, hx, hwb, hwait, hgoes, hhome, hnames, hback, hlinks, hserve, Nat.not_lt.2 hfull, Bool.not_true, Bool.or_self,
    Bool.false_eq_true, or_self, if_false]

end Served

end Fill

section Drain
variable (hx : s.tl.subs[k]? = some x) (hwb : x.wb = true)
include hx hwb

theorem reelDrain_stops (hstop : x.stop = true) : exec (.reelWritebackDrain k) s = .next (dropSub s x) := by
  change execReelWritebackDrain k s = _
  simp only [execReelWritebackDrain, hx, hwb, hstop, Bool.not_true, Bool.false_eq_true, if_true, if_false]

section Offered
variable (hgoes : x.stop = false) (hcb : subCb s x = some b) (haddr : subAddr s x b b.c = some a) (hfilled : b.filled ≠ 0)
  (hhome : subHome s x = (h, s1)) (hnames : subNames x = true) (hlinks : linksUp s x.part.pkg h.pkg = true)
include hgoes hcb haddr hfilled hhome hnames hlinks

theorem reelDrain_faults (hver : findVer s1 h (verPart h x.part) x.name x.ver = some v) :
    exec (.reelWritebackDrain k) s = .next (faultSub s1 x 8) := by
  change execReelWritebackDrain k s = _
  simp only [execReelWritebackDrain, hx, hwb, hgoes, hcb, haddr, hfilled, hhome, hnames, hlinks, hver, Option.bind_some, Option.map_some,
    decide_false, Bool.not_true, Bool.or_self, Bool.false_eq_true, if_false]

theorem reelDrain_stores (hnone : findVer s1 h (verPart h x.part) x.name x.ver = none) (hfirst : x.refusals = 0)
    (hahead : refusedAhead s1 h (verPart h x.part) (s1.tl.refused.filter fun m => decide (m.firstRefused < s.ac + 1)) (s.ac + 1) = false)
    (hroom : homeRoom s1 h (verPart h x.part) (tileBytes x.size) = true) :
    exec (.reelWritebackDrain k) s = .next (drainReel s1 h x b a) := by
  change execReelWritebackDrain k s = _
  simp only [execReelWritebackDrain, hx, hwb, hgoes, hcb, haddr, hfilled, hhome, hnames, hlinks, hnone, hfirst, hahead, hroom, Option.bind_some,
    Option.map_some, decide_false, Bool.not_true, Bool.or_self, Bool.false_eq_true, if_true, if_false]

theorem reelDrain_refused (hnone : findVer s1 h (verPart h x.part) x.name x.ver = none) (hfirst : x.refusals = 0)
    (hfull : homeRoom s1 h (verPart h x.part) (tileBytes x.size) = false) : exec (.reelWritebackDrain k) s =
      .next (verEvent (putSub s1 { x with refusals := 1, since := s.ac }) h (verPart h x.part) false 1 x.name x.ver 0) := by
  change execReelWritebackDrain k s = _
  simp only [execReelWritebackDrain, hx, hwb, hgoes, hcb, haddr, hfilled, hhome, hnames, hlinks, hnone, hfirst, hfull, Option.bind_some,
    Option.map_some, decide_false, Bool.not_true, Bool.not_false, Bool.or_true, Bool.or_self, Bool.false_eq_true, if_true, if_false]

end Offered

end Drain

end Reels

/-- Settles O25: each clause is the equation of its step where the step is enabled. That a store stands behind the refused ones of its
partition is deduced (log entry 137); whether a cancel stops a reel, as `stop` says, is the model's choice (log entry 42). -/
theorem tileEventsTakeEffect : Obligations.TileEventsTakeEffect := by
  unfold Obligations.TileEventsTakeEffect
  refine ⟨?path, ?loads, ?others⟩
  case path =>
    intro s s1 s2 k m h a x o size fmt count data idx nm1 res roots root v fut regs g
    exact ⟨fun hv => ⟨fun hk => ⟨nstArrival_stored hv hk, nstArrival_refused hv hk⟩, nldRequest_served hv,
        fun hsimple => ⟨homeRequest_answered hv hsimple, homeRequest_refused hv hsimple⟩,
        fun hk => ⟨nredArrival_resolved hv hk, nredArrival_faulted hv hk, nredArrival_refused hv hk⟩⟩,
      refusedStoreRetry_stored, fun ha hlinks => ⟨nstAcknowledge_discarded ha hlinks, nstAcknowledge_settles ha hlinks⟩,
      arrivalNotice_serves, retryResend_resends, homeAnswer_writes, nldSlotArrival_fills⟩
  case loads =>
    intro orig s s1 h m d maxsz dest p cons ge th v f hk ht hgen
    exact ⟨serveNld_delivers hk ht hgen, serveNld_poisoned hk ht hgen, serveNld_waits hk ht hgen, serveNld_retries hk ht hgen⟩
  case others =>
    intro s s1 k d c h t th x v b a
    refine ⟨fun hd hlinks => ⟨rootDecision_atCore hd hlinks, rootDecision_atHome hd hlinks⟩, withdrawal_withdraws,
      fun hx hwb hwait => ⟨reelSlotFill_stops hx hwb hwait, fun hgoes hhome hnames hback hlinks => ⟨?fills, ?poisoned, ?waits, ?retries⟩⟩,
      fun hx hwb => ⟨reelDrain_stops hx hwb, fun hgoes hcb haddr hfilled hhome hnames hlinks => ⟨?faults, ?stores, ?refused⟩⟩⟩
    case fills =>
      intro hserve hcb hroom hfits haddr huntyped hclean
      rw [reelSlotFill_fills hx hwb hwait hgoes hhome hnames hback hlinks hserve hcb hroom hfits haddr huntyped, fillReel_clean hclean]
    case poisoned => exact reelSlotFill_poisoned hx hwb hwait hgoes hhome hnames hback hlinks
    case waits => exact reelSlotFill_waits hx hwb hwait hgoes hhome hnames hback hlinks
    case retries => exact reelSlotFill_retries hx hwb hwait hgoes hhome hnames hback hlinks
    case faults => exact reelDrain_faults hx hwb hgoes hcb haddr hfilled hhome hnames hlinks
    case stores =>
      intro hnone hfirst hahead hroom hclean
      rw [reelDrain_stores hx hwb hgoes hcb haddr hfilled hhome hnames hlinks hnone hfirst hahead hroom, drainReel_clean hfirst hclean]
    case refused => exact reelDrain_refused hx hwb hgoes hcb haddr hfilled hhome hnames hlinks

end Sys2Proof.Machine
end

section
/-!
A store on path P (R204, R398): an ST enters its bytes in the store queue, and STORE_QUEUE_WRITE performs them at their home.
-/
namespace Sys2Proof.Machine

theorem State.core_of_cores {s s' : State} (h : s'.un.cores = s.un.cores) (c : CoreId) : s'.core c = s.core c := by
  simp only [State.core, h]

theorem State.die_of_dies {s s' : State} (h : s'.un.dies = s.un.dies) (d : DieId) : s'.die d = s.die d := by
  simp only [State.die, h]

/-! ### ST enters the store queue -/

/-- The entry of a store of n bytes by thread t (R207, R398). -/
def newStore (s : State) (t : ThreadId) (th : Thread) (pa n val : Nat) (rel : Option Nat) : StoreEnt :=
  let after := tget th.fences 0 0
  ⟨s.opId, t, slotGen s t, th.ctl.slice, th.ctl.pc, addrHbm t.core.pkg pa, n, val, rel, if 2 ≤ rel.getD 0 then max after th.seen else after⟩

/-- The state with a store behind the others of its core's queue. -/
def pushStore (s : State) (c : CoreId) (e : StoreEnt) : State :=
  ({ s with opId := s.opId + 1 } : State).modCore c fun r => { r with storeq := r.storeq ++ [e] }

theorem pushStore_storeq (s : State) (c : CoreId) (e : StoreEnt) : ((pushStore s c e).core c).storeq = (s.core c).storeq ++ [e] := by
  rw [pushStore, State.modCore_core, if_pos rfl]
  rfl

section Queue
variable {s : State} {t : ThreadId} {th : Thread}

theorem enterStore_runs (hc : s.cur = .thread t) (ht : s.thread? t = some th) (pa n val : Nat) (rel : Option Nat) :
    Runs (enterStore pa n val rel) s () (pushStore s t.core (newStore s t th pa n val rel)) :=
  Runs.bind (Runs.me hc) (Runs.bind (Runs.thr hc ht) (Runs.bind (Runs.myGen hc) (Runs.bind (Runs.bind (Runs.thr hc ht) (Runs.pure _ s))
    (Runs.bind (Runs.newOp s) (Runs.modify _ _)))))

/-- R398: the queue takes a store while fewer than its 32 entries are filled. -/
theorem queueStore_runs (hc : s.cur = .thread t) (ht : s.thread? t = some th) (hroom : (s.core t.core).storeq.length < 32) (pa n val : Nat)
    (rel : Option Nat) : Runs (queueStore pa n val rel) s () (pushStore s t.core (newStore s t th pa n val rel)) := by
  have hfree : Runs storeRoom s () s := by
    refine Runs.bind (Runs.get s) (Runs.bind (Runs.myCore hc) ?_)
    rw [if_neg (Nat.not_le.mpr hroom)]
    exact Runs.pure () s
  exact Runs.bind hfree (enterStore_runs hc ht pa n val rel)

/-- An access that the core's own TLB maps and allows (R158). -/
theorem translate_hit {va : Word} {nd : Need} {e : TlbEnt} (hc : s.cur = .thread t) (ht : s.thread? t = some th) (hlow : va.toNat < 2 ^ 52)
    (hfind : tlbFind (s.core t.core).tlb th.ctl.slice.part va.toNat = some e) (hallow : nd.of e.rd e.wr e.ex = true) :
    Runs (translate va nd) s (e.pbase * 2 ^ e.log2 + va.toNat % 2 ^ e.log2) s := by
  refine Runs.bind (Runs.me hc) (Runs.bind (Runs.thr hc ht) ?_)
  simp only [Nat.not_le.mpr hlow, if_false]
  refine Runs.bind (Runs.get s) ?_
  simp only [hfind, hallow]
  exact Runs.pure _ s

/-- A canonical address, aligned to its size (R357). -/
theorem plainAddr_hit {a : Word} {n : Nat} {nd : Need} {e : TlbEnt} (hc : s.cur = .thread t) (ht : s.thread? t = some th)
    (hlow : a.toNat < 2 ^ 52) (halign : a.toNat % n = 0) (hfind : tlbFind (s.core t.core).tlb th.ctl.slice.part a.toNat = some e)
    (hallow : nd.of e.rd e.wr e.ex = true) : Runs (plainAddr a n nd) s (e.pbase * 2 ^ e.log2 + a.toNat % 2 ^ e.log2) s := by
  have hcanonical : wfield a 52 12 = 0 := by
    simp only [wfield, field]
    omega
  unfold plainAddr
  simp only [hcanonical, halign, ne_eq, not_true_eq_false, if_false]
  exact translate_hit hc ht hlow hfind hallow

theorem waitOpnds_twoRegs {h : Hdr} {a b : Reg} {x y : Word} (ha : RegHolds s t th a.val x) (hb : RegHolds s t th b.val y) :
    Runs (waitOpnds h [.w a, .w b] []) s () s := by
  refine waitOpnds_regs ha.actor ha.live _ fun o ho => ?_
  rcases List.mem_cons.1 ho with rfl | ho
  · exact ⟨a, x, rfl, ha⟩
  · exact ⟨b, y, List.mem_singleton.1 ho, hb⟩

/-- R357: a base register and an immediate index. -/
theorem baseIndex_imm {h : Hdr} {b : Reg} {w : Word} (i : BitVec 16) (hb : RegHolds s t th b.val w) :
    Runs (baseIndex h (.w b) (.imm16 i)) s (w + i.signExtend 64) s :=
  Runs.bind (Runs.bind (waitOpnds_regs hb.actor hb.live _ fun _ ho => ⟨b, w, List.mem_singleton.1 ho, hb⟩)
    (Runs.bind hb.read (Runs.bind (Runs.pure _ s) (Runs.pure _ s)))) (Runs.pure _ s)

end Queue

/-- The whole of an ST is the entry of its bytes in the queue: no byte of memory is changed before the queue performs it. -/
theorem st_enters {h : Hdr} {t : ThreadId} {th : Thread} {s s0 : State} {r b : Reg} {v w : Word} {i : BitVec 16} {ord sz : BitVec 2}
    {scope : BitVec 3} {e : TlbEnt} (hi : Issues h t th s s0) (hdue : NothingDue th) (hr : RegHolds s0 t th r.val v) (hb : RegHolds s0 t th b.val w)
    (hlow : (w + i.signExtend 64).toNat < 2 ^ 52) (halign : (w + i.signExtend 64).toNat % Machine.sizeOf sz = 0)
    (hfind : tlbFind (s0.core t.core).tlb th.ctl.slice.part (w + i.signExtend 64).toNat = some e) (hwr : e.wr = true)
    (hconfirmed : Runs waitConfirmed s0 () s0) (hroom : (s0.core t.core).storeq.length < 32) :
    ∃ s', exec (.st h (.w r) (.w b) (.imm16 i) ord scope sz) s = .next s' ∧
      Completed t th h [] (pushStore s0 t.core (newStore s0 t th (e.pbase * 2 ^ e.log2 + (w + i.signExtend 64).toNat % 2 ^ e.log2)
        (Machine.sizeOf sz) (v.toNat % 2 ^ (8 * Machine.sizeOf sz)) (if ord = 2 then some scope.toNat else none))) s' := by
  have hexec : exec (.st h (.w r) (.w b) (.imm16 i) ord scope sz) s = retired t h .seq _ :=
    issueSeq_runs hi (Runs.bind (waitOpnds_twoRegs hr hb) (Runs.bind (baseIndex_imm i hb)
      (Runs.bind (plainAddr_hit (nd := .wr) hr.actor hr.live hlow halign hfind hwr) (Runs.bind hconfirmed
        (Runs.bind hr.read (queueStore_runs hr.actor hr.live hroom _ _ _ _))))))
  rw [hexec]
  exact completed_seq (OnlyBytes.refl [] _) hi.live hdue

/-! ### STORE_QUEUE_WRITE performs an entry -/

/-- The four bytes that a plain access makes of its region's entry where it is the region's first touch (R154, R156). -/
def touchRange (s : State) (c : CoreId) (pa : Nat) : List (Addr × Nat) :=
  let region := RegionKey.plain c.pkg (pa / 2 ^ 16)
  if pa < 2 ^ 39 ∧ (regionEntry s region).testBit 31 = false then [(regionPlace s region, 4)] else []

/-- The home of a region that has one is looked up, and no byte is written. -/
theorem homeOf_recorded {s : State} {q : QuadId} {router : Nat} {k : RegionKey} (h : (regionEntry s k).testBit 31 = true) :
    (homeOf s q router k).2.st = s.st := by
  have hmissed : (regionEntry (s.modQuad q fun r => { r with regionMiss := r.regionMiss ++ [k] }) k).testBit 31 = true := h
  unfold homeOf
  split
  case h_1 => rfl
  case h_2 =>
    by_cases hmiss : (s.quad q).regionMiss.contains k = true
    · simp only [hmiss, if_true, h]
    · simp only [hmiss, Bool.false_eq_true, if_false, hmissed, if_true, State.modQuad_st]

/-- A region that has a home is not written again. -/
theorem touchPlain_homed {s : State} {c : CoreId} {pa : Nat}
    (h : ¬ (pa < 2 ^ 39 ∧ (regionEntry s (.plain c.pkg (pa / 2 ^ 16))).testBit 31 = false)) : (touchPlain s c pa).st = s.st := by
  unfold touchPlain
  split
  case isFalse => rfl
  case isTrue hlow => exact homeOf_recorded (Bool.not_eq_false _ ▸ fun hfirst => h ⟨hlow, hfirst⟩)

theorem touchPlain_bytes (s : State) (c : CoreId) (pa : Nat) : bytesKept (touchRange s c pa) s (touchPlain s c pa) := by
  unfold touchRange
  simp only
  split
  case isTrue => exact (touchPlain_st s c pa).2.2.2
  case isFalse h => exact bytesKept.of_st (touchPlain_homed h)

theorem touchPlain_dies (s : State) (c : CoreId) (pa : Nat) : (touchPlain s c pa).un.dies = s.un.dies := by
  unfold touchPlain homeOf
  split
  case isFalse => rfl
  case isTrue =>
    split
    case h_1 => rfl
    case h_2 => simp only; split <;> split <;> rfl

/-- The die of an entry of the machine-check log depends on the address alone. -/
theorem siteInfo_die (s s' : State) (d : DieId) (a : Addr) (kind : Nat) : (siteInfo s' d a kind).1 = (siteInfo s d a kind).1 := by
  unfold siteInfo
  split
  · rfl
  · rfl
  · simp only
    split <;> rfl

/-- Where the next entry about an access to a is written in the log of that address's die. -/
def logPlace (s : State) (d0 : DieId) (a : Addr) (kind : Nat) : Addr :=
  let d := (siteInfo s d0 a kind).1
  mcPlace s d (s.die d).mcHead

theorem logPlace_of_dies {s s' : State} (h : s'.un.dies = s.un.dies) (d0 : DieId) (a : Addr) (kind : Nat) :
    logPlace s' d0 a kind = logPlace s d0 a kind := by
  simp only [logPlace, mcPlace, siteInfo_die s, State.die_of_dies h]

/-- R167: whether a write leaves poison depends on the granules that are poisoned alone. -/
theorem poisoned_wr_of_poison {s s' : State} (h : s'.st.poison = s.st.poison) (a n v : Nat) :
    (s'.wr a n v).poisoned a n = (s.wr a n v).poisoned a n := by
  simp only [State.poisoned, State.poisonAt, State.wr, State.put, h]

/-- An entry about an access changes at most its own 32 bytes. -/
theorem logAccess_st (s : State) (d0 : DieId) (p : PartId) (pc : Word) (a : Addr) (kind : Nat) :
    (logAccess s d0 p pc a kind).wk = s.wk ∧ (logAccess s d0 p pc a kind).un.cores = s.un.cores ∧
    bytesKept [(logPlace s d0 a kind, 32)] s (logAccess s d0 p pc a kind) := by
  obtain ⟨hwk, hcores, -, hbytes⟩ := mcLog_st s (siteInfo s d0 a kind).1 { (siteInfo s d0 a kind).2 with part := p.num, pc := pc.toNat }
  exact ⟨hwk, hcores, hbytes⟩

/-- R167, R268: a store whose granule stays poisoned changes its own bytes and those of one entry of the machine-check log. -/
theorem storeAt_poisoned {s : State} {c : CoreId} {p : PartId} {pc : Word} {a n v : Nat} (hp : (s.wr a n v).poisoned a n = true) :
    (storeAt s c p pc a n v).wk.slices = s.wk.slices ∧ (storeAt s c p pc a n v).un.cores = s.un.cores ∧
    bytesKept [(a, n), (logPlace s c.dieId a 2, 32)] s (storeAt s c p pc a n v) := by
  let w := clearTags a n (fireWatches (s.wr a n v) a n)
  obtain ⟨hwatchSt, hwatchUn, hwatchSlices⟩ := fireWatches_st (s.wr a n v) a n
  obtain ⟨htagSt, htagWk, htagUn⟩ := clearTags_st (fireWatches (s.wr a n v) a n) a n
  have hst : w.st = (s.wr a n v).st := htagSt.trans hwatchSt
  have hun : w.un = s.un := htagUn.trans hwatchUn
  have hstays : w.poisoned a n = true := by simpa only [State.poisoned, State.poisonAt, hst] using hp
  have hlogs : storeAt s c p pc a n v = logAccess w c.dieId p pc a 2 := if_pos hstays
  obtain ⟨hlogWk, hlogCores, hlogBytes⟩ := logAccess_st w c.dieId p pc a 2
  rw [logPlace_of_dies (congrArg Units.dies hun)] at hlogBytes
  rw [hlogs]
  refine ⟨(congrArg Work.slices (hlogWk.trans htagWk)).trans hwatchSlices, hlogCores.trans (congrArg Units.cores hun), ?_⟩
  exact ((bytesKept_wr (bytesKept.refl _ s) List.mem_cons_self).trans (bytesKept.of_st hst)).trans
    (hlogBytes.mono fun _ => List.mem_cons_of_mem _)

/-- The state in which a store leaves its core's queue and reaches its region's home. -/
def homedStore (s : State) (c : CoreId) (k : Nat) (q : StoreEnt) : State :=
  touchPlain (s.modCore c fun r => { r with storeq := dropAt r.storeq k }) c (q.pa % 2 ^ 128)

/-- The state after a store at its home, which its core's L1 line and its release tag follow. -/
def performedStore (s : State) (c : CoreId) (k : Nat) (q : StoreEnt) : State :=
  leaveTagOf (updateL1 (storeAt (homedStore s c k q) c q.slice.part q.pc q.pa q.n q.val) c q)
    (q.rel.map fun sc => ⟨q.pa, q.n, sc, c, q.t, q.gen, q.id⟩)

section Write
variable {s : State} {c : CoreId} {k : Nat} {q : StoreEnt}

theorem storeQueueWrite_performs (hq : (s.core c).storeq[k]? = some q) (hready : storeReady s ((s.core c).storeq.take k) q = true) :
    exec (.storeQueueWrite c k) s = .next (performedStore s c k q) := by
  change execStoreQueueWrite c k s = _
  simp only [execStoreQueueWrite, hq, hready, Bool.not_true, Bool.false_eq_true, if_false]
  rfl

theorem homedStore_kept (s : State) (c : CoreId) (k : Nat) (q : StoreEnt) :
    (homedStore s c k q).wk = s.wk ∧ (homedStore s c k q).st.poison = s.st.poison ∧ (homedStore s c k q).un.dies = s.un.dies ∧
    ((homedStore s c k q).core c).storeq = dropAt (s.core c).storeq k ∧
    bytesKept (touchRange s c (q.pa % 2 ^ 128)) s (homedStore s c k q) := by
  let out := s.modCore c fun r => { r with storeq := dropAt r.storeq k }
  obtain ⟨hwk, hcores, hpoison, -⟩ := touchPlain_st out c (q.pa % 2 ^ 128)
  refine ⟨hwk, hpoison, touchPlain_dies out c _, ?_, touchPlain_bytes out c _⟩
  have hcore : (homedStore s c k q).core c = out.core c := State.core_of_cores hcores c
  rw [hcore, State.modCore_core, if_pos rfl]

theorem performedStore_st (s : State) (c : CoreId) (k : Nat) (q : StoreEnt) :
    (performedStore s c k q).st = (storeAt (homedStore s c k q) c q.slice.part q.pc q.pa q.n q.val).st := rfl

theorem performedStore_slices (s : State) (c : CoreId) (k : Nat) (q : StoreEnt) : (performedStore s c k q).wk.slices =
    (storeAt (homedStore s c k q) c q.slice.part q.pc q.pa q.n q.val).wk.slices := rfl

/-- An update of L1 leaves the queue as the entry left it. -/
theorem performedStore_storeq (hcores : (storeAt (homedStore s c k q) c q.slice.part q.pc q.pa q.n q.val).un.cores = (homedStore s c k q).un.cores) :
    ((performedStore s c k q).core c).storeq = dropAt (s.core c).storeq k := by
  obtain ⟨-, -, -, hqueue, -⟩ := homedStore_kept s c k q
  rw [← hqueue]
  change ((updateL1 _ c q).core c).storeq = _
  simp only [updateL1, State.modCore_core, if_true, State.core_of_cores hcores]

/-- R204: a store that leaves no poison changes its own bytes, beside the entry of a region that it is the first to touch. -/
theorem performedStore_clean (hp : (s.wr q.pa q.n q.val).poisoned q.pa q.n = false) :
    bytesKept ((q.pa, q.n) :: touchRange s c (q.pa % 2 ^ 128)) s (performedStore s c k q) ∧
    (performedStore s c k q).rd q.pa q.n = q.val % 256 ^ q.n ∧ ((performedStore s c k q).core c).storeq = dropAt (s.core c).storeq k ∧
    (performedStore s c k q).wk.slices = s.wk.slices := by
  obtain ⟨hwk, hpoison, -, -, hbytes⟩ := homedStore_kept s c k q
  obtain ⟨hst, hslices, hun⟩ := storeAt_st (c := c) (p := q.slice.part) (pc := q.pc) ((poisoned_wr_of_poison hpoison _ _ _).trans hp)
  have hstored := (performedStore_st s c k q).trans hst
  refine ⟨?bytes, ?value, performedStore_storeq (congrArg Units.cores hun), ?slices⟩
  case bytes =>
    exact ((hbytes.mono fun _ => List.mem_cons_of_mem _).trans (bytesKept_wr (bytesKept.refl _ _) List.mem_cons_self)).trans (bytesKept.of_st hstored)
  case value =>
    rw [← State.rd_wr_same (homedStore s c k q) q.pa]
    simp only [State.rd, hstored]
  case slices => rw [performedStore_slices, hslices, hwk]

/-- R167, R268: a store into a granule that stays poisoned also enters the machine-check log. -/
theorem performedStore_poisoned (hp : (s.wr q.pa q.n q.val).poisoned q.pa q.n = true) :
    bytesKept ((q.pa, q.n) :: (logPlace s c.dieId q.pa 2, 32) :: touchRange s c (q.pa % 2 ^ 128)) s (performedStore s c k q) ∧
    ((performedStore s c k q).core c).storeq = dropAt (s.core c).storeq k ∧ (performedStore s c k q).wk.slices = s.wk.slices := by
  obtain ⟨hwk, hpoison, hdies, -, hbytes⟩ := homedStore_kept s c k q
  obtain ⟨hslices, hcores, hlogged⟩ := storeAt_poisoned (c := c) (p := q.slice.part) (pc := q.pc) ((poisoned_wr_of_poison hpoison _ _ _).trans hp)
  refine ⟨?bytes, performedStore_storeq hcores, by rw [performedStore_slices, hslices, hwk]⟩
  case bytes =>
    rw [logPlace_of_dies hdies] at hlogged
    refine ((hbytes.mono fun _ h => List.mem_cons_of_mem _ (List.mem_cons_of_mem _ h)).trans (hlogged.mono fun r hr => ?_)).trans
      (bytesKept.of_st (performedStore_st s c k q))
    exact List.mem_append_left (touchRange s c (q.pa % 2 ^ 128)) hr

end Write

/-- Settles O51: an ST is the entry of its bytes in the queue; a ready entry is a store at its home behind the touch of its region. -/
theorem storesGoWhereTheyPoint : Obligations.StoresGoWhereTheyPoint := by
  unfold Obligations.StoresGoWhereTheyPoint
  intro h t th s s0 r b v w a i ord sz scope e pa n k c q
  refine ⟨?entered, fun hq hready => ⟨fun hclean => ?written, fun hpoisoned => ?logged⟩⟩
  case entered =>
    rintro hi hdue hr hb rfl rfl hlow halign hfind hwr rfl hconfirmed hroom
    obtain ⟨s', hexec, hdone⟩ := st_enters hi hdue hr hb hlow halign hfind hwr hconfirmed hroom
    refine ⟨s', newStore s0 t th _ _ _ _, hexec, hdone.bytes, ?_, rfl, rfl, rfl, rfl, rfl⟩
    rw [← pushStore_storeq, State.core_of_cores (congrArg Units.cores hdone.units.un)]
    rfl
  case written => exact ⟨_, storeQueueWrite_performs hq hready, performedStore_clean hclean⟩
  case logged => exact ⟨_, storeQueueWrite_performs hq hready, performedStore_poisoned hpoisoned⟩

end Sys2Proof.Machine
end

section
/-!
The steps of the flyer, of barriers and of the drafter (R203, R228 to R233, R239, R240, R252), of tasks and continuations (R35, R37, R39,
R45, R46, R75), of a thread that ends by a fault (R267) and of a wait for an event (R413): what each does where it is enabled.
-/
namespace Sys2Proof.Machine

/-! ### Copies and contributions -/

section Copies
variable {s : State} {c : ClusterId} {k : Nat} {x : Copy} (hx : (s.cluster c).copies[k]? = some x) (hruns : (s.cluster c).dm.stopped = false)
include hx hruns

theorem flyerChunk_drops (hstop : x.stop = true) : exec (.flyerChunk c k) s = .next (dropCopy s c x.id) := by
  change execFlyerChunk c k s = _
  simp only [execFlyerChunk, hx, hruns, hstop, Bool.false_eq_true, if_true, if_false]

/-- R203: a copy moves a chunk once nothing that its thread issued before meets what it reads and writes (log entry 140). -/
theorem flyerChunk_moves (hgoes : x.stop = false)
    (hfirst : afterPathC s x.t x.gen x.id (x.reads s x.t.core.quad) (x.writes s x.t.core.quad) false = false) :
    exec (.flyerChunk c k) s = .next (moveChunk s c x) := by
  change execFlyerChunk c k s = _
  simp only [execFlyerChunk, hx, hruns, hgoes, hfirst, Bool.false_eq_true, if_false]

end Copies

section Contributions
variable {s s1 s2 : State} {k data : Nat} {y : Contribution} {m : MergeSite} {dst : Span} {r : MergeRec}
  (hy : s.nt.contribs[k]? = some y) (hruns : (s.cluster y.t.core.cluster).dm.stopped = false ∨ y.data.isNone = false)
  (hback : contribBackOff s y = false)
  (hfirst : afterPathC s y.t y.gen y.id (y.reads s y.t.core.quad) (y.writes s y.t.core.quad) true = false)
  (hdata : contribData s y = .ok (data, s1)) (hdst : y.dst.span s1 y.t.core.quad y.part 0 y.len .wr = .ok dst)
  (huntyped : Span.typed s1 dst = false) (hfresh : barStale s1 y.bar = false) (hclean : Span.poisoned s1 dst = false)
  (hsite : mergeSite s1 y dst = (m, s2))
include hy hruns hback hfirst hdata hdst huntyped hfresh hclean hsite

/-- R230: the first contribution to a destination opens its merge record. -/
theorem cpyrMerge_opens (hnone : s2.nt.merges.find? (sameMerge m y.part) = none) (hroom : siteRoom s2 y m = true) :
    exec (.cpyrMerge k) s =
      .next (mergeInto s2 y m dst data ⟨m.addr, m.home, m.cluster, y.part, y.fmt, y.len, y.nm1, [], 0, [], []⟩) := by
  change execCpyrMerge k s = _
  simp only [execCpyrMerge, hy, Bool.and_eq_false_iff.2 hruns, hback, hfirst, hdata, hdst, huntyped, hfresh, hclean, hsite, hnone, hroom,
    Bool.or_self, Bool.false_eq_true, if_true, if_false]

/-- R193: without room for a record the contribution is answered with a retry. -/
theorem cpyrMerge_retries (hnone : s2.nt.merges.find? (sameMerge m y.part) = none) (hfull : siteRoom s2 y m = false) :
    exec (.cpyrMerge k) s = .next (retryContrib s2 y m data) := by
  change execCpyrMerge k s = _
  simp only [execCpyrMerge, hy, Bool.and_eq_false_iff.2 hruns, hback, hfirst, hdata, hdst, huntyped, hfresh, hclean, hsite, hnone, hfull,
    Bool.or_self, Bool.false_eq_true, if_false]

theorem cpyrMerge_merges (hr : s2.nt.merges.find? (sameMerge m y.part) = some r) (hnm1 : r.nm1 = y.nm1) (hlen : r.len = y.len)
    (hfmt : r.fmt = y.fmt) (hnew : r.received.contains y.index = false) : exec (.cpyrMerge k) s = .next (mergeInto s2 y m dst data r) := by
  change execCpyrMerge k s = _
  simp only [execCpyrMerge, hy, Bool.and_eq_false_iff.2 hruns, hback, hfirst, hdata, hdst, huntyped, hfresh, hclean, hsite, hr, hnm1, hlen, hfmt,
    hnew, Bool.or_self, ne_eq, not_true_eq_false, or_self, Bool.false_eq_true, if_false]

end Contributions

/-! ### Barrier objects -/

section Arrivals
variable {s : State} {k : Nat} {z : BoArr}

/-- The state with the k-th arrival taken off its way. -/
def dropArrival (s : State) (k : Nat) : State := { s with nt := { s.nt with boarrs := dropAt s.nt.boarrs k } }

variable (hz : s.nt.boarrs[k]? = some z)
  (hdone : ((s.core z.t.core).storeq.any fun e => decide (e.t = z.t ∧ e.gen = z.tgen ∧ e.id < z.id ∨ e.id < z.after)) = false)
include hz hdone

/-- R233: an arrival for another generation counts nothing. -/
theorem boarrArrival_stale (hstale : barStale (dropArrival s k) (some (z.addr, z.gen)) = true) :
    exec (.boarrArrival k) s = .next (dropArrival s k) := by
  change execBoarrArrival k s = _
  simp only [execBoarrArrival, hz, hdone, Bool.false_eq_true, if_false]
  exact congrArg Host.Outcome.next (if_pos hstale)

theorem boarrArrival_counts (hfresh : barStale (dropArrival s k) (some (z.addr, z.gen)) = false) :
    exec (.boarrArrival k) s = .next (boArrive (dropArrival s k) z.t.core z.slice.part z.addr z.count) := by
  change execBoarrArrival k s = _
  simp only [execBoarrArrival, hz, hdone, Bool.false_eq_true, if_false]
  exact congrArg Host.Outcome.next (if_neg (ne_true_of_eq_false hfresh))

end Arrivals

/-! ### Rectangle barriers -/

section Rectangles
variable {s : State} {i : SliceId} {l : CoreId} {n : BitVec 2}

section Complete
variable (hall : barComplete l (barOf s i l n.toNat) = true) (honce : (barOf s i l n.toNat).forwarded = false)
include hall honce

/-- R240: at the corner the arrivals end and the release is due. -/
theorem barrierForward_atCorner (hcorner : atCorner l (barOf s i l n.toNat) = true) :
    exec (.barrierArrivalForward i l n) s = .next
      (putBar s l i n.toNat { barOf s i l n.toNat with forwarded := true, east := none, south := none, due := true }) := by
  change execBarrierArrivalForward i l n s = _
  simp only [execBarrierArrivalForward, hall, honce, hcorner, Bool.not_false, Bool.and_self, if_true]

theorem barrierForward_sends (haway : atCorner l (barOf s i l n.toNat) = false) :
    exec (.barrierArrivalForward i l n) s = .next (sendArrival
      (putBar s l i n.toNat { barOf s i l n.toNat with forwarded := true, east := none, south := none, due := false })
      i l n.toNat (barOf s i l n.toNat)) := by
  change execBarrierArrivalForward i l n s = _
  simp only [execBarrierArrivalForward, hall, honce, haway, Bool.not_false, Bool.and_self, Bool.false_eq_true, if_true, if_false]

end Complete

/-- The state after a release at a core: the register's next generation begins, and the release goes on to the east and, in column X0, to
the south (R240). -/
def releasedBar (s : State) (i : SliceId) (l : CoreId) (n : Nat) (b : BarState) : State :=
  let w := putBar s l i n { b with gen := (b.gen + 1) % 256, arrived := b.next, next := [], forwarded := false, due := false }
  let w := passRelease i n w ({ l with core := l.core + 1 }, decide (coreX l.core < b.x0 + b.wM1))
  passRelease i n w ({ l with core := l.core + 16 }, decide (coreX l.core = b.x0 ∧ coreY l.core < b.y0 + b.hM1))

theorem barrierRelease_releases (hdue : (barOf s i l n.toNat).due = true) : exec (.barrierRelease i l n) s = .next
    (let w := releasedBar s i l n.toNat (barOf s i l n.toNat)
     ((w.wk.slots.filter fun e => decide (e.1.core = l)).map (·.1)).foldl (releaseThread i n.toNat) w) := by
  change execBarrierRelease i l n s = _
  simp only [execBarrierRelease, hdue, if_true, List.foldl_cons, List.foldl_nil]
  rfl

end Rectangles

/-! ### The drafter -/

section Plans
variable {s : State} {k : Nat} {pl : PlanOp} (hpl : s.nt.plans[k]? = some pl) (hfirst : planWaits s pl = false)

section
include hpl hfirst

/-- R242: a record that does not check faults the plan's future before any segment (log entry 67). -/
theorem planExecute_refuses (hbad : pl.refused ≠ 0) :
    exec (.planExecute k) s = .next (engResolve (dropPlan s k) pl.fut 3 (faultResult (mkTrap 5 0 pl.refused))) := by
  change execPlanExecute k s = _
  simp only [execPlanExecute, hpl, hfirst, hbad, ne_eq, not_false_eq_true, Bool.false_eq_true, if_true, if_false]

end

/-- The number of a plan's blocks. -/
def PlanOp.total (pl : PlanOp) : Nat := pl.blocks.foldl (· + ·) 0

/-- The first block of the core whose segment is next, and the number of its blocks. -/
def PlanOp.share (pl : PlanOp) : Nat × Nat := shareOf pl.total pl.cores pl.next

/-- The chains of that core. -/
def PlanOp.chains (pl : PlanOp) : List (Nat × Nat × Nat) := chainsOf pl.blocks 0 pl.share.1 pl.share.2

/-- Where its segment begins in the destination. -/
def PlanOp.segment (pl : PlanOp) : Nat := pl.next * 2 ^ pl.segLog2

/-- The state with a plan's next segment written, its header last (R252). -/
def writeSegment (s : State) (pl : PlanOp) : State :=
  let w := planWrite pl pl.fut.slice.part (pl.segment + 16) (16 * pl.chains.length)
    (pack (pl.chains.map fun (i, b, n) => (128, i + b * 2 ^ 16 + n * 2 ^ 64))) s
  planWrite pl pl.fut.slice.part pl.segment 16 (pl.chains.length + pl.share.2 * 2 ^ 16) w

section Segment
variable (hchecked : pl.refused = 0) (hfits : pl.chains.length ≤ 2 ^ pl.segLog2 / 16 - 1)
  (huntyped : Span.typed s (subSpan pl.dst pl.segment (16 + 16 * pl.chains.length)) = false)
include hpl hfirst hchecked hfits huntyped

/-- One segment is one step (log entry 67); the plan goes on, or resolves its future after the last core's. -/
theorem planExecute_writes : exec (.planExecute k) s =
    if pl.next + 1 < pl.cores then .next (setPlan (writeSegment s pl) k { pl with next := pl.next + 1 })
    else .next (engResolve (dropPlan (writeSegment s pl) k) pl.fut 2 (pl.total % 2 ^ 32)) := by
  change execPlanExecute k s = _
  simp only [execPlanExecute, hpl, hfirst, hchecked, ne_eq, not_true_eq_false, Bool.false_eq_true, if_false]
  exact (if_neg (Nat.not_lt.2 hfits)).trans (if_neg (ne_true_of_eq_false huntyped))

theorem planExecute_goesOn (hmore : pl.next + 1 < pl.cores) :
    exec (.planExecute k) s = .next (setPlan (writeSegment s pl) k { pl with next := pl.next + 1 }) :=
  (planExecute_writes hpl hfirst hchecked hfits huntyped).trans (if_pos hmore)

theorem planExecute_resolves (hlast : pl.cores ≤ pl.next + 1) :
    exec (.planExecute k) s = .next (engResolve (dropPlan (writeSegment s pl) k) pl.fut 2 (pl.total % 2 ^ 32)) :=
  (planExecute_writes hpl hfirst hchecked hfits huntyped).trans (if_neg (Nat.not_lt.2 hlast))

end Segment

end Plans

/-! ### Idle slots and the steal network -/

section Slots
variable {s : State} {t : ThreadId} {r : SlotRec} {k j since : Nat} {rc : TaskRec} {x : SliceRec} {vc : CoreId} (hr : s.slot? t = some r)
include hr

section Pop
variable (hat : eligibleAt s t = some k) (hidle : slotIdle s t r = true) (hunsent : r.steal ≠ .sent) (hunasked : r.steal ≠ .empty)
  (hdrained : slotDraining s t = false) (hrc : (s.core t.core).deque[k]? = some rc) (hx : s.slice? rc.slice = some x)
include hat hidle hunsent hunasked hdrained hrc hx

theorem idleSlotPop_starts (hgoes : recordAborts (takeRecord s t.core k) t.core rc = false) : exec (.idleSlotPop t) s =
    .next (syncOut (startTask (dropL1 t.core (takeRecord s t.core k)) t rc (recordRegs rc) (recordMarks rc))) := by
  change execIdleSlotPop t s = _
  simp only [execIdleSlotPop, hr, hat, hidle, hunsent, hunasked, hdrained, hrc, hx, hgoes, decide_false, Bool.not_true, Bool.or_self,
    Bool.false_eq_true, if_false]

/-- R50: a record of an aborted slice is discarded, and the slot's generation rises as for a started task (log entry 41). -/
theorem idleSlotPop_discards (haborts : recordAborts (takeRecord s t.core k) t.core rc = true) : exec (.idleSlotPop t) s =
    .next ((discardRecord (takeRecord s t.core k) t rc).modSlot t fun r => { r with gen := (r.gen + 1) % 256 }) := by
  change execIdleSlotPop t s = _
  simp only [execIdleSlotPop, hr, hat, hidle, hunsent, hunasked, hdrained, hrc, hx, haborts, decide_false, Bool.not_true, Bool.or_self,
    Bool.false_eq_true, if_true, if_false]

end Pop

section Request

/-- The state in which a core has reserved a deque entry for what a steal brings (R39). -/
def reserveEntry (s : State) (c : CoreId) : State := s.modCore c fun r => { r with reserved := r.reserved + 1 }

variable (hidle : slotIdle s t r = true) (hquiet : r.steal = .none) (hnone : eligibleAt s t = none) (hroom : dequeRoom s t.core = true)
include hidle hquiet hnone hroom

theorem stealRequest_takes (hvictim : pickVictim (reserveEntry s t.core) t = some vc)
    (htop : topTakeable (reserveEntry s t.core) t vc = some j) (hrc : ((reserveEntry s t.core).core vc).deque[j]? = some rc) :
    exec (.stealRequest t) s = .next ((takeRecord (reserveEntry s t.core) vc j).modSlot t fun r =>
      { r with steal := .sent, carried := some rc }) := by
  change execStealRequest t s = _
  unfold reserveEntry at hvictim htop hrc
  simp only [execStealRequest, hr, hidle, hquiet, hnone, hroom, hvictim, htop, hrc, bne_self_eq_false, Option.isSome_none, Option.bind_some,
    Option.map_some, Bool.not_true, Bool.or_self, Bool.false_eq_true, if_false]
  rfl

theorem stealRequest_findsNone (hvictim : pickVictim (reserveEntry s t.core) t = none) : exec (.stealRequest t) s =
    .next ((reserveEntry s t.core).modSlot t fun r => { r with steal := .empty, carried := none }) := by
  change execStealRequest t s = _
  unfold reserveEntry at hvictim
  simp only [execStealRequest, hr, hidle, hquiet, hnone, hroom, hvictim, bne_self_eq_false, Option.isSome_none, Option.bind_none,
    Bool.not_true, Bool.or_self, Bool.false_eq_true, if_false]
  rfl

end Request

section Reply

/-- The state in which a reply has reached its slot, its reservation given back. -/
def endSteal (s : State) (t : ThreadId) : State := (releaseEntry s t.core).modSlot t fun r => { r with steal := .none, carried := none }

section Carried
variable (hsent : r.steal = .sent) (hcarried : r.carried = some rc)
include hsent hcarried

theorem stealReply_discards (haborts : recordAborts (endSteal s t) t.core rc = true) : exec (.stealReply t) s =
    .next ((discardRecord (endSteal s t) t rc).modSlot t fun r => { r with gen := (r.gen + 1) % 256 }) := by
  change execStealReply t s = _
  simp only [execStealReply, hr, hsent, hcarried]
  exact congrArg Host.Outcome.next (if_pos haborts)

theorem stealReply_pushes (hgoes : recordAborts (endSteal s t) t.core rc = false) :
    exec (.stealReply t) s = .next (pushBottom (endSteal s t) t.core rc) := by
  change execStealReply t s = _
  simp only [execStealReply, hr, hsent, hcarried]
  exact congrArg Host.Outcome.next (if_neg (ne_true_of_eq_false hgoes))

end Carried

/-- An empty reply gives its reservation back, and the slot waits before it asks again (log entry 40). -/
theorem stealReply_waits (hempty : r.steal = .empty) : exec (.stealReply t) s =
    .next ((releaseEntry s t.core).modSlot t fun r => { r with steal := .wait s.ac, carried := none }) := by
  change execStealReply t s = _
  simp only [execStealReply, hr, hempty]

theorem stealRetry_asks (hwait : r.steal = .wait since) (hdue : since + 64 ≤ s.ac) :
    exec (.stealRetry t) s = .next (s.modSlot t fun r => { r with steal := .none }) := by
  change execStealRetry t s = _
  simp only [execStealRetry, hr, hwait, hdue, if_true]

end Reply

end Slots

/-! ### Wakes, polls and continuations -/

section Registrations
variable {s : State} {k : Nat} {w : WakeMsg} {t : ThreadId} {c : CoreId} {q : Cont}

/-- What a wake for the word at a makes of a thread at its core: one that waits for it goes on, unless it polls (R45). -/
def wakeThread (s : State) (a : Addr) (th : Thread) : Thread :=
  match th.phase with
  | .future b g p => if b = a && regOver s b g && !p then { th with phase := .ready } else th
  | _ => th

/-- The state in which the k-th wake has reached the threads of its core. -/
def wakeThreads (s : State) (k : Nat) (w : WakeMsg) : State :=
  let u : State := { s with nt := { s.nt with wakes := dropAt s.nt.wakes k } }
  { u with wk := { u.wk with slots := u.wk.slots.map fun (t, r) =>
      (t, if t.core = w.core then { r with thread := r.thread.map (wakeThread u w.addr) } else r) } }

theorem futureWake_ends (hw : s.nt.wakes[k]? = some w) : exec (.futureWake k) s =
    .next (settleConts (wakeThreads s k w) w.core fun a p => decide (a = w.addr) && !p) := by
  change execFutureWake k s = _
  simp only [execFutureWake, hw]
  rfl

/-- What a poll makes of a thread that waits for a future: it goes on where the word has left Pending (R45). -/
def pollThread (s : State) (th : Thread) : Thread :=
  match th.phase with
  | .future a g _ => if regOver s a g then { th with phase := .ready } else th
  | _ => th

theorem registrationPoll_thread (hpolled : (polled s)[k]? = some (.inl t)) :
    exec (.registrationPoll k) s = .next (s.modThread t (pollThread s)) := by
  change execRegistrationPoll k s = _
  simp only [execRegistrationPoll, hpolled]
  rfl

theorem registrationPoll_core (hpolled : (polled s)[k]? = some (.inr c)) :
    exec (.registrationPoll k) s = .next (settleConts s c fun _ p => p) := by
  change execRegistrationPoll k s = _
  simp only [execRegistrationPoll, hpolled]

/-- R39: the first continuation that waits enters the deque once there is room. -/
theorem waitingContinuationPush_pushes (hat : (s.core c).conts.findIdx? (·.due) = some k) (hroom : dequeRoom s c = true)
    (hq : (s.core c).conts[k]? = some q) : exec (.waitingContinuationPush c) s =
      .next (pushBottom (s.modCore c fun r => { r with conts := dropAt r.conts k }) c q.task) := by
  change execWaitingContinuationPush c s = _
  simp only [execWaitingContinuationPush, hat, hroom, hq, Bool.not_true, Bool.false_eq_true, if_false]

end Registrations

/-! ### Ends by fault and waits for an event -/

section Ends
variable {s : State} {t : ThreadId} {th : Thread} {e : EndRec} {w : WatchRec} (ht : s.thread? t = some th)
include ht

/-- R267: the last tile store is acknowledged, and the thread is not out. -/
theorem taskEndByFault_leaves (hends : th.phase = .ending) (hacked : th.nsts = []) (hcause : th.endCause = some e) (hpre : th.outPre = false)
    (hbudget : th.outBudget = false) (hdebug : th.outDebug = false) : exec (.taskEndByFault t) s =
      .next (leaveTask (failTask (s.modThread t fun th => { th with due := { th.due with violations := [], kept := [] } }) t th.ctl.slice
        th.ctl.joinRec e) t) := by
  change execTaskEndByFault t s = _
  simp only [execTaskEndByFault, ht, hends, hacked, hcause, hpre, hbudget, hdebug, Bool.or_self, Bool.false_eq_true, if_false]

/-- R413: a watch whose end has come wakes its thread. -/
theorem endWatch_ends {ok : State → WatchRec → Bool} (hwaits : th.phase = .watch) (hw : th.watch = some w) (hok : ok s w = true) :
    endWatch s t ok = s.modThread t fun th => { th with phase := .ready, watch := some { w with fired := true } } := by
  simp only [endWatch, ht, hwaits, hw, hok, if_true]

theorem waitevWake_ends (hwaits : th.phase = .watch) (hw : th.watch = some w) (hfired : w.fired = true) : exec (.waitevWake t) s =
    .next (s.modThread t fun th => { th with phase := .ready, watch := some { w with fired := true } }) :=
  congrArg Host.Outcome.next (endWatch_ends (ok := fun _ w => w.fired) ht hwaits hw hfired)

theorem waitevTimeout_ends (hwaits : th.phase = .watch) (hw : th.watch = some w) (hdue : w.limit ≤ s.dtime.toNat) : exec (.waitevTimeout t) s =
    .next (s.modThread t fun th => { th with phase := .ready, watch := some { w with fired := true } }) :=
  congrArg Host.Outcome.next (endWatch_ends (ok := fun s w => decide (w.limit ≤ s.dtime.toNat)) ht hwaits hw (decide_eq_true hdue))

end Ends

/-- Settles O23: each clause is the equation of its step where the step is enabled. That a slot asks again 64 ac after an empty steal (log
entry 40), that a discarded record makes the slot's generation rise (log entry 41), that one segment of a plan is one step (log entry 67), and
which earlier copies and contributions a later one waits for (log entry 140) are deduced. -/
theorem engineAndTaskEventsTakeEffect : Obligations.EngineAndTaskEventsTakeEffect := by
  unfold Obligations.EngineAndTaskEventsTakeEffect
  refine ⟨?engines, ?tasks, ?ends⟩
  case engines =>
    intro s s1 s2 c k data x y z i l n m dst r pl
    refine ⟨fun hx hruns => ⟨flyerChunk_drops hx hruns, flyerChunk_moves hx hruns⟩, ?contributions,
      fun hz hdone => ⟨boarrArrival_stale hz hdone, boarrArrival_counts hz hdone⟩,
      fun hall honce => ⟨barrierForward_atCorner hall honce, barrierForward_sends hall honce⟩, barrierRelease_releases,
      fun hpl hfirst => ⟨planExecute_refuses hpl hfirst, fun hchecked hfits huntyped =>
        ⟨planExecute_goesOn hpl hfirst hchecked hfits huntyped, planExecute_resolves hpl hfirst hchecked hfits huntyped⟩⟩⟩
    case contributions =>
      intro hy hruns hback hfirst hdata hdst huntyped hfresh hclean hsite
      exact ⟨cpyrMerge_opens hy hruns hback hfirst hdata hdst huntyped hfresh hclean hsite,
        cpyrMerge_retries hy hruns hback hfirst hdata hdst huntyped hfresh hclean hsite,
        cpyrMerge_merges hy hruns hback hfirst hdata hdst huntyped hfresh hclean hsite⟩
  case tasks =>
    intro s t r k j since rc x vc c w q
    refine ⟨fun hr => ⟨fun hat hidle hunsent hunasked hdrained hrc hx _ => ⟨?starts, ?discards⟩,
      fun hidle hquiet hnone hroom => ⟨stealRequest_takes hr hidle hquiet hnone hroom, stealRequest_findsNone hr hidle hquiet hnone hroom⟩,
      fun hsent hcarried => ⟨stealReply_discards hr hsent hcarried, stealReply_pushes hr hsent hcarried⟩, stealReply_waits hr,
      stealRetry_asks hr⟩, futureWake_ends, registrationPoll_thread, registrationPoll_core, waitingContinuationPush_pushes⟩
    case starts => exact idleSlotPop_starts hr hat hidle hunsent hunasked hdrained hrc hx
    case discards => exact idleSlotPop_discards hr hat hidle hunsent hunasked hdrained hrc hx
  case ends =>
    intro s t th e w ht
    exact ⟨taskEndByFault_leaves ht, fun hwaits hw => ⟨waitevWake_ends ht hwaits hw, waitevTimeout_ends ht hwaits hw⟩⟩

end Sys2Proof.Machine
end

section
/-!
Class 12 (R224, R225, R227, R366 to R372): what each instruction stages and queues, and how the matrix engine executes its queue and its peeks.
-/
namespace Sys2Proof.Machine

/-! ### Issue, staging and the queue -/

section Issue
variable {h : Hdr} {t : ThreadId} {th : Thread} {s s0 s1 s2 : State}

/-- R225: with room in the queue, an instruction of class 12 whose meaning completes is retired. -/
theorem matCheck_runs {bad : Option TrapRec} {body : Exec Unit} (hi : Issues h t th s s0) (hroom : matFull s t = false) (hlegal : bad = none)
    (hbody : Runs body s0 () s1) : matCheck bad h body s = retired t h .seq s1 := by
  subst hlegal
  exact (matCheck_on hi hroom).trans (issueSeq_runs hi hbody)

theorem matIssue_runs {body : Exec Unit} (hi : Issues h t th s s0) (hroom : matFull s t = false) (hbody : Runs body s0 () s1) :
    matIssue h body s = retired t h .seq s1 := matCheck_runs hi hroom rfl hbody

/-- The operation numbered next, in the queue of the core's engine behind the others. -/
theorem enqueueMat_runs (hc : s.cur = .thread t) (op : MatKind) :
    Runs (enqueueMat op) s () (({ s with opId := s.opId + 1 } : State).modCore t.core fun r =>
      { r with mqueue := r.mqueue ++ [⟨s.opId, t, slotGen s t, op, true⟩] }) :=
  Runs.bind (Runs.bind (Runs.me hc) (Runs.bind (Runs.myGen hc) (Runs.bind (Runs.newOp s) (Runs.pure _ _)))) (Runs.modify _ _)

/-- The staging of an instruction that has moved none of its pieces. -/
abbrev begunStage (h : Hdr) (goal : StageGoal) (l : List StagePiece) : Stage := ⟨goal, 0, 0, l, h.hint.toNat, h.eog, h.ya⟩

section Staged
variable {l : List StagePiece} {g : Stage} (hc : s.cur = .thread t) (hfirst : stagingBefore s t.core none = false)
include hc hfirst

/-- An MMA with both operands staged consumes the slots it read and enters the queue. -/
theorem startStage_mma {a : AccId} {k ta tb f32 bookA bookB : Nat} {au bu : Bool} {cbs : List Nat}
    (hmove : Runs (runPieces l (begunStage h (.matrix (.mma a k ta tb 0 0 f32 bookA bookB au bu) none cbs none) l)) s g s1)
    (hg : g.goal = .matrix (.mma a k ta tb 0 0 f32 bookA bookB au bu) none cbs none)
    (hend : Runs (do takeSlots cbs; enqueueMat (.mma a k ta tb g.a g.b f32 bookA bookB au bu)) s1 () s2) :
    Runs (startStage h (.matrix (.mma a k ta tb 0 0 f32 bookA bookB au bu) none cbs none) l) s () s2 := by
  obtain ⟨_, _, htake, hqueue⟩ := Runs.split hend
  exact startStage_runs hc (fun _ => hfirst) hmove (finishMatrix_runs hg (Runs.bind htake hqueue))

/-- A load with its accumulator's content staged notes the tag (log entry 59) and enters the queue. -/
theorem startStage_load {a : AccId} {tag : Nat} (hmove : Runs (runPieces l (begunStage h (.matrix (.load a 0 tag) none [] none) l)) s g s1)
    (hg : g.goal = .matrix (.load a 0 tag) none [] none) (hend : Runs (do noteTag a tag; enqueueMat (.load a g.a tag)) s1 () s2) :
    Runs (startStage h (.matrix (.load a 0 tag) none [] none) l) s () s2 := by
  obtain ⟨_, _, hnote, hqueue⟩ := Runs.split hend
  exact startStage_runs hc (fun _ => hfirst) hmove (finishMatrix_runs hg (Runs.bind (Runs.pure () s1) (Runs.bind hnote hqueue)))

/-- A codebook with its last piece staged takes effect (log entry 60), and its operation enters the queue. -/
theorem startStage_codebook {side : Bool} (hmove : Runs (runPieces l (begunStage h (.matrix .codebook none [] (some side)) l)) s g s1)
    (hg : g.goal = .matrix .codebook none [] (some side))
    (hend : Runs (do wrWin (if side then offMcbB else offMcbA) 32 g.a; enqueueMat .codebook) s1 () s2) :
    Runs (startStage h (.matrix .codebook none [] (some side)) l) s () s2 := by
  obtain ⟨_, _, hwrite, hqueue⟩ := Runs.split hend
  exact startStage_runs hc (fun _ => hfirst) hmove (finishMatrix_runs hg (Runs.bind (Runs.pure () s1) (Runs.bind hwrite hqueue)))

end Staged

end Issue

/-! ### The instructions -/

section Instructions
variable {h : Hdr} {t : ThreadId} {th : Thread} {s s0 s1 s2 s3 s4 : State} {acc : Fin 4} {a b x r : Reg} {d : VReg} {fa fb fmt : BitVec 4}
  {ca cb : Fin 16} {k : BitVec 9} {au bu int sgn side : Bool} {id : AccId} {c : Captured} {bookA bookB tag n vd oa ob : Nat} {ra rb : Shape}
  {v sc : Word} {l : Span} {la lb : List (VRun × Span)} {pa pb : List StagePiece} {g : Stage}
  (hi : Issues h t th s s0) (hroom : matFull s t = false)
include hi hroom

theorem mcb_queues (hread : Runs (rd1 h (.w a)) s0 v s1) (hspan : Runs (matSpan v 32 32) s1 l s1) (horder : Runs (matOrder l) s1 () s1)
    (hc : s1.cur = .thread t) (hfirst : stagingBefore s1 t.core none = false)
    (hmove : Runs (runPieces (piecesOf 0 v .buffer 0 l) (begunStage h (.matrix .codebook none [] (some side)) (piecesOf 0 v .buffer 0 l))) s1 g s2)
    (hg : g.goal = .matrix .codebook none [] (some side))
    (hend : Runs (do wrWin (if side then offMcbB else offMcbA) 32 g.a; enqueueMat .codebook) s2 () s3) :
    exec (.mcb h a side) s = retired t h .seq s3 :=
  matIssue_runs hi hroom (Runs.bind hread (Runs.bind hspan (Runs.bind horder (startStage_codebook hc hfirst hmove hg hend))))

section Accumulator
variable (hacc : Runs (accOf acc) s0 id s0)
include hacc

section Mma
variable (hk : Runs capture s0 c s0) (hbookA : Runs (rdWin offMcbA 32) s0 bookA s0) (hbookB : Runs (rdWin offMcbB 32) s0 bookB s0)
include hk hbookA hbookB

/-- R367, form 6: the operands are the elements of two shape records. -/
theorem mma_shapes (hhandles : Runs (do checkHandle a.val; checkHandle b.val) s0 () s0) (hra : Runs (readShape a) s0 ra s1)
    (hrb : Runs (readShape b) s1 rb s2)
    (hchecks : Runs (mmaChecks (illegalOf (.mma h acc (.shape a b) k au bu)) id a.val ra.fmt b.val rb.fmt k.toNat au bu) s2 () s2)
    (hshapeA : mmaShapeOk ra k.toNat 64 = true) (hshapeB : mmaShapeOk rb 64 k.toNat = true) (hla : Runs (matSpans (allRuns ra)) s2 la s2)
    (hlb : Runs (matSpans (allRuns rb)) s2 lb s2) (horder : Runs (matOrder ((la ++ lb).flatMap (·.2))) s2 () s2)
    (hstage : Runs (startStage h (.matrix (.mma id k.toNat ra.fmt rb.fmt 0 0 (c.entry 1) bookA bookB au bu) none [] none)
      (shapePieces 0 la ++ shapePieces 1 lb)) s2 () s3) : exec (.mma h acc (.shape a b) k au bu) s = retired t h .seq s3 := by
  obtain ⟨_, _, hhandleA, hhandleB⟩ := Runs.split hhandles
  refine matCheck_runs hi hroom rfl (Runs.bind hacc (Runs.bind hk (Runs.bind hbookA (Runs.bind hbookB (Runs.bind hhandleA (Runs.bind hhandleB
    (Runs.bind hra (Runs.bind hrb (Runs.bind hchecks ?_)))))))))
  simp only [hshapeA, hshapeB, Bool.not_true, Bool.false_eq_true, if_false]
  exact Runs.bind hla (Runs.bind hlb (Runs.bind horder hstage))

/-- R367, form 0: the operands are the slots of two handles, or two of one. -/
theorem mma_slots (hlegal : mmaStatic (.mma h acc (.cbs ca cb fa fb) k au bu) fa.toNat fb.toNat k.toNat au bu = none)
    (hchecks : Runs (mmaChecks (illegalOf (.mma h acc (.cbs ca cb fa fb) k au bu)) id (0x80 + ca.val) fa.toNat (0x80 + cb.val) fb.toNat k.toNat
      au bu) s0 () s0)
    (hboundA : ∃ y, Runs (cbBound ca.val) s0 y s0) (hboundB : ∃ y, Runs (cbBound cb.val) s0 y s0) (hslotA : Runs (slotFor h ca.val 0) s0 oa s1)
    (hslotB : Runs (slotFor h cb.val (bit (ca = cb))) s1 ob s2) (hpa : Runs (slotPieces ca.val 0 oa (64 * k.toNat * tagBits fa.toNat / 8)) s2 pa s2)
    (hpb : Runs (slotPieces cb.val 1 ob (64 * k.toNat * tagBits fb.toNat / 8)) s2 pb s2)
    (hstage : Runs (startStage h (.matrix (.mma id k.toNat fa.toNat fb.toNat 0 0 (c.entry 1) bookA bookB au bu) none [ca.val, cb.val] none)
      (pa ++ pb)) s2 () s3) : exec (.mma h acc (.cbs ca cb fa fb) k au bu) s = retired t h .seq s3 := by
  obtain ⟨_, hboundA⟩ := hboundA
  obtain ⟨_, hboundB⟩ := hboundB
  exact matCheck_runs hi hroom hlegal (Runs.bind hacc (Runs.bind hk (Runs.bind hbookA (Runs.bind hbookB (Runs.bind hchecks (Runs.bind hboundA
    (Runs.bind hboundB (Runs.bind hslotA (Runs.bind hslotB (Runs.bind hpa (Runs.bind hpb hstage)))))))))))

end Mma

theorem mzero_queues (hend : Runs (do noteTag id (if int then 9 else 1); enqueueMat (.zero id (if int then 9 else 1))) s0 () s1) :
    exec (.mzero h acc int) s = retired t h .seq s1 := matIssue_runs hi hroom (Runs.bind hacc hend)

section Row
variable (hhandle : Runs (checkHandle r.val) s0 () s0) (hrow : Runs (rdReg r.val) s0 v s0) (hbelow : v.toNat ≤ 63)
  (hd : Runs (renV d.val) s0 vd s0) (hfence : Runs (fenceHold 4) s0 () s0)
include hhandle hrow hbelow hd hfence

theorem mrd_row (htag : Runs (checkRead id false) s0 tag s0) (hend : Runs (enqueueMat (.rowOut id v.toNat tag th.ctl.wsp vd)) s0 () s1) :
    exec (.mrd h (.reg d acc r) false) s = retired t h .seq s1 := by
  refine matIssue_runs hi hroom (Runs.bind hacc (Runs.bind hhandle (Runs.bind htag (Runs.bind hrow ?_))))
  rw [if_neg (Nat.not_lt.2 hbelow)]
  exact Runs.bind hd (Runs.bind (Runs.ctl hi.cur hi.live) (Runs.bind hfence hend))

/-- R227: the row is captured at issue (log entry 63). -/
theorem mrd_peekRow (htag : Runs (checkRead id true) s0 tag s0) (hnew : Runs newFree s0 n s1)
    (hend : Runs (enterPeek (.peekRow (liveRow s1 id n v.toNat) tag th.ctl.wsp vd)) s1 () s2) :
    exec (.mrd h (.reg d acc r) true) s = retired t h .seq s2 := by
  refine matIssue_runs hi hroom (Runs.bind hacc (Runs.bind hhandle (Runs.bind htag (Runs.bind hrow ?_))))
  rw [if_neg (Nat.not_lt.2 hbelow)]
  exact Runs.bind hd (Runs.bind (Runs.ctl hi.cur hi.live) (Runs.bind hfence (Runs.bind hnew (Runs.bind (Runs.get s1) hend))))

end Row

section Whole
variable (hhandle : Runs (checkHandle a.val) s0 () s0) (hread : Runs (rdReg a.val) s0 v s0) (hdest : Runs (matDest v 16384) s0 l s1)
include hhandle hread hdest

theorem mrd_whole (htag : Runs (checkRead id false) s0 tag s0) (hend : Runs (enqueueMat (.memOut id l)) s1 () s2) :
    exec (.mrd h (.mem a acc) false) s = retired t h .seq s2 :=
  matIssue_runs hi hroom (Runs.bind hacc (Runs.bind hhandle (Runs.bind htag (Runs.bind hread (Runs.bind hdest hend)))))

/-- R227: every row is captured at issue (log entry 63). -/
theorem mrd_peekWhole (htag : Runs (checkRead id true) s0 tag s0) (hnew : Runs newFree s1 n s2)
    (hend : Runs (enterPeek (.peekMem (pack ((List.range 64).map fun i => (2048, liveRow s2 id n i))) l)) s2 () s3) :
    exec (.mrd h (.mem a acc) true) s = retired t h .seq s3 :=
  matIssue_runs hi hroom (Runs.bind hacc (Runs.bind hhandle (Runs.bind htag (Runs.bind hread (Runs.bind hdest (Runs.bind hnew
    (Runs.bind (Runs.get s2) hend)))))))

end Whole

theorem mst_queues (hread : Runs (rd1 h (.w a)) s0 v s1) (hdest : Runs (matDest v 16384) s1 l s2)
    (hend : Runs (enqueueMat (.memOut id l)) s2 () s3) : exec (.mst h a acc) s = retired t h .seq s3 :=
  matIssue_runs hi hroom (Runs.bind hacc (Runs.bind hread (Runs.bind hdest hend)))

theorem mld_queues (hread : Runs (rd1 h (.w a)) s0 v s1) (hspan : Runs (matSpan v 16384 64) s1 l s1) (horder : Runs (matOrder l) s1 () s1)
    (hc : s1.cur = .thread t) (hfirst : stagingBefore s1 t.core none = false)
    (hmove : Runs (runPieces (piecesOf 0 v .buffer 0 l)
      (begunStage h (.matrix (.load id 0 (if int then 9 else 1)) none [] none) (piecesOf 0 v .buffer 0 l))) s1 g s2)
    (hg : g.goal = .matrix (.load id 0 (if int then 9 else 1)) none [] none)
    (hend : Runs (do noteTag id (if int then 9 else 1); enqueueMat (.load id g.a (if int then 9 else 1))) s2 () s3) :
    exec (.mld h acc a int) s = retired t h .seq s3 :=
  matIssue_runs hi hroom (Runs.bind hacc (Runs.bind hread (Runs.bind hspan (Runs.bind horder (startStage_load hc hfirst hmove hg hend)))))

theorem mcvt_queues (hhandles : Runs (do checkHandle a.val; checkHandle x.val) s0 () s0) (htag : Runs (accTag id false) s0 tag s0)
    (htyped : tag = 1 ∨ tag = 9) (hread : Runs (rdReg a.val) s0 v s0) (hscale : Runs (rdReg x.val) s0 sc s0)
    (hdest : Runs (matDest v (512 * laneW fmt.toNat)) s0 l s1) (hk : Runs capture s1 c s1)
    (hend : Runs (enqueueMat (.convert id l tag (sc.toNat % 2 ^ 32) fmt.toNat sgn c)) s1 () s2) :
    exec (.mcvt h a acc x fmt sgn) s = retired t h .seq s2 := by
  obtain ⟨_, _, hhandleA, hhandleX⟩ := Runs.split hhandles
  refine matIssue_runs hi hroom (Runs.bind hacc (Runs.bind hhandleA (Runs.bind hhandleX (Runs.bind htag ?_))))
  rw [if_neg fun hother => htyped.elim hother.1 hother.2]
  exact Runs.bind hread (Runs.bind hscale (Runs.bind hdest (Runs.bind hk hend)))

end Accumulator

end Instructions

/-! ### The engine -/

section Engine
variable {s : State} {c : CoreId} {o p : MatOp} {qs ps : List MatOp}

theorem exec_matrixOpExecute (c : CoreId) (s : State) : exec (.matrixOpExecute c) s = execMatrixOpExecute c s := rfl

section Head
variable (hq : (s.core c).mqueue = o :: qs) (hstaged : o.staged = true) (hthere : rowThere s o = true)
include hq hstaged hthere

theorem matrixOpExecute_head (hpeeks : (s.core c).peeks = []) : exec (.matrixOpExecute c) s =
    .next (matExecute o (s.modCore c fun r => { r with mqueue := r.mqueue.drop 1 })) := by
  simp [exec_matrixOpExecute, execMatrixOpExecute, hq, hpeeks, Option.filter, hstaged, hthere]

/-- R227: a peek goes before every operation queued after it. -/
theorem matrixOpExecute_olderPeek (hpeeks : (s.core c).peeks = p :: ps) (hpthere : rowThere s p = true) (holder : p.id < o.id) :
    exec (.matrixOpExecute c) s =
      .next { matExecute p (s.modCore c fun r => { r with peeks := r.peeks.drop 1 }) with free := s.free + 1 } := by
  simp [exec_matrixOpExecute, execMatrixOpExecute, hq, hpeeks, Option.filter, hstaged, hthere, hpthere, holder]

end Head

theorem matrixOpExecute_peek (hq : (s.core c).mqueue = []) (hpeeks : (s.core c).peeks = p :: ps) (hthere : rowThere s p = true) :
    exec (.matrixOpExecute c) s = .next (matExecute p (s.modCore c fun r => { r with peeks := r.peeks.drop 1 })) := by
  simp [exec_matrixOpExecute, execMatrixOpExecute, hq, hpeeks, Option.filter, hthere]

/-- R225: the head waits until its operands are staged. -/
theorem matrixOpExecute_waits (hq : (s.core c).mqueue = o :: qs) (hstaging : o.staged = false) (hpeeks : (s.core c).peeks = []) :
    exec (.matrixOpExecute c) s = .next s := by
  simp [exec_matrixOpExecute, execMatrixOpExecute, hq, hpeeks, Option.filter, hstaging]

end Engine

/-- Settles O18: each instruction's stages in a row, and the engine's choice between the head of its queue and the oldest peek. That a
handler's tag is noted at issue (log entry 59), that a codebook takes effect when its staging ends (log entry 60), and what a peek captures
and when it may go first (log entry 63) are deduced. -/
theorem matrixInstructionsComplete : Obligations.MatrixInstructionsComplete := by
  unfold Obligations.MatrixInstructionsComplete
  refine ⟨?instructions, fun s t op hc => enqueueMat_runs hc op, ?engine⟩
  case instructions =>
    intro h t th s s0 s1 s2 s3 s4 acc a b x r d fa fb fmt ca cb k au bu int sgn side id c bookA bookB tag n vd oa ob ra rb v sc l la lb pa pb g
      hi hroom
    refine ⟨fun hacc hk hbookA hbookB => ⟨?shapes, ?slots⟩, mzero_queues hi hroom,
      fun hacc hhandle hrow hbelow hd hfence => ⟨mrd_row hi hroom hacc hhandle hrow hbelow hd hfence,
        mrd_peekRow hi hroom hacc hhandle hrow hbelow hd hfence⟩,
      fun hacc hhandle hread hdest => ⟨mrd_whole hi hroom hacc hhandle hread hdest, mrd_peekWhole hi hroom hacc hhandle hread hdest⟩,
      fun hacc hread => ⟨mst_queues hi hroom hacc hread, mld_queues hi hroom hacc hread⟩, mcvt_queues hi hroom, mcb_queues hi hroom⟩
    case shapes =>
      intro hhandles hra hrb hchecks hshapeA hshapeB hla hlb horder hc hfirst hmove hg hend
      exact mma_shapes hi hroom hacc hk hbookA hbookB hhandles hra hrb hchecks hshapeA hshapeB hla hlb horder
        (startStage_mma hc hfirst hmove hg (Runs.bind (Runs.pure () s3) hend))
    case slots =>
      intro hlegal hchecks hboundA hboundB hslotA hslotB hpa hpb hc hfirst hmove hg hend
      exact mma_slots hi hroom hacc hk hbookA hbookB hlegal hchecks hboundA hboundB hslotA hslotB hpa hpb
        (startStage_mma hc hfirst hmove hg hend)
  case engine =>
    intro s c o p qs ps
    exact ⟨matrixOpExecute_head, matrixOpExecute_peek, matrixOpExecute_olderPeek, matrixOpExecute_waits⟩

end Sys2Proof.Machine
end

section
/-!
The delivery of messages (R198, R235 to R238), the steps of the memory system (R150, R155, R157 to R159, R213, R214), a fetch read again (R81),
and the moves of window lines (R73, R74): what each does where it is enabled.
-/
namespace Sys2Proof.Machine

/-! ### Messages -/

section Messages
variable {s : State} {k : Nat} {m : NbrMsg} {f : FarMsg} {p : ReplyMsg} {r : SlotRec}

/-- The state with the k-th neighbour word taken off its way. -/
def dropNeighbour (s : State) (k : Nat) : State := { s with nt := { s.nt with nbrs := dropAt s.nt.nbrs k } }

section Neighbour
variable (hm : s.nt.nbrs[k]? = some m)
  (holdest : ((s.nt.nbrs.take k).any fun x => decide (x.src = m.src ∧ x.dst = m.dst ∧ x.dir = m.dir)) = false)
include hm holdest

/-- R198: a word that carries a revoked root. -/
theorem neighbourWord_revoked (hroots : revokedMsg (dropNeighbour s k) m.dst.slice.part m.w.roots = true) :
    exec (.neighbourWordArrival k) s = .next (countDropped m.dst.core 1 (dropNeighbour s k)) := by
  change execNeighbourWordArrival k s = _
  unfold dropNeighbour at hroots
  simp only [execNeighbourWordArrival, hm, holdest, hroots, Bool.false_eq_true, if_true, if_false]
  rfl

section Valid
variable (hroots : revokedMsg (dropNeighbour s k) m.dst.slice.part m.w.roots = false)
include hroots

theorem neighbourWord_reaches (hr : (dropNeighbour s k).slot? m.dst = some r) : exec (.neighbourWordArrival k) s =
    .next ((dropNeighbour s k).modSlot m.dst fun r => r.setPort m.dir (r.port m.dir ++ [m.w])) := by
  change execNeighbourWordArrival k s = _
  unfold dropNeighbour at hroots hr
  simp only [execNeighbourWordArrival, hm, holdest, hroots, hr, Bool.false_eq_true, if_false]
  rfl

/-- A word to a slot that does not exist is dropped and counted (log entry 85). -/
theorem neighbourWord_noSlot (hr : (dropNeighbour s k).slot? m.dst = none) :
    exec (.neighbourWordArrival k) s = .next (countDropped m.dst.core 1 (dropNeighbour s k)) := by
  change execNeighbourWordArrival k s = _
  unfold dropNeighbour at hroots hr
  simp only [execNeighbourWordArrival, hm, holdest, hroots, hr, Bool.false_eq_true, if_false]
  rfl

end Valid

end Neighbour

/-- The state with the k-th far message taken off its way. -/
def takeFar (s : State) (k : Nat) : State := { s with nt := { s.nt with fars := dropAt s.nt.fars k } }

section Far
variable (hf : s.nt.fars[k]? = some f)
  (holdest : ((s.nt.fars.take k).any fun x =>
    decide (x.src.t = f.src.t ∧ x.dstCore = f.dstCore ∧ x.slot = f.slot ∧ x.dstSlice = f.dstSlice)) = false)
include hf holdest

/-- R198: a message that carries a revoked root. -/
theorem farMessage_revoked (hroots : revokedMsg s f.dstSlice.part f.roots = true) :
    exec (.farMessageDelivery k) s = .next (countDropped f.dstCore 1 (takeFar s k)) := by
  change execFarMessageDelivery k s = _
  simp only [execFarMessageDelivery, hf, holdest, hroots, Bool.false_eq_true, if_true, if_false]
  rfl

section Valid
variable (hroots : revokedMsg s f.dstSlice.part f.roots = false) (hr : s.slot? ⟨f.dstCore, f.dstSlice, f.slot⟩ = some r)
include hroots hr

/-- R238: the message is for the slot's generation or for any. -/
theorem farMessage_delivered (hmeant : wfield f.header 56 8 = r.gen ∨ bitAt f.header 16 = true) (hroom : r.far.length + f.words.length ≤ 16) :
    exec (.farMessageDelivery k) s = .next ((takeFar s k).modSlot ⟨f.dstCore, f.dstSlice, f.slot⟩ fun r =>
      { r with far := r.far ++ (f.words.zipIdx.map fun (x, i) => ⟨x, f.src, i == 0, f.roots⟩) }) := by
  have hgen : ¬ (wfield f.header 56 8 ≠ r.gen ∧ bitAt f.header 16 = false) := fun hother =>
    hmeant.elim hother.1 (ne_true_of_eq_false hother.2)
  change execFarMessageDelivery k s = _
  simp only [execFarMessageDelivery, hf, holdest, hroots, hr, hgen, Nat.not_lt.2 hroom, Bool.false_eq_true, if_false]
  rfl

/-- R238: another generation's message is dropped. -/
theorem farMessage_stale (hgen : wfield f.header 56 8 ≠ r.gen) (hany : bitAt f.header 16 = false) :
    exec (.farMessageDelivery k) s = .next (dropFar f r.gen (takeFar s k)) := by
  change execFarMessageDelivery k s = _
  simp only [execFarMessageDelivery, hf, holdest, hroots, hr, Bool.false_eq_true, if_false]
  exact congrArg Host.Outcome.next (if_pos ⟨hgen, hany⟩)

end Valid

end Far

/-- The state with the k-th reply taken off its way. -/
def dropReply (s : State) (k : Nat) : State := { s with nt := { s.nt with replies := dropAt s.nt.replies k } }

section Reply
variable (hp : s.nt.replies[k]? = some p) (holdest : ((s.nt.replies.take k).any fun x => decide (x.src = p.src ∧ x.dst = p.dst)) = false)
include hp holdest

/-- R198: a reply that carries a revoked root. -/
theorem portReply_revoked (hroots : revokedMsg s p.dst.slice.part p.w.roots = true) :
    exec (.portReplyArrival k) s = .next (countDropped p.dst.core 1 (dropReply s k)) := by
  change execPortReplyArrival k s = _
  simp only [execPortReplyArrival, hp, holdest, hroots, Bool.false_eq_true, if_true, if_false]
  rfl

section Valid
variable (hroots : revokedMsg s p.dst.slice.part p.w.roots = false) (hr : s.slot? p.dst = some r)
include hroots hr

theorem portReply_reaches (hgen : r.gen = p.gen) (hroom : r.replies.length < 8) :
    exec (.portReplyArrival k) s = .next ((dropReply s k).modSlot p.dst fun r => { r with replies := r.replies ++ [p.w] }) := by
  change execPortReplyArrival k s = _
  simp only [execPortReplyArrival, hp, holdest, hroots, hr, hgen, Nat.not_le.2 hroom, ne_eq, not_true_eq_false, Bool.false_eq_true, if_false]
  rfl

theorem portReply_stale (hgen : r.gen ≠ p.gen) : exec (.portReplyArrival k) s = .next (countDropped p.dst.core 1 (dropReply s k)) := by
  change execPortReplyArrival k s = _
  simp only [execPortReplyArrival, hp, holdest, hroots, hr, Bool.false_eq_true, if_false]
  exact congrArg Host.Outcome.next (if_pos hgen)

end Valid

end Reply

end Messages

/-! ### Walks and regions -/

section Walks
variable {s : State} {q : QuadId} {t : ThreadId} {k pa log2 code level : Nat} {rd wr ex : Bool} {m : MissEnt} {key : RegionKey}

/-- The state with the k-th miss of a quadrant out of its miss table. -/
def dropMiss (s : State) (q : QuadId) (k : Nat) : State := s.modQuad q fun r => { r with miss := dropAt r.miss k }

/-- The walk of a miss, from its partition's root through its quadrant's walk caches, with what it leaves in them. -/
def walkMiss (s : State) (q : QuadId) (m : MissEnt) : Walk × List WalkEnt :=
  walkVia s m.part m.va 3 1 (wfield (s.part m.part).ptroot 15 33 * 2 ^ 15) (s.quad q).walks

/-- The state in which the walk of the k-th miss m has ended. -/
def walked (s : State) (q : QuadId) (k : Nat) (m : MissEnt) : State :=
  (dropMiss s q k).modQuad q fun r => { r with walks := (walkMiss (dropMiss s q k) q m).2 }

/-- What a failed walk of m makes of a thread that waits for it: the failure is due (R158). -/
def oweWalk (m : MissEnt) (code level : Nat) (th : Thread) : Thread :=
  if th.phase = .walk then { th with due := { th.due with walkFail := some ⟨m.va / 2 ^ 16, code, level⟩ } } else th

section Ended
variable (hm : (s.quad q).miss[k]? = some m)
include hm

/-- R159: the translation enters the quadrant's shared TLB. -/
theorem pageWalk_translates (hwalk : (walkMiss (dropMiss s q k) q m).1 = .ok pa log2 rd wr ex) : exec (.pageWalk q k) s =
    .next (m.waiters.foldl (fun s t => wakeFrom s t .walk) ((walked s q k m).modQuad q fun r =>
      { r with stlb := ((⟨m.part, m.va / 2 ^ log2, log2, pa / 2 ^ log2, rd, wr, ex⟩ : TlbEnt) :: r.stlb).take 16384 })) := by
  change execPageWalk q k s = _
  unfold walkMiss dropMiss at hwalk
  simp only [execPageWalk, hm, hwalk]
  rfl

theorem pageWalk_fails (hwalk : (walkMiss (dropMiss s q k) q m).1 = .fail code level) : exec (.pageWalk q k) s =
    .next (m.waiters.foldl (fun s t => wakeFrom (s.modThread t (oweWalk m code level)) t .walk) (walked s q k m)) := by
  change execPageWalk q k s = _
  unfold walkMiss dropMiss at hwalk
  simp only [execPageWalk, hm, hwalk]
  rfl

end Ended

theorem missTableRetry_wakes (hout : ((s.quad t.core.quad).miss.any fun m => m.waiters.contains t) = false) :
    exec (.missTableRetry t) s = .next (wakeFrom s t .walk) := by
  change execMissTableRetry t s = _
  rw [execMissTableRetry, hout, if_neg Bool.false_ne_true]

/-- R155: the entry of a region that has a home is kept. -/
theorem regionCacheFill_fills (hkey : (s.quad q).regionMiss[k]? = some key) : exec (.regionCacheFill q k) s = .next (s.modQuad q fun r =>
    { r with
      regionMiss := dropAt r.regionMiss k
      regionCache := if (regionEntry s key).testBit 31 then (tput r.regionCache key (regionEntry s key)).take 65536 else r.regionCache }) := by
  change execRegionCacheFill q k s = _
  simp only [execRegionCacheFill, hkey]

end Walks

/-! ### Withheld acquires -/

section Scopes
variable {s : State} {k : Nat} {w : Withheld} (hw : s.nt.withheld[k]? = some w)
include hw

/-- R213: no store from before the release is left in the writer's queue. -/
theorem scopeMiss_promotes
    (hdrained : ((s.core w.tag.core).storeq.any fun e => decide (e.t = w.tag.t ∧ e.gen = w.tag.gen ∧ e.id < w.tag.before)) = false) :
    exec (.scopeMiss k) s = .next { s with nt := { s.nt with withheld := setAt s.nt.withheld k { w with promoted := true } } } := by
  change execScopeMiss k s = _
  simp only [execScopeMiss, hw, hdrained, Bool.false_eq_true, if_false]

/-- R213: the tag goes, and every acquire withheld for it is answered. -/
theorem promotedReply_answers (hpromoted : w.promoted = true) : exec (.promotedReply k) s = .next
    ((s.nt.withheld.filter fun x => decide (x.tag = w.tag)).foldl answerWithheld
      { s with nt := { s.nt with
        withheld := s.nt.withheld.filter (fun x => !decide (x.tag = w.tag)), relTags := s.nt.relTags.filter (· ≠ w.tag) } }) := by
  change execPromotedReply k s = _
  simp only [execPromotedReply, hw, hpromoted, Bool.not_true, Bool.false_eq_true, if_false]

end Scopes

/-! ### Remote banks -/

section Banks
variable {s s2 : State} {k : Nat} {th : Thread} {b : BankReq}

/-- The state in which the thread of the k-th access on its way acts at the access's bank. -/
def atBank (s : State) (k : Nat) (t : ThreadId) : State := { s with cur := .thread t, nt := { s.nt with bankNet := dropAt s.nt.bankNet k } }

/-- R150: the access reads what its instruction left to read, and takes its turn at the bank. -/
theorem remoteBankAccess_retires (hb : s.nt.bankNet[k]? = some b) (ht : s.thread? b.t = some th)
    (hrun : Runs (do readAll b.hdr b.srcs; writeResolved b.marked; bankDo b.addr b.taddr b.acq b.rel b.op) (atBank s k b.t) () s2) :
    exec (.remoteBankAccess k) s = .next (saveOut (markIssue (retire b.t b.hdr.eog .seq s2) b.t b.hdr.ya) b.t) := by
  obtain ⟨_, _, hread, hrest⟩ := Runs.split hrun
  obtain ⟨_, _, hwrite, hdo⟩ := Runs.split hrest
  have hflow : Runs (do readAll b.hdr b.srcs; writeResolved b.marked; bankDo b.addr b.taddr b.acq b.rel b.op; return Flow.seq)
      (atBank s k b.t) Flow.seq s2 := Runs.bind hread (Runs.bind hwrite (Runs.bind hdo (Runs.pure _ s2)))
  change execRemoteBankAccess k s = _
  unfold Runs atBank at hflow
  simp only [execRemoteBankAccess, hb, ht, hflow, settle]

end Banks

/-! ### A fetch that is read again, and window lines -/

/-- The line at a physical address, as a fetch of a thread's package reads it. -/
def fetchedLine (s : State) (th : Thread) (pa : Nat) : Nat := s.rd (addrHbm th.ctl.slice.part.pkg (pa / 64 * 64)) 64

/-- Whether the parity of the slot at a thread's PC matches in the line at pa (R81). -/
abbrev parityMatches (s : State) (th : Thread) (pa : Nat) : Prop :=
  parity96 (lineSlot (fetchedLine s th pa) (wfield th.ctl.pc 0 3)) = linePar (lineWord (fetchedLine s th pa)) (wfield th.ctl.pc 0 3)

section Threads
variable {s : State} {t : ThreadId} {th : Thread} {pa line : Nat} {x : TrapRec} {l : LineSt} (ht : s.thread? t = some th)
include ht

section Fetch
variable (hphase : th.phase = .refetch)
include hphase

theorem fetchRefetch_unmapped (hwalk : walkTo s th.ctl.slice.part th.ctl.pc.toNat .ex = .error x) :
    exec (.fetchRefetch t) s = .next (takeTrap t x s) := by
  change execFetchRefetch t s = _
  simp only [execFetchRefetch, ht, hphase, hwalk, ne_eq, not_true_eq_false, if_false]

section Mapped
variable (hwalk : walkTo s th.ctl.slice.part th.ctl.pc.toNat .ex = .ok pa)
include hwalk

theorem fetchRefetch_issues (hparity : parityMatches s th pa) :
    exec (.fetchRefetch t) s = .next (s.modThread t fun th => { th with phase := .ready }) := by
  change execFetchRefetch t s = _
  simp only [execFetchRefetch, ht, hphase, hwalk, ne_eq, not_true_eq_false, if_false]
  exact if_pos hparity

/-- R81: a second mismatch enters the machine-check log. -/
theorem fetchRefetch_traps (hparity : ¬ parityMatches s th pa) : exec (.fetchRefetch t) s =
    .next (takeTrap t (mkTrap 3 th.ctl.pc.toNat 0) (mcLog s t.core.dieId (mcCore t.core th.ctl.slice.part 7 3 pa th.ctl.pc.toNat))) := by
  change execFetchRefetch t s = _
  simp only [execFetchRefetch, ht, hphase, hwalk, ne_eq, not_true_eq_false, if_false]
  exact if_neg hparity

end Mapped

end Fetch

/-- R74: a line that the thread has not used is created without a read, where the file has room. -/
theorem bobbinLineMove_creates (hroom : residentLines s t.core < 2304) (hnew : tfind th.lines line = none)
    (hmay : mayCreate s t th line = true) : exec (.bobbinLineMove t line .create) s = .next (createLine s t th line) := by
  change execBobbinLineMove t line .create s = _
  simp only [execBobbinLineMove, ht, hroom, hnew, hmay, decide_true, Bool.and_self, if_true]

theorem bobbinLineMove_loads (hroom : residentLines s t.core < 2304) (hhome : tfind th.lines line = some .home) :
    exec (.bobbinLineMove t line .load) s = .next (loadLine s t th line) := by
  change execBobbinLineMove t line .load s = _
  simp only [execBobbinLineMove, ht, hroom, hhome, decide_true, if_true]

/-- R74: a victim is written to its home or dropped. -/
theorem bobbinLineMove_evicts (hline : tfind th.lines line = some l) (hresident : l.resident = true) (hmay : mayEvict s t th line = true) :
    exec (.bobbinLineMove t line .evict) s = .next (evictLine s t th line l) := by
  change execBobbinLineMove t line .evict s = _
  simp only [execBobbinLineMove, ht, hline, hresident, hmay, Bool.and_self, if_true]

end Threads

/-- Settles O24: each clause is the equation of its step where the step is enabled. That a word to a slot that does not exist is dropped and
counted is deduced (log entry 85). -/
theorem messageAndMemoryEventsTakeEffect : Obligations.MessageAndMemoryEventsTakeEffect := by
  unfold Obligations.MessageAndMemoryEventsTakeEffect
  refine ⟨?messages, ?memory, ?threads⟩
  case messages =>
    intro s k m f p r
    exact ⟨fun hm holdest => ⟨neighbourWord_revoked hm holdest, neighbourWord_reaches hm holdest, neighbourWord_noSlot hm holdest⟩,
      fun hf holdest => ⟨farMessage_revoked hf holdest, farMessage_delivered hf holdest, farMessage_stale hf holdest⟩,
      fun hp holdest => ⟨portReply_revoked hp holdest, portReply_reaches hp holdest, portReply_stale hp holdest⟩⟩
  case memory =>
    intro s s2 c q t th k pa log2 code level rd wr ex e m key w b
    exact ⟨storeQueueWrite_performs, fun hm => ⟨pageWalk_translates hm, pageWalk_fails hm⟩, missTableRetry_wakes, regionCacheFill_fills,
      fun hw => ⟨scopeMiss_promotes hw, promotedReply_answers hw⟩, remoteBankAccess_retires⟩
  case threads =>
    intro s t th pa line x l ht
    exact ⟨fun hphase => ⟨fetchRefetch_unmapped ht hphase, fun hwalk =>
        ⟨fetchRefetch_issues ht hphase hwalk, fetchRefetch_traps ht hphase hwalk⟩⟩,
      fun hroom => ⟨bobbinLineMove_creates ht hroom, bobbinLineMove_loads ht hroom⟩, bobbinLineMove_evicts ht⟩

end Sys2Proof.Machine
end

section
/-!
Sequence records, the index of their beginnings and the drafter (R243 to R252, R352, R385, R387): the stages of each instruction at operands that check.
-/
namespace Sys2Proof.Machine

/-- A check that passes goes on with the rest. -/
theorem Runs.passes {α : Type} {p : Prop} [Decidable p] {stop rest : Exec α} {s s1 : State} {a : α} (hp : ¬ p) (hrest : Runs rest s a s1) :
    Runs (if p then stop else rest) s a s1 := by
  rwa [if_neg hp]

/-! ### Sequence records -/

section Records
variable {h : Hdr} {t : ThreadId} {th th1 : Thread} {s s0 s1 s2 s3 s4 s5 s6 s7 s8 : State} {gd : BitVec 3} {d : Reg} {a b n : Opnd}
  {v q y : Word} {r r' : SeqRec} {x raw p1 p2 : Nat} {l0 l : Span} {free : List (Nat × Nat)} {taken : Nat}
  (hi : Issues h t th s s0)
include hi

section Kvmap
variable (hread : Runs (rd2 h a (.op n)) s0 (v, q) s1) (hfence : Runs (fenceHold 5) s1 () s1) (hraw : Runs (readSeq v) s1 raw s2)
  (hcheck : Runs (checkedSeq v raw) s2 r s2)
include hread hfence hraw hcheck

theorem kvmap_unmapped (hblock : blockAddr r.live (q.toNat / r.tokens) = none) (hzero : Runs (wrReg d 0) s2 () s3)
    (hguard : Runs (setGuard gd false) s3 () s4) : exec (.kvmap h gd d a n) s = retired t h .seq s4 := by
  refine issueSeq_runs hi (Runs.bind hread (Runs.bind hfence (Runs.bind hraw (Runs.bind hcheck ?_))))
  simp only [hblock]
  exact Runs.bind hzero hguard

theorem kvmap_mapped (hblock : blockAddr r.live (q.toNat / r.tokens) = some x)
    (haddr : Runs (wrReg d (BitVec.ofNat 64 (x + q.toNat % r.tokens * r.tokBytes))) s2 () s3)
    (hguard : Runs (setGuard gd true) s3 () s4) : exec (.kvmap h gd d a n) s = retired t h .seq s4 := by
  refine issueSeq_runs hi (Runs.bind hread (Runs.bind hfence (Runs.bind hraw (Runs.bind hcheck ?_))))
  simp only [hblock]
  exact Runs.bind haddr hguard

end Kvmap

/-- The state with a record and its pool's free blocks stored (R244, R247). -/
abbrev storeSeq (s : State) (part : PartId) (r : SeqRec) (pool : Nat) (free : List (Nat × Nat)) (l : Span) : State :=
  Span.write (s.modPart part fun y => { y with wfree := tput y.wfree pool free }) (packSeq r) l

section Update
variable {zero : Bool} {f : Word → SeqRec → Pool → List (Nat × Nat) → Nat → Exec (Option (SeqRec × List (Nat × Nat) × Nat))}
  (hread : Runs (rd2 h a (.op n)) s0 (v, q) s1) (hfence : Runs (fenceHold 5) s1 () s1) (hreadable : Runs (seqSpan v .rd) s1 l0 s8)
  (hwritable : Runs (seqSpan v .wr) s8 l s2) (hroots : Runs waitConfirmed s2 () s2) (hraw : Runs (readSpan v l) s2 raw s3)
  (hcheck : Runs (checkedSeq v raw) s3 r s3) (hc : s3.cur = .thread t) (ht : s3.thread? t = some th1)
  (hpool : (poolOf (s3.part th1.ctl.slice.part) r.pool).v = true)
include hread hfence hreadable hwritable hroots hraw hcheck hc ht hpool

/-- What the computation answers decides how an update ends. -/
theorem updateSeq_follows {o : Option (SeqRec × List (Nat × Nat) × Nat)}
    (hf : Runs (f v r (poolOf (s3.part th1.ctl.slice.part) r.pool) (freeOf (s3.part th1.ctl.slice.part) r.pool) q.toNat) s3 o s3)
    (hend : Runs (match o with
      | none => do
        if zero then wrReg d 0
        setGuard gd false
      | some (r', free, x) => do
        modify fun s => storeSeq s th1.ctl.slice.part r' r.pool free l
        watchSpan l true
        updateSeqBuffer v (packSeq r')
        wrReg d (BitVec.ofNat 64 x)
        setGuard gd true) s3 () s7) : updateSeq h gd d a n zero f s = retired t h .seq s7 := by
  have hvalid : ¬ (!(poolOf (s3.part th1.ctl.slice.part) r.pool).v) = true := by simp [hpool]
  exact issueSeq_runs hi (Runs.bind hread (Runs.bind hfence (Runs.bind hreadable (Runs.bind hwritable (Runs.bind hroots (Runs.bind hraw
    (Runs.bind hcheck (Runs.bind (Runs.myPart hc ht) (Runs.bind (Runs.get s3) (Runs.passes hvalid (Runs.bind hf hend)))))))))))

/-- Where the pool or the record cannot, only the guard changes, and w_d where the instruction zeroes it (R245, R246); else the record, the
free blocks, w_d and the guard do. -/
theorem updateSeq_answers {o : Option (SeqRec × List (Nat × Nat) × Nat)}
    (hf : Runs (f v r (poolOf (s3.part th1.ctl.slice.part) r.pool) (freeOf (s3.part th1.ctl.slice.part) r.pool) q.toNat) s3 o s3) :
    (o = none → (zero = true → Runs (wrReg d 0) s3 () s4) → (zero = false → s4 = s3) → Runs (setGuard gd false) s4 () s5 →
      updateSeq h gd d a n zero f s = retired t h .seq s5) ∧
    (o = some (r', free, taken) →
      Runs (do watchSpan l true; updateSeqBuffer v (packSeq r')) (storeSeq s3 th1.ctl.slice.part r' r.pool free l) () s5 →
      Runs (wrReg d (BitVec.ofNat 64 taken)) s5 () s6 → Runs (setGuard gd true) s6 () s7 →
      updateSeq h gd d a n zero f s = retired t h .seq s7) := by
  refine ⟨fun ho hzero hkeep hguard => ?refused, fun ho hstore hcount hguard => ?stored⟩ <;> subst ho <;>
    refine updateSeq_follows hi hread hfence hreadable hwritable hroots hraw hcheck hc ht hpool hf ?_
  case refused =>
    cases zero with
    | true => exact Runs.bind (hzero rfl) hguard
    | false => exact hkeep rfl ▸ hguard
  case stored =>
    obtain ⟨_, _, hwatch, hbuffer⟩ := Runs.split hstore
    exact Runs.bind (Runs.modify _ _) (Runs.bind hwatch (Runs.bind hbuffer (Runs.bind hcount hguard)))

end Update

theorem kvmatch_counts (hread : Runs (rd3 h a b n) s0 (v, q, y) s1) (hbound : y.toNat ≤ 65536) (hfence : Runs (fenceHold 5) s1 () s1)
    (hfirst : Runs (readTokens v y.toNat) s1 p1 s2) (hsecond : Runs (readTokens q y.toNat) s2 p2 s3)
    (hcount : Runs (wrReg d (BitVec.ofNat 64 (leadingEqual p1 p2 y.toNat))) s3 () s4)
    (hguard : Runs (setGuard gd (decide (leadingEqual p1 p2 y.toNat = y.toNat))) s4 () s5) :
    exec (.kvmatch h gd d a b n) s = retired t h .seq s5 :=
  issueSeq_runs hi (Runs.bind hread (Runs.passes (Nat.not_lt.2 hbound) (Runs.bind hfence (Runs.bind hfirst (Runs.bind hsecond
    (Runs.bind hcount hguard))))))

end Records

/-- What KVTRUNC computes from a record, its pool and a number of tokens (R246). -/
abbrev truncation (v : Word) (r : SeqRec) (p : Pool) (free : List (Nat × Nat)) (n : Nat) : Exec (Option (SeqRec × List (Nat × Nat) × Nat)) := do
  if n > r.ntok then return none
  if n = r.ntok then return some (r, free, 0)
  let x ← orStop (kvtrunc p free r n) (.trap (mkTrap 5 v.toNat 7))
  return some x

theorem exec_kvtrunc_truncation (h : Hdr) (gd : BitVec 3) (d : Reg) (a n : Opnd) (s : State) :
    exec (.kvtrunc h gd d a n) s = updateSeq h gd d a n false truncation s := exec_kvtrunc h gd d a n s

section Truncation
variable {v : Word} {r : SeqRec} {p : Pool} {free : List (Nat × Nat)} {n : Nat} (s : State)

theorem truncation_beyond (hn : n > r.ntok) : Runs (truncation v r p free n) s none s := by
  rw [truncation, if_pos hn]
  exact Runs.pure _ _

theorem truncation_same (hn : n = r.ntok) : Runs (truncation v r p free n) s (some (r, free, 0)) s := by
  rw [truncation, if_neg (Nat.not_lt.2 (Nat.le_of_eq hn)), if_pos hn]
  exact Runs.pure _ _

theorem truncation_shorter {o : SeqRec × List (Nat × Nat) × Nat} (hn : n < r.ntok) (ho : kvtrunc p free r n = some o) :
    Runs (truncation v r p free n) s (some o) s := by
  rw [truncation, if_neg (Nat.lt_asymm hn), if_neg (Nat.ne_of_lt hn)]
  exact Runs.bind (Runs.orStop_some s ho) (Runs.pure _ _)

end Truncation

/-! ### The index -/

/-- Four reads in a row, and what goes on with them. -/
theorem Runs.bind_four {α β γ δ ε : Type} {m1 : Exec α} {m2 : Exec β} {m3 : Exec γ} {m4 : Exec δ} {f : α → β → γ → δ → Exec ε}
    {s s1 s2 : State} {a : α} {b : β} {c : γ} {d : δ} {e : ε}
    (hread : Runs (do let a ← m1; let b ← m2; let c ← m3; let d ← m4; return (a, b, c, d)) s (a, b, c, d) s1)
    (hrest : Runs (f a b c d) s1 e s2) : Runs (do let a ← m1; let b ← m2; let c ← m3; let d ← m4; f a b c d) s e s2 := by
  simpa only [bind_assoc, pure_bind] using Runs.bind (f := fun x => f x.1 x.2.1 x.2.2.1 x.2.2.2) hread hrest

section Index
variable {h : Hdr} {t : ThreadId} {th th1 : Thread} {s s0 s1 s2 s3 s4 s5 s6 s7 : State} {gd : BitVec 3} {d : Reg} {hash p tk n r : Opnd}
  {hv pv tv nv rv a : Word} {tn i raw w : Nat} {l sp : Span} {ways : List PxEnt} {sc : PxScan} {tl : Option (Option Nat)}
  (hi : Issues h t th s s0) (henabled : Runs pxEnabled s0 () s0)
include hi henabled

section Pxlook
variable (hready : Runs (waitOpnds h [hash, p, tk, n] []) s0 () s0)
  (hread : Runs (do let hv ← rdOpnd h hash; let pv ← rdOpnd h p; let tv ← rdOpnd h tk; let nv ← rdOpnd h n; return (hv, pv, tv, nv)) s0
    (hv, pv, tv, nv) s1)
  (hparent : wfield pv 32 32 = 0) (hsome : nv ≠ 0) (hbound : nv.toNat ≤ 256) (halign : tv.toNat % 4 = 0)
  (hfence : Runs (fenceHold 5) s1 () s1) (htokens : Runs (readTokens tv nv.toNat) s1 tn s2)
  (hbucket : Runs (do let q ← pxBucket hv .rd; return (q, ← readWays q.2.1 q.2.2)) s2 ((i, a, l), ways) s3) (hc : s3.cur = .thread t)
  (ht : s3.thread? t = some th1)
  (hscan : scanBucket s3 t.core th1.ctl.slice.part hv.toNat pv.toNat (nv.toNat - 1) (some tn) ways = (sc, s4))
include hready hread hparent hsome hbound halign hfence htokens hbucket hc ht hscan

/-- What the scan of the bucket finds decides how PXLOOK ends. -/
theorem pxlook_scans (hend : Runs (match sc.hit with
      | some w => do
        let e := (sc.ways[w]?).getD (parsePx 0)
        writeWays l (touchWay sc.ways w)
        wrReg d (BitVec.ofNat 64 e.value)
        wrReg (Fin.ofNat 64 (d.val + 1)) (pxStatus true false false (pxIdent e.gen i w))
        setGuard gd true
      | none => do
        if sc.ways ≠ ways then writeWays l sc.ways
        wrReg d 0
        wrReg (Fin.ofNat 64 (d.val + 1)) (pxStatus false sc.coll false pxNone)
        setGuard gd false) s4 () s6) : exec (.pxlook h gd d hash p tk n) s = retired t h .seq s6 := by
  obtain ⟨_, hplace, hways⟩ := Runs.split_pair hbucket
  have hlegal : ¬ (wfield pv 32 32 ≠ 0 ∨ nv = 0 ∨ nv.toNat > 256) :=
    not_or.2 ⟨not_not_intro hparent, not_or.2 ⟨hsome, Nat.not_lt.2 hbound⟩⟩
  refine issueSeq_runs hi (Runs.bind henabled (Runs.bind hready (Runs.bind_four hread (Runs.passes hlegal (Runs.passes (not_not_intro halign)
    (Runs.bind hfence (Runs.bind htokens (Runs.bind hplace (Runs.bind hways (Runs.bind (Runs.myCore hc) (Runs.bind (Runs.myPart hc ht)
      (Runs.bind (Runs.get s3) ?_))))))))))))
  simp only [hscan]
  exact Runs.bind (Runs.set s3 s4) hend

theorem pxlook_hits (hhit : sc.hit = some w) (htouch : Runs (writeWays l (touchWay sc.ways w)) s4 () s5)
    (hend : Runs (do
      wrReg d (BitVec.ofNat 64 ((sc.ways[w]?).getD (parsePx 0)).value)
      wrReg (Fin.ofNat 64 (d.val + 1)) (pxStatus true false false (pxIdent ((sc.ways[w]?).getD (parsePx 0)).gen i w))
      setGuard gd true) s5 () s6) : exec (.pxlook h gd d hash p tk n) s = retired t h .seq s6 := by
  refine pxlook_scans hi henabled hready hread hparent hsome hbound halign hfence htokens hbucket hc ht hscan ?_
  simp only [hhit]
  exact Runs.bind htouch hend

/-- A miss stores the bucket where the scan has withdrawn a way (R250). -/
theorem pxlook_misses (hmiss : sc.hit = none) (hsame : sc.ways = ways → s5 = s4) (hstore : sc.ways ≠ ways → Runs (writeWays l sc.ways) s4 () s5)
    (hend : Runs (do
      wrReg d 0
      wrReg (Fin.ofNat 64 (d.val + 1)) (pxStatus false sc.coll false pxNone)
      setGuard gd false) s5 () s6) : exec (.pxlook h gd d hash p tk n) s = retired t h .seq s6 := by
  refine pxlook_scans hi henabled hready hread hparent hsome hbound halign hfence htokens hbucket hc ht hscan ?_
  simp only [hmiss]
  by_cases hwithdrawn : sc.ways = ways
  · rw [if_neg (not_not_intro hwithdrawn)]
    exact hsame hwithdrawn ▸ hend
  · rw [if_pos hwithdrawn]
    exact Runs.bind (hstore hwithdrawn) hend

end Pxlook

section Pxins
variable (hread : Runs (rd1 h r) s0 rv s1) (halign : rv.toNat % 32 = 0) (hspan : Runs (localSpan rv 32 32 false) s1 sp s1)
  (hraw : Runs (readSpan rv sp) s1 raw s2) (hreserved : (parsePx raw).res = 0) (hfence : Runs (fenceHold 5) s2 () s2)
  (hbucket : Runs (pxBucket (BitVec.ofNat 64 (parsePx raw).hash) .wr) s2 (i, a, l) s3) (hroots : Runs waitConfirmed s3 () s3)
  (hc : s3.cur = .thread t) (ht : s3.thread? t = some th1)
include hread halign hspan hraw hreserved hfence hbucket hroots hc ht

theorem pxins_unpinned (hpinned : isPinned s3 t.core th1.ctl.slice.part (parsePx raw).tref = false)
    (hend : Runs (do wrReg d (pxStatus false false true pxNone); setGuard gd false) s3 () s4) :
    exec (.pxins h gd d r) s = retired t h .seq s4 := by
  refine issueSeq_runs hi (Runs.bind henabled (Runs.bind hread (Runs.passes (not_not_intro halign) (Runs.bind hspan (Runs.bind hraw
    (Runs.passes (not_not_intro hreserved) (Runs.bind hfence (Runs.bind hbucket (Runs.bind hroots (Runs.bind (Runs.myCore hc)
      (Runs.bind (Runs.myPart hc ht) (Runs.bind (Runs.get s3) ?_))))))))))))
  simp only [hpinned, Bool.not_false, if_true]
  exact hend

/-- A pinned reference is looked for in its bucket; what the scan finds decides how PXINS ends. -/
theorem pxins_scans (hpinned : isPinned s3 t.core th1.ctl.slice.part (parsePx raw).tref = true) (hways : Runs (readWays a l) s3 ways s4)
    (htile : tileTokens s4 t.core th1.ctl.slice.part (parsePx raw).tref ((parsePx raw).tokm1 + 1) = (tl, s5))
    (hscan : scanBucket s5 t.core th1.ctl.slice.part (parsePx raw).hash (parsePx raw).parent (parsePx raw).tokm1 tl.join ways = (sc, s6))
    (hend : Runs (match sc.hit with
      | some w => do
        writeWays l (touchWay sc.ways w)
        wrReg d (pxStatus true false false (pxIdent (((sc.ways[w]?).map (·.gen)).getD 0) i w))
        setGuard gd false
      | none => do
        let w := victimWay sc.ways
        let old := (sc.ways[w]?).getD (parsePx 0)
        let gen := (old.gen + 1) % 256
        writeWays l (touchWay (setAt sc.ways w { parsePx raw with v := true, res := 0, age := old.age, gen := gen }) w)
        wrReg d (pxStatus false sc.coll false (pxIdent gen i w))
        setGuard gd true) s6 () s7) : exec (.pxins h gd d r) s = retired t h .seq s7 := by
  refine issueSeq_runs hi (Runs.bind henabled (Runs.bind hread (Runs.passes (not_not_intro halign) (Runs.bind hspan (Runs.bind hraw
    (Runs.passes (not_not_intro hreserved) (Runs.bind hfence (Runs.bind hbucket (Runs.bind hroots (Runs.bind (Runs.myCore hc)
      (Runs.bind (Runs.myPart hc ht) (Runs.bind (Runs.get s3) ?_))))))))))))
  simp only [hpinned, Bool.not_true, Bool.false_eq_true, if_false]
  refine Runs.bind hways (Runs.bind (Runs.get s4) ?_)
  simp only [htile, hscan]
  exact Runs.bind (Runs.set s4 s6) hend

end Pxins

end Index

/-! ### The drafter -/

/-- R252, R385: a plan of a legal geometry enters behind the others, beside a Pending future. -/
theorem plan_enters {h : Hdr} {t : ThreadId} {th : Thread} {s s0 s1 s2 s3 s4 s5 : State} {d b o c : Reg} {bv ov cv loc : Word} {fa : Addr}
    {head x : Nat} {list dst : Span} {f : Fut} {recs : List (Nat × Nat × Nat)}
    (hi : Issues h t th s s0) (hloc : Runs (futLocation d) s0 (loc, fa) s0) (hread : Runs (rd3 h (.w b) (.w o) (.w c)) s0 (bv, ov, cv) s1)
    (hlow : wfield cv 8 8 = 0) (hhigh : wfield cv 20 44 = 0) (hcores : wfield cv 0 8 + 1 ≤ 192) (hseg : 6 ≤ wfield cv 16 4)
    (hsegs : wfield cv 16 4 ≤ 12) (halign : bv.toNat % 8 = 0)
    (hhead : Runs (do let q ← localSpan bv 8 8 false; readSpan bv q) s1 head s2) (hsome : head % 2 ^ 16 ≠ 0) (hbound : head % 2 ^ 16 ≤ 1024)
    (hreserved : head < 2 ^ 16) (hlist : Runs (localSpan bv (8 + 8 * (head % 2 ^ 16)) 8 false) s2 list s2)
    (hdstAlign : ov.toNat % 2 ^ wfield cv 16 4 = 0)
    (hdst : Runs (localSpan ov ((wfield cv 0 8 + 1) * 2 ^ wfield cv 16 4) 1 false) s2 dst s2) (hroots : Runs waitConfirmed s2 () s2)
    (hfence : Runs (fenceHold 5) s2 () s2) (hraw : Runs (readSpan bv list) s2 x s3)
    (hrecs : Runs (readBatch ((List.range (head % 2 ^ 16)).map fun k => BitVec.ofNat 64 (field x (64 + 64 * k) 64))) s3 recs s4)
    (hc : s4.cur = .thread t) (hfut : Runs (makeFuture d loc fa) s4 f s5) :
    exec (.plan h d b o c) s = retired t h .seq
      { s5 with
        opId := s5.opId + 1
        nt := { s5.nt with plans := s5.nt.plans ++
          [⟨s5.opId, t, slotGen s4 t, f, recs, dst, wfield cv 16 4, wfield cv 0 8 + 1, 0⟩] } } := by
  obtain ⟨_, _, hheadSpan, hheadRead⟩ := Runs.split hhead
  have hgeometry : ¬ (wfield cv 8 8 ≠ 0 ∨ wfield cv 20 44 ≠ 0 ∨ wfield cv 0 8 + 1 > 192 ∨ wfield cv 16 4 < 6 ∨ wfield cv 16 4 > 12) := by omega
  have hlength : ¬ (head % 2 ^ 16 = 0 ∨ head % 2 ^ 16 > 1024 ∨ head ≥ 2 ^ 16) := by omega
  exact issueSeq_runs hi (Runs.bind hloc (Runs.bind hread (Runs.passes hgeometry (Runs.passes (not_not_intro halign) (Runs.bind hheadSpan
    (Runs.bind hheadRead (Runs.passes hlength (Runs.bind hlist (Runs.passes (not_not_intro hdstAlign) (Runs.bind hdst (Runs.bind hroots
      (Runs.bind hfence (Runs.bind hraw (Runs.bind hrecs (Runs.bind (Runs.me hc) (Runs.bind (Runs.myGen hc) (Runs.bind hfut
        (Runs.bind (Runs.newOp s5) (Runs.modify _ _)))))))))))))))))))

/-- Settles O19: the stages of each instruction in a row; KVEXT and KVTRUNC differ only in what they compute from the record and its pool. -/
theorem attentionInstructionsComplete : Obligations.AttentionInstructionsComplete := by
  unfold Obligations.AttentionInstructionsComplete
  refine ⟨?records, ?index⟩
  case records =>
    intro h t th th1 s s0 s1 s2 s3 s4 s5 s6 s7 s8 gd d a b n v q y r r' x raw p1 p2 l0 l free taken hi
    refine ⟨fun hread hfence hraw hcheck => ⟨kvmap_unmapped hi hread hfence hraw hcheck, kvmap_mapped hi hread hfence hraw hcheck⟩,
      fun hread hfence hreadable hwritable hroots hraw hcheck hc ht hpool => ?updates, kvmatch_counts hi⟩
    case updates =>
      rw [exec_kvext, exec_kvtrunc_truncation]
      exact ⟨updateSeq_answers hi hread hfence hreadable hwritable hroots hraw hcheck hc ht hpool (Runs.pure _ s3),
        fun hn => updateSeq_answers hi hread hfence hreadable hwritable hroots hraw hcheck hc ht hpool (truncation_beyond s3 hn),
        fun hn => updateSeq_answers hi hread hfence hreadable hwritable hroots hraw hcheck hc ht hpool (truncation_same s3 hn),
        fun hn _ ho => updateSeq_answers hi hread hfence hreadable hwritable hroots hraw hcheck hc ht hpool (truncation_shorter s3 hn ho)⟩
  case index =>
    intro h t th th1 th2 s s0 s1 s2 s3 s4 s5 s6 s7 gd d b o c hash p tk n r hv pv tv nv rv bv ov cv a loc fa tn i raw head x l dst list sp ways sc
      w f recs tl hi
    refine ⟨fun henabled hready hread hparent hsome hbound halign hfence htokens hbucket hc ht hscan =>
        ⟨pxlook_hits hi henabled hready hread hparent hsome hbound halign hfence htokens hbucket hc ht hscan,
          pxlook_misses hi henabled hready hread hparent hsome hbound halign hfence htokens hbucket hc ht hscan⟩,
      fun henabled hread halign hspan hraw hreserved hfence hbucket hroots hc ht =>
        ⟨pxins_unpinned hi henabled hread halign hspan hraw hreserved hfence hbucket hroots hc ht, fun hpinned hways htile hscan =>
          have hends {s7} := pxins_scans (s7 := s7) (gd := gd) (d := d) hi henabled hread halign hspan hraw hreserved hfence hbucket hroots hc ht
            hpinned hways htile hscan
          ⟨fun hhit hend => hends (by rw [hhit]; exact hend), fun hmiss hend => hends (by rw [hmiss]; exact hend)⟩⟩,
      fun hloc hread hlow hhigh hcores hseg hsegs halign hhead hsome hbound hreserved hlist hdstAlign hdst hroots hfence hraw hrecs hc _ hfut =>
        plan_enters hi hloc hread hlow hhigh hcores hseg hsegs halign hhead hsome hbound hreserved hlist hdstAlign hdst hroots hfence hraw hrecs hc
          hfut⟩

end Sys2Proof.Machine
end

section
/-!
Taking a trap (R259, R260, R267): the record and the chain header as one list of stores to two windows apart, the handler's control state, and
the end by fault where no handler is entered.
-/
namespace Sys2Proof.Machine

/-! ### Stores to windows apart from each other -/

/-- A store of n bytes at an offset of the window at w. -/
structure WinStore where
  w : Word
  off : Nat
  n : Nat
  v : Nat

/-- The store changes no byte of k bytes at offset o of the window at w. -/
abbrev WinStore.Misses (e : WinStore) (w : Word) (o k : Nat) : Prop := e.w ≠ w ∨ e.off + e.n ≤ o ∨ o + k ≤ e.off

/-- The store is to one of the windows ws, within a line. -/
abbrev WinStore.Fits (ws : List Word) (e : WinStore) : Prop := e.w ∈ ws ∧ inLine e.off e.n

/-- A thread's stores, one after another. -/
def storeAll (s : State) (t : ThreadId) (c : Ctl) (l : List WinStore) : State := l.foldl (fun s e => threadWrite s t c e.w e.off e.n e.v) s

/-- The windows ws stand in storage without overlap. -/
structure WindowsApart (s : State) (t : ThreadId) (sl : SliceId) (ws : List Word) : Prop where
  stands : ∀ w ∈ ws, WindowStands s t sl w
  apart : ∀ w ∈ ws, ∀ w' ∈ ws, w ≠ w' → LinesApart s t sl w w'

section Stores
variable {s s1 : State} {t : ThreadId} {c : Ctl} {ws : List Word} {l : List WinStore}

theorem storeAll_wk (s : State) (t : ThreadId) (c : Ctl) (l : List WinStore) : (storeAll s t c l).wk = s.wk := by
  induction l generalizing s with
  | nil => rfl
  | cons e l ih => exact (ih _).trans (threadWrite_wk _ _ _ _ _ _ _)

theorem storeAll_kept (s : State) (t : ThreadId) (c : Ctl) (l : List WinStore) : UnitsKept s (storeAll s t c l) := by
  induction l generalizing s with
  | nil => exact UnitsKept.refl s
  | cons e l ih => exact (threadWrite_kept _ _ _ _ _ _ _).trans (ih _)

theorem threadWrite_slices (hw : s1.wk.slices = s.wk.slices) (t : ThreadId) (c : Ctl) (w : Word) (o n v : Nat) :
    (threadWrite s1 t c w o n v).wk.slices = s.wk.slices := (congrArg Work.slices (threadWrite_wk _ _ _ _ _ _ _)).trans hw

/-- Bytes that no store changes are read as before. -/
theorem threadRead_storeAll_missed {w : Word} {o k : Nat} (hw : s1.wk.slices = s.wk.slices) (ha : WindowsApart s t c.slice ws) (hm : w ∈ ws)
    (hline : inLine o k) (hl : ∀ e ∈ l, e.Fits ws ∧ e.Misses w o k) : threadRead (storeAll s1 t c l) t c w o k = threadRead s1 t c w o k := by
  induction l generalizing s1 with
  | nil => rfl
  | cons e l ih =>
    obtain ⟨⟨hmem, hpos, _, hend⟩, hmiss⟩ := hl e List.mem_cons_self
    exact (ih (threadWrite_slices hw ..) fun e he => hl e (List.mem_cons_of_mem _ he)).trans
      (threadRead_other hw (ha.stands _ hmem) (ha.stands _ hm) (ha.apart _ hmem _ hm) _ hpos hend hline hmiss)

/-- Of stores that miss each other, each is read back. -/
theorem threadRead_storeAll_stored (hw : s1.wk.slices = s.wk.slices) (ha : WindowsApart s t c.slice ws) (hfit : ∀ e ∈ l, e.Fits ws)
    (hl : l.Pairwise fun x y => y.Misses x.w x.off x.n) {e : WinStore} (he : e ∈ l) :
    threadRead (storeAll s1 t c l) t c e.w e.off e.n = e.v % 256 ^ e.n := by
  induction l generalizing s1 with
  | nil => cases he
  | cons x l ih =>
    obtain ⟨hmiss, hl⟩ := List.pairwise_cons.1 hl
    obtain ⟨hfitx, hfit⟩ := List.forall_mem_cons.1 hfit
    rcases List.mem_cons.1 he with heq | he
    · rw [heq]
      exact (threadRead_storeAll_missed (threadWrite_slices hw ..) ha hfitx.1 hfitx.2 fun y hy => ⟨hfit y hy, hmiss y hy⟩).trans
        (threadRead_same hw _ hfitx.2)
    · exact ih (threadWrite_slices hw ..) hfit hl he

end Stores

/-! ### The trap record and the chain header -/

/-- The control state that a thread saves where it stops (R93), and its trap record (R259 step 1). -/
def recordStores (s : State) (t : ThreadId) (th : Thread) (r : TrapRec) : List WinStore :=
  [⟨th.ctl.wsp, offAtags, 2, tagsOf s t th.ctl⟩, ⟨th.ctl.wsp, offPcsave, 8, th.ctl.pc.toNat⟩, ⟨th.ctl.wsp, offStatus, 8, statusWord th⟩,
    ⟨th.ctl.wsp, offTpc, 8, th.ctl.pc.toNat⟩, ⟨th.ctl.wsp, offTcause, 8, causeWord r false⟩, ⟨th.ctl.wsp, offTaddr, 8, r.taddr.toNat⟩,
    ⟨th.ctl.wsp, offTinfo, 8, r.tinfo.toNat⟩]

/-- The handler's chain header, its PROVSET and its overflow table (R259 steps 2 and 3). -/
def headerStores (s : State) (t : ThreadId) (c : Ctl) (w : Word) : List WinStore :=
  [⟨w, offCaller, 8, c.wsp.toNat⟩, ⟨w, offFrame, 8, 0⟩, ⟨w, offProv, 8, threadRead s t c c.wsp offProv 8⟩,
    ⟨w, offBook, 8, (s.part c.slice.part).ovdef.toNat⟩]

def trapStores (s : State) (t : ThreadId) (th : Thread) (w : Word) (r : TrapRec) : List WinStore :=
  recordStores s t th r ++ headerStores s t th.ctl w

section Trap
variable {s : State} {t : ThreadId} {th : Thread} {w : Word} {r : TrapRec} 

theorem trapStores_fit (s : State) (t : ThreadId) (th : Thread) (w : Word) (r : TrapRec) :
    ∀ e ∈ trapStores s t th w r, e.Fits [th.ctl.wsp, w] := by
  simp [trapStores, recordStores, headerStores, WinStore.Fits, inLine, offAtags, offPcsave, offStatus, offTpc, offTcause, offTaddr, offTinfo, offCaller, offFrame, offProv, offBook]

theorem trapStores_miss (hne : th.ctl.wsp ≠ w) : (trapStores s t th w r).Pairwise fun x y => y.Misses x.w x.off x.n := by
  simp [trapStores, recordStores, headerStores, WinStore.Misses, offAtags, offPcsave, offStatus, offTpc, offTcause, offTaddr, offTinfo, offCaller, offFrame, offProv, offBook, hne.symm]

/-- No store of a trap is to a general register. -/
theorem trapStores_missRegs (n : Reg) (v : Word) : ∀ e ∈ trapStores s t th w r, e.Misses v (offW n.val) 8 := by
  have hlast : offW n.val + 8 ≤ 0x200 := by unfold offW; omega
  simp [trapStores, recordStores, headerStores, WinStore.Misses, offAtags, offPcsave, offStatus, offTpc, offTcause, offTaddr, offTinfo, offCaller, offFrame, offProv, offBook]
  omega

theorem saveControl_eq (ht : s.thread? t = some th) : saveControl s t =
    storeAll s t th.ctl [⟨th.ctl.wsp, offAtags, 2, tagsOf s t th.ctl⟩, ⟨th.ctl.wsp, offPcsave, 8, th.ctl.pc.toNat⟩,
      ⟨th.ctl.wsp, offStatus, 8, statusWord th⟩] := by
  simp only [saveControl, ht, storeAll, List.foldl]

/-- What a trap writes, as one list of stores: none of them changes the PROVSET that the handler's is copied from. -/
theorem writeTrapRecord_eq (ht : s.thread? t = some th) (ha : WindowsApart s t th.ctl.slice [th.ctl.wsp, w]) (hne : th.ctl.wsp ≠ w) :
    writeTrapRecord s t th.ctl w r = storeAll s t th.ctl (trapStores s t th w r) := by
  have hprov : threadRead (storeAll s t th.ctl (recordStores s t th r ++ (headerStores s t th.ctl w).take 2)) t th.ctl th.ctl.wsp offProv 8 =
      threadRead s t th.ctl th.ctl.wsp offProv 8 := by
    refine threadRead_storeAll_missed rfl ha List.mem_cons_self (by decide) fun e he =>
      ⟨trapStores_fit s t th w r e (List.mem_of_mem_take (i := 9) he), ?_⟩
    revert e
    simp [recordStores, headerStores, WinStore.Misses, offAtags, offPcsave, offStatus, offTpc, offTcause, offTaddr, offTinfo, offProv, hne.symm]
  have hbook : (storeAll s t th.ctl (recordStores s t th r ++ (headerStores s t th.ctl w).take 3)).part th.ctl.slice.part = s.part th.ctl.slice.part := by
    simp only [State.part, (storeAll_kept _ _ _ _).un]
  unfold writeTrapRecord
  rw [saveControl_eq ht]
  simp only [trapStores, headerStores, recordStores, List.take, List.cons_append, List.nil_append, storeAll, List.foldl] at hprov hbook ⊢
  rw [hprov, hbook]

theorem causeWord_fits (hcode : r.code < 256) : causeWord r false % 256 ^ 8 = r.code + bit r.deferred * 2 ^ 8 := by
  have hbit : bit r.deferred ≤ 1 := by cases r.deferred <;> decide
  have hfalse : bit false = 0 := rfl
  unfold causeWord
  omega

/-- The thread in its handler. -/
def Thread.trapped (th : Thread) (w pc : Word) : Thread :=
  { th.settled with
    due := { th.settled.due with violations := [], kept := th.due.kept ++ th.due.violations, after := none }
    ctl := { th.ctl with wsp := w, hwsp := w, pc := pc, intrap := true, rep := none, repBnd := false, first := false } }

theorem takeTrap_enters {h : Nat} {pc : Word} (ht : s.thread? t = some th) (hout : th.ctl.intrap = false) (hh : handlerAt s th.ctl = some h)
    (hpc : BitVec.ofNat 64 (threadRead (writeTrapRecord s t th.ctl (space0 t.core h) r) t th.ctl (space0 t.core h) (offW 62) 8) = pc)
    (hok : targetCheck (writeTrapRecord s t th.ctl (space0 t.core h) r) th.ctl.slice.part pc = .ok ()) :
    takeTrap t r s = (writeTrapRecord s t th.ctl (space0 t.core h) r).modThread t fun th => th.trapped (space0 t.core h) pc := by
  simp only [takeTrap, ht, hout, Bool.false_eq_true, if_false, hh, hpc, hok]
  rfl

end Trap

/-- Settles O33: a trap is a list of stores to two windows apart, none of them to a register, and a change of the thread's record. That
violations due at the trap are kept is the model's choice (log entry 22). -/
theorem trapEntryTaken : Obligations.TrapEntryTaken := by
  unfold Obligations.TrapEntryTaken
  rintro t th r s h w pc ht hout hh rfl hcode hs hsw hne haw hwa rfl hok
  have ha : WindowsApart s t th.ctl.slice [th.ctl.wsp, space0 t.core h] := ⟨by simp [hs, hsw], by simp [haw, hwa]⟩
  have heq := writeTrapRecord_eq (r := r) ht ha hne
  have hregs : ∀ v ∈ [th.ctl.wsp, space0 t.core h], ∀ n : Reg,
      threadRead (writeTrapRecord s t th.ctl (space0 t.core h) r) t th.ctl v (offW n.val) 8 = threadRead s t th.ctl v (offW n.val) 8 :=
    fun v hv n => heq ▸ threadRead_storeAll_missed rfl ha hv (offW_inLine n) fun e he =>
      ⟨trapStores_fit s t th _ r e he, trapStores_missRegs n v e he⟩
  have hstored := fun e => threadRead_storeAll_stored (e := e) (s1 := s) rfl ha (trapStores_fit s t th _ r) (trapStores_miss hne)
  rw [← heq] at hstored
  simp only [trapStores, recordStores, headerStores, List.cons_append, List.nil_append, List.forall_mem_cons] at hstored
  obtain ⟨_, hpcsave, _, htpc, htcause, htaddr, htinfo, hcaller, hframe, hprov, hbook, _⟩ := hstored
  have henter := takeTrap_enters (r := r) ht hout hh (congrArg (BitVec.ofNat 64) (hregs _ (by simp) 62)) hok
  refine ⟨_, henter, henter ▸ takeTrap_kept t r s, ?thread, htpc.trans (mod_toNat _), htcause.trans (causeWord_fits hcode),
    htaddr.trans (mod_toNat _), htinfo.trans (mod_toNat _), hpcsave.trans (mod_toNat _), hcaller.trans (mod_toNat _), hframe, hprov,
    hbook.trans (mod_toNat _), fun n => ⟨hregs _ (by simp) n, hregs _ (by simp) n⟩⟩
  case thread =>
    rw [State.modThread_thread?, if_pos rfl, State.thread?_of_wk (heq ▸ storeAll_wk _ _ _ _), ht]
    rfl

/-! ### An unhandled trap -/

section Unhandled
variable {s : State} {t : ThreadId} {th : Thread} {r : TrapRec}

/-- There is no handler workspace where TWSP.EN is 0 or H is not wholly in the data range. -/
theorem handlerAt_none {c : Ctl} (h : bitAt c.twsp 63 = false ∨
    ∃ sr, s.slice? c.slice = some sr ∧ sr.inData (wfield c.twsp 6 17 * 64) 9216 = false) : handlerAt s c = none := by
  unfold handlerAt
  rcases h with hen | ⟨sr, hslice, hdata⟩
  · simp only [hen, Bool.false_and, Bool.false_eq_true, if_false]
    split <;> rfl
  · simp only [hslice, hdata, Bool.and_false, Bool.false_eq_true, if_false]

theorem takeTrap_nested (ht : s.thread? t = some th) (hin : th.ctl.intrap = true) : takeTrap t r s = endByFault s t r := by
  simp only [takeTrap, ht, hin, if_true]

theorem takeTrap_noHandler (ht : s.thread? t = some th) (hh : handlerAt s th.ctl = none) : takeTrap t r s = endByFault s t r := by
  simp only [takeTrap, ht, hh, ite_self]

theorem takeTrap_badTarget {h : Nat} {e : TrapRec} (ht : s.thread? t = some th) (hh : handlerAt s th.ctl = some h)
    (hbad : targetCheck (writeTrapRecord s t th.ctl (space0 t.core h) r) th.ctl.slice.part
      (BitVec.ofNat 64 (threadRead (writeTrapRecord s t th.ctl (space0 t.core h) r) t th.ctl (space0 t.core h) (offW 62) 8)) = .error e) :
    takeTrap t r s = endByFault s t r := by
  simp only [takeTrap, ht, hh, hbad, ite_self]

theorem saveControl_wk (s : State) (t : ThreadId) : (saveControl s t).wk = s.wk := by
  cases ht : s.thread? t with
  | none => simp only [saveControl, ht]
  | some th => rw [saveControl_eq ht, storeAll_wk]

theorem endByFault_thread (ht : s.thread? t = some th) : (endByFault s t r).thread? t = some { th.settled with
    phase := .ending
    endCause := some ⟨th.ctl.pc, BitVec.ofNat 64 (causeWord r th.ctl.intrap), r.taddr, r.tinfo⟩ } := by
  rw [endByFault, State.modThread_thread?, if_pos rfl, State.thread?_of_wk (saveControl_wk s t), ht]
  rfl

end Unhandled

/-- Settles O34: under each condition the trap is the end by fault, which changes the thread's record and saves its control state. -/
theorem unhandledTrapEnds : Obligations.UnhandledTrapEnds := by
  unfold Obligations.UnhandledTrapEnds
  intro t th r e s h sr ht hcond
  have hends : takeTrap t r s = endByFault s t r := by
    rcases hcond with hin | hen | hdata | ⟨hh, hbad⟩
    · exact takeTrap_nested ht hin
    · exact takeTrap_noHandler ht (handlerAt_none (.inl hen))
    · exact takeTrap_noHandler ht (handlerAt_none (.inr ⟨sr, hdata⟩))
    · exact takeTrap_badTarget ht hh hbad
  exact ⟨_, hends, endByFault_kept s t r, endByFault_thread ht⟩

end Sys2Proof.Machine
end

section
/-!
The Carder's word (R278, R279): what its fields read, by the shape of the word, and that the decoder reads every legal filter instruction back.
-/
namespace Sys2Proof

/-- The word n is 32 bits, and o is what its fields name. -/
abbrev CarderReads (n : Nat) (o : Option Instr) : Prop := n < 2 ^ 32 ∧ parseCarder n = o

/-! ### The fields of a word, by its shape -/

section Shapes
variable {op : Nat} (hop : op < 64) (d a b : BitVec 4)
include hop

theorem carderReads_regs {f : BitVec 4 → BitVec 4 → BitVec 4 → Option Instr}
    (hf : ∀ n, field n 26 6 = op → n.testBit 13 = false →
      parseCarder n = f (BitVec.ofNat 4 (n / 2 ^ 22)) (BitVec.ofNat 4 (n / 2 ^ 18)) (BitVec.ofNat 4 (n / 2 ^ 14))) :
    CarderReads (pack (cdA op d.toNat a.toNat b.toNat none)) (f d a b) := by
  generalize hn : pack (cdA op d.toNat a.toNat b.toNat none) = n
  simp only [cdA, pack] at hn
  have hd := d.isLt
  have ha := a.isLt
  have hb := b.isLt
  have hfields : BitVec.ofNat 4 (n / 2 ^ 22) = d ∧ BitVec.ofNat 4 (n / 2 ^ 18) = a ∧ BitVec.ofNat 4 (n / 2 ^ 14) = b := by
    refine ⟨BitVec.eq_of_toNat_eq ?_, BitVec.eq_of_toNat_eq ?_, BitVec.eq_of_toNat_eq ?_⟩ <;> rw [BitVec.toNat_ofNat] <;> omega
  obtain ⟨h1, h2, h3⟩ := hfields
  have hp := hf n (by unfold field; omega) (by rw [Nat.testBit_eq_decide_div_mod_eq]; simp; omega)
  rw [h1, h2, h3] at hp
  exact ⟨by omega, hp⟩

theorem carderReads_imm (i : BitVec 13) {f : BitVec 4 → BitVec 4 → BitVec 13 → Option Instr}
    (hf : ∀ n, field n 26 6 = op → n.testBit 13 = true →
      parseCarder n = f (BitVec.ofNat 4 (n / 2 ^ 22)) (BitVec.ofNat 4 (n / 2 ^ 18)) (BitVec.ofNat 13 n)) :
    CarderReads (pack (cdA op d.toNat a.toNat 0 (some i))) (f d a i) := by
  generalize hn : pack (cdA op d.toNat a.toNat 0 (some i)) = n
  simp only [cdA, pack] at hn
  have hd := d.isLt
  have ha := a.isLt
  have hi := i.isLt
  have hfields : BitVec.ofNat 4 (n / 2 ^ 22) = d ∧ BitVec.ofNat 4 (n / 2 ^ 18) = a ∧ BitVec.ofNat 13 n = i := by
    refine ⟨BitVec.eq_of_toNat_eq ?_, BitVec.eq_of_toNat_eq ?_, BitVec.eq_of_toNat_eq ?_⟩ <;> rw [BitVec.toNat_ofNat] <;> omega
  obtain ⟨h1, h2, h3⟩ := hfields
  have hp := hf n (by unfold field; omega) (by rw [Nat.testBit_eq_decide_div_mod_eq]; simp; omega)
  rw [h1, h2, h3] at hp
  exact ⟨by omega, hp⟩

theorem carderReads_obj (obj : BitVec 8) {f : BitVec 4 → BitVec 4 → BitVec 4 → BitVec 8 → Option Instr}
    (hf : ∀ n, field n 26 6 = op → parseCarder n = f (BitVec.ofNat 4 (n / 2 ^ 22)) (BitVec.ofNat 4 (n / 2 ^ 18)) (BitVec.ofNat 4 (n / 2 ^ 14))
      (BitVec.ofNat 8 (n / 2 ^ 6))) :
    CarderReads (pack (cdO op d.toNat a.toNat b.toNat obj.toNat)) (f d a b obj) := by
  generalize hn : pack (cdO op d.toNat a.toNat b.toNat obj.toNat) = n
  simp only [cdO, pack] at hn
  have hd := d.isLt
  have ha := a.isLt
  have hb := b.isLt
  have ho := obj.isLt
  have hfields : BitVec.ofNat 4 (n / 2 ^ 22) = d ∧ BitVec.ofNat 4 (n / 2 ^ 18) = a ∧ BitVec.ofNat 4 (n / 2 ^ 14) = b ∧
      BitVec.ofNat 8 (n / 2 ^ 6) = obj := by
    refine ⟨BitVec.eq_of_toNat_eq ?_, BitVec.eq_of_toNat_eq ?_, BitVec.eq_of_toNat_eq ?_, BitVec.eq_of_toNat_eq ?_⟩ <;>
      rw [BitVec.toNat_ofNat] <;> omega
  obtain ⟨h1, h2, h3, h4⟩ := hfields
  have hp := hf n (by unfold field; omega)
  rw [h1, h2, h3, h4] at hp
  exact ⟨by omega, hp⟩

end Shapes

/-- CDLI (R279). -/
theorem carderReads_li (d : BitVec 4) (i : BitVec 22) : CarderReads (pack [(22, i.toNat), (4, d.toNat), (6, 2)]) (some (.cdli d i)) := by
  generalize hn : pack [(22, i.toNat), (4, d.toNat), (6, 2)] = n
  simp only [pack] at hn
  have hd := d.isLt
  have hi := i.isLt
  have hop : field n 26 6 = 2 := by unfold field; omega
  have h1 : BitVec.ofNat 4 (n / 2 ^ 22) = d := BitVec.eq_of_toNat_eq (by rw [BitVec.toNat_ofNat]; omega)
  have h2 : BitVec.ofNat 22 n = i := BitVec.eq_of_toNat_eq (by rw [BitVec.toNat_ofNat]; omega)
  exact ⟨by omega, by simp only [parseCarder, hop, h1, h2]⟩

/-- CDBF (R279). -/
theorem carderReads_bf (c a b : BitVec 4) (off : BitVec 6) :
    CarderReads (pack [(6, off.toNat), (8, 0), (4, b.toNat), (4, a.toNat), (4, c.toNat), (6, 0x10)]) (some (.cdbf c a b off)) := by
  generalize hn : pack [(6, off.toNat), (8, 0), (4, b.toNat), (4, a.toNat), (4, c.toNat), (6, 0x10)] = n
  simp only [pack] at hn
  have hc := c.isLt
  have ha := a.isLt
  have hb := b.isLt
  have ho := off.isLt
  have hop : field n 26 6 = 0x10 := by unfold field; omega
  have h1 : BitVec.ofNat 4 (n / 2 ^ 22) = c := BitVec.eq_of_toNat_eq (by rw [BitVec.toNat_ofNat]; omega)
  have h2 : BitVec.ofNat 4 (n / 2 ^ 18) = a := BitVec.eq_of_toNat_eq (by rw [BitVec.toNat_ofNat]; omega)
  have h3 : BitVec.ofNat 4 (n / 2 ^ 14) = b := BitVec.eq_of_toNat_eq (by rw [BitVec.toNat_ofNat]; omega)
  have h4 : BitVec.ofNat 6 n = off := BitVec.eq_of_toNat_eq (by rw [BitVec.toNat_ofNat]; omega)
  exact ⟨by omega, by simp only [parseCarder, hop, h1, h2, h3, h4]⟩

/-! ### Every filter instruction -/

/-- CDLDE's immediate is the number of one of the event's eight words. -/
theorem carderReads_lde (d : BitVec 4) (e : Fin 8) :
    CarderReads (pack (cdA 3 d.toNat 0 0 (some (BitVec.ofNat 13 e.val)))) (some (.cdlde d e)) := by
  obtain ⟨hlt, hp⟩ := carderReads_imm (op := 3) (by decide) d 0 (BitVec.ofNat 13 e.val)
    (f := fun d _ i => (fin? 8 i.toNat).map fun e => .cdlde d e) fun n hop _ => by simp only [parseCarder, hop]
  have he : (BitVec.ofNat 13 e.val).toNat = e.val := by rw [BitVec.toNat_ofNat]; omega
  refine ⟨hlt, hp.trans ?_⟩
  rw [he, fin?, dif_pos e.isLt]
  rfl

theorem carderReads_encode (i : Instr) (h : i.carderFields?.isSome = true) : CarderReads (encode i) (some i) := by
  cases i
  case cdend => exact carderReads_regs (by decide) 0 0 0 (f := fun _ _ _ => some .cdend) fun n hop _ => by simp only [parseCarder, hop]
  case cdmov d a => exact carderReads_regs (by decide) d a 0 (f := fun d a _ => some (.cdmov d a)) fun n hop _ => by simp only [parseCarder, hop]
  case cdli d i => exact carderReads_li d i
  case cdlde d e => exact carderReads_lde d e
  case cdlds d obj a =>
    exact carderReads_obj (by decide) d a 0 obj (f := fun d a _ o => some (.cdlds d o a)) fun n hop => by simp only [parseCarder, hop]
  case cdsts obj a b =>
    exact carderReads_obj (by decide) 0 a b obj (f := fun _ a b o => some (.cdsts o a b)) fun n hop => by simp only [parseCarder, hop]
  case cdadd d a b => exact carderReads_regs (by decide) d a b (f := fun d a b => some (.cdadd d a b)) fun n hop hi => by simp [parseCarder, hop, hi]
  case cdaddImm d a i => exact carderReads_imm (by decide) d a i (f := fun d a i => some (.cdaddImm d a i)) fun n hop hi => by simp [parseCarder, hop, hi]
  case cdsub d a b => exact carderReads_regs (by decide) d a b (f := fun d a b => some (.cdsub d a b)) fun n hop hi => by simp [parseCarder, hop, hi]
  case cdsubImm d a i => exact carderReads_imm (by decide) d a i (f := fun d a i => some (.cdsubImm d a i)) fun n hop hi => by simp [parseCarder, hop, hi]
  case cdand d a b => exact carderReads_regs (by decide) d a b (f := fun d a b => some (.cdand d a b)) fun n hop hi => by simp [parseCarder, hop, hi]
  case cdandImm d a i => exact carderReads_imm (by decide) d a i (f := fun d a i => some (.cdandImm d a i)) fun n hop hi => by simp [parseCarder, hop, hi]
  case cdor d a b => exact carderReads_regs (by decide) d a b (f := fun d a b => some (.cdor d a b)) fun n hop hi => by simp [parseCarder, hop, hi]
  case cdorImm d a i => exact carderReads_imm (by decide) d a i (f := fun d a i => some (.cdorImm d a i)) fun n hop hi => by simp [parseCarder, hop, hi]
  case cdxor d a b => exact carderReads_regs (by decide) d a b (f := fun d a b => some (.cdxor d a b)) fun n hop hi => by simp [parseCarder, hop, hi]
  case cdxorImm d a i => exact carderReads_imm (by decide) d a i (f := fun d a i => some (.cdxorImm d a i)) fun n hop hi => by simp [parseCarder, hop, hi]
  case cdshl d a b => exact carderReads_regs (by decide) d a b (f := fun d a b => some (.cdshl d a b)) fun n hop hi => by simp [parseCarder, hop, hi]
  case cdshlImm d a i => exact carderReads_imm (by decide) d a i (f := fun d a i => some (.cdshlImm d a i)) fun n hop hi => by simp [parseCarder, hop, hi]
  case cdshr d a b => exact carderReads_regs (by decide) d a b (f := fun d a b => some (.cdshr d a b)) fun n hop hi => by simp [parseCarder, hop, hi]
  case cdshrImm d a i => exact carderReads_imm (by decide) d a i (f := fun d a i => some (.cdshrImm d a i)) fun n hop hi => by simp [parseCarder, hop, hi]
  case cdmin d a b => exact carderReads_regs (by decide) d a b (f := fun d a b => some (.cdmin d a b)) fun n hop hi => by simp [parseCarder, hop, hi]
  case cdminImm d a i => exact carderReads_imm (by decide) d a i (f := fun d a i => some (.cdminImm d a i)) fun n hop hi => by simp [parseCarder, hop, hi]
  case cdmax d a b => exact carderReads_regs (by decide) d a b (f := fun d a b => some (.cdmax d a b)) fun n hop hi => by simp [parseCarder, hop, hi]
  case cdmaxImm d a i => exact carderReads_imm (by decide) d a i (f := fun d a i => some (.cdmaxImm d a i)) fun n hop hi => by simp [parseCarder, hop, hi]
  case cdhash d a b => exact carderReads_regs (by decide) d a b (f := fun d a b => some (.cdhash d a b)) fun n hop hi => by simp [parseCarder, hop, hi]
  case cdhashImm d a i => exact carderReads_imm (by decide) d a i (f := fun d a i => some (.cdhashImm d a i)) fun n hop hi => by simp [parseCarder, hop, hi]
  case cdbf c a b off => exact carderReads_bf c a b off
  case cdhist obj a =>
    exact carderReads_obj (by decide) 0 a 0 obj (f := fun _ a _ o => some (.cdhist o a)) fun n hop => by simp only [parseCarder, hop]
  case cdcms d obj a =>
    exact carderReads_obj (by decide) d a 0 obj (f := fun d a _ o => some (.cdcms d o a)) fun n hop => by simp only [parseCarder, hop]
  case cdhll obj a =>
    exact carderReads_obj (by decide) 0 a 0 obj (f := fun _ a _ o => some (.cdhll o a)) fun n hop => by simp only [parseCarder, hop]
  case cdemit obj a b =>
    exact carderReads_obj (by decide) 0 a b obj (f := fun _ a b o => some (.cdemit o a b)) fun n hop => by simp only [parseCarder, hop]
  case cdtrig obj a =>
    exact carderReads_obj (by decide) 0 a 0 obj (f := fun _ a _ o => some (.cdtrig o a)) fun n hop => by simp only [parseCarder, hop]
  case cddrop => exact carderReads_regs (by decide) 0 0 0 (f := fun _ _ _ => some .cddrop) fun n hop _ => by simp only [parseCarder, hop]
  all_goals exact absurd h Bool.false_ne_true

/-- Settles O53: the fields of a filter instruction's word name it again, and it is legal and encodes to that word. -/
theorem carderDecodeOfEncode : Obligations.CarderDecodeOfEncode := by
  unfold Obligations.CarderDecodeOfEncode
  intro i hlegal hcarder
  obtain ⟨hlt, hparse⟩ := carderReads_encode i hcarder
  have hword : (BitVec.ofNat 32 (encode i)).toNat = encode i := by rw [BitVec.toNat_ofNat, Nat.mod_eq_of_lt hlt]
  refine ⟨hlt, ?_⟩
  simp only [decodeCarder, hword, hparse, hlegal, beq_self_eq_true, Bool.and_self, if_true]

end Sys2Proof
end

section
/-!
The results of class 0 (R309, R310, R319, R320, R329, R332, R361, R362, R381, R386, R389, R395) as fixed-width arithmetic: the model's integer
of a field is the value of its W bits, and its written result is W bits extended.
-/
namespace Sys2Proof.Machine

/-! ### The W-bit field of a word, its value, and a W-bit result extended to 64 bits (R309, R310) -/

/-- val of R310. -/
abbrev bitsVal {w : Nat} (sgn : Bool) (r : BitVec w) : Int := if sgn then r.toInt else (r.toNat : Int)

/-- W bits extended by SGN (R310). -/
abbrev bitsExt {w : Nat} (sgn : Bool) (r : BitVec w) : Word := if sgn then r.signExtend 64 else r.setWidth 64

theorem widBits_pos (wid : BitVec 2) : 0 < widBits wid := by revert wid; decide
theorem widBits_le (wid : BitVec 2) : widBits wid ≤ 64 := by revert wid; decide

theorem one_le_two_pow_int (n : Nat) : (1 : Int) ≤ 2 ^ n := by exact_mod_cast Nat.one_le_two_pow

theorem signed_eq_toInt (x w : Nat) : signed x w = (BitVec.ofNat w x).toInt := by
  rw [BitVec.toInt_eq_toNat_cond, BitVec.toNat_ofNat]
  unfold signed
  cases w with
  | zero => simp [Nat.mod_one]
  | succ w =>
    simp only [ge_iff_le, ne_eq, Nat.add_one_ne_zero, not_false_eq_true, and_true]
    push_cast
    split <;> split <;> omega

theorem setWidth_eq_ofNat (w : Nat) (x : Word) : x.setWidth w = BitVec.ofNat w x.toNat := BitVec.eq_of_toNat_eq (by simp)

theorem valOf_eq (sgn : Bool) (w : Nat) (x : Word) : valOf sgn w x = bitsVal sgn (x.setWidth w) := by
  cases sgn with
  | false => simp [valOf, bitsVal]
  | true => simp [valOf, bitsVal, signed_eq_toInt]

theorem extend_eq (sgn : Bool) (w x : Nat) : extend sgn w x = bitsExt sgn (BitVec.ofNat w x) := by
  cases sgn with
  | false => exact BitVec.eq_of_toNat_eq (by simp [extend, bitsExt])
  | true => simp only [extend, bitsExt, if_true, signed_eq_toInt, BitVec.signExtend]

theorem extend_word (sgn : Bool) (w : Nat) (x : Word) : extend sgn w x.toNat = bitsExt sgn (x.setWidth w) := by
  rw [extend_eq, setWidth_eq_ofNat]

theorem ofNat_wrap (w : Nat) (r : Int) : BitVec.ofNat w (wrap w r) = BitVec.ofInt w r := by
  have hpow : (0 : Int) < 2 ^ w := Int.pow_pos (by decide)
  have hnonneg := Int.emod_nonneg r (Int.ne_of_gt hpow)
  have hlt := Int.emod_lt_of_pos r hpow
  refine BitVec.eq_of_toNat_eq ?_
  rw [BitVec.toNat_ofNat, BitVec.toNat_ofInt, wrap]
  push_cast
  refine Nat.mod_eq_of_lt (Int.ofNat_lt.1 ?_)
  rwa [Int.toNat_of_nonneg hnonneg, Int.natCast_pow]

theorem resultOf_eq (sgn : Bool) (w : Nat) (r : Int) : resultOf sgn w r = bitsExt sgn (BitVec.ofInt w r) := by
  rw [resultOf, extend_eq, ofNat_wrap]

section Bits
variable {w : Nat} (sgn : Bool) (a b : BitVec w)

/-- W bits are those of their value. -/
@[simp] theorem ofInt_bitsVal : BitVec.ofInt w (bitsVal sgn a) = a := by
  cases sgn <;> simp [bitsVal]

theorem ofInt_sub (p q : Int) : BitVec.ofInt w (p - q) = BitVec.ofInt w p - BitVec.ofInt w q := by
  rw [Int.sub_eq_add_neg, BitVec.ofInt_add, BitVec.ofInt_neg, BitVec.sub_eq_add_neg]

/-- The clamp of R310. -/
theorem ofInt_clamp (r : Int) : BitVec.ofInt w (clamp sgn w r) =
    if sgn then BitVec.ofInt w (max (-2 ^ (w - 1)) (min (2 ^ (w - 1) - 1) r)) else BitVec.ofInt w (max 0 (min (2 ^ w - 1) r)) := by
  have hhalf := one_le_two_pow_int (w - 1)
  have hwhole := one_le_two_pow_int w
  cases sgn with
  | false => simp only [clamp, intLo, intHi, Bool.false_eq_true, if_false]; congr 1; omega
  | true => simp only [clamp, intLo, intHi, if_true]; congr 1; omega

end Bits

/-! ### Sums, differences and products -/

section Sums
variable (wid : BitVec 2) (sgn : Bool) (x y : Word)

theorem addW_eq : addW wid sgn false x y = bitsExt sgn (x.setWidth (widBits wid) + y.setWidth (widBits wid)) := by
  simp only [addW, satIf, Bool.false_eq_true, if_false, valOf_eq, resultOf_eq, BitVec.ofInt_add, ofInt_bitsVal]

theorem subW_eq : subW wid sgn false x y = bitsExt sgn (x.setWidth (widBits wid) - y.setWidth (widBits wid)) := by
  simp only [subW, satIf, Bool.false_eq_true, if_false, valOf_eq, resultOf_eq, ofInt_sub, ofInt_bitsVal]

theorem mulW_eq : mulW wid sgn false false x y = bitsExt sgn (x.setWidth (widBits wid) * y.setWidth (widBits wid)) := by
  simp only [mulW, satIf, Bool.false_eq_true, if_false, valOf_eq, resultOf_eq, BitVec.ofInt_mul, ofInt_bitsVal]

theorem bitwiseW_eq {f : Word → Word → Word} {r : BitVec (widBits wid)} (hf : (f x y).setWidth (widBits wid) = r) :
    bitwiseW f wid sgn x y = bitsExt sgn r := by
  rw [bitwiseW, extend_word, hf]

end Sums

/-! ### Shifts and rotations -/

section Shifts
variable {w : Nat} (a : BitVec w) (k : Nat)

theorem ofNat_shl : BitVec.ofNat w (if k ≥ w then 0 else a.toNat * 2 ^ k) = a <<< k := by
  split
  · rw [BitVec.shiftLeft_eq_zero ‹_›]
  · exact BitVec.eq_of_toNat_eq (by simp [Nat.shiftLeft_eq])

theorem ofNat_shr : BitVec.ofNat w (if k ≥ w then 0 else a.toNat / 2 ^ k) = a >>> k := by
  split
  · rw [BitVec.ushiftRight_eq_zero ‹_›]
  · refine BitVec.eq_of_toNat_eq ?_
    rw [BitVec.toNat_ofNat, BitVec.toNat_ushiftRight, Nat.shiftRight_eq_div_pow, Nat.mod_eq_of_lt (Nat.lt_of_le_of_lt (Nat.div_le_self _ _) a.isLt)]

/-- Beyond the width, only the sign is left. -/
theorem ofInt_sshr : BitVec.ofInt w (if k ≥ w then (if a.toInt < 0 then -1 else 0) else a.toInt / 2 ^ k) = a.sshiftRight k := by
  rw [BitVec.sshiftRight, Int.shiftRight_eq_div_pow]
  congr 1
  push_cast
  split
  case isTrue hk =>
    have hpos : (0 : Int) < 2 ^ k := Int.pow_pos (by decide)
    have hhalf : (2 : Int) ^ (w - 1) ≤ 2 ^ k := mod_cast Nat.pow_le_pow_right Nat.two_pos (by omega : w - 1 ≤ k)
    have hlow := BitVec.le_toInt a
    have hhigh := BitVec.toInt_lt (x := a)
    split
    case isTrue hneg => exact Int.le_antisymm (Int.le_ediv_of_mul_le hpos (by omega)) (by have := Int.ediv_neg_of_neg_of_pos hneg hpos; omega)
    case isFalse hneg => exact (Int.ediv_eq_zero_of_lt (by omega) (by omega)).symm
  case isFalse => rfl

theorem ofNat_rotl (hw : 0 < w) : BitVec.ofNat w (a.toNat * 2 ^ (k % w) + a.toNat / 2 ^ (w - k % w)) = a.rotateLeft k := by
  have hj : k % w < w := Nat.mod_lt k hw
  refine BitVec.eq_of_toNat_eq ?_
  rw [BitVec.toNat_ofNat, BitVec.toNat_rotateLeft, Nat.shiftLeft_eq, Nat.shiftRight_eq_div_pow]
  generalize k % w = j at hj
  generalize hx : a.toNat = x
  have hlt : x < 2 ^ w := hx ▸ a.isLt
  have hsplit : 2 ^ w = 2 ^ (w - j) * 2 ^ j := by rw [← Nat.pow_add, Nat.sub_add_cancel (Nat.le_of_lt hj)]
  have hhigh : x / 2 ^ (w - j) < 2 ^ j := Nat.div_lt_of_lt_mul (hsplit ▸ hlt)
  have hkept : x * 2 ^ j % 2 ^ w = x % 2 ^ (w - j) * 2 ^ j := by rw [hsplit, Nat.mul_mod_mul_right]
  have hsum : x % 2 ^ (w - j) * 2 ^ j + x / 2 ^ (w - j) < 2 ^ w := by
    have := Nat.mul_le_mul_right (2 ^ j) (Nat.mod_lt x (Nat.two_pow_pos (w - j)))
    rw [Nat.succ_mul] at this
    omega
  rw [Nat.add_mod, hkept, Nat.mod_eq_of_lt (Nat.lt_trans hhigh (Nat.pow_lt_pow_right (by decide) hj)), Nat.mod_eq_of_lt hsum, Nat.mul_comm,
    Nat.two_pow_add_eq_or_of_lt hhigh]

end Shifts

section ShiftResults
variable (wid : BitVec 2) (sgn : Bool) (x y : Word)

theorem shlW_eq : shlW wid sgn x y = bitsExt sgn (x.setWidth (widBits wid) <<< (y.toNat % 256)) := by
  rw [← ofNat_shl, BitVec.toNat_setWidth, ← extend_eq]
  rfl

theorem shrW_eq : shrW wid sgn x y = bitsExt sgn
    (if sgn then (x.setWidth (widBits wid)).sshiftRight (y.toNat % 256) else x.setWidth (widBits wid) >>> (y.toNat % 256)) := by
  cases sgn with
  | false =>
    rw [if_neg Bool.false_ne_true, ← ofNat_shr, BitVec.toNat_setWidth, ← extend_eq]
    rfl
  | true =>
    have hval := valOf_eq true (widBits wid) x
    simp only [bitsVal, if_true] at hval
    rw [if_pos rfl, ← ofInt_sshr, ← hval, ← resultOf_eq]
    rfl

theorem rotW_eq : rotW wid x y = ((x.setWidth (widBits wid)).rotateLeft (y.toNat % 256)).setWidth 64 := by
  rw [← ofNat_rotl _ _ (widBits_pos wid), BitVec.toNat_setWidth]
  exact extend_eq false _ _

end ShiftResults

/-- Settles O44: the model's integers are the values of W bits, and each result is made of them. -/
theorem integerResults : Obligations.IntegerResults := by
  unfold Obligations.IntegerResults
  intro wid sgn x y
  refine ⟨addW_eq wid sgn x y, ?addSat, subW_eq wid sgn x y, ?subSat, mulW_eq wid sgn x y, ?mulSat, ?mulHi, ?and, ?andn, ?or, ?xor, ?min, ?max,
    ?shl, ?shr, ?rot⟩
  case addSat => simp only [addW, satIf, if_true, valOf_eq, resultOf_eq, ofInt_clamp]
  case subSat => simp only [subW, satIf, if_true, valOf_eq, resultOf_eq, ofInt_clamp]
  case mulSat => simp only [mulW, satIf, Bool.false_eq_true, if_false, if_true, valOf_eq, resultOf_eq, ofInt_clamp]
  case mulHi => simp only [mulW, if_true, valOf_eq, resultOf_eq]
  case and => exact bitwiseW_eq wid sgn x y BitVec.setWidth_and
  case andn => exact bitwiseW_eq wid sgn x y (by rw [BitVec.setWidth_and, BitVec.setWidth_not (widBits_le wid)])
  case or => exact bitwiseW_eq wid sgn x y BitVec.setWidth_or
  case xor => exact bitwiseW_eq wid sgn x y BitVec.setWidth_xor
  case min => simp only [minW, extend_word, valOf_eq, apply_ite (BitVec.setWidth (widBits wid))]
  case max => simp only [maxW, extend_word, valOf_eq, apply_ite (BitVec.setWidth (widBits wid)), ge_iff_le]
  case shl => exact shlW_eq wid sgn x y
  case shr => exact shrW_eq wid sgn x y
  case rot => exact rotW_eq wid x y

end Sys2Proof.Machine
end

section
/-!
CMP (R320), DIV and REM (R329, R389) as fixed-width arithmetic.
-/
namespace Sys2Proof.Machine

/-! ### CMP -/

section Compare
variable {w : Nat} (sgn : Bool) (x y : Word)

theorem mod_eq_iff : x.toNat % 2 ^ w = y.toNat % 2 ^ w ↔ x.setWidth w = y.setWidth w := by
  rw [← BitVec.toNat_inj, BitVec.toNat_setWidth, BitVec.toNat_setWidth]

theorem mod_and_zero_iff : x.toNat % 2 ^ w &&& y.toNat % 2 ^ w = 0 ↔ x.setWidth w &&& y.setWidth w = 0 := by
  rw [← BitVec.toNat_inj, BitVec.toNat_and, BitVec.toNat_setWidth, BitVec.toNat_setWidth]
  rfl

theorem cmpHolds_eq : cmpHolds 0 sgn w x y = decide (x.setWidth w = y.setWidth w) := decide_eq_decide.2 (mod_eq_iff x y)
theorem cmpHolds_ne : cmpHolds 1 sgn w x y = decide (x.setWidth w ≠ y.setWidth w) := decide_eq_decide.2 (not_congr (mod_eq_iff x y))

theorem cmpHolds_lt : cmpHolds 2 sgn w x y = decide (bitsVal sgn (x.setWidth w) < bitsVal sgn (y.setWidth w)) := by
  rw [← valOf_eq, ← valOf_eq]; rfl
theorem cmpHolds_le : cmpHolds 3 sgn w x y = decide (bitsVal sgn (x.setWidth w) ≤ bitsVal sgn (y.setWidth w)) := by
  rw [← valOf_eq, ← valOf_eq]; rfl
theorem cmpHolds_gt : cmpHolds 4 sgn w x y = decide (bitsVal sgn (y.setWidth w) < bitsVal sgn (x.setWidth w)) := by
  rw [← valOf_eq, ← valOf_eq]; rfl
theorem cmpHolds_ge : cmpHolds 5 sgn w x y = decide (bitsVal sgn (y.setWidth w) ≤ bitsVal sgn (x.setWidth w)) := by
  rw [← valOf_eq, ← valOf_eq]; rfl

theorem cmpHolds_none : cmpHolds 6 sgn w x y = decide (x.setWidth w &&& y.setWidth w = 0) := decide_eq_decide.2 (mod_and_zero_iff x y)
theorem cmpHolds_any : cmpHolds 7 sgn w x y = decide (x.setWidth w &&& y.setWidth w ≠ 0) :=
  decide_eq_decide.2 (not_congr (mod_and_zero_iff x y))

/-- The order of two values, as the comparison of W bits. -/
theorem decide_bitsVal_lt (a b : BitVec w) : decide (bitsVal sgn a < bitsVal sgn b) = if sgn then a.slt b else a.ult b := by
  cases sgn with
  | false => simp [bitsVal, BitVec.ult]
  | true => simp [bitsVal, BitVec.slt]

theorem decide_bitsVal_le (a b : BitVec w) : decide (bitsVal sgn a ≤ bitsVal sgn b) = !(if sgn then b.slt a else b.ult a) := by
  rw [← decide_bitsVal_lt, ← decide_not]
  exact decide_eq_decide.2 Int.not_lt.symm

end Compare

/-! ### Division -/

section Division
variable {w : Nat} (a b : BitVec w)

theorem bitsVal_eq_zero_iff (sgn : Bool) : bitsVal sgn a = 0 ↔ a = 0 := by
  cases sgn with
  | false => simp [bitsVal, ← BitVec.toNat_inj]
  | true => simp [bitsVal, ← BitVec.toInt_inj]

theorem ofInt_tdiv (sgn : Bool) : BitVec.ofInt w ((bitsVal sgn a).tdiv (bitsVal sgn b)) = if sgn then a.sdiv b else a / b := by
  cases sgn with
  | true => exact BitVec.toInt_inj.1 (by simp only [bitsVal, if_true, BitVec.toInt_sdiv, BitVec.toInt_ofInt])
  | false =>
    simp only [bitsVal, Bool.false_eq_true, if_false, ← Int.ofNat_tdiv, BitVec.ofInt_natCast, ← BitVec.toNat_udiv, BitVec.ofNat_toNat,
      BitVec.setWidth_eq]

theorem ofInt_tmod (sgn : Bool) : BitVec.ofInt w ((bitsVal sgn a).tmod (bitsVal sgn b)) = if sgn then a.srem b else a % b := by
  cases sgn with
  | true => simp only [bitsVal, if_true, ← BitVec.toInt_srem, BitVec.ofInt_toInt]
  | false =>
    simp only [bitsVal, Bool.false_eq_true, if_false, ← Int.ofNat_tmod, BitVec.ofInt_natCast, ← BitVec.toNat_umod, BitVec.ofNat_toNat,
      BitVec.setWidth_eq]

/-- The quotient of the least value by -1 is beyond the width. -/
def Overflows (sgn : Bool) : Prop := sgn = true ∧ a.toInt = -2 ^ (w - 1) ∧ b = BitVec.allOnes w

/-- The guard of DIV and REM: the divisor is not zero, and the quotient does not overflow. -/
def divides (sgn : Bool) : Bool := b != 0 && !(sgn && decide (a.toInt = -2 ^ (w - 1)) && b == BitVec.allOnes w)

theorem divides_iff (sgn : Bool) : divides a b sgn = true ↔ b ≠ 0 ∧ ¬ Overflows a b sgn := by
  simp only [divides, Overflows, Bool.and_eq_true, bne_iff_ne, ne_eq, Bool.not_eq_true', ← Bool.not_eq_true, beq_iff_eq, decide_eq_true_eq, and_assoc]

/-- The least value divided by -1 is itself again. -/
theorem sdiv_overflow (hw : 0 < w) (ha : a.toInt = -2 ^ (w - 1)) : a.sdiv (BitVec.allOnes w) = BitVec.ofInt w (-2 ^ (w - 1)) := by
  have hmin : a = BitVec.intMin w := BitVec.toInt_inj.1 (ha.trans (BitVec.toInt_intMin_of_pos hw).symm)
  rw [← ha, BitVec.ofInt_toInt, hmin, ← BitVec.neg_one_eq_allOnes, BitVec.intMin_sdiv_neg_one]

theorem toInt_eq_neg_one_iff (hw : 0 < w) : b.toInt = -1 ↔ b = BitVec.allOnes w := by
  rw [← BitVec.toInt_inj, BitVec.toInt_allOnes, if_pos hw]

theorem overflows_iff (hw : 0 < w) (sgn : Bool) : sgn = true ∧ bitsVal sgn a = intLo true w ∧ bitsVal sgn b = -1 ↔ Overflows a b sgn := by
  cases sgn with
  | false => simp [Overflows]
  | true => simp only [Overflows, bitsVal, if_true, toInt_eq_neg_one_iff b hw, intLo]

theorem srem_allOnes (hw : 0 < w) : a.srem (BitVec.allOnes w) = 0 := by
  rw [← BitVec.toInt_inj, BitVec.toInt_srem, (toInt_eq_neg_one_iff _ hw).2 rfl]
  simp

end Division

theorem resultOf_zero (sgn : Bool) (w : Nat) : resultOf sgn w 0 = 0 := by
  cases sgn <;> simp [resultOf_eq, bitsExt, BitVec.signExtend]

section Quotients
variable {w : Nat} (hw : 0 < w) (sgn : Bool) (x y : Word)
include hw

theorem divide_eq : divide sgn w x y = (bitsExt sgn (if sgn then (x.setWidth w).sdiv (y.setWidth w) else x.setWidth w / y.setWidth w),
    divides (x.setWidth w) (y.setWidth w) sgn) := by
  rw [← ofInt_tdiv, ← resultOf_eq]
  simp only [divide, valOf_eq, bitsVal_eq_zero_iff]
  generalize x.setWidth w = a
  generalize y.setWidth w = b
  by_cases hz : b = 0
  · have hno : divides a b sgn = false := Bool.eq_false_iff.2 fun h => ((divides_iff a b sgn).1 h).1 hz
    rw [if_pos hz, hno, (bitsVal_eq_zero_iff b sgn).2 hz, Int.tdiv_zero, resultOf_zero]
  · by_cases ho : Overflows a b sgn
    · have hno : divides a b sgn = false := Bool.eq_false_iff.2 fun h => ((divides_iff a b sgn).1 h).2 ho
      rw [if_neg hz, if_pos ((overflows_iff a b hw sgn).2 ho), hno]
      obtain ⟨rfl, ha, rfl⟩ := ho
      rw [resultOf_eq, resultOf_eq, ofInt_tdiv, if_pos rfl, sdiv_overflow a hw ha]
      rfl
    · rw [if_neg hz, if_neg (mt (overflows_iff a b hw sgn).1 ho), (divides_iff a b sgn).2 ⟨hz, ho⟩]

theorem remainder_eq : remainder sgn w x y = (bitsExt sgn (if sgn then (x.setWidth w).srem (y.setWidth w) else x.setWidth w % y.setWidth w),
    divides (x.setWidth w) (y.setWidth w) sgn) := by
  rw [← ofInt_tmod, ← resultOf_eq]
  simp only [remainder, valOf_eq, bitsVal_eq_zero_iff]
  generalize x.setWidth w = a
  generalize y.setWidth w = b
  by_cases hz : b = 0
  · have hno : divides a b sgn = false := Bool.eq_false_iff.2 fun h => ((divides_iff a b sgn).1 h).1 hz
    rw [if_pos hz, hno, (bitsVal_eq_zero_iff b sgn).2 hz, Int.tmod_zero]
  · by_cases ho : Overflows a b sgn
    · have hno : divides a b sgn = false := Bool.eq_false_iff.2 fun h => ((divides_iff a b sgn).1 h).2 ho
      rw [if_neg hz, if_pos ((overflows_iff a b hw sgn).2 ho), hno]
      obtain ⟨rfl, ha, rfl⟩ := ho
      rw [resultOf_eq, ofInt_tmod, if_pos rfl, srem_allOnes a hw]
      simp [bitsExt, BitVec.signExtend]
    · rw [if_neg hz, if_neg (mt (overflows_iff a b hw sgn).1 ho), (divides_iff a b sgn).2 ⟨hz, ho⟩]

end Quotients

/-- Settles O46: a comparison is one of W bits, and every division is by zero, beyond the width, or defined. -/
theorem compareAndDivideResults : Obligations.CompareAndDivideResults := by
  unfold Obligations.CompareAndDivideResults
  intro wid sgn x y
  refine ⟨?eq, ?ne, ?lt, ?le, ?gt, ?ge, ?none, ?any, divide_eq (widBits_pos wid) sgn x y, remainder_eq (widBits_pos wid) sgn x y⟩
  case eq => rw [cmpHolds_eq, Bool.beq_eq_decide_eq]
  case ne => rw [cmpHolds_ne, bne, Bool.beq_eq_decide_eq, decide_not]
  case lt => rw [cmpHolds_lt, decide_bitsVal_lt]
  case le => rw [cmpHolds_le, decide_bitsVal_le]
  case gt => rw [cmpHolds_gt, decide_bitsVal_lt]
  case ge => rw [cmpHolds_ge, decide_bitsVal_le]
  case none => rw [cmpHolds_none, Bool.beq_eq_decide_eq]
  case any => rw [cmpHolds_any, bne, Bool.beq_eq_decide_eq, decide_not]

end Sys2Proof.Machine
end

section
/-!
EXT, INS and LEA (R332, R361) bit by bit, and the counts of CLZ, CTZ and POPC (R319, R386).
-/
namespace Sys2Proof.Machine

/-! ### Fields -/

section Fields
variable {n : Nat} (a d : Word) (i p : Nat)

/-- The bits of a field of n bits, and above them its sign. -/
theorem getLsbD_extend (sgn : Bool) (x : Nat) (hn : 0 < n) (hi : i < 64) :
    (extend sgn n x).getLsbD i = if i < n then x.testBit i else sgn && x.testBit (n - 1) := by
  rw [extend_eq]
  cases sgn with
  | false => simp [bitsExt, hi, BitVec.getLsbD_ofNat]
  | true =>
    have hlast : n - 1 < n := by omega
    simp only [bitsExt, if_true, BitVec.getLsbD_signExtend, BitVec.msb_eq_getLsbD_last, BitVec.getLsbD_ofNat, hi, hlast, decide_true,
      Bool.true_and]
    split <;> simp [*]

theorem getLsbD_fieldMask (hi : i < 64) : (BitVec.ofNat 64 ((2 ^ n - 1) * 2 ^ p)).getLsbD i = decide (p ≤ i ∧ i < p + n) := by
  rw [BitVec.getLsbD_ofNat, Nat.testBit_mul_two_pow, Nat.testBit_two_pow_sub_one, decide_eq_true hi, Bool.true_and, ← Bool.decide_and]
  exact decide_eq_decide.2 (by omega)

theorem testBit_div : (a.toNat / 2 ^ p).testBit i = a.getLsbD (p + i) := by
  rw [Nat.testBit_div_two_pow, BitVec.testBit_toNat, Nat.add_comm]

end Fields

theorem extW_bit (sgn : Bool) (a pl : Word) {i : Nat} (hi : i < 64) : (extW sgn a pl).getLsbD i =
    if i < wfield pl 6 6 + 1 then a.getLsbD (wfield pl 0 6 + i) else sgn && a.getLsbD (wfield pl 0 6 + (wfield pl 6 6 + 1) - 1) := by
  rw [extW, getLsbD_extend i sgn _ (show 0 < lenOf pl from Nat.succ_pos _) hi, testBit_div, testBit_div]
  rfl

theorem insW_bit (d a pl : Word) {i : Nat} (hi : i < 64) : (insW d a pl).getLsbD i =
    if wfield pl 0 6 ≤ i ∧ i < wfield pl 0 6 + (wfield pl 6 6 + 1) then a.getLsbD (i - wfield pl 0 6) else d.getLsbD i := by
  simp only [insW, lenOf, posOf, BitVec.getLsbD_or, BitVec.getLsbD_and, BitVec.getLsbD_not, getLsbD_fieldMask _ _ hi, BitVec.getLsbD_ofNat,
    Nat.testBit_mul_two_pow, BitVec.testBit_toNat]
  by_cases h : wfield pl 0 6 ≤ i ∧ i < wfield pl 0 6 + (wfield pl 6 6 + 1)
  · simp [h, hi]
  · simp [h, hi]

theorem leaW_sum (sh : BitVec 2) (d a : Word) : leaW sh false d a = d + (a <<< sh.toNat) := by
  have hshift : BitVec.ofNat 64 (a.toNat * 2 ^ sh.toNat) = a <<< sh.toNat := BitVec.eq_of_toNat_eq (by simp [Nat.shiftLeft_eq])
  rw [← hshift]
  rfl

/-- Under .loc the sum is taken in OFFSET alone. -/
theorem leaW_loc (sh : BitVec 2) (d a : Word) :
    leaW sh true d a = (d.extractLsb' 23 41 ++ (leaW sh false d a).extractLsb' 0 23 : BitVec 64) := by
  have hmask : (0x7FFFFF : Word) = BitVec.ofNat 64 (2 ^ 23 - 1) := rfl
  simp only [leaW, Bool.false_eq_true, if_true, if_false]
  refine BitVec.eq_of_getLsbD_eq fun i hi => ?_
  rw [hmask]
  simp only [BitVec.getLsbD_append, BitVec.getLsbD_or, BitVec.getLsbD_and, BitVec.getLsbD_not, BitVec.getLsbD_ofNat, Nat.testBit_two_pow_sub_one,
    BitVec.getLsbD_extractLsb', hi]
  by_cases h : i < 23
  · simp [h]
  · have hin : i - 23 < 41 := by omega
    have hback : 23 + (i - 23) = i := by omega
    simp [h, hin, hback]

/-- Settles O47: each bit of a result is a bit of one source; EXT's and INS's field is a run of ones in its place. -/
theorem fieldResults : Obligations.FieldResults := by
  unfold Obligations.FieldResults
  intro d a pl sgn sh i
  exact ⟨extW_bit sgn a pl, insW_bit d a pl, leaW_sum sh d a, (leaW_loc sh d a).trans (by rw [leaW_sum])⟩

/-! ### Counts -/

theorem lt_two_pow_bitLen (v : Nat) : v < 2 ^ bitLen v := by
  unfold bitLen
  split
  · simp [*]
  · exact Nat.lt_log2_self

theorem two_pow_bitLen_le {v : Nat} (hv : v ≠ 0) : 2 ^ (bitLen v - 1) ≤ v := by
  rw [bitLen, if_neg hv]
  exact Nat.log2_self_le hv

theorem bitLen_le {v w : Nat} (hv : v < 2 ^ w) : bitLen v ≤ w := by
  unfold bitLen
  split
  · exact Nat.zero_le w
  · exact (Nat.log2_lt ‹_›).2 hv

theorem bitLen_pos {v : Nat} (h : 0 < bitLen v) : v ≠ 0 := by
  rintro rfl
  exact absurd h (by decide)

/-- The trailing zeros among n bits, and the 1 that ends them. -/
theorem ctzFrom_spec (n x : Nat) : ctzFrom x n ≤ n ∧ x % 2 ^ ctzFrom x n = 0 ∧ (ctzFrom x n < n → x.testBit (ctzFrom x n) = true) := by
  induction n generalizing x with
  | zero => simp [ctzFrom, Nat.mod_one]
  | succ n ih =>
    obtain ⟨hle, hzero, hone⟩ := ih (x / 2)
    unfold ctzFrom
    split
    · next hodd => exact ⟨Nat.zero_le _, Nat.mod_one x, fun _ => by rw [Nat.testBit_zero, hodd]; rfl⟩
    · next heven =>
      refine ⟨Nat.succ_le_succ hle, ?_, fun h => ?_⟩
      · rw [Nat.pow_succ', Nat.mod_mul, hzero]
        omega
      · rw [Nat.testBit_succ]
        exact hone (Nat.lt_of_succ_lt_succ h)

theorem popFrom_eq (n x : Nat) : popFrom x n = ((List.range n).filter x.testBit).length := by
  induction n generalizing x with
  | zero => rfl
  | succ n ih =>
    have htail : ((List.range n).map Nat.succ).filter x.testBit = ((List.range n).filter (x / 2).testBit).map Nat.succ := by
      simp only [List.filter_map, Function.comp_def, Nat.succ_eq_add_one, Nat.testBit_succ]
    rw [popFrom, ih, List.range_succ_eq_map, List.filter_cons, htail, Nat.testBit_zero]
    rcases Nat.mod_two_eq_zero_or_one x with h | h
    · simp [h]
    · simp [h, Nat.add_comm]

theorem popFrom_le (n x : Nat) : popFrom x n ≤ n := by
  rw [popFrom_eq]
  exact Nat.le_trans (List.length_filter_le _ _) (Nat.le_of_eq List.length_range)

theorem toNat_ofNat_count (wid : BitVec 2) {n : Nat} (h : n ≤ widBits wid) : (BitVec.ofNat 64 n).toNat = n := by
  have hwid := widBits_le wid
  rw [BitVec.toNat_ofNat, Nat.mod_eq_of_lt (by omega)]

/-- Settles O45: CLZ counts what is left above the highest 1, CTZ what stands below the lowest, and POPC adds the bits up. -/
theorem bitCounts : Obligations.BitCounts := by
  unfold Obligations.BitCounts
  intro wid x
  have hlt : x.toNat % 2 ^ widBits wid < 2 ^ widBits wid := Nat.mod_lt _ (Nat.two_pow_pos _)
  have hlen := bitLen_le hlt
  obtain ⟨hctz, hzeros, hone⟩ := ctzFrom_spec (widBits wid) (x.toNat % 2 ^ widBits wid)
  simp only [clzW, ctzW, popW, toNat_ofNat_count wid (Nat.sub_le _ (bitLen _)), toNat_ofNat_count wid hctz, toNat_ofNat_count wid (popFrom_le _ _)]
  refine ⟨Nat.sub_le _ _, ?below, fun hsome => ?reached, hctz, hzeros, hone, ?ones⟩
  case below =>
    rw [Nat.sub_sub_self hlen]
    exact lt_two_pow_bitLen _
  case reached =>
    have hpos : 0 < bitLen (x.toNat % 2 ^ widBits wid) := by omega
    rw [Nat.sub_right_comm, Nat.sub_sub_self hlen]
    exact two_pow_bitLen_le (bitLen_pos hpos)
  case ones =>
    rw [popFrom_eq]
    refine congrArg List.length (List.filter_congr fun i hi => ?_)
    rw [Nat.testBit_mod_two_pow, decide_eq_true (List.mem_range.1 hi), Bool.true_and, BitVec.testBit_toNat]

end Sys2Proof.Machine
end

section
/-!
Class 0 completes (R310, R320, R332, R361 to R364, R381, R386, R395, R396): each instruction is one of two sources, of one source, or a row of
stages of its own; and CMP's guard and frame.
-/
namespace Sys2Proof.Machine

/-! ### Instructions of one and of two sources -/

section Results
variable {h : Hdr} {t : ThreadId} {th : Thread} {s s0 s1 s2 : State} {d a : Opnd} {b : Src} {x y : Word}

theorem alu2_retires {f : Word → Word → Word} (hi : Issues h t th s s0) (hread : Runs (rd2 h a b [d]) s0 (x, y) s1)
    (hwrite : Runs (wrOpnd d (f x y)) s1 () s2) : alu2 h d a b f s = retired t h .seq s2 := issueSeq_runs hi (Runs.bind hread hwrite)

theorem alu1_retires {f : Word → Word} (hi : Issues h t th s s0) (hread : Runs (rd1 h a [d]) s0 x s1) (hwrite : Runs (wrOpnd d (f x)) s1 () s2) :
    alu1 h d a f s = retired t h .seq s2 := issueSeq_runs hi (Runs.bind hread hwrite)

theorem cmp_retires {gd : BitVec 3} {wid : BitVec 2} {sgn : Bool} {cond : BitVec 4} (hi : Issues h t th s s0) (hread : Runs (rd2 h a b) s0 (x, y) s1)
    (hset : Runs (setGuard gd (cmpHolds cond.toNat sgn (widBits wid) x y)) s1 () s2) :
    exec (.cmp h gd a b wid sgn cond) s = retired t h .seq s2 := issueSeq_runs hi (Runs.bind hread hset)

end Results

/-- Settles O1: the instructions of two sources and of one differ in their function alone; the others are their stages in a row. -/
theorem integerInstructionsComplete : Obligations.IntegerInstructionsComplete := by
  unfold Obligations.IntegerInstructionsComplete
  refine ⟨?sources, ?others⟩
  case sources =>
    intro h t th s s0 s1 s2 d a b r x y wid sh sgn sat hi loc hissues
    have two := fun f hread hwrite => alu2_retires (d := d) (a := a) (b := b) (x := x) (y := y) (s1 := s1) (s2 := s2) (f := f) hissues hread hwrite
    exact ⟨fun hread => ⟨two (addW wid sgn sat) hread, two (subW wid sgn sat) hread, two (mulW wid sgn sat hi) hread, two (bitwiseW (· &&& ·) wid sgn) hread,
      two (bitwiseW (fun p q => p &&& ~~~q) wid sgn) hread, two (bitwiseW (· ||| ·) wid sgn) hread, two (bitwiseW (· ^^^ ·) wid sgn) hread,
      two (shlW wid sgn) hread, two (shrW wid sgn) hread, two (rotW wid) hread, two (minW wid sgn) hread, two (maxW wid sgn) hread,
      two (leaW sh loc) hread⟩, alu2_retires (f := extW sgn) hissues⟩
  case others =>
    intro h t th s s0 s1 s2 s3 d a b r x y z wid sgn inv g gd sg cond imm hi
    refine ⟨alu1_retires (f := clzW wid) hi, alu1_retires (f := ctzW wid) hi, alu1_retires (f := popW wid) hi, cmp_retires hi, ?sel, ?ins, ?movi,
      ?movh⟩
    case sel => exact fun hguard hread hwrite => issueSeq_runs hi (Runs.bind hguard (Runs.bind hread hwrite))
    case ins =>
      intro hread hold hwrite
      obtain ⟨_, _, hcheck, hread⟩ := Runs.split hread
      exact issueSeq_runs hi (Runs.bind hcheck (Runs.bind hread (Runs.bind hold hwrite)))
    case movi => exact fun hwrite => issueSeq_runs hi hwrite
    case movh =>
      intro hread hwrite
      obtain ⟨_, _, hcheck, hread⟩ := Runs.split hread
      exact issueSeq_runs hi (Runs.bind hcheck (Runs.bind hread hwrite))

/-! ### CMP's guard -/

theorem Fails.not_runs {α : Type} {m : Exec α} {s s1 s2 : State} {e : Stop} {a : α} (hf : Fails m s e s1) : ¬ Runs m s a s2 := by
  intro hr
  simp only [Fails, Runs] at hf hr
  rw [hf] at hr
  cases hr

section Guard
variable {s s' : State} {t : ThreadId} {th : Thread}

theorem rdWin_poisoned {off n : Nat} (hc : s.cur = .thread t) (ht : s.thread? t = some th)
    (hp : winPoisoned s t th.ctl.slice th.ctl.wsp off n = true) :
    Fails (rdWin off n) s (.trap (mkTrap 11 (winLocal th.ctl.wsp off).toNat 0)) s := by
  refine Fails.bind (Runs.me hc) (Fails.bind (Runs.ctl hc ht) (Fails.bind (Runs.get s) ?_))
  simp only [hp, if_true]
  exact Fails.first (Fails.throw _ s)

/-- A read of the window gives what stands there, where it is not poisoned. -/
theorem rdWin_runs_iff {off n v : Nat} (hc : s.cur = .thread t) (ht : s.thread? t = some th) : Runs (rdWin off n) s v s' ↔
    winPoisoned s t th.ctl.slice th.ctl.wsp off n = false ∧ v = threadRead s t th.ctl th.ctl.wsp off n ∧ s' = s := by
  refine ⟨fun hr => ?_, fun ⟨hp, hv, hs⟩ => hv ▸ hs ▸ Runs.rdWin hc ht hp⟩
  cases hp : winPoisoned s t th.ctl.slice th.ctl.wsp off n with
  | false => exact ⟨rfl, hr.unique (Runs.rdWin hc ht hp)⟩
  | true => exact absurd hr (rdWin_poisoned hc ht hp).not_runs

/-- A guard but g0 that is set stands in its bit of GUARDS. -/
theorem setGuard_reads {gd : BitVec 3} {g : Bool} (hc : s.cur = .thread t) (ht : s.thread? t = some th) (hgd : gd ≠ 0)
    (hr : Runs (setGuard gd g) s () s') : threadRead s' t th.ctl th.ctl.wsp offGuards 1 =
      putBit (threadRead s t th.ctl th.ctl.wsp offGuards 1) gd.toNat g % 256 := by
  have hn : gd.toNat ≠ 0 := fun h => hgd (BitVec.eq_of_toNat_eq (by simpa using h))
  unfold setGuard wrGuard at hr
  rw [if_neg hn] at hr
  obtain ⟨v, s1, hread, hwrite⟩ := Runs.split hr
  obtain ⟨_, rfl, rfl⟩ := (rdWin_runs_iff hc ht).1 hread
  obtain ⟨_, rfl⟩ := hwrite.unique (Runs.wrWin hc ht _ _ _)
  exact threadRead_same rfl _ (by decide)

end Guard

theorem cmp_legal {h : Hdr} {gd : BitVec 3} {o : Opnd} {src : Src} {wid : BitVec 2} {sgn : Bool} {cond : BitVec 4}
    (hw : (Instr.cmp h gd o src wid sgn cond).wellFormed = true) : cond.toNat < 8 ∧ (sgn = true → 2 ≤ cond.toNat ∧ cond.toNat ≤ 5) := by
  obtain ⟨hword, _⟩ := Bool.and_eq_true_iff.1 hw
  have hfields : (o.isScalarSrc && src.anyForm Opnd.isScalarSrc && decide (cond.toNat < 8) &&
    (!sgn || (decide (2 ≤ cond.toNat) && decide (cond.toNat ≤ 5)))) = true := (Bool.and_eq_true_iff.1 hword).1
  simp only [Bool.and_eq_true, decide_eq_true_eq, Bool.or_eq_true, Bool.not_eq_true'] at hfields
  obtain ⟨⟨_, hcond⟩, hsgn⟩ := hfields
  exact ⟨hcond, fun h => hsgn.resolve_left (by simp [h])⟩

/-- Settles O57: the guard is the comparison of W bits that COND names, and setting it writes GUARDS alone. -/
theorem compareSetsItsGuard : Obligations.CompareSetsItsGuard := by
  unfold Obligations.CompareSetsItsGuard
  intro h gd o src wid sgn cond
  refine ⟨cmp_legal, fun t th th1 s s0 s1 s2 x y g => ?_⟩
  intro a b val hcond hg hi hread hc ht hset
  have hholds : g = cmpHolds cond.toNat sgn (widBits wid) x y := by
    rw [hg]
    generalize cond.toNat = k at hcond
    match k, hcond with
    | 0, _ => exact (cmpHolds_eq sgn x y).symm
    | 1, _ => exact (cmpHolds_ne sgn x y).symm
    | 2, _ => exact (cmpHolds_lt sgn x y).symm
    | 3, _ => exact (cmpHolds_le sgn x y).symm
    | 4, _ => exact (cmpHolds_gt sgn x y).symm
    | 5, _ => exact (cmpHolds_ge sgn x y).symm
    | 6, _ => exact (cmpHolds_none sgn x y).symm
    | 7, _ => exact (cmpHolds_any sgn x y).symm
    | k + 8, hcond => exact absurd hcond (Nat.not_lt.2 (Nat.le_add_left 8 k))
  exact ⟨cmp_retires hi hread (hholds ▸ hset), setGuard_changes hc ht hset, fun hgd _ => setGuard_reads hc ht hgd hset⟩

end Sys2Proof.Machine
end

section
/-!
The divider (R329, R330, R389), MOV between every legal pair of places (R363), NOP and the guard instructions (R343, R365), and CSRR and CSRW
(R97, R324): what each issues where its stages complete.
-/
namespace Sys2Proof.Machine

/-! ### The divider -/

section Divider
variable {h : Hdr} {t : ThreadId} {th th1 : Thread} {s s0 s1 : State} {a : Opnd} {b : Src} {d : Reg} {gd : BitVec 3} {x y : Word}

/-- An operation enters the divider where it has room and nothing under way will write the same register or guard (R330). -/
theorem enterDiv_runs {regs : List (Nat × Word)} {g : Nat × Bool} {fl : Nat} (hc : s.cur = .thread t) (ht : s.thread? t = some th)
    (hroom : (s.core t.core).div.length < 2) (hfree : unitBusyFor s t th.ctl.wsp (regs.map (·.1)) g.1 = false) :
    Runs (enterDiv regs (some g) fl) s () (({ s with opId := s.opId + 1 } : State).modCore t.core fun r =>
      { r with div := r.div ++ [⟨s.opId, t, th.ctl.slice, th.ctl.wsp, regs, some g, fl, t.core.pkg⟩] }) := by
  refine Runs.bind (Runs.me hc) (Runs.bind (Runs.ctl hc ht) (Runs.bind (Runs.get s) ?_))
  have hready : ((s.core t.core).div.length ≥ 2 || unitBusyFor s t th.ctl.wsp (regs.map (·.1)) g.1) = false := by
    rw [hfree, Bool.or_false, decide_eq_false (Nat.not_le.2 hroom)]
  simp only [Option.map_some, Option.getD_some, hready, Bool.false_eq_true, if_false]
  exact Runs.bind (Runs.newOp s) (Runs.modify _ _)

theorem divLike_retires {f : Word → Word → Word × Bool} (hi : Issues h t th s s0) (hread : Runs (rd2 h a b) s0 (x, y) s1) (hc : s1.cur = .thread t)
    (ht : s1.thread? t = some th1) (hroom : (s1.core t.core).div.length < 2)
    (hfree : unitBusyFor s1 t th1.ctl.wsp [d.val] gd.toNat = false) : divLike h gd d a b f s = retired t h .seq
      (({ s1 with opId := s1.opId + 1 } : State).modCore t.core fun r =>
        { r with div := r.div ++ [⟨s1.opId, t, th1.ctl.slice, th1.ctl.wsp, [(d.val, (f x y).1)], some (gd.toNat, (f x y).2), 0, t.core.pkg⟩] }) :=
  issueSeq_runs hi (Runs.bind hread (enterDiv_runs hc ht hroom hfree))

end Divider

theorem dividerOpComplete_completes {s : State} {c : CoreId} {k : Nat} {o : LongOp} (ho : (s.core c).div[k]? = some o) :
    exec (.dividerOpComplete c k) s = .next (completeOp (s.modCore c fun r => { r with div := dropAt r.div k }) o) := by
  have hexec : exec (.dividerOpComplete c k) s = execDividerOpComplete c k s := rfl
  rw [hexec, execDividerOpComplete, ho]

/-! ### MOV -/

/-- MOV to a scalar place. -/
theorem mov_scalar {h : Hdr} {t : ThreadId} {th : Thread} {s s0 s1 s2 : State} {d a : Opnd} {x : Word} (hi : Issues h t th s s0) (hv : ∀ n, d ≠ .v n)
    (hm : ∀ n, d ≠ .m n) (hacc : ∀ n, d ≠ .acc n) (hread : Runs (rd1 h a [d]) s0 x s1) (hwrite : Runs (wrOpnd d x) s1 () s2) :
    exec (.mov h d a) s = retired t h .seq s2 := by
  have hexec : exec (.mov h d a) s = issueSeq h (do let v ← rd1 h a [d]; wrOpnd d v) s := by
    cases d with
    | v n => exact absurd rfl (hv n)
    | m n => exact absurd rfl (hm n)
    | acc n => exact absurd rfl (hacc n)
    | _ => rfl
  rw [hexec]
  exact issueSeq_runs hi (Runs.bind hread hwrite)

/-- A copy of an accumulator enters the matrix engine's queue where it has room. -/
theorem mov_acc {h : Hdr} {t : ThreadId} {th : Thread} {s s0 s1 : State} {d a : Fin 4} {i j : AccId} {tag : Nat} (hi : Issues h t th s s0)
    (hd : Runs (accOf d) s0 i s0) (ha : Runs (accOf a) s0 j s0) (hroom : matFull s0 t = false) (htag : Runs (accTag j false) s0 tag s0)
    (hend : Runs (do noteTag i tag; enqueueMat (.copy i j)) s0 () s1) : exec (.mov h (.acc d) (.acc a)) s = retired t h .seq s1 := by
  refine issueSeq_runs hi (Runs.bind hd (Runs.bind ha (Runs.bind (Runs.get s0) (Runs.bind (Runs.me hi.cur) ?_))))
  rw [hroom]
  exact Runs.bind htag hend

/-- Settles O2: what enters the divider is completed later; each pair of places is its stages in a row. -/
theorem divisionAndMovComplete : Obligations.DivisionAndMovComplete := by
  unfold Obligations.DivisionAndMovComplete
  refine ⟨?divisions, ?moves, fun s c k o => dividerOpComplete_completes⟩
  case divisions =>
    intro h t th th1 s s0 s1 a b d gd x y wid sgn hi hread hc ht hroom hfree
    exact ⟨divLike_retires (f := divide sgn (widBits wid)) hi hread hc ht hroom hfree,
      divLike_retires (f := remainder sgn (widBits wid)) hi hread hc ht hroom hfree⟩
  case moves =>
    intro h t th s s0 s1 s2 s3 d a vd va md ma ad aa x k tag bits j i1 i2 hi
    exact ⟨mov_scalar hi, fun ha htag hbits hd hwrite => issueSeq_runs hi (Runs.bind ha (Runs.bind htag (Runs.bind hbits (Runs.bind hd hwrite)))),
      fun hd hwrite => issueSeq_runs hi (Runs.bind hd hwrite), fun hd hwrite => issueSeq_runs hi (Runs.bind hd hwrite),
      fun ha hwrite => issueSeq_runs hi (Runs.bind ha hwrite), fun hwrite => issueSeq_runs hi hwrite, fun hwrite => issueSeq_runs hi hwrite,
      mov_acc hi⟩

/-- Settles O5: each instruction is its stages in a row. -/
theorem guardsAndControlRegistersComplete : Obligations.GuardsAndControlRegistersComplete := by
  unfold Obligations.GuardsAndControlRegistersComplete
  refine ⟨?guards, ?registers⟩
  case guards =>
    intro h t th s s0 s1 s2 a r x n gd ga gb ia ib p q op hi
    refine ⟨issueSeq_runs hi (Runs.pure () s0), fun hread hset => issueSeq_runs hi (Runs.bind (Runs.map hread) hset),
      fun hset => issueSeq_runs hi hset, fun hset => issueSeq_runs hi hset,
      fun hsettled hbits hwrite => issueSeq_runs hi (Runs.bind hsettled (Runs.bind hbits hwrite)),
      fun hread hwrite => issueSeq_runs hi (Runs.bind hread hwrite), fun ha hb hset => issueSeq_runs hi (Runs.bind ha (Runs.bind hb hset))⟩
  case registers =>
    intro h t th s s0 s1 s2 a r x n hi
    refine ⟨fun hread hwrite => issueSeq_runs hi (Runs.bind hread hwrite), fun hrep hmay hread hwrite => issueSeq_runs hi ?_⟩
    refine Runs.bind (Runs.ctl hi.cur hi.live) ?_
    simp only [hrep, hmay, Option.isSome_none, Bool.not_true, Bool.false_eq_true, if_false]
    exact Runs.bind hread hwrite

end Sys2Proof.Machine
end

section
/-!
What a turn of the device does besides a thread's (R276, R325), and where LD and ST trap at an address (R357, R398).
-/
namespace Sys2Proof.Machine

/-! ### The turns of Carders, of units and of time -/

theorem turnCarder_word {s : State} {d : DieId} {pipe : Nat} {r : CdRun} {w : BitVec 32} {i : Instr} (hrun : (tget (s.die d).pipes pipe .reset).run = some r)
    (hword : (tget (s.die d).fslots r.slot .reset).prog[r.idx]? = some w) (hdec : decodeCarder w = some i) :
    turnCarder d pipe s = exec i { s with cur := .carder d pipe } := by
  have hdie : ({ s with cur := .carder d pipe } : State).die d = s.die d := rfl
  simp only [turnCarder, hdie, hrun, hword, hdec]

/-- Settles O43: the first turn of the agenda is the step. That a turn which only passes time moves the two clocks as the agenda gives it, and notes
the busy slices and the cores with a ready thread, is the model's choice (log entries 1 and 128). -/
theorem stepRunsCarderAndUnits : Obligations.StepRunsCarderAndUnits := by
  unfold Obligations.StepRunsCarderAndUnits
  intro s d pipe rest r w i ev ac ns
  refine ⟨fun hagenda hrun hword hdec => ?carder, fun hagenda => ?unit, fun hagenda => ?pass⟩
  case carder =>
    have hturn := turnCarder_word (s := { s with agenda := rest }) hrun hword hdec
    simp only [step, hagenda, runTurn, hturn]
  case unit => simp only [step, hagenda, runTurn]
  case pass =>
    refine ⟨passTime ac ns { s with agenda := rest }, ?_, rfl, rfl, rfl, rfl, rfl, rfl, rfl, rfl, rfl⟩
    simp only [step, hagenda, runTurn]

/-! ### The traps of LD and ST -/

/-- What fails past a check that passes. -/
theorem Fails.passes {α : Type} {p : Prop} [Decidable p] {stop rest : Exec α} {s s1 : State} {e : Stop} (hp : ¬ p) (hrest : Fails rest s e s1) :
    Fails (if p then stop else rest) s e s1 := by
  rwa [if_neg hp]

/-- What fails in the branch that a condition which holds chooses. -/
theorem Fails.chosen {α : Type} {p : Prop} [Decidable p] {m other : Exec α} {s s1 : State} {e : Stop} (hp : p) (hm : Fails m s e s1) :
    Fails (if p then m else other) s e s1 := by
  rwa [if_pos hp]

section PlainAddress
variable {h : Hdr} {t : ThreadId} {th : Thread} {s s0 s1 : State} {a : Word} {n : Nat} {nd : Need}

theorem plainAddr_nonCanonical (hcanon : wfield a 52 12 ≠ 0) (s : State) : Fails (plainAddr a n nd) s (.trap (mkTrap 4 a.toNat 4)) s :=
  Fails.chosen hcanon (Fails.first (Fails.throw _ s))

theorem plainAddr_misaligned (hcanon : wfield a 52 12 = 0) (halign : a.toNat % n ≠ 0) (s : State) :
    Fails (plainAddr a n nd) s (.trap (mkTrap 6 a.toNat 0)) s :=
  Fails.passes (fun h => h hcanon) (Fails.chosen halign (Fails.first (m := alignTrap a) (Fails.throw _ s)))

end PlainAddress

/-- Settles O36: both take their address first, and its check fails before anything is read or written. -/
theorem plainAddressTraps : Obligations.PlainAddressTraps := by
  unfold Obligations.PlainAddressTraps
  intro h t th s s0 s1 d src b x a ord sz scope sgn hi
  refine ⟨fun haddr => ⟨fun hcanon => ?_, fun hcanon halign => ?_⟩, fun haddr => ?store⟩
  · exact issueSeq_traps hi (Fails.bind haddr (Fails.first (plainAddr_nonCanonical hcanon s1)))
  · exact issueSeq_traps hi (Fails.bind haddr (Fails.first (plainAddr_misaligned hcanon halign s1)))
  case store =>
    obtain ⟨_, _, hwait, hbase⟩ := Runs.split haddr
    exact ⟨fun hcanon => issueSeq_traps hi (Fails.bind hwait (Fails.bind hbase (Fails.first (plainAddr_nonCanonical hcanon s1)))),
      fun hcanon halign => issueSeq_traps hi (Fails.bind hwait (Fails.bind hbase (Fails.first (plainAddr_misaligned hcanon halign s1))))⟩

end Sys2Proof.Machine
end

section
/-!
NOP (R365): its word, its turn, and that it never pairs.
-/
namespace Sys2Proof.Machine

/-! ### The word of NOP -/

/-- A NOP whose word is legal has no hint and no circular buffer (R85, R89). -/
theorem nop_legal {h : Hdr} (hw : (Instr.nop h).wellFormed = true) : h.hint = 0 ∧ h.cbf = 0 := by
  obtain ⟨hword, hcbf⟩ := Bool.and_eq_true_iff.1 hw
  have hhint : (h.hint == 0 || (h.hint.toNat ≤ 4 && false)) = true := (Bool.and_eq_true_iff.1 hword).2
  have hcbf' : (h.cbf == 0 || false) = true := hcbf
  simpa using And.intro hhint hcbf'

theorem nop_wellFormed {h : Hdr} (hhint : h.hint = 0) (hcbf : h.cbf = 0) : (Instr.nop h).wellFormed = true := by
  refine Bool.and_eq_true_iff.2 ⟨Bool.and_eq_true_iff.2 ⟨rfl, ?_⟩, ?_⟩
  · exact Bool.or_eq_true_iff.2 (.inl (beq_iff_eq.2 hhint))
  · exact Bool.or_eq_true_iff.2 (.inl (beq_iff_eq.2 hcbf))

/-- The fields of a NOP's word, all of them below bit 30. -/
theorem encode_nop {h : Hdr} (hhint : h.hint = 0) (hcbf : h.cbf = 0) : encode (.nop h) = pack [(10, 0x80), (3, 0), (4, h.ga.toNat), (4, h.gb.toNat),
    (1, bit h.gc), (1, bit h.ya), (1, bit h.eog), (1, bit h.wait.isSome), (2, (h.wait.map (·.cls.toNat)).getD 0),
    (3, (h.wait.map (·.cnt.toNat)).getD 0)] := by
  have hraw : encode (.nop h) = (rawR h 0x80 0 0 0 0 0 0).toNat := rfl
  refine hraw.trans ?_
  have hhint' : h.hint.toNat = 0 := congrArg BitVec.toNat hhint
  have hcbf' : h.cbf.toNat = 0 := congrArg BitVec.toNat hcbf
  have hgd : 0 + qGd 0 0 = 0 := rfl
  simp only [Raw.toNat, rawR, hgd, Hdr.fields, formWidths, hhint', hcbf', Option.getD_some, List.zip, List.zipWith, List.cons_append, List.nil_append, pack,
    Nat.mul_zero, Nat.add_zero]

theorem bit_le_one (b : Bool) : bit b ≤ 1 := by cases b <;> decide

theorem encode_nop_lt {h : Hdr} (hhint : h.hint = 0) (hcbf : h.cbf = 0) : encode (.nop h) < 2 ^ 30 := by
  have hbits := And.intro (bit_le_one h.gc) (And.intro (bit_le_one h.ya) (And.intro (bit_le_one h.eog) (bit_le_one h.wait.isSome)))
  have hga := h.ga.isLt
  have hgb := h.gb.isLt
  have hcls : (h.wait.map (·.cls.toNat)).getD 0 < 4 := by
    cases h.wait with
    | none => exact Nat.zero_lt_succ _
    | some w => exact w.cls.isLt
  have hcnt : (h.wait.map (·.cnt.toNat)).getD 0 < 8 := by
    cases h.wait with
    | none => exact Nat.zero_lt_succ _
    | some w => exact w.cnt.isLt
  have hn := encode_nop hhint hcbf
  generalize encode (.nop h) = n at hn ⊢
  simp only [pack] at hn
  omega

/-- A word of opcode 0x080 reads as NOP in form 0 alone. -/
theorem parse_nop (h : Hdr) (form : Nat) (f : List Nat) : parse h 0x80 form f = if form = 0 then some (.nop h) else none := by
  have hparse : parse h 0x80 form f = parseC2 h 0x80 form f := rfl
  rw [hparse]
  cases form with
  | zero => rfl
  | succ n => rfl

/-- What a word of opcode 0x080 decodes to: in form 0 the NOP of its common fields, where that is legal and has no other bit set. -/
theorem decode_nop {w : IWord} (hop : w.toNat % 2 ^ 10 = 0x80) : (field w.toNat 10 3 ≠ 0 → ∀ i, decode w ≠ .ok i) ∧
    (field w.toNat 10 3 = 0 → decode w = if (Instr.nop (hdrOf w.toNat)).wellFormed && encode (.nop (hdrOf w.toNat)) == w.toNat then
      .ok (.nop (hdrOf w.toNat)) else .bad (.fields 0x80 0)) := by
  have hw : w.toNat % 2 ^ 96 = w.toNat := Nat.mod_eq_of_lt w.isLt
  have hassigned : opcodeAssigned 0x80 = true := rfl
  refine ⟨fun hform i => ?_, fun hform => ?_⟩
  · simp only [decode, hop, hassigned, parse_nop, Bool.not_true, Bool.false_eq_true, if_false, if_neg hform]
    cases formWidths (field w.toNat 10 3) <;> exact Decoded.noConfusion
  · simp only [decode, hop, hw, hassigned, parse_nop, Bool.not_true, Bool.false_eq_true, if_false, hform, formWidths, if_true]

theorem bit_false : bit false = 0 := rfl
theorem bit_true : bit true = 1 := rfl

theorem testBit_of_div {n k : Nat} {b : Bool} (h : n / 2 ^ k % 2 = bit b) : n.testBit k = b := by
  rw [Nat.testBit_eq_decide_div_mod_eq, h]
  cases b <;> rfl

theorem ofNat_of_div {n k w : Nat} {v : BitVec w} (h : n / 2 ^ k % 2 ^ w = v.toNat) : BitVec.ofNat w (n / 2 ^ k) = v :=
  BitVec.eq_of_toNat_eq ((BitVec.toNat_ofNat _ _).trans h)

/-- The common fields that the word of a NOP holds. -/
theorem hdrOf_encode_nop {h : Hdr} (hhint : h.hint = 0) (hcbf : h.cbf = 0) : hdrOf (encode (.nop h)) = h := by
  have hn := encode_nop hhint hcbf
  generalize encode (.nop h) = n at hn ⊢
  obtain ⟨ga, gb, gc, ya, eog, wt, hint, cbf⟩ := h
  dsimp only at hhint hcbf
  subst hhint hcbf
  simp only [pack] at hn
  have hga := ga.isLt
  have hgb := gb.isLt
  have hbits := And.intro (bit_le_one gc) (And.intro (bit_le_one ya) (bit_le_one eog))
  have hga : BitVec.ofNat 4 (n / 2 ^ 13) = ga := ofNat_of_div (by omega)
  have hgb : BitVec.ofNat 4 (n / 2 ^ 17) = gb := ofNat_of_div (by omega)
  have hgc : n.testBit 21 = gc := testBit_of_div (by omega)
  have hya : n.testBit 22 = ya := testBit_of_div (by omega)
  have heog : n.testBit 23 = eog := testBit_of_div (by omega)
  cases wt with
  | none =>
    simp only [Option.isSome_none, Option.map_none, Option.getD_none, bit_false] at hn
    have hwait : n.testBit 24 = false := testBit_of_div (by rw [bit_false]; omega)
    have hhint : BitVec.ofNat 4 (n / 2 ^ 30) = 0#4 := ofNat_of_div (by rw [BitVec.toNat_ofNat]; omega)
    have hcbf : BitVec.ofNat 3 (n / 2 ^ 93) = 0#3 := ofNat_of_div (by rw [BitVec.toNat_ofNat]; omega)
    simp only [hdrOf, hga, hgb, hgc, hya, heog, hwait, hhint, hcbf, Bool.false_eq_true, if_false]
    rfl
  | some w =>
    obtain ⟨cls, cnt⟩ := w
    have hlt := And.intro cls.isLt cnt.isLt
    simp only [Option.isSome_some, Option.map_some, Option.getD_some, bit_true] at hn
    have hwait : n.testBit 24 = true := testBit_of_div (by rw [bit_true]; omega)
    have hcls : BitVec.ofNat 2 (n / 2 ^ 25) = cls := ofNat_of_div (by omega)
    have hcnt : BitVec.ofNat 3 (n / 2 ^ 27) = cnt := ofNat_of_div (by omega)
    have hhint : BitVec.ofNat 4 (n / 2 ^ 30) = 0#4 := ofNat_of_div (by rw [BitVec.toNat_ofNat]; omega)
    have hcbf : BitVec.ofNat 3 (n / 2 ^ 93) = 0#3 := ofNat_of_div (by rw [BitVec.toNat_ofNat]; omega)
    simp only [hdrOf, hga, hgb, hgc, hya, heog, hwait, hhint, hcbf, hcls, hcnt, if_true]
    rfl

theorem encode_nop_low {h : Hdr} (hhint : h.hint = 0) (hcbf : h.cbf = 0) : encode (.nop h) % 2 ^ 13 = 0x80 := by
  have hn := encode_nop hhint hcbf
  generalize encode (.nop h) = n at hn ⊢
  simp only [pack] at hn
  omega

theorem decode_encode_nop {h : Hdr} (hhint : h.hint = 0) (hcbf : h.cbf = 0) : decode (BitVec.ofNat 96 (encode (.nop h))) = .ok (.nop h) := by
  have hlow := encode_nop_low hhint hcbf
  have hlt := encode_nop_lt hhint hcbf
  have hw : (BitVec.ofNat 96 (encode (.nop h))).toNat = encode (.nop h) := by
    rw [BitVec.toNat_ofNat]
    exact Nat.mod_eq_of_lt (by omega)
  have hread := (decode_nop (w := BitVec.ofNat 96 (encode (.nop h))) (by rw [hw]; omega)).2 (by rw [hw, field]; omega)
  rw [hread, hw, hdrOf_encode_nop hhint hcbf, nop_wellFormed hhint hcbf, beq_self_eq_true]
  rfl

/-- Settles O56: a word of opcode 0x080 is a NOP with nothing beside the common fields, and NOP's issue does nothing but retire. -/
theorem nopTakesItsTurn : Obligations.NopTakesItsTurn := by
  unfold Obligations.NopTakesItsTurn
  refine ⟨fun w i hop hdec => ?words, fun g g' gc ya eog wt => ?roundTrip, fun h t th s s0 hi => ?turn, fun h w t th s hwait hcur hth hmany => ?wait,
    fun h t th s s0 r hi heog hrep hafter => ?body, fun h j => ?pairs⟩
  case words =>
    by_cases hform : field w.toNat 10 3 = 0
    · rw [(decode_nop hop).2 hform] at hdec
      split at hdec
      · next hok =>
        obtain ⟨hlegal, henc⟩ := Bool.and_eq_true_iff.1 hok
        obtain ⟨hhint, hcbf⟩ := nop_legal hlegal
        have hlt := encode_nop_lt hhint hcbf
        rw [beq_iff_eq.1 henc] at hlt
        have hform' : wfield (w.extractLsb' 10 64) 0 3 = 0 := by
          simp only [wfield, field, BitVec.extractLsb'_toNat, Nat.shiftRight_eq_div_pow] at hform ⊢
          omega
        exact ⟨hform', Nat.div_eq_of_lt hlt, _, (Decoded.ok.inj hdec).symm⟩
      · exact Decoded.noConfusion hdec
    · exact absurd hdec ((decode_nop hop).1 hform i)
  case roundTrip =>
    exact decode_encode_nop rfl rfl
  case turn => exact issueSeq_runs hi (Runs.pure () s0)
  case wait => exact issue_held hcur hth hwait hmany
  case body =>
    have hretire : exec (.nop h) s = retired t h .seq s0 := issueSeq_runs hi (Runs.pure () s0)
    rw [hretire]
    simp only [retired, retire, hi.live, hrep, heog, hafter, if_true, Option.isSome_none, Bool.false_eq_true, if_false]
  case pairs => 
    have hnone : (Instr.nop h).uses? = none := rfl
    simp only [pairs, hnone]
    exact ⟨trivial, by cases j.uses? <;> rfl⟩

end Sys2Proof.Machine
end

section
/-!
The Carder's words (R279 to R283): each answers what `cdIssue` gives for its result, or for its effect on an object that is valid.
-/
namespace Sys2Proof.Machine

section Words
variable {s s' : State} {d : DieId} {p : Nat} {r : CdRun} {i : Instr} {n : CdNext} (hc : s.cur = .carder d p) (hr : (s.pipe d p).run = some r)
include hc hr

/-- A word of two registers writes its function of them. -/
theorem cdOp2_on (f : BitVec 32 → BitVec 32 → BitVec 32) (c a b : BitVec 4) :
    cdOp2 f c a b s = .next (cdGo d p { r with used := r.used + 1 } .next (cdSetReg s d r c (f (cdReg s d r a) (cdReg s d r b)))) :=
  cdIssue_on hc hr

/-- A word of a register and an immediate writes its function of them. -/
theorem cdOpI_on (f : BitVec 32 → BitVec 32 → BitVec 32) (c a : BitVec 4) (i : BitVec 13) :
    cdOpI f c a i s = .next (cdGo d p { r with used := r.used + 1 } .next (cdSetReg s d r c (f (cdReg s d r a) (i.setWidth 32)))) :=
  cdIssue_on hc hr

end Words

/-- Settles O20: a word of registers writes its function of them and a word on a valid object has its effect there; both are charged and go on. -/
theorem carderWordsComplete : Obligations.CarderWordsComplete := by
  unfold Obligations.CarderWordsComplete
  refine ⟨fun s d p r a b c i j n hc hr => ?registers, fun s d p r cond a b c off obj hc hr => ?objects⟩
  case registers =>
    refine ⟨?mov, ?li, ?lde, cdOp2_on hc hr _ c a b, cdOpI_on hc hr _ c a i, cdOp2_on hc hr _ c a b,
      cdOpI_on hc hr _ c a i, cdOp2_on hc hr _ c a b, cdOpI_on hc hr _ c a i, cdOp2_on hc hr _ c a b, cdOpI_on hc hr _ c a i,
      cdOp2_on hc hr _ c a b, cdOpI_on hc hr _ c a i, cdOp2_on hc hr _ c a b, cdOpI_on hc hr _ c a i, cdOp2_on hc hr _ c a b,
      cdOpI_on hc hr _ c a i, cdOp2_on hc hr _ c a b, cdOpI_on hc hr _ c a i, cdOp2_on hc hr _ c a b, cdOpI_on hc hr _ c a i,
      cdOp2_on hc hr _ c a b, cdOpI_on hc hr _ c a i⟩
    case mov => simp only [exec, execCdmov, cdIssue_on hc hr]; rfl
    case li => simp only [exec, execCdli, cdIssue_on hc hr]; rfl
    case lde => simp only [exec, execCdlde, cdIssue_on hc hr]; rfl
  case objects =>
    refine ⟨?stop, ?drop, fun htrue => ?taken, fun hfalse => ?notTaken, fun ho => ⟨?lds, ?sts⟩, fun ho => ?hist, fun ho => ?cms, fun ho => ?hll,
      fun ho => ?emit, fun ho => ?trig⟩
    case stop => simp only [exec, execCdend, cdIssue_on hc hr]
    case drop => simp only [exec, execCddrop, cdIssue_on hc hr]
    case taken =>
      simp only [exec, execCdbf, cdIssue_on hc hr]
      exact congrArg (fun n => Host.Outcome.next (cdGo d p { r with used := r.used + 1 } n s)) (if_pos htrue)
    case notTaken =>
      simp only [exec, execCdbf, cdIssue_on hc hr]
      exact congrArg (fun n => Host.Outcome.next (cdGo d p { r with used := r.used + 1 } n s)) (if_neg (Bool.eq_false_iff.1 hfalse))
    case lds => simp only [exec, execCdlds, cdObj_on hc hr ho]; rfl
    case sts => simp only [exec, execCdsts, cdObj_on hc hr ho]; rfl
    case hist => simp only [exec, execCdhist, cdObj_on hc hr ho]; rfl
    case cms => simp only [exec, execCdcms, cdObj_on hc hr ho]; rfl
    case hll => simp only [exec, execCdhll, cdObj_on hc hr ho]; rfl
    case emit => simp only [exec, execCdemit, cdObj_on hc hr ho]; rfl
    case trig => simp only [exec, execCdtrig, cdObj_on hc hr ho]; rfl

end Sys2Proof.Machine
end

section
/-!
The steps of the Carders (R274 to R277, R280, R284), of the debug modules (R286 to R290) and of errors of storage (R166, R268, R269): one equation
of each step where it is enabled.
-/
namespace Sys2Proof.Machine

/-! ### Events, windows, the loader and the state-change log -/

section Carder
variable {s : State} {d : DieId} {k p slot obj : Nat} {e : CdEvent} {c : CoreId} {desc : Word} {words : List (BitVec 32)}

/-- The state in which an event that left the taps meets its pipeline. -/
def eventOut (s : State) (d : DieId) (k : Nat) : State := syncWindow d (s.modDie d fun r => { r with taps := dropAt r.taps k })

section Event
variable (he : (s.die d).taps[k]? = some e) (hfirst : ((s.die d).taps.take k).any (fun x => decide (x.src = e.src)) = false)
include he hfirst

/-- R274: an event of a partition without a unit has no pipeline (log entry 76). -/
theorem carderEvent_lost (hpipe : cdPipe (eventOut s d k) d e.part = none) : exec (.carderEvent d k) s = .next (eventOut s d k) := by
  have hexec : exec (.carderEvent d k) s = execCarderEvent d k s := rfl
  rw [eventOut] at hpipe
  simp only [hexec, execCarderEvent, he, hfirst, hpipe, Bool.false_eq_true, if_false, eventOut]

theorem carderEvent_overloads (hpipe : cdPipe (eventOut s d k) d e.part = some p) (hfull : 1024 ≤ ((eventOut s d k).pipe d p).queue.length) :
    exec (.carderEvent d k) s = .next (countOverload (eventOut s d k) d e.part) := by
  have hexec : exec (.carderEvent d k) s = execCarderEvent d k s := rfl
  rw [eventOut] at hpipe hfull
  simp only [hexec, execCarderEvent, he, hfirst, hpipe, Bool.false_eq_true, if_false, if_pos hfull, eventOut]

theorem carderEvent_queues (hpipe : cdPipe (eventOut s d k) d e.part = some p) (hroom : ((eventOut s d k).pipe d p).queue.length < 1024)
    (hruns : ((eventOut s d k).pipe d p).run.isSome = true) : exec (.carderEvent d k) s = .next ((eventOut s d k).setPipe d p
      { (eventOut s d k).pipe d p with queue := ((eventOut s d k).pipe d p).queue ++ [e] }) := by
  have hexec : exec (.carderEvent d k) s = execCarderEvent d k s := rfl
  rw [eventOut] at hpipe hroom hruns
  simp only [hexec, execCarderEvent, he, hfirst, hpipe, Bool.false_eq_true, if_false, if_neg (Nat.not_le.2 hroom), if_pos hruns, eventOut]

theorem carderEvent_runs (hpipe : cdPipe (eventOut s d k) d e.part = some p) (hroom : ((eventOut s d k).pipe d p).queue.length < 1024)
    (hidle : ((eventOut s d k).pipe d p).run.isSome = false) :
    exec (.carderEvent d k) s = .next (cdTake d p (((eventOut s d k).pipe d p).queue ++ [e]) (eventOut s d k)) := by
  have hexec : exec (.carderEvent d k) s = execCarderEvent d k s := rfl
  rw [eventOut] at hpipe hroom hidle
  simp only [hexec, execCarderEvent, he, hfirst, hpipe, hidle, Bool.false_eq_true, if_false, if_neg (Nat.not_le.2 hroom), eventOut]

end Event

theorem filterSlotLoad_loads (hslot : slot < 64) (hv : bitAt desc 63 = true) (hloads : cdLoads s d desc words = true) :
    exec (.filterSlotLoad d slot desc words) s = .next (fslotLoad d slot desc words s) :=
  congrArg Host.Outcome.next (if_pos ⟨hslot, hv, hloads⟩)

theorem filterSlotDetach_detaches (hslot : slot < 64) (hv : bitAt desc 63 = false) :
    exec (.filterSlotDetach d slot desc) s = .next (fslotLoad d slot desc [] s) :=
  congrArg Host.Outcome.next (if_pos ⟨hslot, hv⟩)

theorem stateChangeRecord_logs (hchange : coreState s c ≠ (s.log c).last) (hsoon : s.ac < (s.log c).lastAc + 4096) :
    exec (.stateChangeRecord c) s = .next
       (let seqs := (s.wk.slots.filterMap fun e => if e.1.core = c then some e.1.slice.seq else none).eraseDups
        let seq := if seqs.length = 0 then Config.stateSlice s.free else seqs[Config.stateSlice s.free % seqs.length]?.getD 0
        let u := s.modLog c fun l =>
          { logAppend l [coreState s c * 2 ^ 14 + (s.ac - l.lastAc)] with last := coreState s c, lastAc := s.ac, enteredAc := s.ac }
        raiseEvent { u with free := u.free + 1 } c.dieId c.core 0xF ⟨c.pkg, unitOwner u c.pkg c.cluster.unit⟩ 0 false
          [coreState s c, (s.log c).last, sat32 (s.ac - (s.log c).enteredAc), seq % 2 ^ 32]) :=
  congrArg Host.Outcome.next (if_neg (not_or.2 ⟨hchange, Nat.not_le.2 hsoon⟩))

end Carder

/-! ### The debug module -/

section Debug
variable {s : State} {c : ClusterId} {core slot : Nat} {t : ThreadId}

theorem debugStop_takes (hreq : (s.cluster c).dm.req = true)
    (hall : ((clusterThreads s c).all fun t => (s.thread? t).all fun th => th.isOut || mayLeave s t th) = true) :
    exec (.debugStop c) s = .next (takeStop c s) :=
  congrArg Host.Outcome.next ((if_pos hreq).trans (if_pos hall))

theorem debugStop_requests (hreq : (s.cluster c).dm.req = false) : exec (.debugStop c) s = .next (requestStop s c) :=
  congrArg Host.Outcome.next (if_neg (Bool.eq_false_iff.1 hreq))

theorem debugResume_resumes (hstopped : (s.cluster c).dm.stopped = true) : exec (.debugResume c) s =
    .next (((clusterThreads s c).foldl debugBack s).modCluster c fun r => { r with dm := { r.dm with stopped := false, step := none } }) :=
  congrArg Host.Outcome.next (if_pos hstopped)

theorem stepCluster_steps (hstopped : (s.cluster c).dm.stopped = true)
    (htarget : stepTarget s (c.core (s.cluster c).dm.selCore) (s.cluster c).dm.selSlot = some t) :
    stepCluster c s = s.modCluster c fun r => { r with dm := { r.dm with step := some t } } := by
  simp only [stepCluster, hstopped, htarget, if_true]

theorem stepCluster_notStopped (hrunning : (s.cluster c).dm.stopped = false) :
    stepCluster c s = s.modCluster c fun r => { r with dm := { r.dm with step := none, stepRes := 4 } } := by
  simp only [stepCluster, hrunning, Bool.false_eq_true, if_false]

end Debug

/-- Settles O26: each clause is the equation of its step where the step is enabled. That an event of a partition without a unit is dropped (log
entry 76), and that a stop is requested and taken in two steps (log entries 93 and 94), are the model's choices. -/
theorem carderDebugAndErrorEventsTakeEffect : Obligations.CarderDebugAndErrorEventsTakeEffect := by
  unfold Obligations.CarderDebugAndErrorEventsTakeEffect
  refine ⟨fun s d k p slot obj e c desc words => ?carder, fun s c core slot line ver g l a t p d h n w => ?debug⟩
  case carder =>
    exact ⟨fun he hfirst => ⟨carderEvent_lost he hfirst, carderEvent_overloads he hfirst, carderEvent_queues he hfirst, carderEvent_runs he hfirst⟩,
      rfl, filterSlotLoad_loads, filterSlotDetach_detaches, fun hobj => congrArg Host.Outcome.next (if_pos hobj),
      fun hlate => congrArg Host.Outcome.next (if_pos hlate), stateChangeRecord_logs⟩
  case debug =>
    refine ⟨debugStop_takes, debugStop_requests, debugResume_resumes,
      ⟨fun hstopped htarget => congrArg Host.Outcome.next (stepCluster_steps hstopped htarget),
        fun hrunning => congrArg Host.Outcome.next (stepCluster_notStopped hrunning)⟩,
      fun hline => congrArg Host.Outcome.next (if_pos hline), rfl, rfl, rfl, rfl, rfl, rfl, rfl, rfl, rfl⟩

end Sys2Proof.Machine
end

section
/-!
Resets, the watchdog's ladder and the live swap (R270, R271, R302, R303), and the writes of a partition's registers (R295).
-/
namespace Sys2Proof.Machine

/-! ### The watchdog's ladder -/

section Ladder
variable {s : State} {q : QuadId} (hclear : anyReset s q.pkg = false)
include hclear

theorem watchdogSoftRestart_restarts (hdue : wdDue s q 0 10 = true) : exec (.watchdogSoftRestart q) s = .next
    (enterImage q (s.quad q).cp.image ((wdTake q 1 s).modQuad q fun r => { r with restarts := r.restarts + 1 })) :=
  congrArg Host.Outcome.next (if_pos ⟨hdue, hclear⟩)

/-- Step 2 runs the image again where it passes (log entry 150), and else has only been taken. -/
theorem watchdogFirmwareReload_checks (hdue : wdDue s q 1 30 = true) : exec (.watchdogFirmwareReload q) s = .next
    (if imagePasses (wdTake q 2 s) q.pkg ((wdTake q 2 s).quad q).cp.image then
      enterImage q ((wdTake q 2 s).quad q).cp.image ((wdTake q 2 s).modQuad q fun r => { r with restarts := r.restarts + 1 })
    else wdTake q 2 s) :=
  congrArg Host.Outcome.next (if_pos ⟨hdue, hclear⟩)

theorem watchdogPartitionReset_resets (hdue : wdDue s q 2 80 = true) :
    exec (.watchdogPartitionReset q) s = .next ((onlyServed s q).foldl (fun s p => startReset p s) (wdTake q 3 s)) :=
  congrArg Host.Outcome.next (if_pos ⟨hdue, hclear⟩)

theorem watchdogDieReset_resets (hdue : wdDue s q 3 180 = true) :
    exec (.watchdogDieReset q) s = .next (dieReset ⟨q.pkg, q.die⟩ (wdTake q 4 s)) :=
  congrArg Host.Outcome.next (if_pos ⟨hdue, hclear⟩)

/-- Step 5 is taken when it is due, or at once when the management core has failed. -/
theorem watchdogPackageReset_resets {failed : Bool} (hdue : failed = true ∨ wdDue s q 4 380 = true) :
    exec (.watchdogPackageReset q failed) s = .next (ladderReset q.pkg s) :=
  congrArg Host.Outcome.next (if_pos ⟨hdue, hclear⟩)

end Ladder

/-! ### A command processor's writes, and the live swap -/

section Swap
variable {s : State} {q : QuadId} {addr : Word}

/-- In the mode of a register or a higher one a command processor's access takes effect, and the pc goes on by 4 (log entry 129). -/
theorem cpWrite_permitted {mode : Nat} (hmode : mode ≤ (s.quad q).cp.mode) (f : State → State) :
    cpWrite q mode f s = (f s).modQuad q fun r => { r with cp := { r.cp with pc := r.cp.pc + 4 } } := if_pos hmode

theorem cpWrite_illegal {mode : Nat} (hmode : (s.quad q).cp.mode < mode) (f : State → State) : cpWrite q mode f s = cpIllegal q s :=
  if_neg (Nat.not_le.2 hmode)

theorem swapreq_accesses (hidle : (s.quad q).swapSt ≠ 1) : exec (.swapreq q addr) s = .next (cpWrite q 3 (fun s => s.modQuad q fun r =>
    { r with swapSt := 1, swapAddr := addr, suspended := some s.dtime.toNat }) s) :=
  congrArg Host.Outcome.next (if_neg hidle)

/-- The end of a swap answers by the image's checks alone. -/
theorem swapVerifyDone_ends {pass : Bool} (hswap : (s.quad q).swapSt = 1) (hpass : pass = imagePasses s q.pkg (s.quad q).swapAddr) :
    exec (.swapVerifyDone q pass) s = .next
      (let k := max (s.quad q).kick (s.pkg q.pkg).resetAt
       let s' := s.modQuad q fun r => { r with swapSt := if pass then 2 else 3, suspended := none, kick := k + wdHeld s q k }
       if pass then enterImage q (s.quad q).swapAddr s' else s') :=
  congrArg Host.Outcome.next (if_pos ⟨hswap, hpass⟩)

end Swap

/-! ### The registers of an idle partition -/

section Registers
variable {s : State} {p : PartId} {v : Word} {ok : Bool} {f : PartRec → PartRec}

theorem idleWrite_idle (hidle : partIdle s p = true) (hok : ok = true) : idleWrite p ok f s = s.modPart p f := by
  rw [idleWrite, hidle, hok, Bool.and_true, if_pos rfl]

theorem idleWrite_refused (hok : ok = false) : idleWrite p ok f s = s := by
  rw [idleWrite, hok, Bool.and_false, if_neg Bool.false_ne_true]

theorem idleWrite_busy (hbusy : partIdle s p = false) : idleWrite p ok f s = s := by
  rw [idleWrite, hbusy, Bool.false_and, if_neg Bool.false_ne_true]

theorem ovdef_takes (hidle : partIdle s p = true) (h : ∀ i < 7, wfield v (2 * i) 2 ≠ 3) :
    exec (.ovdef p v) s = .next (s.modPart p fun r => { r with ovdef := v &&& (0x3FFF : Word) }) :=
  congrArg Host.Outcome.next (idleWrite_idle hidle (by simpa only [List.all_eq_true, List.mem_range, decide_eq_true_eq] using h))

theorem ovdef_ignored (h : ∃ i < 7, wfield v (2 * i) 2 = 3) : exec (.ovdef p v) s = .next s := by
  obtain ⟨i, hi, hthree⟩ := h
  refine congrArg Host.Outcome.next (idleWrite_refused (List.all_eq_false.2 ⟨i, List.mem_range.2 hi, ?_⟩))
  simpa only [decide_eq_true_eq, Decidable.not_not] using hthree

theorem arena_takes {d : Fin 4} (hidle : partIdle s p = true) (h : wfield v 16 16 = 0 ∨
      (128 * d.val ≤ wfield v 0 16 ∧ wfield v 0 16 + wfield v 16 16 ≤ 128 * (d.val + 1) ∧
        (nrange (wfield v 0 16) (wfield v 16 16)).all (ownsGranule s p) = true)) :
    exec (.arena p d v) s = .next (s.modPart p fun r =>
      { r with arenas := tput r.arenas d.val (BitVec.ofNat 64 (wfield v 0 16 + wfield v 16 16 * 2 ^ 16)) }) := by
  refine congrArg Host.Outcome.next (idleWrite_idle hidle ?_)
  simpa only [Bool.or_eq_true, Bool.and_eq_true, decide_eq_true_eq, and_assoc] using h

end Registers

/-- Settles O27: each clause is the equation of its step where the step is enabled. That a command processor's access goes on at pc + 4, and is an
illegal instruction in a lower mode, is presumed (log entry 129); what an image's checks read (log entry 150) and what a die's and a package's reset
leave (log entries 95 and 97) are the model's choices. -/
theorem resetsAndRegisterWritesTakeEffect : Obligations.ResetsAndRegisterWritesTakeEffect := by
  unfold Obligations.ResetsAndRegisterWritesTakeEffect
  refine ⟨fun s p d n q addr => ⟨rfl, fun hbusy => congrArg Host.Outcome.next (if_pos hbusy), rfl, rfl, fun hclear => ?ladder,
    fun hmachine => ?machine, fun hlower => ?lower, fun hswap => ?swap⟩, fun s p v d n => ⟨fun hidle => ?idle, fun hbusy => ?busy, ?dctl, ?dctlZero⟩⟩
  case ladder =>
    refine ⟨watchdogSoftRestart_restarts hclear, fun hdue => ⟨fun hpass => ?_, fun hfail => ?_⟩, watchdogPartitionReset_resets hclear,
      watchdogDieReset_resets hclear, fun hdue => watchdogPackageReset_resets hclear (.inr hdue), watchdogPackageReset_resets hclear (.inl rfl)⟩
    · exact (watchdogFirmwareReload_checks hclear hdue).trans (congrArg Host.Outcome.next (if_pos hpass))
    · exact (watchdogFirmwareReload_checks hclear hdue).trans (congrArg Host.Outcome.next (if_neg (Bool.eq_false_iff.1 hfail)))
  case machine =>
    have hmode : 3 ≤ (s.quad q).cp.mode := Nat.le_of_eq hmachine.symm
    exact ⟨congrArg Host.Outcome.next (cpWrite_permitted hmode _),
      fun hidle => (swapreq_accesses hidle).trans (congrArg Host.Outcome.next (cpWrite_permitted hmode _))⟩
  case lower =>
    exact ⟨congrArg Host.Outcome.next (cpWrite_illegal hlower _),
      fun hidle => (swapreq_accesses hidle).trans (congrArg Host.Outcome.next (cpWrite_illegal hlower _))⟩
  case swap => exact ⟨fun hpass => swapVerifyDone_ends hswap hpass.symm, fun hfail => swapVerifyDone_ends hswap hfail.symm⟩
  case idle =>
    exact ⟨fun hclk => congrArg Host.Outcome.next (if_pos ⟨hidle, hclk⟩), fun hclk => congrArg Host.Outcome.next (if_neg fun h => h.2 hclk),
      ovdef_takes hidle, ovdef_ignored,
      fun h1 h2 h3 h4 => congrArg Host.Outcome.next (idleWrite_idle hidle (decide_eq_true ⟨h1, h2, h3, h4⟩)),
      fun h => congrArg Host.Outcome.next (idleWrite_idle hidle (decide_eq_true h)), congrArg Host.Outcome.next (idleWrite_idle hidle rfl),
      fun h1 h2 h3 h4 => congrArg Host.Outcome.next (idleWrite_idle hidle (decide_eq_true ⟨h1, h2, h3, h4⟩)), arena_takes hidle,
      fun h1 h2 h3 => congrArg Host.Outcome.next (idleWrite_idle hidle (decide_eq_true ⟨h1, h2, h3⟩)),
      congrArg Host.Outcome.next (idleWrite_idle hidle rfl)⟩
  case busy =>
    have hkept : ∀ ok f, (.next (idleWrite p ok f s) : Host.Outcome State Fault Refusal) = .next s :=
      fun ok f => congrArg Host.Outcome.next (idleWrite_busy hbusy)
    exact ⟨congrArg Host.Outcome.next (if_neg fun h => Bool.false_ne_true (hbusy.symm.trans h.1)), hkept _ _, hkept _ _, hkept _ _, hkept _ _,
      hkept _ _, hkept _ _, hkept _ _, hkept _ _⟩
  case dctl => exact fun hage => congrArg Host.Outcome.next (if_pos hage)
  case dctlZero => exact fun hage => congrArg Host.Outcome.next (if_neg fun h => h hage)

end Sys2Proof.Machine
end

section
/-!
RETI, TRAP, EXIT and YIELD (R261, R331, R393, R400, R416), each from stages that complete.
-/
namespace Sys2Proof.Machine

theorem guardHolds_of_issues {h : Hdr} {t : ThreadId} {th : Thread} {s s0 : State} (hi : Issues h t th s s0) : guardHolds h s = true := by
  have hguard := hi.guarded
  rw [hi.turn] at hguard
  simp only [Runs] at hguard
  simp only [guardHolds, hi.actor, hguard]

section Ends
variable {h : Hdr} {t : ThreadId} {th th1 : Thread} {s s0 s1 : State} (hi : Issues h t th s s0) (hrep : th.ctl.rep = none)
include hi hrep

/-! ### RETI -/

/-- The thread back in its window w: outside its handler at the block that w's STATUS records, with the violations that a trap kept due again. -/
def returned (s : State) (t : ThreadId) (c : Ctl) (w : Word) (u : Thread) : Thread :=
  let old := fun off => threadRead s t c w off 8
  let blk := resumeBlock s c.slice.part (old offPcsave) (old offStatus) (BitVec.ofNat 64 (old offTpc))
  { u with
    openMsg := u.openMsg.map fun m => { m with byHandler := false }
    due := { u.due with violations := u.due.kept ++ u.due.violations, kept := [] }
    ctl := { u.ctl with wsp := w, intrap := false, rep := blk
                        repBnd := blk.isSome && (old offStatus).testBit 4 && decide (old offTpc = old offPcsave) } }

theorem reti_returns {w : Word} (hin : th.ctl.intrap = true) (hw : w = BitVec.ofNat 64 (threadRead s0 t th.ctl th.ctl.hwsp offCaller 8))
    (hcheck : Runs (checkWindow w) s0 () s0) (hneed : Runs (needLines w) s0 () s0)
    (hback : Runs (do putAt w offProv 8 (threadRead s0 t th.ctl th.ctl.hwsp offProv 8); installExtension w) s0 () s1) (hc : s1.cur = .thread t) :
    exec (.reti h) s = retired t h (.goto (BitVec.ofNat 64 (threadRead s0 t th.ctl w offTpc 8))) (s1.modThread t (returned s0 t th.ctl w)) := by
  subst hw
  obtain ⟨_, _, hprov, hext⟩ := Runs.split hback
  refine issue_runs hi (Runs.bind (Runs.notInBody hi.cur hi.live hrep) (Runs.bind (Runs.me hi.cur) (Runs.bind (Runs.ctl hi.cur hi.live)
    (Runs.passes (by rw [hin]; decide) ?_))))
  exact Runs.bind (Runs.get s0) (Runs.bind hcheck (Runs.bind hneed (Runs.bind hprov (Runs.bind hext (Runs.bind (Runs.modT _ hc) (Runs.pure _ _))))))

/-! ### TRAP and EXIT -/

theorem trap_records {info : Opnd} {code : BitVec 8} {x : Word} (hread : Runs (rd1 h info) s0 x s1) (hc : s1.cur = .thread t) :
    exec (.trap h info code) s = retired t h .seq
      (dueAfter s1 t (some ⟨code.toNat, false, 0, BitVec.ofNat 64 (2 ^ 63 + x.toNat % 2 ^ 63)⟩)) :=
  issue_runs hi (Runs.bind (Runs.notInBody hi.cur hi.live hrep) (Runs.bind hread (Runs.bind (Runs.me hc) (Runs.bind (Runs.modify _ s1)
    (Runs.pure _ _)))))

section Exit
variable (hquiet : Runs (do sampleAbort; waitStores; waitClass 3; waitAccesses) s0 () s0)
include hquiet

theorem exit_leaves (hout : th.ctl.intrap = false) : exec (.exit h) s = retired t h .gone
    (takeAfter (leaveTask (if th.ctl.joinRec = 0 then s0 else joinUpdate s0 t th.ctl.slice th.ctl.joinRec false 0) t) t) := by
  obtain ⟨_, _, habort, hrest⟩ := Runs.split hquiet
  obtain ⟨_, _, hstores, hrest⟩ := Runs.split hrest
  obtain ⟨_, _, hclass, hacc⟩ := Runs.split hrest
  refine issue_runs hi (Runs.bind (Runs.notInBody hi.cur hi.live hrep) (Runs.bind habort (Runs.bind hstores (Runs.bind hclass (Runs.bind hacc
    (Runs.bind (Runs.me hi.cur) (Runs.bind (Runs.ctl hi.cur hi.live) (Runs.bind (Runs.get s0) (Runs.passes (by rw [hout]; decide) ?_)))))))))
  exact Runs.bind (Runs.modify _ s0) (Runs.pure _ _)

/-- In a handler the thread waits to end by the trap that it interrupted. -/
theorem exit_endsHandler (hin : th.ctl.intrap = true) : exec (.exit h) s =
    .next (setPhase (s0.modThread t fun u => { u with endCause := some (interruptedRecord s0 t th.ctl) }) t .ending) := by
  obtain ⟨_, _, habort, hrest⟩ := Runs.split hquiet
  obtain ⟨_, _, hstores, hrest⟩ := Runs.split hrest
  obtain ⟨_, _, hclass, hacc⟩ := Runs.split hrest
  exact issue_fails (e := .wait .ending) hi (Fails.bind (Runs.notInBody hi.cur hi.live hrep) (Fails.bind habort (Fails.bind hstores
    (Fails.bind hclass (Fails.bind hacc (Fails.bind (Runs.me hi.cur) (Fails.bind (Runs.ctl hi.cur hi.live) (Fails.bind (Runs.get s0)
      (Fails.chosen hin (Fails.bind (Runs.modT _ hi.cur) (Fails.first (Fails.throw _ _))))))))))))

end Exit

/-! ### YIELD -/

/-- A plain YIELD gives up the turn after it. -/
theorem yield_turn {dl : Reg} (hy : Issues { h with ya := true } t th s s0) (habort : Runs sampleAbort s0 () s0) :
    exec (.yield h false dl) s = retired t { h with ya := true } .seq s0 := by
  have hexec : exec (.yield h false dl) s = execYield h false dl s := rfl
  rw [hexec, execYield, guardHolds_of_issues hi]
  simp only [Bool.not_false, Bool.and_true, Bool.or_true, Bool.false_eq_true, if_false]
  exact issue_runs hy (Runs.bind (Runs.notInBody hi.cur hi.live hrep) (Runs.bind habort (Runs.pure _ s0)))

/-- YIELD with its slice flag sends the dispatcher its message, with the deadline that a register gives. -/
theorem yield_slice {dl : Reg} {d : Option Word} (habort : Runs sampleAbort s0 () s0)
    (hdl : Runs (if dl = 0 then pure none else some <$> rd1 h (.w dl) : Exec (Option Word)) s0 d s1) (hacc : Runs waitAccesses s1 () s1)
    (hc : s1.cur = .thread t) (ht : s1.thread? t = some th1) : exec (.yield h true dl) s =
      retired t h .seq { s1 with nt := { s1.nt with yields := s1.nt.yields ++ [⟨t, th1.ctl.slice, d⟩] } } := by
  have hexec : exec (.yield h true dl) s = execYield h true dl s := rfl
  rw [hexec, execYield]
  simp only [Bool.not_true, Bool.false_and, Bool.or_false, if_true]
  refine issue_runs hi (Runs.bind (Runs.notInBody hi.cur hi.live hrep) (Runs.bind habort (Runs.branch hdl (Runs.bind hacc
    (Runs.bind (Runs.me hc) (Runs.bind (Runs.ctl hc ht) (Runs.bind (Runs.modify _ s1) (Runs.pure _ _))))))))

end Ends

/-- Settles O4: each instruction is its stages in a row. That RETI makes the violations which a trap kept due again (log entry 22), lets the handler's
open message go on outside it (log entry 149) and resumes the block that STATUS records (log entry 19) are the model's choices. -/
theorem returnsAndEndsComplete : Obligations.ReturnsAndEndsComplete := by
  unfold Obligations.ReturnsAndEndsComplete
  refine ⟨fun h t th s s0 s1 w hi hrep => reti_returns hi hrep, fun h t th th1 s s0 s1 info code x dl hi hrep => ?ends⟩
  refine ⟨trap_records hi hrep, exit_leaves hi hrep, exit_endsHandler hi hrep, yield_turn hi hrep,
    fun hdl habort hread hacc hc ht => yield_slice hi hrep habort ?deadline hacc hc ht,
    fun habort hacc => yield_slice hi hrep habort (Runs.pure none s0) hacc hi.cur hi.live⟩
  case deadline =>
    rw [if_neg hdl]
    exact Runs.map hread

end Sys2Proof.Machine
end

section
/-!
The system instructions (R205, R206, R308, R327, R340, R382, R384, R413 to R415), each from stages that complete.
-/
namespace Sys2Proof.Machine

/-- A check made only in some cases passes. -/
theorem Runs.checked {α : Type} {p : Prop} [Decidable p] {m : Exec Unit} {f : Unit → Exec α} {s s1 : State} {a : α} (hcheck : p → Runs m s () s)
    (hrest : Runs (f ()) s a s1) : Runs (if p then m >>= f else f ()) s a s1 := by
  by_cases hp : p
  · rw [if_pos hp]
    exact Runs.bind (hcheck hp) hrest
  · rwa [if_neg hp]

section System
variable {h : Hdr} {t : ThreadId} {th : Thread} {s s0 s1 s2 : State} (hi : Issues h t th s s0)
include hi

/-! ### OVFT, PLACEW, ABORT and ABCHK -/

theorem needPriv_runs (hpriv : th.ctl.priv = true) : Runs needPriv s0 () s0 :=
  Runs.bind (Runs.ctl hi.cur hi.live) (Runs.passes (by rw [hpriv]; decide) (Runs.pure _ s0))

theorem ovft_writes {src : Src} {x : Word} (hpriv : th.ctl.priv = true) (hread : Runs (ovftTable h src) s0 x s1) (hok : ovTableOk x = true)
    (hwrite : Runs (wrWin offBook 8 x.toNat) s1 () s2) : exec (.ovft h src) s = retired t h .seq s2 :=
  issueSeq_runs hi (Runs.bind (needPriv_runs hi hpriv) (Runs.bind hread (Runs.passes (by rw [hok]; decide) hwrite)))

theorem placew_writes {a b : Opnd} {x y : Word} (hpriv : th.ctl.priv = true) (hread : Runs (rd2 h a (.op b)) s0 (x, y) s1) (hx : x.toNat ≤ 191)
    (hhigh : wfield y 16 48 = 0) (hmid : wfield y 8 7 = 0) (hcore : bitAt y 15 = true → wfield y 0 8 ≤ 203) (hc : s1.cur = .thread t) :
    exec (.placew h a b) s = retired t h .seq (s1.modCore t.core fun r => { r with place := tput r.place x.toNat y.toNat }) := by
  have hentry : ¬ (x.toNat > 191 ∨ wfield y 16 48 ≠ 0 ∨ wfield y 8 7 ≠ 0) := fun hbad =>
    hbad.elim (Nat.not_lt.2 hx) fun hbad => hbad.elim (fun h => h hhigh) fun h => h hmid
  have hnamed : ¬ (bitAt y 15 = true ∧ wfield y 0 8 > 203) := fun hbad => Nat.not_lt.2 (hcore hbad.1) hbad.2
  exact issueSeq_runs hi (Runs.bind (needPriv_runs hi hpriv) (Runs.bind hread (Runs.passes hentry (Runs.passes hnamed
    (Runs.bind (Runs.myCore hc) (Runs.modify _ s1))))))

theorem abort_line (clr : Bool) : exec (.abort h clr) s = retired t h .seq (s0.modSlice th.ctl.slice fun r =>
    { r with abort := if clr then r.abort.filter (· ≠ t.core.cluster) else t.core.cluster :: r.abort.filter (· ≠ t.core.cluster) }) :=
  issueSeq_runs hi (Runs.bind (Runs.ctl hi.cur hi.live) (Runs.bind (Runs.myCore hi.cur) (Runs.modify _ s0)))

theorem abchk_sets {gd : BitVec 3} (hset : Runs (setGuard gd (abortRaised s0 t th.ctl)) s0 () s1) : exec (.abchk h gd) s = retired t h .seq s1 :=
  issueSeq_runs hi (Runs.bind (Runs.ctl hi.cur hi.live) (Runs.bind (Runs.me hi.cur) (Runs.bind (Runs.get s0) hset)))

/-! ### FENCE and XFENCE -/

/-- The thread with a fence before its next operation on the paths in l. -/
def fenced (l : List Nat) (id : Nat) (u : Thread) : Thread := { u with fences := l.foldl (fun l p => tput l p id) u.fences }

section Fence
variable {scope : BitVec 3} (hstores : Runs waitStores s0 () s0)
include hstores

theorem fence_wide (hwide : 2 ≤ scope.toNat) : exec (.fence h scope) s = retired t h .seq
    (dropExt t.core (dropOperands t.core (syncP t (s0.modThread t (fenced (nrange 0 6) s0.opId))))) := by
  refine issueSeq_runs hi (Runs.bind hstores (Runs.bind (Runs.me hi.cur) (Runs.bind (Runs.get s0) ?_)))
  simp only [hwide, decide_true, if_true]
  exact Runs.bind (Runs.modT _ hi.cur) (Runs.modify _ _)

theorem fence_core (hscope : scope = 0) : exec (.fence h scope) s = retired t h .seq (s0.modThread t (fenced (nrange 1 5) s0.opId)) := by
  subst hscope
  exact issueSeq_runs hi (Runs.bind hstores (Runs.bind (Runs.me hi.cur) (Runs.bind (Runs.get s0) (Runs.bind (Runs.modT _ hi.cur) (Runs.pure () _)))))

/-- Cluster scope alone marks what the thread has issued as seen (log entries 139 and 110). -/
theorem fence_cluster (hscope : scope = 1) : exec (.fence h scope) s = retired t h .seq
    ((s0.modThread t (fenced (nrange 1 5) s0.opId)).modThread t fun u => { u with seen := s0.opId }) := by
  subst hscope
  exact issueSeq_runs hi (Runs.bind hstores (Runs.bind (Runs.me hi.cur) (Runs.bind (Runs.get s0) (Runs.bind (Runs.modT _ hi.cur)
    (Runs.modT _ hi.cur)))))

end Fence

theorem xfence_passes {scope : BitVec 3} {fr dest : BitVec 6}
    (hdone : ∀ p, p < 6 → fr.getLsbD p = true → pathBusy s0 t (slotGen s0 t) p scope.toNat s0.opId = false) :
    exec (.xfence h scope fr dest) s = retired t h .seq
      (let s := if dest.getLsbD 0 && decide (2 ≤ scope.toNat) then syncP t s0 else s0
       let s := if dest.getLsbD 4 then dropOperands t.core s else s
       if dest.getLsbD 5 then dropExt t.core s else s) := by
  have hquiet : ¬ ((nrange 0 6).any fun p => fr.getLsbD p && pathBusy s0 t (slotGen s0 t) p scope.toNat s0.opId) = true := by
    simp only [nrange, List.any_map, List.any_eq_true, List.mem_range, Function.comp_apply, Nat.zero_add, Bool.and_eq_true, not_exists, not_and,
      Bool.not_eq_true]
    exact hdone
  exact issueSeq_runs hi (Runs.bind (Runs.me hi.cur) (Runs.bind (Runs.get s0) (Runs.passes hquiet (Runs.modify _ s0))))

/-! ### WSPSW, DBG and WAITEV -/

theorem wspsw_enters {th1 : Thread} {d r : Reg} {w : Word} {s3 s4 s5 s6 : State} (hrep : th.ctl.rep = none) (hout : th.ctl.intrap = false)
    (hread : Runs (rd1 h (.w r)) s0 w s1) (hplace : Runs (checkPlacement w) s1 () s1) (hmatrix : Runs (waitClass 2) s1 () s1)
    (hunits : Runs (waitClass 3) s1 () s1) (hwindow : wfield w 54 2 = 3 → Runs (checkWindow w) s1 () s1) (hneed : Runs (needLines w) s1 () s1)
    (hfresh : Runs (freshLines w) s1 () s2) (hc2 : s2.cur = .thread t) (ht2 : s2.thread? t = some th1)
    (hcopy : Runs (do putAt w offStatus 8 (statusWord th1); copyTo w offProv 8; copyTo w offBook 24) s2 () s3) (hc3 : s3.cur = .thread t)
    (htags : Runs (putAt th.ctl.wsp offAtags 2 (tagsOf s3 t th.ctl)) s3 () s4) (hc4 : s4.cur = .thread t)
    (hs5 : s5 = s4.modThread t (fun u => { u with ctl := { u.ctl with wsp := w } }))
    (hwrite : Runs (wrReg d th.ctl.wsp) (setAccTags s5 t.core th.ctl.slice (threadRead s5 t th.ctl w offAtags 2)) () s6) :
    exec (.wspsw h d r) s = retired t h .seq s6 := by
  subst hs5
  obtain ⟨_, _, hstatus, hrest⟩ := Runs.split hcopy
  obtain ⟨_, _, hprov, hbook⟩ := Runs.split hrest
  refine issueSeq_runs hi (Runs.bind (Runs.notInBody hi.cur hi.live hrep) (Runs.bind (Runs.ctl hi.cur hi.live) (Runs.passes (by rw [hout]; decide)
    (Runs.bind hread (Runs.bind hplace (Runs.bind hmatrix (Runs.bind hunits (Runs.checked hwindow (Runs.bind hneed (Runs.bind hfresh ?_))))))))))
  exact Runs.bind (Runs.thr hc2 ht2) (Runs.bind hstatus (Runs.bind hprov (Runs.bind hbook (Runs.bind (Runs.me hc3) (Runs.bind (Runs.get s3)
    (Runs.bind htags (Runs.bind (Runs.modT _ hc4) (Runs.bind (Runs.modify _ _) hwrite))))))))

/-- A DBG that completes has taken an operation number, and then reaches the debug module. -/
theorem dbg_arrives (code : BitVec 16) : exec (.dbg h code) s =
    .next (dbgArrives (markIssue (retire t h.eog .seq { s0 with opId := s0.opId + 1 }) t h.ya) t code.toNat) := by
  have hissue : issueSeq h (do let _ ← newOp) s = retired t h .seq { s0 with opId := s0.opId + 1 } :=
    issueSeq_runs hi (Runs.bind (Runs.newOp s0) (Runs.pure () _))
  have hexec : exec (.dbg h code) s = execDbg h code s := rfl
  have hnew : (markIssue (retire t h.eog .seq { s0 with opId := s0.opId + 1 }) t h.ya).opId ≠ s.opId := by
    rw [(markIssue_kept _ _ _).opId, (retire_kept _ _ _ _).opId]
    have hcharge : s0.opId = s.opId := by rw [hi.turn, chargeTurn_opId]
    exact hcharge ▸ Nat.succ_ne_self _
  rw [hexec, execDbg, hissue, hi.actor]
  exact congrArg Host.Outcome.next (if_neg hnew)

theorem waitev_completes {th1 : Thread} {gd : BitVec 3} {d a : Reg} {e lim : Opnd} {av ev tv : Word} {x : Addr} {v : Nat} {s3 s4 s5 s6 : State}
    (hwait : Runs (waitOpnds h [.w a, e, lim] []) s0 () s1) (haddr : Runs (rdOpnd h (.w a)) s1 av s2) (hbank : Runs (bankAddr av 8) s2 x s2)
    (hexpect : Runs (rdOpnd h e) s2 ev s3) (hlimit : Runs (rdOpnd h lim) s3 tv s4) (hword : Runs (bankRead av x 8) s4 v s5) (hc : s5.cur = .thread t)
    (ht : s5.thread? t = some th1) (hover : th1.watch.isSome = true ∨ BitVec.ofNat 64 v ≠ ev ∨ tv.toNat ≤ s5.dtime.toNat)
    (hend : Runs (do wrReg d (BitVec.ofNat 64 v); setGuard gd (BitVec.ofNat 64 v != ev)) s5 () s6) :
    exec (.waitev h gd d a e lim) s = retired t h .seq s6 := by
  have hgo : ¬ (!th1.watch.isSome && BitVec.ofNat 64 v == ev && decide (s5.dtime.toNat < tv.toNat)) = true := by
    simp only [Bool.and_eq_true, Bool.not_eq_true', beq_iff_eq, decide_eq_true_eq]
    rintro ⟨⟨hfirst, hsame⟩, hahead⟩
    rcases hover with hagain | hdiffers | hpast
    · exact absurd (hfirst.symm.trans hagain) Bool.false_ne_true
    · exact hdiffers hsame
    · exact Nat.not_lt.2 hpast hahead
  exact issueSeq_runs hi (Runs.bind (Runs.get s0) (Runs.bind hwait (Runs.bind haddr (Runs.bind hbank (Runs.bind hexpect (Runs.bind hlimit
    (Runs.bind hword (Runs.bind (Runs.thr hc ht) (Runs.bind (Runs.get s5) (Runs.passes hgo hend))))))))))

end System

/-- Settles O6: each instruction is its stages in a row. What a FENCE of core scope leaves unseen, and one of cluster scope marks as seen, is the
model's choice (log entries 139 and 110). -/
theorem systemInstructionsComplete : Obligations.SystemInstructionsComplete := by
  unfold Obligations.SystemInstructionsComplete
  refine ⟨fun h t th s s0 s1 s2 a b src x y gd hi => ?tables, fun h t th s s0 scope fr dest hi => ?fences,
    fun h t th th1 s s0 s1 s2 s3 s4 s5 s6 d r a e lim w av ev tv x v gd code hi => ?others⟩
  case tables => exact ⟨ovft_writes hi, placew_writes hi, abort_line hi false, abort_line hi true, abchk_sets hi⟩
  case fences => exact ⟨fence_core hi, fence_cluster hi, fence_wide hi, xfence_passes hi⟩
  case others => exact ⟨wspsw_enters hi, dbg_arrives hi code, waitev_completes hi⟩

end Sys2Proof.Machine
end

section
/-!
The instructions over futures (R344 to R349), each from stages that complete.
-/
namespace Sys2Proof.Machine

section Futures
variable {h : Hdr} {t : ThreadId} {th th1 : Thread} {s s0 s1 s2 s3 s4 : State} {d a : Reg} {gd : BitVec 3} {hw : Word} {p : Addr}
  (hi : Issues h t th s s0) (hrep : th.ctl.rep = none)
include hi hrep

theorem hinit_creates {loc : Word} {f : Fut} (hloc : Runs (futLocation d) s0 (loc, p) s0) (hmake : Runs (makeFuture d loc p) s0 f s1) :
    exec (.hinit h d) s = retired t h .seq s1 :=
  issueSeq_runs hi (Runs.bind (Runs.notInBody hi.cur hi.live hrep) (Runs.bind hloc (Runs.bind hmake (Runs.pure () s1))))

section Handle
variable (hhandle : Runs (handleOperand a) s0 (hw, p) s0)
include hhandle

theorem htest_reads (hwatch : Runs (watchMine p 8 false) s0 () s1) (hwrite : Runs (wrReg d (BitVec.ofNat 64 (s0.rd p 8))) s1 () s2)
    (hset : Runs (setGuard gd !(fsState (s0.rd p 8) = 1 && fsGen (s0.rd p 8) = handleGen hw)) s2 () s3) :
    exec (.htest h gd d a) s = retired t h .seq s3 :=
  issueSeq_runs hi (Runs.bind (Runs.notInBody hi.cur hi.live hrep) (Runs.bind hhandle (Runs.bind (Runs.get s0) (Runs.bind hwatch
    (Runs.bind hwrite hset)))))

/-- A thread that goes on past a future has seen what its writer had (log entries 139 and 110). -/
theorem hwait_goesOn (hsettled : ¬ (fsState (s0.rd p 8) = 1 ∧ fsGen (s0.rd p 8) = handleGen hw)) (hwatch : Runs (watchMine p 8 false) s0 () s1)
    (hc : s1.cur = .thread t) (hset : Runs (setGuard gd (fsState (s0.rd p 8) = 2 && fsGen (s0.rd p 8) = handleGen hw)) (syncP t s1) () s2) :
    exec (.hwait h gd a) s = retired t h .seq s2 :=
  issueSeq_runs hi (Runs.bind (Runs.notInBody hi.cur hi.live hrep) (Runs.bind hhandle (Runs.bind (Runs.get s0) (Runs.passes hsettled
    (Runs.bind hwatch (Runs.bind (Runs.me hc) (Runs.bind (Runs.modify _ s1) hset)))))))

section Cancel
variable (hwatch : Runs (watchMine p 8 true) s0 () s1)
include hwatch

/-- The engines of a future that is cancelled stop as the model chooses (log entry 42). -/
theorem hcancel_cancels (hpending : fsState (s0.rd p 8) = 1) (hgen : fsGen (s0.rd p 8) = handleGen hw)
    (hset : Runs (setGuard gd true)
      (cancelEngines (futWake (s1.wr p 8 (fsWord 4 (handleGen hw) 0 (fsResult (s0.rd p 8)))) p) p (handleGen hw)) () s2) :
    exec (.hcancel h gd a) s = retired t h .seq s2 := by
  refine issueSeq_runs hi (Runs.bind (Runs.notInBody hi.cur hi.live hrep) (Runs.bind hhandle (Runs.bind (Runs.get s0) (Runs.bind hwatch ?_))))
  rw [if_pos ⟨hpending, hgen⟩]
  exact Runs.bind (Runs.modify _ s1) hset

theorem hcancel_missed (hsettled : ¬ (fsState (s0.rd p 8) = 1 ∧ fsGen (s0.rd p 8) = handleGen hw)) (hset : Runs (setGuard gd false) s1 () s2) :
    exec (.hcancel h gd a) s = retired t h .seq s2 :=
  issueSeq_runs hi (Runs.bind (Runs.notInBody hi.cur hi.live hrep) (Runs.bind hhandle (Runs.bind (Runs.get s0) (Runs.bind hwatch
    (Runs.passes hsettled hset)))))

end Cancel

/-- HRESOLVE goes on from what the resolve made of the future's word. -/
theorem hresolve_goesOn {v : Opnd} {flt set : Bool} {x : Word} {m : Meeting} (hread : Runs (rd1 h v) s0 x s1)
    (hcode : flt = true → 1 ≤ wfield x 0 32 % 256 ∧ wfield x 0 32 % 256 ≤ 20) (hc : s1.cur = .thread t) (ht : s1.thread? t = some th1)
    (hstores : ((s1.core t.core).storeq.any fun e => decide (e.t = t ∧ e.gen = slotGen s1 t ∨ e.id < th1.seen)) = false)
    (hconfirmed : Runs waitConfirmed s1 () s1)
    (hresolve : futResolve s1 p (handleGen hw) (if flt then 3 else 2) (wfield x 0 32) = (m, s2))
    (hanswer : m = .done ∧ set = true ∨ m = .discarded ∧ set = false)
    (hwatch : Runs (watchMine p 8 true) s2 () s3) (hset : Runs (setGuard gd set) s3 () s4) :
    exec (.hresolve h gd a v flt) s = retired t h .seq s4 := by
  have hlegal : ¬ (flt && !(decide (1 ≤ wfield x 0 32 % 256 ∧ wfield x 0 32 % 256 ≤ 20))) = true := by
    cases flt with
    | false => exact Bool.false_ne_true
    | true => rw [decide_eq_true (hcode rfl)]; exact Bool.false_ne_true
  refine issueSeq_runs hi (Runs.bind (Runs.notInBody hi.cur hi.live hrep) (Runs.bind hhandle (Runs.bind hread (Runs.passes hlegal
    (Runs.bind (Runs.me hc) (Runs.bind (Runs.myGen hc) (Runs.bind (Runs.thr hc ht) (Runs.bind (Runs.get s1)
      (Runs.passes (Bool.eq_false_iff.1 hstores) (Runs.bind hconfirmed (Runs.bind (Runs.get s1) ?_)))))))))))
  simp only [hresolve]
  rcases hanswer with ⟨rfl, rfl⟩ | ⟨rfl, rfl⟩
  · exact Runs.bind (Runs.set s1 s2) (Runs.bind hwatch hset)
  · exact Runs.bind (Runs.set s1 s2) (Runs.bind hwatch hset)

end Handle

end Futures

/-- Settles O12: each instruction is its stages in a row. What HWAIT synchronises (log entries 139 and 110) and how HCANCEL stops the engines (log
entry 42) are the model's choices. -/
theorem futureInstructionsComplete : Obligations.FutureInstructionsComplete := by
  unfold Obligations.FutureInstructionsComplete
  intro h t th th1 s s0 s1 s2 s3 s4 d a v gd hw loc x p f flt hi hrep
  refine ⟨hinit_creates hi hrep, fun hhandle => ⟨htest_reads hi hrep hhandle, hwait_goesOn hi hrep hhandle,
    fun hwatch => ⟨hcancel_cancels hi hrep hhandle hwatch, hcancel_missed hi hrep hhandle hwatch⟩,
    fun hread hcode hc ht hstores hconfirmed => ⟨fun hresolve => ?done, fun hresolve => ?discarded⟩⟩⟩
  case done => exact hresolve_goesOn hi hrep hhandle hread hcode hc ht hstores hconfirmed hresolve (.inl ⟨rfl, rfl⟩)
  case discarded => exact hresolve_goesOn hi hrep hhandle hread hcode hc ht hstores hconfirmed hresolve (.inr ⟨rfl, rfl⟩)

end Sys2Proof.Machine
end

section
/-!
The flyer's copies and reductions (R307, R321 to R323), the barrier objects (R231, R232, R315), the rectangle barriers (R311, R313, R314) and the
handles of circular buffers (R318), each from stages that complete.
-/
namespace Sys2Proof.Machine

/-- The branch that a condition which holds chooses. -/
theorem Runs.chosen {α : Type} {p : Prop} [Decidable p] {m other : Exec α} {s s1 : State} {a : α} (hp : p) (hm : Runs m s a s1) :
    Runs (if p then m else other) s a s1 := by
  rwa [if_pos hp]

/-! ### CPY and CPYR -/

/-- The receivers of a copy: those that its mask names, or its destination. -/
def copyReceivers (core : CoreId) (dv : Word) (len : Nat) (bar : Option Nat) (cmask : BitVec 8) (dk : Bool) : Exec (List Recv) :=
  if cmask ≠ 0 then multicast dv len bar cmask.toNat 8
  else if dk then do pure [⟨core, ← engAddr dv len true, true, none, false⟩]
  else do pure [← receiver core dv len bar]

/-- What a copy goes on with follows its receivers. -/
theorem copyReceivers_then {core : CoreId} {dv : Word} {len : Nat} {bar : Option Nat} {cmask : BitVec 8} {dk : Bool} {s s1 s2 : State}
    {recvs : List Recv} {rest : List Recv → Exec Unit} (hrecvs : Runs (copyReceivers core dv len bar cmask dk) s recvs s1)
    (hrest : Runs (rest recvs) s1 () s2) : Runs (if cmask ≠ 0 then do let r ← multicast dv len bar cmask.toNat 8; rest r
      else if dk then do let e ← engAddr dv len true; let r ← pure [⟨core, e, true, none, false⟩]; rest r
      else do let e ← receiver core dv len bar; let r ← pure [e]; rest r) s () s2 := by
  unfold copyReceivers at hrecvs
  split at hrecvs
  · next hmask => rw [if_pos hmask]; exact Runs.bind hrecvs hrest
  · next hmask =>
    rw [if_neg hmask]
    split at hrecvs
    · next hplain =>
      rw [if_pos hplain]
      obtain ⟨_, _, haddr, hone⟩ := Runs.split hrecvs
      exact Runs.bind haddr (Runs.bind hone hrest)
    · next hplain =>
      rw [if_neg hplain]
      obtain ⟨_, _, haddr, hone⟩ := Runs.split hrecvs
      exact Runs.bind haddr (Runs.bind hone hrest)

section Copies
variable {h : Hdr} {t : ThreadId} {th th1 : Thread} {s s0 s1 s2 : State} {d dst src c : Reg} {cmask : BitVec 8} {fmt : BitVec 4} {sk dk : Bool}
  {loc dv sv x : Word} {fa : Addr} {source dest : EngAddr} {recvs : List Recv} {bar : Option (Addr × Nat)} {f : Fut}
  (hi : Issues h t th s s0) (hloc : Runs (futLocation d) s0 (loc, fa) s0) (hread : Runs (rd3 h (.w dst) (.w src) (.w c)) s0 (dv, sv, x) s1)
  (hdv : dv.toNat % 16 = 0) (hsv : sv.toNat % 16 = 0) (hdplain : dk = true → wfield dv 52 12 = 0) (hsplain : sk = true → wfield sv 52 12 = 0)
  (hc : s1.cur = .thread t) (hroom : Runs flyerRoom s1 () s1) (hconfirmed : Runs waitConfirmed s1 () s1)
  (hfence : Runs (fenceHold 3) s1 () s1) (hmake : Runs (makeFuture d loc fa) s1 f s2)
include hi hloc hread hdv hsv hdplain hsplain hc hroom hconfirmed hfence hmake

theorem cpy_enters (hlen : wfield x 0 32 ≠ 0) (hlines : wfield x 0 32 % 16 = 0) (hhigh : wfield x 51 12 = 0)
    (hbar : ¬ (bitAt x 63 = true ∧ dk = true)) (hmask : ¬ (cmask ≠ 0 ∧ (dk = true ∨ wfield dv 54 2 ≠ 0)))
    (hsource : Runs (engAddr sv (wfield x 0 32) sk) s1 source s1)
    (hrecvs : Runs (copyReceivers t.core dv (wfield x 0 32) (if bitAt x 63 then some (wfield x 32 19 * 16) else none) cmask dk) s1 recvs s1) :
    exec (.cpy h d dst src c cmask sk dk) s = retired t h .seq (({ s2 with opId := s2.opId + 1 } : State).modCluster t.core.cluster fun r =>
      { r with copies := r.copies ++ [⟨s2.opId, t, slotGen s1 t, f, source, recvs, wfield x 0 32, 0, false⟩] }) := by
  refine issueSeq_runs hi (Runs.bind hloc (Runs.bind hread (Runs.passes (fun h => h.elim hlen fun h => h hlines) (Runs.bind (Runs.chkEngAlign s1 hdv)
    (Runs.bind (Runs.chkEngAlign s1 hsv) (Runs.bind (Runs.chkEngPlain s1 hdplain) (Runs.bind (Runs.chkEngPlain s1 hsplain)
      (Runs.passes (fun h => h.elim (fun h => h hhigh) hbar) (Runs.bind hsource (Runs.passes hmask (Runs.bind (Runs.me hc) (Runs.bind (Runs.myGen hc) ?_))))))))))))
  exact copyReceivers_then hrecvs (Runs.bind hroom (Runs.bind hconfirmed (Runs.bind hfence (Runs.bind hmake (Runs.bind (Runs.newOp s2)
    (Runs.modify _ _))))))

theorem cpyr_enters (ht : s1.thread? t = some th1) (hlen : wfield x 0 20 ≠ 0)
    (hfmt : ([1, 2, 3, 9].contains fmt.toNat) = true) (hindex : wfield x 20 12 ≤ wfield x 32 12)
    (hbar : ¬ (bitAt x 63 = true ∧ dk = true)) (hlocal : dk = false → wfield dv 54 2 ≠ 0)
    (hsource : Runs (engAddr sv (wfield x 0 20 * 16) sk) s1 source s1) (hdest : Runs (engAddr dv (wfield x 0 20 * 16) dk) s1 dest s1)
    (hcapture : Runs (captureBar dv (if bitAt x 63 then some (wfield x 44 19 * 16) else none)) s1 bar s1) (hmask : cmask = 0) :
    exec (.cpyr h d dst src c sk dk ⟨fmt, cmask⟩) s = retired t h .seq
      { s2 with
        opId := s2.opId + 1
        nt := { s2.nt with contribs := s2.nt.contribs ++ [
          { id := s2.opId, t := t, gen := slotGen s1 t, fut := f, part := th1.ctl.slice.part, dst := dest, fmt := fmt.toNat
            len := wfield x 0 20 * 16, index := wfield x 20 12, nm1 := wfield x 32 12, src := source, data := none, bar := bar
            resolveOff := false, refused := none, refusals := 0, since := 0 }] } } := by
  have hlegal : ¬ (wfield x 20 12 > wfield x 32 12 ∨ (bitAt x 63 = true ∧ dk = true) ∨ ((!dk) = true ∧ wfield dv 54 2 = 0) ∨ cmask ≠ 0) := by
    rintro (hbig | hboth | ⟨hdk, hspace⟩ | hnonzero)
    · exact Nat.not_lt.2 hindex hbig
    · exact hbar hboth
    · exact hlocal ((Bool.not_eq_true' dk).mp hdk) hspace
    · exact hnonzero hmask
  refine issueSeq_runs hi (Runs.bind hloc (Runs.bind hread (Runs.passes (fun h => hlen (by omega)) (Runs.bind (Runs.chkEngAlign s1 hdv)
    (Runs.bind (Runs.chkEngAlign s1 hsv) (Runs.bind (Runs.chkEngPlain s1 hdplain) (Runs.bind (Runs.chkEngPlain s1 hsplain)
      (Runs.passes (by rw [hfmt]; decide) (Runs.passes hlegal (Runs.bind hsource (Runs.bind hdest (Runs.bind hcapture ?_))))))))))))
  exact Runs.bind hroom (Runs.bind hconfirmed (Runs.bind hfence (Runs.bind (Runs.me hc) (Runs.bind (Runs.myGen hc) (Runs.bind (Runs.ctl hc ht)
    (Runs.bind hmake (Runs.bind (Runs.newOp s2) (Runs.modify _ _))))))))

end Copies

/-! ### Barrier objects -/

/-- What BOARR does with the address and the count that it has read. -/
def boarrSends (av cv : Word) : Exec Unit := do
  let x ← boPlace av
  if 2 ^ 32 ≤ cv.toNat then permTrap av
  if !(← get).typedAt x 16 then permTrap av 1
  fenceHold 3
  let t ← me; let th ← thr; let ct := th.ctl; let tgen ← myGen
  let id ← newOp
  modify fun s => { s with nt := { s.nt with boarrs := s.nt.boarrs ++ [⟨id, t, tgen, ct.slice, x, boGenOf (s.rd x 16), cv.toNat, th.seen⟩] } }

theorem boarrSends_runs {t : ThreadId} {th1 : Thread} {s1 : State} {av cv : Word} {x : Addr} (hplace : Runs (boPlace av) s1 x s1)
    (hfence : Runs (fenceHold 3) s1 () s1) (hfits : cv.toNat < 2 ^ 32) (htyped : s1.typedAt x 16 = true) (hc : s1.cur = .thread t) (ht : s1.thread? t = some th1) :
    Runs (boarrSends av cv) s1 () { s1 with
      opId := s1.opId + 1
      nt := { s1.nt with boarrs := s1.nt.boarrs ++ [⟨s1.opId, t, slotGen s1 t, th1.ctl.slice, x, boGenOf (s1.rd x 16), cv.toNat, th1.seen⟩] } } :=
  Runs.bind hplace (Runs.passes (Nat.not_le.2 hfits) (Runs.bind (Runs.get s1) (Runs.passes (by rw [htyped]; decide) (Runs.bind hfence
    (Runs.bind (Runs.me hc) (Runs.bind (Runs.thr hc ht) (Runs.bind (Runs.myGen hc) (Runs.bind (Runs.newOp s1) (Runs.modify _ _)))))))))

section Objects
variable {h : Hdr} {t : ThreadId} {th th1 : Thread} {s s0 s1 s2 s3 : State} {a : Reg} {o : Opnd} {c : Src} {gd : BitVec 3} {av cv : Word} {x : Addr}
  (hi : Issues h t th s s0) (hplace : Runs (boPlace av) s1 x s1) (hfence : Runs (fenceHold 3) s1 () s1)
include hi hplace hfence

/-- The granule of a barrier object under its next generation (log entry 46), with a count that is still to come. -/
def boStarted (s : State) (x : Addr) (count : Nat) : State :=
  (clearTags x 16 (fireWatches (s.wr x 16 (boWord ((boGenOf (s.rd x 16) + 1) % 256) false false 0 count)) x 16)).setFull (x / 16) false

theorem boinit_types (hread : Runs (rd2 h (.w a) (.op o)) s0 (av, cv) s1) (hcount : cv ≠ 0) (hfits : cv.toNat < 2 ^ 32)
    (hwatch : Runs (watchMine x 16 true) { boStarted s1 x cv.toNat with
      st := { (boStarted s1 x cv.toNat).st with typed := nins (boStarted s1 x cv.toNat).st.typed (x / 16) } } () s2) :
    exec (.boinit h a (some o)) s = retired t h .seq s2 :=
  issueSeq_runs hi (Runs.bind hread (Runs.bind hplace (Runs.passes (fun h => h.elim hcount (Nat.not_le.2 hfits)) (Runs.bind hfence
    (Runs.bind (Runs.get s1) (Runs.bind (Runs.modify _ s1) hwatch))))))

theorem boinit_untypes (hread : Runs (rd1 h (.w a)) s0 av s1)
    (hwatch : Runs (watchMine x 16 true) { boStarted s1 x 0 with
      st := { (boStarted s1 x 0).st with typed := ndel (boStarted s1 x 0).st.typed (x / 16) } } () s2) :
    exec (.boinit h a none) s = retired t h .seq s2 :=
  issueSeq_runs hi (Runs.bind hread (Runs.bind (Runs.pure (av, 1) s1) (Runs.bind hplace (Runs.passes (by decide) (Runs.bind hfence
    (Runs.bind (Runs.get s1) (Runs.bind (Runs.modify _ s1) hwatch)))))))

section Wait
variable (hread : Runs (rd1 h (.w a)) s0 av s1) (hc : s1.cur = .thread t) (ht : s1.thread? t = some th1) (hwatch : Runs (watchMine x 16 false) s1 () s2)
include hread hc ht hwatch

/-- The generation that a thread waits for. -/
def boWaitsFor (s : State) (th : Thread) (x : Addr) : Nat := (th.boWait.map (·.gen)).getD (boGenOf (s.rd x 16))

/-- Whether the granule is a barrier object in the generation that the thread waits for. -/
def boStands (s : State) (th : Thread) (x : Addr) : Bool := s.typedAt x 16 && decide (boGenOf (s.rd x 16) = boWaitsFor s th x)

/-- A thread that goes on past a barrier object has seen what those who arrived had (log entries 139 and 110). -/
theorem bowait_done (hdone : (th1.boWait.map (·.done)).getD false = true ∨ boStands s1 th1 x = true ∧ (s1.rd x 16).testBit 0 = true)
    (hc2 : s2.cur = .thread t) (hset : Runs (setGuard gd true) (syncP t s2) () s3) : exec (.bowait h gd a) s = retired t h .seq s3 := by
  have hcome : ((th1.boWait.map (·.done)).getD false || (boStands s1 th1 x && (s1.rd x 16).testBit 0)) = true := by
    simpa only [Bool.or_eq_true, Bool.and_eq_true] using hdone
  exact issueSeq_runs hi (Runs.bind hread (Runs.bind hplace (Runs.bind hfence (Runs.bind (Runs.get s1) (Runs.bind (Runs.thr hc ht)
    (Runs.bind hwatch (Runs.chosen hcome (Runs.bind (Runs.me hc2) (Runs.bind (Runs.modify _ s2) hset)))))))))

theorem bowait_gone (hdone : (th1.boWait.map (·.done)).getD false = false) (hgone : boStands s1 th1 x = false)
    (hset : Runs (setGuard gd false) s2 () s3) : exec (.bowait h gd a) s = retired t h .seq s3 := by
  have hopen : ¬ ((th1.boWait.map (·.done)).getD false || (boStands s1 th1 x && (s1.rd x 16).testBit 0)) = true := by
    rw [hdone, hgone]
    exact Bool.false_ne_true
  exact issueSeq_runs hi (Runs.bind hread (Runs.bind hplace (Runs.bind hfence (Runs.bind (Runs.get s1) (Runs.bind (Runs.thr hc ht)
    (Runs.bind hwatch (Runs.passes hopen (Runs.passes (Bool.eq_false_iff.1 hgone) hset))))))))

theorem bowait_waits (hdone : (th1.boWait.map (·.done)).getD false = false) (hhere : boStands s1 th1 x = true)
    (hrunning : (s1.rd x 16).testBit 0 = false) (hc2 : s2.cur = .thread t) : exec (.bowait h gd a) s =
      .next (setPhase (s2.modThread t fun y => { y with boWait := some ⟨x, boWaitsFor s1 th1 x, false⟩ }) t (.parked .message)) := by
  have hopen : ¬ ((th1.boWait.map (·.done)).getD false || (boStands s1 th1 x && (s1.rd x 16).testBit 0)) = true := by
    rw [hdone, hrunning, Bool.and_false]
    exact Bool.false_ne_true
  exact issueSeq_fails (e := .wait (.parked .message)) hi (Fails.bind hread (Fails.bind hplace (Fails.bind hfence (Fails.bind (Runs.get s1)
    (Fails.bind (Runs.thr hc ht) (Fails.bind hwatch (Fails.passes hopen (Fails.chosen hhere (Fails.bind (Runs.modT _ hc2) (Fails.throw _ _))))))))))

end Wait

end Objects

/-! ### Rectangle barriers -/

/-- Where the thread in slot k waits at its barrier: in the count that it stands in already, or in the one that has room. -/
def barWait (t : ThreadId) (sl : SliceId) (n : Nat) (b : BarState) (k : Nat) : Exec Unit :=
  if b.arrived.contains k then throw (.wait (.barrier n 1))
  else if b.next.contains k then throw (.wait (.barrier n 2))
  else if b.arrived.length < b.nthrM1 + 1 then do
    modify fun s => putBar s t.core sl n { b with arrived := b.arrived ++ [k] }
    throw (.wait (.barrier n 1))
  else do
    modify fun s => putBar s t.core sl n { b with next := b.next ++ [k] }
    throw (.wait (.barrier n 2))

section Standing
variable {t : ThreadId} {s0 : State} {b : BarState} {k : Nat} {sl : SliceId} {m : Nat}

theorem barWait_again (hk : k ∈ b.arrived) : Fails (barWait t sl m b k) s0 (.wait (.barrier m 1)) s0 := by
  rw [barWait, if_pos (List.contains_iff_mem.2 hk)]
  exact Fails.throw _ s0

theorem barWait_againNext (hk : k ∉ b.arrived) (hnext : k ∈ b.next) : Fails (barWait t sl m b k) s0 (.wait (.barrier m 2)) s0 := by
  rw [barWait, if_neg (mt List.contains_iff_mem.1 hk), if_pos (List.contains_iff_mem.2 hnext)]
  exact Fails.throw _ s0

theorem barWait_arrives (hk : k ∉ b.arrived) (hnext : k ∉ b.next) (hroom : b.arrived.length < b.nthrM1 + 1) :
    Fails (barWait t sl m b k) s0 (.wait (.barrier m 1)) (putBar s0 t.core sl m { b with arrived := b.arrived ++ [k] }) := by
  rw [barWait, if_neg (mt List.contains_iff_mem.1 hk), if_neg (mt List.contains_iff_mem.1 hnext), if_pos hroom]
  exact Fails.bind (Runs.modify _ s0) (Fails.throw _ _)

theorem barWait_arrivesNext (hk : k ∉ b.arrived) (hnext : k ∉ b.next) (hfull : b.nthrM1 + 1 ≤ b.arrived.length) :
    Fails (barWait t sl m b k) s0 (.wait (.barrier m 2)) (putBar s0 t.core sl m { b with next := b.next ++ [k] }) := by
  rw [barWait, if_neg (mt List.contains_iff_mem.1 hk), if_neg (mt List.contains_iff_mem.1 hnext), if_neg (Nat.not_lt.2 hfull)]
  exact Fails.bind (Runs.modify _ s0) (Fails.throw _ _)

end Standing

section Barriers
variable {h : Hdr} {t : ThreadId} {th th1 : Thread} {s s0 s1 : State} {n : BitVec 2} {b : BarState} (hi : Issues h t th s s0)
include hi

section Bar
variable (habort : Runs sampleAbort s0 () s0) (hbar : Runs (myBar n.toNat) s0 b s0) (hv : b.v = true)
  (hstores : ((s0.core t.core).storeq.any fun e => decide (e.t = t ∧ e.gen = slotGen s0 t ∨ e.id < th.seen)) = false)
include habort hbar hv hstores

theorem bar_waits {ph : Phase} (hwait : Fails (barWait t th.ctl.slice n.toNat b (barSlot t th.ctl.slice)) s0 (.wait ph) s1) :
    exec (.bar h n) s = .next (setPhase s1 t ph) := by
  exact issueSeq_fails (e := .wait ph) hi (Fails.bind habort (Fails.bind hbar (Fails.passes (by rw [hv]; decide) (Fails.bind (Runs.me hi.cur)
    (Fails.bind (Runs.thr hi.cur hi.live) (Fails.bind (Runs.myGen hi.cur) (Fails.bind (Runs.get s0) (Fails.passes (Bool.eq_false_iff.1 hstores)
      hwait))))))))

end Bar

/-! ### BARSET -/

section Barset
variable {r : Reg} {sl : SliceRec} {w : Word}

theorem barset_clears (hbar : Runs (myBar n.toNat) s0 b s0) (hnobody : b.arrived = []) :
    exec (.barset h n none) s = retired t h .seq (putBar s0 t.core th.ctl.slice n.toNat { b with v := false }) :=
  issueSeq_runs hi (Runs.bind (Runs.me hi.cur) (Runs.bind (Runs.ctl hi.cur hi.live) (Runs.bind hbar (Runs.passes (by rw [hnobody]; decide)
    (Runs.modify _ s0)))))

theorem barset_sets (hread : Runs (rd1 h (.w r)) s0 w s1) (hslice : Runs mySlice s1 sl s1)
    (hhigh : wfield w 21 35 = 0) (hfrom : (placePhys s1 t.core (16 * wfield w 4 4 + wfield w 12 4)).isSome = true)
    (hto : (placePhys s1 t.core (16 * (wfield w 4 4 + wfield w 0 4) + wfield w 12 4 + wfield w 8 4)).isSome = true)
    (hrect : rectOk sl t.core.core (wfield w 12 4) (wfield w 8 4) (wfield w 4 4) (wfield w 0 4) (wfield w 16 4) = true)
    (hbar : Runs (myBar n.toNat) s1 b s1) (hnobody : b.arrived = []) :
    exec (.barset h n (some r)) s = retired t h .seq (putBar s1 t.core th.ctl.slice n.toNat
      { b with v := true, nthrM1 := wfield w 16 4, x0 := wfield w 12 4, wM1 := wfield w 8 4, y0 := wfield w 4 4, hM1 := wfield w 0 4 }) := by
  have hplaced : ¬ ((placePhys s1 t.core (16 * wfield w 4 4 + wfield w 12 4)).isNone ||
      (placePhys s1 t.core (16 * (wfield w 4 4 + wfield w 0 4) + wfield w 12 4 + wfield w 8 4)).isNone) = true := by
    rw [Option.isNone_eq_false_iff.2 hfrom, Option.isNone_eq_false_iff.2 hto]
    exact Bool.false_ne_true
  exact issueSeq_runs hi (Runs.bind (Runs.me hi.cur) (Runs.bind (Runs.ctl hi.cur hi.live) (Runs.bind hread (Runs.bind hslice
    (Runs.passes (fun h => h hhigh) (Runs.bind (Runs.get s1) (Runs.passes hplaced (Runs.passes (by rw [hrect]; decide) (Runs.bind hbar
      (Runs.passes (by rw [hnobody]; decide) (Runs.modify _ s1)))))))))))

end Barset

end Barriers


/-! ### Handles of circular buffers -/

/-- No subscription of a handle stands on the side that does not advance. -/
theorem subs_oneSided {l : List SubRec} {prod : Bool} (hsubs : ∀ y ∈ l, y.wb = prod) : ¬ (l.any fun x => x.wb != prod) = true := by
  simp only [List.any_eq_true, bne_iff_ne, ne_eq, not_exists, not_and, Decidable.not_not]
  exact hsubs

section Handles
variable {h : Hdr} {t : ThreadId} {th th1 : Thread} {s s0 s1 s2 : State} {cb : Fin 16} (hi : Issues h t th s s0)
include hi

theorem cbset_unbinds (hfree : Runs (handleFree cb.val) s0 () s0) :
    exec (.cbset h cb none) s = retired t h .seq (s0.modCore t.core fun y => { y with cbs := tdel y.cbs (th.ctl.slice, cb.val) }) :=
  issueSeq_runs hi (Runs.bind (Runs.me hi.cur) (Runs.bind (Runs.ctl hi.cur hi.live) (Runs.bind hfree (Runs.modify _ s0))))

theorem cbset_binds {r : Reg} {off : BitVec 16} {w a : Word} {x : Addr} {m : Nat} {sl : SliceRec} (hread : Runs (rd1 h (.w r)) s0 w s1)
    (ha : a = w + off.signExtend 64) (hlocal : resolveLocal s1 t.core th.ctl.slice a = some (x, .inl t.core)) (haligned : a.toNat % 8 = 0)
    (hclean : s1.poisoned x 8 = false) (hwatch : Runs (watchMine x 8 false) s1 () s1) (hm : m = s1.rd x 8) (hhigh : field m 50 14 = 0)
    (hmid : field m 23 7 = 0) (hsize : 1 ≤ field m 30 12) (hmost : field m 30 12 ≤ 2048) (hbase : field m 0 23 % 16 = 0)
    (hslice : Runs mySlice s1 sl s1) (hin : sl.inData (field m 0 23) ((field m 42 8 + 1) * field m 30 12 * 16) = true)
    (hfree : Runs (handleFree cb.val) s1 () s1) (hset : Runs (setCb cb.val ⟨field m 42 8, field m 30 12, field m 0 23, 0, 0, 0⟩) s1 () s2) :
    exec (.cbset h cb (some (r, off))) s = retired t h .seq s2 := by
  subst ha hm
  have hlegal : ¬ (field (s1.rd x 8) 50 14 ≠ 0 ∨ field (s1.rd x 8) 23 7 ≠ 0 ∨ field (s1.rd x 8) 30 12 = 0 ∨ field (s1.rd x 8) 30 12 > 2048 ∨
      field (s1.rd x 8) 0 23 % 16 ≠ 0 ∨ (!sl.inData (field (s1.rd x 8) 0 23) ((field (s1.rd x 8) 42 8 + 1) * field (s1.rd x 8) 30 12 * 16)) = true) := by
    rw [hin]
    rintro (h | h | h | h | h | h)
    · exact h hhigh
    · exact h hmid
    · omega
    · omega
    · exact h hbase
    · exact Bool.false_ne_true h
  refine issueSeq_runs hi (Runs.bind (Runs.me hi.cur) (Runs.bind (Runs.ctl hi.cur hi.live) (Runs.bind hread (Runs.bind (Runs.get s1)
    (Runs.bind (Runs.orStop_some s1 hlocal) (Runs.passes (fun h => h rfl) (Runs.passes (fun h => h haligned) (Runs.bind (Runs.get s1)
      (Runs.passes (Bool.eq_false_iff.1 hclean) (Runs.bind hwatch (Runs.bind (Runs.get s1) (Runs.bind hslice (Runs.passes hlegal
        (Runs.bind hfree hset))))))))))))))

section Advance
variable {q : Src} {k : Nat} {b : CbState} (hcount : Runs (boCount h q) s0 k s1) (hbound : Runs (cbBound cb.val) s1 b s1) (hslots : k ≤ b.slots)
  (hc : s1.cur = .thread t) (ht : s1.thread? t = some th1)
include hcount hbound hslots hc ht

theorem adv_consumes (hsubs : ∀ y ∈ handleSubs s1 t.core th1.ctl.slice cb.val, y.wb = false) (hfilled : k ≤ b.filled)
    (hend : Runs (do claimHold cb.val; setCb cb.val { b with c := (b.c + k) % 2 ^ 32 }) s1 () s2) : exec (.adv h cb q false) s = retired t h .seq s2 :=
  issueSeq_runs hi (Runs.bind hcount (Runs.bind hbound (Runs.passes (Nat.not_lt.2 hslots) (Runs.bind (Runs.me hc) (Runs.bind (Runs.ctl hc ht)
    (Runs.bind (Runs.get s1) (Runs.passes (subs_oneSided hsubs) (Runs.chosen rfl (Runs.passes (Nat.not_lt.2 hfilled) hend)))))))))

theorem adv_produces (hsubs : ∀ y ∈ handleSubs s1 t.core th1.ctl.slice cb.val, y.wb = true) (hroom : k ≤ b.room)
    (hend : Runs (do fillSlots b k b.p; setCb cb.val { b with p := (b.p + k) % 2 ^ 32 }) s1 () s2) : exec (.adv h cb q true) s = retired t h .seq s2 :=
  issueSeq_runs hi (Runs.bind hcount (Runs.bind hbound (Runs.passes (Nat.not_lt.2 hslots) (Runs.bind (Runs.me hc) (Runs.bind (Runs.ctl hc ht)
    (Runs.bind (Runs.get s1) (Runs.passes (subs_oneSided hsubs) (Runs.passes Bool.false_ne_true (Runs.passes (Nat.not_lt.2 hroom) hend)))))))))

end Advance

end Handles

/-- Settles O14: each instruction is its stages in a row. That BOINIT moves on the generation bits that stand, typed or not (log entry 46), and what
BOWAIT synchronises (log entries 139 and 110), are the model's choices. -/
theorem engineAndBarrierInstructionsComplete : Obligations.EngineAndBarrierInstructionsComplete := by
  unfold Obligations.EngineAndBarrierInstructionsComplete
  refine ⟨?engines, ?objects, ?barriers⟩
  case engines =>
    intro h t th th1 s s0 s1 s2 d dst src c cmask fmt sk dk loc dv sv x fa source dest recvs bar f hi hloc hread hdv hsv hdplain hsplain hc ht hroom
      hconfirmed hfence hmake
    refine ⟨fun hlen hlines hhigh hbar hmask hsource hmulti hplain hlocal => cpy_enters hi hloc hread hdv hsv hdplain hsplain hc hroom hconfirmed hfence
      hmake hlen hlines hhigh hbar hmask hsource ?_, cpyr_enters hi hloc hread hdv hsv hdplain hsplain hc hroom hconfirmed hfence hmake ht⟩
    by_cases hcm : cmask = 0
    · refine Runs.passes (fun h => h hcm) ?_
      cases hdk : dk with
      | true =>
        obtain ⟨hone, rfl⟩ := hplain hcm hdk
        exact Runs.chosen rfl (Runs.bind hone (Runs.pure _ s1))
      | false =>
        obtain ⟨r, hone, rfl⟩ := hlocal hcm hdk
        exact Runs.passes Bool.false_ne_true (Runs.bind hone (Runs.pure _ s1))
    · exact Runs.chosen hcm (hmulti hcm)
  case objects =>
    intro h t th th1 s s0 s1 s2 s3 a o c gd av cv x hi
    refine ⟨fun hread hplace hcount hfits hfence => boinit_types hi hplace hfence hread hcount hfits,
      fun hread hplace hfence => boinit_untypes hi hplace hfence hread, fun hop h16 h32 hplace hfits htyped hfence hc ht => ?arrives,
      fun hread hplace hfence hc ht hwatch hc2 => ⟨fun hdone => bowait_done hi hplace hfence hread hc ht hwatch hdone hc2,
        bowait_gone hi hplace hfence hread hc ht hwatch,
        fun hdone hhere hrunning => bowait_waits hi hplace hfence hread hc ht hwatch hdone hhere hrunning hc2⟩⟩
    have hsends := boarrSends_runs (av := av) hplace hfence hfits htyped hc ht
    cases c with
    | op y => exact issueSeq_runs hi (Runs.bind (hop y rfl) hsends)
    | imm16 i =>
      obtain ⟨hread, rfl⟩ := h16 i rfl
      exact issueSeq_runs hi (Runs.bind hread (Runs.bind (Runs.pure (av, _) s1) hsends))
    | imm32 i =>
      obtain ⟨hread, rfl⟩ := h32 i rfl
      exact issueSeq_runs hi (Runs.bind hread (Runs.bind (Runs.pure (av, _) s1) hsends))
  case barriers =>
    intro h t th th1 s s0 s1 s2 n r sl b w a cb off x q k m hb hi
    exact ⟨fun habort hbar hv hstores => ⟨fun hk => bar_waits hi habort hbar hv hstores (barWait_again hk),
        fun hk hnext => bar_waits hi habort hbar hv hstores (barWait_againNext hk hnext),
        fun hk hnext hroom => bar_waits hi habort hbar hv hstores (barWait_arrives hk hnext hroom),
        fun hk hnext hfull => bar_waits hi habort hbar hv hstores (barWait_arrivesNext hk hnext hfull)⟩,
      barset_clears hi, fun hread hc ht => barset_sets hi hread, cbset_unbinds hi, cbset_binds hi,
      fun hcount hbound hslots hc ht => ⟨adv_consumes hi hcount hbound hslots hc ht, adv_produces hi hcount hbound hslots hc ht⟩⟩

end Sys2Proof.Machine
end

section
/-!
The element-wise vector instructions (R402, R403, R407) and the functions of Float lanes (R220): lane j of the result is the instruction's function of
lanes j of the sources.
-/
namespace Sys2Proof.Machine

section Lanes
variable {h : Hdr} {t : ThreadId} {th : Thread} {s s0 s1 : State} {d : VReg} {srcs : List Src} {m : VMask} {tag : Nat} {c : Captured}
  {mk : Option Nat} {xs : List Nat}

/-- An instruction of numbers on Float lanes. -/
theorem elementwise_float {tg : Exec Nat} {f : Fmt} {ff : Captured → Fmt → List Nat → Nat} {fi : Nat → List Nat → Nat} (hi : Issues h t th s s0)
    (hc : Runs capture s0 c s0) (hm : Runs (maskOf m) s0 mk s0) (htag : Runs tg s0 tag s0) (hf : fmtOf tag = some f)
    (hsrcs : Runs (vecSrcs (laneW tag) srcs) s0 xs s0)
    (hwrite : Runs (wrLanes d (laneW tag) tag mk fun j => ff c f (xs.map fun x => lane x (laneW tag) j)) s0 () s1) :
    elementwise h d srcs m tg (numLane ff fi) s = retired t h .seq s1 := by
  refine elementwise_runs hi htag hc hm hsrcs ?_
  simpa only [numLane, hf] using hwrite

/-- An instruction of numbers on Int lanes. -/
theorem elementwise_int {tg : Exec Nat} {ff : Captured → Fmt → List Nat → Nat} {fi : Nat → List Nat → Nat} (hi : Issues h t th s s0)
    (hc : Runs capture s0 c s0) (hm : Runs (maskOf m) s0 mk s0) (htag : Runs tg s0 tag s0) (hf : fmtOf tag = none)
    (hsrcs : Runs (vecSrcs (laneW tag) srcs) s0 xs s0)
    (hwrite : Runs (wrLanes d (laneW tag) tag mk fun j => fi (laneW tag) (xs.map fun x => lane x (laneW tag) j)) s0 () s1) :
    elementwise h d srcs m tg (numLane ff fi) s = retired t h .seq s1 := by
  refine elementwise_runs hi htag hc hm hsrcs ?_
  simpa only [numLane, hf] using hwrite

/-- The same of an instruction with .sat, which a Float tag forbids (R403). -/
theorem elementwise_satFloat {bad : TrapRec} {sat : Bool} {f : Fmt} {ff : Captured → Fmt → List Nat → Nat} {fi : Nat → List Nat → Nat}
    (hi : Issues h t th s s0) (hc : Runs capture s0 c s0) (hm : Runs (maskOf m) s0 mk s0) (htag : Runs (arithTag isNumTag srcs) s0 tag s0)
    (hf : fmtOf tag = some f) (hoff : sat = false) (hsrcs : Runs (vecSrcs (laneW tag) srcs) s0 xs s0)
    (hwrite : Runs (wrLanes d (laneW tag) tag mk fun j => ff c f (xs.map fun x => lane x (laneW tag) j)) s0 () s1) :
    elementwise h d srcs m (satTag bad sat srcs) (numLane ff fi) s = retired t h .seq s1 :=
  elementwise_float hi hc hm (satTag_runs htag (float_off hoff)) hf hsrcs hwrite

theorem elementwise_satInt {bad : TrapRec} {sat : Bool} {ff : Captured → Fmt → List Nat → Nat} {fi : Nat → List Nat → Nat}
    (hi : Issues h t th s s0) (hc : Runs capture s0 c s0) (hm : Runs (maskOf m) s0 mk s0) (htag : Runs (arithTag isNumTag srcs) s0 tag s0)
    (hf : fmtOf tag = none) (hsrcs : Runs (vecSrcs (laneW tag) srcs) s0 xs s0)
    (hwrite : Runs (wrLanes d (laneW tag) tag mk fun j => fi (laneW tag) (xs.map fun x => lane x (laneW tag) j)) s0 () s1) :
    elementwise h d srcs m (satTag bad sat srcs) (numLane ff fi) s = retired t h .seq s1 :=
  elementwise_int hi hc hm (satTag_runs htag (int_off hf)) hf hsrcs hwrite

end Lanes

/-- Settles O15: each instruction is an element-wise one, of Float lanes, of Int lanes or blind to the tag. That VABS and VNEG leave the captured FZI
out is the model's choice (log entry 52). -/
theorem vectorLanesComplete : Obligations.VectorLanesComplete := by
  unfold Obligations.VectorLanesComplete
  constructor
  · rintro h t th s s0 s1 d a b' x b m sgn sat f tag p q r w c mk hi hc hm rfl
    refine ⟨fun htag hsrcs => ⟨fun hf hoff => ⟨fun hwrite => ?vabsFloat, fun hwrite => ?vnegFloat⟩,
        fun hf => ⟨fun hwrite => ?vabsInt, fun hwrite => ?vnegInt⟩⟩,
      fun htag hsrcs => ⟨fun hf => ⟨fun hoff hwrite => ?vaddFloat, fun hoff hwrite => ?vsubFloat, fun hoff hwrite => ?vmulFloat,
          fun hwrite => ?vmaxFloat, fun hwrite => ?vminFloat⟩,
        fun hf => ⟨fun hwrite => ?vaddInt, fun hwrite => ?vsubInt, fun hwrite => ?vmulInt, fun hwrite => ?vmaxInt, fun hwrite => ?vminInt⟩⟩,
      fun htag hsrcs => ⟨fun hf hoff hwrite => ?vfmaFloat, fun hf hwrite => ?vfmaInt⟩⟩
    all_goals change elementwise h d _ m _ (numLane _ _) s = _
    case vabsFloat | vnegFloat | vaddFloat | vsubFloat | vmulFloat | vfmaFloat => exact elementwise_satFloat hi hc hm htag hf hoff hsrcs hwrite
    case vabsInt | vnegInt | vaddInt | vsubInt | vmulInt | vfmaInt => exact elementwise_satInt hi hc hm htag hf hsrcs hwrite
    case vmaxFloat | vminFloat => exact elementwise_float hi hc hm htag hf hsrcs hwrite
    case vmaxInt | vminInt => exact elementwise_int hi hc hm htag hf hsrcs hwrite
  · rintro h t th s s0 s1 d a b m sgn f tag p q w c mk hi hc hm rfl
    refine ⟨fun htag hsrcs => ⟨fun hwrite => ?vand, fun hwrite => ?vor, fun hwrite => ?vxor⟩,
      fun htag hsrcs => ⟨fun hwrite => ?vshl, fun hwrite => ?vshr⟩,
      fun htag hf hsrcs => ⟨fun hwrite => ?vexp, fun hwrite => ?vlog, fun hwrite => ?vrcp, fun hwrite => ?vrsq⟩⟩
    case vand | vor | vxor | vshl | vshr =>
      simp only [exec, execVand, execVor, execVxor, execVshl, execVshr]
      exact elementwise_runs hi htag hc hm hsrcs hwrite
    case vexp | vlog | vrcp | vrsq =>
      change elementwise h d _ m _ (numLane _ _) s = _
      exact elementwise_float hi hc hm htag hf hsrcs hwrite

end Sys2Proof.Machine
end

section
/-!
Comparison, selection, permutation, broadcast, reduction and conversion of vectors (R404 to R406, R411, R412), the soft maximum (R254, R255) and RNG
(R256), each from stages that complete.
-/
namespace Sys2Proof.Machine

/-! ### Comparison, selection and permutation -/

section Vectors
variable {h : Hdr} {t : ThreadId} {th : Thread} {s s0 s1 s2 : State} {d va : VReg} {dm sm : Fin 8} {dr : Reg} {a i : Opnd} {b : Src} {m : VMask}
  {sgn : Bool} {cond fmt : BitVec 4} {seg : BitVec 2} {f : Fmt} {tag p q w k old ka kd book src : Nat} {c : Captured} {mk : Option Nat} {v : Word}
  (hi : Issues h t th s s0)
include hi

section Compare
variable (hc : Runs capture s0 c s0) (hm : Runs (maskOf m) s0 mk s0) (htag : Runs (arithTag isCmpTag [.op a, b]) s0 tag s0)
  (hsrcs : Runs (vecSrcs (laneW tag) [.op a, b]) s0 [p, q] s0)
include hc hm htag hsrcs

/-- Lane j of a comparison. -/
def cmpLane (c : Captured) (sgn : Bool) (cond tag p q j : Nat) : Bool :=
  fcmpHolds cond (laneOrder c sgn tag (lane p (laneW tag) j) (lane q (laneW tag) j))

theorem vcmp_whole (hmk : mk = none)
    (hwrite : Runs (wrM dm.val (packBits (laneCount (laneW tag)) (cmpLane c sgn cond.toNat tag p q))) s0 () s1) :
    exec (.vcmp h dm a b m sgn cond) s = retired t h .seq s1 := by
  subst hmk
  exact issueSeq_runs hi (Runs.bind htag (Runs.bind hc (Runs.bind hm (Runs.bind hsrcs hwrite))))

theorem vcmp_masked (hmk : mk = some k) (hold : Runs (mBits dm.val) s0 old s0)
    (hwrite : Runs (wrM dm.val (packBits 256 fun j => if j < laneCount (laneW tag) && maskBit k (laneW tag) j then
      cmpLane c sgn cond.toNat tag p q j else old.testBit j)) s0 () s1) : exec (.vcmp h dm a b m sgn cond) s = retired t h .seq s1 := by
  subst hmk
  exact issueSeq_runs hi (Runs.bind htag (Runs.bind hc (Runs.bind hm (Runs.bind hsrcs (Runs.bind hold hwrite)))))

end Compare

theorem vsel_selects (htag : Runs (blindTag [.op a, .op i]) s0 tag s0) (hbits : Runs (mBits sm.val) s0 k s0)
    (hsrcs : Runs (vecSrcs (laneW tag) [.op a, .op i]) s0 [p, q] s0)
    (hwrite : Runs (wrLanes d (laneW tag) tag none fun j => if maskBit k (laneW tag) j then lane p (laneW tag) j else lane q (laneW tag) j) s0 () s1) :
    exec (.vsel h d a i sm) s = retired t h .seq s1 :=
  issueSeq_runs hi (Runs.bind htag (Runs.bind hbits (Runs.bind hsrcs hwrite)))

theorem vperm_permutes {l : List (Nat × Nat)} (htags : Runs (vecTags [.op a, .op i]) s0 l s0) (hwide : tagBits (headTag l) ≠ 4)
    (hm : Runs (maskOf m) s0 mk s0) (hsrcs : Runs (vecSrcs (laneW (headTag l)) [.op a, .op i]) s0 [p, q] s0)
    (hwrite : Runs (wrLanes d (laneW (headTag l)) (headTag l) mk fun j =>
      lane p (laneW (headTag l)) (lane q (laneW (headTag l)) j % laneCount (laneW (headTag l)))) s0 () s1) :
    exec (.vperm h d a i m) s = retired t h .seq s1 :=
  issueSeq_runs hi (Runs.bind htags (Runs.passes hwide (Runs.bind hm (Runs.bind hsrcs hwrite))))

theorem vbcast_broadcasts (hread : Runs (do chkSrc b; rdSrc h b) s0 v s1) (hm : Runs (maskOf m) s1 mk s1)
    (hwrite : Runs (wrLanes d (laneW fmt.toNat) fmt.toNat mk fun _ => v.toNat % 2 ^ laneW fmt.toNat) s1 () s2) :
    exec (.vbcast h d b m fmt) s = retired t h .seq s2 := by
  obtain ⟨_, _, hcheck, hvalue⟩ := Runs.split hread
  exact issueSeq_runs hi (Runs.bind hcheck (Runs.bind hvalue (Runs.bind hm hwrite)))

/-! ### Reduction -/

section Reduction
variable {ff : Captured → Fmt → Nat → Nat → Nat} {nothing : Fmt → Nat} {fi : Nat → List Int → Int} (hc : Runs capture s0 c s0)
  (hm : Runs (maskOf m) s0 mk s0) (htag : Runs (arithTag isNumTag [.op (.v va)]) s0 tag s0) (hsrc : Runs (vecSrc (laneW tag) (.op (.v va))) s0 p s0)
include hc hm htag hsrc

/-- Float lanes go up the tree. -/
theorem reduction_float (hf : fmtOf tag = some f) (hwrite : Runs (wrReg dr (BitVec.ofNat 64
    ((treeUp (ff c f) 9 (presentLanes mk (laneW tag) p)).getD (nothing f)))) s0 () s1) :
    reduction h dr va m ff nothing fi sgn s = retired t h .seq s1 := by
  refine issueSeq_runs hi (Runs.bind htag (Runs.bind hc (Runs.bind hm (Runs.bind hsrc ?_))))
  simpa only [hf] using hwrite

/-- Int lanes are folded. -/
theorem reduction_int (hf : fmtOf tag = none) (hwrite : Runs (wrReg dr (BitVec.ofInt 64
    (fi (laneW tag) (((presentLanes mk (laneW tag) p).filterMap id).map (laneInt sgn (laneW tag)))))) s0 () s1) :
    reduction h dr va m ff nothing fi sgn s = retired t h .seq s1 := by
  refine issueSeq_runs hi (Runs.bind htag (Runs.bind hc (Runs.bind hm (Runs.bind hsrc ?_))))
  simpa only [hf] using hwrite

end Reduction

/-! ### Conversion -/

/-- Lane j of a converted register. -/
def cvtLane (c : Captured) (sgn : Bool) (mk : Option Nat) (tag book src old : Nat) (scale : Word) (fmt seg j : Nat) : Nat :=
  match segLane (laneW tag) (laneW fmt) seg j with
  | some e => if laneOn mk (laneW fmt) j then convertLane c sgn (laneValue c book sgn tag (lane src (laneW tag) e)) (scale.toNat % 2 ^ 32) fmt
      else lane old (laneW fmt) j
  | none => lane old (laneW fmt) j

theorem vcvt_converts (hren : Runs (renV va.val) s0 ka s0) (hcheck : Runs (chkOpnd i) s0 () s0) (htag : Runs (vTag ka) s0 tag s0) (hraw : tagBits tag ≠ 0)
    (hseg : seg.toNat < segLimit (laneW tag) (laneW fmt.toNat)) (hscale : Runs (rdOpnd h i) s0 v s1) (hc : Runs capture s1 c s1)
    (hbook : Runs (rdWin offVcb 32) s1 book s1) (hm : Runs (maskOf m) s1 mk s1) (hsrc : Runs (vBits ka) s1 src s1) (hdest : Runs (renV d.val) s1 kd s1)
    (hold : Runs (vBits kd) s1 old s1)
    (hwrite : Runs (wrV kd (packLanes (laneW fmt.toNat) (cvtLane c sgn mk tag book src old v fmt.toNat seg.toNat)) fmt.toNat) s1 () s2) :
    exec (.vcvt h d va i m sgn fmt seg) s = retired t h .seq s2 :=
  issueSeq_runs hi (Runs.bind hren (Runs.bind hcheck (Runs.bind htag (Runs.passes (fun h => Nat.not_le.2 hseg h.2) (Runs.passes hraw
    (Runs.bind hscale (Runs.bind hc (Runs.bind hbook (Runs.bind hm (Runs.bind hsrc (Runs.bind hdest (Runs.bind hold hwrite))))))))))))

theorem vcb_loads {sp : Span} (hread : Runs (rd1 h (.w dr)) s0 v s1) (hspan : Runs (localSpan v 32 32 false) s1 sp s1)
    (hfence : Runs (fenceHold 1) s1 () s1) (hbytes : Runs (readSpan v sp) s1 p s1) (hwrite : Runs (wrWin offVcb 32 p) s1 () s2) :
    exec (.vcb h dr) s = retired t h .seq s2 :=
  issueSeq_runs hi (Runs.bind hread (Runs.bind hspan (Runs.bind hfence (Runs.bind hbytes hwrite))))

end Vectors

/-! ### The soft maximum and RNG -/

section SoftMaximum
variable {h : Hdr} {t : ThreadId} {th : Thread} {s s0 s1 s2 : State} {gd : BitVec 3} {d a b : VReg} {kd ka kb oa ma ob mb : Nat} {c : Captured}
  (hi : Issues h t th s s0)
include hi

theorem smxm_merges (heven : th.ctl.rep = none → d.val % 2 = 0 ∧ a.val % 2 = 0 ∧ b.val % 2 = 0)
    (hd : Runs (stateReg (illegalOf (.smxm h d a b)) d) s0 kd s0) (ha : Runs (stateReg (illegalOf (.smxm h d a b)) a) s0 ka s0)
    (hb : Runs (stateReg (illegalOf (.smxm h d a b)) b) s0 kb s0) (htags : Runs (do checkState ka; checkState kb) s0 () s0)
    (hc : Runs capture s0 c s0) (hoa : Runs (vBits ka) s0 oa s0) (hma : Runs (vBits (ka + 1)) s0 ma s0) (hob : Runs (vBits kb) s0 ob s0)
    (hmb : Runs (vBits (kb + 1)) s0 mb s0)
    (hwrite :
      let m := smxMax c (lane ma 32 0) (lane mb 32 0)
      let wa := smxAlpha c (lane ma 32 0) m
      let wb := smxAlpha c (lane mb 32 0) m
      Runs (do
        wrV kd (packLanes 32 fun k => smxMix c (lane oa 32 k) wa (lane ob 32 k) wb) 1
        wrV (kd + 1) (m + smxMix c (lane ma 32 1) wa (lane mb 32 1) wb * 2 ^ 32) 1) s0 () s1) :
    exec (.smxm h d a b) s = retired t h .seq s1 := by
  have hlegal : th.ctl.rep = none → ([d, a, b].any fun v => decide (v.val % 2 ≠ 0)) = false := fun hrep => by
    obtain ⟨h1, h2, h3⟩ := heven hrep
    simp only [List.any_cons, List.any_nil, h1, h2, h3, ne_eq, not_true_eq_false, decide_false, Bool.or_self]
  obtain ⟨_, _, hta, htb⟩ := Runs.split htags
  obtain ⟨_, _, hlanes, hmax⟩ := Runs.split hwrite
  exact issueCheck_runs hi (badNumbers_none hi hlegal) (Runs.bind hd (Runs.bind ha (Runs.bind hb (Runs.bind hta (Runs.bind htb (Runs.bind hc
    (Runs.bind hoa (Runs.bind hma (Runs.bind hob (Runs.bind hmb (Runs.bind hlanes (Runs.bind hmax (Runs.pure _ s1)))))))))))))

section Final
variable (heven : th.ctl.rep = none → a.val % 2 = 0) (ha : Runs (stateReg (illegalOf (.smxf h gd d a)) a) s0 ka s0)
  (htags : Runs (checkState ka) s0 () s0) (hc : Runs capture s0 c s0) (hoa : Runs (vBits ka) s0 oa s0) (hma : Runs (vBits (ka + 1)) s0 ma s0)
  (hd : Runs (renV d.val) s0 kd s0)
include heven ha htags hc hoa hma hd

/-- SMXF writes the quotients, or zeros where the state has taken nothing in. -/
theorem smxf_divides {x : Nat} {g : Bool} (hvalue : lane ma 32 0 = fp32NegInf ∧ x = 0 ∧ g = true ∨
      lane ma 32 0 ≠ fp32NegInf ∧ x = packLanes 32 (fun k => (divF c fp32 (lane oa 32 k) (lane ma 32 1)).bits) ∧ g = false)
    (hwrite : Runs (do wrV kd x 1; setGuard gd g) s0 () s1) : exec (.smxf h gd d a) s = retired t h .seq s1 := by
  have hlegal : th.ctl.rep = none → decide (a.val % 2 ≠ 0) = false := fun hrep => decide_eq_false fun h => h (heven hrep)
  obtain ⟨_, _, hlanes, hguard⟩ := Runs.split hwrite
  refine issueCheck_runs hi (badNumbers_none hi hlegal) (Runs.bind ha (Runs.bind htags (Runs.bind hc (Runs.bind hoa (Runs.bind hma
    (Runs.bind hd ?_))))))
  obtain ⟨hempty, hx, hg⟩ | ⟨hfull, hx, hg⟩ := hvalue
  all_goals
    rw [hx] at hlanes
    rw [hg] at hguard
  · exact Runs.chosen hempty (Runs.bind hlanes (Runs.bind hguard (Runs.pure _ s1)))
  · exact Runs.passes hfull (Runs.bind hlanes (Runs.bind hguard (Runs.pure _ s1)))

end Final

section Random
variable {cr kr : Reg} {key : Nat} {cv kv : Word} {sp : Span} (hcheck : Runs (do checkHandle cr.val; checkHandle kr.val) s0 () s0)
  (hcount : Runs (rdReg cr.val) s0 cv s0) (hkey : Runs (rdReg kr.val) s0 kv s0) (hspan : Runs (localSpan kv 16 16 false) s0 sp s0)
  (hbytes : Runs (readSpan kv sp) s0 key s1) (hd : Runs (renV d.val) s1 kd s1)
include hcheck hcount hkey hspan hbytes hd

/-- The 512 random bits of a counter's step. -/
def randomBits (key : Nat) (cv : Word) : Nat := pack ((List.range 16).map fun k => (128, mixBlock key cv.toNat k))

theorem rng_unit (hwrite : Runs (do wrV kd (packLanes 32 fun k => unitFloat (lane (randomBits key cv) 32 k)) 1; wrReg cr (cv + 1)) s1 () s2) :
    exec (.rng h d cr kr true) s = retired t h .seq s2 := by
  obtain ⟨_, _, hcr, hkr⟩ := Runs.split hcheck
  exact issueSeq_runs hi (Runs.bind hcr (Runs.bind hkr (Runs.bind hcount (Runs.bind hkey (Runs.bind hspan (Runs.bind hbytes (Runs.bind hd
    (Runs.chosen rfl hwrite))))))))

theorem rng_raw (hwrite : Runs (do wrV kd (randomBits key cv) 9; wrReg cr (cv + 1)) s1 () s2) :
    exec (.rng h d cr kr false) s = retired t h .seq s2 := by
  obtain ⟨_, _, hcr, hkr⟩ := Runs.split hcheck
  exact issueSeq_runs hi (Runs.bind hcr (Runs.bind hkr (Runs.bind hcount (Runs.bind hkey (Runs.bind hspan (Runs.bind hbytes (Runs.bind hd
    (Runs.passes Bool.false_ne_true hwrite))))))))

end Random

end SoftMaximum

/-- Settles O16: each instruction is its stages in a row, its lanes written at once. -/
theorem vectorOthersAndSoftMaximumComplete : Obligations.VectorOthersAndSoftMaximumComplete := by
  unfold Obligations.VectorOthersAndSoftMaximumComplete
  refine ⟨fun h t th s s0 s1 s2 d va dm sm dr a i b m sgn cond fmt seg f tag p q w k old ka kd book src c mk v l sp hi => ?vectors,
    fun h t th s s0 s1 s2 gd d a b cr kr kd ka kb oa ma ob mb key c cv kv sp hi => ?softMaximum⟩
  case vectors =>
    refine ⟨?lanes, ?vsel, ?vperm, vbcast_broadcasts hi, vcvt_converts hi, vcb_loads hi⟩
    case lanes =>
      rintro hc hm rfl
      refine ⟨fun htag hsrcs => ⟨vcmp_whole hi hc hm htag hsrcs, vcmp_masked hi hc hm htag hsrcs⟩,
        fun htag hsrc => ⟨fun hf => ⟨fun hwrite => ?vsumFloat, fun hwrite => ?vmaxrFloat⟩, fun hf => ⟨fun hwrite => ?vsumInt, fun hwrite => ?vmaxrInt⟩⟩⟩
      all_goals simp only [exec, execVsum, execVmaxr]
      case vsumFloat | vmaxrFloat => exact reduction_float hi hc hm htag hsrc hf hwrite
      case vsumInt | vmaxrInt => exact reduction_int hi hc hm htag hsrc hf hwrite
    case vsel =>
      rintro htag rfl
      exact vsel_selects hi htag
    case vperm =>
      rintro htags hwide rfl
      exact vperm_permutes hi htags hwide
  case softMaximum =>
    exact ⟨smxm_merges hi, fun heven ha htags hc hoa hma hd => ⟨fun hempty => smxf_divides hi heven ha htags hc hoa hma hd (.inl ⟨hempty, rfl, rfl⟩),
        fun hfull => smxf_divides hi heven ha htags hc hoa hma hd (.inr ⟨hfull, rfl, rfl⟩)⟩,
      fun hcheck hcount hkey hspan hbytes hd => ⟨rng_unit hi hcheck hcount hkey hspan hbytes hd, rng_raw hi hcheck hcount hkey hspan hbytes hd⟩⟩

end Sys2Proof.Machine
end

section
/-!
Vector memory: contiguous VLD and VST (R409), VGATH and VSCAT (R410), and one turn of a shaped VLD or VST (R408), each from stages that complete.
-/
namespace Sys2Proof.Machine

/-! ### Contiguous accesses -/

section Contiguous
variable {h : Hdr} {t : ThreadId} {th : Thread} {s s0 s1 s2 s3 : State} {d : VReg} {b : Opnd} {x : Src} {m : VMask} {fmt : BitVec 4} {pl : Bool}
  {a : Word} {mk : Option Nat} {k new old tag : Nat} (hi : Issues h t th s s0) (haddr : Runs (baseIndex h b x) s0 a s1)
  (hm : Runs (maskOf m) s1 mk s1) (hren : Runs (renV d.val) s1 k s1)
include hi haddr hm hren

theorem vldContiguous_loads (hcheck : Runs (contiguousCheck a pl (contiguousRuns fmt.toNat mk a)) s1 () s1)
    (hread : Runs (readRuns h.hint.toNat pl (some a) (contiguousRuns fmt.toNat mk a)) s1 new s2) (hold : Runs (vBits k) s2 old s2)
    (hwrite : Runs (wrV k (mergeLanes (laneW fmt.toNat) mk old new) fmt.toNat) s2 () s3) :
    exec (.vldContiguous h d b x m fmt pl) s = retired t h .seq s3 :=
  issueSeq_runs hi (Runs.bind haddr (Runs.bind hm (Runs.bind hren (Runs.bind hcheck (Runs.bind hread (Runs.bind hold hwrite))))))

theorem vstContiguous_stores (htag : Runs (vTag k) s1 tag s1) (hcheck : Runs (contiguousCheck a pl (contiguousRuns tag mk a)) s1 () s1)
    (hbits : Runs (vBits k) s1 new s1) (hwrite : Runs (writeRuns pl (some a) new (contiguousRuns tag mk a)) s1 () s2) :
    exec (.vstContiguous h d b x m pl) s = retired t h .seq s2 :=
  issueSeq_runs hi (Runs.bind haddr (Runs.bind hm (Runs.bind hren (Runs.bind htag (Runs.bind hcheck (Runs.bind hbits hwrite))))))

end Contiguous

/-! ### VGATH and VSCAT -/

section Indexed
variable {h : Hdr} {t : ThreadId} {th : Thread} {s s0 s1 s2 s3 : State} {d i : VReg} {rec' : Reg} {m : VMask} {mk : Option Nat}
  {k new old idx : Nat} {r : Shape} {lp : List (VRun × Nat)} {ll : List (VRun × Span)} {g : Stage} (hi : Issues h t th s s0)
  (hshape : Runs (indexedShape rec' i) s0 (r, idx) s1)
include hi hshape

section Gather
variable (hc : s1.cur = .thread t) (hm : Runs (maskOf m) s1 mk s1) (hren : Runs (renV d.val) s1 k s1) (hgoal : g.goal = .gather k r.fmt mk) (hold : Runs (vBits k) s2 old s2)
  (hwrite : Runs (wrV k (mergeLanes (laneW r.fmt) mk old g.a) r.fmt) s2 () s3)
include hc hm hren hgoal hold hwrite

theorem vgath_plain (hkind : r.kind = 1) (hphys : Runs (runPhyses .rd (indexedRuns r mk idx)) s1 lp s1) (hfence : Runs (fenceHold 0) s1 () s1)
    (hpieces : Runs (runPieces (plainLanes lp) ⟨.gather k r.fmt mk, 0, 0, plainLanes lp, h.hint.toNat, h.eog, h.ya⟩) s1 g s2) :
    exec (.vgath h d i rec' m) s = retired t h .seq s3 :=
  issueSeq_runs hi (Runs.bind hshape (Runs.bind hm (Runs.chosen hkind (Runs.bind hphys (Runs.bind hfence (Runs.bind (Runs.pure _ s1)
    (Runs.bind hren (startStage_runs hc Bool.noConfusion hpieces (finishGather_runs hgoal hold hwrite)))))))))

theorem vgath_local (hkind : r.kind ≠ 1) (hspans : Runs (runSpans (indexedRuns r mk idx)) s1 ll s1)
    (hpieces : Runs (runPieces (localLanes ll) ⟨.gather k r.fmt mk, 0, 0, localLanes ll, h.hint.toNat, h.eog, h.ya⟩) s1 g s2) :
    exec (.vgath h d i rec' m) s = retired t h .seq s3 :=
  issueSeq_runs hi (Runs.bind hshape (Runs.bind hm (Runs.passes hkind (Runs.bind (Runs.map hspans) (Runs.bind hren
    (startStage_runs hc Bool.noConfusion hpieces (finishGather_runs hgoal hold hwrite)))))))

end Gather

section Scatter
variable (hren : Runs (renV d.val) s1 k s1) (htag : Runs (vTag k) s1 r.fmt s1)
include hren htag

theorem vscat_empty (hcount : r.count = 0) : exec (.vscat h d i rec' m) s = retired t h .seq s1 :=
  issueSeq_runs hi (Runs.bind hshape (Runs.bind hren (Runs.bind htag (Runs.passes (fun h => h rfl) (Runs.chosen hcount (Runs.pure () s1))))))

variable (hc : s1.cur = .thread t) (hcount : r.count ≠ 0) (hm : Runs (maskOf m) s1 mk s1) (hbits : Runs (vBits k) s1 new s1) (hgoal : g.goal = .scatter new)
include hc hcount hm hbits hgoal

theorem vscat_plain (hkind : r.kind = 1) (hconfirmed : Runs waitConfirmed s1 () s1) (hphys : Runs (runPhyses .wr (indexedRuns r mk idx)) s1 lp s1)
    (hroom : Runs storeRoom s1 () s1)
    (hpieces : Runs (runPieces (plainLanes lp) ⟨.scatter new, 0, 0, plainLanes lp, h.hint.toNat, h.eog, h.ya⟩) s1 g s2) :
    exec (.vscat h d i rec' m) s = retired t h .seq s2 :=
  issueSeq_runs hi (Runs.bind hshape (Runs.bind hren (Runs.bind htag (Runs.passes (fun h => h rfl) (Runs.passes hcount (Runs.bind hm (Runs.bind hbits
    (Runs.chosen hkind (Runs.bind hphys (Runs.bind hconfirmed (Runs.bind hroom (Runs.bind (Runs.pure _ s1)
      (startStage_runs hc Bool.noConfusion hpieces (finishScatter_runs hgoal))))))))))))))

theorem vscat_local (hkind : r.kind ≠ 1) (hspans : Runs (runSpans (indexedRuns r mk idx)) s1 ll s1)
    (hconfirmed : (ll.any fun e => decide (wfield e.1.a 54 2 ≠ 3)) = true → Runs waitConfirmed s1 () s1) (htyped : Runs (checkTyped none ll) s1 () s1)
    (hpieces : Runs (runPieces (localLanes ll) ⟨.scatter new, 0, 0, localLanes ll, h.hint.toNat, h.eog, h.ya⟩) s1 g s2) :
    exec (.vscat h d i rec' m) s = retired t h .seq s2 :=
  issueSeq_runs hi (Runs.bind hshape (Runs.bind hren (Runs.bind htag (Runs.passes (fun h => h rfl) (Runs.passes hcount (Runs.bind hm (Runs.bind hbits
    (Runs.passes hkind (Runs.bind hspans (Runs.checked hconfirmed (Runs.bind htyped (Runs.bind (Runs.pure _ s1)
      (startStage_runs hc Bool.noConfusion hpieces (finishScatter_runs hgoal))))))))))))))

end Scatter

end Indexed

/-! ### Accesses by shape -/

/-- An instruction whose encoding the state leaves legal waits where its meaning does. -/
theorem issueCheck_waits {h : Hdr} {t : ThreadId} {th : Thread} {s s0 s1 : State} {bad : Option TrapRec} {body : Exec Flow} {ph : Phase}
    (hi : Issues h t th s s0) (hlegal : bad = none) (hbody : Fails body s0 (.wait ph) s1) : issueCheck bad h body s = .next (setPhase s1 t ph) := by
  subst hlegal
  exact issue_fails hi hbody

section Shaped
variable {h : Hdr} {t : ThreadId} {th : Thread} {s s0 s1 s2 s3 : State} {d : VReg} {rec' pos : Reg} {m : VMask} {nregM1 : BitVec 5} {bad : TrapRec}
  {v : Word} {mk : Option Nat} {kd n p k new old : Nat} {r : Shape} {early : Shape → Nat → Exec Unit} {go : Shape → Nat → Nat → Exec Unit}
  (hi : Issues h t th s s0) (hren : Runs (renV d.val) s0 kd s0) (hn : n = nregM1.toNat + 1) (hfits : kd + n ≤ 32)
  (hnumber : th.ctl.rep = none → d.val + n ≤ 32) (hhandles : Runs (do checkHandle rec'.val; checkHandle pos.val) s0 () s0)
  (hrec : Runs (chunkShape rec') s0 r s1) (hpos : Runs (rdReg pos.val) s1 v s1) (hp : p = v.toNat)
include hi hren hn hfits hnumber hhandles hrec hpos hp

theorem shapeAccess_over (hover : r.count = 0 ∨ r.count ≤ p) : shapeAccess bad h d rec' pos nregM1 early go s = retired t h .seq s1 := by
  subst hn hp
  have hlegal := badNumbers_none (bad := bad) hi fun hrep => decide_eq_false (Nat.not_lt.2 (hnumber hrep))
  obtain ⟨_, _, hh, hh'⟩ := Runs.split hhandles
  exact issueCheck_runs hi hlegal (Runs.bind hren (Runs.passes (Nat.not_lt.2 hfits) (Runs.bind hh (Runs.bind hh' (Runs.bind hrec (Runs.bind hpos
    (Runs.chosen hover (Runs.pure _ s1))))))))

/-- One chunk is one turn (log entry 54): the thread goes on with the next chunk, or past the instruction. -/
theorem shapeAccess_chunk (hk : k = p / laneCount (laneW r.fmt)) (hcount : r.count ≠ 0) (hahead : p < r.count) (hstart : p % laneCount (laneW r.fmt) = 0)
    (hearly : Runs (early r p) s1 () s1) (hgo : Runs (go r (kd + k % n) p) s1 () s2)
    (hnext : Runs (wrReg pos (BitVec.ofNat 64 (min (p + laneCount (laneW r.fmt)) r.count))) s2 () s3) :
    shapeAccess bad h d rec' pos nregM1 early go s =
      if min (p + laneCount (laneW r.fmt)) r.count = r.count ∨ k % n = n - 1 then retired t h .seq s3 else .next (setPhase s3 t .ready) := by
  subst hn hp hk
  have hlegal := badNumbers_none (bad := bad) hi fun hrep => decide_eq_false (Nat.not_lt.2 (hnumber hrep))
  obtain ⟨_, _, hh, hh'⟩ := Runs.split hhandles
  have hmore : ¬ (r.count = 0 ∨ r.count ≤ v.toNat) := not_or.2 ⟨hcount, Nat.not_le.2 hahead⟩
  split
  · next hlast =>
    exact issueCheck_runs hi hlegal (Runs.bind hren (Runs.passes (Nat.not_lt.2 hfits) (Runs.bind hh (Runs.bind hh' (Runs.bind hrec (Runs.bind hpos
      (Runs.passes hmore (Runs.passes (fun h => h hstart) (Runs.bind hearly (Runs.bind hgo (Runs.bind hnext
        (Runs.passes (by rw [decide_eq_true hlast]; decide) (Runs.pure _ s3)))))))))))))
  · next hlast =>
    exact issueCheck_waits hi hlegal (Fails.bind hren (Fails.passes (Nat.not_lt.2 hfits) (Fails.bind hh (Fails.bind hh' (Fails.bind hrec
      (Fails.bind hpos (Fails.passes hmore (Fails.passes (fun h => h hstart) (Fails.bind hearly (Fails.bind hgo (Fails.bind hnext
        (Fails.chosen (by rw [decide_eq_false hlast]; rfl) (Fails.first (Fails.throw _ s3))))))))))))))

end Shaped

/-- Settles O17: each instruction is its stages in a row. That one chunk of a shaped access is one turn (log entry 54), and that a gathering's and a
scattering's pieces are staged between turns (log entry 60), are the model's choices. -/
theorem vectorMemoryInstructionsComplete : Obligations.VectorMemoryInstructionsComplete := by
  unfold Obligations.VectorMemoryInstructionsComplete
  intro h t th s s0 s1 s2 s3 d i b x rec' pos m fmt pl nregM1 a v mk k kd n p new old idx tag r lp ll g hi
  refine ⟨fun haddr hm hren => ⟨vldContiguous_loads hi haddr hm hren, vstContiguous_stores hi haddr hm hren⟩, fun hshape hc => ⟨?gather, ?scatter⟩,
    fun hren hn hfits hnumber hhandles hrec hpos hp hk => ⟨fun hover => ?past, fun hcount hahead hstart => ⟨?load, ?store⟩⟩⟩
  case gather =>
    exact fun hm hren => ⟨fun hkind hphys hfence hpieces hgoal hold hwrite =>
        vgath_plain hi hshape hc hm hren hgoal hold hwrite hkind hphys hfence hpieces,
      fun hkind hspans hpieces hgoal hold hwrite => vgath_local hi hshape hc hm hren hgoal hold hwrite hkind hspans hpieces⟩
  case scatter =>
    exact fun hren htag => ⟨vscat_empty hi hshape hren htag, fun hcount hm hbits => ⟨fun hkind hconfirmed hphys hroom hpieces hgoal =>
        vscat_plain hi hshape hren htag hc hcount hm hbits hgoal hkind hconfirmed hphys hroom hpieces,
      fun hkind hspans hconfirmed htyped hpieces hgoal =>
        vscat_local hi hshape hren htag hc hcount hm hbits hgoal hkind hspans hconfirmed htyped hpieces⟩⟩
  case past =>
    constructor
    · change execVld h d rec' pos m nregM1 s = _
      unfold execVld
      exact shapeAccess_over hi hren hn hfits hnumber hhandles hrec hpos hp hover
    · change execVst h d rec' pos m nregM1 s = _
      unfold execVst
      exact shapeAccess_over hi hren hn hfits hnumber hhandles hrec hpos hp hover
  case load =>
    intro hm hread hold hend
    obtain ⟨_, _, hwrite, hnext⟩ := Runs.split hend
    change execVld h d rec' pos m nregM1 s = _
    unfold execVld
    exact shapeAccess_chunk hi hren hn hfits hnumber hhandles hrec hpos hp hk hcount hahead hstart (Runs.pure () s1)
      (Runs.bind hm (Runs.bind hread (Runs.bind hold hwrite))) hnext
  case store =>
    intro hren1 htags hm hbits hend
    obtain ⟨_, _, hwrite, hnext⟩ := Runs.split hend
    subst hn
    change execVst h d rec' pos m nregM1 s = _
    unfold execVst
    exact shapeAccess_chunk hi hren rfl hfits hnumber hhandles hrec hpos hp hk hcount hahead hstart (Runs.bind hren1 htags)
      (Runs.bind hm (Runs.bind hbits hwrite)) hnext

end Sys2Proof.Machine
end
